-- ==== Sys2Proof/Word.lean ====
section
/-! DEFINITION. The word types of the device: bytes, 32-bit and 64-bit words, and byte strings.
R10: every multi-byte field is little-endian, and bit 0 is the least significant bit. -/
namespace Sys2Proof

/-- One byte of any memory, flit, message or image. -/
abbrev Byte := BitVec 8

/-- A 32-bit word: an FP32 pattern, a control-core register, a summary. -/
abbrev Word := BitVec 32

/-- A 64-bit word: an INT64 element, a counter, a job seed. -/
abbrev DWord := BitVec 64

/-- A byte string in address order. -/
abbrev Bytes := List Byte

end Sys2Proof
end

