-- ==== Sys2Proof/Syntax.lean ====
section
/-! DEFINITION. The commands of the block: one constructor of `Instr` for each row of spec/opcode_table.json, each a step
that is whole and indivisible (95_what_each_step_holds). A command carries only what the module cannot know by itself:
which unit it concerns, the bytes that arrive, a measured value, or the outcome of a published standard's computation. -/
namespace Sys2Proof

/-- A management message as framed on one TCP connection (R386). -/
structure Msg where
  /-- the TCP connection it arrives on, a name of the sender's choosing -/
  conn : Nat
  /-- the 32-byte header -/
  hdr : Bytes
  /-- the body -/
  body : Bytes
  /-- the 32-byte tag -/
  tag : Bytes
deriving DecidableEq, Repr

/-- A flit as a fabric port receives it: 280 bytes in a slot of one lane (R218, R221). -/
structure FlitRx where
  /-- the physical port -/
  port : Fin 32
  /-- the lane whose slot carried the flit -/
  lane : Fin 8
  /-- route header, payload and link trailer -/
  bytes : Bytes
deriving DecidableEq, Repr

/-- A matrix a stream signals (R303); other names one that R303 does not list. -/
inductive Matrix where
  /-- BT.601 -/
  | bt601
  /-- BT.709 -/
  | bt709
  /-- BT.2020 non-constant luminance -/
  | bt2020
  /-- another, by a code of its standard -/
  | other (code : Nat)
deriving DecidableEq, Repr

/-- The colour form of a decoded picture (R303). -/
inductive ColourForm where
  /-- YCbCr under a matrix -/
  | ycc (m : Matrix)
  /-- RGB planes -/
  | rgb
  /-- one grey plane -/
  | grey
deriving DecidableEq, Repr

/-- A decoded picture, planes in row-major order (R299, R303, R320, R321). -/
structure Picture where
  /-- width -/
  w : Nat
  /-- height -/
  h : Nat
  /-- bit depth -/
  depth : Nat
  /-- full range; otherwise limited range (R303) -/
  full : Bool
  /-- colour form -/
  form : ColourForm
  /-- horizontal chroma sampling factor and the largest one: chroma column floor(x Hc / Hmax) (R303, R320) -/
  hc : Nat
  /-- largest horizontal sampling factor -/
  hmax : Nat
  /-- vertical chroma sampling factor -/
  vc : Nat
  /-- largest vertical sampling factor -/
  vmax : Nat
  /-- width of a chroma plane -/
  cw : Nat
  /-- first plane: Y, R or grey -/
  p0 : List Nat
  /-- second plane: Cb or G -/
  p1 : List Nat
  /-- third plane: Cr or B -/
  p2 : List Nat
deriving DecidableEq, Repr

/-! Media parts. A decoder's operand holds what a published standard reads from the part's bytes: its header fields, the outcome of its
check sums, its entropy-decoded values. What R293 and R314 to R323 make of them is computed in Machine/. -/

/-- A component of a JPEG frame (R320). -/
structure JpegComp where
  /-- horizontal sampling factor -/
  hs : Nat
  /-- vertical sampling factor -/
  vs : Nat
  /-- blocks in a row of the component -/
  bw : Nat
  /-- dequantised coefficients the scans supply: (64 block + 8 u + v, value), u vertical and v horizontal -/
  coeffs : List (Nat × Int)
deriving DecidableEq, Repr

/-- A JPEG part (R320). -/
structure Jpeg where
  /-- n of its SOFn -/
  sof : Nat
  /-- sample precision in bits -/
  precision : Nat
  /-- width -/
  w : Nat
  /-- height -/
  h : Nat
  /-- a DNL marker is present -/
  dnl : Bool
  /-- the transform of its APP14 segment, where it has one -/
  app14 : Option Nat
  /-- components -/
  comps : List JpegComp
  /-- every entropy-coded segment reaches its last MCU, without a syntax error -/
  whole : Bool
deriving DecidableEq, Repr

/-- A PNG part (R321). -/
structure Png where
  /-- IHDR, IDAT and IEND are present -/
  hasIhdr : Bool
  /-- IDAT is present -/
  hasIdat : Bool
  /-- IEND is present -/
  hasIend : Bool
  /-- width -/
  w : Nat
  /-- height -/
  h : Nat
  /-- bit depth -/
  depth : Nat
  /-- colour type -/
  colour : Nat
  /-- every chunk CRC matches -/
  crcOk : Bool
  /-- the zlib Adler-32 matches, and the stream inflates to every row -/
  adlerOk : Bool
  /-- PLTE: red, green, blue -/
  palette : List (Nat × Nat × Nat)
  /-- the pixels' channel codes in row-major order, after unfiltering and, in an interlaced image, after Adam7 -/
  px : List (List Nat)
deriving DecidableEq, Repr

/-- Chroma formats (R315). -/
inductive Chroma where
  /-- monochrome, 4:0:0 -/
  | mono
  /-- 4:2:0 -/
  | c420
  /-- 4:2:2 -/
  | c422
  /-- 4:4:4 -/
  | c444
deriving DecidableEq, Repr

/-- HEVC profiles (R315). -/
inductive HevcProfile where
  /-- Main -/
  | main
  /-- Main 10 -/
  | main10
  /-- Main Still Picture -/
  | still
  /-- range extensions, screen content, multilayer, or another -/
  | other
deriving DecidableEq, Repr

/-- H.264 profiles (R315). -/
inductive H264Profile where
  /-- Constrained Baseline -/
  | constrainedBaseline
  /-- Baseline, and whether it uses FMO, ASO or redundant slices -/
  | baseline (extras : Bool)
  /-- Main -/
  | main
  /-- High -/
  | high
  /-- Extended, High 10, High 4:2:2, High 4:4:4, or another -/
  | other
deriving DecidableEq, Repr

/-- What a sequence header says of its codec (R315, R316). -/
inductive VideoProfile where
  /-- AV1: seq_profile, large-scale tile -/
  | av1 (seqProfile : Nat) (largeScaleTile : Bool)
  /-- HEVC: profile, field_seq_flag, sps_max_dec_pic_buffering_minus1 -/
  | hevc (profile : HevcProfile) (fieldSeq : Bool) (maxDecMinus1 : Nat)
  /-- H.264: profile, frame_mbs_only_flag, max_dec_frame_buffering where stated, the level's limit -/
  | h264 (profile : H264Profile) (frameMbsOnly : Bool) (maxDec : Option Nat) (levelFrames : Nat)
deriving DecidableEq, Repr

/-- A sequence header or sequence parameter set (R314). -/
structure SeqHdr where
  /-- width -/
  w : Nat
  /-- height -/
  h : Nat
  /-- bit depth -/
  depth : Nat
  /-- chroma format -/
  chroma : Chroma
  /-- codec's own fields -/
  profile : VideoProfile
  /-- matrix it signals -/
  mat : Option Matrix
  /-- full range -/
  full : Bool
deriving DecidableEq, Repr

/-- Kinds of pictures a start point can be (R318). -/
inductive PicKind where
  /-- an IDR picture (HEVC, H.264) -/
  | idr
  /-- a CRA picture -/
  | cra
  /-- a BLA picture -/
  | bla
  /-- an AV1 key frame -/
  | key
  /-- any other -/
  | other
deriving DecidableEq, Repr

/-- A coded picture as its headers give it (R314, R317, R318). -/
structure VideoPic where
  /-- its sequence header, by number -/
  seq : Nat
  /-- kind -/
  kind : PicKind
  /-- AV1: show_frame; HEVC and H.264: the picture is output -/
  shown : Bool
  /-- places in the part's output order, counted from its first output picture -/
  outs : List Nat
  /-- picture order count (HEVC) -/
  poc : Int
  /-- recovery_poc_cnt (HEVC) or recovery_frame_cnt (H.264) of its recovery point SEI message -/
  recovery : Option Int
  /-- AV1: metadata OBUs of its temporal unit: metadata_type and payload -/
  metas : List (Nat × Bytes)
  /-- HEVC: a RASL picture of the picture of this number in decode order -/
  raslOf : Option Nat
  /-- pictures it references, by number in decode order -/
  reads : List Nat
  /-- reference indices its references name -/
  names : List Nat
  /-- reference indices at which the codec's reference process places it -/
  places : List Nat
  /-- reference indices the process removes -/
  drops : List Nat
deriving DecidableEq, Repr

/-- What the survey of a video part parses (R314). -/
inductive SurveyOut where
  /-- sequence headers, and coded pictures in decode order -/
  | stream (seqs : List SeqHdr) (pics : List VideoPic)
  /-- a syntax error in the headers -/
  | corrupt
deriving DecidableEq, Repr

/-- A picture as a pixel engine reconstructs it: 4:2:0 planes, or luma alone (R313, R315). -/
structure Planes where
  /-- width -/
  w : Nat
  /-- height -/
  h : Nat
  /-- bit depth -/
  depth : Nat
  /-- luma codes in row-major order -/
  y : List Nat
  /-- Cb codes; none in a monochrome picture -/
  cb : List Nat
  /-- Cr codes; none in a monochrome picture -/
  cr : List Nat
deriving DecidableEq, Repr

/-- The primary item of an AVIF file (R322). -/
inductive AvifItem where
  /-- a single av01 image item -/
  | av01
  /-- a grid -/
  | grid
  /-- an image sequence -/
  | sequence
  /-- a tone-map item -/
  | toneMap
  /-- another item -/
  | other
deriving DecidableEq, Repr

/-- An AVIF part (R322). -/
structure Avif where
  /-- primary item -/
  item : AvifItem
  /-- the sequence header of its AV1 picture -/
  seq : SeqHdr
  /-- an nclx colr box: its matrix and range -/
  nclx : Option (Matrix × Bool)
deriving DecidableEq, Repr

/-- WAV sample formats, a WAVE_FORMAT_EXTENSIBLE by its subformat (R323). -/
inductive WavForm where
  /-- WAVE_FORMAT_PCM -/
  | pcm
  /-- WAVE_FORMAT_IEEE_FLOAT -/
  | float
  /-- A-law, mu-law or another -/
  | other
deriving DecidableEq, Repr

/-- An audio stream, its codes one list a channel (R323). -/
inductive AudioCode where
  /-- FLAC: bits of a sample; every frame CRC matches; the MD5 of STREAMINFO is zero or matches; PCM codes -/
  | flac (bits : Nat) (crcOk md5Ok : Bool) (codes : List (List Int))
  /-- Opus: channel mapping family, output gain G, pre-skip, samples that the final granule position ends at; every page CRC matches; every
  packet decodes; 16-bit output of the reference decoder -/
  | opus (family : Nat) (gain : Int) (preSkip final : Nat) (crcOk packetsOk : Bool) (codes : List (List Int))
  /-- AAC-LC: object type, channel configuration, sampling frequency index; every ADTS CRC present matches and every frame decodes; the PNS
  noise numbers in the order they were drawn; FP32 samples -/
  | aac (objectType config freqIndex : Nat) (crcOk : Bool) (noise : List Nat) (samples : List (List Word))
  /-- WAV: sample format, bits of a sample; integer codes, or the bits of float samples -/
  | wav (form : WavForm) (bits : Nat) (codes : List (List Int))
deriving DecidableEq, Repr

/-- An audio part (R293, R323). -/
structure AudioPart where
  /-- sample rate -/
  rate : Nat
  /-- channels -/
  channels : Nat
  /-- PCM samples a channel: declared in the header (FLAC, WAV) or found by parsing the packets (Opus, AAC-LC) -/
  declared : Nat
  /-- the stream -/
  code : AudioCode
deriving DecidableEq, Repr

/-- What a media decoder reads from one part's bytes (R320 to R323), or the event that a part's last step is done. -/
inductive Decoded where
  /-- a JPEG image -/
  | jpeg (j : Jpeg)
  /-- a PNG image -/
  | png (p : Png)
  /-- an AVIF image -/
  | avif (a : Avif)
  /-- a video part: its pictures came one by one (R314) -/
  | video
  /-- audio -/
  | audio (a : AudioPart)
  /-- a text part; the tokenizer reads its bytes from the record (R309) -/
  | text
  /-- a syntax error before the headers give a size -/
  | corrupt
deriving DecidableEq, Repr

/-- How a frame of a feed port fails (R275). -/
inductive FrameFault where
  /-- its ICRC -/
  | icrc
  /-- it is uncorrectable by the Ethernet FEC -/
  | fec
deriving DecidableEq, Repr

/-- How a media unit fails by itself (R327). -/
inductive UnitFault where
  /-- an internal check fails -/
  | check
  /-- no handshake progress for 100 ms -/
  | stuck
deriving DecidableEq, Repr

/-- The straps as one sample reads them (R431). -/
structure Straps where
  /-- MEM_MODE: 0 LPDDR6, 1 GDDR7 -/
  memMode : Nat
  /-- MEM_DENS -/
  memDens : Nat
  /-- FEED_ID[3:0] -/
  feedId : Nat
  /-- SLOT_ID[7:0] -/
  slotId : Nat
  /-- HEAT_LAYOUT[1:0] -/
  heatLayout : Nat
deriving DecidableEq, Repr

/-- A firmware core that a restart can bring back (R337). -/
inductive CoreId where
  /-- the control core of a cluster -/
  | control (c : Fin 64)
  /-- the scheduler core -/
  | scheduler
  /-- the power core -/
  | power
  /-- the security core -/
  | security
deriving DecidableEq, Repr

/-- A unit whose progress monitor can declare a hang (R418). -/
inductive HangUnit where
  /-- a unit of a cluster -/
  | cluster (c : Fin 64)
  /-- a port's link engine -/
  | link (p : Fin 32)
  /-- any other unit of a heat -/
  | other (h : Fin 4)
deriving DecidableEq, Repr

/-- The events that raise a cluster's wake line (R362). -/
inductive WakeCause where
  /-- a channel or feed ring post to the cluster -/
  | post
  /-- the completion of a HURDLE -/
  | hurdle
  /-- a summary or encode completion for the control core -/
  | summary
  /-- a cluster restart -/
  | restart
  /-- the hardware floor -/
  | floor
deriving DecidableEq, Repr

/-- One received read of a granule: 36 stored bytes, or the device's own error report on a ZN4-G48 (R196). -/
inductive GranuleRead where
  /-- 32 data bytes and 4 check bytes -/
  | word (bs : Bytes)
  /-- GDDR7: a transfer error the link CRC reports, with the data the device holds -/
  | crcError (bs : Bytes)
  /-- GDDR7: the device's on-die ECC reports an uncorrectable error -/
  | deviceUncorrectable
deriving DecidableEq, Repr

/-- How a local flash write ends (R330, R345). -/
inductive FlashResult where
  /-- written, its header read back in order -/
  | ok
  /-- header_digest of what was read back differs -/
  | badReadBack
  /-- a command ends with an error in its NVMe completion status, on one drive -/
  | error (d : Fin 2)
deriving DecidableEq, Repr

/-- The commands: one constructor for each row of the table, in the table's order. -/
inductive Instr where
  -- matrix queue (R103, R108, R118, R123)
  | matmul (c : Fin 64)
  | convFwd (c : Fin 64)
  | convDgrad (c : Fin 64)
  | convWgrad (c : Fin 64)
  | maxpool (c : Fin 64)
  | avgpool (c : Fin 64)
  -- vector queue (R131, R142)
  | vec (c : Fin 64)
  | sum (c : Fin 64)
  | sumsq (c : Fin 64)
  | reduceMax (c : Fin 64)
  | reduceMin (c : Fin 64)
  | meanvar (c : Fin 64)
  | softmax (c : Fin 64)
  | softmaxBwd (c : Fin 64)
  -- mover queue (R209 to R212); tagFail: the end-to-end tag of a granule it writes fails at the memory controller (R197)
  | gather (c : Fin 64)
  | store (c : Fin 64) (tagFail : Bool)
  | fadd (c : Fin 64) (tagFail : Bool)
  | iadd (c : Fin 64) (tagFail : Bool)
  | imax (c : Fin 64) (tagFail : Bool)
  | imin (c : Fin 64) (tagFail : Bool)
  | plain (c : Fin 64) (tagFail : Bool)
  | kvRead (c : Fin 64)
  | kvWrite (c : Fin 64) (tagFail : Bool)
  | alloc (c : Fin 64) (tagFail : Bool)
  | share (c : Fin 64) (tagFail : Bool)
  | cow (c : Fin 64) (tagFail : Bool)
  | free (c : Fin 64) (tagFail : Bool)
  -- link queue (R235, R240, R257); tagFail: the end-to-end tag of a granule it reads fails (R242, R252)
  | send (c : Fin 64) (tagFail : Bool)
  | sendBaton (c : Fin 64) (tagFail : Bool)
  | wait (c : Fin 64)
  | combineLeft (c : Fin 64) (tagFail : Bool)
  | combineRight (c : Fin 64) (tagFail : Bool)
  | hurdle (c : Fin 64)
  -- control core (R40, R152, R324)
  | blkIssue (c : Fin 64)
  | streamFetch (c : Fin 64)
  | encIssue (c : Fin 64)
  | encWait (c : Fin 64)
  | encodeRequestStart (c : Fin 64)
  | encodeComplete (c : Fin 64) (tagFail : Bool)
  | sumGet (c : Fin 64)
  | bsumFlt (c : Fin 64)
  | bsumFge (c : Fin 64)
  | bsumFeq (c : Fin 64)
  | bsumFne (c : Fin 64)
  | bsumNan (c : Fin 64)
  | bsumUlt (c : Fin 64)
  | bsumUge (c : Fin 64)
  -- management sessions and messages (R385 to R404)
  | tcpConnect (conn addr tcpPort : Nat)
  | tcpLoss (conn : Nat)
  | attachPhase0 (m : Msg)
  | attachPhase1 (m : Msg) (sigOk decapOk : Bool)
  | listenTimeout (conn : Nat)
  | challengedTimeout (conn : Nat)
  | leaseExpiry (conn : Nat)
  | orphanGraceExpiry
  | detach (m : Msg)
  | loadFw (m : Msg) (sigOk : Bool)
  | writeConfig (m : Msg) (sigOk : Bool)
  | resetHeat (m : Msg)
  | resetModule (m : Msg)
  | loadImage (m : Msg)
  | start (m : Msg)
  | stopAtHurdle (m : Msg)
  | checkpointNow (m : Msg)
  | rearm (m : Msg)
  | queryStatus (m : Msg)
  | queryInventory (m : Msg)
  | queryAttest (m : Msg)
  | snapshot (m : Msg)
  | splits (m : Msg)
  | queryDump (m : Msg)
  | readLifelog (m : Msg)
  -- hurdle unit (R262 to R269)
  | join (f : FlitRx)
  | arrive (f : FlitRx)
  | hold (f : FlitRx)
  | request (f : FlitRx)
  | decideGo (f : FlitRx)
  | decideFalseStart (f : FlitRx)
  | decideStop (f : FlitRx)
  | feedQuery (f : FlitRx)
  | feedReply (f : FlitRx)
  | arrival (h : Fin 4)
  | windowExpiry (h : Fin 4)
  | joinLate (h : Fin 4)
  | decideTimeout (h : Fin 4)
  | heldTooLong (h : Fin 4)
  -- fabric links (R214 to R252)
  | laneFrame (p : Fin 32) (lane : Fin 8) (hdr : Bytes) (fec : Vector (Option (Fin 16)) 16)
  | dataFlit (f : FlitRx)
  | idle (f : FlitRx)
  | replay (f : FlitRx)
  | replayTimeout (p : Fin 32)
  | ack (f : FlitRx)
  | ackFlush (h : Fin 4) (dest : Nat)
  | landingWrite (h : Fin 4) (tagFail : Bool)
  | hello (f : FlitRx)
  | table (f : FlitRx)
  | tableInstall (p : Fin 32)
  | tableAck (f : FlitRx)
  | blockNack (f : FlitRx)
  | laneRetire (f : FlitRx)
  | laneAck (f : FlitRx)
  | subRetire (f : FlitRx)
  | subAck (f : FlitRx)
  | portRetrainTimeout (p : Fin 32)
  | laneTraining (p : Fin 32) (lane : Fin 8) (ok : Bool)
  -- memory system (R185 to R204)
  | memReadDecode (h : Fin 4) (granule : Nat) (reads : List GranuleRead) (reader : Option (Fin 64 × Fin 4))
  | migrationLine (ch : Fin 96) (unreadable : List Nat)
  | eccCountPoll (counts : List Nat)
  | dqsTracking
  | memTraining (ch : Fin 96) (ok : Bool)
  | serviceAdmit (ch : Fin 96) (repair programWaiting : Bool) (granules : Nat)
  -- sample pipeline (R273 to R310)
  | sampleFetch (h : Fin 4)
  | rdmaReadResponse (h : Fin 4) (fp : Fin 2) (server : Fin 64) (data : Bytes) (nak : Bool) (bad : Option FrameFault)
  | recordLanded (h : Fin 4) (sample : Nat)
  | ackTimeout (h : Fin 4) (fp : Fin 2) (server : Fin 64)
  | nakRetry (h : Fin 4) (fp : Fin 2) (server : Fin 64)
  | cePacket (h : Fin 4) (fp : Fin 2) (server : Fin 64)
  | cnpReceived (h : Fin 4) (fp : Fin 2) (server : Fin 64)
  | rateRecovery (h : Fin 4) (fp : Fin 2) (server : Fin 64)
  | arpRequest (fp : Fin 2) (target : Bytes)
  | neighborSolicitation (fp : Fin 2) (target : Bytes)
  | feedPortLinkDown (fp : Fin 2)
  | partDecoded (h : Fin 4) (sample partNo : Nat) (out : Decoded)
  | samplePost (h : Fin 4)
  -- media engines (R311 to R328)
  | survey (h : Fin 4) (sample partNo : Nat) (out : SurveyOut)
  -- read: pool slots the augmentation units have read by then (R317); planes: none where the picture holds a bitstream error (R327)
  | pictureDecoded (pair : Fin 8) (read : List Nat) (planes : Option Planes)
  | mediaWatchdog (unitNo : Fin 22) (why : UnitFault)
  -- power input, envelope and temperature (R352 to R369, R429)
  | pwrEnRise (lowMs : Nat)
  | railStep
  | railFailure
  | pwrEnFall
  | brownOut (mv : Nat)
  | brownOutEnd (mv : Nat)
  | inputUndervoltage (mv : Nat)
  | inputOvervoltage (mv : Nat)
  | inputRecovery (mv : Nat)
  | powerAverage (watts mv : Nat)
  | shedRound
  | hardwareLimit (watts : Nat)
  | heartbeatLapse
  | sensorRead (quarterC : List Int) (boardQuarterC : Int)
  | thermalTrip (sensor : Nat)
  | clockLoss
  | clockReturn
  | clockLossTimeout
  -- pacing (R357 to R362)
  | clusterIdle (c : Fin 64)
  | paceEvaluate (c : Fin 64) (rate75 rateNow : Nat)
  | jogToWalk (c : Fin 64)
  | pacingEntryDone (c : Fin 64)
  | exitTimer (c : Fin 64)
  | wakeLine (c : Fin 64) (why : WakeCause)
  | pacingExitDone (c : Fin 64)
  -- boot (R370, R371, R433)
  | pwrGood
  | strapLatch (samples : List Straps)
  | flashReadDone (readOk sigA sigB : Bool)
  | nvmeReadyTimeout (d : Fin 2)
  | ready
  -- faults, cores and checkpoints (R330 to R351, R413 to R422)
  | parityError (c : Fin 64)
  | controlCoreCrash (c : Fin 64)
  | schedulerCrash
  | powerCoreCrash
  | securityCoreCrash
  | coreRestartDone (core : CoreId) (ok : Bool)
  | batonHashDone (h : Fin 4)
  | localFlashWriteDone (h : Fin 4) (result : FlashResult)
  | sharedStoreWriteDone (h : Fin 4) (ok : Bool)
  | nvmeTimeout (d : Fin 2)
  | lifelogSummary
  | progressHang (u : HangUnit)
  | intraClusterDeadlock (c : Fin 64)
  | dumpWritten
  -- SMBus (R435, R436)
  | state
  | vin
  | pin
  | tjMax
  | tBoard
  | ident
  | alertCause
  | part
  | railFail
  | alertResponse
  -- JTAG (R437)
  | bypass (tdi : List Bool)
  | samplePreload (cells : List Bool)
  | extest
  | idcode
  | highz
  | clamp
  -- rows added at the end of the table
  | standbyRailRise
  | standbyRailLoss
  | managementPortLinkUp
  | feedPortLinkUp (fp : Fin 2)
  | nvmeDriveReady (d : Fin 2)
  | controlCoreInstruction (c : Fin 64)
  | perBankRefresh (ch : Fin 96) (bank : Fin 16)
deriving DecidableEq, Repr

end Sys2Proof
end

