-- ==== Sys2Proof/Decode.lean ====
section
/-! DEFINITION. The commands a word spells. The table gives no row any bits (every row of spec/opcode_table.json has an empty list
of fields), so no word spells a command. The words of the engines' own commands (R41, R42) are read in Machine/Program.lean,
those of the control core (R152, R444) in Machine/ControlCore.lean, those of flits and messages (R218, R386) in Machine/Link.lean
and Machine/Mgmt.lean. -/
namespace Sys2Proof

/-- No row of the table has bits: no word spells a command. -/
def decodeTableWord (_nbits _w : Nat) : Option Instr := none

end Sys2Proof
end

