-- ==== Sys2Proof/Config.lean ====
section
/-! DEFINITION. Values the spec leaves open, or that lie outside the module: opaque constants nothing can evaluate. Each is applied
to what it may depend on; `stamp` is the plain counter `free` of State, which every use of a fresh value advances. -/
namespace Sys2Proof

/-- The index MAXPOOL writes for a window of which no tap formed a value (R118 gives the value +0, R119 no index). -/
opaque Config.emptyPoolIndex : Nat → Nat → BitVec 32
/-- Handshake stages a command took on one account: busy, bank grants (R409, R411: timing only). -/
opaque Config.stages : Nat → Nat
/-- Ticks a command waited on one account (R409, R411: timing only). -/
opaque Config.ticks : Nat → Nat
/-- The line a cache slice evicts when one is allocated, by its place among the lines the slice holds, if any: R191 names no policy and no
sets. -/
opaque Config.evictedLine : Nat → Option Nat
/-- An accumulator register whose contents were lost with its supply, by the stamp of the loss and its key (R357). -/
opaque Config.lostRegister : Nat → Nat → Word
/-- The module nonce of an ATTACH exchange (R388). -/
opaque Config.moduleNonce : Nat → Bytes
/-- The fresh ML-KEM-768 encapsulation key of an ATTACH exchange (R388). -/
opaque Config.encapKey : Nat → Bytes
/-- The ML-KEM shared secret that a ciphertext gives under the key of an exchange (R388, R389). -/
opaque Config.kemSecret : Nat → Bytes → Bytes
/-- The device identity public key (R388). -/
opaque Config.deviceKey : Bytes
/-- The serial number (R388, R442). -/
opaque Config.serial : Bytes
/-- Ruathe's certificate signature over device key and serial (R388). -/
opaque Config.certificate : Bytes
/-- The SLH-DSA-SHA2-128f signature of the device identity key over a byte string (R388, R404). -/
opaque Config.deviceSignature : Nat → Bytes → Bytes
/-- The owner key digest fused at manufacture (R374). -/
opaque Config.ownerDigest : Bytes
/-- The digest boot ROM holds for a firmware key slot (R382). -/
opaque Config.fwKeyDigest : Nat → Bytes
/-- The revocation fuse of a firmware key slot (R382). -/
opaque Config.fwKeyRevoked : Nat → Bool
/-- The sequence header OBU, or VPS, SPS and PPS, of an encode request's stream (R326). -/
opaque Config.sequenceHeader : Nat → Bytes
/-- A recovery point SEI message by its recovery_poc_cnt, as a NAL unit with its start code (R326: H.265's own form). -/
opaque Config.recoverySei : Nat → Bytes
/-- A coded picture of an encode request: the request, whether it is a key picture, the first luma column intra-coded and the one after the
last, the source picture and the previous reconstruction (R326: a fixed function of them; coding is the standard's). Columns below the
first are refreshed already: a block there predicts only from columns at least 16 below it. -/
opaque Config.codedPicture : Nat → Bool → Nat → Nat → Bytes → Bytes → Bytes
/-- The reconstruction of that picture. -/
opaque Config.reconPicture : Nat → Bool → Nat → Nat → Bytes → Bytes → Bytes
/-- Bytes an encode pipeline had written when a tag failure on its source ended the request (R326 states no number). -/
opaque Config.encodeStop : Nat → Nat
/-- The Sprint ceiling in mV that the power core's projection allows (R365 gives no projection). -/
opaque Config.sprintGrant : Nat → Nat
/-- The invariant CRC of a RoCEv2 packet, by the fields it covers and its payload (R273: the transport's own standard). -/
opaque Config.icrc : List Nat → Bytes → Nat
/-- Kr and Kb in 10,000ths of a matrix that a stream signals and R303 does not list, by its code. -/
opaque Config.otherMatrix : Nat → Nat × Nat
/-- A byte of a bitstream-residual buffer, by the stamp of its content (R313: internal, opaque). -/
opaque Config.residualByte : Nat → Nat → Byte
/-- A byte of a hang dump (R419, R422: a smear of many units). -/
opaque Config.dumpByte : Nat → Nat → Byte
/-- The length of a hang dump before its slot's limit (R419, R422: a smear of many units). -/
opaque Config.dumpLen : Nat → Nat
/-- Whether a link transmitter now sends a code table, and which: generation, class, code lengths (R246: its own affair). -/
opaque Config.codeTable : Nat → Option (Nat × Nat × List Nat)
/-- The scheduler core's estimate of a folded step's time (R336). -/
opaque Config.foldEstimate : Nat → Nat
/-- What the relay partner sends for a restore, header and payload; none where it holds nothing (R349). -/
opaque Config.partnerPiece : Nat → Option Bytes
/-- The high halves of master record i that the relay partner sends with its half (R349): bytes of the WORK_HIGH range. -/
opaque Config.partnerHigh : Nat → Nat → Bytes
/-- What the shared store holds for a restore; none where it holds nothing (R349). -/
opaque Config.storePiece : Nat → Option Bytes
/-- A memory byte of a failed restore source, or any other value the spec does not state. -/
opaque Config.freeByte : Nat → Nat → Byte

end Sys2Proof
end

