-- ==== Sys2Proof/Machine/Bits.lean ====
section
/-! DEFINITION. Bit fields and byte order (R10): fields [high:low] of a number, little-endian byte strings, sign extension. -/
namespace Sys2Proof.Machine

/-- The field [hi:lo] of a number, both end bits included (R10). -/
def fld (w hi lo : Nat) : Nat := (w >>> lo) % 2 ^ (hi + 1 - lo)

/-- Bit i of a number. -/
def bitAt (w i : Nat) : Bool := (w >>> i) % 2 == 1

/-- The number a little-endian byte string spells (R10). -/
def leNat : Bytes → Nat
  | [] => 0
  | b :: bs => b.toNat + 256 * leNat bs

/-- The n low bytes of a number, little-endian (R10). -/
def natLE : Nat → Nat → Bytes
  | 0, _ => []
  | n + 1, v => BitVec.ofNat 8 v :: natLE n (v / 256)

/-- n bytes of a string from offset off; bytes past its end read as zero. -/
def bytesAt (bs : Bytes) (off n : Nat) : Bytes :=
  let t := (bs.drop off).take n
  t ++ List.replicate (n - t.length) 0

/-- The little-endian number in n bytes at offset off. -/
def leAt (bs : Bytes) (off n : Nat) : Nat := leNat (bytesAt bs off n)

/-- The signed value of a number of w bits in two's complement (R68). -/
def sgn (w v : Nat) : Int :=
  let u := v % 2 ^ w
  if u < 2 ^ (w - 1) then (u : Int) else (u : Int) - (2 ^ w : Nat)

/-- The w-bit two's complement pattern of an integer, modulo 2^w (R57, R68). -/
def wrap (w : Nat) (i : Int) : Nat := (i % ((2 ^ w : Nat) : Int)).toNat

/-- a / b rounded up. -/
def ceilDiv (a b : Nat) : Nat := (a + b - 1) / b

/-- v rounded up to a multiple of m. -/
def roundUp (v m : Nat) : Nat := ceilDiv v m * m

/-- The number of trailing zero bits of n, looking at no more than fuel bits. -/
def ctz : Nat → Nat → Nat
  | 0, _ => 0
  | f + 1, n => if n % 2 == 1 then 0 else 1 + ctz f (n / 2)

/-- Two half-open ranges share a byte. -/
def overlaps (a n b m : Nat) : Bool := n != 0 && m != 0 && a < b + m && b < a + n

/-- The integer square root rounded down, over the given number of result bits, most significant first. -/
def isqrtBits : Nat → Nat → Nat → Nat
  | 0, _, r => r
  | k + 1, x, r => let t := r + 2 ^ k; isqrtBits k x (if t * t ≤ x then t else r)

/-- The integer square root, rounded down (R300). -/
def isqrt (x : Nat) : Nat := isqrtBits (x.log2 / 2 + 1) x 0

/-- The smallest power of two not below n (R55). -/
def pow2Ceil (n : Nat) : Nat := if n ≤ 1 then 1 else 2 ^ ((n - 1).log2 + 1)

/-- The largest power of two not above n (R344, R347), for n of at least 1. -/
def pow2Floor (n : Nat) : Nat := 2 ^ n.log2

/-- Every bit of the field [hi:lo] is zero: the check of a reserved field (R11). -/
def rsv (w hi lo : Nat) : Bool := fld w hi lo == 0

/-- Insert into a list sorted by key. -/
def insertBy {α : Type} (le : α → α → Bool) (x : α) : List α → List α
  | [] => [x]
  | y :: ys => if le x y then x :: y :: ys else y :: insertBy le x ys

/-- Insertion sort. -/
def sortBy {α : Type} (le : α → α → Bool) (xs : List α) : List α :=
  xs.foldr (insertBy le) []

/-- The number of bits set in the low n bits of a mask. -/
def popcount (n w : Nat) : Nat := ((List.range n).filter (bitAt w)).length

/-- The list with position i replaced; the list itself where i is past its end. -/
def setAt {α : Type} (xs : List α) (i : Nat) (x : α) : List α := xs.set i x

/-- No value appears twice. -/
def nodupB {α : Type} [BEq α] : List α → Bool
  | [] => true
  | x :: xs => !xs.contains x && nodupB xs

/-- Cut a list into pieces of n; fuel bounds their number. -/
def cut {α : Type} (n : Nat) : Nat → List α → List (List α)
  | 0, _ => []
  | k + 1, xs => if xs.isEmpty then [] else xs.take n :: cut n k (xs.drop n)

end Sys2Proof.Machine
end

