-- ==== Sys2Proof/Machine/Checks.lean ====
section
/-! DEFINITION. Integrity checks: the granule tag, block check and link CRC of R251, SHA-256 (R34, R340; FIPS 180-4),
and the controller's Reed-Solomon code over GF(256) (R195). -/
namespace Sys2Proof.Machine

/-- One bit of a CRC that is not reflected: polynomial poly of w bits. -/
def crcStepMsb (w poly : Nat) (crc : Nat) (bit : Bool) : Nat :=
  let top := bitAt crc (w - 1) != bit
  let s := (crc * 2) % 2 ^ w
  if top then s ^^^ poly else s

/-- The eight bits of a byte, most significant first. -/
def byteBitsMsb (b : Byte) : List Bool := (List.range 8).map (fun i => bitAt b.toNat (7 - i))

/-- The granule tag: CRC-16, polynomial 0x8BB7, initial value 0, no reflection, no final XOR (R251). -/
def granuleTag (bs : Bytes) : Nat :=
  bs.foldl (fun c b => (byteBitsMsb b).foldl (crcStepMsb 16 0x8BB7) c) 0

/-- n shift steps of a reflected CRC. -/
def crcShift (poly : Nat) : Nat → Nat → Nat
  | 0, c => c
  | n + 1, c => crcShift poly n (if c % 2 == 1 then (c / 2) ^^^ poly else c / 2)

/-- A reflected 32-bit CRC over bytes, from a value of 32 bits. The guard holds at every byte: it has the value worked out before the next. -/
def crcBytes (poly : Nat) : Bytes → Nat → Nat
  | [], c => c
  | b :: bs, c => if c < 2 ^ 32 then crcBytes poly bs (crcShift poly 8 (c ^^^ b.toNat)) else c

/-- A reflected 32-bit CRC with initial value and final XOR of all ones; poly is the polynomial bit-reversed. -/
def crc32With (poly : Nat) (bs : Bytes) : Nat := crcBytes poly bs 0xFFFFFFFF ^^^ 0xFFFFFFFF

/-- The block check: CRC-32C, polynomial 0x1EDC_6F41 reflected (R251). -/
def crc32c (bs : Bytes) : Nat := crc32With 0x82F63B78 bs

/-- The link CRC: CRC-32, polynomial 0x04C1_1DB7 reflected (R251). -/
def crc32 (bs : Bytes) : Nat := crc32With 0xEDB88320 bs

/-! SHA-256 (FIPS 180-4), over words packed into numbers, the first word lowest. Its constants are the fractions of roots of primes that they
are, its eight working words the last four values of two chains, its message schedule a window of sixteen words that moves one word a round. -/

/-- The primes below 312, which are the first 64. -/
def smallPrimes : List Nat :=
  (List.range 312).filter (fun p => 2 ≤ p && [2, 3, 5, 7, 11, 13, 17].all (fun d => p == d || p % d != 0))

/-- The largest r + x with x below 2 to the given number of bits and (r + x) to the n at most top. -/
def rootIn (n top : Nat) : Nat → Nat → Nat
  | 0, r => r
  | b + 1, r => rootIn n top b (if (r + 2 ^ b) ^ n ≤ top then r + 2 ^ b else r)

/-- The first 32 bits of the fraction of the n-th root of p. -/
def rootFraction (n p : Nat) : Nat := rootIn n (p * 2 ^ (32 * n)) 37 0 % 2 ^ 32

/-- Words packed into one number, the first lowest. -/
def packWords : List Nat → Nat
  | [] => 0
  | w :: ws => w + 2 ^ 32 * packWords ws

/-- Word i of a packed number. -/
def wordAt (v i : Nat) : Nat := v / 2 ^ (32 * i) % 2 ^ 32

/-- The big-endian number of a byte string. -/
def beNat (bs : Bytes) : Nat := bs.foldl (fun a b => a * 256 + b.toNat) 0

/-- n bytes of a number, most significant first. -/
def natBE (n v : Nat) : Bytes := (natLE n v).reverse

/-- The exclusive or of a word turned right by i and by j bits and of y, which is the word turned or shifted by a third count. -/
def turns (x i j : Nat) (y : Nat) : Nat := (x * 0x100000001 / 2 ^ i ^^^ x * 0x100000001 / 2 ^ j ^^^ y) % 2 ^ 32

/-- The word that enters behind the sixteen of a window. -/
def scheduleNext (w : Nat) : Nat :=
  let late := wordAt w 14
  let soon := wordAt w 1
  (w + wordAt w 9 + turns soon 7 18 (soon / 2 ^ 3) + turns late 17 19 (late / 2 ^ 10)) % 2 ^ 32

/-- n rounds. The constants ks are taken from their low end; top holds a, b, c and d, low holds e, f, g and h, the newest lowest; win is the
window of the schedule. Answers low behind top. The guard holds in every round: it has the three numbers worked out before the next. -/
def shaRounds : Nat → Nat → Nat → Nat → Nat → Nat
  | 0, _, top, low, _ => top + 2 ^ 128 * low
  | n + 1, ks, top, low, win =>
    if top < 2 ^ 128 ∧ low < 2 ^ 128 ∧ win < 2 ^ 512 then
      let a := wordAt top 0
      let e := wordAt low 0
      let t := wordAt low 3 + ks + win + (wordAt low 2 ^^^ (e &&& (wordAt low 1 ^^^ wordAt low 2))) + turns e 6 11 (e * 0x100000001 / 2 ^ 25)
      let fresh := t + ((a &&& wordAt top 1) ||| (wordAt top 2 &&& (a ||| wordAt top 1))) + turns a 2 13 (a * 0x100000001 / 2 ^ 22)
      shaRounds n (ks / 2 ^ 32) (fresh % 2 ^ 32 + 2 ^ 32 * (top % 2 ^ 96)) ((wordAt top 3 + t) % 2 ^ 32 + 2 ^ 32 * (low % 2 ^ 96))
        (win / 2 ^ 32 + 2 ^ 480 * scheduleNext win)
    else 0

/-- The hash value after n more chunks. The guard holds at every chunk: it has the constants and the hash worked out before it. -/
def shaChunks (ks : Nat) : Nat → Nat → Bytes → Nat
  | 0, hash, _ => hash
  | n + 1, hash, bs =>
    if ks < 2 ^ 2048 ∧ hash < 2 ^ 256 then
      let out := shaRounds 64 ks (hash % 2 ^ 128) (hash / 2 ^ 128) (packWords ((cut 4 16 (bs.take 64)).map beNat))
      shaChunks ks n (packWords ((List.range 8).map (fun i => (wordAt hash i + wordAt out i) % 2 ^ 32))) (bs.drop 64)
    else 0

/-- SHA-256 of a byte string, 32 bytes in natural order (R10): the message, a one bit, zeros and its length in bits. -/
def sha256 (bs : Bytes) : Bytes :=
  let m := bs ++ [0x80#8] ++ List.replicate ((119 - bs.length % 64) % 64) 0 ++ natBE 8 (8 * bs.length)
  let hash := shaChunks (packWords (smallPrimes.map (rootFraction 3))) (m.length / 64) (packWords ((smallPrimes.take 8).map (rootFraction 2))) m
  (List.range 8).flatMap (fun i => natBE 4 (wordAt hash i))

/-! The controller code (R195). -/

/-- Multiply by α in GF(256) with polynomial 0x11D. -/
def gfX (a : Nat) : Nat := if a < 128 then 2 * a else (2 * a) ^^^ 0x11D

/-- Product in GF(256), over the low n bits of the second factor. -/
def gfMulN : Nat → Nat → Nat → Nat
  | 0, _, _ => 0
  | n + 1, a, b => (if b % 2 == 1 then a else 0) ^^^ gfMulN n (gfX a) (b / 2)

/-- Product in GF(256). -/
def gfMul (a b : Nat) : Nat := gfMulN 8 a b

/-- α to the n. -/
def gfPow : Nat → Nat
  | 0 => 1
  | n + 1 => gfX (gfPow n)

/-- The generator's low coefficients, x³ down to x⁰: (x + 1)(x + α)(x + α²)(x + α³) less its leading term. -/
def rsGen : List Nat :=
  let step := fun (g : List Nat) (r : Nat) =>
    (List.zipWith (· ^^^ ·) (g ++ [0]) (0 :: g.map (gfMul r)))
  (([0, 1, 2, 3].map gfPow).foldl step [1]).drop 1

/-- One message byte through the remainder register, highest degree first. -/
def rsStep (reg : List Nat) (b : Nat) : List Nat :=
  let fb := reg.headD 0 ^^^ b
  List.zipWith (· ^^^ ·) (reg.drop 1 ++ [0]) (rsGen.map (gfMul fb))

/-- The four check bytes of a message, metadata byte 0 first (R195). -/
def rsCheck (msg : List Nat) : List Nat := msg.foldl rsStep [0, 0, 0, 0]

/-- The six address bytes of a granule, most significant first (R195). -/
def rsAddr (position channel subch goff : Nat) : List Nat :=
  ((natLE 6 (position % 16 * 2 ^ 44 + channel % 8 * 2 ^ 41 + subch % 2 * 2 ^ 40 + goff)).map BitVec.toNat).reverse

/-- The code of a granule's 32 data bytes at its address (R195). -/
def rsEncode (addr : List Nat) (data : Bytes) : Bytes :=
  (rsCheck (addr ++ data.map BitVec.toNat)).map (BitVec.ofNat 8)

/-- Syndrome k of a received word, highest degree first: its value at α to the k. -/
def rsSyn (k : Nat) (word : List Nat) : Nat := word.foldl (fun a b => gfMul a (gfPow k) ^^^ b) 0

/-- What decoding one granule gives (R195, R196). -/
inductive RsResult where
  /-- no error -/
  | clean
  /-- the corrected 36 stored bytes -/
  | corrected (bytes : Bytes)
  /-- decoder failure, or a correction that falls in an address byte -/
  | uncorrectable
deriving DecidableEq, Repr

/-- XOR a value into position i of a list. -/
def xorAt (xs : List Nat) (i v : Nat) : List Nat := xs.set i (xs.getD i 0 ^^^ v)

/-- The word has all four syndromes zero. -/
def rsOk (word : List Nat) : Bool := [0, 1, 2, 3].all (fun k => rsSyn k word == 0)

/-- Inverse in GF(256): the power 254. -/
def gfInv (a : Nat) : Nat :=
  let a2 := gfMul a a
  let a4 := gfMul a2 a2
  let a8 := gfMul a4 a4
  let a16 := gfMul a8 a8
  let a32 := gfMul a16 a16
  let a64 := gfMul a32 a32
  gfMul (gfMul (gfMul a2 a4) (gfMul a8 a16)) (gfMul (gfMul a32 a64) (gfMul a64 a64))

/-- Correct one wrong byte at position i of a word of n bytes, where the syndromes allow it. -/
def rsTry1 (word : List Nat) (i : Nat) : Option (List Nat) :=
  let w := xorAt word i (rsSyn 0 word)
  if rsSyn 0 word != 0 && rsOk w then some w else none

/-- Correct two wrong bytes at positions i and j, from the first two syndromes. -/
def rsTry2 (word : List Nat) (i j : Nat) : Option (List Nat) :=
  let n := word.length - 1
  let xi := gfPow (n - i)
  let xj := gfPow (n - j)
  let s0 := rsSyn 0 word
  let s1 := rsSyn 1 word
  -- ei + ej = s0, ei xi + ej xj = s1
  let ej := gfMul (s1 ^^^ gfMul s0 xi) (gfInv (xi ^^^ xj))
  let ei := s0 ^^^ ej
  let w := xorAt (xorAt word i ei) j ej
  if ei != 0 && ej != 0 && rsOk w then some w else none

/-- Decode the 36 received bytes (32 data, 4 check) of a granule at its address (R195):
any error confined to two of the stored bytes is corrected; one that would fall in an address byte is uncorrectable. -/
def rsDecode (addr : List Nat) (got : Bytes) : RsResult :=
  let word := addr ++ got.map BitVec.toNat
  if rsOk word then .clean
  else
    let idx := List.range word.length
    let fix1 := idx.filterMap (fun i => (rsTry1 word i).map (fun w => ([i], w)))
    let fix2 := if fix1.isEmpty then
        idx.flatMap (fun i => (idx.filter (i < ·)).filterMap (fun j => (rsTry2 word i j).map (fun w => ([i, j], w))))
      else []
    match fix1 ++ fix2 with
    | [(ps, w)] => if ps.any (· < addr.length) then .uncorrectable else .corrected ((w.drop addr.length).map (BitVec.ofNat 8))
    | _ => .uncorrectable

/-- The 64-byte key block of HMAC-SHA-256 XORed with a pad byte (R386). -/
def hmacPad (key : Bytes) (pad : Byte) : Bytes :=
  let k := if 64 < key.length then sha256 key else key
  (bytesAt k 0 64).map (fun b => b ^^^ pad)

/-- HMAC-SHA-256 (R386). -/
def hmac (key msg : Bytes) : Bytes := sha256 (hmacPad key 0x5C ++ sha256 (hmacPad key 0x36 ++ msg))

/-- HKDF-SHA-256 for one 32-byte key: extract with the salt, expand with the info string (R389). -/
def hkdf (ikm salt info : Bytes) : Bytes := hmac (hmac salt ikm) (info ++ [1])

/-- The bytes of an ASCII string. -/
def ascii (t : String) : Bytes := t.toList.map (fun c => BitVec.ofNat 8 c.toNat)

end Sys2Proof.Machine
end

