-- ==== Sys2Proof/Machine/Mem.lean ====
section
/-! DEFINITION. Sparse byte memory in one canonical form: addresses strictly rising and no entry equal to zero,
which is what an unlisted address reads as (R188 and R208: memory and the stores are zeroed before any reader reaches them). -/
namespace Sys2Proof.Machine

/-- A memory: (address, byte) pairs, canonical as `Mem.wf` says. -/
abbrev Mem := List (Nat × Byte)

/-- The byte at an address; an unlisted address reads zero (R208). -/
def Mem.read (m : Mem) (a : Nat) : Byte :=
  match m.find? (fun c => c.1 == a) with
  | some c => c.2
  | none => 0

/-- n bytes from an address, in address order. -/
def Mem.get (m : Mem) (a n : Nat) : Bytes := (List.range n).map (fun i => m.read (a + i))

/-- The little-endian number in n bytes at an address (R10). -/
def Mem.num (m : Mem) (a n : Nat) : Nat := leNat (m.get a n)

/-- The entries a byte string gives from an address on, zero bytes left out. -/
def cellsOf : Nat → Bytes → Mem
  | _, [] => []
  | a, b :: bs => if b = 0 then cellsOf (a + 1) bs else (a, b) :: cellsOf (a + 1) bs

/-- Write a byte string at an address. -/
def Mem.put (m : Mem) (a : Nat) (bs : Bytes) : Mem :=
  m.filter (fun c => c.1 < a) ++ cellsOf a bs ++ m.filter (fun c => a + bs.length ≤ c.1)

/-- Clear n bytes from an address to zero. -/
def Mem.clear (m : Mem) (a n : Nat) : Mem := m.filter (fun c => c.1 < a || a + n ≤ c.1)

/-- The canonical form: addresses strictly rising, no zero entry. -/
def Mem.wf : Mem → Bool
  | [] => true
  | [c] => c.2 != 0
  | c :: d :: m => c.2 != 0 && c.1 < d.1 && Mem.wf (d :: m)

end Sys2Proof.Machine
end

