-- ==== Sys2Proof/Machine/ClusterState.lean ====
section
/-! DEFINITION. The state of one cluster: its memories, control core, engine queues, summary queue, encode requests, split ring
and pacing (R14 to R17, R40, R41, R92, R151, R258, R324, R333, R357 to R368, R412, R443). -/
namespace Sys2Proof.Machine

/-- What the spec says of the row buffer: cleared (R208), or holding what it does not state (R357). -/
inductive AccState where
  /-- zero since admission -/
  | cleared
  /-- contents the spec does not state; the stamp names the occasion -/
  | unspecified (stamp : Nat)
deriving DecidableEq, Repr

/-- The accumulator registers of a matrix array: acc0 to acc7, 32 bits each, in each of 128 × 128 cells (R95). -/
structure Accs where
  /-- registers and their words, keys rising; register r of cell (i, j) has the key (128 i + j) 8 + r -/
  regs : List (Nat × Nat)
  /-- what every register not listed holds: none for zero, or the stamp under which a loss left it unstated (R357) -/
  lost : Option Nat
deriving DecidableEq, Repr

/-- Where a command on an engine queue stands. -/
inductive QPhase where
  /-- not started -/
  | waiting
  /-- a CONV that has started and taken so many of its halo slots, and waits for the next (R122) -/
  | halo (taken : Nat)
  /-- written, waiting for a free entry of the summary queue (R151) -/
  | summary (w : Word)
  /-- a SEND whose blocks are on their way (R237) -/
  | sending
  /-- a HURDLE that has started, so the cluster has reached it (R257, R259) -/
  | arrived
deriving DecidableEq, Repr

/-- A command on an engine queue (R40, R41). -/
structure QEntry where
  /-- place in the cluster's fetch order -/
  ord : Nat
  /-- issue it came from, numbering the cluster's blk_issue writes -/
  iss : Nat
  /-- block -/
  blk : Nat
  /-- last command of its block -/
  last : Bool
  /-- the 32 bytes of the command -/
  raw : Nat
  /-- progress -/
  phase : QPhase
  /-- module time at the start latch (R411) -/
  startT : Nat
  /-- pacing state at the start latch (R412) -/
  paceStart : Nat
deriving DecidableEq, Repr

/-- An issued block that is not fetched whole (R40). -/
structure Issue where
  /-- issue number -/
  iss : Nat
  /-- block index -/
  blk : Nat
  /-- commands of the block fetched so far -/
  next : Nat
deriving DecidableEq, Repr

/-- Where an encode request stands (R324). -/
inductive EncPhase where
  /-- queued -/
  | queued
  /-- running on an encode pipeline, with the 64 request bytes it read -/
  | running (unit raw : Nat)
  /-- complete with a status -/
  | done (status : Nat)
deriving DecidableEq, Repr

/-- An outstanding encode request (R324). -/
structure EncReq where
  /-- store offset of the request -/
  off : Nat
  /-- blocks issued before the enc_issue write -/
  before : Nat
  /-- progress -/
  phase : EncPhase
  /-- failures so far: the pipelines it failed on (R328, R331) -/
  fails : List Nat
deriving DecidableEq, Repr

/-- The step-start state of a control core (R258). -/
structure Snapshot where
  /-- pc at the stalled blk_issue -/
  pc : Word
  /-- x0 to x31, x0 zero -/
  regs : Vector Word 32
  /-- data memory -/
  dmem : Mem
deriving DecidableEq, Repr

/-- A split record (R412). -/
structure SplitRec where
  /-- record number -/
  seq : Nat
  /-- cmd_id -/
  cmdId : Nat
  /-- opcode -/
  opcode : Nat
  /-- queue -/
  queue : Nat
  /-- hurdle count, low 32 bits -/
  hurdle : Nat
  /-- start_ticks -/
  startT : Nat
  /-- end_ticks -/
  endT : Nat
  /-- busy split -/
  busy : Nat
  /-- wait_chan split -/
  waitChan : Nat
  /-- wait_mem split -/
  waitMem : Nat
  /-- wait_bank split -/
  waitBank : Nat
  /-- done_delta -/
  doneDelta : Nat
  /-- pace_start -/
  paceStart : Nat
  /-- pace_end -/
  paceEnd : Nat
  /-- status -/
  status : Nat
deriving DecidableEq, Repr

/-- The last command a queue completed (R359). -/
structure LastDone where
  /-- time of completion -/
  time : Nat
  /-- next_gap -/
  gap : Nat
  /-- block -/
  blk : Nat
  /-- issue -/
  iss : Nat
  /-- last of its block -/
  last : Bool
  /-- its place in the cluster's end-latch order (R412) -/
  seq : Nat
deriving DecidableEq, Repr

/-- The pacing states (R357). -/
inductive PaceState where
  /-- 0.75 V to 0.85 V, active -/
  | sprint
  /-- 0.55 V to 0.74 V, active -/
  | stride
  /-- quiescent at the last active setpoint -/
  | jog
  /-- retained at 0.45 V -/
  | walk
  /-- array and vector engine gated -/
  | rest
deriving DecidableEq, Repr

/-- Progress of a change of pacing state. -/
inductive PaceMove where
  /-- in the state -/
  | settled
  /-- entering the state, complete at this time -/
  | entering (until_ : Nat)
  /-- leaving the state, complete at this time -/
  | leaving (until_ : Nat)
deriving DecidableEq, Repr

/-- The supply, state and annotations of one cluster (R356 to R368). -/
structure Pacing where
  /-- pacing state (R357) -/
  st : PaceState
  /-- entry or exit under way (R357, R362) -/
  move : PaceMove
  /-- setpoint in mV for active work (R356, R361) -/
  active : Nat
  /-- pace of the block issued last: 0 SPRINT, 1 EVEN, 2 STRIDE (R358) -/
  pace : Nat
  /-- its frac (R358) -/
  frac : Nat
  /-- Sprint ceiling granted, mV (R365) -/
  ceiling : Nat
  /-- a STRIDE setpoint raised by evaluations, mV above the table's choice (R361) -/
  raised : Nat
  /-- taken off the setpoint by shedding, mV (R365) -/
  shed : Nat
  /-- time idleness began (R359) -/
  idleSince : Option Nat
  /-- gap G of this idleness; none for unknown (R359) -/
  gap : Option Nat
  /-- time at which exit begins for a known gap (R362) -/
  exitAt : Option Nat
  /-- junction temperature, quarter degrees (R368) -/
  temp : Int
  /-- temperature at the last evaluation (R361) -/
  evalTemp : Int
  /-- time of the last evaluation (R361) -/
  evalAt : Nat
  /-- rate at 0.75 V, M stages/s (R29) -/
  rate75 : Nat
  /-- rate at the present supply (R29) -/
  rateNow : Nat
  /-- no Sprint, 95 C (R368) -/
  noSprint : Bool
  /-- supply capped at 700 mV, 100 C (R368) -/
  cap700 : Bool
  /-- time from which the present state's ticks are still to be counted (R409) -/
  since : Nat
deriving DecidableEq, Repr

/-- The protected region of a firmware core (R383, R384). -/
structure FwMem where
  /-- its section, from offset 0 of the code memory (R381, R382) -/
  code : Bytes
  /-- its entry point, an offset in the section (R381) -/
  entry : Nat
  /-- stamp of what its firmware keeps in its data memory and past the section: no rule says what (log 120) -/
  stamp : Nat
deriving DecidableEq, Repr
/-- A region nothing is loaded into. -/
def FwMem.reset : FwMem := { code := [], entry := 0, stamp := 0 }

/-- The control core and everything it issues to (R40, R151, R152, R258, R324, R443). -/
structure Core where
  /-- program counter, a control-core address (R443) -/
  pc : Word
  /-- x0 to x31; x0 is hard-wired to zero -/
  regs : Vector Word 32
  /-- it executes its program -/
  running : Bool
  /-- it has crashed and its cluster is being restarted (R333, R337) -/
  restarting : Bool
  /-- issued blocks not fetched whole, oldest first, at most 4 (R40) -/
  issued : List Issue
  /-- blk_issue writes so far -/
  issueCount : Nat
  /-- a block with a HURDLE is issued and that HURDLE has not completed (R257) -/
  hurdleOpen : Bool
  /-- summary queue, oldest first, at most 4 (R151) -/
  sums : List Word
  /-- outstanding encode requests, oldest first, at most 2 (R324) -/
  encs : List EncReq
  /-- snapshot; none before the first GO (R258) -/
  snap : Option Snapshot
deriving DecidableEq, Repr

/-- One cluster. -/
structure Cluster where
  /-- cluster store (R16) -/
  store : Mem
  /-- function tables (R23, R138) -/
  fnTab : Mem
  /-- control-core instruction memory (R23, R443) -/
  imem : Mem
  /-- control-core data memory (R23, R443) -/
  dmem : Mem
  /-- control-core runtime, 16 KiB at control-core address 0x2_0000 and window offset 0x6_0000 (R23, R383, R443) -/
  rt : FwMem
  /-- control core -/
  core : Core
  /-- engine queues: matrix, vector, mover, link; each 16 deep (R40) -/
  queues : Vector (List QEntry) 4
  /-- fetch order of the next command -/
  nextOrd : Nat
  /-- last completed command of each queue (R359) -/
  lastDone : Vector (Option LastDone) 4
  /-- the cluster issues no further command: the status that ended one (R44) -/
  halted : Option Nat
  /-- stopped for a dump (R419) -/
  frozen : Bool
  /-- accumulator registers of the matrix array (R95, R208, R357) -/
  acc : Accs
  /-- row buffer of the vector engine (R208, R357) -/
  rowBuf : AccState
  /-- permanently retired (R333, R335) -/
  retired : Bool
  /-- its pair is folded: a retired cluster's work runs on the other (R335) -/
  folded : Bool
  /-- step of the first restart counted by R333 -/
  firstRestart : Option Nat
  /-- split ring, oldest first, at most 1,024 records (R412) -/
  splits : List SplitRec
  /-- number of the next split record (R412) -/
  splitSeq : Nat
  /-- split records overwritten (R412) -/
  splitDropped : Nat
  /-- supply and pacing -/
  pc : Pacing
deriving DecidableEq, Repr

/-- Queue indices (R409, R412). -/
def qMatrix : Fin 4 := 0
/-- Vector queue. -/
def qVector : Fin 4 := 1
/-- Mover queue. -/
def qMover : Fin 4 := 2
/-- Link queue. -/
def qLink : Fin 4 := 3

/-- The number of a pacing state (R409, R412). -/
def PaceState.num : PaceState → Nat
  | .sprint => 0
  | .stride => 1
  | .jog => 2
  | .walk => 3
  | .rest => 4


/-- The pacing of a cluster at PWR_GOOD: Jog at 0.75 V (R353, R370); the temperature and rates before any measurement are
DESIGN CHOICE (log 5): 65 C and the typical 1,600 M stages/s. -/
def Pacing.reset : Pacing :=
  { st := .jog, move := .settled, active := 750, pace := 1, frac := 0, ceiling := 750, raised := 0, shed := 0, idleSince := none,
    gap := none, exitAt := none, temp := 260, evalTemp := 260, evalAt := 0, rate75 := 1600, rateNow := 1600, noSprint := false,
    cap700 := false, since := 0 }

/-- A control core with no program started (R258). -/
def Core.reset : Core :=
  { pc := 0, regs := Vector.replicate 32 0, running := false, restarting := false, issued := [], issueCount := 0,
    hurdleOpen := false, sums := [], encs := [], snap := none }

/-- A cluster at PWR_GOOD; memories are zero as R208 leaves them before any reader (DESIGN CHOICE, log 4). -/
def Cluster.reset : Cluster :=
  { store := [], fnTab := [], imem := [], dmem := [], rt := FwMem.reset, core := Core.reset, queues := Vector.replicate 4 [], nextOrd := 0,
    lastDone := Vector.replicate 4 none, halted := none, frozen := false, acc := ⟨[], none⟩, rowBuf := .cleared, retired := false,
    folded := false, firstRestart := none, splits := [], splitSeq := 0, splitDropped := 0, pc := Pacing.reset }

end Sys2Proof.Machine
end

