-- ==== Sys2Proof/Machine/FabricState.lean ====
section
/-! DEFINITION. The state of one fabric port and its lanes (R214 to R227, R243 to R250). -/
namespace Sys2Proof.Machine

/-- One lane of a port (R216, R217, R225). -/
structure Lane where
  /-- trained -/
  up : Bool
  /-- failures of training in succession (R216) -/
  attempts : Nat
  /-- retired (R226) -/
  retired : Bool
  /-- the receiver holds the lane in lock (R217) -/
  lock : Bool
  /-- good frames in succession, up to 3 (R217) -/
  good : Nat
  /-- bad frames in succession, up to 3 (R217) -/
  bad : Nat
  /-- frame_count of the last good frame (R217) -/
  count : Option Nat
  /-- lane_mask of the last good frame (R217) -/
  mask : Nat
  /-- times of the retries charged (R225) -/
  retries : List Nat
  /-- it must train again because its port retrains (R225) -/
  retrain : Bool
deriving DecidableEq, Repr

/-- A flit that waits for a slot, or has taken one: its route header, its payload and the block it belongs to (R218). -/
structure Flit where
  /-- the 16-byte route header as a number -/
  hdr : Nat
  /-- 256 payload bytes -/
  pay : Bytes
  /-- block number of this transmitter; none outside a block -/
  blk : Option Nat
deriving DecidableEq, Repr

/-- A sequenced flit in the replay buffer (R224). -/
structure Sent where
  /-- sequence number -/
  seq : Nat
  /-- the flit -/
  flit : Flit
  /-- lane whose slot carried it last -/
  lane : Nat
  /-- lanes on which it failed (R225) -/
  fails : List Nat
  /-- it has spent a credit since the link came up (R223) -/
  paid : Bool
deriving DecidableEq, Repr

/-- The raw copy a transmitter keeps of a block (R249). -/
structure RawCopy where
  /-- block number -/
  id : Nat
  /-- route header of the block's flits (R218) -/
  hdr : Nat
  /-- raw bytes -/
  raw : Bytes
  /-- block check -/
  check : Nat
  /-- sub-stream it went on -/
  sub : Nat
  /-- sequence number of its first flit, once sent -/
  first : Option Nat
  /-- sequence number of its last flit, once sent -/
  last : Option Nat
  /-- table generation it is coded with as EXP32 or EXP16; none for RAW and ZERO (R246) -/
  gen : Option Nat
  /-- sub-streams on which it failed (R249, R250) -/
  fails : List Nat
deriving DecidableEq, Repr

/-- A code table: class 1 FP32 or 2 BF16, and 256 code lengths (R245, R248). -/
structure CodeTable where
  /-- class -/
  cls : Nat
  /-- code lengths by exponent value -/
  lens : List Nat
deriving DecidableEq, Repr

/-- The transmitting side of a port. -/
structure Tx where
  /-- active-lane mask (R226) -/
  mask : Nat
  /-- lane of the next slot (R221) -/
  nextLane : Nat
  /-- frame_count of the lane frames being sent, or sent next (R217) -/
  frame : Nat
  /-- flit slots filled in those frames; 0 before they begin (R217) -/
  slots : Nat
  /-- sequence number of the next sequenced flit (R224) -/
  seq : Nat
  /-- replay buffer, oldest first, at most 1,024 (R224) -/
  replay : List Sent
  /-- time ack last advanced (R224) -/
  ackAt : Nat
  /-- credits of virtual channels 0 to 3 (R223) -/
  credits : Vector Nat 4
  /-- flits waiting on virtual channels 0 to 3 (R222) -/
  q : Vector (List Flit) 4
  /-- virtual channel served next in rotation among 0 to 2 (R222) -/
  rr : Nat
  /-- raw copies of unacknowledged blocks (R249) -/
  raws : List RawCopy
  /-- number of the next block -/
  nextBlk : Nat
  /-- sub-stream of the next block (R247) -/
  nextSub : Nat
  /-- active sub-stream mask (R250) -/
  subMask : Nat
  /-- table slots, generations 0 to 3; the flag says the table is acknowledged (R248) -/
  tables : Vector (Option (CodeTable × Bool)) 4
  /-- generation whose TABLE is outstanding (R248) -/
  tableOut : Option Nat
deriving DecidableEq, Repr

/-- A block under assembly on one sub-stream (R243, R247). -/
structure Asm where
  /-- sub-stream -/
  sub : Nat
  /-- sequence number of its first flit -/
  first : Nat
  /-- route header of its first flit -/
  hdr : Nat
  /-- framed bytes so far: block header and body -/
  bytes : Bytes
  /-- port and block number it is forwarded to cut-through (R233) -/
  fwd : Option (Nat × Nat)
deriving DecidableEq, Repr

/-- The receiving side of a port. -/
structure Rx where
  /-- sequence number expected (R224) -/
  expect : Nat
  /-- dropping until the expected number arrives (R224) -/
  dropping : Bool
  /-- credits to return, virtual channels 0 to 3 (R223) -/
  owed : Vector Nat 4
  /-- an acknowledgement has not been carried by an outgoing flit yet -/
  ackDue : Bool
  /-- a BLOCK_NACK waits for its slot, oldest first: the last flit of its block, whose acknowledgement it holds back (R249) -/
  nacks : List (Option Nat)
  /-- blocks under assembly -/
  asm : List Asm
  /-- table slots (R248) -/
  tables : Vector (Option CodeTable) 4
  /-- tables received and not installed: generation and table (R248) -/
  pend : List (Nat × CodeTable)
  /-- retries charged to sub-streams: (sub-stream, time) (R249, R250) -/
  subRetries : List (Nat × Nat)
  /-- active sub-stream mask (R250) -/
  subMask : Nat
  /-- routed flits and HELLO held in the receive buffer until START (R229) -/
  held : List Flit
deriving DecidableEq, Repr

/-- One fabric port. -/
structure Port where
  /-- lanes 0 to 7 -/
  lanes : Vector Lane 8
  /-- transmitter -/
  tx : Tx
  /-- receiver -/
  rx : Rx
  /-- retired (R227) -/
  retired : Bool
  /-- time the link went down with no lane up (R227) -/
  downSince : Option Nat
  /-- it has retrained all its lanes for a flit that failed on different lanes (R225) -/
  retrained : Bool
  /-- HELLO was sent since START (R229) -/
  helloSent : Bool
  /-- the partner's HELLO: module id, logical port, lane mask (R229) -/
  hello : Option (Nat × Nat × Nat)
deriving DecidableEq, Repr

/-- A lane before training. -/
def Lane.reset : Lane := ⟨false, 0, false, false, 0, 0, none, 0, [], false⟩
/-- A transmitter at link-up: a full VC 3 credit, DATA credits set by ROUTES at START (R222, R223), tables empty (R248). -/
def Tx.reset : Tx :=
  { mask := 0, nextLane := 0, frame := 0, slots := 0, seq := 0, replay := [], ackAt := 0, credits := #v[0, 0, 0, 32], q := Vector.replicate 4 [], rr := 0,
    raws := [], nextBlk := 0, nextSub := 0, subMask := 0xFFFF, tables := Vector.replicate 4 none, tableOut := none }
/-- A receiver at link-up. -/
def Rx.reset : Rx :=
  { expect := 0, dropping := false, owed := Vector.replicate 4 0, ackDue := false, nacks := [], asm := [], tables := Vector.replicate 4 none,
    pend := [], subRetries := [], subMask := 0xFFFF, held := [] }
/-- A port at PWR_GOOD. -/
def Port.reset : Port :=
  { lanes := Vector.replicate 8 Lane.reset, tx := Tx.reset, rx := Rx.reset, retired := false, downSince := none,
    retrained := false, helloSent := false, hello := none }

end Sys2Proof.Machine
end

