-- ==== Sys2Proof/Machine/Float.lean ====
section
/-! DEFINITION. Exact values and their rounding (R62 to R76): floating-point layouts, round-to-nearest-even, special values,
and the arithmetic every engine uses. An exact value is a NaN, an infinity, or plus or minus m times 2 to the e. -/
namespace Sys2Proof.Machine

/-- An exact floating-point value (R63 to R65); a zero keeps its sign. -/
inductive FV where
  /-- not a number -/
  | nan
  /-- an infinity, with its sign -/
  | inf (neg : Bool)
  /-- plus or minus m times 2 to the e -/
  | fin (neg : Bool) (m : Nat) (e : Int)
deriving DecidableEq, Repr

/-- The layout and special values of one floating-point format (R63, R64, R75). -/
structure Fmt where
  /-- exponent bits -/
  eb : Nat
  /-- mantissa bits -/
  mb : Nat
  /-- exponent bias -/
  bias : Nat
  /-- magnitude code of the largest finite value -/
  maxCode : Nat
  /-- magnitude code of infinity, where the format has one -/
  infCode : Option Nat
  /-- canonical NaN -/
  nanCode : Nat
  /-- rounding beyond the largest finite value gives infinity; otherwise it saturates (R75) -/
  overInf : Bool
deriving DecidableEq, Repr

/-- FP32 (R63). -/
def fp32 : Fmt := ⟨8, 23, 127, 0x7F7FFFFF, some 0x7F800000, 0x7FC00000, true⟩
/-- BF16 (R63). -/
def bf16 : Fmt := ⟨8, 7, 127, 0x7F7F, some 0x7F80, 0x7FC0, true⟩
/-- FP16 (R63). -/
def fp16 : Fmt := ⟨5, 10, 15, 0x7BFF, some 0x7C00, 0x7E00, true⟩
/-- OCP E4M3 (R63): no infinity, conversion saturates (R75). -/
def e4m3 : Fmt := ⟨4, 3, 7, 0x7E, none, 0x7F, false⟩
/-- OCP E5M2 (R63): an infinity is kept, a finite value saturates (R75). -/
def e5m2 : Fmt := ⟨5, 2, 15, 0x7B, some 0x7C, 0x7E, false⟩
/-- OCP E3M2 (R63): neither infinity nor NaN. -/
def e3m2 : Fmt := ⟨3, 2, 3, 0x1F, none, 0x1F, false⟩
/-- OCP E2M3 (R63). -/
def e2m3 : Fmt := ⟨2, 3, 1, 0x1F, none, 0x1F, false⟩
/-- OCP E2M1 (R63). -/
def e2m1 : Fmt := ⟨2, 1, 1, 0x7, none, 0x7, false⟩

/-- The bits of one element, sign included. -/
def Fmt.width (f : Fmt) : Nat := 1 + f.eb + f.mb

/-- The exponent of the format's smallest step: 2 to the (1 − bias − mantissa bits). -/
def Fmt.emin (f : Fmt) : Int := 1 - (f.bias : Int) - (f.mb : Int)

/-- m times 2 to the k, as a natural number; a negative k shifts right. -/
def shiftNat (m : Nat) (k : Int) : Nat := if 0 ≤ k then m <<< k.toNat else m >>> (-k).toNat

/-- m times 2 to the e in units of 2 to the q, rounded to nearest, ties to even. -/
def rneUnits (m : Nat) (e q : Int) : Nat :=
  if q ≤ e then m <<< (e - q).toNat
  else
    let sh := (q - e).toNat
    let t := m >>> sh
    let r := m % 2 ^ sh
    let half := 2 ^ (sh - 1)
    if r > half || (r == half && t % 2 == 1) then t + 1 else t

/-- The magnitude code of m times 2 to the e rounded to nearest even, not yet limited to the format's range (R63, R74). -/
def Fmt.magCode (f : Fmt) (m : Nat) (e : Int) : Nat :=
  if m = 0 then 0
  else
    let q := max (e + (m.log2 : Int) - (f.mb : Int)) f.emin
    (q - f.emin).toNat * 2 ^ f.mb + rneUnits m e q

/-- The bits of an exact value in a format: one round-to-nearest-even, with the overflow rule of R75. -/
def Fmt.enc (f : Fmt) : FV → Nat
  | .nan => f.nanCode
  | .inf neg =>
    match f.infCode with
    | some c => (if neg then 2 ^ (f.eb + f.mb) else 0) + c
    | none => f.nanCode
  | .fin neg m e =>
    let c := f.magCode m e
    let c := if c ≤ f.maxCode then c
             else if f.overInf then f.infCode.getD f.maxCode else f.maxCode
    (if neg then 2 ^ (f.eb + f.mb) else 0) + c

/-- The exact value of a format's bits (R63); every NaN pattern is a NaN. -/
def Fmt.dec (f : Fmt) (code : Nat) : FV :=
  let neg := bitAt code (f.eb + f.mb)
  let mag := code % 2 ^ (f.eb + f.mb)
  if some mag = f.infCode then .inf neg
  else if mag > f.maxCode then .nan
  else
    let ex := mag >>> f.mb
    let man := mag % 2 ^ f.mb
    if ex = 0 then .fin neg man f.emin
    else .fin neg (2 ^ f.mb + man) (f.emin + (ex : Int) - 1)

/-- A signed mantissa as an integer. -/
def sint (neg : Bool) (m : Nat) : Int := if neg then -(m : Int) else (m : Int)

/-- The exact value of an integer times 2 to the e; zero is +0. -/
def FV.ofInt (i : Int) (e : Int := 0) : FV := .fin (i < 0) i.natAbs e

/-- Sign-reversed value. -/
def FV.neg : FV → FV
  | .nan => .nan
  | .inf s => .inf (!s)
  | .fin s m e => .fin (!s) m e

/-- Magnitude. -/
def FV.abs : FV → FV
  | .nan => .nan
  | .inf _ => .inf false
  | .fin _ m e => .fin false m e

/-- The exact sum (R64, R65): x + (−x) is +0, (−0) + (−0) is −0, opposite infinities give a NaN. -/
def FV.add : FV → FV → FV
  | .nan, _ => .nan
  | _, .nan => .nan
  | .inf a, .inf b => if a = b then .inf a else .nan
  | .inf a, .fin _ _ _ => .inf a
  | .fin _ _ _, .inf b => .inf b
  | .fin a m e, .fin b n g =>
    if m = 0 ∧ n = 0 then .fin (a && b) 0 0
    else
      let q := min e g
      let t := sint a (m <<< (e - q).toNat) + sint b (n <<< (g - q).toNat)
      if t = 0 then .fin false 0 0 else .fin (t < 0) t.natAbs q

/-- The exact product (R92): infinity times zero is a NaN. -/
def FV.mul : FV → FV → FV
  | .nan, _ => .nan
  | _, .nan => .nan
  | .inf a, .inf b => .inf (a != b)
  | .inf a, .fin b n _ => if n = 0 then .nan else .inf (a != b)
  | .fin a m _, .inf b => if m = 0 then .nan else .inf (a != b)
  | .fin a m e, .fin b n g => .fin (a != b) (m * n) (e + g)

/-- The value times 2 to the k, exactly. -/
def FV.scale (k : Int) : FV → FV
  | .fin s m e => .fin s m (e + k)
  | v => v

/-- The quotient of two naturals times 2 to the k, as a value that rounds exactly as the quotient does:
at least 80 quotient bits and a sticky bit. -/
def ratio (neg : Bool) (n d : Nat) (k : Int) : FV :=
  if n = 0 then .fin neg 0 0
  else
    let sh := 80 + d.log2
    let q := (n <<< sh) / d
    let r := (n <<< sh) % d
    .fin neg (2 * q + (if r = 0 then 0 else 1)) (k - (sh : Int) - 1)

/-- The quotient, to be rounded once (R133): x / ±0 is an infinity for x not zero, 0 / 0 a NaN. -/
def FV.div : FV → FV → FV
  | .nan, _ => .nan
  | _, .nan => .nan
  | .inf _, .inf _ => .nan
  | .inf a, .fin b _ _ => .inf (a != b)
  | .fin a _ _, .inf b => .fin (a != b) 0 0
  | .fin a m e, .fin b n g =>
    if n = 0 then (if m = 0 then .nan else .inf (a != b))
    else ratio (a != b) m n (e - g)

/-- The square root of m times 2 to the e, with a sticky bit, to be rounded once. -/
def sqrtFin (m : Nat) (e : Int) : FV :=
  if m = 0 then .fin false 0 0
  else
    let k : Nat := 160 + (if (e % 2) = 0 then 0 else 1)
    let x := m <<< k
    let r := isqrt x
    .fin false (2 * r + (if r * r = x then 0 else 1)) ((e - (k : Int)) / 2 - 1)

/-- The square root (R133): −0 gives −0, a negative value a NaN. -/
def FV.sqrt : FV → FV
  | .nan => .nan
  | .inf true => .nan
  | .inf false => .inf false
  | .fin s m e => if m = 0 then .fin s 0 0 else if s then .nan else sqrtFin m e

/-- One over the square root, rounded once (R133): ±0 gives an infinity of that sign, +infinity gives +0. -/
def FV.rsqrt : FV → FV
  | .nan => .nan
  | .inf true => .nan
  | .inf false => .fin false 0 0
  | .fin s m e =>
    if m = 0 then .inf s
    else if s then .nan
    else
      let odd := !((e % 2) == 0)
      let m' := if odd then 2 * m else m
      let e' := if odd then e - 1 else e
      let k := 160 + m'.log2
      let r := isqrt (2 ^ (2 * k) / m')
      .fin false (2 * r + (if r * r * m' = 2 ^ (2 * k) then 0 else 1)) (-(e' / 2) - (k : Int) - 1)

/-- The order of two finite values: negative, zero or positive as the first is below, equal to or above the second. -/
def finCmp (a : Bool) (m : Nat) (e : Int) (b : Bool) (n : Nat) (g : Int) : Int :=
  let q := min e g
  sint a (m <<< (e - q).toNat) - sint b (n <<< (g - q).toNat)

/-- Strictly below, with −0 equal to +0; false where either is a NaN. -/
def FV.lt : FV → FV → Bool
  | .nan, _ => false
  | _, .nan => false
  | .inf a, .inf b => a && !b
  | .inf a, .fin _ _ _ => a
  | .fin _ _ _, .inf b => !b
  | .fin a m e, .fin b n g => finCmp a m e b n g < 0

/-- Equal as numbers, with −0 equal to +0; false where either is a NaN. -/
def FV.eqv : FV → FV → Bool
  | .inf a, .inf b => a == b
  | .fin a m e, .fin b n g => finCmp a m e b n g == 0
  | _, _ => false

/-- The value is a NaN. -/
def FV.isNan : FV → Bool
  | .nan => true
  | _ => false

/-- The value is a zero of either sign. -/
def FV.isZero : FV → Bool
  | .fin _ m _ => m == 0
  | _ => false

/-- The value is neither a NaN nor an infinity. -/
def FV.isFin : FV → Bool
  | .fin _ _ _ => true
  | _ => false

/-- The sign of a value. -/
def FV.sign : FV → Bool
  | .nan => false
  | .inf s => s
  | .fin s _ _ => s

/-- Below in the order of MAX and MIN, where −0 counts as less than +0 (R118, R133). -/
def FV.below (a b : FV) : Bool :=
  a.lt b || (a.isZero && b.isZero && a.sign && !b.sign)

/-- The larger of two values; any NaN gives a NaN (R64, R133). -/
def FV.max2 (a b : FV) : FV := if a.isNan || b.isNan then .nan else if a.below b then b else a

/-- The smaller of two values; any NaN gives a NaN (R64, R133). -/
def FV.min2 (a b : FV) : FV := if a.isNan || b.isNan then .nan else if b.below a then b else a

/-- The floor of m times 2 to the e with sign s, as an integer. -/
def finFloor (s : Bool) (m : Nat) (e : Int) : Int :=
  if 0 ≤ e then sint s (m <<< e.toNat)
  else sint s m / ((2 ^ (-e).toNat : Nat) : Int)

/-- round_fp32: one round-to-nearest-even to FP32 (R55, R74). -/
def r32 (v : FV) : Word := BitVec.ofNat 32 (fp32.enc v)

/-- The exact value of FP32 bits. -/
def v32 (w : Word) : FV := fp32.dec w.toNat

/-- FP32 addition, one rounding (R55). -/
def add32 (a b : Word) : Word := r32 ((v32 a).add (v32 b))
/-- FP32 subtraction, one rounding. -/
def sub32 (a b : Word) : Word := r32 ((v32 a).add (v32 b).neg)
/-- FP32 multiplication, one rounding. -/
def mul32 (a b : Word) : Word := r32 ((v32 a).mul (v32 b))
/-- FP32 division, one rounding. -/
def div32 (a b : Word) : Word := r32 ((v32 a).div (v32 b))

/-- FP32 constants. -/
def f32zero : Word := 0
/-- 1.0 in FP32 (R63). -/
def f32one : Word := 0x3F800000#32
/-- The canonical NaN of FP32 (R64). -/
def f32nan : Word := 0x7FC00000#32

/-- An integer converted to FP32, round-to-nearest-even (R75). -/
def ofInt32 (i : Int) : Word := r32 (FV.ofInt i)

/-- FP32 to an integer of w bits: round-to-nearest-even, saturating; an infinity gives the end of the range, a NaN zero (R75). -/
def toIntSat (w : Nat) (v : FV) : Int :=
  let hi : Int := (2 ^ (w - 1) : Nat) - 1
  let lo : Int := -((2 ^ (w - 1) : Nat) : Int)
  match v with
  | .nan => 0
  | .inf s => if s then lo else hi
  | .fin s m e => max lo (min hi (sint s (rneUnits m e 0)))

/-- An integer narrowed to w bits with saturation (R75). -/
def satInt (w : Nat) (i : Int) : Int :=
  max (-((2 ^ (w - 1) : Nat) : Int)) (min ((2 ^ (w - 1) : Nat) - 1) i)

/-- The FP32 bits of a working copy's high half: bits [31:16], or 0x7FC0 where the master element is a NaN (R78). -/
def highHalf (w : Word) : BitVec 16 := if (v32 w).isNan then 0x7FC0#16 else w.extractLsb' 16 16

/-- The stochastic rounding of the exact sum w + d with random word r (R76). -/
def srAdd (w d r : Word) : Word :=
  match (v32 w).add (v32 d), (v32 w).isFin && (v32 d).isFin with
  | .fin s m e, true =>
    if m = 0 then r32 (.fin s m e)
    else if 128 ≤ e + (m.log2 : Int) then r32 (.inf s)
    else
      let q := max (e + (m.log2 : Int) - 23) fp32.emin
      let lo := shiftNat m (e - q)
      let sh := (q - e).toNat
      let up : Bool := e < q && r.toNat * 2 ^ sh < (m % 2 ^ sh) * 2 ^ 32
      r32 (.fin s (if up then lo + 1 else lo) q)
  | v, _ => r32 v

end Sys2Proof.Machine
end

