-- ==== Sys2Proof/Machine/Flags.lean ====
section
/-! DEFINITION. Status codes (R12), the conditions of the branch-on-summary instructions (R152) and the summary words of the
vector engine (R150): everything the module reports as a flag or a code. -/
namespace Sys2Proof.Machine

/-- E_LATE: a contribution missed its hurdle window (R12). -/
def eLate : Nat := 0x01
/-- E_MISMATCH: a bitwise comparison differed (R12). -/
def eMismatch : Nat := 0x02
/-- E_CHECK: an integrity check failed (R12). -/
def eCheck : Nat := 0x03
/-- E_MALFORMED: a sample or media stream failed decoding or the claim check (R12). -/
def eMalformed : Nat := 0x04
/-- E_EXPAND: a compressed block decoded to another size (R12). -/
def eExpand : Nat := 0x05
/-- E_RETIRED: the addressed unit is retired (R12). -/
def eRetired : Nat := 0x06
/-- E_FOLDED: the addressed cluster is folded onto its pair (R12). -/
def eFolded : Nat := 0x07
/-- E_DESC: an illegal command or descriptor field (R12). -/
def eDesc : Nat := 0x08
/-- E_LIMIT: a size, count or range limit was exceeded (R12). -/
def eLimit : Nat := 0x09
/-- E_AUTH: authentication, signature or session check failed (R12). -/
def eAuth : Nat := 0x0A
/-- E_CONFIG: an image, bundle, strap or configuration disagreement (R12). -/
def eConfig : Nat := 0x0B
/-- E_HANG: a hang was detected and a dump taken (R12). -/
def eHang : Nat := 0x0C
/-- E_SAMEFEED: a relay partner on the same power feed was refused (R12). -/
def eSameFeed : Nat := 0x0D

/-- bsum.flt: s < x as FP32; false for a NaN operand (R152). -/
def bsumFltCond (s x : Word) : Bool := (v32 s).lt (v32 x)
/-- bsum.feq: s = x as FP32, +0 equal to −0; false for a NaN operand (R152). -/
def bsumFeqCond (s x : Word) : Bool := (v32 s).eqv (v32 x)
/-- bsum.fge: s ≥ x as FP32; false for a NaN operand (R152). -/
def bsumFgeCond (s x : Word) : Bool := (v32 x).lt (v32 s) || (v32 s).eqv (v32 x)
/-- bsum.fne: not bsum.feq, so true for a NaN operand (R152). -/
def bsumFneCond (s x : Word) : Bool := !bsumFeqCond s x
/-- bsum.nan: s is a NaN (R152). -/
def bsumNanCond (s : Word) : Bool := (v32 s).isNan
/-- bsum.ult: s < x unsigned (R152). -/
def bsumUltCond (s x : Word) : Bool := s.toNat < x.toNat
/-- bsum.uge: s ≥ x unsigned (R152). -/
def bsumUgeCond (s x : Word) : Bool := x.toNat ≤ s.toNat

/-- The summary word of kind 1, 2 or 3 over the elements written, as values after conversion (R150). -/
def summaryWord (kind : Nat) (vs : List FV) : Word :=
  let nz := (vs.filter (fun v => !v.isZero)).length
  if kind = 1 then (if vs.any FV.isNan then 1 else 0)
  else if kind = 2 then (if nz = 0 then 0 else 1)
  else BitVec.ofNat 32 (min nz 0xFFFFFFFF)

end Sys2Proof.Machine
end

