-- ==== Sys2Proof/Machine/Formats.lean ====
section
/-! DEFINITION. Format codes (R62), block formats MX and UB4 (R69 to R73), and conversions (R75). -/
namespace Sys2Proof.Machine

/-- The format is an MX format: block of 32 with an E8M0 scale (R62). -/
def isMX (f : Nat) : Bool := 5 ≤ f && f ≤ 10
/-- The format is UB4: block of 16 with an E6M2 scale (R62). -/
def isUB4 (f : Nat) : Bool := f == 11
/-- The format has block scales (R62). -/
def isBlockFmt (f : Nat) : Bool := 5 ≤ f && f ≤ 11
/-- The format is an integer format (R68). -/
def isIntFmt (f : Nat) : Bool := 12 ≤ f && f ≤ 14
/-- The format is one of the defined codes 0x00 to 0x0E (R62). -/
def fmtOk (f : Nat) : Bool := f ≤ 14

/-- Bits per element (R62). -/
def elemBits (f : Nat) : Nat :=
  match f with
  | 0 => 32 | 1 => 16 | 2 => 16 | 3 => 8 | 4 => 8 | 5 => 8 | 6 => 8 | 7 => 6 | 8 => 6 | 9 => 4 | 10 => 8 | 11 => 4
  | 12 => 8 | 13 => 32 | 14 => 64 | _ => 0

/-- Elements per block, 1 for formats without blocks (R62). -/
def blockSize (f : Nat) : Nat := if isMX f then 32 else if isUB4 f then 16 else 1

/-- The element layout of a floating-point format code (R62); MXINT8 and the integers have none. -/
def elemFmt (f : Nat) : Fmt :=
  match f with
  | 0 => fp32 | 1 => bf16 | 2 => fp16 | 3 => e4m3 | 4 => e5m2 | 5 => e4m3 | 6 => e5m2 | 7 => e3m2 | 8 => e2m3 | 9 => e2m1
  | 11 => e2m1 | _ => fp32

/-- Elements of a row as stored: rounded up to whole blocks (R69, R126). -/
def storedElems (f n : Nat) : Nat := roundUp n (blockSize f)

/-- Packed bytes of a row of n elements (R69, R126). -/
def rowBytes (f n : Nat) : Nat := ceilDiv (storedElems f n * elemBits f) 8

/-- Blocks, and scale bytes, in a row of n elements; 0 for formats without scales (R126). -/
def rowBlocks (f n : Nat) : Nat := if isBlockFmt f then ceilDiv n (blockSize f) else 0

/-- The value of an E8M0 scale code (R63). -/
def e8m0 (c : Nat) : FV := if c = 0xFF then .nan else .fin false 1 ((c : Int) - 127)

/-- The value of an E6M2 scale code (R63). -/
def e6m2 (c : Nat) : FV :=
  if c = 0xFF then .nan
  else if c / 4 = 0 then .fin false (c % 4) (-32)
  else .fin false (4 + c % 4) ((c / 4 : Nat) - 33)

/-- The value of a block's scale byte (R70, R72). -/
def scaleVal (f c : Nat) : FV := if isUB4 f then e6m2 c else e8m0 c

/-- An element code under its block scale, to FP32 (R70, R72); the exact product, an infinity beyond the FP32 range. -/
def decodeBlock (f code scale : Nat) : Word :=
  match scaleVal f scale with
  | .nan => f32nan
  | sv =>
    let v := if f = 10 then FV.ofInt (sgn 8 code) (-6) else (elemFmt f).dec code
    r32 (v.mul sv)

/-- An element without block scale, to FP32, under fixed exponent fx: the decoded value times 2 to the −fx (R75, R81). -/
def decodeElem (f code : Nat) (fx : Int) : Word :=
  if f = 12 then r32 (FV.ofInt (sgn 8 code) (-fx))
  else if f = 13 then ofInt32 (sgn 32 code)
  else if f = 14 then ofInt32 (sgn 64 code)
  else if f = 3 ∨ f = 4 then r32 (((elemFmt f).dec code).scale (-fx))
  else r32 ((elemFmt f).dec code)

/-- FP32 to a format without block scales, quantising the exact x times 2 to the fx once (R75, R81); integers saturate. -/
def encodeElem (f : Nat) (fx : Int) (x : Word) : Nat :=
  if f = 12 then wrap 8 (toIntSat 8 ((v32 x).scale fx))
  else if f = 13 then wrap 32 (toIntSat 32 (v32 x))
  else if f = 14 then wrap 64 (toIntSat 64 (v32 x))
  else if f = 3 ∨ f = 4 then (elemFmt f).enc ((v32 x).scale fx)
  else (elemFmt f).enc (v32 x)

/-- The largest power-of-two exponent the element format of an MX code reaches (R71). -/
def emaxOf (f : Nat) : Int :=
  match f with
  | 5 => 8 | 6 => 15 | 7 => 4 | 8 => 2 | 9 => 2 | _ => 0

/-- The largest magnitude in a block of finite values. -/
def amaxOf (xs : List FV) : FV := xs.foldl (fun a x => if a.lt x.abs then x.abs else a) (.fin false 0 0)

/-- The exponent floor(log2 of a positive finite value). -/
def log2Fin : FV → Int
  | .fin _ m e => (m.log2 : Int) + e
  | _ => 0

/-- Encode one MX block (R71): the scale byte and one code for each input. -/
def encodeMX (f : Nat) (xs : List Word) : Nat × List Nat :=
  let vs := xs.map v32
  if vs.any (fun v => !v.isFin) then (0xFF, xs.map (fun _ => 0))
  else
    let am := amaxOf vs
    let sc : Int := if am.isZero then 0 else max (-127) (min 127 (log2Fin am - emaxOf f))
    let el := fun (v : FV) =>
      if f = 10 then
        match v with
        | .fin s m e => wrap 8 (max (-127) (min 127 (sint s (rneUnits m (e + 6 - sc) 0))))
        | _ => 0
      else (elemFmt f).enc (v.scale (-sc))
    ((sc + 127).toNat, vs.map el)

/-- The smallest non-zero E6M2 code from c on whose value is not below amax / 6, or 0xFE (R73). -/
def ub4ScaleFrom : Nat → Nat → FV → Nat
  | 0, _, _ => 0xFE
  | k + 1, c, am =>
    if 0xFE ≤ c then 0xFE
    else if ((e6m2 c).mul (FV.ofInt 6)).lt am then ub4ScaleFrom k (c + 1) am else c

/-- x divided by a positive finite scale, as a value that rounds exactly as the quotient does. -/
def quot (x s : FV) : FV :=
  match x, s with
  | .fin a m e, .fin _ n g => ratio a m n (e - g)
  | v, _ => v

/-- Encode one UB4 block (R73): the scale byte and one code for each input. -/
def encodeUB4 (xs : List Word) : Nat × List Nat :=
  let vs := xs.map v32
  if vs.any (fun v => !v.isFin) then (0xFF, xs.map (fun _ => 0))
  else
    let am := amaxOf vs
    let c := if am.isZero then 0x7C else ub4ScaleFrom 254 1 am
    (c, vs.map (fun v => e2m1.enc (quot v (e6m2 c))))

/-- Encode one block of a block format (R71, R73). -/
def encodeBlock (f : Nat) (xs : List Word) : Nat × List Nat :=
  if isUB4 f then encodeUB4 xs else encodeMX f xs

/-- Pack element codes into bytes, little-endian within the row (R69). -/
def packCodes (bits : Nat) (codes : List Nat) : Bytes :=
  natLE (ceilDiv (codes.length * bits) 8) (codes.foldr (fun c acc => c + acc * 2 ^ bits) 0)

/-- The code of element i of a packed row (R69). -/
def codeAt (bits i : Nat) (row : Bytes) : Nat :=
  let lo := i * bits
  fld (leNat ((row.drop (lo / 8)).take 9)) (lo % 8 + bits - 1) (lo % 8)

/-- The formats a tensor kind permits (R82). -/
def kindFormats (k : Nat) : List Nat :=
  match k with
  | 0 => [0] | 1 => [0] | 2 => [1]
  | 3 => [3, 5, 8, 9, 11, 10, 12]
  | 4 => [1, 3, 5, 8, 10, 12]
  | 5 => [1, 3, 5, 7, 8, 11]
  | 6 => [1, 4, 6, 7]
  | 7 => [0]
  | 8 => [1, 3, 5, 10, 11]
  | 9 => [0, 1]
  | 10 => [1, 3, 5]
  | 11 => [0, 1, 2]
  | 12 => [13, 14]
  | 13 => [0, 13, 14]
  | 14 => [0]
  | _ => []

end Sys2Proof.Machine
end

