-- ==== Sys2Proof/Machine/Operands.lean ====
section
/-! DEFINITION. Operand forms of the engines: scale recipes (R81), tensor descriptors (R125, R126), rows and their elements,
length tables (R128), and the heat-relative address map (R21 to R24, R32, R206, R207, R312, R398). -/
namespace Sys2Proof.Machine

/-- A SCALE_RECIPES entry (R81). -/
structure Recipe where
  /-- tensor kind (R82) -/
  kind : Nat
  /-- format code (R62) -/
  fmt : Nat
  /-- fixed exponent f -/
  fx : Int
  /-- update exponent u (R80) -/
  ux : Int
deriving DecidableEq, Repr

/-- The fields of one 16-byte SCALE_RECIPES entry (R81). -/
def parseRecipe (w : Nat) : Recipe := ⟨fld w 3 0, fld w 12 8, sgn 8 (fld w 23 16), sgn 8 (fld w 31 24)⟩

/-- One SCALE_RECIPES entry obeys R81 to R83. -/
def recipeOk (w : Nat) : Bool :=
  let r := parseRecipe w
  rsv w 7 4 && rsv w 15 13 && rsv w 127 32 && (kindFormats r.kind).contains r.fmt
    && (-64 ≤ r.fx && r.fx ≤ 63) && (r.fx == 0 || r.fmt == 3 || r.fmt == 4 || r.fmt == 12)
    && (-63 ≤ r.ux && r.ux ≤ 63) && (r.ux == 0 || r.kind == 0)

/-- What an engine needs to know of the heat's address map (R20 to R24, R31, R32, R206, R207, R312, R398). -/
structure HeatMap where
  /-- logical clusters of the heat -/
  clusters : Nat
  /-- scratch ways per slice, s_h -/
  scratchWays : Nat
  /-- staging share in MiB -/
  feedShare : Nat
  /-- program top: the lowest address of the image region, the media pool, the partner region (R398) -/
  programTop : Nat
  /-- the record and sample regions of the sample pipeline, as (base, length) (R207) -/
  samples : List (Nat × Nat)
  /-- (retired, survivor) of every folded pair, as logical clusters (R335) -/
  fold : List (Nat × Nat)
deriving DecidableEq, Repr

/-- The cluster whose store a logical cluster's window names: the survivor's after a fold (R335). -/
def HeatMap.home (h : HeatMap) (c : Nat) : Nat := (h.fold.lookup c).getD c

/-- The device address of the cluster stores, of scratch, of the cluster windows, of the feed die buffers and of the
narrow path (R21, R23, R24). -/
def storeWin : Nat := 0x200000000000
/-- Scratch (R20). -/
def scratchWin : Nat := 0x200100000000
/-- Function tables and control-core memories (R23). -/
def tableWin : Nat := 0x200200000000
/-- Feed die buffers (R24). -/
def feedWin : Nat := 0x200300000000
/-- The narrow-path alias (R21). -/
def aliasWin : Nat := 0x400000000000

/-- What lies at a heat-relative address. -/
inductive Region where
  /-- program memory, at this offset of the heat's memory range -/
  | mem (m : Nat)
  /-- a record or sample buffer region (R207) -/
  | sample (m : Nat)
  /-- the store of a logical cluster -/
  | store (c off : Nat)
  /-- scratch, by its offset in the scratch window -/
  | scratch (off : Nat)
  /-- a function-table window -/
  | fnTab (c off : Nat)
  /-- a control-core memory -/
  | control
  /-- the heat's share of the staging buffer -/
  | staging (off : Nat)
  /-- another feed die buffer -/
  | feedBuf
  /-- outside the heat's resources, reserved, or a region no command reaches -/
  | none
deriving DecidableEq, Repr

/-- A memory address below the program top (R22, R206, R207, R312, R398). -/
def memRegion (h : HeatMap) (m : Nat) : Region :=
  if h.programTop ≤ m then .none
  else if h.samples.any (fun r => r.1 ≤ m && m < r.1 + r.2) then .sample m else .mem m

/-- The region of a heat-relative address (R21 to R24, R32). -/
def regionOf (h : HeatMap) (a : Nat) : Region :=
  if a < storeWin then memRegion h a
  else if a < storeWin + 64 * 0x1000000 then
    let c := (a - storeWin) / 0x1000000
    if c < h.clusters then .store (h.home c) ((a - storeWin) % 0x1000000) else .none
  else if scratchWin ≤ a && a < scratchWin + 0x10000000 then
    if (a - scratchWin) % 0x8000000 < h.scratchWays * 0x800000 then .scratch (a - scratchWin) else .none
  else if tableWin ≤ a && a < tableWin + 64 * 0x100000 then
    let c := (a - tableWin) / 0x100000
    let o := (a - tableWin) % 0x100000
    if h.clusters ≤ c then .none
    else if o < 0x40000 then .fnTab c o else if o < 0x60000 then .control else .none
  else if feedWin ≤ a && a < feedWin + h.feedShare * 0x100000 then .staging (a - feedWin)
  else if feedWin + 0x10000000 ≤ a && a < feedWin + 0x12000000 then .feedBuf
  else if feedWin + 0x20000000 ≤ a && a < feedWin + 0x20800000 then .feedBuf
  else if aliasWin ≤ a && a < 2 ^ 48 then memRegion h (a - aliasWin)
  else .none

/-- A store address with a folded cluster's window redirected to the survivor's, offset for offset (R335). -/
def homeAddr (h : HeatMap) (a : Nat) : Nat :=
  if storeWin ≤ a && a < storeWin + 64 * 0x1000000 then
    storeWin + h.home ((a - storeWin) / 0x1000000) * 0x1000000 + (a - storeWin) % 0x1000000
  else a

/-- A tensor descriptor with its recipe's kind and fixed exponent (R125, R83). -/
structure Desc where
  /-- device address of element 0 -/
  base : Nat
  /-- format code -/
  fmt : Nat
  /-- rank -/
  rank : Nat
  /-- kind of its recipe -/
  kind : Nat
  /-- fixed exponent of its recipe -/
  fx : Int
  /-- innermost extent -/
  d0 : Nat
  /-- extent 1 -/
  d1 : Nat
  /-- extent 2 -/
  d2 : Nat
  /-- extent 3 -/
  d3 : Nat
  /-- stride 1 in bytes -/
  s1 : Nat
  /-- stride 2 -/
  s2 : Nat
  /-- stride 3 -/
  s3 : Nat
  /-- device address of the scale array -/
  scale : Nat
  /-- store offset of the length table, 0xFF_FFFF for none -/
  lenTab : Nat
deriving DecidableEq, Repr

/-- A 24-bit descriptor offset that names none (R125, R131). -/
def noDesc : Nat := 0xFFFFFF

/-- The descriptor in 512 bits, under the recipes of the image; E_DESC where R11, R62, R83, R125 or R126 is broken. -/
def parseDesc (recipes : List Recipe) (w : Nat) : Except Nat Desc :=
  let fmt := fld w 52 48
  let rank := fld w 54 53 + 1
  match recipes[fld w 75 64]? with
  | none => .error eDesc
  | some r =>
    if rsv w 63 55 && rsv w 95 76 && rsv w 511 408 && fmtOk fmt && r.fmt == fmt
      && (2 ≤ rank || (rsv w 143 120 && rsv w 239 192)) && (3 ≤ rank || (rsv w 167 144 && rsv w 287 240))
      && (4 ≤ rank || (rsv w 191 168 && rsv w 335 288)) && (isBlockFmt fmt || rsv w 383 336) then
      .ok { base := fld w 47 0, fmt := fmt, rank := rank, kind := r.kind, fx := r.fx,
            d0 := fld w 119 96 + 1, d1 := fld w 143 120 + 1, d2 := fld w 167 144 + 1, d3 := fld w 191 168 + 1,
            s1 := fld w 239 192, s2 := fld w 287 240, s3 := fld w 335 288,
            scale := fld w 383 336, lenTab := fld w 407 384 }
    else .error eDesc

/-- The descriptor at a store offset (R125), its addresses under the folds in force (R335). -/
def loadDesc (h : HeatMap) (recipes : List Recipe) (st : Mem) (off : Nat) : Except Nat Desc :=
  (parseDesc recipes (st.num off 64)).map (fun d => { d with base := homeAddr h d.base, scale := homeAddr h d.scale })

/-- The number of rows (R126). -/
def Desc.rows (d : Desc) : Nat := d.d1 * d.d2 * d.d3
/-- The number of elements. -/
def Desc.elems (d : Desc) : Nat := d.d0 * d.rows
/-- The device address of a row (R126). -/
def Desc.rowAddr (d : Desc) (r : Nat) : Nat :=
  d.base + r % d.d1 * d.s1 + r / d.d1 % d.d2 * d.s2 + r / (d.d1 * d.d2) * d.s3
/-- Packed bytes of a row (R126). -/
def Desc.rowLen (d : Desc) : Nat := rowBytes d.fmt d.d0
/-- Scale bytes of a row (R126). -/
def Desc.rowScales (d : Desc) : Nat := rowBlocks d.fmt d.d0
/-- The device address of a row's first scale byte (R126). -/
def Desc.scaleAddr (d : Desc) (r : Nat) : Nat := d.scale + r * d.rowScales
/-- The ranges of the rows. -/
def Desc.rowRanges (d : Desc) : List (Nat × Nat) := (List.range d.rows).map (fun r => (d.rowAddr r, d.rowLen))
/-- Every range the tensor occupies: rows and scale array. -/
def Desc.ranges (d : Desc) : List (Nat × Nat) := d.rowRanges ++ [(d.scale, d.rows * d.rowScales)]
/-- Some range of one list shares a byte with some range of another. -/
def rangesMeet (xs ys : List (Nat × Nat)) : Bool :=
  xs.any (fun x => ys.any (fun y => overlaps x.1 x.2 y.1 y.2))
/-- The format, extents, strides and addresses of two descriptors agree: the same tensor (R136). -/
def Desc.same (a b : Desc) : Bool :=
  a.base == b.base && a.fmt == b.fmt && a.d0 == b.d0 && a.d1 == b.d1 && a.d2 == b.d2 && a.d3 == b.d3
    && a.s1 == b.s1 && a.s2 == b.s2 && a.s3 == b.s3 && a.scale == b.scale
/-- Two tensors have equal extents. -/
def Desc.sameExt (a b : Desc) : Bool := a.d0 == b.d0 && a.d1 == b.d1 && a.d2 == b.d2 && a.d3 == b.d3
/-- base, scale_base and strides are multiples of n bytes (R104, R127). -/
def Desc.aligned (d : Desc) (n : Nat) : Bool :=
  d.base % n == 0 && d.scale % n == 0 && d.s1 % n == 0 && d.s2 % n == 0 && d.s3 % n == 0
/-- No two elements of a destination share a byte (R127). -/
def Desc.rowsApart (d : Desc) : Bool :=
  (d.rank < 2 || d.rowLen ≤ d.s1) && (d.rank < 3 || d.d1 * d.s1 ≤ d.s2) && (d.rank < 4 || d.d2 * d.s2 ≤ d.s3)

/-- The status with which a matrix or vector command that names this range ends, 0 where it lies wholly in the issuing
cluster's store: E_DESC for the windows and buffers of R23 and R24, else E_LIMIT (R107, R153). -/
def ownRangeStatus (h : HeatMap) (own : Nat) (r : Nat × Nat) : Nat :=
  let lo := storeWin + own * 0x1000000
  if r.2 = 0 then 0
  else if lo ≤ r.1 && r.1 + r.2 ≤ lo + 0x1000000 then 0
  else match regionOf h r.1, regionOf h (r.1 + r.2 - 1) with
    | .fnTab _ _, _ | .control, _ | .staging _, _ | .feedBuf, _ => eDesc
    | _, .fnTab _ _ | _, .control | _, .staging _ | _, .feedBuf => eDesc
    | _, _ => eLimit

/-- The first status of a list of ranges that is not 0. -/
def firstStatus (f : Nat × Nat → Nat) (rs : List (Nat × Nat)) : Nat := (rs.map f).find? (· != 0) |>.getD 0

/-- Go on only with status 0. -/
def need (st : Nat) : Except Nat Unit := if st = 0 then .ok () else .error st
/-- Go on only where the condition holds; else end with the status. -/
def demand (b : Bool) (st : Nat) : Except Nat Unit := if b then .ok () else .error st

/-- The element codes of a row, read through rd (address, bytes) (R69, R126). -/
def Desc.codes (d : Desc) (rd : Nat → Nat → Bytes) (r : Nat) : List Nat :=
  let row := rd (d.rowAddr r) d.rowLen
  (List.range d.d0).map (fun i => codeAt (elemBits d.fmt) i row)

/-- A row as FP32 values, decoded exactly (R70, R72, R75, R81). -/
def Desc.floats (d : Desc) (rd : Nat → Nat → Bytes) (r : Nat) : List Word :=
  let cs := d.codes rd r
  if isBlockFmt d.fmt then
    let sc := rd (d.scaleAddr r) d.rowScales
    cs.mapIdx (fun i c => decodeBlock d.fmt c ((sc.getD (i / blockSize d.fmt) 0).toNat))
  else cs.map (fun c => decodeElem d.fmt c d.fx)

/-- A row as raw integers (R68, R134). -/
def Desc.ints (d : Desc) (rd : Nat → Nat → Bytes) (r : Nat) : List Int := (d.codes rd r).map (sgn (elemBits d.fmt))

/-- A result element before conversion: an FP32 value or an integer. -/
inductive Elem where
  /-- an FP32 value -/
  | f (w : Word)
  /-- an integer, exact -/
  | i (v : Int)
deriving DecidableEq, Repr

/-- The code an element is stored as in a format without block scales (R75, R81): integers into integer formats saturate. -/
def Elem.code (fmt : Nat) (fx : Int) : Elem → Nat
  | .f w => encodeElem fmt fx w
  | .i v => if isIntFmt fmt then wrap (elemBits fmt) (satInt (elemBits fmt) v) else encodeElem fmt fx (ofInt32 v)

/-- The FP32 value of an element. -/
def Elem.toWord : Elem → Word
  | .f w => w
  | .i v => ofInt32 v

/-- The value of a stored code, for the summaries of R150. -/
def codeVal (fmt code : Nat) : FV :=
  if isIntFmt fmt then FV.ofInt (sgn (elemBits fmt) code) else (elemFmt fmt).dec code

/-- The bytes a row write stores and the values of the elements written (R126, R129, R150). -/
structure RowOut where
  /-- (address, bytes) in store order -/
  writes : List (Nat × Bytes)
  /-- the elements written, after conversion -/
  vals : List FV
deriving DecidableEq, Repr

/-- One block of a block-format row: not written where wholly absent; absent elements encode as zero (R129). -/
def blockOut (d : Desc) (r b : Nat) (es : List (Option Elem)) : RowOut :=
  if es.all Option.isNone then ⟨[], []⟩
  else
    let n := blockSize d.fmt
    let xs := (es ++ List.replicate (n - es.length) none).map (fun (e : Option Elem) => (e.map Elem.toWord).getD f32zero)
    let (sc, cs) := encodeBlock d.fmt xs
    let bytes := packCodes (elemBits d.fmt) cs
    ⟨[(d.rowAddr r + b * bytes.length, bytes), (d.scaleAddr r + b, [BitVec.ofNat 8 sc])],
     (es.zip cs).filterMap (fun p => if p.1.isSome then some (v32 (decodeBlock d.fmt p.2 sc)) else none)⟩

/-- A row converted and stored (R69, R75, R126, R128, R129): absent elements are not written. -/
def Desc.rowOut (d : Desc) (r : Nat) (es : List (Option Elem)) : RowOut :=
  if isBlockFmt d.fmt then
    let outs := (cut (blockSize d.fmt) (es.length + 1) es).mapIdx (fun b blk => blockOut d r b blk)
    ⟨outs.flatMap RowOut.writes, outs.flatMap RowOut.vals⟩
  else
    let nb := elemBits d.fmt / 8
    let cs := es.mapIdx (fun i (e : Option Elem) => e.map (fun x => (i, x.code d.fmt d.fx)))
    ⟨cs.filterMap (fun (p : Option (Nat × Nat)) => p.map (fun q => (d.rowAddr r + q.1 * nb, natLE nb q.2))),
     cs.filterMap (fun (p : Option (Nat × Nat)) => p.map (fun q => codeVal d.fmt q.2))⟩

/-- Writes at device addresses applied to a store whose window starts at lo. -/
def putAll (lo : Nat) (m : Mem) (ws : List (Nat × Bytes)) : Mem :=
  ws.foldl (fun m w => m.put (w.1 - lo) w.2) m

/-- The valid length of a row under a length table in the store (R128); E_LIMIT out of range. -/
def validLen (st : Mem) (d : Desc) (r : Nat) : Except Nat Nat :=
  if d.lenTab = noDesc then .ok d.d0
  else
    let v := sgn 32 (st.num (d.lenTab + 4 * r) 4)
    if v < 0 || (d.d0 : Int) < v then .error eLimit else .ok v.toNat

/-- The store range of a descriptor's length table. -/
def Desc.lenRange (d : Desc) : List (Nat × Nat) := if d.lenTab = noDesc then [] else [(d.lenTab, 4 * d.rows)]

/-- Everything a matrix or vector command reads besides its own bits and its store: its heat's recipes, segment length,
address map, job seed and step number, its logical cluster and its function tables. -/
structure EngCtx where
  /-- SCALE_RECIPES of the image -/
  recipes : List Recipe
  /-- segment length S (R34) -/
  seg : Nat
  /-- address map of the heat -/
  hm : HeatMap
  /-- logical cluster number -/
  own : Nat
  /-- job seed (R77) -/
  seed : DWord
  /-- step number (R59) -/
  step : Nat
  /-- function-table memory (R138) -/
  fn : Mem
deriving DecidableEq, Repr

/-- The device address at which the issuing cluster's store begins. -/
def EngCtx.lo (x : EngCtx) : Nat := storeWin + x.own * 0x1000000
/-- Read the issuing cluster's store at a device address. -/
def EngCtx.rd (x : EngCtx) (st : Mem) (a n : Nat) : Bytes := st.get (a - x.lo) n

/-- The result of a matrix command: the store after it, and the words it wrote to accumulator registers, in order, by their keys (R95). -/
structure EngOut where
  /-- the store -/
  store : Mem
  /-- register writes -/
  regs : List (Nat × Nat)
deriving DecidableEq, Repr

end Sys2Proof.Machine
end

