-- ==== Sys2Proof/Machine/Program.lean ====
section
/-! DEFINITION. A loaded Felost image and what its sections say: header (R34), sections (R35, R36), block tables (R40),
channels (R45), fold parts (R48), placement (R37), the hurdle plan (R260), routes (R228 to R231), next-event entries (R358),
the sample plan (R277, R278, R286, R298) and the checkpoint list (R339). -/
namespace Sys2Proof.Machine

/-- One section of an image: its kind and owner (R35) and its bytes. -/
structure Section where
  /-- kind (R36) -/
  kind : Nat
  /-- owner: logical cluster, pair, or 0xFFFF -/
  owner : Nat
  /-- contents -/
  bytes : Bytes
deriving DecidableEq, Repr

/-- A Felost image as the image region holds it (R397). -/
structure Program where
  /-- the 64-byte header as a 512-bit number (R34) -/
  hdr : Nat
  /-- sections in table order -/
  secs : List Section
deriving DecidableEq, Repr

/-- free_order (R34). -/
def Program.freeOrder (p : Program) : Bool := bitAt p.hdr 72
/-- float_atomics (R34). -/
def Program.floatAtomics (p : Program) : Bool := bitAt p.hdr 73
/-- unaligned_partition (R34). -/
def Program.unaligned (p : Program) : Bool := bitAt p.hdr 74
/-- force_same_feed (R34). -/
def Program.forceSameFeed (p : Program) : Bool := bitAt p.hdr 75
/-- Segment length S (R34). -/
def Program.seg (p : Program) : Nat := 2 ^ fld p.hdr 84 80
/-- cluster_count (R34). -/
def Program.clusterCount (p : Program) : Nat := fld p.hdr 95 88
/-- position_count (R34). -/
def Program.positionCount (p : Program) : Nat := fld p.hdr 103 96
/-- port_count (R34). -/
def Program.portCount (p : Program) : Nat := fld p.hdr 111 104
/-- section_count (R34). -/
def Program.sectionCount (p : Program) : Nat := fld p.hdr 127 112
/-- replica_count R (R34). -/
def Program.replicas (p : Program) : Nat := fld p.hdr 140 128
/-- The run-up window W: 0 selects 4 steps (R34). -/
def Program.runUp (p : Program) : Nat := if fld p.hdr 148 144 = 0 then 4 else fld p.hdr 148 144
/-- global_batch B (R34). -/
def Program.batch (p : Program) : Nat := fld p.hdr 191 160
/-- image_size (R34). -/
def Program.imageSize (p : Program) : Nat := fld p.hdr 223 192
/-- image_digest as its 32 bytes (R34). -/
def Program.digest (p : Program) : Bytes := natLE 32 (fld p.hdr 511 256)

/-- The bytes of the section of a kind and owner; empty where there is none. -/
def Program.sec (p : Program) (kind owner : Nat) : Bytes :=
  ((p.secs.find? (fun s => s.kind == kind && s.owner == owner)).map Section.bytes).getD []
/-- The section exists. -/
def Program.has (p : Program) (kind owner : Nat) : Bool := p.secs.any (fun s => s.kind == kind && s.owner == owner)
/-- The owner of an image-wide section (R35). -/
def wide : Nat := 0xFFFF

/-- The bytes of part i (0 to 3) of the FOLD section of pair k (R48). -/
def Program.foldPart (p : Program) (k i : Nat) : Bytes :=
  let s := p.sec 0x04 (2 * k)
  bytesAt s (leAt s (16 * i) 4) (leAt s (16 * i + 4) 4)
/-- The command stream of a logical cluster, its fold stream where it runs alone (R36, R48). -/
def Program.stream (p : Program) (folded : Bool) (c : Nat) : Bytes :=
  if folded then p.foldPart (c / 2) (2 * (c % 2)) else p.sec 0x01 c
/-- The control program of a logical cluster, its fold program where it runs alone (R36, R48). -/
def Program.ctrl (p : Program) (folded : Bool) (c : Nat) : Bytes :=
  if folded then p.foldPart (c / 2) (2 * (c % 2) + 1) else p.sec 0x02 c

/-- block_count of a stream (R40). -/
def blockCount (s : Bytes) : Nat := leAt s 0 4
/-- First command index and command count of a block (R40). -/
def blockEntry (s : Bytes) (b : Nat) : Nat × Nat := (leAt s (4 + 8 * b) 4, leAt s (8 + 8 * b) 4)
/-- The offset of command 0 in a stream (R40). -/
def cmdBase (s : Bytes) : Nat := roundUp (4 + 8 * blockCount s) 32
/-- The number of whole commands in a stream (R40). -/
def cmdCount (s : Bytes) : Nat := (s.length - cmdBase s) / 32
/-- The 256 bits of command i of a stream (R40). -/
def cmdAt (s : Bytes) (i : Nat) : Nat := leAt s (cmdBase s + 32 * i) 32

/-- The SCALE_RECIPES entries: a u32 count padded to 16 bytes, then 16-byte entries (R81). -/
def Program.recipes (p : Program) : List Recipe :=
  let s := p.sec 0x09 wide
  (List.range (leAt s 0 4)).map (fun i => parseRecipe (leAt s (16 + 16 * i) 16))

/-- A channel of the CHANNELS section or of the feed channel table (R45, R286). -/
structure ChanDef where
  /-- logical producer; none for the sample pipeline -/
  prod : Option Nat
  /-- channel id at the producer -/
  prodId : Nat
  /-- logical consumer -/
  cons : Nat
  /-- channel id at the consumer -/
  consId : Nat
  /-- slot bytes; 0 for a token-only channel -/
  slotBytes : Nat
  /-- slots or tokens -/
  slots : Nat
  /-- store offset of the slot ring -/
  buffer : Nat
deriving DecidableEq, Repr

/-- One CHANNELS entry (R45). -/
def parseChan (w : Nat) : ChanDef :=
  ⟨some (fld w 7 0), fld w 23 16, fld w 15 8, fld w 31 24, if fld w 36 32 = 0 then 0 else 2 ^ fld w 36 32, fld w 46 40, fld w 71 48⟩
/-- One feed channel entry (R286). -/
def parseFeedChan (w : Nat) : ChanDef := ⟨none, 0, fld w 7 0, fld w 15 8, 256, fld w 22 16, fld w 47 24⟩
/-- The CHANNELS entries (R45). -/
def Program.chans (p : Program) : List ChanDef :=
  let s := p.sec 0x06 wide
  (List.range (leAt s 0 4)).map (fun i => parseChan (leAt s (16 + 16 * i) 16))

/-- The SAMPLE_PLAN section (R277). -/
def Program.plan (p : Program) : Bytes := p.sec 0x0B wide
/-- The SAMPLE_PLAN header as a number (R277). -/
def Program.planHdr (p : Program) : Nat := leAt p.plan 0 128
/-- feed_count (R277). -/
def Program.feedCount (p : Program) : Nat := fld p.planHdr 202 192
/-- The feed channels (R286). -/
def Program.feedChans (p : Program) : List ChanDef :=
  (List.range p.feedCount).map (fun i => parseFeedChan (leAt p.plan (20608 + 16 * i) 16))
/-- server_count (R277). -/
def Program.serverCount (p : Program) : Nat := fld p.planHdr 14 8
/-- Server table entry s (R278). -/
def Program.server (p : Program) (s : Nat) : Nat := leAt p.plan (128 + 64 * s) 64
/-- recipe_count of the augmentation recipes (R277). -/
def Program.augCount (p : Program) : Nat := fld p.planHdr 23 15
/-- Augmentation recipe i (R298). -/
def Program.aug (p : Program) (i : Nat) : Nat := leAt p.plan (4224 + 64 * i) 64
/-- The audio frontend block (R306). -/
def Program.audio (p : Program) : Bytes :=
  bytesAt p.plan (roundUp (20608 + 16 * p.feedCount) 64) (fld p.planHdr 447 416)
/-- The record region (R277). -/
def Program.recordRegion (p : Program) : Nat × Nat := (fld p.planHdr 271 224, fld p.planHdr 319 272)
/-- The sample region (R277). -/
def Program.sampleRegion (p : Program) : Nat × Nat := (fld p.planHdr 367 320, fld p.planHdr 415 368)
/-- claim_ratio (R277, R293). -/
def Program.claimRatio (p : Program) : Nat := fld p.planHdr 191 176
/-- entry_count of the sample table (R277). -/
def Program.entryCount (p : Program) : Nat := fld p.planHdr 175 128

/-- The PLACEMENT section (R37). -/
def Program.place (p : Program) : Bytes := p.sec 0x03 wide
/-- The PLACEMENT header (R37). -/
def Program.placeHdr (p : Program) : Nat := leAt p.place 0 64
/-- tensor_count (R37). -/
def Program.tensorCount (p : Program) : Nat := fld p.placeHdr 31 0
/-- pool_count (R37). -/
def Program.poolCount (p : Program) : Nat := fld p.placeHdr 39 32
/-- region_count (R37). -/
def Program.regionCount (p : Program) : Nat := fld p.placeHdr 95 64
/-- used_top (R37). -/
def Program.usedTop (p : Program) : Nat := fld p.placeHdr 175 128
/-- baton_bytes (R37). -/
def Program.batonBytes (p : Program) : Nat := fld p.placeHdr 239 192
/-- Cluster table entry c (R37). -/
def Program.clusterEntry (p : Program) (c : Nat) : Nat := leAt p.place (64 + 32 * c) 32
/-- stream_addr, or fold_addr where the cluster runs alone (R37, R48). -/
def Program.streamAddr (p : Program) (folded : Bool) (c : Nat) : Nat :=
  if folded then fld (p.clusterEntry c) 111 64 else fld (p.clusterEntry c) 47 0
/-- step_record: store offset, 0xFF_FFFF for none (R37, R160). -/
def Program.stepRecord (p : Program) (c : Nat) : Nat := fld (p.clusterEntry c) 151 128
/-- Offset of the tensor table (R37). -/
def tensorBase : Nat := 2112
/-- Offset of the KV pool table: each table starts at the next multiple of 64 (R37). -/
def Program.poolBase (p : Program) : Nat := roundUp (tensorBase + 32 * p.tensorCount) 64
/-- Offset of the KV region table (R37). -/
def Program.regionBase (p : Program) : Nat := roundUp (p.poolBase + 16 * p.poolCount) 64
/-- Offset after the KV region table (R37). -/
def Program.slotBase (p : Program) : Nat := roundUp (p.regionBase + 16 * p.regionCount) 64
/-- Offset of the checkpoint list (R37, R339). -/
def Program.ckptBase (p : Program) : Nat :=
  if p.unaligned then roundUp (p.slotBase + 16 * p.replicas) 64 else p.slotBase
/-- Tensor table entry t (R37). -/
def Program.tensor (p : Program) (t : Nat) : Nat := leAt p.place (tensorBase + 32 * t) 32
/-- KV pool header addresses (R37). -/
def Program.pools (p : Program) : List Nat := (List.range p.poolCount).map (fun i => leAt p.place (p.poolBase + 16 * i) 6)
/-- KV region header addresses (R37). -/
def Program.regions (p : Program) : List Nat :=
  (List.range p.regionCount).map (fun i => leAt p.place (p.regionBase + 16 * i) 6)
/-- Slot range of a replica in an unaligned partition: (first_slot, slot_count) (R37, R60). -/
def Program.slotRange (p : Program) (r : Nat) : Nat × Nat :=
  (leAt p.place (p.slotBase + 16 * r) 4, leAt p.place (p.slotBase + 16 * r + 4) 4)

/-- The padded slot count P_B (R59). -/
def Program.padded (p : Program) : Nat := pow2Ceil p.batch
/-- The slots a replica owns: first slot and count, slots at and above B left out (R59, R60). -/
def Program.ownSlots (p : Program) (r : Nat) : Nat × Nat :=
  if p.unaligned then p.slotRange r
  else
    let n := p.padded / p.replicas
    (r * n, min (r * n + n) p.batch - min (r * n) p.batch)

/-- A checkpoint record (R339). -/
structure CkptRec where
  /-- addr0 -/
  a0 : Nat
  /-- addr1 -/
  a1 : Nat
  /-- bytes -/
  len : Nat
  /-- class 0, MASTER -/
  master : Bool
  /-- hi0 -/
  h0 : Nat
  /-- hi1 -/
  h1 : Nat
deriving DecidableEq, Repr

/-- One checkpoint list entry (R339). -/
def parseCkpt (w : Nat) : CkptRec := ⟨fld w 47 0, fld w 95 48, fld w 135 96, fld w 139 136 == 0, fld w 191 144, fld w 239 192⟩
/-- The checkpoint list (R339). -/
def Program.ckpts (p : Program) : List CkptRec :=
  let b := p.ckptBase
  (List.range (leAt p.place b 4)).map (fun i => parseCkpt (leAt p.place (b + 64 + 64 * i) 64))
/-- The copy of a record in the parity of a step (R270, R339). -/
def CkptRec.addr (r : CkptRec) (step : Nat) : Nat := if step % 2 = 0 then r.a0 else r.a1

/-- The HURDLE_PLAN section (R260). -/
def Program.hplan (p : Program) : Bytes := p.sec 0x08 wide
/-- module_count (R260). -/
def Program.moduleCount (p : Program) : Nat := leAt p.hplan 0 8 % 2 ^ 13
/-- root (R260). -/
def Program.root (p : Program) : Nat := fld (leAt p.hplan 0 8) 27 16
/-- check_count (R260). -/
def Program.checkCount (p : Program) : Nat := fld (leAt p.hplan 0 8) 43 32
/-- Module table entry m (R260). -/
def Program.modEntry (p : Program) (m : Nat) : Nat := leAt p.hplan (64 + 8 * m) 8
/-- Parent of m (R260). -/
def Program.parent (p : Program) (m : Nat) : Nat := fld (p.modEntry m) 11 0
/-- Relay partner of m (R260). -/
def Program.partner (p : Program) (m : Nat) : Nat := fld (p.modEntry m) 31 20
/-- The modules whose parent is m (R260). -/
def Program.children (p : Program) (m : Nat) : List Nat :=
  (List.range p.moduleCount).filter (fun k => k != m && p.parent k == m)
/-- Check table entry i: (tag, twin) (R260). -/
def Program.check (p : Program) (i : Nat) : Nat × Nat :=
  let w := leAt p.hplan (64 + roundUp (8 * p.moduleCount) 64 + 4 * i) 4
  (fld w 11 0, fld w 23 12)
/-- The twin of a checked tag (R260, R271). -/
def Program.twin (p : Program) (tag : Nat) : Option Nat :=
  ((List.range p.checkCount).map p.check).lookup tag

/-- The ROUTES section (R228). -/
def Program.routes (p : Program) : Bytes := p.sec 0x07 wide
/-- The ROUTES header (R228). -/
def Program.routeHdr (p : Program) : Nat := leAt p.routes 0 64
/-- Buffer share of a virtual channel at a receiver (R222, R228). -/
def Program.vcFlits (p : Program) (vc : Nat) : Nat :=
  match vc with
  | 0 => fld p.routeHdr 41 32
  | 1 => fld p.routeHdr 51 42
  | 2 => fld p.routeHdr 61 52
  | _ => 32
/-- Peer table entry of a logical port (R229). -/
def Program.peer (p : Program) (port : Nat) : Nat := leAt p.routes (64 + 4 * port) 4
/-- Tag table entry (R230); no tag is valid without ROUTES. -/
def Program.tag (p : Program) (t : Nat) : Nat := leAt p.routes (192 + 16 * t) 16
/-- A tag may receive DATA (R230). -/
def Program.tagValid (p : Program) (t : Nat) : Bool := bitAt (p.tag t) 48
/-- Base of a tag's landing area (R230). -/
def Program.tagBase (p : Program) (t : Nat) : Nat := fld (p.tag t) 47 0
/-- Size of a tag's landing area in granules (R230). -/
def Program.tagUnits (p : Program) (t : Nat) : Nat := fld (p.tag t) 85 64 + 1
/-- The route entry a module uses for a destination (R228, R231, R232). -/
def Program.route (p : Program) (own dest : Nat) : Nat :=
  let mc := fld p.routeHdr 12 0
  let cls := leAt p.routes (65728 + own) 1
  let i := if bitAt p.routeHdr 13 then (dest + mc - own) % mc else dest
  leAt p.routes (65728 + roundUp mc 64 + 16384 * cls + 4 * i) 4

/-- The NEXT_EVENT entry of a block (R358). -/
def Program.nextEvent (p : Program) (c b : Nat) : Nat := leAt (p.sec 0x05 c) (16 + 16 * b) 16

end Sys2Proof.Machine
end

