-- ==== Sys2Proof/Machine/HeatState.lean ====
section
/-! DEFINITION. The state of one heat: its resources and image (R30 to R32, R395 to R398), its memory, its job (R399), channels
(R46), hurdle unit (R259 to R269), landing (R237 to R241), sample pipeline (R283 to R292) and checkpoints (R342 to R347). -/
namespace Sys2Proof.Machine

/-- Heat states (R395). -/
inductive HeatPhase where
  /-- FREE -/
  | free
  /-- LOADING -/
  | loading
  /-- LOADED -/
  | loaded
  /-- RUNNING -/
  | running
  /-- STOPPED -/
  | stopped
deriving DecidableEq, Repr

/-- The live ends of a channel or feed ring (R46, R286). -/
structure Chan where
  /-- its entry -/
  def_ : ChanDef
  /-- slots a started producer command has taken and not published -/
  reserved : Nat
  /-- posts so far -/
  posted : Nat
  /-- slots consumer commands have taken -/
  taken : Nat
  /-- slots returned to the producer -/
  returned : Nat
  /-- posts and slots taken at the last GO, to which a false start goes back (R269) -/
  atGo : Nat × Nat
deriving DecidableEq, Repr

/-- The job a START gave (R266, R347, R399). -/
structure Job where
  /-- job seed -/
  seed : DWord
  /-- this module's id -/
  moduleId : Nat
  /-- module_count -/
  modules : Nat
  /-- it restores after restore_step -/
  restore : Option Nat
  /-- hurdle_first_s -/
  firstS : Nat
  /-- hurdle_mult -/
  mult : Nat
  /-- fs_limit -/
  fsLimit : Nat
  /-- pf_log2 -/
  pf : Nat
  /-- hurdle_floor_ms -/
  floorMs : Nat
  /-- store_addr -/
  storeAddr : Nat
  /-- store_qpn -/
  storeQpn : Nat
  /-- store_rkey -/
  storeRkey : Nat
  /-- store_base -/
  storeBase : Nat
  /-- store_stride, 0 for no shared-store layer -/
  storeStride : Nat
  /-- store_interval_s -/
  storeInterval : Nat
  /-- the START awaiting its reply: connection and seq (R399) -/
  startReq : Option (Nat × Nat)
deriving DecidableEq, Repr

/-- What a parent knows of one child (R262, R264, R265, R267). -/
structure Child where
  /-- module id -/
  id : Nat
  /-- its JOIN: the worst reason of its subtree -/
  joined : Option Nat
  /-- count of its last ARRIVE -/
  arrived : Option Nat
  /-- modules its last JOIN or ARRIVE accounts for -/
  mods : Nat
  /-- its subtree is held, by its last HOLD -/
  held : Bool
  /-- the count that HOLD named -/
  heldAt : Nat
deriving DecidableEq, Repr

/-- A REQUEST the root holds (R264). -/
structure Request where
  /-- count it names -/
  count : Nat
  /-- reason (R263) -/
  reason : Nat
  /-- status -/
  status : Nat
  /-- origin -/
  origin : Nat
deriving DecidableEq, Repr

/-- A hurdle unit (R259, R264 to R269). -/
structure Hurdle where
  /-- hurdle count h (R239) -/
  count : Nat
  /-- step number of the attempt count h ends (R261) -/
  step : Nat
  /-- replica index of this module (R59, R160) -/
  replica : Nat
  /-- own join reason once the FEED_REPLY has come (R267) -/
  feed : Option Nat
  /-- JOIN sent, or at the root its own side joined -/
  joined : Bool
  /-- arrived at count h (R259) -/
  arrived : Bool
  /-- ARRIVE sent for count h -/
  sentArrive : Bool
  /-- time ARRIVE was sent -/
  arriveAt : Option Nat
  /-- the missing DECIDE of count h is declared a hang (R268) -/
  hung : Bool
  /-- children -/
  children : List Child
  /-- held state last sent to the parent (R265) -/
  heldSent : Bool
  /-- time the subtree's present hold began -/
  heldSince : Option Nat
  /-- time held in this attempt, past holds (R265, R266) -/
  heldTime : Nat
  /-- held-too-long declarations in the present hold (R418) -/
  heldHangs : Nat
  /-- REQUESTs held at the root (R264) -/
  reqs : List Request
  /-- a STOP_REQ is held (R264) -/
  stopReq : Bool
  /-- window of this hurdle in ms (R266) -/
  windowMs : Nat
  /-- window_ms of the last DECIDE received (R268, R347) -/
  decideMs : Nat
  /-- window_ms of the DECIDE GO that began the step under way, and of the one that began the step before (R347) -/
  stepWin : Nat × Nat
  /-- photo-finish rate of the job (R266, R271) -/
  pf : Nat
  /-- time of the DECIDE that began this attempt -/
  decideAt : Nat
  /-- measured step times, newest first, at most 64 (R266) -/
  times : List Nat
  /-- intervals between GO DECIDEs received, newest first, at most 64 (R344) -/
  goGaps : List Nat
  /-- time of the last GO DECIDE received (R344) -/
  goAt : Option Nat
  /-- consecutive false starts of this step (R269) -/
  falseStarts : Nat
  /-- tags that mismatched in an attempt of this step (R272) -/
  mismatched : List Nat
  /-- a DECIDE GO acted on while the scheduler core was down, whose step records are owed (R337) -/
  owed : Bool
  /-- a GO whose step records wait for a checkpoint write (R346) -/
  goHeld : Bool
  /-- time that wait began -/
  goHeldAt : Nat
  /-- step of the last GO: the last completed step; none before the first -/
  lastGo : Option Nat
  /-- the module asked for a stop because it is orphaned (R394, R402) -/
  orphanStop : Bool
  /-- DECIDE payloads received while a dump froze the heat, or while an earlier GO waited to be carried out (R337, R346, R419) -/
  deferred : List Bytes
  /-- senders and ports of the blocks landed on checked tags and their twins: (parity * 4096 + tag, source, port) (R272) -/
  seen : List (Nat × Nat × Nat)
deriving DecidableEq, Repr

/-- A block of a SEND that awaits its acknowledgement (R237 to R239). -/
structure SentBlock where
  /-- physical cluster -/
  cl : Nat
  /-- its queue entry -/
  ord : Nat
  /-- destination -/
  dest : Nat
  /-- tag -/
  tag : Nat
  /-- BATON kind -/
  baton : Bool
  /-- epoch -/
  epoch : Nat
  /-- landing offset in granules -/
  off : Nat
  /-- granules -/
  units : Nat
deriving DecidableEq, Repr

/-- A block an ejecting port has decoded, or a loopback SEND delivered, that is not written yet (R238). -/
structure Ejected where
  /-- ejecting port; 32 for a loopback SEND -/
  port : Nat
  /-- source module -/
  src : Nat
  /-- tag -/
  tag : Nat
  /-- BATON kind -/
  baton : Bool
  /-- half (R218) -/
  half : Nat
  /-- epoch -/
  epoch : Nat
  /-- landing offset in granules -/
  off : Nat
  /-- raw bytes -/
  bytes : Bytes
deriving DecidableEq, Repr

/-- Acknowledgement entries that wait for their ACK flit (R238). -/
structure AckGroup where
  /-- destination module -/
  dest : Nat
  /-- 16-byte entries as numbers, oldest first, fewer than 15 -/
  entries : List Nat
  /-- time of the first entry -/
  since : Nat
deriving DecidableEq, Repr

/-- Where a part of a record stands (R287). -/
inductive PartPhase where
  /-- waiting for a unit of the share -/
  | waiting
  /-- on a media unit (R311); the unit is numbered as in R409, 22 for a tokenizer -/
  | onUnit (unit : Nat)
  /-- decoded and augmented: its part record, the address still to be added, and its bytes (R289) -/
  | done (rec_ : Nat) (bytes : Bytes)
deriving DecidableEq, Repr

/-- A picture of a video part's decode, in decode order from its start point (R314, R317). -/
structure PlanPic where
  /-- a selected picture needs it, directly or through references: it is decoded -/
  needed : Bool
  /-- selected output places it fills -/
  outs : List Nat
  /-- width -/
  w : Nat
  /-- height -/
  h : Nat
  /-- bit depth -/
  depth : Nat
  /-- how it is converted (R303) -/
  form : ColourForm
  /-- full range -/
  full : Bool
  /-- reference indices at which it is placed -/
  places : List Nat
  /-- reference indices the process removes -/
  drops : List Nat
deriving DecidableEq, Repr

/-- What a survey establishes of a video part, and what is left of its decode (R305, R314, R316). -/
structure VideoPlan where
  /-- F, the clean output pictures -/
  f : Nat
  /-- largest width -/
  w : Nat
  /-- largest height -/
  h : Nat
  /-- largest bit depth -/
  depth : Nat
  /-- R_max -/
  rmax : Nat
  /-- output places of the selected pictures, in output order -/
  sel : List Nat
  /-- pictures not reconstructed yet -/
  todo : List PlanPic
deriving DecidableEq, Repr

/-- A part of a record in the window (R281, R287). -/
structure PartSt where
  /-- codec (R282) -/
  codec : Nat
  /-- branch -/
  branch : Nat
  /-- offset in the record -/
  off : Nat
  /-- bytes -/
  len : Nat
  /-- progress -/
  phase : PartPhase
  /-- survey of a video part (R314, R316) -/
  survey : Option VideoPlan
  /-- selected pictures the augmentation units have read: output place and picture (R317) -/
  got : List (Nat × Picture)
  /-- unit on which a bitstream error occurred once (R327) -/
  badOn : Option Nat
  /-- units on which the part failed (R328) -/
  fails : List Nat
deriving DecidableEq, Repr

/-- Where a sample of the window stands (R283 to R287). -/
inductive SamplePhase where
  /-- its table entry is being read -/
  | entry
  /-- its record is being read, or waits for room -/
  | record
  /-- every byte of the record has arrived -/
  | landed
  /-- its parts are decoded -/
  | decoding
  /-- ready -/
  | ready
deriving DecidableEq, Repr

/-- A sample of the run-up window. -/
structure Sample where
  /-- sample index i -/
  idx : Nat
  /-- progress -/
  phase : SamplePhase
  /-- sample table entry (R280) -/
  entry : Nat
  /-- place of its record in the record region: ring offset and length (R284) -/
  record_ : Option (Nat × Nat)
  /-- its record's space is released (R284) -/
  recFree : Bool
  /-- place of its output in the sample region: ring offset and length (R284) -/
  outp : Option (Nat × Nat)
  /-- parts -/
  parts : List PartSt
  /-- rejection reason (R294) -/
  reject : Option Nat
  /-- failed record checks (R295) -/
  checkFails : Nat
  /-- posted in this attempt (R287) -/
  posted : Bool
deriving DecidableEq, Repr

/-- What an RDMA READ fetches (R275, R283). -/
inductive Fetch where
  /-- a sample table entry -/
  | entry (idx : Nat)
  /-- bytes of a record from this offset -/
  | record (idx off : Nat)
deriving DecidableEq, Repr

/-- An outstanding or waiting RDMA READ (R275). -/
structure Read where
  /-- what it fetches -/
  what : Fetch
  /-- remote address -/
  remote : Nat
  /-- rkey -/
  rkey : Nat
  /-- bytes, at most 1 MiB -/
  len : Nat
  /-- transport retries so far -/
  tries : Nat
  /-- held by a remote access NAK since this time (R275) -/
  nakAt : Option Nat
  /-- time it was last sent; none while it waits for one of the 16 places -/
  sentAt : Option Nat
  /-- its packet sequence number (R274) -/
  psn : Nat
  /-- answers lost to an ICRC failure (R275, R331) -/
  lost : Nat
deriving DecidableEq, Repr

/-- A queue pair of a feed port to a storage server (R274 to R276). -/
structure Qp where
  /-- feed port -/
  port : Nat
  /-- server -/
  server : Nat
  /-- error state -/
  err : Bool
  /-- reads, oldest first, at most 16 of them sent -/
  reads : List Read
  /-- request rate in 65,536ths of the port rate (R276) -/
  rate : Nat
  /-- time of the last CNP returned (R276) -/
  cnpOut : Option Nat
  /-- time of the last CNP received or of the last rise (R276) -/
  cnpIn : Option Nat
  /-- packet sequence number of the next request (R274) -/
  psn : Nat
  /-- packet sequence number the server starts its own requests at (R278) -/
  rpsn : Nat
deriving DecidableEq, Repr

/-- The sample pipeline of a heat. -/
structure Pipeline where
  /-- step whose samples are the current step's -/
  step : Nat
  /-- next sample index to fetch -/
  next : Nat
  /-- samples of the window, in index order -/
  samples : List Sample
  /-- queue pairs that have been used or are in error -/
  qps : List Qp
  /-- record ring: offset of the next allocation (R284) -/
  recHead : Nat
  /-- sample ring: offset of the next allocation (R284) -/
  outHead : Nat
  /-- posting is under way for the current attempt (R287) -/
  posting : Bool
  /-- samples posted in this attempt, in order, with the index each feed channel has reached (R287) -/
  order : List Nat
  /-- positions of the feed channels in that order -/
  sent : List Nat
deriving DecidableEq, Repr

/-- A half of the partner region (R342). -/
structure Half where
  /-- its header is valid -/
  valid : Bool
  /-- step -/
  step : Nat
  /-- step of the GO whose hashing is under way -/
  hashing : Option Nat
deriving DecidableEq, Repr

/-- A checkpoint write under way (R345, R347). -/
structure Writing where
  /-- step -/
  step : Nat
  /-- slot, or generation -/
  slot : Nat
  /-- time it began -/
  since : Nat
deriving DecidableEq, Repr

/-- Checkpoint state of a heat (R342 to R347). -/
structure Ckpt where
  /-- halves of the partner region -/
  halves : Vector Half 2
  /-- sender digests kept by the scheduler core: (step, digest) (R342) -/
  digests : List (Nat × Bytes)
  /-- steps whose own payload is being hashed (R342) -/
  hashing : List Nat
  /-- local flash write under way -/
  flash : Option Writing
  /-- shared-store write under way -/
  store : Option Writing
  /-- duration of the last local flash write; 1 s before the first (R344) -/
  lastW : Nat
  /-- local flash interval K (R344) -/
  k : Nat
  /-- steps CHECKPOINT_NOW named: (step, flash, store) (R400) -/
  extra : List (Nat × Bool × Bool)
  /-- shared-store generations this module has written: (generation, step) (R347) -/
  gens : List (Nat × Nat)
  /-- seed of the job and module id of the state the sender digests stand for (R348) -/
  saved : DWord × Nat
  /-- packet sequence numbers of the next WRITE on the shared-store queue pair of each feed port (R274, R347) -/
  storePsn : Nat × Nat
deriving DecidableEq, Repr

/-- The record of the KV pools at a hurdle: page descriptors, page tables and region lengths, as saved byte ranges (R178). -/
abbrev KvRecord := List (Nat × Bytes)

/-- One heat. -/
structure Heat where
  /-- state (R395) -/
  phase : HeatPhase
  /-- admission record (R396) -/
  adm : Nat
  /-- its cluster blocks, position blocks and port blocks as masks (R30) -/
  blocks : Nat × Nat × Nat
  /-- hurdle unit it took (R259) -/
  unit : Nat
  /-- media units of its share: pairs, image engines, audio contexts by engine, encoders, as unit numbers (R311, R397) -/
  media : List Nat
  /-- scratch ways s_h (R20) -/
  ways : Nat
  /-- image bytes received so far (R396) -/
  chunks : Bytes
  /-- chunks replace the image of a LOADING heat until validated -/
  image : Option Program
  /-- last status (R402) -/
  status : Nat
  /-- memory range, by heat-relative address (R32) -/
  mem : Mem
  /-- poisoned granules, by heat-relative address divided by 32 (R204) -/
  poison : List Nat
  /-- scratch, by offset in the scratch window (R20) -/
  scratch : Mem
  /-- the heat's share of the staging buffer (R24) -/
  staging : Mem
  /-- tokenizer tables (R24, R308) -/
  tok : Mem
  /-- retired channels in order of retirement, at most 16 (R203) -/
  retired : List Nat
  /-- job -/
  job : Option Job
  /-- the commands of its clusters run: between a GO or false start and the next STOP -/
  live : Bool
  /-- channels, then feed rings -/
  chans : List Chan
  /-- pairs whose FOLD section is in effect: (retired, survivor) as logical clusters (R335) -/
  folds : List (Nat × Nat)
  /-- hurdle unit -/
  hu : Hurdle
  /-- arrival counts: ((die, parity, tag) as die * 8192 + parity * 4096 + tag, bytes), no zero entry (R239) -/
  arrivals : List (Nat × Nat)
  /-- blocks sent and not acknowledged -/
  sent : List SentBlock
  /-- decoded blocks not yet written -/
  ejected : List Ejected
  /-- acknowledgements waiting -/
  acks : List AckGroup
  /-- record of the KV pools at the last hurdle (R178) -/
  kv : KvRecord
  /-- sample pipeline -/
  pipe : Pipeline
  /-- checkpoints -/
  ck : Ckpt
deriving DecidableEq, Repr

/-- A hurdle unit at rest. -/
def Hurdle.reset : Hurdle :=
  { count := 0, step := 0, replica := 0, feed := none, joined := false, arrived := false, sentArrive := false, arriveAt := none,
    hung := false, children := [], heldSent := false, heldSince := none, heldTime := 0, heldHangs := 0, reqs := [],
    stopReq := false, windowMs := 0, decideMs := 0, stepWin := (0, 0), pf := 31, decideAt := 0, times := [], goGaps := [], goAt := none,
    falseStarts := 0, mismatched := [], owed := false, goHeld := false, goHeldAt := 0, lastGo := none, orphanStop := false, deferred := [], seen := [] }
/-- A sample pipeline at rest. -/
def Pipeline.reset : Pipeline :=
  { step := 0, next := 0, samples := [], qps := [], recHead := 0, outHead := 0, posting := false, order := [], sent := [] }
/-- Checkpoint state before the first step: w is 1 s, K is 1 until START computes it (R344). -/
def Ckpt.reset : Ckpt :=
  { halves := Vector.replicate 2 ⟨false, 0, none⟩, digests := [], hashing := [], flash := none, store := none,
    lastW := 10000000000, k := 1, extra := [], gens := [], saved := (0, 0), storePsn := (0, 0) }
/-- A FREE heat (R395). -/
def Heat.reset : Heat :=
  { phase := .free, adm := 0, blocks := (0, 0, 0), unit := 0, media := [], ways := 0, chunks := [], image := none, status := 0,
    mem := [], poison := [], scratch := [], staging := [], tok := [], retired := [], job := none, live := false, chans := [],
    folds := [], hu := Hurdle.reset, arrivals := [], sent := [], ejected := [], acks := [], kv := [], pipe := Pipeline.reset,
    ck := Ckpt.reset }

end Sys2Proof.Machine
end

