-- ==== Sys2Proof/Machine/ModuleState.lean ====
section
/-! DEFINITION. The state of the module outside clusters, ports and heats: management sessions and reports (R385 to R393), firmware
cores (R337, R382), configuration (R373 to R378), memory channels (R185 to R204), media units (R311 to R329), feed ports (R273 to
R276), NVMe drives (R332, R345), life log (R413 to R417), dumps (R419 to R421), power (R352 to R369), SMBus and JTAG (R435 to R437). -/
namespace Sys2Proof.Machine

/-- The headers of a RoCEv2 packet the module sends (R273, R274, R277, R278). -/
structure RoceHdr where
  /-- feed port -/
  port : Nat
  /-- destination MAC: the gateway's -/
  dstMac : Nat
  /-- source MAC: the port's own -/
  srcMac : Nat
  /-- VLAN id; 0 for untagged -/
  vlan : Nat
  /-- source address, IPv4 as a mapped IPv6 address -/
  srcIp : Nat
  /-- destination address, likewise -/
  dstIp : Nat
  /-- traffic class byte with its ECN bits -/
  tclass : Nat
  /-- UDP destination port -/
  udp : Nat
  /-- local QPN -/
  lqpn : Nat
  /-- remote QPN -/
  rqpn : Nat
  /-- packet sequence number -/
  psn : Nat
deriving DecidableEq, Repr

/-- What leaves the module. -/
inductive OutItem where
  /-- a flit on a lane of a fabric port (R218, R221) -/
  | flit (port lane : Nat) (bytes : Bytes)
  /-- the 200-byte header of a lane frame of a fabric port (R217) -/
  | frame (port lane : Nat) (hdr : Bytes)
  /-- a management message: header and body, and its 32-byte tag (R386) -/
  | mgmt (conn : Nat) (hdr body tag : Bytes)
  /-- a TCP connection refused with a reset (R385) -/
  | tcpReset (conn : Nat)
  /-- a TCP connection closed (R390) -/
  | tcpClose (conn : Nat)
  /-- an RDMA READ request: remote address, rkey, bytes, ICRC (R273, R274) -/
  | rdmaRead (hdr : RoceHdr) (remote rkey len icrc : Nat)
  /-- an RDMA WRITE: remote address, rkey, data, ICRC (R273, R347) -/
  | rdmaWrite (hdr : RoceHdr) (remote rkey : Nat) (data : Bytes) (icrc : Nat)
  /-- a CNP for a queue pair, with its ICRC (R276) -/
  | cnp (hdr : RoceHdr) (icrc : Nat)
  /-- an ARP reply for an address of the port (R274) -/
  | arpReply (port : Nat) (addr mac : Bytes)
  /-- a neighbour advertisement for an address of the port (R274) -/
  | neighbourAdvert (port : Nat) (addr mac : Bytes)
  /-- an SMBus word or byte read (R435) -/
  | smbus (value : Nat)
  /-- bits shifted out of TDO (R437) -/
  | tdo (bits : List Bool)
deriving DecidableEq, Repr

/-- Session states (R390). -/
inductive SessionPhase where
  /-- LISTEN -/
  | listen
  /-- CHALLENGED -/
  | challenged
  /-- ATTACHED -/
  | attached
deriving DecidableEq, Repr

/-- A management session, one for each TCP connection (R385, R390). -/
structure Session where
  /-- TCP connection -/
  conn : Nat
  /-- state -/
  phase : SessionPhase
  /-- time the state was entered -/
  since : Nat
  /-- operator key record index; 0xFFFF_FFFF for the owner key -/
  key : Nat
  /-- rights: observe, operate, maintain in bits 0 to 2 (R378) -/
  rights : Nat
  /-- first_report (R388) -/
  firstReport : Nat
  /-- t1 of the exchange (R388) -/
  t1 : Bytes
  /-- stamp of the module nonce and encapsulation key -/
  stamp : Nat
  /-- client-to-module and module-to-client keys (R389) -/
  keys : Bytes × Bytes
  /-- seq expected next from the client (R389) -/
  rxSeq : Nat
  /-- seq of the next message to the client (R389) -/
  txSeq : Nat
  /-- time of the last valid client message; the lease runs from it (R391) -/
  lease : Nat
  /-- replies formed that wait for an earlier one: (seq of the request, status and body once ready) (R387) -/
  replies : List (Nat × Nat × Option (Nat × Bytes))
  /-- DETACH is served: the session closes after its last reply (R400) -/
  closing : Bool
deriving DecidableEq, Repr

/-- Management port and message engine. -/
structure Mgmt where
  /-- the port's link is up (R370) -/
  link : Bool
  /-- sessions in the order their connections were accepted -/
  sessions : List Session
  /-- telemetry ring: report bodies, oldest first (R393) -/
  reports : List Bytes
  /-- report_seq of the next report -/
  nextReport : Nat
  /-- reports overwritten -/
  dropped : Nat
  /-- start of the orphaned period (R394) -/
  orphanSince : Option Nat
  /-- requests queued while the scheduler core restarts, at most 16 a session, in order of arrival (R391, R392) -/
  queue : List Instr
deriving DecidableEq, Repr

/-- Module states (R402). -/
inductive ModuleState where
  /-- BOOT -/
  | boot
  /-- AWAIT_FW -/
  | awaitFw
  /-- READY -/
  | ready
  /-- RECOVERY -/
  | recovery
  /-- HALTED -/
  | halted
deriving DecidableEq, Repr

/-- A central firmware core (R337, R338). -/
inductive CoreState where
  /-- in reset or stopped -/
  | off
  /-- running -/
  | up
  /-- crashed and being restarted -/
  | restarting
  /-- down until the module is reset -/
  | dead
deriving DecidableEq, Repr

/-- Firmware, boot and configuration (R370 to R384). -/
structure Boot where
  /-- module state -/
  state : ModuleState
  /-- straps latched (R433) -/
  straps : Option Straps
  /-- the straps never agreed (R433) -/
  strapFail : Bool
  /-- the single flash read has completed (R373) -/
  flashRead : Bool
  /-- configuration flash, each byte XOR 0xFF so that an erased byte is zero (R373) -/
  flash : Mem
  /-- running configuration image, bytes 0 to 1,343; none in recovery (R374) -/
  config : Option Bytes
  /-- slot in use: 0 A, 1 B, 0xFF recovery (R402) -/
  slot : Nat
  /-- bundle bytes received so far, and the connection that sends them (R396) -/
  fwChunks : Bytes
  /-- fw_version, 0 before LOAD_FW -/
  fwVersion : Nat
  /-- bundle_digest -/
  fwDigest : Bytes
  /-- regions of the security, scheduler and power cores (R383, R384) -/
  fw : Vector FwMem 3
  /-- security core -/
  security : CoreState
  /-- failed restarts of the security core in succession (R338) -/
  secFails : Nat
  /-- scheduler core -/
  scheduler : CoreState
  /-- power core -/
  power : CoreState
  /-- READY has been reported -/
  readySent : Bool
  /-- time of the last chunk of the bundle in use (R370) -/
  loadedAt : Nat
  /-- time the scheduler core last went down (R391) -/
  schedAt : Nat
  /-- order code: 1 ZN4-L128, 2 ZN4-L64, 3 ZN4-G48 (R4, R402) -/
  order : Nat
deriving DecidableEq, Repr

/-- One memory channel (R188, R196, R202 to R204). -/
structure MemChan where
  /-- trained and zero-filled -/
  up : Bool
  /-- training failures in succession -/
  attempts : Nat
  /-- retired -/
  retired : Bool
  /-- declared permanently faulty while its retirement was refused (R202) -/
  failed : Bool
  /-- times of the retries charged (R196) -/
  retries : List Nat
  /-- failed retries by granule of the channel: 8 times its line offset, plus its number in the line (R190, R196) -/
  granFails : List (Nat × Nat)
  /-- migration of its lines is under way (R204) -/
  moving : Bool
  /-- lines moved so far, the move pointer (R204) -/
  pointer : Nat
  /-- on-die corrected-error count last read (R194) -/
  onDie : Nat
  /-- SERVICE tokens of its position, in 30,000ths of a byte, and the time they were counted, kept at the position's first channel (R198) -/
  service : Nat × Nat
  /-- REPAIR tokens, as SERVICE (R198) -/
  repair : Nat × Nat
deriving DecidableEq, Repr

/-- The picture a pool slot holds: its extents and bit depth, how it is converted, and the selected output places it fills (R303, R305,
R317). -/
structure SlotPic where
  /-- width -/
  w : Nat
  /-- height -/
  h : Nat
  /-- bit depth -/
  depth : Nat
  /-- full range -/
  full : Bool
  /-- colour form -/
  form : ColourForm
  /-- selected output places -/
  outs : List Nat
deriving DecidableEq, Repr

/-- A slot of a video pair's reference pool (R317). -/
structure PoolSlot where
  /-- CUR mark -/
  cur : Bool
  /-- REF bits -/
  refs : List Nat
  /-- OUT mark -/
  out_ : Bool
  /-- the picture it holds -/
  pic : Option SlotPic
deriving DecidableEq, Repr

/-- One media unit, numbered as in R409 group 0x06. -/
structure MediaUnit where
  /-- retired (R328) -/
  retired : Bool
  /-- times of the retries charged (R328) -/
  retries : List Nat
  /-- pool slots of a video pair, set at the survey (R316, R317) -/
  slots : List PoolSlot
  /-- picture under reconstruction: its slot -/
  current : Option Nat
  /-- bitstream-residual buffer of a video pair (R24, R313): the stamp that names its opaque content; none where it is empty -/
  residual : Option Nat
deriving DecidableEq, Repr

/-- One feed port (R273 to R276). -/
structure FeedPort where
  /-- link up -/
  up : Bool
  /-- retired (R275) -/
  retired : Bool
  /-- time the link went down -/
  downSince : Option Nat
  /-- times of the retries charged to the port itself (R275) -/
  retries : List Nat
deriving DecidableEq, Repr

/-- Slot state of a local flash slot table entry (R345). -/
inductive FlashState where
  /-- EMPTY -/
  | empty
  /-- WRITING -/
  | writing
  /-- VALID -/
  | valid
deriving DecidableEq, Repr

/-- One local flash slot: its table entry and the piece it holds (R345). -/
structure FlashSlot where
  /-- step -/
  step : Nat
  /-- state -/
  state : FlashState
  /-- level -/
  level : Nat
  /-- digest -/
  digest : Bytes
  /-- the piece: header and payload (R340) -/
  piece : Bytes
  /-- drives it is striped over, as a mask (R332, R345) -/
  on : Nat
  /-- start_lba on each drive (R345) -/
  startLba : Nat
  /-- LBAs it takes on each drive (DESIGN CHOICE, log 80) -/
  lbas : Nat
  /-- heat whose share of the drives it is in (DESIGN CHOICE, log 80) -/
  heat : Nat
deriving DecidableEq, Repr

/-- An EMPTY slot. -/
def FlashSlot.none : FlashSlot := ⟨0, .empty, 0, [], [], 0, 0, 0, 0⟩

/-- One NVMe drive. -/
structure Drive where
  /-- ready (R370) -/
  ready : Bool
  /-- retired (R332) -/
  retired : Bool
  /-- times of the retries charged (R331) -/
  retries : List Nat
  /-- failures of the command in hand (R331) -/
  fails : Nat
deriving DecidableEq, Repr

/-- The rows of R418: why a hang is declared. -/
inductive HangCause where
  /-- intra-cluster deadlock -/
  | deadlock (c : Fin 64)
  /-- a unit completes no handshake for 1 s -/
  | progress (u : HangUnit)
  /-- no DECIDE within twice the window -/
  | noDecide
  /-- a subtree held too long -/
  | held
deriving DecidableEq, Repr

/-- What a dump shows (R419, R422): the header's fields and the units of the heat as they stood when it began. -/
structure DumpView where
  /-- heat -/
  heat : Nat
  /-- cause, and the unit that detected it -/
  cause : HangCause
  /-- step -/
  step : Nat
  /-- hurdle count -/
  count : Nat
  /-- image_digest -/
  digest : Bytes
  /-- fw_version -/
  fwVersion : Nat
  /-- module time at the freeze -/
  at_ : Nat
  /-- its clusters, by number: registers, memories, queues, accumulators, pacing, splits -/
  clusters : List (Nat × Cluster)
  /-- its ports, by number: replay and receive buffers, credits, tables, sub-streams, lanes -/
  ports : List (Nat × Port)
  /-- channel post and take counts -/
  chans : List Chan
  /-- hurdle unit -/
  hu : Hurdle
  /-- sample pipeline -/
  pipe : Pipeline
  /-- the heat's share of the staging buffer -/
  staging : Mem
  /-- its media units, by number: residual buffers, slot marks -/
  media : List (Nat × MediaUnit)
  /-- the memory channels of its positions, by number: retirement, move pointers -/
  mem : List (Nat × MemChan)
deriving DecidableEq, Repr


/-- A dump slot (R421). -/
structure Dump where
  /-- slot: 0 to 3, or 0xFF without drives -/
  slot : Nat
  /-- dump seq -/
  seq : Nat
  /-- stamp that names its bytes -/
  stamp : Nat
  /-- bytes of the whole dump -/
  total : Nat
  /-- bytes kept -/
  len : Nat
  /-- what it shows -/
  view : DumpView
deriving DecidableEq, Repr

/-- Storage on the module: drives, flash slots, life log, dumps. -/
structure Storage where
  /-- NVMe drives -/
  drives : Vector Drive 2
  /-- the 16 local flash slots, their table the same on both drives (R345) -/
  slots : List FlashSlot
  /-- seq of the next life log summary (R414) -/
  logSeq : Nat
  /-- next summary sector (R413) -/
  logSector : Nat
  /-- next journal record (R413) -/
  logRecord : Nat
  /-- journal records that wait while the security core is down (R417) -/
  logWait : List Nat
  /-- boots since manufacture (R414) -/
  boots : Nat
  /-- power_on_s of earlier boots; this boot's seconds come from the module time (R414) -/
  onBefore : Nat
  /-- thermal trips (R414) -/
  trips : Nat
  /-- input faults (R414) -/
  faults : Nat
  /-- lifetime counts, 32 of them (R414) -/
  life : List Nat
  /-- lifetime histograms: 8 of 16 bins and a flag (R415) -/
  hists : List (List Nat)
  /-- rates at first boot and latest (R414) -/
  rates : List Nat × List Nat
  /-- ever-retired bits (R414) -/
  everRetired : List Nat
  /-- power_on_s of the journal's RETIRED records (R344, R417) -/
  retiredAt : List Nat
  /-- power_on_s of the last periodic summary (R417) -/
  summaryAt : Nat
  /-- seconds of this boot that the histograms hold (R415) -/
  histAt : Nat
  /-- 1 ms averages of input power since that second: their sum and their number (R415) -/
  watts : Nat × Nat
  /-- layer 2 corrections and fabric replays of this boot up to the last full hour (R415) -/
  hourBase : Nat × Nat
  /-- times of transient retries in the last 24 h (R344) -/
  transients : List Nat
  /-- dump under way: what it shows, taken when it began (R419) -/
  dumping : Option DumpView
  /-- dumps kept -/
  dumps : List Dump
  /-- seq of the next dump -/
  dumpSeq : Nat
deriving DecidableEq, Repr

/-- Power input, rails, envelope (R352 to R369, R429, R434). -/
structure Power where
  /-- standby rail live (R352) -/
  standby : Bool
  /-- PWR_EN as debounced (R353) -/
  pwrEn : Bool
  /-- rail steps in regulation, 0 to 8; 8 is every rail (R353) -/
  rail : Nat
  /-- a power-up sequence is under way -/
  rising : Bool
  /-- PWR_GOOD -/
  good : Bool
  /-- rail step that failed; 0 for none (R435) -/
  railFail : Nat
  /-- brown-out cap (R355) -/
  brownOut : Bool
  /-- input fault latched (R355) -/
  inputFault : Bool
  /-- hot-swap switch opened (R355) -/
  switchOpen : Bool
  /-- thermal trip latched (R368) -/
  tripped : Bool
  /-- PWR_EN must go low before power-up (R353, R368) -/
  needCycle : Bool
  /-- clock-loss flag and the time it was set (R429) -/
  clockLost : Option Nat
  /-- input voltage, mV (R435) -/
  vin : Nat
  /-- input power, 1 ms average, W (R435) -/
  pin : Nat
  /-- times of the last 1 ms average, shedding round, hardware-limit evaluation and sensor reading (R364 to R368) -/
  polls : Nat × Nat × Nat × Nat
  /-- input energy not yet counted as a millijoule, in microjoules (R409) -/
  energyUj : Nat
  /-- board sensor, quarter degrees (R435) -/
  tBoard : Int
  /-- feed-die sensors, quarter degrees (R368) -/
  feedTemp : List Int
  /-- a measurement has been made since the standby rail rose (R435) -/
  measured : Bool
  /-- ALERT_CAUSE bits (R436) -/
  alert : Nat
  /-- matrix-feed pause in eighths (R366) -/
  pause : Nat
  /-- time of the last change of the pause (R366) -/
  pauseAt : Nat
  /-- hardware floor acting (R367) -/
  floor : Bool
  /-- the average is above the limit, since its last evaluation (R365) -/
  overLim : Bool
  /-- cap on every setpoint in mV: 750 once shedding has begun, raised by restoring; 850 for none (R365) -/
  capMv : Nat
  /-- time since when the average has stayed 100 W below the limit (R365) -/
  underSince : Option Nat
  /-- time the input was last found outside the operating range; none once it has stayed inside for 10 ms (R353) -/
  vinBad : Option Nat
deriving DecidableEq, Repr

/-- JTAG TAP (R437). -/
structure JtagTap where
  /-- instruction register: 0 BYPASS, 1 SAMPLE/PRELOAD, 2 EXTEST, 3 IDCODE, 4 HIGHZ, 5 CLAMP -/
  ir : Nat
  /-- bypass register -/
  bypass : Bool
  /-- boundary cells of the sideband contacts -/
  cells : List Bool
deriving DecidableEq, Repr

/-- The module-wide parts of the state. -/
structure Common where
  /-- management -/
  mgmt : Mgmt
  /-- boot, firmware, configuration -/
  boot : Boot
  /-- memory channels 0 to 95 (R409) -/
  chans : Vector MemChan 96
  /-- lines the shared cache holds: (heat * 2^40 + heat-relative line, 1 clean or 2 dirty), by rising key (R19, R191) -/
  cache : List (Nat × Nat)
  /-- media units 0 to 21 (R409) -/
  media : Vector MediaUnit 22
  /-- feed ports -/
  feed : Vector FeedPort 2
  /-- storage -/
  store : Storage
  /-- power -/
  pw : Power
  /-- JTAG -/
  tap : JtagTap
  /-- time of the last poll of the on-die error counts (R194) -/
  eccAt : Nat
  /-- time of the last periodic DQS tracking (R188) -/
  dqsAt : Nat
  /-- counters of R409: ((bin << 32) | id, value); an ERROR at 2^32 shows overflow; bin 17 is a HIST's flag -/
  ctrs : List (Nat × Nat)
deriving DecidableEq, Repr

/-- Management at PWR_GOOD. -/
def Mgmt.reset : Mgmt := { link := false, sessions := [], reports := [], nextReport := 0, dropped := 0, orphanSince := none, queue := [] }
/-- Boot state at PWR_GOOD: security core in its boot ROM, power core in its ROM (R370); flash erased (R438); order code
ZN4-L128 (DESIGN CHOICE, log 6). -/
def Boot.reset : Boot :=
  { state := .boot, straps := none, strapFail := false, flashRead := false, flash := [], config := none, slot := 0xFF, fwChunks := [],
    fwVersion := 0, fwDigest := List.replicate 32 0, fw := Vector.replicate 3 FwMem.reset, security := .off, secFails := 0, scheduler := .off, power := .off,
    readySent := false, loadedAt := 0, schedAt := 0, order := 1 }
/-- A memory channel before training; full buckets are set at admission. -/
def MemChan.reset : MemChan :=
  { up := false, attempts := 0, retired := false, failed := false, retries := [], granFails := [], moving := false, pointer := 0, onDie := 0,
    service := (0, 0), repair := (0, 0) }
/-- A media unit at PWR_GOOD. -/
def MediaUnit.reset : MediaUnit := { retired := false, retries := [], slots := [], current := none, residual := none }
/-- A feed port before its link comes up. -/
def FeedPort.reset : FeedPort := { up := false, retired := false, downSince := none, retries := [] }
/-- A drive before it is ready. -/
def Drive.reset : Drive := { ready := false, retired := false, retries := [], fails := 0 }
/-- Storage as the module ships: no slot in use, no life log written (R438; DESIGN CHOICE, log 7). -/
def Storage.reset : Storage :=
  { drives := Vector.replicate 2 Drive.reset, slots := List.replicate 16 FlashSlot.none, logSeq := 0, logSector := 0, logRecord := 0, logWait := [], boots := 0,
    onBefore := 0, trips := 0, faults := 0, life := List.replicate 32 0, hists := List.replicate 8 (List.replicate 17 0),
    rates := ([], []), everRetired := [], retiredAt := [], summaryAt := 0, histAt := 0, watts := (0, 0), hourBase := (0, 0), transients := [], dumping := none, dumps := [], dumpSeq := 0 }
/-- Power before the input rises: no rail, nothing measured, nothing latched (R434, R435). -/
def Power.reset : Power :=
  { standby := false, pwrEn := false, rail := 0, rising := false, good := false, railFail := 0, brownOut := false,
    inputFault := false, switchOpen := false, tripped := false, needCycle := false, clockLost := none, vin := 0, pin := 0, polls := (0, 0, 0, 0), energyUj := 0,
    tBoard := 0, feedTemp := [], measured := false, alert := 0, pause := 0, pauseAt := 0, floor := false, overLim := false, capMv := 850,
    underSince := none, vinBad := none }
/-- The TAP in its reset: IDCODE loaded, as IEEE 1149.1 has it (PRESUMED, log 8); pins functional. -/
def JtagTap.reset : JtagTap := { ir := 3, bypass := false, cells := [] }
/-- The module-wide state before the input rises. -/
def Common.reset : Common :=
  { mgmt := Mgmt.reset, boot := Boot.reset, chans := Vector.replicate 96 MemChan.reset, cache := [], media := Vector.replicate 22 MediaUnit.reset,
    feed := Vector.replicate 2 FeedPort.reset, store := Storage.reset, pw := Power.reset, tap := JtagTap.reset, eccAt := 0, dqsAt := 0, ctrs := [] }

end Sys2Proof.Machine
end

