-- ==== Sys2Proof/Machine/State.lean ====
section
/-! DEFINITION. The state of the module, the reasons a step can stop, and the state after reset. -/
namespace Sys2Proof.Machine

/-- Why a step faults. -/
inductive Fault where
  /-- a command whose operand is not of the size its row requires, as `Instr.wf` says; raised by the flit, message, frame and
  granule rows; safe: no such command exists -/
  | illFormed
deriving DecidableEq, Repr

/-- Why a step is refused. -/
inductive Refusal where
  /-- a command without a meaning; raised by the dispatcher alone; safe -/
  | notModelled (mnemonic : String)
deriving DecidableEq, Repr

/-- The module. -/
structure State where
  /-- module time in 0.1 ns since PWR_GOOD; a tick of 6.4 ns is 64 (R406) -/
  now : Nat
  /-- clusters 0 to 63 (R14) -/
  clusters : Vector Cluster 64
  /-- fabric ports 0 to 31 (R14, R214) -/
  ports : Vector Port 32
  /-- heats 0 to 3 (R30) -/
  heats : Vector Heat 4
  /-- everything module-wide -/
  com : Common
  /-- uses of free values so far: the model's own field (DESIGN CHOICE, log 2) -/
  free : Nat
  /-- what has left the module, oldest first -/
  out : List OutItem
  /-- commands waiting, oldest first -/
  pending : List Instr
deriving DecidableEq, Repr

/-- The answer of a meaning. -/
abbrev Result := Host.Outcome State Fault Refusal

/-- The module before its 52 V input rises (DESIGN CHOICE, log 1): no rail, every register at the value its own reset definition
names. -/
def State.reset : State :=
  { now := 0, clusters := Vector.replicate 64 Cluster.reset, ports := Vector.replicate 32 Port.reset,
    heats := Vector.replicate 4 Heat.reset, com := Common.reset, free := 0, out := [], pending := [] }

end Sys2Proof.Machine
end

