-- ==== Sys2Proof/Machine/Ops.lean ====
section
/-! DEFINITION. The operations every family shares: access to clusters, ports and heats, sparse counts, counters (R407, R409),
what leaves the module, messages and reports (R386, R393), alerts (R436), the life log (R413 to R417), retirement (R331), the
configuration in force (R376) and the address map of a heat (R20, R32, R202, R398). -/
namespace Sys2Proof.Machine

/-! Access to the parts. -/

/-- A cluster. -/
def State.cl (s : State) (c : Fin 64) : Cluster := s.clusters[c]
/-- Replace a cluster. -/
def State.setCl (s : State) (c : Fin 64) (k : Cluster) : State := { s with clusters := s.clusters.set c k }
/-- Change a cluster. -/
def State.modCl (s : State) (c : Fin 64) (f : Cluster → Cluster) : State := s.setCl c (f (s.cl c))
/-- A port. -/
def State.port (s : State) (p : Fin 32) : Port := s.ports[p]
/-- Replace a port. -/
def State.setPort (s : State) (p : Fin 32) (k : Port) : State := { s with ports := s.ports.set p k }
/-- Change a port. -/
def State.modPort (s : State) (p : Fin 32) (f : Port → Port) : State := s.setPort p (f (s.port p))
/-- A heat. -/
def State.heat (s : State) (h : Fin 4) : Heat := s.heats[h]
/-- Replace a heat. -/
def State.setHeat (s : State) (h : Fin 4) (k : Heat) : State := { s with heats := s.heats.set h k }
/-- Change a heat. -/
def State.modHeat (s : State) (h : Fin 4) (f : Heat → Heat) : State := s.setHeat h (f (s.heat h))
/-- Change a heat's hurdle unit. -/
def State.modHu (s : State) (h : Fin 4) (f : Hurdle → Hurdle) : State := s.modHeat h (fun t => { t with hu := f t.hu })
/-- Change the module-wide part. -/
def State.modCom (s : State) (f : Common → Common) : State := { s with com := f s.com }
/-- Change the management part. -/
def State.modMgmt (s : State) (f : Mgmt → Mgmt) : State := s.modCom (fun k => { k with mgmt := f k.mgmt })
/-- Change the boot part. -/
def State.modBoot (s : State) (f : Boot → Boot) : State := s.modCom (fun k => { k with boot := f k.boot })
/-- Change the power part. -/
def State.modPw (s : State) (f : Power → Power) : State := s.modCom (fun k => { k with pw := f k.pw })
/-- Change the storage part. -/
def State.modStore (s : State) (f : Storage → Storage) : State := s.modCom (fun k => { k with store := f k.store })
/-- Change a memory channel. -/
def State.modChan (s : State) (c : Fin 96) (f : MemChan → MemChan) : State :=
  s.modCom (fun k => { k with chans := k.chans.set c (f k.chans[c]) })
/-- Change a media unit. -/
def State.modMedia (s : State) (u : Fin 22) (f : MediaUnit → MediaUnit) : State :=
  s.modCom (fun k => { k with media := k.media.set u (f k.media[u]) })
/-- Change a feed port. -/
def State.modFeed (s : State) (p : Fin 2) (f : FeedPort → FeedPort) : State :=
  s.modCom (fun k => { k with feed := k.feed.set p (f k.feed[p]) })
/-- Change a drive. -/
def State.modDrive (s : State) (d : Fin 2) (f : Drive → Drive) : State :=
  s.modStore (fun k => { k with drives := k.drives.set d (f k.drives[d]) })
/-- Advance the counter of free values. -/
def State.useFree (s : State) : State := { s with free := s.free + 1 }
/-- Send something out of the module. -/
def State.emit (s : State) (o : OutItem) : State := { s with out := s.out ++ [o] }
/-- Module time in ticks of 6.4 ns (R406). -/
def State.ticks (s : State) : Nat := s.now / 64
/-- Module time in microseconds (R393). -/
def State.micros (s : State) : Nat := s.now / 10000
/-- One second, in units of 0.1 ns. -/
def second : Nat := 10000000000
/-- One millisecond. -/
def milli : Nat := 10000000
/-- One microsecond. -/
def micro : Nat := 10000

/-! Sparse counts: sorted by key, no zero entry. -/

/-- The count at a key. -/
def amGet (m : List (Nat × Nat)) (k : Nat) : Nat := (m.lookup k).getD 0
/-- Set the count at a key. -/
def amPut : List (Nat × Nat) → Nat → Nat → List (Nat × Nat)
  | [], k, v => if v = 0 then [] else [(k, v)]
  | e :: m, k, v =>
    if k < e.1 then (if v = 0 then e :: m else (k, v) :: e :: m)
    else if k = e.1 then (if v = 0 then m else (k, v) :: m)
    else e :: amPut m k v

/-! Counters (R407, R409). -/

/-- The four kinds of counter. -/
inductive CtrKind where
  /-- EVENT -/
  | event
  /-- ERROR -/
  | error
  /-- HIST -/
  | hist
  /-- LEVEL -/
  | level
  /-- reserved index -/
  | none
deriving DecidableEq, Repr

/-- The kinds of a group's indices, index 0 first (R409). -/
def ctrKinds (group : Nat) : List CtrKind :=
  let e := CtrKind.event
  let r := CtrKind.error
  let l := CtrKind.level
  let h := CtrKind.hist
  match group with
  | 1 => List.replicate 24 e ++ [r, r, l, l, l, l, h]
  | 2 => [e, e, r, r, r, r, r, e, h]
  | 3 => [e, e, e, e, r, r, r, r, r, r, r, e, e, e]
  | 4 => [e, r, r, e]
  | 5 => [e, e, e, r, r, e, e, r]
  | 6 => [e, e, e, r, e]
  | 7 => [e, e, r, r, r]
  | 8 => [e, r, r, r, r, r, e, e, r, r, r, r, r, r, r, r, e, r, e, r, e, h, r, r]
  | 9 => [e, l, l, e, r, r, r, r, r, r, r, e, l, h]
  | _ => []
/-- The instances of a group on this module (R409). -/
def ctrInstances (order group : Nat) : Nat :=
  match group with
  | 1 => 64
  | 2 => if order = 3 then 48 else 96
  | 3 => 32
  | 4 => 256
  | 5 => 2
  | 6 => 22
  | 7 => 2
  | 8 => 4
  | 9 => 1
  | _ => 0
/-- The key of a counter, or of one bin of a HIST (R409). -/
def ctrKey (group inst idx bin : Nat) : Nat := bin * 2 ^ 32 + idx * 2 ^ 20 + inst * 2 ^ 8 + group
/-- Count n on an EVENT or ERROR counter (R407): an EVENT wraps; an ERROR stops at 2^32, which stands for its limit with overflow
set. -/
def ctrAdd (m : List (Nat × Nat)) (group inst idx n : Nat) : List (Nat × Nat) :=
  let k := ctrKey group inst idx 0
  let v := amGet m k + n
  amPut m k (if (ctrKinds group)[idx]? = some .error then min v (2 ^ 32) else v % 2 ^ 64)
/-- Count once in a bin of a HIST; the first saturation sets the flag, bin 17 (R407). -/
def ctrBin (m : List (Nat × Nat)) (group inst idx bin : Nat) : List (Nat × Nat) :=
  let k := ctrKey group inst idx (min bin 15 + 1)
  let v := amGet m k
  if v < 2 ^ 32 - 1 then
    let m := amPut m k (v + 1)
    if v + 1 = 2 ^ 32 - 1 then amPut m (ctrKey group inst idx 17) 1 else m
  else m
/-- Set a LEVEL, kept as its 32-bit pattern (R407). -/
def ctrLevel (m : List (Nat × Nat)) (group inst idx : Nat) (v : Int) : List (Nat × Nat) :=
  amPut m (ctrKey group inst idx 0) (wrap 32 v)
/-- Count on a counter of the module. -/
def State.bump (s : State) (group inst idx : Nat) (n : Nat := 1) : State :=
  s.modCom (fun k => { k with ctrs := ctrAdd k.ctrs group inst idx n })
/-- Count in a histogram. -/
def State.bumpBin (s : State) (group inst idx bin : Nat) : State :=
  s.modCom (fun k => { k with ctrs := ctrBin k.ctrs group inst idx bin })
/-- n granules are read on a channel; how long each read took is timing: free values, one for each (R409, log 10). -/
def State.chanReads (s : State) (ch n : Nat) : State :=
  (List.range n).foldl (fun s _ => (s.bumpBin 2 ch 8 (Config.ticks s.free / 8)).useFree) (s.bump 2 ch 0 n)
/-- Set a level. -/
def State.setLevel (s : State) (group inst idx : Nat) (v : Int) : State :=
  s.modCom (fun k => { k with ctrs := ctrLevel k.ctrs group inst idx v })

/-! Time, and the lifetime histograms that run with it (R415). -/

/-- Add n to a bin of a lifetime histogram; the first saturation sets the flag, place 16 (R414). -/
def addBin (h : List Nat) (bin n : Nat) : List Nat :=
  let v := h.getD bin 0 + n
  let h := h.set bin (min v 0xFFFFFFFF)
  if 0xFFFFFFFF ≤ v then h.set 16 1 else h
/-- Bin of a supply in mV (R415). -/
def supplyBin (mv : Nat) : Nat := min 15 ((mv - 530) / 20)
/-- Bin of a count in an hour (R415). -/
def hourBin (n : Nat) : Nat := if n = 0 then 0 else min 15 (n.log2 + 1)
/-- Bin of a temperature in quarter degrees (R415). -/
def tempBin (t : Int) : Nat := if t < 120 then 0 else min 15 ((t.toNat / 4 - 25) / 5)
/-- The supply of a cluster in mV (R357). -/
def Pacing.supply (k : Pacing) : Nat :=
  match k.st with
  | .walk | .rest => 450
  | _ => k.active
/-- The hottest junction sensor, quarter degrees (R415, R435). -/
def State.hottest (s : State) : Int :=
  ((s.clusters.toList.map (fun k => k.pc.temp)) ++ s.com.pw.feedTemp).foldl max (s.cl 0).pc.temp
/-- Corrections and replays of this boot: counters 3 of the channels and 4 of the ports. -/
def State.hourCounts (s : State) : Nat × Nat :=
  let sum := fun (n g i : Nat) => ((List.range n).map (fun u => amGet s.com.ctrs (ctrKey g u i 0))).sum
  (sum 96 2 3, sum 32 3 4)
/-- Histograms 1 and 2 take n minutes of every cluster that is not power-gated. -/
def State.clusterHists (s : State) (n : Nat) (hs : List (List Nat)) : List (List Nat) :=
  s.clusters.toList.foldl (fun (hs : List (List Nat)) k =>
    if k.retired then hs
    else (hs.modify 1 (fun h => addBin h (supplyBin k.pc.supply) n)).modify 2 (fun h => addBin h k.pc.st.num n)) hs
/-- The histograms take the seconds, minutes and hours that have passed, each sampled at its end (R415; DEDUCED, log 31). -/
def State.histRun (s : State) : State :=
  let k := s.com.store
  let sec := s.now / second
  let n := sec - k.histAt
  if !s.com.pw.good || n = 0 then s
  else
    let p := s.com.pw
    let watts := if k.watts.2 = 0 then p.pin else k.watts.1 / k.watts.2
    let hs := k.hists
    let hs := if p.measured then ((hs.modify 0 (fun h => addBin h (tempBin s.hottest) n)).modify 3
      (fun h => addBin h (min 15 (watts / 125)) n)).modify 4 (fun h => addBin h (min 15 (p.vin / 1000 - 44)) n) else hs
    let mins := sec / 60 - k.histAt / 60
    let hs := if mins = 0 then hs else s.clusterHists mins hs
    let hours := sec / 3600 - k.histAt / 3600
    let c := s.hourCounts
    let hour := fun (d : Nat) (h : List Nat) => addBin (addBin h (hourBin d) 1) 0 (hours - 1)
    let hs := if hours = 0 then hs else (hs.modify 5 (hour (c.1 - k.hourBase.1))).modify 6 (hour (c.2 - k.hourBase.2))
    s.modStore (fun k => { k with
      hists := hs, histAt := sec, watts := (0, 0), hourBase := if hours = 0 then k.hourBase else c })
/-- Let time reach at least t. -/
def State.reach (s : State) (t : Nat) : State := ({ s with now := max s.now t } : State).histRun

/-! Alerts (R436). -/

/-- Set a cause bit of ALERT_CAUSE. -/
def State.alert (s : State) (bit : Nat) : State := s.modPw (fun k => { k with alert := k.alert ||| 2 ^ bit })
/-- ALERT_N is low: some cause bit is set (R436). -/
def State.alertLow (s : State) : Bool := s.com.pw.alert != 0

/-! Messages and reports (R386, R393). -/

/-- A message header (R386). -/
def msgHdr (type status heat seq len reqSeq : Nat) : Bytes :=
  natLE 4 0x47534D5A ++ natLE 1 type ++ natLE 1 status ++ natLE 1 heat ++ [0] ++ natLE 8 seq ++ natLE 4 len ++ natLE 4 0
    ++ natLE 8 reqSeq
/-- Send a tagged message on an attached session (R386, R389). -/
def Session.send (k : Session) (type status heat reqSeq : Nat) (body : Bytes) : Session × OutItem :=
  let hdr := msgHdr type status heat k.txSeq body.length reqSeq
  ({ k with txSeq := k.txSeq + 1 }, .mgmt k.conn hdr body (hmac k.keys.2 (hdr ++ body)))
/-- Change the session of a connection. -/
def State.modSession (s : State) (conn : Nat) (f : Session → Session) : State :=
  s.modMgmt (fun m => { m with sessions := m.sessions.map (fun k => if k.conn == conn then f k else k) })
/-- The session of a connection. -/
def State.session (s : State) (conn : Nat) : Option Session := s.com.mgmt.sessions.find? (fun k => k.conn == conn)
/-- Send a message on a connection's session; nothing where there is none. -/
def State.sendMsg (s : State) (conn type status heat reqSeq : Nat) (body : Bytes) : State :=
  match s.session conn with
  | none => s
  | some k =>
    let (k', o) := k.send type status heat reqSeq body
    (s.modSession conn (fun _ => k')).emit o

/-- Reports the telemetry ring holds (R393): 64 MiB of 64 bytes. -/
def ringSize : Nat := 1048576
/-- A report body (R393). -/
def reportBody (seq timeUs kind heat status step : Nat) (detail : Bytes) : Bytes :=
  natLE 8 seq ++ natLE 8 timeUs ++ natLE 2 kind ++ natLE 1 heat ++ natLE 1 status ++ natLE 8 step ++ bytesAt detail 0 36
/-- A report enters the ring and goes to every attached observer (R393). -/
def State.report (s : State) (kind heat status step : Nat) (detail : Bytes) : State :=
  let m := s.com.mgmt
  let body := reportBody m.nextReport s.micros kind heat status step detail
  let full := ringSize ≤ m.reports.length
  let s := s.modMgmt (fun m => { m with
    reports := (if full then m.reports.drop 1 else m.reports) ++ [body]
    nextReport := m.nextReport + 1
    dropped := if full then m.dropped + 1 else m.dropped })
  (m.sessions.filter (fun k => k.phase == .attached && bitAt k.rights 0)).foldl
    (fun s k => s.sendMsg k.conn 0x41 0 heat 0 body) s

/-! Configuration (R376). -/

/-- A field of the settings of the running configuration (R376). -/
def Boot.setting (b : Boot) (hi lo : Nat) : Nat := fld (leAt (b.config.getD []) 64 64) hi lo
/-- reserve_48ths (R202). -/
def State.reserve (s : State) : Nat := s.com.boot.setting 7 4
/-- Bytes of one memory position (R4). -/
def State.positionBytes (s : State) : Nat :=
  match s.com.boot.order with
  | 1 => 128 * 2 ^ 30
  | 2 => 64 * 2 ^ 30
  | _ => 4 * 2 ^ 30
/-- Channels of one memory position (R185, R189). -/
def State.positionChans (s : State) : Nat := if s.com.boot.order = 3 then 4 else 8

/-! Life log (R413 to R417). -/

/-- power_on_s: seconds with PWR_GOOD high since manufacture (R414). -/
def State.powerOnS (s : State) : Nat := s.com.store.onBefore + s.now / second
/-- Program bytes into the configuration flash: the model keeps every byte XOR 0xFF, so an erased byte is zero (R373). -/
def State.flashPut (s : State) (a : Nat) (bs : Bytes) : State :=
  s.modBoot (fun b => { b with flash := b.flash.put a (bs.map (fun x => x ^^^ 0xFF)) })
/-- Erase bytes of the configuration flash. -/
def State.flashErase (s : State) (a n : Nat) : State := s.modBoot (fun b => { b with flash := b.flash.clear a n })
/-- Read bytes of the configuration flash. -/
def State.flashGet (s : State) (a n : Nat) : Bytes := (s.com.boot.flash.get a n).map (fun x => x ^^^ 0xFF)
/-- Write one journal record, erasing its sector before the first (R413, R416, R417). -/
def State.putRecord (s : State) (w : Nat) : State :=
  let r := s.com.store.logRecord
  let a := 0x20000 + 32 * 4096 + 32 * r
  let body := natLE 28 w
  let s := if r % 128 = 0 then s.flashErase a 4096 else s
  (s.flashPut a (body ++ natLE 4 (crc32c body))).modStore (fun k => { k with logRecord := (r + 1) % 122880 })
/-- The first 28 bytes of a journal record (R416). -/
def State.recordWord (s : State) (kind status cls unit detail : Nat) : Nat :=
  s.powerOnS % 2 ^ 32 + s.com.store.boots % 2 ^ 32 * 2 ^ 32 + kind * 2 ^ 64 + status * 2 ^ 72 + cls * 2 ^ 80
    + unit % 2 ^ 16 * 2 ^ 88 + detail % 2 ^ 64 * 2 ^ 128
/-- A journal event: written at once while the security core runs, kept until its restart otherwise (R417). -/
def State.journal (s : State) (kind status cls unit detail : Nat) : State :=
  let w := s.recordWord kind status cls unit detail
  if s.com.boot.security = .up then s.putRecord w else s.modStore (fun k => { k with logWait := k.logWait ++ [w] })
/-- Bit positions of the ever-retired bitmap: lanes, channels, sub-streams, clusters, media units, drives, feed ports, ports, each
from a byte boundary (R414). -/
def everBit (cls unit : Nat) : Nat :=
  match cls with
  | 1 => unit
  | 3 => 256 + unit
  | 4 => 352 + unit
  | 9 => 864 + unit
  | 5 | 6 | 7 | 8 => 928 + unit
  | 10 => 952 + unit
  | 11 => 960 + unit
  | _ => 968 + unit
/-- The summary of the life log (R414, R415). -/
def State.summary (s : State) : Bytes :=
  let k := s.com.store
  let bits := (List.range 125).map (fun i => BitVec.ofNat 8
    ((List.range 8).foldl (fun a j => if k.everRetired.contains (8 * i + j) then a + 2 ^ j else a) 0))
  let body := natLE 4 0x314C4C5A ++ natLE 2 1 ++ natLE 2 0 ++ natLE 4 k.logSeq ++ natLE 4 k.boots ++ natLE 8 s.powerOnS
    ++ natLE 4 k.trips ++ natLE 4 k.faults ++ k.life.flatMap (natLE 8)
    ++ k.hists.flatMap (fun h => (h.take 16).flatMap (natLE 4) ++ natLE 8 (h.getD 16 0))
    ++ bytesAt (k.rates.1.flatMap (natLE 2)) 0 128 ++ bytesAt (k.rates.2.flatMap (natLE 2)) 0 128 ++ bytesAt bits 0 128
  let body := bytesAt body 0 4092
  body ++ natLE 4 (crc32c body)
/-- Write the next summary sector, erased first (R413, R417). -/
def State.putSummary (s : State) : State :=
  let a := 0x20000 + 4096 * s.com.store.logSector
  if s.com.boot.security = .up then
    ((s.flashErase a 4096).flashPut a s.summary).modStore (fun k => { k with
      logSeq := k.logSeq + 1, logSector := (k.logSector + 1) % 32 })
  else s

/-! Retries and retirement (R331). -/

/-- The clock-loss flag: while it is set no lane, port, feed port or drive is charged a retry or retired (R429). -/
def State.clockLost (s : State) : Bool := s.com.pw.clockLost.isSome
/-- The charge times with one more, those older than 1 s dropped (R331). -/
def chargeAt (now : Nat) (ts : List Nat) : List Nat := ts.filter (fun t => now < t + second) ++ [now]
/-- More than 16 retries within 1 s (R331). -/
def overCharged (ts : List Nat) : Bool := 16 < ts.length
/-- A transient retry counts toward q of R344. -/
def State.transient (s : State) : State :=
  s.modStore (fun k => { k with transients := k.transients.filter (fun t => s.now < t + 86400 * second) ++ [s.now] })
/-- A unit of a class is retired for good: reported (R330), recorded (R331, R416), counted (R414). -/
def State.noteRetired (s : State) (cls unit heat : Nat) : State :=
  let s := s.modStore (fun k => { k with
    life := k.life.modify cls (· + 1)
    retiredAt := k.retiredAt ++ [s.powerOnS]
    everRetired := if k.everRetired.contains (everBit cls unit) then k.everRetired else k.everRetired ++ [everBit cls unit] })
  let s := s.report 0x05 heat eRetired 0 (natLE 1 cls ++ natLE 2 unit)
  (s.journal 1 eRetired cls unit 0).putSummary

/-- Count on a lifetime count of the life log (R414). -/
def State.lifeCount (s : State) (i : Nat) : State := s.modStore (fun k => { k with life := k.life.modify i (· + 1) })

/-! A heat's resources and address map (R20, R30 to R32, R202, R398). -/

/-- Physical clusters of a heat in logical order (R32). -/
def Heat.clusterList (h : Heat) : List (Fin 64) := (List.finRange 64).filter (fun c => bitAt h.blocks.1 (c.val / 16))
/-- Physical positions of a heat in block order (R32). -/
def Heat.positionList (h : Heat) : List Nat := (List.range 12).filter (fun p => bitAt h.blocks.2.1 (p / 3))
/-- Physical ports of a heat in logical order (R32). -/
def Heat.portList (h : Heat) : List (Fin 32) := (List.finRange 32).filter (fun p => bitAt h.blocks.2.2 (p.val / 8))
/-- The heat that owns a cluster, and its logical number. -/
def State.heatOfCl (s : State) (c : Fin 64) : Option (Fin 4 × Nat) :=
  ((List.finRange 4).find? (fun h => (s.heat h).phase != .free && bitAt (s.heat h).blocks.1 (c.val / 16))).map
    (fun h => (h, (s.heat h).clusterList.idxOf c))
/-- The heat that owns a port, and its logical number. -/
def State.heatOfPort (s : State) (p : Fin 32) : Option (Fin 4 × Nat) :=
  ((List.finRange 4).find? (fun h => (s.heat h).phase != .free && bitAt (s.heat h).blocks.2.2 (p.val / 8))).map
    (fun h => (h, (s.heat h).portList.idxOf p))
/-- The heat that owns a memory position. -/
def State.heatOfPos (s : State) (pos : Nat) : Option (Fin 4) :=
  (List.finRange 4).find? (fun h => (s.heat h).phase != .free && bitAt (s.heat h).blocks.2.1 (pos / 3))
/-- Bytes of a heat's memory before the reserve is taken. -/
def State.capacity (s : State) (h : Heat) : Nat := h.positionList.length * s.positionBytes
/-- The end of a heat's usable range (R202). -/
def State.usableTop (s : State) (h : Heat) : Nat := s.capacity h * (48 - s.reserve) / 48
/-- A MiB. -/
def mib : Nat := 1048576
/-- Each half of the partner region (R206). -/
def halfBytes (p : Program) : Nat := roundUp p.batonBytes mib
/-- The base of the partner region (R206, R398). -/
def State.partnerBase (s : State) (h : Heat) (p : Program) : Nat := s.usableTop h - 2 * halfBytes p
/-- The base of the media pool (R312, R398). -/
def State.mediaBase (s : State) (h : Heat) (p : Program) : Nat :=
  s.partnerBase h p - (1024 * fld h.adm 19 16 + 32 * fld h.adm 34 33) * mib
/-- The program top (R398). -/
def State.programTop (s : State) (h : Heat) (p : Program) : Nat := s.mediaBase h p - roundUp p.imageSize mib
/-- feed_share of a heat (R396). -/
def Heat.feedShare (h : Heat) : Nat := fld h.adm 46 40
/-- The address map of a heat that holds an image. -/
def State.heatMap (s : State) (h : Heat) (p : Program) : HeatMap :=
  { clusters := h.clusterList.length, scratchWays := h.ways, feedShare := h.feedShare, programTop := s.programTop h p,
    samples := [p.recordRegion, p.sampleRegion], fold := h.folds }
/-- The step number of the attempt under way. -/
def Heat.step (h : Heat) : Nat := h.hu.step
/-- The job seed, zero before a START. -/
def Heat.seed (h : Heat) : DWord := (h.job.map Job.seed).getD 0
/-- This module's id in the job. -/
def Heat.ownId (h : Heat) : Nat := (h.job.map Job.moduleId).getD 0
/-- It is the root of its job (R260). -/
def Heat.isRoot (h : Heat) : Bool :=
  match h.image with
  | some p => h.ownId == p.root
  | none => false
/-- The epoch of blocks sent now (R239). -/
def Heat.epoch (h : Heat) : Nat := h.hu.count % 4
/-- The cluster that runs the work of a logical cluster: the survivor after a fold (R335). -/
def Heat.runs (h : Heat) (c : Nat) : Nat := (h.folds.lookup c).getD c
/-- A logical cluster works alone for its pair (R48, R335). -/
def Heat.alone (h : Heat) (c : Nat) : Bool := h.folds.any (fun f => f.2 == c)

end Sys2Proof.Machine
end

