-- ==== Sys2Proof/Machine/ConfigImage.lean ====
section
/-! DEFINITION. The configuration image (R374 to R379) and the firmware bundle (R380 to R382): layout, keys, digests, slots. -/
namespace Sys2Proof.Machine

/-! Configuration image. -/

/-- Bytes of an image (R373). -/
def configSize : Nat := 9200
/-- The header (R375). -/
def configHdrOk (h : Nat) : Bool :=
  fld h 31 0 == 0x4746435A && fld h 47 32 == 1 && fld h 63 48 == 9200 && rsv h 255 128
/-- The settings lie in their ranges (R376); with GDDR7 mem_rate is 0 (R189). -/
def settingsOk (w : Nat) : Bool :=
  fld w 2 1 != 3 && (!bitAt w 0 || fld w 2 1 == 0) && 1 ≤ fld w 7 4 && fld w 7 4 ≤ 8 && fld w 12 8 ≤ 16 && rsv w 15 14
    && 800 ≤ fld w 27 16 && fld w 27 16 ≤ 2000 && rsv w 31 28 && 750 ≤ fld w 41 32 && fld w 41 32 ≤ 850 && rsv w 47 42
    && 1 ≤ fld w 63 48 && 2 ≤ fld w 70 64 && fld w 70 64 ≤ 64 && rsv w 71 71 && 1 ≤ fld w 79 72
    && (fld w 84 80 ≤ 24 || fld w 84 80 == 31) && rsv w 95 85 && 1 ≤ fld w 111 96
    && 5 ≤ fld w 127 112 && fld w 127 112 ≤ 3600 && (fld w 159 128 == 0 || 60 ≤ fld w 159 128) && 60 ≤ fld w 191 160
    && rsv w 511 192
/-- A port record: a unicast address, whose group bit is the lowest of its first byte on the wire, bit 40 of the number; the feed ports'
tcp_port is 0 (R10, R377). -/
def portRecordOk (feed : Bool) (w : Nat) : Bool :=
  !bitAt w 40 && fld w 59 48 != 4095 && rsv w 63 60 && fld w 199 192 ≤ 128 && rsv w 207 200 && (!feed || rsv w 223 208) && rsv w 511 272
/-- Operator key record i of an image (R378). -/
def keyRecord (img : Bytes) (i : Nat) : Nat := leAt img (320 + 64 * i) 64
/-- The layout passes R375 to R378. -/
def configOk (img : Bytes) : Bool :=
  img.length == configSize && configHdrOk (leAt img 0 64) && settingsOk (leAt img 64 64)
    && portRecordOk false (leAt img 128 64) && portRecordOk true (leAt img 192 64) && portRecordOk true (leAt img 256 64)
    && (List.range 16).all (fun i => rsv (keyRecord img i) 511 260) && (List.range 16).any (fun i => bitAt (keyRecord img i) 256)
/-- generation (R375). -/
def configGen (img : Bytes) : Nat := leAt img 8 4
/-- min_fw_version (R375). -/
def configMinFw (img : Bytes) : Nat := leAt img 12 4
/-- owner_key (R375). -/
def configOwner (img : Bytes) : Bytes := bytesAt img 32 32
/-- The owner key is the one whose digest is fused (R374). -/
def ownerKeyOk (img : Bytes) : Bool := sha256 (configOwner img) == Config.ownerDigest
/-- An image is valid: layout, owner and signature (R374). -/
def configValid (img : Bytes) (sigOk : Bool) : Bool := configOk img && ownerKeyOk img && sigOk
/-- The flash address of a slot (R373). -/
def slotBase (slot : Nat) : Nat := if slot = 1 then 0x10000 else 0
/-- The slot a new image goes to: the one not selected, A in recovery (R379). -/
def State.otherSlot (s : State) : Nat := if s.com.boot.slot = 0 then 1 else 0

/-! The management port's endpoint (R372, R377, R385). -/

/-- FEED_ID × 256 + SLOT_ID as latched; 0 where the straps never agreed (R372, R433). -/
def Boot.place (b : Boot) : Nat := (b.straps.map (fun x => x.feedId * 256 + x.slotId)).getD 0
/-- Where management connections are accepted, as (MAC, IPv6 or IPv4-mapped address, TCP port): the management port record, or in recovery
02:5A:4E:34:FEED_ID:SLOT_ID, fe80::5a4e:3400:0:x and port 4,920 (R372, R377, R385). -/
def Boot.endpoint (b : Boot) : Nat × Nat × Nat :=
  match b.config with
  | some img =>
    let r := leAt img 128 64
    (fld r 47 0, fld r 191 64, fld r 223 208)
  | none => (0x025A4E340000 + b.place, 0xFE80 * 2 ^ 112 + 0x5A4E * 2 ^ 48 + 0x3400 * 2 ^ 32 + b.place, 4920)

/-! Firmware bundle. -/

/-- Code memory of a section kind (R383). -/
def fwLimit (kind : Nat) : Nat :=
  match kind with
  | 1 => 1048576
  | 2 => 2097152
  | 3 => 131072
  | _ => 16384
/-- One section entry (R381). -/
def fwEntryOk (size w : Nat) : Bool :=
  let k := fld w 7 0
  1 ≤ k && k ≤ 4 && rsv w 31 8 && fld w 63 32 % 4096 == 0 && 4096 ≤ fld w 63 32 && fld w 95 64 ≤ fwLimit k
    && fld w 63 32 + fld w 95 64 + 7856 ≤ size && fld w 127 96 < fld w 95 64 && rsv w 255 128
/-- The layout of a bundle (R380, R381). -/
def bundleOk (b : Bytes) : Bool :=
  let h := leAt b 0 128
  let es := (List.range 4).map (fun i => leAt b (128 + 32 * i) 32)
  fld h 31 0 == 0x4257465A && fld h 47 32 == 1 && rsv h 55 50 && fld h 63 56 == 4 && fld h 127 96 == b.length && b.length ≤ 16777216
    && 256 + 7856 ≤ b.length && rsv h 255 128 && rsv h 1023 768 && es.all (fwEntryOk b.length)
    && nodupB (es.map (fun w => fld w 7 0))
/-- fw_version (R380). -/
def bundleVersion (b : Bytes) : Nat := leAt b 8 4
/-- The section of a kind, for its core's region (R381, R382). -/
def bundleSection (b : Bytes) (kind stamp : Nat) : FwMem :=
  let w := (((List.range 4).map (fun i => leAt b (128 + 32 * i) 32)).find? (fun w => fld w 7 0 == kind)).getD 0
  { code := bytesAt b (fld w 63 32) (fld w 95 64), entry := fld w 127 96, stamp := stamp }
/-- bundle_digest (R380). -/
def bundleDigest (b : Bytes) : Bytes := bytesAt b 32 32
/-- The signer is the key boot ROM knows for the slot, not revoked, and the digest is right (R382). -/
def bundleTrusted (b : Bytes) : Bool :=
  let k := fld (leAt b 0 8) 49 48
  sha256 (bytesAt b 64 32) == Config.fwKeyDigest k && !Config.fwKeyRevoked k
    && sha256 (bytesAt b 128 (b.length - 7856 - 128)) == bundleDigest b

end Sys2Proof.Machine
end

