-- ==== Sys2Proof/Machine/BootCore.lean ====
section
/-! DEFINITION. Closing sessions (R390, R394), the state a boot begins with (R370, R400, R406, R407, R417), and the loss of every rail but
standby (R354). -/
namespace Sys2Proof.Machine

/-! Sessions. -/

/-- No session is attached and a heat is running (R394). -/
def State.orphaned (s : State) : Bool :=
  s.com.mgmt.sessions.all (fun k => k.phase != .attached) && s.heats.toList.any (fun h => h.phase == .running)
/-- Note where an orphaned period begins or ends (R394). -/
def State.noteOrphan (s : State) : State :=
  let o := s.orphaned
  s.modMgmt (fun m => { m with orphanSince := if o then some (m.orphanSince.getD s.now) else none })
/-- The connection of a message row; none for any other command. -/
def msgConn : Instr → Option Nat
  | .detach m | .loadFw m _ | .writeConfig m _ | .resetHeat m | .resetModule m | .loadImage m | .start m | .stopAtHurdle m
  | .checkpointNow m | .rearm m | .queryStatus m | .queryInventory m | .queryAttest m | .snapshot m | .splits m | .queryDump m
  | .readLifelog m => some m.conn
  | _ => none
/-- A session is gone: what it had queued goes with it (R390, R394; DESIGN CHOICE, log 22). -/
def State.dropSession (s : State) (conn : Nat) : State :=
  (s.modMgmt (fun m => { m with
    sessions := m.sessions.filter (fun k => k.conn != conn)
    queue := m.queue.filter (fun i => msgConn i != some conn) })).noteOrphan
/-- A session enters CLOSED, which closes its TCP connection (R390). -/
def State.closeSession (s : State) (conn : Nat) : State := (s.dropSession conn).emit (.tcpClose conn)
/-- Every session closes (R382, R400). -/
def State.closeAll (s : State) : State := s.com.mgmt.sessions.foldl (fun s k => s.closeSession k.conn) s

/-! The life log at a boot (R417). -/

/-- Journal events that waited for the security core are written (R417). -/
def State.flushLog (s : State) : State :=
  let ws := s.com.store.logWait
  ws.foldl State.putRecord (s.modStore (fun k => { k with logWait := [] }))
/-- A record of a retirement or a mismatch: its event changes the summary (R414, R416). -/
def changesSummary (w : Nat) : Bool := fld w 71 64 == 1 || fld w 71 64 == 9
/-- The security core is back: what waited is written, and a summary where an event among it changes the summary (R417). -/
def State.catchUpLog (s : State) : State :=
  if s.com.store.logWait.any changesSummary then s.flushLog.putSummary else s.flushLog
/-- Boot records a trip or input fault that the input monitor holds, and a summary; recording clears the latch (R417; DEDUCED, log 23). -/
def State.bootLog (s : State) : State :=
  let s := s.flushLog
  let s := if s.com.pw.tripped then (s.journal 2 0 0 0 0).modStore (fun k => { k with trips := k.trips + 1 }) else s
  let s := if s.com.pw.inputFault then (s.journal 3 0 0 0 0).modStore (fun k => { k with faults := k.faults + 1 }) else s
  (s.modPw (fun p => { p with tripped := false, inputFault := false })).putSummary

/-! Boot. -/

/-- The storage a boot finds: what the drives, the flash and the life log keep; units retired before are tried again (R331, R400). -/
def Storage.boot (k : Storage) (onTime : Nat) : Storage :=
  { k with drives := Vector.replicate 2 Drive.reset, boots := k.boots + 1, onBefore := onTime, transients := [], dumping := none
           histAt := 0, watts := (0, 0), hourBase := (0, 0) }
/-- The power core starts from its ROM: no limit acts (R370). -/
def Power.boot (p : Power) : Power :=
  { p with pause := 0, pauseAt := 0, polls := (0, 0, 0, 0), floor := false, overLim := false, capMv := 850, underSince := none,
           clockLost := p.clockLost.map (fun _ => 0), vinBad := p.vinBad.map (fun _ => 0) }
/-- power_on_s as it stands: the module time counts only while PWR_GOOD is high (R414). -/
def State.onTime (s : State) : Nat := if s.com.pw.good then s.powerOnS else s.com.store.onBefore
/-- Boot begins as at PWR_GOOD: the module time and every counter are 0, the security core runs its boot ROM and the power core its own,
every cluster is in Jog at 0.75 V, no heat is admitted, retired units are tried again (R370, R400, R406, R407). -/
def State.reboot (s : State) : State :=
  let b := { Boot.reset with flash := s.com.boot.flash, order := s.com.boot.order, security := .up, power := .up }
  let c := { Common.reset with
    boot := b, store := s.com.store.boot s.onTime, pw := s.com.pw.boot, tap := s.com.tap }
  ({ s with now := 0, clusters := Vector.replicate 64 Cluster.reset, ports := Vector.replicate 32 Port.reset,
            heats := Vector.replicate 4 Heat.reset, com := c } : State).bootLog

/-! Rails off. -/

/-- PWR_GOOD falls and every rail but standby turns off: jobs are not stopped first and memory is lost. Flash, drives and the input
monitor's latches keep what they hold (R354, R434, R436). -/
def State.railsOff (s : State) : State :=
  let b := { Boot.reset with flash := s.com.boot.flash, order := s.com.boot.order }
  let k := { s.com.store with
    drives := Vector.replicate 2 Drive.reset, onBefore := s.onTime, logWait := [], transients := [], dumping := none
    histAt := 0, watts := (0, 0), hourBase := (0, 0) }
  let p := { s.com.pw.boot with good := false, rail := 0, rising := false }
  { s with now := 0, clusters := Vector.replicate 64 Cluster.reset, ports := Vector.replicate 32 Port.reset,
           heats := Vector.replicate 4 Heat.reset
           com := { Common.reset with boot := b, store := k, pw := p, tap := s.com.tap } }

end Sys2Proof.Machine
end

