-- ==== Sys2Proof/Machine/MoverCore.lean ====
section
/-! DEFINITION. What the mover does: GATHER, SCATTER and COPY (R209 to R213), atomics (R200, R201), and the KV regions and pages
(R171 to R184), as functions of the memory one heat's commands reach. -/
namespace Sys2Proof.Machine

/-- The memory the commands of one heat reach, as one cluster's mover sees it. -/
structure Space where
  /-- address map -/
  hm : HeatMap
  /-- logical number of the issuing cluster -/
  own : Nat
  /-- the heat's memory range, by heat-relative address -/
  mem : Mem
  /-- poisoned granules, by heat-relative address divided by 32 (R204) -/
  poison : List Nat
  /-- scratch (R20) -/
  scratch : Mem
  /-- the heat's share of the staging buffer (R24) -/
  staging : Mem
  /-- cluster stores in logical order -/
  stores : List Mem
  /-- function tables of the issuing cluster -/
  fn : Mem
deriving DecidableEq, Repr

/-- The memory byte of a region, zero where nothing is stored there. -/
def Space.byte (sp : Space) (a : Nat) : Byte :=
  match regionOf sp.hm a with
  | .mem m | .sample m => sp.mem.read m
  | .store c o => (sp.stores.getD c []).read o
  | .scratch o => sp.scratch.read o
  | .staging o => sp.staging.read o
  | .fnTab _ o => sp.fn.read o
  | _ => 0

/-- n bytes from an address, in whatever regions they lie. -/
def Space.bytes (sp : Space) (a n : Nat) : Bytes :=
  match regionOf sp.hm a, regionOf sp.hm (a + n - 1) with
  | .mem m, .mem m' => if m' + 1 = m + n then sp.mem.get m n else (List.range n).map (fun i => sp.byte (a + i))
  | .store c o, .store c' _ => if c = c' ∧ o + n ≤ 0x1000000 then (sp.stores.getD c []).get o n else (List.range n).map (fun i => sp.byte (a + i))
  | .scratch o, .scratch o' =>
    if o / 0x8000000 = o' / 0x8000000 then sp.scratch.get o n else (List.range n).map (fun i => sp.byte (a + i))
  | _, _ => (List.range n).map (fun i => sp.byte (a + i))

/-- The memory granules a range of device addresses touches; none outside memory. -/
def granulesOf (h : HeatMap) (a n : Nat) : List Nat :=
  if n = 0 then []
  else match regionOf h a with
  | .mem m | .sample m => (List.range ((m + n - 1) / 32 - m / 32 + 1)).map (fun i => m / 32 + i)
  | _ => []

/-- Read n bytes; a poisoned granule ends the reading command with E_CHECK (R196, R204). -/
def Space.read (sp : Space) (a n : Nat) : Except Nat Bytes :=
  if (granulesOf sp.hm a n).any sp.poison.contains then .error eCheck else .ok (sp.bytes a n)

/-- Read a little-endian number. -/
def Space.num (sp : Space) (a n : Nat) : Except Nat Nat := (sp.read a n).map leNat

/-- One region's part of a write. -/
def Space.putIn (sp : Space) (r : Region) (bs : Bytes) : Space :=
  match r with
  | .mem m | .sample m => { sp with mem := sp.mem.put m bs }
  | .store c o => { sp with stores := sp.stores.modify c (fun m => m.put o bs) }
  | .scratch o => { sp with scratch := sp.scratch.put o bs }
  | .fnTab _ o => { sp with fn := sp.fn.put o bs }
  | _ => sp

/-- Write bytes one at a time, for a range that lies in more than one region. -/
def Space.putBytes (sp : Space) : Nat → Bytes → Space
  | _, [] => sp
  | a, b :: bs => (sp.putIn (regionOf sp.hm a) [b]).putBytes (a + 1) bs

/-- The granules a write covers whole. -/
def wholeGranules (h : HeatMap) (a n : Nat) : List Nat :=
  match regionOf h a with
  | .mem m | .sample m => (granulesOf h a n).filter (fun g => m ≤ 32 * g && 32 * g + 32 ≤ m + n)
  | _ => []

/-- Write bytes: a poisoned granule is cleared where the write covers it whole, and read, so E_CHECK, where it covers it in
part (R191, R192, R204). -/
def Space.write (sp : Space) (a : Nat) (bs : Bytes) : Except Nat Space :=
  let whole := wholeGranules sp.hm a bs.length
  let part := (granulesOf sp.hm a bs.length).filter (fun g => !whole.contains g)
  if part.any sp.poison.contains then .error eCheck
  else
    let sp := { sp with poison := sp.poison.filter (fun g => !whole.contains g) }
    match regionOf sp.hm a, regionOf sp.hm (a + bs.length - 1) with
    | .mem m, .mem m' => if m' + 1 = m + bs.length then .ok (sp.putIn (.mem m) bs) else .ok (sp.putBytes a bs)
    | .store c o, .store c' _ => if c = c' ∧ o + bs.length ≤ 0x1000000 then .ok (sp.putIn (.store c o) bs) else .ok (sp.putBytes a bs)
    | _, _ => .ok (sp.putBytes a bs)

/-- The region lets a command other than a PLAIN COPY into its own window end with E_DESC (R23, R24). -/
def descRegion : Region → Bool
  | .fnTab _ _ | .control | .staging _ | .feedBuf => true
  | _ => false

/-- The status of a mover access to a range, 0 where it is permitted (R21 to R24, R32, R207, R213). plainCopy marks the
destination of a PLAIN COPY. A read that runs past the heat's share of the staging buffer is E_LIMIT (R24). -/
def moverStatus (h : HeatMap) (own : Nat) (write plainCopy : Bool) (r : Nat × Nat) : Nat :=
  if r.2 = 0 then 0
  else match regionOf h r.1, regionOf h (r.1 + r.2 - 1) with
    | .mem m, .mem _ | .mem m, .sample _ | .sample m, .mem _ | .sample m, .sample _ =>
      if write && h.samples.any (fun s => overlaps m r.2 s.1 s.2) then eDesc else 0
    | .store _ _, .store _ _ => 0
    | .scratch o, .scratch o' => if o / 0x8000000 = o' / 0x8000000 || h.scratchWays == 16 then 0 else eLimit
    | .staging _, .staging _ => if write then eDesc else 0
    | .staging _, .none => if write then eDesc else eLimit
    | .fnTab c _, .fnTab c' _ => if write && plainCopy && c == own && c' == own then 0 else eDesc
    | a, b => if descRegion a || descRegion b then eDesc else eLimit

/-- An address with the narrow alias folded onto the wide path (R21), for overlap tests. -/
def canonAddr (r : Nat × Nat) : Nat × Nat := if aliasWin ≤ r.1 then (r.1 - aliasWin, r.2) else r

/-- Some destination range overlaps some source range, the alias counted as the same bytes. -/
def moverOverlap (ds ss : List (Nat × Nat)) : Bool := rangesMeet (ds.map canonAddr) (ss.map canonAddr)

/-- How a mover command ended: the memory, and the status that ended it (0 for completion). -/
structure MovOut where
  /-- memory after the command -/
  sp : Space
  /-- status -/
  status : Nat
deriving DecidableEq, Repr

/-- A list of row actions applied in order; the first error ends the command where it stands (R44). -/
def runRows {α : Type} (f : Space → α → Except Nat Space) (sp : Space) (xs : List α) : MovOut :=
  xs.foldl (fun o x => if o.status ≠ 0 then o else
    match f o.sp x with
    | .ok sp' => ⟨sp', 0⟩
    | .error e => ⟨o.sp, e⟩) ⟨sp, 0⟩

/-- One row with its scale bytes moved from tensor s row i to tensor d row j, bit for bit (R210, R212). -/
def moveRow (s d : Desc) (i j : Nat) (sp : Space) : Except Nat Space := do
  let data ← sp.read (s.rowAddr i) s.rowLen
  let sc ← sp.read (s.scaleAddr i) s.rowScales
  let sp ← sp.write (d.rowAddr j) data
  if s.rowScales = 0 then .ok sp else sp.write (d.scaleAddr j) sc

/-- A row of zero bytes with zero scale bytes written to tensor d row j (R210). -/
def zeroRow (d : Desc) (j : Nat) (sp : Space) : Except Nat Space := do
  let sp ← sp.write (d.rowAddr j) (List.replicate d.rowLen 0)
  if d.rowScales = 0 then .ok sp else sp.write (d.scaleAddr j) (List.replicate d.rowScales 0)

/-- The descriptor at an offset of the issuing cluster's store. -/
def Space.desc (sp : Space) (recipes : List Recipe) (off : Nat) : Except Nat Desc :=
  loadDesc sp.hm recipes (sp.stores.getD sp.own []) off

/-- Rules every mover tensor obeys (R126, R127, R213). -/
def moverTensorOk (d : Desc) : Bool := d.lenTab == noDesc && d.aligned 32

/-- The indices of a rank-1 integer tensor in the store. -/
def Space.indices (sp : Space) (i : Desc) : List Int := i.ints sp.bytes 0

/-- The GATHER body obeys the load rows of R213. -/
def gatherBodyOk (q : Nat) : Bool :=
  rsv q 255 140 && fld q 137 136 != 3 && fld q 139 138 != 3
    && fld q 87 64 % 64 == 0 && fld q 111 88 % 64 == 0 && fld q 135 112 % 64 == 0

/-- GATHER (R210). -/
def gatherRun (recipes : List Recipe) (sp : Space) (q : Nat) : Except Nat MovOut := do
  demand (gatherBodyOk q) eDesc
  let d ← sp.desc recipes (fld q 87 64)
  let a ← sp.desc recipes (fld q 111 88)
  let i ← sp.desc recipes (fld q 135 112)
  demand (moverTensorOk d && moverTensorOk a && moverTensorOk i && d.rowsApart) eDesc
  demand (a.rank == 2 && d.rank == 2 && i.rank == 1 && (i.fmt == 13 || i.fmt == 14) && a.fmt == d.fmt && a.d0 == d.d0
    && d.d1 == i.d0) eDesc
  need (firstStatus (ownRangeStatus sp.hm sp.own) (d.ranges ++ i.ranges))
  need (firstStatus (moverStatus sp.hm sp.own false false) a.ranges)
  demand (!moverOverlap d.ranges (a.ranges ++ i.ranges)) eDesc
  .ok (runRows (fun sp (p : Nat × Int) =>
    if p.2 < 0 then zeroRow d p.1 sp
    else if (a.d1 : Int) ≤ p.2 then .error eLimit
    else moveRow a d p.2.toNat p.1 sp) sp ((sp.indices i).mapIdx (fun j v => (j, v))))

/-- The aop of a SCATTER body (R211). -/
def aopOf (q : Nat) : Nat := fld q 142 140

/-- The SCATTER body obeys the load rows of R213 (R200). -/
def scatterBodyOk (floatAtomics : Bool) (q : Nat) : Bool :=
  rsv q 255 143 && fld q 137 136 != 3 && fld q 139 138 != 3 && aopOf q ≤ 4 && (floatAtomics || aopOf q != 1)
    && fld q 87 64 % 64 == 0 && fld q 111 88 % 64 == 0 && fld q 135 112 % 64 == 0

/-- The new code of one element under an atomic (R201): FADD on FP32, the rest on signed integers of w bits. -/
def atomicVal (aop w old x : Nat) : Nat :=
  if aop = 1 then (add32 (BitVec.ofNat 32 old) (BitVec.ofNat 32 x)).toNat
  else wrap w (if aop = 2 then sgn w old + sgn w x else if aop = 3 then max (sgn w old) (sgn w x) else min (sgn w old) (sgn w x))

/-- One element updated in place (R201). -/
def atomicAt (aop w : Nat) (sp : Space) (p : Nat × Nat) : Except Nat Space := do
  let old ← sp.num p.1 (w / 8)
  sp.write p.1 (natLE (w / 8) (atomicVal aop w old p.2))

/-- One row applied element by element under an atomic (R201, R211). -/
def atomicRow (aop : Nat) (a d : Desc) (i j : Nat) (sp : Space) : Except Nat Space :=
  let w := elemBits a.fmt
  ((a.codes sp.bytes i).mapIdx (fun e c => (d.rowAddr j + e * (w / 8), c))).foldl
    (fun acc p => acc.bind (fun sp => atomicAt aop w sp p)) (.ok sp)

/-- The range an atomic may target under atomics_mode (R200). -/
def atomicTarget (cacheMode : Bool) (h : HeatMap) (r : Nat × Nat) : Bool :=
  if r.2 = 0 then true
  else if cacheMode then scratchWin ≤ r.1 && r.1 + r.2 ≤ scratchWin + 0x10000000 && 1 ≤ h.scratchWays
  else r.1 + r.2 ≤ storeWin || aliasWin ≤ r.1

/-- SCATTER (R200, R201, R211). -/
def scatterRun (recipes : List Recipe) (floatAtomics cacheMode : Bool) (sp : Space) (q : Nat) : Except Nat MovOut := do
  demand (scatterBodyOk floatAtomics q) eDesc
  let aop := aopOf q
  let d ← sp.desc recipes (fld q 87 64)
  let a ← sp.desc recipes (fld q 111 88)
  let i ← sp.desc recipes (fld q 135 112)
  demand (moverTensorOk d && moverTensorOk a && moverTensorOk i && d.rowsApart) eDesc
  demand (a.rank == 2 && d.rank == 2 && i.rank == 1 && (i.fmt == 13 || i.fmt == 14) && a.fmt == d.fmt && a.d0 == d.d0
    && a.d1 == i.d0) eDesc
  demand (aop == 0 || (if aop = 1 then d.fmt == 0 else d.fmt == 13 || d.fmt == 14)) eDesc
  demand (aop == 0 || (d.ranges.all (atomicTarget cacheMode sp.hm) && !(cacheMode && aop == 1))) eDesc
  need (firstStatus (ownRangeStatus sp.hm sp.own) (a.ranges ++ i.ranges))
  need (firstStatus (moverStatus sp.hm sp.own true false) d.ranges)
  demand (!moverOverlap d.ranges (a.ranges ++ i.ranges)) eDesc
  .ok (runRows (fun sp (p : Nat × Int) =>
    if p.2 < 0 then .ok sp
    else if (d.d1 : Int) ≤ p.2 then .error eLimit
    else if aop = 0 then moveRow a d p.1 p.2.toNat sp
    else atomicRow aop a d p.1 p.2.toNat sp) sp ((sp.indices i).mapIdx (fun j v => (j, v))))

/-- The cop of a COPY body (R212). -/
def copOf (q : Nat) : Nat := fld q 67 64

/-- The COPY body obeys the load rows of R213: fields a cop does not use are at their defaults. -/
def copyBodyOk (q : Nat) : Bool :=
  let cop := copOf q
  let d := fld q 95 72
  let s := fld q 119 96
  rsv q 239 238 && rsv q 255 252 && cop ≤ 6 && fld q 69 68 != 3 && fld q 71 70 != 3
    && (fld q 237 236 != 3 || cop == 1)
    && (match cop with
      | 0 => d % 64 == 0 && s % 64 == 0 && rsv q 167 120 && rsv q 215 168 && rsv q 235 216 && rsv q 237 236 && rsv q 251 240
      | 1 => d % 64 == 0 && (if fld q 237 236 = 3 then s % 64 == 0 else s == 0) && rsv q 215 168 && rsv q 251 240
      | 2 => s % 64 == 0 && d == 0 && rsv q 215 168 && rsv q 251 240
      | _ => d == noDesc && s == noDesc && rsv q 237 236 && fld q 235 216 % 256 == 0
          && (match cop with
            | 3 => rsv q 215 168 && rsv q 251 240
            | 4 => true
            | 5 => fld q 176 168 ≤ 256 && rsv q 215 177 && rsv q 251 240
            | _ => rsv q 215 168))

/-- COPY PLAIN (R212): element by element, no conversion. -/
def plainRun (recipes : List Recipe) (sp : Space) (q : Nat) : Except Nat MovOut := do
  demand (copyBodyOk q && copOf q == 0) eDesc
  let d ← sp.desc recipes (fld q 95 72)
  let s ← sp.desc recipes (fld q 119 96)
  demand (moverTensorOk d && moverTensorOk s && d.rowsApart) eDesc
  demand (d.fmt == s.fmt && d.sameExt s) eDesc
  need (firstStatus (moverStatus sp.hm sp.own false false) s.ranges)
  need (firstStatus (moverStatus sp.hm sp.own true true) d.ranges)
  demand (!moverOverlap d.ranges s.ranges) eDesc
  .ok (runRows (fun sp r => moveRow s d r r sp) sp (List.range s.rows))

/-- A KV region header (R171). -/
structure KvRegion where
  /-- device address of the header -/
  addr : Nat
  /-- max_len -/
  maxLen : Nat
  /-- positions written -/
  length : Nat
  /-- pool header address -/
  pool : Nat
  /-- home cluster -/
  home : Nat
  /-- pages may be dropped -/
  droppable : Bool
  /-- key bytes a position -/
  keyB : Nat
  /-- value bytes a position -/
  valB : Nat
  /-- scale bytes a position -/
  scB : Nat
deriving DecidableEq, Repr

/-- A KV pool header (R173). -/
structure KvPool where
  /-- pages -/
  count : Nat
  /-- bytes a page -/
  pageB : Nat
  /-- address of page 0 -/
  pages : Nat
  /-- address of the page descriptors -/
  descs : Nat
  /-- FREE pages each owning cluster should keep -/
  reserve : Nat
deriving DecidableEq, Repr

/-- Read and check a region header (R171, R184). -/
def Space.kvRegion (sp : Space) (a : Nat) : Except Nat KvRegion := do
  need (moverStatus sp.hm sp.own true false (a, 64))
  let w ← sp.num a 64
  let r : KvRegion := ⟨a, fld w 31 0, fld w 63 32, fld w 111 64, fld w 117 112, bitAt w 118, fld w 143 128, fld w 159 144, fld w 175 160⟩
  demand (rsv w 127 119 && rsv w 511 176 && r.maxLen % 256 == 0 && 256 ≤ r.maxLen && r.maxLen ≤ 1048576
    && r.keyB % 32 == 0 && 32 ≤ r.keyB && r.keyB ≤ 32768 && r.valB % 32 == 0 && 32 ≤ r.valB && r.valB ≤ 32768) eDesc
  need (moverStatus sp.hm sp.own true false (a + 64, r.maxLen / 256 * 8))
  .ok r

/-- Read and check the pool header of a region (R173, R184). -/
def Space.kvPool (sp : Space) (r : KvRegion) : Except Nat KvPool := do
  need (moverStatus sp.hm sp.own true false (r.pool, 64))
  let w ← sp.num r.pool 64
  let p : KvPool := ⟨fld w 31 0, fld w 63 32, fld w 111 64, fld w 159 112, fld w 175 160⟩
  demand (rsv w 511 176 && 1 ≤ p.count && p.count ≤ 16777216 && p.pageB % 4096 == 0 && p.pageB ≤ 0x4000000
    && 256 * (r.keyB + r.valB + r.scB) ≤ p.pageB && p.pages % 4096 == 0 && p.descs % 16 == 0) eDesc
  need (moverStatus sp.hm sp.own true false (p.pages, p.count * p.pageB))
  need (moverStatus sp.hm sp.own true false (p.descs, p.count * 16))
  .ok p

/-- The page table entry of a logical page (R172). -/
def Space.kvEntry (sp : Space) (r : KvRegion) (page : Nat) : Except Nat Nat := sp.num (r.addr + 64 + 8 * page) 8
/-- Store a page table entry. -/
def Space.setEntry (sp : Space) (r : KvRegion) (page e : Nat) : Except Nat Space := sp.write (r.addr + 64 + 8 * page) (natLE 8 e)
/-- An entry that maps a page: page number, private (R172). -/
def entryOf (page : Nat) (priv : Bool) : Nat := page + 2 ^ 24 + (if priv then 2 ^ 26 else 0)
/-- The page of an entry. -/
def entryPage (e : Nat) : Nat := fld e 23 0
/-- The entry maps a page. -/
def entryValid (e : Nat) : Bool := bitAt e 24

/-- A page descriptor (R173). -/
def Space.pageDesc (sp : Space) (p : KvPool) (page : Nat) : Except Nat Nat := sp.num (p.descs + 16 * page) 16
/-- Store a page descriptor. -/
def Space.setPageDesc (sp : Space) (p : KvPool) (page v : Nat) : Except Nat Space := sp.write (p.descs + 16 * page) (natLE 16 v)
/-- A page descriptor with new refs and state; pins and owner kept. -/
def pageWith (v refs state : Nat) : Nat := refs + fld v 31 16 * 2 ^ 16 + state * 2 ^ 32 + fld v 39 34 * 2 ^ 34
/-- The owner of a page. -/
def pageOwner (v : Nat) : Nat := fld v 39 34
/-- FREE 0, LIVE 1, COOLING 2. -/
def pageState (v : Nat) : Nat := fld v 33 32

/-- refs − 1 on a page; at 0 with no pins it is released to COOLING (R177). -/
def Space.unref (sp : Space) (p : KvPool) (page : Nat) : Except Nat Space := do
  let v ← sp.pageDesc p page
  let refs := fld v 15 0 - 1
  sp.setPageDesc p page (pageWith v refs (if refs = 0 && fld v 31 16 = 0 then 2 else pageState v))

/-- Take the lowest-numbered FREE page of an owner, cleared, with refs 1 and LIVE (R175, R179). The owner is the home of the
region, which is the issuing cluster, or the cluster it runs for after a fold (R335; DEDUCED, log 24). -/
def Space.takePage (sp : Space) (p : KvPool) (owner : Nat) : Except Nat (Space × Nat) := do
  let found ← (List.range p.count).foldl (fun acc i => acc.bind (fun f : Option Nat => match f with
    | some j => .ok (some j)
    | none => (sp.pageDesc p i).map (fun v => if pageState v = 0 && pageOwner v = owner then some i else none))) (.ok none)
  match found with
  | none => .error eLimit
  | some i =>
    let v ← sp.pageDesc p i
    let sp ← sp.write (p.pages + i * p.pageB) (List.replicate p.pageB 0)
    let sp ← sp.setPageDesc p i (pageWith v 1 1)
    .ok (sp, i)

/-- Bytes a position takes of a part, and where the part of slot s begins within its page (R171). -/
def KvRegion.part (r : KvRegion) (part slot : Nat) : Nat × Nat :=
  match part with
  | 0 => (r.keyB, slot * r.keyB)
  | 1 => (r.valB, 256 * r.keyB + slot * r.valB)
  | _ => (r.scB, 256 * (r.keyB + r.valB) + slot * r.scB)

/-- The device address of a position's part, under a page table entry (R171). -/
def kvAddr (r : KvRegion) (p : KvPool) (e part pos : Nat) : Nat := p.pages + entryPage e * p.pageB + (r.part part (pos % 256)).2

/-- One position read into row j of a store tensor (R181, R212): rows at or beyond the length read as +0. -/
def kvReadRow (r : KvRegion) (p : KvPool) (part : Nat) (d : Desc) (sp : Space) (j pos : Nat) : Except Nat Space := do
  demand (pos < r.maxLen) eLimit
  let e ← sp.kvEntry r (pos / 256)
  demand (entryValid e) eLimit
  let n := (r.part part 0).1
  let bs ← (if pos < r.length then sp.read (kvAddr r p e part pos) n else .ok (List.replicate n 0))
  sp.write (d.rowAddr j) bs

/-- The store side of a KV read or write of a part: row bytes and position count (R212). -/
def kvSideOk (r : KvRegion) (part : Nat) (d : Desc) : Bool :=
  moverTensorOk d && d.rowsApart && d.rowLen == (r.part part 0).1 && d.d2 == 1 && d.d3 == 1

/-- COPY KV_READ (R176, R181, R212). The pins it holds while it runs are gone when it completes. -/
def kvReadRun (recipes : List Recipe) (sp : Space) (q : Nat) : Except Nat MovOut := do
  demand (copyBodyOk q && copOf q == 1) eDesc
  let part := fld q 237 236
  let pos := fld q 235 216
  let d ← sp.desc recipes (fld q 95 72)
  let r ← sp.kvRegion (fld q 167 120)
  let p ← sp.kvPool r
  demand (kvSideOk r (if part = 3 then 0 else part) d) eDesc
  need (firstStatus (ownRangeStatus sp.hm sp.own) d.rowRanges)
  if part = 3 then
    let s ← sp.desc recipes (fld q 119 96)
    demand (kvSideOk r 1 s && s.d1 == d.d1 && !rangesMeet d.rowRanges s.rowRanges) eDesc
    need (firstStatus (ownRangeStatus sp.hm sp.own) s.rowRanges)
    .ok (runRows (fun sp j => do
      let sp ← kvReadRow r p 0 d sp j (pos + j)
      kvReadRow r p 1 s sp j (pos + j)) sp (List.range d.d1))
  else .ok (runRows (fun sp j => kvReadRow r p part d sp j (pos + j)) sp (List.range d.d1))

/-- COPY KV_WRITE (R174, R184, R212): whole entries at or above the region's length into private pages; the length then
stands one past the highest position written. -/
def kvWriteRun (recipes : List Recipe) (sp : Space) (q : Nat) : Except Nat MovOut := do
  demand (copyBodyOk q && copOf q == 2) eDesc
  let part := fld q 237 236
  let pos := fld q 235 216
  let s ← sp.desc recipes (fld q 119 96)
  let r ← sp.kvRegion (fld q 167 120)
  let p ← sp.kvPool r
  demand (kvSideOk r part s) eDesc
  need (firstStatus (ownRangeStatus sp.hm sp.own) s.rowRanges)
  demand (r.length ≤ pos) eDesc
  .ok (runRows (fun sp j => do
    let x := pos + j
    demand (x < r.maxLen) eLimit
    let e ← sp.kvEntry r (x / 256)
    demand (entryValid e && bitAt e 26) eDesc
    let bs ← sp.read (s.rowAddr j) s.rowLen
    let sp ← sp.write (kvAddr r p e part x) bs
    sp.write (r.addr + 4) (natLE 4 (x + 1))) sp (List.range s.d1))

/-- The region, pool and first page of a page operation by its home cluster (R175, R184). -/
def Space.pageOp (sp : Space) (q : Nat) : Except Nat (KvRegion × KvPool × Nat) := do
  let r ← sp.kvRegion (fld q 167 120)
  demand (sp.hm.home r.home == sp.own) eDesc
  let p ← sp.kvPool r
  .ok (r, p, fld q 235 216 / 256)

/-- A page operation whose effects apply all together. -/
def pageOut (sp : Space) (r : Except Nat Space) : MovOut :=
  match r with
  | .ok sp' => ⟨sp', 0⟩
  | .error e => ⟨sp, e⟩

/-- ALLOC (R175). -/
def allocRun (sp : Space) (q : Nat) : Except Nat MovOut := do
  demand (copyBodyOk q && copOf q == 3) eDesc
  let (r, p, a) ← sp.pageOp q
  demand (a < r.maxLen / 256) eLimit
  let e ← sp.kvEntry r a
  demand (!entryValid e) eDesc
  let (sp', page) ← sp.takePage p r.home
  .ok (pageOut sp (sp'.setEntry r a (entryOf page true)))

/-- SHARE (R175): refs + 1 and a copy of the entry with private = 0, page after page. Where the regions name different pools, on which the spec is
silent, the references are counted in the source's pool and the page number is copied (DESIGN CHOICE, log 137). -/
def shareRun (sp : Space) (q : Nat) : Except Nat MovOut := do
  demand (copyBodyOk q && copOf q == 4) eDesc
  let (r, _, a) ← sp.pageOp q
  let src ← sp.kvRegion (fld q 215 168)
  let p ← sp.kvPool src
  let pages := (List.range (fld q 251 240 + 1)).map (fun i => a + i)
  demand (pages.all (fun i => i < r.maxLen / 256 && i < src.maxLen / 256)) eLimit
  let chk ← pages.foldl (fun acc i => acc.bind (fun ok : Bool => do
    let es ← sp.kvEntry src i
    let ed ← sp.kvEntry r i
    .ok (ok && entryValid es && !entryValid ed))) (.ok true)
  demand chk eDesc
  .ok (runRows (fun sp i => do
    let es ← sp.kvEntry src i
    let v ← sp.pageDesc p (entryPage es)
    demand (fld v 15 0 < 65535) eLimit
    let sp ← sp.setPageDesc p (entryPage es) (pageWith v (fld v 15 0 + 1) (pageState v))
    sp.setEntry r i (entryOf (entryPage es) false)) sp pages)

/-- COW (R175, R176). -/
def cowRun (sp : Space) (q : Nat) : Except Nat MovOut := do
  demand (copyBodyOk q && copOf q == 5) eDesc
  let keep := fld q 176 168
  let (r, p, a) ← sp.pageOp q
  demand (a < r.maxLen / 256) eLimit
  let e ← sp.kvEntry r a
  demand (entryValid e) eDesc
  let (sp', page) ← sp.takePage p r.home
  let copyPart := fun (part : Nat) (sp : Space) => do
    let n := keep * (r.part part 0).1
    if n = 0 then .ok sp
    else
      let bs ← sp.read (kvAddr r p e part 0) n
      sp.write (kvAddr r p (entryOf page true) part 0) bs
  .ok (pageOut sp (do
    let s ← copyPart 0 sp'
    let s ← copyPart 1 s
    let s ← copyPart 2 s
    let s ← s.setEntry r a (entryOf page true)
    s.unref p (entryPage e)))

/-- FREE (R175, R177). -/
def freeRun (sp : Space) (q : Nat) : Except Nat MovOut := do
  demand (copyBodyOk q && copOf q == 6) eDesc
  let (r, p, a) ← sp.pageOp q
  let pages := (List.range (fld q 251 240 + 1)).map (fun i => a + i)
  demand (pages.all (fun i => i < r.maxLen / 256)) eLimit
  let chk ← pages.foldl (fun acc i => acc.bind (fun ok : Bool =>
    (sp.kvEntry r i).map (fun e => ok && (entryValid e || bitAt e 25)))) (.ok true)
  demand chk eDesc
  .ok (runRows (fun sp i => do
    let e ← sp.kvEntry r i
    let sp ← (if entryValid e then sp.unref p (entryPage e) else .ok sp)
    sp.setEntry r i 0) sp pages)

/-- Every FREE, LIVE or COOLING page at a hurdle: COOLING becomes FREE (R177). -/
def Space.coolPages (sp : Space) (p : KvPool) : Except Nat Space :=
  (List.range p.count).foldl (fun acc i => acc.bind (fun sp => do
    let v ← sp.pageDesc p i
    if pageState v = 2 then sp.setPageDesc p i (pageWith v (fld v 15 0) 0) else .ok sp)) (.ok sp)

end Sys2Proof.Machine
end

