-- ==== Sys2Proof/Machine/Queue.lean ====
section
/-! DEFINITION. Engine queues and channels (R40, R41, R46, R257, R286, R335), split records (R411, R412), and the memory one heat's
commands see. -/
namespace Sys2Proof.Machine

/-! Channels. -/

/-- The channel a consumer names (R41, R45, R286), its ends rebound by folds (R335): its index. -/
def Heat.waitChan (h : Heat) (own id : Nat) : Option Nat :=
  h.chans.findIdx? (fun c => h.runs c.def_.cons == own && c.def_.consId == id)
/-- The channel a producer names: its index. -/
def Heat.postChan (h : Heat) (own id : Nat) : Option Nat :=
  h.chans.findIdx? (fun c => match c.def_.prod with
    | some p => h.runs p == own && c.def_.prodId == id
    | none => false)
/-- Change a channel. -/
def Heat.modChan (h : Heat) (i : Nat) (f : Chan → Chan) : Heat := { h with chans := h.chans.modify i f }
/-- A slot or token is published and not taken (R46). -/
def Chan.ready (c : Chan) : Bool := c.taken < c.posted
/-- A slot is free for a producer (R46). -/
def Chan.room (c : Chan) : Bool := c.posted + c.reserved < c.returned + c.def_.slots
/-- The channel at an index satisfies a test. -/
def Heat.chanIs (h : Heat) (i : Option Nat) (t : Chan → Bool) : Bool :=
  match i.bind (fun k => h.chans[k]?) with
  | some c => t c
  | none => false

/-! Header fields of a command (R41). -/

/-- opcode. -/
def cmdOp (raw : Nat) : Nat := fld raw 7 0
/-- wait_chan_en. -/
def waitEn (raw : Nat) : Bool := bitAt raw 13
/-- post_chan_en. -/
def postEn (raw : Nat) : Bool := bitAt raw 14
/-- wait_chan. -/
def waitId (raw : Nat) : Nat := fld raw 23 16
/-- post_chan. -/
def postId (raw : Nat) : Nat := fld raw 31 24
/-- next_gap. -/
def nextGap (raw : Nat) : Nat := fld raw 63 48
/-- The queue an opcode belongs to (R42). -/
def opQueue (op : Nat) : Option (Fin 4) :=
  match op with
  | 0x01 | 0x02 => some 0
  | 0x10 | 0x11 => some 1
  | 0x20 | 0x21 | 0x22 => some 2
  | 0x30 | 0x31 | 0x32 => some 3
  | _ => none

/-! May a command start? -/

/-- A running cluster: its heat, its logical number and its image. -/
structure Site where
  /-- heat -/
  h : Fin 4
  /-- logical cluster -/
  own : Nat
  /-- image -/
  prog : Program
deriving DecidableEq, Repr

/-- The site of a cluster whose heat's commands run. -/
def State.site (s : State) (c : Fin 64) : Option Site :=
  match s.heatOfCl c with
  | some (h, own) => if (s.heat h).live then (s.heat h).image.map (fun p => ⟨h, own, p⟩) else none
  | none => none

/-- The cluster's handshakes are released: it is in Sprint or Stride and not entering or leaving it (R28, R357). -/
def Cluster.awake (k : Cluster) : Bool := (k.pc.st == .sprint || k.pc.st == .stride) && k.pc.move == .settled
/-- Transfers reach the cluster's own logic, its store included: its supply is not in, nor on the way to or from, Walk or Rest (R28). -/
def Cluster.reachable (k : Cluster) : Bool := k.pc.st != .walk && k.pc.st != .rest
/-- The cluster may start work: it is neither halted by R44, nor stopped for a dump, a restart or its retirement. -/
def Cluster.able (k : Cluster) : Bool :=
  k.halted.isNone && !k.frozen && !k.core.restarting && !k.retired && k.awake

/-- The waits on other queues are over: every earlier command there has completed (R41). -/
def Cluster.waitsOver (k : Cluster) (q : Fin 4) (e : QEntry) : Bool :=
  (List.finRange 4).all (fun j => j == q || !bitAt e.raw (8 + j.val) || k.queues[j].all (fun o => e.ord < o.ord))
/-- No earlier HURDLE is incomplete (R257). -/
def Cluster.pastHurdle (k : Cluster) (e : QEntry) : Bool :=
  k.queues[qLink].all (fun o => cmdOp o.raw != 0x32 || e.ord ≤ o.ord)
/-- Every earlier command on all four queues has completed, and no encode request is outstanding: a HURDLE may start (R257, R324). -/
def Cluster.drained (k : Cluster) (e : QEntry) : Bool :=
  k.queues.toList.all (fun l => l.all (fun o => e.ord ≤ o.ord)) && k.core.encs.all (fun r => match r.phase with
    | .done _ => true
    | _ => false)

/-- The head of a queue, where it has not started. -/
def Cluster.headWaiting (k : Cluster) (q : Fin 4) : Option QEntry :=
  match k.queues[q] with
  | [] => none
  | e :: _ => if e.phase = .waiting then some e else none

/-- A logical cluster of a heat is reachable: what is bound for it waits at the handshake until then (R28). -/
def State.reach? (s : State) (hi : Fin 4) (cl : Nat) : Bool := match (s.heat hi).clusterList[cl]? with
  | some c => (s.cl c).reachable
  | none => true
/-- The consumer of a channel is reachable (R28, R46). -/
def State.postReach (s : State) (hi : Fin 4) (i : Option Nat) : Bool :=
  match i.bind (fun k => (s.heat hi).chans[k]?) with
  | some c => s.reach? hi ((s.heat hi).runs c.def_.cons)
  | none => true
/-- The command at the head of a queue that may start now (R28, R40, R41, R46, R257). -/
def State.startable (s : State) (c : Fin 64) (q : Fin 4) : Option (Site × QEntry) :=
  let k := s.cl c
  match s.site c, k.headWaiting q with
  | some x, some e =>
    let h := s.heat x.h
    if k.able && k.waitsOver q e && k.pastHurdle e
      && (!waitEn e.raw || h.chanIs (h.waitChan x.own (waitId e.raw)) Chan.ready)
      && (!postEn e.raw || (h.chanIs (h.postChan x.own (postId e.raw)) Chan.room && s.postReach x.h (h.postChan x.own (postId e.raw))))
    then some (x, e) else none
  | _, _ => none

/-! Split records and completion. -/

/-- The engine accepts a command: its start latch (R411). -/
def State.latch (s : State) (c : Fin 64) (e : QEntry) : QEntry :=
  { e with startT := s.ticks, paceStart := (s.cl c).pc.st.num }

/-- Append a split record; a full ring loses its oldest (R412). -/
def Cluster.addSplit (k : Cluster) (r : SplitRec) : Cluster :=
  let full := 1024 ≤ k.splits.length
  { k with splits := (if full then k.splits.drop 1 else k.splits) ++ [r], splitSeq := k.splitSeq + 1,
           splitDropped := if full then k.splitDropped + 1 else k.splitDropped }

/-- A 32-bit split: a larger one is stored as 0xFFFF_FFFF (R412). -/
def split32 (n : Nat) : Nat := min n 0xFFFFFFFF

/-- The end latch of a command: its split record, and the queue's counters by what it took. How long it was busy and waited is timing:
free values (log 10). -/
def State.record (s : State) (c : Fin 64) (q : Fin 4) (e : QEntry) (status : Nat) : State :=
  let f := s.free
  let busy := Config.stages f
  let wc := Config.ticks f
  let wm := Config.ticks (f + 1)
  let wb := Config.stages (f + 1)
  let hc := match s.heatOfCl c with
    | some (h, _) => (s.heat h).hu.count % 2 ^ 32
    | none => 0
  let k := s.cl c
  let r : SplitRec := ⟨k.splitSeq, fld e.raw 47 32, cmdOp e.raw, q.val, hc, e.startT, s.ticks, split32 busy, split32 wc, split32 wm,
    split32 wb, if q = 0 then Config.ticks (f + 2) else 0, e.paceStart, k.pc.st.num, status⟩
  let s := { s.setCl c (k.addSplit r) with free := f + 3 }
  ((((s.bump 1 c.val q.val busy).bump 1 c.val (4 + q.val) wc).bump 1 c.val (8 + q.val) wm).bump 1 c.val (12 + q.val) wb).bumpBin
    1 c.val 30 (if busy < 128 then 0 else busy.log2 - 6)

/-- Remove the head of a queue. -/
def Cluster.popHead (k : Cluster) (q : Fin 4) : Cluster := { k with queues := k.queues.set q (k.queues[q].drop 1) }
/-- Replace the head of a queue. -/
def Cluster.setHead (k : Cluster) (q : Fin 4) (e : QEntry) : Cluster := { k with queues := k.queues.set q (e :: k.queues[q].drop 1) }
/-- Note the completion of a command (R359). -/
def Cluster.noteDone (k : Cluster) (q : Fin 4) (e : QEntry) (now : Nat) : Cluster :=
  { k with lastDone := k.lastDone.set q (some ⟨now, nextGap e.raw, e.blk, e.iss, e.last, k.splitSeq⟩) }

/-- Take the slot or token of wait_chan, and hold a slot of post_chan, as a command starts (R41, R46). -/
def Heat.takeChans (h : Heat) (own : Nat) (raw : Nat) : Heat :=
  let h := if waitEn raw then (match h.waitChan own (waitId raw) with
    | some i => h.modChan i (fun c => { c with taken := c.taken + 1 })
    | none => h) else h
  if postEn raw then (match h.postChan own (postId raw) with
    | some i => h.modChan i (fun c => { c with reserved := c.reserved + 1 })
    | none => h) else h
/-- Return the slot taken and publish the slot held, as a command completes (R41, R46). -/
def Heat.giveChans (h : Heat) (own : Nat) (raw : Nat) : Heat :=
  let h := if waitEn raw then (match h.waitChan own (waitId raw) with
    | some i => h.modChan i (fun c => { c with returned := c.returned + 1 })
    | none => h) else h
  if postEn raw then (match h.postChan own (postId raw) with
    | some i => h.modChan i (fun c => { c with reserved := c.reserved - 1, posted := c.posted + 1 })
    | none => h) else h

/-- A command completes with status OK (R41): its record, its channels, and the queue goes on. -/
def State.complete (s : State) (c : Fin 64) (q : Fin 4) (x : Site) (e : QEntry) : State :=
  let s := s.record c q e 0
  let s := s.modHeat x.h (fun h => h.giveChans x.own e.raw)
  (s.modCl c (fun k => (k.popHead q).noteDone q e s.now)).bump 1 c.val 16

/-! The memory of a heat as commands see it. -/

/-- The memory one cluster's mover reaches (R21, R32). -/
def State.space (s : State) (x : Site) : Space :=
  let h := s.heat x.h
  let cs := h.clusterList
  { hm := s.heatMap h x.prog, own := x.own, mem := h.mem, poison := h.poison, scratch := h.scratch, staging := h.staging,
    stores := cs.map (fun c => (s.cl c).store), fn := match cs[x.own]? with
      | some c => (s.cl c).fnTab
      | none => [] }
/-- Write stores back to the clusters of a list. -/
def State.putStores (s : State) : List (Fin 64) → List Mem → State
  | c :: cs, m :: ms => (s.modCl c (fun k => { k with store := m })).putStores cs ms
  | _, _ => s
/-- Write back what a mover command changed. -/
def State.putSpace (s : State) (x : Site) (sp : Space) : State :=
  let cs := (s.heat x.h).clusterList
  let s := s.modHeat x.h (fun h => { h with mem := sp.mem, poison := sp.poison, scratch := sp.scratch, staging := sp.staging })
  let s := s.putStores cs sp.stores
  match cs[x.own]? with
  | some c => s.modCl c (fun k => { k with fnTab := sp.fn })
  | none => s

/-- What a matrix or vector command of a cluster reads besides its own bits and store. -/
def State.engCtx (s : State) (c : Fin 64) (x : Site) : EngCtx :=
  let h := s.heat x.h
  { recipes := x.prog.recipes, seg := x.prog.seg, hm := s.heatMap h x.prog, own := x.own, seed := h.seed, step := h.step,
    fn := (s.cl c).fnTab }

end Sys2Proof.Machine
end

