-- ==== Sys2Proof/Machine/Job.lean ====
section
/-! DEFINITION. What a hurdle does to a heat: step records (R160), KV pools at a hurdle (R177, R178, R180), snapshots (R258), folds
(R335), feed rings and the window (R283, R284, R287), checkpoint writes (R344, R347), replies in request order (R387), and the state
a job starts and stops with (R395, R399). -/
namespace Sys2Proof.Machine

/-! Replies. -/

/-- Send every formed reply at the front of a session, and close one that has detached after its last (R387, R400); fuel bounds their
number. -/
def State.flushReplies (conn : Nat) : Nat → State → State
  | 0, s => s
  | n + 1, s =>
    match s.session conn with
    | some k => match k.replies with
      | (seq, heat, some (status, body)) :: rest =>
        State.flushReplies conn n ((s.modSession conn (fun k => { k with replies := rest })).sendMsg conn 0x40 status heat seq body)
      | [] => if k.closing then s.closeSession conn else s
      | _ => s
    | none => s
/-- Answer a request; a reply waits for those of earlier requests (R387). -/
def State.reply (s : State) (conn seq heat status : Nat) (body : Bytes) : State :=
  let s := s.modSession conn (fun k => { k with replies := k.replies ++ [(seq, heat, some (status, body))] })
  match s.session conn with
  | some k => State.flushReplies conn (k.replies.length + 1) s
  | none => s
/-- A request whose reply comes later (R399). -/
def State.deferReply (s : State) (conn seq heat : Nat) : State :=
  s.modSession conn (fun k => { k with replies := k.replies ++ [(seq, heat, none)] })
/-- Form a reply that was deferred (R387, R399). -/
def State.fillReply (s : State) (conn seq status : Nat) (body : Bytes) : State :=
  let s := s.modSession conn (fun k => { k with replies := k.replies.map (fun (r : Nat × Nat × Option (Nat × Bytes)) =>
    if r.1 = seq then (r.1, r.2.1, some (status, body)) else r) })
  match s.session conn with
  | some k => State.flushReplies conn (k.replies.length + 1) s
  | none => s

/-! Step records (R160). -/

/-- The 64 bytes of a step record. -/
def stepRecordBytes (n batch replica : Nat) : Bytes :=
  natLE 8 n ++ natLE 4 (ofInt32 n).toNat ++ natLE 4 0 ++ natLE 8 (n * batch) ++ natLE 40 (replica % 4096)
/-- Write the step record of step n for the logical clusters of a list, in the store each one's window names (R160, R335). -/
def State.stepRecords (s : State) (hi : Fin 4) (p : Program) (n : Nat) : State :=
  let h := s.heat hi
  let cs := h.clusterList
  (List.range cs.length).foldl (fun s c =>
    let off := p.stepRecord c
    if off = noDesc then s
    else match cs[h.runs c]? with
      | some k => s.modCl k (fun t => { t with store := t.store.put off (stepRecordBytes n p.batch h.hu.replica) })
      | none => s) s

/-! KV pools at a hurdle. -/

/-- The pool header at an address, read by the scheduler core (R173). -/
def Space.poolAt (sp : Space) (a : Nat) : KvPool :=
  let w := leNat (sp.bytes a 64)
  ⟨fld w 31 0, fld w 63 32, fld w 111 64, fld w 159 112, fld w 175 160⟩
/-- The region header at an address, read by the scheduler core (R171). -/
def Space.regionAt (sp : Space) (a : Nat) : KvRegion :=
  let w := leNat (sp.bytes a 64)
  ⟨a, fld w 31 0, fld w 63 32, fld w 111 64, fld w 117 112, bitAt w 118, fld w 143 128, fld w 159 144, fld w 175 160⟩
/-- The ranges of the pool record: descriptors, page tables and region lengths (R178). -/
def Space.kvRanges (sp : Space) (pools regions : List Nat) : List (Nat × Nat) :=
  (pools.map (fun a => let p := sp.poolAt a; (p.descs, 16 * p.count)))
    ++ regions.flatMap (fun a => let r := sp.regionAt a; [(a + 4, 4), (a + 64, r.maxLen / 256 * 8)])
/-- Save the record (R178). -/
def Space.kvSave (sp : Space) (pools regions : List Nat) : KvRecord :=
  (sp.kvRanges pools regions).map (fun r => (r.1, sp.bytes r.1 r.2))
/-- Write bytes; where a poisoned granule forbids it, nothing is written. -/
def Space.force (sp : Space) (a : Nat) (bs : Bytes) : Space :=
  match sp.write a bs with
  | .ok t => t
  | .error _ => sp
/-- Clear every position of a region from its length to the end of its page, where the region may write it: a shared page below another
region's length was written by no attempt (R174, R178). -/
def Space.kvTail (sp : Space) (a : Nat) : Space :=
  let r := sp.regionAt a
  let p := sp.poolAt r.pool
  let e := leNat (sp.bytes (a + 64 + 8 * (r.length / 256)) 8)
  if r.length < r.maxLen && entryValid e && bitAt e 26 then
    [0, 1, 2].foldl (fun sp part =>
      let n := (r.part part 0).1
      if n = 0 then sp else sp.force (kvAddr r p e part r.length) (List.replicate ((256 - r.length % 256) * n) 0)) sp
  else sp
/-- Restore the record of the last hurdle and clear what lies past the lengths (R178). -/
def Space.kvRestore (sp : Space) (rec_ : KvRecord) (regions : List Nat) : Space :=
  regions.foldl Space.kvTail (rec_.foldl (fun sp r => sp.force r.1 r.2) sp)
/-- FREE pages of a pool that a cluster owns. -/
def Space.freeOf (sp : Space) (p : KvPool) (own : Nat) : Nat :=
  ((List.range p.count).filter (fun i =>
    let v := leNat (sp.bytes (p.descs + 16 * i) 16)
    pageState v == 0 && pageOwner v == own)).length
/-- The first droppable mapping of a pool's pages owned by a cluster: (region address, logical page, page) (R180). A region may name its pool
through either window on memory (R21). -/
def Space.victim (sp : Space) (pool own : Nat) (regions : List Nat) : Option (Nat × Nat × Nat) :=
  let p := sp.poolAt pool
  regions.findSome? (fun a =>
    let r := sp.regionAt a
    if r.droppable && (canonAddr (r.pool, 64)).1 == (canonAddr (pool, 64)).1 then
      (List.range (r.maxLen / 256)).findSome? (fun i =>
        let e := leNat (sp.bytes (a + 64 + 8 * i) 8)
        let v := leNat (sp.bytes (p.descs + 16 * entryPage e) 16)
        if entryValid e && pageOwner v == own && fld v 15 0 == 1 then some (a, i, entryPage e) else none)
    else none)
/-- Drop pages of one owner until its reserve is met or no candidate is left (R180); fuel bounds the pages. Also counts them. -/
def dropFor (pool own : Nat) (regions : List Nat) : Nat → Space × Nat → Space × Nat
  | 0, x => x
  | n + 1, (sp, k) =>
    let p := sp.poolAt pool
    if sp.freeOf p own < p.reserve then
      match sp.victim pool own regions with
      | none => (sp, k)
      | some (a, i, page) =>
        let v := leNat (sp.bytes (p.descs + 16 * page) 16)
        let e := leNat (sp.bytes (a + 64 + 8 * i) 8)
        let sp := sp.force (a + 64 + 8 * i) (natLE 8 (setFld' e))
        dropFor pool own regions n (sp.force (p.descs + 16 * page) (natLE 16 (pageWith v 0 0)), k + 1)
    else (sp, k)
where
  /-- valid cleared, dropped set -/
  setFld' (e : Nat) : Nat := e - (if bitAt e 24 then 2 ^ 24 else 0) + (if bitAt e 25 then 0 else 2 ^ 25)
/-- Every pool at a hurdle that ends in GO: COOLING pages become FREE, pages are dropped for the reserves (R177, R180). -/
def Space.kvHurdle (sp : Space) (pools regions : List Nat) : Space × Nat :=
  let sp := pools.foldl (fun sp a => match sp.coolPages (sp.poolAt a) with
    | .ok t => t
    | .error _ => sp) sp
  pools.foldl (fun x a => (List.range 64).foldl (fun x own => dropFor a own regions (x.1.poolAt a).count x) x) (sp, 0)

/-- The site from which the scheduler core sees a heat's memory. -/
def State.schedSite (hi : Fin 4) (p : Program) : Site := ⟨hi, 0, p⟩

/-! Control cores and queues at a hurdle. -/

/-- A control core's state at the start of a program: pc 0, registers zero (R258). -/
def Core.fresh (k : Core) : Core :=
  { k with pc := 0, regs := Vector.replicate 32 0, running := true, restarting := false, issued := [], hurdleOpen := false,
           sums := [], encs := [] }
/-- The HURDLE at the head of the link queue that the cluster has reached. -/
def Cluster.headArrived (k : Cluster) : Option QEntry :=
  match k.queues[qLink] with
  | [] => none
  | e :: _ => if e.phase = .arrived then some e else none
/-- GO at one cluster: the HURDLE completes, unread summaries and encode completions are dropped, then the snapshot is taken (R151,
R258, R324). A request that has not completed waits on. -/
def Cluster.go (k : Cluster) (now : Nat) : Cluster :=
  let core := { k.core with sums := [], encs := k.core.encs.filter (fun r => match r.phase with
                              | .done _ => false
                              | _ => true), hurdleOpen := false,
                            snap := some ⟨k.core.pc, k.core.regs, k.dmem⟩ }
  match k.headArrived with
  | some e => { (k.popHead qLink).noteDone qLink e now with core := core }
  | none => { k with core := core }
/-- The control core returns to its step-start state, its queues empty (R258, R269); prog is the instruction memory of a fold that
takes effect now, whose start at address 0 with registers zero is the step-start state from then on (R258, R335). -/
def Cluster.rewind (k : Cluster) (foldProg : Option Bytes) : Cluster :=
  let d := (k.core.snap.map Snapshot.dmem).getD []
  let base := { k with queues := Vector.replicate 4 [], halted := none, dmem := d }
  let core := { k.core.fresh with restarting := k.core.restarting }
  match foldProg, k.core.snap with
  | some p, t => { base with
      imem := Mem.put [] 0 p, core := { core with snap := t.map (fun t => { t with pc := 0, regs := Vector.replicate 32 0 }) } }
  | none, some t => { base with core := { core with pc := t.pc, regs := t.regs } }
  | none, none => { base with core := core }
/-- Encode requests at a false start: each is dropped or discarded (R324). The cluster's queues lose every command; the head of
each leaves a record with E_LATE, but for one that waits only to enter its summary, which has finished (R269, R412). -/
def State.abandonHeads (s : State) (c : Fin 64) : State :=
  (List.finRange 4).foldl (fun (s : State) (q : Fin 4) => match (s.cl c).queues[q] with
    | [] => s
    | e :: _ => match e.phase with
      | .summary _ => (s.record c q e 0).bump 1 c.val 16
      | .waiting => s.record c q (s.latch c e) eLate
      | _ => s.record c q e eLate) s

/-! The sample window at a hurdle (R283, R284, R287, R291). -/

/-- The sample indices of step n that a replica owns, in slot order (R59, R60). -/
def Program.ownSamples (p : Program) (replica n : Nat) : List Nat :=
  let (first, cnt) := p.ownSlots replica
  (List.range cnt).map (fun i => n * p.batch + first + i)
/-- Clear the feed rings (R287). -/
def Heat.clearFeeds (h : Heat) : Heat :=
  { h with chans := h.chans.map (fun c => if c.def_.prod.isNone then { c with reserved := 0, posted := 0, taken := 0, returned := 0 } else c) }
/-- Begin posting the samples of a step: those already ready, in slot order (R287). -/
def Heat.beginPosting (h : Heat) (p : Program) (n : Nat) : Heat :=
  let h := h.clearFeeds
  let own := p.ownSamples h.hu.replica n
  let ready := own.filter (fun i => h.pipe.samples.any (fun x => x.idx == i && x.phase == .ready))
  { h with pipe := { h.pipe with
      step := n, posting := true, order := ready, sent := List.replicate p.feedCount 0
      samples := h.pipe.samples.map (fun x => { x with posted := false }) } }
/-- Release the decoded space of the step that ended: its samples leave the window (R284). -/
def Heat.releaseStep (h : Heat) (p : Program) (n : Nat) : Heat :=
  { h with pipe := { h.pipe with samples := h.pipe.samples.filter (fun x => (n + 1) * p.batch ≤ x.idx) } }

/-! Folds (R335). -/

/-- Pairs with one cluster retired and no fold in effect: (retired, survivor) as logical clusters (R335). -/
def State.dueFolds (s : State) (h : Heat) : List (Nat × Nat) :=
  let cs := h.clusterList
  let dead := fun (l : Nat) => match cs[l]? with
    | some c => (s.cl c).retired
    | none => false
  (List.range cs.length).filterMap (fun l =>
    let mate := if l % 2 = 0 then l + 1 else l - 1
    if dead l && !dead mate && !(h.folds.any (fun f => f.1 == l)) then some (l, mate) else none)
/-- A fold is reported with its pair and an estimate of the new step time, and recorded (R336, R417). -/
def State.reportFold (s : State) (hi : Fin 4) (f : Nat × Nat) : State :=
  let h := s.heat hi
  let est := Config.foldEstimate s.free
  let s := s.useFree.report 0x06 hi.val eFolded h.hu.step (natLE 4 (f.1 / 2) ++ natLE 8 est)
  s.journal 10 eFolded 9 ((h.clusterList[f.1]?.map Fin.val).getD 0) 0
/-- Put the due folds of a heat into effect (R269 step 5, R335): reported and recorded. The survivors' programs are loaded by
`rewind`. -/
def State.applyFolds (s : State) (hi : Fin 4) : State :=
  let h := s.heat hi
  (s.dueFolds h).foldl (fun s f =>
    let s := s.modHeat hi (fun h => { h with folds := h.folds ++ [f] })
    let s := [f.1, f.2].foldl (fun s l => match h.clusterList[l]? with
      | some c => s.modCl c (fun k => { k with folded := true })
      | none => s) s
    s.reportFold hi f) s

/-! GO (R239, R264). -/

/-- The lower median of a list of times. -/
def lowMedian (ts : List Nat) : Nat := (sortBy (fun a b => decide (a ≤ b)) ts).getD ((ts.length - 1) / 2) 0
/-- A checkpoint write of an earlier step that still reads a copy step n writes next: it holds the step record (R346). -/
def Ckpt.holds (k : Ckpt) (n : Nat) : Bool :=
  (k.flash.any (fun w => w.step < n)) || (k.store.any (fun w => w.step < n))
/-- K_s of the step whose DECIDE gave a window (R347). -/
def storeEvery (job : Job) (winMs : Nat) : Nat :=
  if winMs = 0 then 1 else pow2Floor (max 1 (4 * job.storeInterval * 1000 / winMs))
/-- Is a drive live. -/
def State.driveLive (s : State) (d : Fin 2) : Bool := s.com.store.drives[d].ready && !s.com.store.drives[d].retired
/-- Count n bytes on the drives, striped over both (R345, R409, R421): counter 0 written, 1 read. -/
def State.countDrives (s : State) (idx n : Nat) : State :=
  if s.driveLive 0 && s.driveLive 1 then (s.bump 7 0 idx (n - n / 2)).bump 7 1 idx (n / 2)
  else if s.driveLive 0 then s.bump 7 0 idx n
  else if s.driveLive 1 then s.bump 7 1 idx n
  else s
/-- Bytes written to the drives. -/
def State.countWrite (s : State) (n : Nat) : State := s.countDrives 0 n
/-- Bytes read from the drives. -/
def State.countRead (s : State) (n : Nat) : State := s.countDrives 1 n
/-- A slot whose piece can be read: VALID, on drives that are live (R332, R345). -/
def State.slotLive (s : State) (x : FlashSlot) : Bool :=
  x.state == .valid && (!bitAt x.on 0 || s.driveLive 0) && (!bitAt x.on 1 || s.driveLive 1)
/-- The slot table, a piece that can no longer be read as an EMPTY slot. -/
def State.slotTable (s : State) : List FlashSlot :=
  s.com.store.slots.map (fun x => if x.state == .valid && !s.slotLive x then FlashSlot.none else x)
/-- R344 still keeps the piece in slot x for its heat, whose interval is k. -/
def keptSlot (k : Nat) (slots : List FlashSlot) (x : FlashSlot) : Bool :=
  let level := fun (st : Nat) => min 12 (ctz 12 (st + 1))
  x.state == .valid && (List.range 13).any (fun j => k.log2 ≤ j && j ≤ level x.step
    && slots.all (fun y => !(y.state == .valid && y.heat == x.heat && x.step < y.step && j ≤ level y.step)))
/-- The local flash slot a write of a heat takes: an EMPTY one, or the first of its own that R344 no longer keeps. -/
def freeSlot (k heat : Nat) (slots : List FlashSlot) : Option Nat :=
  (slots.findIdx? (fun x => x.state == .empty)).or (slots.findIdx? (fun x => x.heat == heat && !keptSlot k slots x))
/-- LBAs of 4,096 bytes of an NVMe drive of 3.84 TB (R345). -/
def driveLbas : Nat := 937500000
/-- The first LBA of the top 8 GiB of a drive, which dumps take (R421). -/
def dumpLba : Nat := driveLbas - 2097152
/-- Drives now live, as a mask. -/
def State.liveMask (s : State) : Nat := (if s.driveLive 0 then 1 else 0) + (if s.driveLive 1 then 2 else 0)
/-- LBAs on each drive of a piece striped over the drives of a mask in units of 1 MiB (R345). -/
def stripeLbas (on bytes : Nat) : Nat := 256 * (if on = 3 then ceilDiv (ceilDiv bytes mib) 2 else ceilDiv bytes mib)
/-- The drive and its first LBA of stripe unit u of a piece (R345). -/
def FlashSlot.unit (x : FlashSlot) (u : Nat) : Nat × Nat :=
  if x.on = 3 then (u % 2, x.startLba + 256 * (u / 2)) else (if bitAt x.on 0 then 0 else 1, x.startLba + 256 * u)
/-- The 64-byte table entry of a slot (R345). -/
def FlashSlot.entry (x : FlashSlot) : Bytes :=
  let st := match x.state with
    | .empty => 0
    | .writing => 1
    | .valid => 2
  natLE 32 (x.step % 2 ^ 64 + st * 2 ^ 64 + x.level % 16 * 2 ^ 66 + x.startLba % 2 ^ 48 * 2 ^ 128) ++ bytesAt x.digest 0 32
/-- The slot table at LBA 0 of both drives (R345). -/
def State.slotTableBytes (s : State) : Bytes := s.com.store.slots.flatMap FlashSlot.entry
/-- The lowest start_lba from which n LBAs of each drive are free of other slots, above the table's first MiB (DESIGN CHOICE, log 80). -/
def flashPlace (used : List (Nat × Nat)) (n : Nat) : Option Nat :=
  ((256 :: used.map (fun r => r.1 + r.2)).filter (fun a => a + n ≤ dumpLba && !used.any (fun r => overlaps a n r.1 r.2))).min?
/-- Bytes of a FLASH or STORE piece: header and payload (R340). -/
def Program.pieceLen (p : Program) : Nat := 4096 + (p.ckpts.map (fun r => roundUp r.len 4096)).sum
/-- The slot a write of step n takes and its entry marked WRITING, where the heat's share of the drives has the room (R31, R344, R345, R396; log
80). -/
def State.flashSlotFor (s : State) (hi : Fin 4) (p : Program) (n : Nat) (slots : List FlashSlot) : Option (Nat × FlashSlot) :=
  let h := s.heat hi
  (freeSlot h.ck.k hi.val slots).bind (fun i =>
    let others := (slots.eraseIdx i).filter (fun x => x.state != .empty)
    let size := stripeLbas s.liveMask p.pieceLen
    let mine := ((others.filter (fun x => x.heat == hi.val)).map FlashSlot.lbas).sum
    if s.liveMask = 0 ∨ fld h.adm 54 48 * driveLbas < 64 * (mine + size) then none
    else (flashPlace (others.map (fun x => (x.startLba, x.lbas))) size).map (fun a =>
      (i, ⟨n, .writing, 0, [], [], s.liveMask, a, size, hi.val⟩)))
/-- A half whose payload is being hashed for step n (R342). -/
def halfHashing (x : Half) (n : Nat) : Half := { x with hashing := some n }
/-- The checkpoint writes that begin at the GO ending step n (R342, R344, R345, R347, R400). -/
def State.startCheckpoints (s : State) (hi : Fin 4) (p : Program) (n : Nat) : State :=
  let h := s.heat hi
  match h.job with
  | none => s
  | some job =>
    let named := h.ck.extra.filter (fun e => e.1 == n)
    let fl := if ((n + 1) % h.ck.k == 0 || named.any (fun e => e.2.1)) && h.ck.flash.isNone then s.flashSlotFor hi p n s.slotTable else none
    let ks := storeEvery job h.hu.stepWin.2
    let st := ((n + 1) % ks == 0 || named.any (fun e => e.2.2)) && job.storeStride != 0
    let table := s.slotTable
    let s := s.modHeat hi (fun h => { h with ck := { h.ck with
      halves := h.ck.halves.setIfInBounds (n % 2) (halfHashing (h.ck.halves.toList.getD (n % 2) ⟨false, 0, none⟩) n)
      hashing := h.ck.hashing ++ [n]
      extra := h.ck.extra.filter (fun e => e.1 != n)
      flash := match fl with
        | some x => some ⟨n, x.1, s.now⟩
        | none => h.ck.flash
      store := if st && h.ck.store.isNone then some ⟨n, (n + 1) / ks % 2, s.now⟩ else h.ck.store } })
    match fl with
    | some x => s.modStore (fun k => { k with slots := table.set x.1 x.2 })
    | none => s

/-- GO at one cluster, with the record of its HURDLE (R258, R411). -/
def State.goCluster (s : State) (c : Fin 64) : State :=
  let s := match (s.cl c).headArrived with
    | some e => (s.record c qLink e 0).bump 1 c.val 16
    | none => s
  s.modCl c (fun k => if k.retired then k else k.go s.now)
/-- The start hurdle's GO at one cluster: its control core starts (R258). -/
def State.startCluster (s : State) (c : Fin 64) : State :=
  s.modCl c (fun k => if k.retired then k else { k with core := k.core.fresh })

/-- The time a checkpoint write held a GO is counted as a stall of every cluster's link queue, whose HURDLE waits for it (R346; DESIGN CHOICE,
log 145). -/
def State.countGoHold (s : State) (hi : Fin 4) : State :=
  let u := (s.heat hi).hu
  if u.goHeld then
    (s.heat hi).clusterList.foldl (fun s c => if (s.cl c).retired then s else s.bump 1 c.val 11 ((s.now - u.goHeldAt) / 64)) s
  else s
/-- The second half of a GO, once the scheduler core writes the step records: HURDLEs complete, snapshots are taken, the pools and the
window move on, checkpoints begin (R151, R160, R177, R178, R180, R258, R284, R287, R342 to R347). n is the step that ended; none for the
start hurdle. -/
def State.finishGo (s : State) (hi : Fin 4) (p : Program) (n : Option Nat) : State :=
  let x := State.schedSite hi p
  let s := s.countGoHold hi
  let s := s.stepRecords hi p (s.heat hi).hu.step
  let (sp, drops) := (s.space x).kvHurdle p.pools p.regions
  let s := (s.putSpace x sp).bump 8 hi.val 20 drops
  let s := s.modHeat hi (fun h => { h with kv := sp.kvSave p.pools p.regions })
  let cs := (s.heat hi).clusterList
  let s := if n.isSome then cs.foldl State.goCluster s else cs.foldl State.startCluster s
  let s := s.modHeat hi (fun h =>
    let h := match n with
      | some n => h.releaseStep p n
      | none => h
    let h := { h with chans := h.chans.map (fun (c : Chan) => { c with atGo := (c.posted, c.taken) }) }
    { (h.beginPosting p h.hu.step) with live := true, hu := { h.hu with owed := false, goHeld := false } })
  match n with
  | some n => s.startCheckpoints hi p n
  | none => s

/-- The time of the attempt under way, from the DECIDE that began it, less the time held (R266); and that held time. -/
def State.stepTime (s : State) (hu : Hurdle) : Nat × Nat :=
  let held := hu.heldTime + (match hu.heldSince with | some t => s.now - t | none => 0)
  (s.now - hu.decideAt - held, held)
/-- What a DECIDE GO does at once: the count and the step advance, the bank of the ending parity is cleared, the step is counted and
reported (R239, R264, R266, R393). -/
def State.advanceGo (s : State) (hi : Fin 4) (windowMs : Nat) : State :=
  let h := s.heat hi
  let hu := h.hu
  let start := hu.count = 0
  let (dt, held) := s.stepTime hu
  let parity := hu.count % 2
  let s := s.modHeat hi (fun h => { h with
    arrivals := h.arrivals.filter (fun a => a.1 / 4096 % 2 != parity)
    hu := { hu with
      count := hu.count + 1
      step := if start then hu.step else hu.step + 1
      lastGo := if start then hu.lastGo else some hu.step
      arrived := false, sentArrive := false, arriveAt := none, hung := false
      windowMs := windowMs, decideMs := windowMs, stepWin := (windowMs, hu.stepWin.1), decideAt := s.now
      heldTime := 0, heldSince := hu.heldSince.map (fun _ => s.now), heldHangs := 0
      times := if start then hu.times else (dt :: hu.times).take 64
      goGaps := match hu.goAt with
        | some t => if start then hu.goGaps else ((s.now - t) :: hu.goGaps).take 64
        | none => hu.goGaps
      goAt := some s.now
      falseStarts := 0, mismatched := [] } })
  if start then s
  else
    let ms10 := dt / (10 * milli)
    let s := (s.bump 8 hi.val 0).bumpBin 8 hi.val 21 (if ms10 < 2 then 0 else ms10.log2)
    s.report 0x02 hi.val 0 hu.step (natLE 8 (dt / micro) ++ natLE 8 (held / micro))

/-! The state a job stops with (R264, R395). -/

/-- The job of a heat stops with a status: its clusters issue no more, the heat is STOPPED, a START still waiting is answered (R395,
R399). -/
def State.stopJob (s : State) (hi : Fin 4) (status reason : Nat) : State :=
  let h := s.heat hi
  let s := h.clusterList.foldl (fun s c => s.modCl c (fun k => { k with core := { k.core with running := false } })) s
  let s := s.modHeat hi (fun h => { h with phase := .stopped, live := false, status := status,
                                           job := h.job.map (fun j => { j with startReq := none }) })
  let s := s.report 0x04 hi.val status h.hu.step (natLE 4 reason ++ natLE 4 h.hu.count)
  match h.job.bind Job.startReq with
  | some (conn, seq) => s.fillReply conn seq status []
  | none => s

end Sys2Proof.Machine
end

