-- ==== Sys2Proof/Machine/EncodeCore.lean ====
section
/-! DEFINITION. The encode pipelines' view of a request (R325, R326): its checks, the source it reads, the stream it writes. -/
namespace Sys2Proof.Machine

/-- width of a request. -/
def encW (q : Nat) : Nat := fld q 27 16 + 1
/-- height. -/
def encH (q : Nat) : Nat := fld q 39 28 + 1
/-- Bytes of one source picture: planar 8-bit 4:2:0 (R325). -/
def encPicture (q : Nat) : Nat := encW q * encH q * 3 / 2
/-- Pictures. -/
def encPics (q : Nat) : Nat := fld q 55 40 + 1
/-- The fields of a request obey R325. -/
def encFieldsOk (q : Nat) : Bool :=
  let refresh := fld q 14 8
  fld q 1 0 ≤ 1 && (fld q 1 0 == 0 || fld q 7 2 ≤ 51) && (refresh == 0 || (2 ≤ refresh && refresh ≤ 64)) && rsv q 15 15
    && encW q % 8 == 0 && 64 ≤ encW q && encW q ≤ 4096 && encH q % 8 == 0 && 64 ≤ encH q && encH q ≤ 4096
    && encW q * encH q ≤ 4096 * 2304 && 1 ≤ fld q 63 56 && fld q 63 56 ≤ 16
    && fld q 111 64 % 256 == 0 && fld q 159 112 % 256 == 0 && encPicture q ≤ fld q 159 112
    && fld q 207 160 % 256 == 0 && fld q 255 208 % 256 == 0 && rsv q 319 264 && rsv q 511 384
/-- A memory range an encode request may reach (R326). -/
def encRange (h : HeatMap) (a n : Nat) : Bool :=
  n == 0 || (a + n ≤ h.programTop && !(h.samples.any (fun r => overlaps a n r.1 r.2)))
/-- The source ranges, one for each picture. -/
def encSource (q : Nat) : List (Nat × Nat) :=
  (List.range (encPics q)).map (fun i => (fld q 111 64 + i * fld q 159 112, encPicture q))

/-! The stream (R326). -/

/-- The 64-pixel block columns picture n intra-codes, first and the one after the last; none outside a refresh sweep: sweep k begins at
picture kN, k at least 1. -/
def encColumns (q n : Nat) : Nat × Nat :=
  let N := fld q 14 8
  let C := ceilDiv (encW q) 64
  if N = 0 ∨ n < N then (0, 0) else (n % N * C / N, (n % N + 1) * C / N)
/-- A refresh sweep begins at picture n. -/
def encSweepStart (q n : Nat) : Bool := fld q 14 8 != 0 && n != 0 && n % fld q 14 8 == 0
/-- A metadata OBU of type 24 with recovery_frames n, in the low-overhead format (R319, R326; its framing is AV1's, PRESUMED, log 152). -/
def refreshObu (n : Nat) : Bytes := [0x2A, 6, 24, 0x5A, 0x47, 1] ++ natLE 1 n ++ [0x80]
/-- What goes before a coded picture: AV1's temporal delimiter; sequence headers at the start and at a sweep start, and at a sweep start
the refresh metadata OBU or the recovery point SEI message. -/
def encPrefix (q n : Nat) : Bytes :=
  let av1 := fld q 1 0 == 0
  let N := fld q 14 8
  (if av1 then [0x12, 0] else []) ++ (if n = 0 ∨ encSweepStart q n = true then Config.sequenceHeader q else [])
    ++ (if encSweepStart q n then (if av1 then refreshObu N else Config.recoverySei (N - 1)) else [])
/-- The stream from picture n on, each picture predicted from the previous reconstruction only; picture 0 is the key picture. -/
def encStream (q : Nat) : Nat → Bytes → List Bytes → Bytes
  | _, _, [] => []
  | n, prev, src :: rest =>
    let (a, b) := encColumns q n
    encPrefix q n ++ Config.codedPicture q (n == 0) (64 * a) (64 * b) src prev
      ++ encStream q (n + 1) (Config.reconPicture q (n == 0) (64 * a) (64 * b) src prev) rest

/-- How a request ends: its status, the bytes of stream written, and memory after it (R326). -/
def encodeRun (stamp : Nat) (sp : Space) (q : Nat) (tagFail : Bool) : Nat × Nat × Space :=
  let src := encSource q
  let dst := fld q 207 160
  let size := fld q 255 208
  if !encFieldsOk q then (eDesc, 0, sp)
  else if !(src.all (fun r => encRange sp.hm r.1 r.2) && encRange sp.hm dst size) then (eLimit, 0, sp)
  else
    let stream := encStream q 0 [] (src.map (fun r => sp.bytes r.1 r.2))
    let bad := tagFail || src.any (fun r => (granulesOf sp.hm r.1 r.2).any sp.poison.contains)
    let n := if bad then min (Config.encodeStop stamp) (min stream.length size) else min stream.length size
    (if bad then eCheck else if size ≤ stream.length then eLimit else 0, n, sp.force dst (stream.take n))

/-- Write a request's status and bytes_out (R325). -/
def State.encStatus (s : State) (c : Fin 64) (off st n : Nat) : State :=
  s.modCl c (fun k => { k with store := (k.store.put (off + 32) (natLE 1 st)).put (off + 40) (natLE 8 n) })
/-- A request is running. -/
def encBusy (r : EncReq) : Bool := match r.phase with | .running _ _ => true | _ => false
/-- A running request ends: the stream, the status and bytes_out are written (R325, R326). -/
def State.encodeEnd (s : State) (c : Fin 64) (x : Site) (off q : Nat) (tagFail : Bool) : State × Nat :=
  let (status, n, sp) := encodeRun s.free (s.space x) q tagFail
  (((s.useFree).putSpace x sp).encStatus c off status n, status)

end Sys2Proof.Machine
end

