-- ==== Sys2Proof/Machine/BlockCode.lean ====
section
/-! DEFINITION. Route headers and link trailers (R218, R219), block headers and codings (R243 to R246, R249). -/
namespace Sys2Proof.Machine

/-- A number with the field [hi:lo] replaced. -/
def setFld (w hi lo v : Nat) : Nat := w - fld w hi lo * 2 ^ lo + v % 2 ^ (hi + 1 - lo) * 2 ^ lo

/-- Bytes in a block of a SEND: 127 granules (R237). -/
def blockBytes : Nat := 4064

/-- The route header of a block's flits before sub, first, last and len are set (R218). -/
def dataHdr (vc : Nat) (rawOnly : Bool) (dest src tag epoch : Nat) (baton : Bool) (off half : Nat) : Nat :=
  vc * 2 ^ 3 + (if rawOnly then 2 ^ 7 else 0) + dest * 2 ^ 8 + src * 2 ^ 20 + tag * 2 ^ 45 + epoch * 2 ^ 57
    + (if baton then 2 ^ 59 else 0) + off * 2 ^ 60 + half * 2 ^ 88
/-- The route header of a LINK_CTL, ACK or HURDLE flit, all on virtual channel 3 (R218, R220). -/
def ctlHdr (type dest src epoch : Nat) : Nat := type + 3 * 2 ^ 3 + dest * 2 ^ 8 + src * 2 ^ 20 + 256 * 2 ^ 36 + epoch * 2 ^ 57
/-- Flit type (R220). -/
def hdrType (h : Nat) : Nat := fld h 2 0
/-- Destination module. -/
def hdrDest (h : Nat) : Nat := fld h 19 8
/-- Source module. -/
def hdrSrc (h : Nat) : Nat := fld h 31 20
/-- Virtual channel. -/
def hdrVc (h : Nat) : Nat := fld h 4 3
/-- Sub-stream. -/
def hdrSub (h : Nat) : Nat := fld h 35 32
/-- Payload bytes used. -/
def hdrLen (h : Nat) : Nat := fld h 44 36
/-- Landing offset in granules. -/
def hdrOff (h : Nat) : Nat := fld h 81 60
/-- Epoch. -/
def hdrEpoch (h : Nat) : Nat := fld h 58 57

/-- The 280 bytes of a flit: header, payload and trailer with its link CRC (R218, R219, R251). -/
def flitBytes (hdr : Nat) (pay : Bytes) (seq ack cvc ccount : Nat) : Bytes :=
  let t := seq % 4096 + ack % 4096 * 2 ^ 12 + cvc * 2 ^ 24 + ccount * 2 ^ 26
  let b := natLE 16 hdr ++ bytesAt pay 0 256 ++ natLE 4 t
  b ++ natLE 4 (crc32 b)

/-- The code words of a table: (exponent, length, code), in order of length, then value (R245). -/
def canonCodes (lens : List Nat) : List (Nat × Nat × Nat) :=
  let syms := (List.range 15).flatMap (fun l =>
    (List.range 256).filterMap (fun v => if lens.getD v 0 = l + 1 then some (v, l + 1) else none))
  (syms.foldl (fun (a : List (Nat × Nat × Nat) × Option (Nat × Nat)) p =>
    let code := match a.2 with
      | none => 0
      | some (c, l) => (c + 1) * 2 ^ (p.2 - l)
    (a.1 ++ [(p.1, p.2, code)], some (code, p.2))) ([], none)).1
/-- A table obeys the bound on its lengths (R245). -/
def tableOk (t : CodeTable) : Bool :=
  (t.cls == 1 || t.cls == 2) && t.lens.length == 256 && t.lens.all (· ≤ 15)
    && ((t.lens.map (fun l => if l = 0 then 0 else 2 ^ (15 - l))).sum ≤ 2 ^ 15)
/-- The bits of a number, most significant first. -/
def bitsMsb (n v : Nat) : List Bool := (List.range n).map (fun i => bitAt v (n - 1 - i))
/-- The number of a bit list, most significant first. -/
def msbNat (bs : List Bool) : Nat := bs.foldl (fun a b => 2 * a + if b then 1 else 0) 0
/-- Bits packed into bytes from the most significant bit, zero-filled (R244); fuel bounds the bytes. -/
def packMsb : Nat → List Bool → Bytes
  | 0, _ => []
  | n + 1, bs => if bs.isEmpty then [] else
    BitVec.ofNat 8 (msbNat (bs.take 8 ++ List.replicate (8 - (bs.take 8).length) false)) :: packMsb n (bs.drop 8)
/-- The exponent byte and the residual of element i of a class (R243). -/
def splitElem (cls : Nat) (raw : Bytes) (i : Nat) : Nat × Nat :=
  if cls = 1 then
    let w := leAt raw (4 * i) 4
    (fld w 30 23, fld w 31 31 * 2 ^ 23 + fld w 22 0)
  else
    let w := leAt raw (2 * i) 2
    (fld w 14 7, fld w 15 15 * 2 ^ 7 + fld w 6 0)
/-- The bytes of an element from its exponent and residual (R243). -/
def joinElem (cls ex res : Nat) : Bytes :=
  if cls = 1 then natLE 4 (fld res 23 23 * 2 ^ 31 + ex * 2 ^ 23 + fld res 22 0)
  else natLE 2 (fld res 7 7 * 2 ^ 15 + ex * 2 ^ 7 + fld res 6 0)
/-- Bytes of an element of a class. -/
def clsBytes (cls : Nat) : Nat := if cls = 1 then 4 else 2

/-- The framed bytes of a block in RAW (R243). -/
def plainBlock (raw : Bytes) (check : Nat) : Bytes := natLE 8 ((raw.length / 32 - 1) * 2 ^ 4 + check * 2 ^ 32) ++ raw
/-- The framed bytes of a block in RAW or ZERO, as its bytes decide (R243, R246). -/
def rawBlock (raw : Bytes) (check : Nat) : Bytes :=
  if raw.all (· == 0) then natLE 8 (3 + (raw.length / 32 - 1) * 2 ^ 4 + check * 2 ^ 32) else plainBlock raw check
/-- The framed bytes of a block coded against a table, where every exponent has a code and the stream is short enough (R246). -/
def codedBlock (t : CodeTable) (gen : Nat) (raw : Bytes) (check : Nat) : Option Bytes :=
  let n := raw.length / clsBytes t.cls
  let codes := canonCodes t.lens
  let es := (List.range n).map (splitElem t.cls raw)
  let words := es.map (fun e => codes.find? (fun c => c.1 == e.1))
  if words.all Option.isSome then
    let bits := (words.filterMap id).flatMap (fun c => bitsMsb c.2.1 c.2.2)
    let stream := packMsb (bits.length / 8 + 1) bits
    if stream.length < n then
      let hdr := t.cls + gen * 4 + (raw.length / 32 - 1) * 2 ^ 4 + stream.length * 2 ^ 11 + check * 2 ^ 32
      some (natLE 8 hdr ++ stream ++ es.flatMap (fun e => natLE (clsBytes t.cls - 1) e.2))
    else none
  else none
/-- The coding a transmitter chooses (R246): cls is the class of the source format, 0 for neither FP32 nor BF16. Beside the framed bytes, the
generation of the table that codes it. -/
def chooseBlock (tables : List (Option (CodeTable × Bool))) (rawOnly : Bool) (cls : Nat) (raw : Bytes) (check : Nat) :
    Bytes × Option Nat :=
  if raw.all (· == 0) || rawOnly || cls == 0 then (rawBlock raw check, none)
  else
    let coded := (tables.mapIdx (fun g t => match t with
      | some (t, true) => if t.cls = cls then (codedBlock t g raw check).map (fun b => (b, some g)) else none
      | _ => none)).filterMap id
    coded.headD (rawBlock raw check, none)

/-- Read one symbol of an exponent stream: its value and the bits left (R244, R245). -/
def readSym (codes : List (Nat × Nat × Nat)) (bits : List Bool) : Option (Nat × List Bool) :=
  (codes.find? (fun c => c.2.1 ≤ bits.length && bitsMsb c.2.1 c.2.2 == bits.take c.2.1)).map (fun c => (c.1, bits.drop c.2.1))
/-- Read n symbols: the values and the bits left. -/
def readSyms (codes : List (Nat × Nat × Nat)) : Nat → List Bool → Option (List Nat × List Bool)
  | 0, bits => some ([], bits)
  | n + 1, bits => (readSym codes bits).bind (fun p => (readSyms codes n p.2).map (fun r => (p.1 :: r.1, r.2)))

/-- Decode a framed block (R243, R249): its raw bytes and coding, or E_EXPAND or E_CHECK. -/
def decodeFramed (tables : List (Option CodeTable)) (bs : Bytes) : Except Nat (Bytes × Nat) :=
  let h := leAt bs 0 8
  let body := bs.drop 8
  let coding := fld h 1 0
  let d := 32 * (fld h 10 4 + 1)
  let e := fld h 21 11
  let raw : Option Bytes :=
    if bs.length < 8 then none
    else if coding = 0 then (if e = 0 && body.length == d then some body else none)
    else if coding = 3 then (if e = 0 && body.isEmpty then some (List.replicate d 0) else none)
    else
      let n := d / clsBytes coding
      match (tables[fld h 3 2]?).join with
      | none => none
      | some t =>
        if t.cls == coding && tableOk t && body.length == e + (clsBytes coding - 1) * n then
          match readSyms (canonCodes t.lens) n ((body.take e).flatMap byteBitsMsb) with
          | none => none
          | some (syms, rest) =>
            if rest.length < 8 && rest.all (· == false) then
              some ((List.range n).flatMap (fun i =>
                joinElem coding (syms.getD i 0) (leAt body (e + (clsBytes coding - 1) * i) (clsBytes coding - 1))))
            else none
        else none
  match raw with
  | none => .error eExpand
  | some r => if crc32c r = fld h 63 32 then .ok (r, coding) else .error eCheck

/-- The payloads of a framed block, 256 bytes each; fuel bounds their number. -/
def payloads : Nat → Bytes → List Bytes
  | 0, _ => []
  | n + 1, bs => if bs.isEmpty then [] else bs.take 256 :: payloads n (bs.drop 256)
/-- The flits of a framed block on a sub-stream (R218, R243). -/
def blockFlits (hdr sub blk : Nat) (bs : Bytes) : List Flit :=
  let ps := payloads (bs.length / 256 + 1) bs
  ps.mapIdx (fun i p => ⟨setFld (setFld (setFld (setFld hdr 35 32 sub) 44 36 p.length) 5 5 (if i = 0 then 1 else 0)) 6 6
    (if i + 1 = ps.length then 1 else 0), p, some blk⟩)

end Sys2Proof.Machine
end

