-- ==== Sys2Proof/Machine/Link.lean ====
section
/-! DEFINITION. One link of the fabric, below the messages it carries: slots, credits, sequence numbers, replay, sub-streams and code
tables (R218 to R226, R243 to R250), and routing (R231, R232). -/
namespace Sys2Proof.Machine

/-! The transmitter. -/

/-- The lanes a transmitter may use: active, trained and not retired (R226). -/
def Port.lanesUp (p : Port) : List Nat :=
  (List.range 8).filter (fun l => bitAt p.tx.mask l && ((p.lanes.toList.map (fun k => k.up && !k.retired)).getD l false))
/-- The port can send. -/
def Port.canSend (p : Port) : Bool := !p.retired && !p.lanesUp.isEmpty
/-- The lane of the next slot: strict rotation over the active lanes in ascending order (R221). -/
def Port.slotLane (p : Port) : Nat :=
  (p.lanesUp.find? (fun l => p.tx.nextLane ≤ l)).getD (p.lanesUp.headD 0)
/-- The virtual channel whose credits go back in the next flit, and how many, at most 63 (R219, R223). -/
def Port.creditOut (p : Port) : Nat × Nat :=
  let o := p.rx.owed.toList
  match (List.range 4).find? (fun v => 0 < o.getD v 0) with
  | some v => (v, min 63 (o.getD v 0))
  | none => (0, 0)
/-- The highest sequence number accepted in order (R219), short of the last flit of a rejected block whose BLOCK_NACK has not left (R249;
log 143). -/
def Port.ackOut (p : Port) : Nat := ((p.rx.nacks.findSome? id).getD p.rx.expect + 4095) % 4096

/-- A flit takes a slot of the lane frames being sent; 36 slots of each active lane fill them (R217, R221). -/
def Tx.takeSlot (t : Tx) (lane lanes : Nat) : Tx :=
  if 36 * lanes ≤ t.slots + 1 then { t with nextLane := lane + 1, slots := 0, frame := (t.frame + 1) % 2 ^ 32 }
  else { t with nextLane := lane + 1, slots := t.slots + 1 }
/-- The active lanes change at a frame boundary: the next slot begins new frames (R226). -/
def Tx.endFrame (t : Tx) : Tx := if t.slots = 0 then t else { t with slots := 0, frame := (t.frame + 1) % 2 ^ 32 }
/-- Byte k of the frame marker (R217). -/
def markerByte (k : Nat) : Byte := BitVec.ofNat 8 (0x5A + 0x3B * k)
/-- The header of a lane frame (R217). -/
def frameHeader (lane port mask count : Nat) : Bytes :=
  let fields := natLE 1 lane ++ natLE 1 port ++ natLE 1 mask ++ natLE 1 0 ++ natLE 4 count
  (List.range 64).map markerByte ++ fields ++ natLE 4 (crc32c fields) ++ List.replicate 124 0

/-- Place a flit in the next slot, its trailer carrying the acknowledgement and returned credits (R219, R221). -/
def Port.place (p : Port) (flit : Flit) (seq : Nat) : Port × Nat × Bytes :=
  let lane := p.slotLane
  let (v, n) := p.creditOut
  let bytes := flitBytes flit.hdr flit.pay seq p.ackOut v n
  ({ p with
      tx := p.tx.takeSlot lane p.lanesUp.length
      rx := { p.rx with ackDue := false, owed := p.rx.owed.setIfInBounds v (p.rx.owed.toList.getD v 0 - n) } }, lane, bytes)

/-- Note the sequence numbers of a block's first and last flits in its raw copy (R249). -/
def noteSeq (raws : List RawCopy) (flit : Flit) (seq : Nat) : List RawCopy :=
  raws.map (fun r => if some r.id = flit.blk then
    { r with first := if bitAt flit.hdr 5 then some seq else r.first, last := if bitAt flit.hdr 6 then some seq else r.last } else r)

/-- A sub-stream's blocks leave in order: a block begins once no block of its sub-stream is part-way out and no earlier one waits (R247). -/
def Tx.inTurn (t : Tx) (f : Flit) : Bool :=
  match f.blk with
  | some id => !bitAt f.hdr 5
      || !t.raws.any (fun r => r.id != id && r.sub == hdrSub f.hdr && r.last.isNone && (r.first.isSome || r.id < id))
  | none => true
/-- A BLOCK_NACK (R220). -/
def isNack (f : Flit) : Bool := hdrType f.hdr == 3 && leAt f.pay 0 1 == 4
/-- Send the flit at the head of a virtual channel's queue as a sequenced flit (R223, R224, R247). Once a BLOCK_NACK has its slot, the
acknowledgement it held back is due (R249). -/
def Port.sendHead (p : Port) (v : Fin 4) : Option (Port × Nat × Bytes) :=
  match p.tx.q[v] with
  | [] => none
  | f :: rest =>
    if p.canSend && 0 < p.tx.credits[v] && p.tx.replay.length < 1024 && p.tx.inTurn f then
      let seq := p.tx.seq
      let (p, lane, bytes) := p.place f seq
      let rx := if isNack f then { p.rx with nacks := p.rx.nacks.drop 1, ackDue := true } else p.rx
      some ({ p with rx := rx, tx := { p.tx with
        seq := (seq + 1) % 4096
        q := p.tx.q.set v rest
        credits := p.tx.credits.set v (p.tx.credits[v] - 1)
        raws := noteSeq p.tx.raws f seq
        replay := p.tx.replay ++ [⟨seq, f, lane, [], true⟩] } }, lane, bytes)
    else none

/-- The next queued flit to take a slot: virtual channel 3 first, then 0 to 2 in rotation (R222). -/
def Port.sendNext (p : Port) : Option (Port × Nat × Bytes) :=
  match p.sendHead 3 with
  | some r => some r
  | none =>
    let turn : List (Fin 4) := match p.tx.rr % 3 with
      | 0 => [0, 1, 2]
      | 1 => [1, 2, 0]
      | _ => [2, 0, 1]
    (turn.findSome? (fun v => (p.sendHead v).map (fun r => (v, r)))).map (fun x =>
      ({ x.2.1 with tx := { x.2.1.tx with rr := (x.1.val + 1) % 3 } }, x.2.2))

/-- A placed flit takes its slot: the lane frames begin with their headers where it is their first (R217), the flit is counted (R409). -/
def State.sendSlot (s : State) (p : Fin 32) (r : Port × Nat × Bytes) : State :=
  let k := s.port p
  let s := if k.tx.slots = 0 then
      k.lanesUp.foldl (fun (s : State) l => s.emit (.frame p.val l (frameHeader l p.val k.tx.mask k.tx.frame))) s
    else s
  ((s.setPort p r.1).emit (.flit p.val r.2.1 r.2.2)).bump 3 p.val 0
/-- Every queued flit that may leave leaves; fuel bounds their number. -/
def State.pumpN (p : Fin 32) : Nat → State → State
  | 0, s => s
  | n + 1, s =>
    match (s.port p).sendNext with
    | none => s
    | some (k, lane, bytes) =>
      let k := if (s.port p).tx.replay.isEmpty then { k with tx := { k.tx with ackAt := s.now } } else k
      State.pumpN p n (s.sendSlot p (k, lane, bytes))

/-- IDLE flits carry whatever acknowledgement and credits are still due (R220, R223); fuel bounds their number. -/
def State.idleN (p : Fin 32) : Nat → State → State
  | 0, s => s
  | n + 1, s =>
    let k := s.port p
    if k.canSend && (k.rx.ackDue || k.rx.owed.toList.any (0 < ·)) then
      State.idleN p n (s.sendSlot p (k.place ⟨1, [], none⟩ 0))
    else s

/-- Let a port send everything it can (R221 to R224). -/
def State.pump (s : State) (p : Fin 32) : State :=
  let s := State.pumpN p ((s.port p).tx.q.toList.map List.length).sum s
  State.idleN p (4 + ((s.port p).rx.owed.toList.map (· / 63)).sum) s

/-- Queue flits on a virtual channel of a port. -/
def Port.queue (p : Port) (v : Fin 4) (fs : List Flit) : Port :=
  { p with tx := { p.tx with q := p.tx.q.set v (p.tx.q[v] ++ fs) } }
/-- A virtual channel number of 2 bits. -/
def vcFin (v : Nat) : Fin 4 := Fin.ofNat 4 v
/-- Queue and send one LINK_CTL message (R220). -/
def State.linkCtl (s : State) (p : Fin 32) (pay : Bytes) : State :=
  (s.modPort p (fun k => k.queue 3 [⟨ctlHdr 3 0 0 0, bytesAt pay 0 256, none⟩])).pump p

/-- The next active sub-stream in rotation (R247). -/
def Tx.subNext (t : Tx) : Nat :=
  ((List.range 16).map (fun i => (t.nextSub + i) % 16)).find? (bitAt t.subMask) |>.getD 0

/-- No block coded with a generation still has flits to send, so its TABLE comes after them in sequence (R248). -/
def Tx.genSent (t : Tx) (g : Nat) : Bool := !t.raws.any (fun r => r.gen == some g && r.last.isNone)
/-- A transmitter may send a code table of its own choice: a generation is retired until its TABLE_ACK (R246, R248). -/
def State.offerTable (s : State) (p : Fin 32) : State :=
  let k := s.port p
  match Config.codeTable s.free with
  | some (g, cls, lens) =>
    let t : CodeTable := ⟨cls, lens⟩
    if h : g < 4 then
      if tableOk t && k.tx.tableOut.isNone && k.tx.genSent g && k.canSend then
        let lensBytes := (List.range 128).map (fun i => BitVec.ofNat 8 (lens.getD (2 * i) 0 + 16 * lens.getD (2 * i + 1) 0))
        let s := (s.setPort p { k with tx := { k.tx with
          tables := k.tx.tables.set g (some (t, false)) (by omega), tableOut := some g } }).useFree
        (s.linkCtl p ([2, BitVec.ofNat 8 g, BitVec.ofNat 8 cls] ++ List.replicate 13 0 ++ lensBytes)).bump 3 p.val 12
      else s.useFree
    else s.useFree
  | none => s.useFree

/-- Give a framed block to a port, coded with the table of a generation or with none: a raw copy kept, its flits queued on the next
sub-stream (R247, R249). -/
def State.queueBlock (s : State) (p : Fin 32) (hdr : Nat) (raw : Bytes) (check : Nat) (fails : List Nat) (framed : Bytes × Option Nat) :
    State :=
  let k := s.port p
  let sub := k.tx.subNext
  let (bs, gen) := framed
  let id := k.tx.nextBlk
  let flits := blockFlits hdr sub id bs
  let copy : RawCopy := ⟨id, hdr, raw, check, sub, none, none, gen, fails⟩
  let k := { k with tx := { k.tx with nextBlk := id + 1, nextSub := sub + 1, raws := k.tx.raws ++ [copy] } }
  let s := s.setPort p (k.queue (vcFin (hdrVc hdr)) flits)
  let s := (s.bump 3 p.val 2 raw.length).bump 3 p.val 3 bs.length
  (s.offerTable p).pump p
/-- Give a block to a port in the coding it chooses (R246). -/
def State.sendBlock (s : State) (p : Fin 32) (hdr : Nat) (raw : Bytes) (check cls : Nat) : State :=
  s.queueBlock p hdr raw check [] (chooseBlock (s.port p).tx.tables.toList (bitAt hdr 7) cls raw check)
/-- Send a block again RAW as a new block on the next sub-stream, with the failures it has had (R248, R249). -/
def State.resendBlock (s : State) (p : Fin 32) (r : RawCopy) (fails : List Nat) : State :=
  s.queueBlock p r.hdr r.raw r.check fails (plainBlock r.raw r.check, none)

/-! Routing (R231, R232). -/

/-- A logical port of a heat as a physical port. -/
def Heat.physPort (h : Heat) (l : Nat) : Option (Fin 32) := h.portList[l]?
/-- A logical port is live. -/
def State.portLive (s : State) (h : Heat) (l : Nat) : Bool :=
  match h.physPort l with
  | some p => !(s.port p).retired
  | none => false
/-- The member of a group that a flit takes: the wanted one, or the next live one in ascending order, wrapping (R232). -/
def State.groupMember (s : State) (h : Heat) (base log2 want : Nat) : Option Nat :=
  let n := 2 ^ log2
  ((List.range n).map (fun i => base + (want + i) % n)).find? (s.portLive h)
/-- The outgoing port and virtual channel for a destination: DATA takes member (off div 127) of the group, ACK and HURDLE the first
(R232). -/
def State.routeFlit (s : State) (h : Heat) (p : Program) (dest : Nat) (off : Option Nat) : Option (Fin 32 × Nat) :=
  let e := p.route h.ownId dest
  let want := fun (log2 : Nat) => match off with
    | some o => o / 127 % 2 ^ log2
    | none => 0
  if bitAt e 16 then
    let m := match s.groupMember h (fld e 4 0) (fld e 6 5) (want (fld e 6 5)) with
      | some l => some l
      | none => if bitAt e 17 then s.groupMember h (fld e 11 7) (fld e 13 12) (want (fld e 13 12)) else none
    (m.bind h.physPort).map (fun q => (q, fld e 15 14))
  else none
/-- Send a routed control flit, an ACK (4) or a HURDLE (5), to another module (R220, R232). An unreachable destination drops it. -/
def State.sendRouted (s : State) (hi : Fin 4) (type dest : Nat) (pay : Bytes) : State :=
  let h := s.heat hi
  match h.image with
  | none => s
  | some p =>
    match s.routeFlit h p dest none with
    | none => s
    | some (q, _) =>
      (s.modPort q (fun k => k.queue 3 [⟨ctlHdr type dest h.ownId h.epoch, bytesAt pay 0 256, none⟩])).pump q

/-! The receiver. -/

/-- Flits covered by an acknowledgement, given the oldest unacknowledged sequence number. -/
def ackCount (replay : List Sent) (ack : Nat) : Nat :=
  match replay with
  | [] => 0
  | e :: _ =>
    let n := (ack + 4096 - e.seq) % 4096 + 1
    if n ≤ replay.length then n else 0
/-- The transmitter takes an acknowledgement and returned credits from a trailer (R223, R224, R249). -/
def Tx.takeTrailer (t : Tx) (now ack cvc ccount : Nat) : Tx :=
  let n := ackCount t.replay ack
  let gone := (t.replay.take n).map Sent.seq
  { t with
    replay := t.replay.drop n
    ackAt := if n = 0 then t.ackAt else now
    raws := t.raws.filter (fun r => match r.last with | some q => !gone.contains q | none => true)
    credits := t.credits.setIfInBounds cvc (t.credits.toList.getD cvc 0 + ccount) }

/-- One REPLAY names the expected number, and further flits are dropped until it arrives (R224). -/
def State.askReplay (s : State) (p : Fin 32) : State :=
  let k := s.port p
  if k.rx.dropping then s
  else
    let k := { k with rx := { k.rx with dropping := true } }
    if k.canSend then
      s.sendSlot p (k.place ⟨2, natLE 2 k.rx.expect, none⟩ 0)
    else s.setPort p k

/-- The route header of the next link: hops up by one, virtual channel as routed (R218, R233). -/
def nextHop (hdr vc : Nat) : Nat := setFld (setFld hdr 87 82 (fld hdr 87 82 + 1)) 4 3 vc
/-- Where a flit in transit is being forwarded cut-through while it arrives: its port, virtual channel and sub-stream there (R233). A block in
EXP32 or EXP16 is not. -/
def State.cutThrough (s : State) (p : Fin 32) (hdr : Nat) (pay : Bytes) : Option (Fin 32 × Nat × Nat) :=
  match s.heatOfPort p with
  | none => none
  | some (hi, _) =>
    let h := s.heat hi
    match h.image with
    | none => none
    | some i =>
      if hdrDest hdr = h.ownId ∨ fld hdr 87 82 = 63 ∨ (h.phase ≠ .running ∧ h.phase ≠ .stopped) then none
      else if hdrType hdr = 4 ∨ hdrType hdr = 5 then (s.routeFlit h i (hdrDest hdr) none).map (fun q => (q.1, 3, hdrSub hdr))
      else if hdrType hdr ≠ 0 then none
      else if bitAt hdr 5 then
        if fld (leAt pay 0 8) 1 0 = 1 ∨ fld (leAt pay 0 8) 1 0 = 2 then none
        else (s.routeFlit h i (hdrDest hdr) (some (hdrOff hdr))).map (fun q => (q.1, q.2, (s.port q.1).tx.subNext))
      else
        ((s.port p).rx.asm.find? (fun a => a.sub == hdrSub hdr)).bind (fun a => a.fwd.bind (fun f =>
          ((s.port (Fin.ofNat 32 f.1)).tx.raws.find? (fun r => r.id == f.2)).map (fun r => (Fin.ofNat 32 f.1, hdrVc r.hdr, r.sub))))
/-- The outgoing copy of a flit that fails its link CRC is stomped: its crc complemented, no sequence number, credit or acknowledgement with
it (R219, R224, R233; DEDUCED, log 142). A copy that waits for its turn has not started and is dropped. -/
def State.stompCopy (s : State) (p : Fin 32) (bytes : Bytes) : State :=
  let hdr := leAt bytes 0 16
  let pay := bytesAt bytes 16 256
  match s.cutThrough p hdr pay with
  | none => s
  | some (q, vc, sub) =>
    let k := s.port q
    if k.canSend && k.tx.q.toList.all List.isEmpty && 0 < k.tx.credits.toList.getD vc 0 then
      let lane := k.slotLane
      let good := flitBytes (setFld (nextHop hdr vc) 35 32 sub) pay 0 0 0 0
      let bad := good.take 276 ++ natLE 4 (2 ^ 32 - 1 - leAt good 276 4)
      s.sendSlot q ({ k with tx := k.tx.takeSlot lane k.lanesUp.length }, lane, bad)
    else s

/-- What the link layer makes of a received flit. -/
inductive RxVerdict where
  /-- dropped, or an IDLE or REPLAY whose trailer is taken -/
  | none
  /-- an unsequenced flit: header and payload -/
  | loose (hdr : Nat) (pay : Bytes)
  /-- a sequenced flit accepted in order, with its sequence number -/
  | taken (hdr : Nat) (pay : Bytes) (seq : Nat)
deriving DecidableEq, Repr

/-- Receive a flit: link CRC, stomp, sequence number, trailer (R219, R224, R233). -/
def State.linkRx (s : State) (f : FlitRx) : State × RxVerdict :=
  let k := s.port f.port
  let lane := k.lanes[f.lane]
  if k.retired || !lane.up || lane.retired || !lane.lock then (s, .none)
  else
    let crc := leAt f.bytes 276 4
    let want := crc32 (f.bytes.take 276)
    if crc = want then
      let hdr := leAt f.bytes 0 16
      let t := leAt f.bytes 272 8
      let s := s.bump 3 f.port.val 1
      let s := s.modPort f.port (fun k => { k with tx := k.tx.takeTrailer s.now (fld t 23 12) (fld t 25 24) (fld t 31 26) })
      let pay := bytesAt f.bytes 16 256
      if hdrType hdr = 1 || hdrType hdr = 2 then (s.pump f.port, .loose hdr pay)
      else if 6 ≤ hdrType hdr then ((s.bump 3 f.port.val 10).pump f.port, .none)
      else if fld t 11 0 = k.rx.expect then
        (s.modPort f.port (fun k => { k with rx := { k.rx with
          expect := (k.rx.expect + 1) % 4096, dropping := false, ackDue := true } }), .taken hdr pay (fld t 11 0))
      else (s.askReplay f.port, .none)
    else
      let s := if k.rx.dropping then s else s.stompCopy f.port f.bytes
      (if crc + want = 2 ^ 32 - 1 then s else s.askReplay f.port, .none)

/-- A flit leaves the receive buffer: its credit is owed to the sender (R223). -/
def State.freeBuffer (s : State) (p : Fin 32) (hdr : Nat) : State :=
  s.modPort p (fun k => { k with rx := { k.rx with
    owed := k.rx.owed.setIfInBounds (hdrVc hdr) (k.rx.owed.toList.getD (hdrVc hdr) 0 + 1) } })

/-- The link CRC of a flit is right (R219, R251). -/
def crcGood (bs : Bytes) : Bool := leAt bs 276 4 == crc32 (bs.take 276)

/-- The flit of a command goes through the link layer; where it is accepted, what its row does with it follows. A flit with a right CRC
that is not of the row's kind is no such command and leaves the state unchanged (DESIGN CHOICE, log 9). -/
def State.withFlit (s : State) (f : FlitRx) (want : Nat → Bytes → Bool) (go : State → Nat → Bytes → Nat → State) : Result :=
  if f.bytes.length = 280 then
    if crcGood f.bytes && !want (leAt f.bytes 0 16) (bytesAt f.bytes 16 256) then .next s
    else
      let (s', v) := s.linkRx f
      match v with
      | .taken hdr pay seq => .next (go s' hdr pay seq)
      | _ => .next s'
  else .fault .illFormed

end Sys2Proof.Machine
end

