-- ==== Sys2Proof/Machine/Hurdle.lean ====
section
/-! DEFINITION. The hurdle units: messages (R261 to R263), the held flag (R265), what a DECIDE does (R264, R269), the root's decisions
(R264 to R267), requests, port retirement (R227), hang declarations (R418, R419). -/
namespace Sys2Proof.Machine

/-! Messages. -/

/-- A hurdle message (R261). -/
structure HMsg where
  /-- message -/
  msg : Nat
  /-- reason -/
  reason : Nat := 0
  /-- origin -/
  origin : Nat
  /-- count -/
  count : Nat
  /-- step -/
  step : Nat
  /-- status -/
  status : Nat := 0
  /-- decision -/
  decision : Nat := 0
  /-- held -/
  held : Bool := false
  /-- feed -/
  feed : Nat := 0
  /-- arrived -/
  arrived : Nat := 0
  /-- window_ms -/
  windowMs : Nat := 0
  /-- pf_log2 -/
  pf : Nat := 0
  /-- digest -/
  digest : Nat := 0
deriving DecidableEq, Repr

/-- The 256-byte payload of a message (R261). -/
def HMsg.bytes (m : HMsg) : Bytes :=
  natLE 256 (m.msg + m.reason * 2 ^ 8 + m.origin * 2 ^ 16 + m.count % 2 ^ 32 * 2 ^ 32 + m.step % 2 ^ 64 * 2 ^ 64 + m.status * 2 ^ 128
    + m.decision * 2 ^ 136 + (if m.held then 2 ^ 138 else 0) + m.feed % 16 * 2 ^ 140 + m.arrived * 2 ^ 144
    + m.windowMs % 2 ^ 32 * 2 ^ 160 + m.pf * 2 ^ 192 + m.digest * 2 ^ 256)
/-- The message in a payload (R261). -/
def parseHMsg (pay : Bytes) : HMsg :=
  let w := leAt pay 0 40
  { msg := fld w 7 0, reason := fld w 15 8, origin := fld w 27 16, count := fld w 63 32, step := fld w 127 64, status := fld w 135 128,
    decision := fld w 137 136, held := bitAt w 138, feed := fld w 143 140, arrived := fld w 156 144, windowMs := fld w 191 160,
    pf := fld w 196 192, digest := fld w 319 256 }

/-- A message of a heat about its pending count. -/
def Heat.message (h : Heat) (msg : Nat) : HMsg := { msg := msg, origin := h.ownId, count := h.hu.count, step := h.hu.step }
/-- Send a hurdle message to a module (R262). -/
def State.sendHurdle (s : State) (hi : Fin 4) (dest : Nat) (m : HMsg) : State := s.sendRouted hi 5 dest m.bytes
/-- Send a message to the parent. -/
def State.sendParent (s : State) (hi : Fin 4) (m : HMsg) : State :=
  match (s.heat hi).image with
  | some p => s.sendHurdle hi (p.parent (s.heat hi).ownId) m
  | none => s
/-- A stale hurdle message is discarded and counted (R264). -/
def State.stale (s : State) (hi : Fin 4) : State := s.bump 8 hi.val 18

/-! The held flag (R265). -/

/-- Some cluster of the heat waits for a sample of the attempt under way: the head of a queue needs a feed ring that is empty while
samples are still to be posted to it. -/
def State.feedWaiting (s : State) (hi : Fin 4) (p : Program) : Bool :=
  let h := s.heat hi
  let own := (p.ownSamples h.hu.replica h.hu.step).length
  h.live && ((h.clusterList.mapIdx (fun l c => (l, c))).any (fun lc =>
    let k := s.cl lc.2
    k.halted.isNone && (List.finRange 4).any (fun q => match k.headWaiting q with
      | none => false
      | some e => waitEn e.raw && k.waitsOver q e && k.pastHurdle e
          && h.chanIs (h.waitChan lc.1 (waitId e.raw)) (fun r => r.def_.prod.isNone && !r.ready && r.posted < own))))
/-- The subtree is held at the pending count. -/
def State.subtreeHeld (s : State) (hi : Fin 4) (p : Program) : Bool :=
  s.feedWaiting hi p || (s.heat hi).hu.children.any (fun c => c.held && c.heldAt == (s.heat hi).hu.count)
/-- The present hold ends, and its time is counted (R265, R292). -/
def State.closeHold (s : State) (hi : Fin 4) : State :=
  match (s.heat hi).hu.heldSince with
  | none => s
  | some t => (s.modHu hi (fun u => { u with heldTime := u.heldTime + (s.now - t), heldSince := none, heldHangs := 0 })).bump
      8 hi.val 6 ((s.now - t) / 64)
/-- Bring the held flag up to date, and tell the parent of a change (R265). -/
def State.refreshHeld (s : State) (hi : Fin 4) : State :=
  let h := s.heat hi
  match h.image with
  | none => s
  | some p =>
    if h.phase ≠ .running ∨ h.hu.count = 0 then s
    else
      let held := s.subtreeHeld hi p
      let s := if held then (if h.hu.heldSince.isSome then s else s.modHu hi (fun u => { u with heldSince := some s.now, heldHangs := 0 }))
        else s.closeHold hi
      if h.isRoot || held == h.hu.heldSent then s
      else (s.modHu hi (fun u => { u with heldSent := held })).sendParent hi { h.message 3 with held := held }

/-! Hangs (R418, R419). -/

/-- What a dump of a heat shows of its units (R419, R422; DEDUCED, log 26). -/
def State.dumpView (s : State) (hi : Fin 4) (why : HangCause) : DumpView :=
  let h := s.heat hi
  { heat := hi.val, cause := why, step := h.hu.step, count := h.hu.count
    digest := (h.image.map Program.digest).getD (List.replicate 32 0), fwVersion := s.com.boot.fwVersion, at_ := s.now
    clusters := h.clusterList.map (fun c => (c.val, s.cl c)), ports := h.portList.map (fun p => (p.val, s.port p)), chans := h.chans
    hu := h.hu, pipe := h.pipe, staging := h.staging
    media := ((List.finRange 22).filter (fun u => h.media.contains u.val)).map (fun u => (u.val, s.com.media[u]))
    mem := ((List.finRange 96).filter (fun n => h.positionList.contains (n.val / s.positionChans))).map (fun n => (n.val, s.com.chans[n])) }
/-- Freeze the clusters and feed-die units of a heat for a dump, unless one is being written (R418, R419). -/
def State.startDump (s : State) (hi : Fin 4) (why : HangCause) : State :=
  if s.com.store.dumping.isSome then s
  else
    let v := s.dumpView hi why
    let s := (s.heat hi).clusterList.foldl (fun s c => s.modCl c (fun k => { k with frozen := true })) s
    s.modStore (fun k => { k with dumping := some v })
/-- The slot of the next dump (R421). -/
def State.dumpSlot (s : State) : Nat := if s.driveLive 0 || s.driveLive 1 then s.com.store.dumpSeq % 4 else 0xFF
/-- A hang is declared: reported, counted, recorded, and one dump taken (R418, R436). -/
def State.declareHang (s : State) (hi : Fin 4) (why : HangCause) : State :=
  let slot := s.dumpSlot
  let seq := s.com.store.dumpSeq
  let s := ((s.bump 9 0 10).alert 7).report 0x0C hi.val eHang (s.heat hi).hu.step (natLE 1 slot ++ natLE 4 seq)
  (s.journal 6 eHang 0 0 (slot + seq * 2 ^ 8)).startDump hi why

/-! What a DECIDE does. -/

/-- The hurdle fields every new count begins with. -/
def Hurdle.newCount (u : Hurdle) : Hurdle :=
  { u with heldSent := false, reqs := u.reqs.filter (fun r => u.count ≤ r.count),
           seen := u.seen.filter (fun e => e.1 / 4096 == u.count % 2) }

/-- A START whose start hurdle is decided gets its reply (R399). -/
def State.answerStart (s : State) (hi : Fin 4) (status : Nat) : State :=
  match (s.heat hi).job.bind Job.startReq with
  | some (conn, seq) => (s.modHeat hi (fun h => { h with job := h.job.map (fun j => { j with startReq := none }) })).fillReply conn seq status []
  | none => s

/-- GO (R264): what waits for the scheduler core waits while it is down (R337) or holds a step record (R346). -/
def State.actGo (s : State) (hi : Fin 4) (p : Program) (m : HMsg) : State :=
  let start := (s.heat hi).hu.count = 0
  let s := ((s.closeHold hi).advanceGo hi m.windowMs).modHu hi Hurdle.newCount
  let s := if start then (s.modHu hi (fun u => { u with pf := m.pf })).answerStart hi 0 else s
  let n := (s.heat hi).hu.lastGo
  let s := if s.com.boot.scheduler ≠ .up then s.modHu hi (fun u => { u with owed := true })
    else if (n.map (s.heat hi).ck.holds).getD false then s.modHu hi (fun u => { u with goHeld := true, goHeldAt := s.now })
    else s.finishGo hi p n
  s.refreshHeld hi

/-- Blocks of an epoch leave the queues, replay buffers and raw copies of a port, and forwarding ends (R269). A flit already numbered
stays in the replay buffer without its block, so that the link's numbers stay whole (DEDUCED, log 11). -/
def Port.withdraw (k : Port) (epoch : Nat) : Port :=
  let mine := fun (hdr : Nat) => hdrType hdr = 0 ∧ hdrEpoch hdr = epoch
  { k with
    tx := { k.tx with
      q := k.tx.q.map (fun l => l.filter (fun f => !decide (mine f.hdr)))
      raws := k.tx.raws.filter (fun r => !decide (mine r.hdr))
      replay := k.tx.replay.map (fun e => if mine e.flit.hdr then { e with flit := { e.flit with blk := none } } else e) }
    rx := { k.rx with asm := k.rx.asm.filter (fun a => !(decide (mine a.hdr) && a.fwd.isSome)) } }
/-- Every block of an epoch is withdrawn from a heat (R269 step 3). -/
def State.withdraw (s : State) (hi : Fin 4) (epoch : Nat) : State :=
  let s := (s.heat hi).portList.foldl (fun s p => s.modPort p (fun k => k.withdraw epoch)) s
  s.modHeat hi (fun h => { h with sent := h.sent.filter (fun b => b.epoch != epoch) })

/-- Encode requests at a false start: one that runs finishes and is dropped, one that is queued is discarded (R324). -/
def State.dropEncodes (s : State) (c : Fin 64) (x : Site) : State :=
  let s := (s.cl c).core.encs.foldl (fun s r => match r.phase with
    | .running _ q => (s.encodeEnd c x r.off q false).1
    | _ => s) s
  s.modCl c (fun k => { k with core := { k.core with encs := [] } })

/-- RECV heads that wait for their count at a false start (R409). -/
def State.waitingTags (s : State) (cs : List (Fin 64)) : Nat :=
  (cs.filter (fun c => match (s.cl c).headWaiting qLink with
    | some e => cmdOp e.raw == 0x31 && (s.cl c).waitsOver qLink e && (s.cl c).pastHurdle e
    | none => false)).length
/-- The counter of false starts for a reason (R409). -/
def fsCounter (reason : Nat) : Nat := if reason = 0x0D then 22 else reason
/-- Control cores go back to their snapshots, a fold that takes effect now starting its own program (R258, R269 step 6). -/
def State.rewindAll (s : State) (hi : Fin 4) (p : Program) (new : List (Nat × Nat)) : State :=
  ((s.heat hi).clusterList.mapIdx (fun l c => (l, c))).foldl (fun s lc =>
    s.modCl lc.2 (fun k => if k.retired then { k with queues := Vector.replicate 4 [], core := { k.core with snap := none, running := false } }
      else k.rewind (if new.any (fun f => f.2 == lc.1) then some (p.ctrl true lc.1) else none))) s
/-- Handshake channels go back to what they held at the last GO; a command that had taken or held a slot is abandoned (DEDUCED, log 12). -/
def Chan.rewind (c : Chan) : Chan :=
  { c with reserved := 0, posted := c.atGo.1, taken := c.atGo.2, returned := c.atGo.2 }

/-- FALSE_START at one module, in the order of R269. The step records are written again while the scheduler core is up (R160, R337). -/
def State.actFalseStart (s : State) (hi : Fin 4) (p : Program) (m : HMsg) : State :=
  let count := (s.heat hi).hu.count
  let cs := (s.heat hi).clusterList
  let s := s.closeHold hi
  let s := (s.bump 8 hi.val 19 (s.waitingTags cs)).bump 8 hi.val (fsCounter m.reason)
  let s := if m.reason ≤ 5 then s.lifeCount (15 + m.reason) else s
  let s := s.report 0x03 hi.val m.status (s.heat hi).hu.step (natLE 4 m.reason ++ natLE 4 count)
  let s := (cs.mapIdx (fun l c => (l, c))).foldl (fun s lc => (s.abandonHeads lc.2).dropEncodes lc.2 ⟨hi, lc.1, p⟩) s
  let s := s.withdraw hi (count % 4)
  let x := State.schedSite hi p
  let s := s.putSpace x ((s.space x).kvRestore (s.heat hi).kv p.regions)
  let new := s.dueFolds (s.heat hi)
  let s := (s.applyFolds hi).rewindAll hi p new
  let s := if s.com.boot.scheduler = .up then s.stepRecords hi p (s.heat hi).hu.step else s
  let s := s.modHeat hi (fun h =>
    let h := { h with
      chans := h.chans.map Chan.rewind
      arrivals := h.arrivals.filter (fun a => a.1 / 4096 % 2 != count % 2)
      hu := { h.hu with
        count := count + 1, arrived := false, sentArrive := false, arriveAt := none, hung := false, windowMs := m.windowMs
        decideMs := m.windowMs, decideAt := s.now, heldTime := 0, heldHangs := 0, falseStarts := h.hu.falseStarts + 1 }.newCount }
    h.beginPosting p h.hu.step)
  s.refreshHeld hi

/-- Act on a DECIDE for the pending count (R264). -/
def State.act (s : State) (hi : Fin 4) (p : Program) (m : HMsg) : State :=
  match m.decision with
  | 0 => s.actGo hi p m
  | 1 => s.actFalseStart hi p m
  | _ => s.stopJob hi m.status m.reason
/-- A dump freezes this heat (R419). -/
def State.frozenHeat (s : State) (hi : Fin 4) : Bool := (s.com.store.dumping.map DumpView.heat) == some hi.val
/-- A DECIDE waits: a dump freezes the heat (R419), or an earlier GO is not carried out yet, whose step stands (R337, R346; DEDUCED, log
144). -/
def State.decideWaits (s : State) (hi : Fin 4) : Bool := s.frozenHeat hi || (s.heat hi).hu.owed || (s.heat hi).hu.goHeld
/-- Forward a DECIDE to the children, then act on it, or later where it has to wait (R262, R337, R346, R419). -/
def State.takeDecide (s : State) (hi : Fin 4) (p : Program) (m : HMsg) : State :=
  let s := (s.heat hi).hu.children.foldl (fun s c => s.sendHurdle hi c.id m) s
  if s.decideWaits hi then s.modHu hi (fun u => { u with deferred := u.deferred ++ [m.bytes] }) else s.act hi p m
/-- The count the next DECIDE to arrive concerns: those that wait are already taken. -/
def Hurdle.nextDecide (u : Hurdle) : Nat := u.count + u.deferred.length
/-- A DECIDE that arrives: a second one for a count already taken is discarded (R264). -/
def State.onDecide (s : State) (hi : Fin 4) (p : Program) (m : HMsg) : State :=
  let h := s.heat hi
  if h.phase ≠ .running ∨ m.count ≠ h.hu.nextDecide then s.stale hi else s.takeDecide hi p m
/-- DECIDEs that waited are acted on in order, until one has to wait again (R337, R346, R419); fuel bounds their number. -/
def State.actDeferred (hi : Fin 4) (p : Program) : Nat → State → State
  | 0, s => s
  | n + 1, s =>
    match (s.heat hi).hu.deferred with
    | [] => s
    | b :: rest =>
      if s.decideWaits hi then s
      else
        let s := s.modHu hi (fun u => { u with deferred := rest })
        State.actDeferred hi p n (if (s.heat hi).phase = .running ∧ (parseHMsg b).count = (s.heat hi).hu.count then s.act hi p (parseHMsg b) else s)

/-! The root (R264 to R267). -/

/-- A reason whose decision is STOP (R263). -/
def stopReason (r : Nat) : Bool := r == 6 || r == 7
/-- A reason whose decision is FALSE_START (R263). -/
def fsReason (r : Nat) : Bool := (2 ≤ r && r ≤ 5) || r == 0x0D
/-- Every child has sent ARRIVE for the pending count. -/
def Hurdle.childrenArrived (u : Hurdle) : Bool := u.children.all (fun c => c.arrived == some u.count)
/-- The window of the next hurdle in ms (R266). -/
def State.nextWindow (s : State) (hi : Fin 4) (goOn : Bool) : Nat :=
  let h := s.heat hi
  let u := h.hu
  let times := if goOn && u.count != 0 then (s.stepTime u).1 :: u.times else u.times
  match h.job with
  | none => 0
  | some j => if times.isEmpty then j.firstS * 1000 else max j.floorMs (j.mult * lowMedian (times.take 64) / milli)
/-- The root decides FALSE_START with a reason, or STOP once fs_limit attempts of the step have ended so (R269). -/
def Hurdle.falseOrStop (u : Hurdle) (fsLimit reason status : Nat) : Nat × Nat × Nat :=
  if fsLimit ≤ u.falseStarts then (2, 0x0B, eLate) else (1, reason, status)
/-- What the root decides now for its pending count: decision, reason, status (R264). -/
def State.rootStep (s : State) (hi : Fin 4) : Option (Nat × Nat × Nat) :=
  let h := s.heat hi
  let u := h.hu
  let mine := u.reqs.filter (fun r => r.count == u.count)
  if h.phase ≠ .running ∨ !h.isRoot ∨ u.count = 0 ∨ !u.deferred.isEmpty then none
  else match mine.find? (fun r => stopReason r.reason) with
  | some r => some (2, r.reason, r.status)
  | none =>
    match mine.find? (fun r => fsReason r.reason) with
    | some r => some (u.falseOrStop ((h.job.map Job.fsLimit).getD 0) r.reason r.status)
    | none => if u.arrived && u.childrenArrived then (if u.stopReq then some (2, 8, 0) else some (0, 0, 0)) else none
/-- The root sends one DECIDE and acts on it; FOLD requests for the next count go with a false start (R264). -/
def State.rootDecide (s : State) (hi : Fin 4) (d : Nat × Nat × Nat) : State :=
  let h := s.heat hi
  match h.image with
  | none => s
  | some p =>
    let m := { h.message 5 with
      decision := d.1, reason := d.2.1, status := d.2.2, windowMs := if d.1 = 2 then 0 else s.nextWindow hi (d.1 == 0)
      pf := if h.hu.count = 0 then (h.job.map Job.pf).getD 31 else 0 }
    let s := if d.1 = 1 then s.modHu hi (fun u => { u with reqs := u.reqs.filter (fun r => !(r.reason == 4 && r.count == u.count + 1)) })
      else s
    s.takeDecide hi p m
/-- The root decides as long as it has something to decide; fuel bounds the counts. -/
def State.rootRun (hi : Fin 4) : Nat → State → State
  | 0, s => s
  | n + 1, s => match s.rootStep hi with
    | none => s
    | some d => State.rootRun hi n (s.rootDecide hi d)
/-- A REQUEST at the root (R264). -/
def State.rootRequest (s : State) (hi : Fin 4) (r : Request) : State :=
  let u := (s.heat hi).hu
  if r.reason = 8 then State.rootRun hi 2 (s.modHu hi (fun u => { u with stopReq := true }))
  else if r.count < u.count then s.stale hi
  else if u.reqs.contains r then s
  else
    let s := s.modHu hi (fun u => { u with reqs := u.reqs ++ [r] })
    State.rootRun hi ((s.heat hi).hu.reqs.length + 1) s
/-- A module sends a REQUEST for its current count, or for the next once it has sent ARRIVE (R262, R264); nothing outside a job. -/
def State.request (s : State) (hi : Fin 4) (reason status : Nat) : State :=
  let h := s.heat hi
  if h.phase ≠ .running then s
  else
    let count := if h.hu.sentArrive then h.hu.count + 1 else h.hu.count
    if h.isRoot then s.rootRequest hi ⟨count, reason, status, h.ownId⟩
    else match h.image with
    | some p => s.sendHurdle hi p.root { h.message 4 with count := count, reason := reason, status := status }
    | none => s
/-- Ask for a stop at the next GO (R263, R400). -/
def State.stopAtNext (s : State) (hi : Fin 4) : State := s.request hi 8 0

/-- Once the module and all its children have arrived: ARRIVE to the parent, or the root decides (R262, R264). -/
def State.progress (s : State) (hi : Fin 4) : State :=
  let h := s.heat hi
  let u := h.hu
  if h.phase ≠ .running ∨ u.count = 0 ∨ !u.arrived ∨ u.sentArrive ∨ !u.childrenArrived then s
  else if h.isRoot then State.rootRun hi (u.reqs.length + 2) s
  else (s.modHu hi (fun u => { u with sentArrive := true, arriveAt := some s.now })).sendParent hi
    { h.message 2 with arrived := 1 + (u.children.map Child.mods).sum }

/-- What waited for a dump or a GO goes on: the DECIDEs in order, then what the root or this module has to say (R264, R337, R346, R419). -/
def State.resumeDecides (s : State) (hi : Fin 4) (p : Program) : State :=
  let s := State.actDeferred hi p (s.heat hi).hu.deferred.length s
  let s := if (s.heat hi).isRoot then State.rootRun hi ((s.heat hi).hu.reqs.length + 1) s else s
  (s.progress hi).refreshHeld hi

/-- How bad a join reason is: JOIN_MISMATCH over SAMEFEED over NONE (R267). -/
def joinRank (r : Nat) : Nat := if r = 0x0A then 2 else if r = 9 then 1 else 0
/-- The worse of two join reasons. -/
def worseJoin (a b : Nat) : Nat := if joinRank a < joinRank b then b else a
/-- Every connected port has had its partner's HELLO (R229). -/
def State.hellosDone (s : State) (h : Heat) (p : Program) : Bool :=
  (List.range p.portCount).all (fun l => !bitAt (p.peer l) 17 || (match h.physPort l with
    | some q => (s.port q).hello.isSome || (s.port q).retired
    | none => false))
/-- Once the module and all its children have joined: JOIN to the parent, or the root decides the start hurdle (R262, R267). -/
def State.tryJoin (s : State) (hi : Fin 4) : State :=
  let h := s.heat hi
  let u := h.hu
  match h.image, u.feed with
  | some p, some own =>
    if h.phase ≠ .running ∨ u.count ≠ 0 ∨ u.joined ∨ !(u.children.all (fun c => c.joined.isSome)) ∨ !s.hellosDone h p then s
    else
      let worst := (u.children.filterMap Child.joined).foldl worseJoin own
      let s := s.modHu hi (fun u => { u with joined := true })
      if h.isRoot then
        s.rootDecide hi (if worst = 0 then (0, 0, 0) else (2, worst, if worst = 9 then eSameFeed else eConfig))
      else s.sendParent hi { h.message 1 with
        reason := worst, arrived := 1 + (u.children.map Child.mods).sum, digest := leNat (p.digest.take 8) }
  | _, _ => s

/-! Retirement of a port (R227). -/

/-- Give an ACK or HURDLE flit to the port that routing now chooses. -/
def State.reroute (s : State) (hi : Fin 4) (f : Flit) : State :=
  let h := s.heat hi
  match h.image.bind (fun p => s.routeFlit h p (hdrDest f.hdr) none) with
  | some (q, _) => (s.modPort q (fun k => k.queue 3 [f])).pump q
  | none => s
/-- A port retires: out of the route groups, its ACK and HURDLE flits to other ports, its DATA blocks dropped, a REQUEST sent. -/
def State.retirePort (s : State) (p : Fin 32) : State :=
  let k := s.port p
  if k.retired || s.clockLost then s
  else
    let ctl := (k.tx.replay.map Sent.flit ++ k.tx.q[3]).filter (fun f => hdrType f.hdr = 4 ∨ hdrType f.hdr = 5)
    let s := s.setPort p { k with
      retired := true
      tx := { k.tx with q := Vector.replicate 4 [], replay := [], raws := [] }
      rx := { k.rx with asm := [] } }
    match s.heatOfPort p with
    | none => s.noteRetired 2 p.val 0xFF
    | some (hi, _) => (ctl.foldl (fun s f => s.reroute hi f) (s.noteRetired 2 p.val hi.val)).request hi 0x0D 0

end Sys2Proof.Machine
end

