-- ==== Sys2Proof/Machine/Session.lean ====
section
/-! DEFINITION. Management sessions: connections (R385), the attach exchange (R388, R389), the states and timers of R390, R391 and R394. -/
namespace Sys2Proof.Machine

/-! Headers. -/

/-- type of a message (R386). -/
def msgType (m : Msg) : Nat := leAt m.hdr 4 1
/-- heat (R386). -/
def msgHeat (m : Msg) : Nat := leAt m.hdr 6 1
/-- last (R386). -/
def msgLast (m : Msg) : Bool := bitAt (leAt m.hdr 7 1) 0
/-- seq (R386). -/
def msgSeq (m : Msg) : Nat := leAt m.hdr 8 8
/-- body_len (R386). -/
def msgLen (m : Msg) : Nat := leAt m.hdr 16 4
/-- The message cannot be framed (R386). -/
def msgUnframed (m : Msg) : Bool := leAt m.hdr 0 4 != 0x47534D5A || 1052672 < (msgLen m)
/-- The tag is the HMAC-SHA-256 of header and body under the session's client-to-module key (R386, R389). -/
def tagHolds (k : Session) (m : Msg) : Bool := m.tag == hmac k.keys.1 (m.hdr ++ m.body)
/-- 32 zero bytes stand in place of the tag (R386). -/
def zeroTag : Bytes := List.replicate 32 0
/-- The reserved header fields are zero (R11, R386). -/
def msgRsvOk (m : Msg) : Bool := rsv (leAt m.hdr 7 1) 7 1 && leAt m.hdr 20 4 == 0
/-- A message to a session that has no keys yet: 32 zero bytes in place of the tag (R386). -/
def State.sendPlain (s : State) (conn type status reqSeq : Nat) (body : Bytes) : State :=
  s.emit (.mgmt conn (msgHdr type status 0xFF 0 body.length reqSeq) body zeroTag)

/-! Connections (R385, R390). -/

/-- A session in LISTEN. -/
def Session.fresh (conn now : Nat) : Session :=
  { conn := conn, phase := .listen, since := now, key := 0, rights := 0, firstReport := 0, t1 := [], stamp := 0, keys := ([], [])
    rxSeq := 0, txSeq := 0, lease := now, replies := [], closing := false }
/-- A client opens a TCP connection to an address and port; at another than the module's no one listens (R372, R385, R390; DEDUCED, log 157). -/
def execTcpConnect (conn addr tcpPort : Nat) (s : State) : Result :=
  if !s.com.mgmt.link || (s.session conn).isSome || s.com.boot.endpoint.2 != (addr, tcpPort) then .next s
  else if 4 ≤ s.com.mgmt.sessions.length then .next (s.emit (.tcpReset conn))
  else .next (s.modMgmt (fun m => { m with sessions := m.sessions ++ [Session.fresh conn s.now] }))
/-- A TCP connection is lost, and its session with it (R390). -/
def execTcpLoss (conn : Nat) (s : State) : Result :=
  if (s.session conn).isSome then .next (s.dropSession conn) else .next s

/-! The attach exchange (R388). -/

/-- The key a phase 0 names, and its rights: a valid record, or in recovery the owner key (R372, R378, R388; the owner key's rights are
DESIGN CHOICE, log 25). -/
def State.attachRights (s : State) (key : Nat) (pub : Bytes) : Option Nat :=
  match s.com.boot.config with
  | none => if key = 0xFFFFFFFF ∧ sha256 pub = Config.ownerDigest then some 7 else none
  | some img =>
    let w := keyRecord img key
    if key < 16 ∧ bitAt w 256 ∧ natLE 32 (fld w 255 0) = pub then some (fld w 259 257) else none
/-- What the module shows of itself in a CHALLENGE: encapsulation key, device key, serial (R388). -/
def challengeParts (stamp : Nat) : Bytes × Bytes × Bytes × Bytes :=
  (bytesAt (Config.moduleNonce stamp) 0 32, bytesAt (Config.encapKey stamp) 0 1184, bytesAt Config.deviceKey 0 32,
    bytesAt Config.serial 0 16)
/-- t1 of an exchange (R388). -/
def attachT1 (body : Bytes) (stamp : Nat) : Bytes :=
  let (nonce, ek, dk, sn) := challengeParts stamp
  sha256 (body ++ nonce ++ ek ++ dk ++ sn)
/-- The CHALLENGE body (R388). -/
def challengeBody (t1 : Bytes) (stamp : Nat) : Bytes :=
  let (nonce, ek, dk, sn) := challengeParts stamp
  nonce ++ ek ++ dk ++ sn ++ bytesAt Config.certificate 0 7856 ++ bytesAt (Config.deviceSignature stamp t1) 0 17088
/-- Answer an ATTACH: tagged on an attached session, with zeros in place of the tag on any other. -/
def State.answerAttach (s : State) (k : Session) (m : Msg) (status : Nat) : State :=
  if k.phase = .attached then s.reply m.conn (msgSeq m) 0xFF status [] else s.sendPlain m.conn 0x40 status (msgSeq m) []
/-- An ATTACH is framed, is of the phase of a row, carries the zero tag, and reaches a session; with another tag it is discarded and the
session closes (R386, R389; DEDUCED, log 157). -/
def State.onAttach (s : State) (m : Msg) (phaseOk : Nat → Bool) (go : Session → State) : Result :=
  if m.hdr.length = 32 then
    match s.session m.conn with
    | none => .next s
    | some k =>
      if (msgUnframed m) then .next (s.closeSession m.conn)
      else if m.body.length ≠ msgLen m ∨ msgType m ≠ 1 ∨ !phaseOk (leAt m.body 0 4) then .next s
      else if m.tag ≠ zeroTag then .next (s.closeSession m.conn)
      else .next (go k)
  else .fault .illFormed

/-- ATTACH phase 0; a phase that R388 does not define is refused with E_CONFIG (R388). -/
def execAttachPhase0 (m : Msg) (s : State) : Result :=
  s.onAttach m (fun ph => ph != 1) (fun k =>
    if k.phase ≠ .listen then (s.answerAttach k m eLimit).closeSession m.conn
    else if !msgRsvOk m || m.body.length != 80 || leAt m.body 0 4 != 0 then s.answerAttach k m eConfig
    else if s.com.boot.security ≠ .up then s.answerAttach k m eAuth
    else match s.attachRights (leAt m.body 4 4) (bytesAt m.body 48 32) with
    | none => (s.answerAttach k m eAuth).closeSession m.conn
    | some rights =>
      let stamp := s.free
      let t1 := attachT1 m.body stamp
      let s := s.useFree.modSession m.conn (fun k => { k with
        phase := .challenged, since := s.now, key := leAt m.body 4 4, rights := rights, firstReport := leAt m.body 8 8
        t1 := t1, stamp := stamp })
      s.sendPlain m.conn 0x02 0 0 (challengeBody t1 stamp))
/-- Reports from first_report on; a DROPPED report first where older ones are lost (R393). -/
def State.replayReports (s : State) (conn first : Nat) : State :=
  let m := s.com.mgmt
  let oldest := m.nextReport - m.reports.length
  let s := if first < oldest then
      s.sendMsg conn 0x41 0 0xFF 0 (reportBody first s.micros 0x0D 0xFF 0 0 (natLE 8 (oldest - first)))
    else s
  (m.reports.drop (first - oldest)).foldl (fun s b => s.sendMsg conn 0x41 0 (leAt b 18 1) 0 b) s
/-- The two keys of a session (R389): client to module, module to client. -/
def sessionKeys (secret t2 : Bytes) : Bytes × Bytes := (hkdf secret t2 (ascii "ZN4 c2m"), hkdf secret t2 (ascii "ZN4 m2c"))
/-- ATTACH phase 1 (R388, R389, R393): sigOk and decapOk are what the operator's signature over t2 and the decapsulation give. -/
def execAttachPhase1 (m : Msg) (sigOk decapOk : Bool) (s : State) : Result :=
  s.onAttach m (· == 1) (fun k =>
    match k.phase with
    | .attached => s.closeSession m.conn
    | .listen => (s.answerAttach k m eAuth).closeSession m.conn
    | .challenged =>
      if !msgRsvOk m || m.body.length != 8960 || leAt m.body 4 12 != 0 then (s.answerAttach k m eConfig).closeSession m.conn
      else if s.com.boot.security ≠ .up || !sigOk || !decapOk then (s.answerAttach k m eAuth).closeSession m.conn
      else
        let ct := bytesAt m.body 16 1088
        let keys := sessionKeys (Config.kemSecret k.stamp ct) (sha256 (k.t1 ++ ct))
        let s := s.modSession m.conn (fun k => { k with
          phase := .attached, since := s.now, keys := keys, rxSeq := 1, txSeq := 1, lease := s.now })
        let s := s.noteOrphan.reply m.conn (msgSeq m) 0xFF 0 []
        if bitAt k.rights 0 then s.replayReports m.conn k.firstReport else s)

/-! Timers (R390, R391, R394). -/

/-- 10 s in a state without what leaves it. -/
def State.sessionTimeout (s : State) (conn : Nat) (phase : SessionPhase) : Result :=
  match s.session conn with
  | some k => if k.phase = phase then .next ((s.reach (k.since + 10 * second)).closeSession conn) else .next s
  | none => .next s
/-- 10 s in LISTEN (R390). -/
def execListenTimeout (conn : Nat) (s : State) : Result := s.sessionTimeout conn .listen
/-- 10 s in CHALLENGED (R390). -/
def execChallengedTimeout (conn : Nat) (s : State) : Result := s.sessionTimeout conn .challenged
/-- lease_s; its default where no image is in force (R372, R376; DEDUCED, log 25). -/
def State.leaseS (s : State) : Nat := if s.com.boot.config.isSome then s.com.boot.setting 127 112 else 30
/-- The scheduler core serves messages: it runs, or firmware is not loaded yet (R387, R391). -/
def State.serving (s : State) : Bool := s.com.boot.scheduler == .up || s.com.boot.scheduler == .off
/-- lease_s without a valid message; no lease clock runs while the scheduler core is down (R390, R391). -/
def execLeaseExpiry (conn : Nat) (s : State) : Result :=
  match s.session conn with
  | some k =>
    if k.phase = .attached ∧ s.serving then .next ((s.reach (k.lease + s.leaseS * second)).closeSession conn) else .next s
  | none => .next s
/-- Ask every running job to stop, once in an orphaned period (R394, R402). -/
def State.orphanStops (s : State) : State :=
  (List.finRange 4).foldl (fun (s : State) hi =>
    if (s.heat hi).phase = .running ∧ !(s.heat hi).hu.orphanStop then (s.modHu hi (fun u => { u with orphanStop := true })).stopAtNext hi
    else s) s
/-- An orphaned period reaches orphan_grace_s (R394). -/
def execOrphanGraceExpiry (s : State) : Result :=
  let grace := s.com.boot.setting 159 128
  match s.com.mgmt.orphanSince with
  | some t => if s.orphaned ∧ grace ≠ 0 ∧ s.com.boot.scheduler = .up then .next (s.reach (t + grace * second)).orphanStops else .next s
  | none => .next s

end Sys2Proof.Machine
end

