-- ==== Sys2Proof/Machine/Remap.lean ====
section
/-! DEFINITION. Where a memory line lives: the interleave (R190), and the redirections that the list of retired channels gives (R203, R204).
Lines are numbered by heat-relative address divided by 256. -/
namespace Sys2Proof.Machine

/-- The XOR of the fields of w bits of r that the interleave folds into a channel, the lowest left out: bits [5:3], [8:6], [11:9] for w = 3,
[3:2], [5:4], [7:6] for w = 2 (R190). -/
def chanFold (w r : Nat) : Nat :=
  fld r (2 * w - 1) w ^^^ fld r (3 * w - 1) (2 * w) ^^^ fld r (4 * w - 1) (3 * w)
/-- Home of a line in a heat of P positions with 2^w channels each: logical position, channel, line offset in the channel (R190). -/
def homeOf (P w a : Nat) : Nat × Nat × Nat :=
  let r := a / P
  (a % P, fld r (w - 1) 0 ^^^ chanFold w r, r / 2 ^ w)
/-- Where a heat-relative byte address lies in the devices: channel, bank, column, row, and the burst or access of its granule (R190). -/
structure DevicePlace where
  /-- logical position -/
  pos : Nat
  /-- channel of the position -/
  ch : Nat
  /-- bank -/
  bank : Nat
  /-- line within the row -/
  col : Nat
  /-- row -/
  row : Nat
  /-- subchannel; 0 on GDDR7 -/
  sub : Nat
  /-- burst of the line on its subchannel; on GDDR7 the access on the channel -/
  burst : Nat
deriving DecidableEq, Repr
/-- The place of a heat-relative address in a heat of P positions with 2^w channels each (R190). -/
def devicePlace (P w x : Nat) : DevicePlace :=
  let (p, c, o) := homeOf P w (x / 256)
  let j := fld x 7 5
  { pos := p, ch := c, bank := fld o 3 0 ^^^ fld o 11 8, col := fld o 7 4, row := o / 256,
    sub := if w = 3 then j % 2 else 0, burst := if w = 3 then j / 2 else j }
/-- The line at an offset of a channel: the inverse of homeOf. -/
def lineAt (P w : Nat) (c : Nat × Nat) (o : Nat) : Nat :=
  let r := o * 2 ^ w
  P * (r + (c.2 ^^^ chanFold w r)) + c.1
/-- Lines of a channel below line x: its offsets rise with the line. -/
def linesBelow (P w : Nat) (c : Nat × Nat) (x : Nat) : Nat :=
  let o := x / (P * 2 ^ w)
  if lineAt P w c o < x then o + 1 else o
/-- Lines below x whose home is on none of the channels of a list. -/
def liveBelow (P w : Nat) (dead : List (Nat × Nat)) (x : Nat) : Nat := x - (dead.map (fun c => linesBelow P w c x)).sum
/-- The largest y with fewer than n + 1 live lines below it, found bit by bit. -/
def seekLine (P w : Nat) (dead : List (Nat × Nat)) (n : Nat) : Nat → Nat → Nat
  | 0, y => y
  | k + 1, y => seekLine P w dead n k (if liveBelow P w dead (y + 2 ^ k) ≤ n then y + 2 ^ k else y)
/-- The i-th line from line f on whose home is live (R203). -/
def freeLine (P w : Nat) (dead : List (Nat × Nat)) (f i : Nat) : Nat := seekLine P w dead (liveBelow P w dead f + i) 36 0

/-- One retirement of a heat: the channel, the channels dead from then on, the first reserve line it may use and the data lines it gives up,
which are those at its offsets below that number (R203). -/
structure Stage where
  /-- logical position and channel -/
  c : Nat × Nat
  /-- dead channels, itself among them -/
  dead : List (Nat × Nat)
  /-- no free line lies below this one -/
  from_ : Nat
  /-- data-holding lines -/
  count : Nat
deriving DecidableEq, Repr
/-- The stages of a list of retired channels; T is the first line of the reserve. -/
def stages (P w : Nat) : List (Nat × Nat) → List (Nat × Nat) → Nat → List Stage
  | [], _, _ => []
  | c :: cs, dead, f =>
    let dead := dead ++ [c]
    let n := linesBelow P w c f
    ⟨c, dead, f, n⟩ :: stages P w cs dead (if n = 0 then f else freeLine P w dead f (n - 1) + 1)
/-- Where the line homed at a channel and offset is now (R203, R204): moved gives the move pointer of each stage's channel. -/
def locate (P w : Nat) (moved : Nat × Nat → Nat) : List Stage → (Nat × Nat) × Nat → (Nat × Nat) × Nat
  | [], at_ => at_
  | t :: ts, at_ =>
    if t.c = at_.1 ∧ at_.2 < t.count ∧ at_.2 < moved t.c then
      let (p, c, o) := homeOf P w (freeLine P w t.dead t.from_ at_.2)
      locate P w moved ts ((p, c), o)
    else locate P w moved ts at_
/-- The heat line that a channel holds at an offset; the stages run from the latest back (R203). -/
def heldLine (P w : Nat) : List Stage → (Nat × Nat) × Nat → Nat
  | [], at_ => lineAt P w at_.1 at_.2
  | t :: ts, at_ =>
    let a := lineAt P w at_.1 at_.2
    if t.from_ ≤ a then heldLine P w ts (t.c, liveBelow P w t.dead a - liveBelow P w t.dead t.from_)
    else heldLine P w ts at_

/-! A heat's channels. -/

/-- log2 of the channels of a position. -/
def State.chanLog (s : State) : Nat := if s.com.boot.order = 3 then 2 else 3
/-- The channel's logical position and number in a heat, from its number in R409. -/
def State.chanName (s : State) (h : Heat) (ch : Nat) : Nat × Nat :=
  (h.positionList.idxOf (ch / s.positionChans), ch % s.positionChans)
/-- The number of a heat's channel in R409. -/
def State.chanNumber (s : State) (h : Heat) (c : Nat × Nat) : Nat := h.positionList.getD c.1 0 * s.positionChans + c.2
/-- The stages of a heat. -/
def State.heatStages (s : State) (h : Heat) : List Stage :=
  stages h.positionList.length s.chanLog (h.retired.map (s.chanName h)) [] (s.usableTop h / 256)
/-- Lines of a channel moved so far: all of them unless its migration is under way (R204). -/
def State.movedLines (s : State) (ch : Nat) : Nat :=
  match s.com.chans.toList[ch]? with
  | some k => if k.moving then k.pointer else 2 ^ 40
  | none => 2 ^ 40
/-- The channel and the line offset at which a line of a heat is read and written now. -/
def State.placeOf (s : State) (h : Heat) (line : Nat) : Nat × Nat :=
  let P := h.positionList.length
  let (p, c, o) := homeOf P s.chanLog line
  let (at_, off) := locate P s.chanLog (fun c => s.movedLines (s.chanNumber h c)) (s.heatStages h) ((p, c), o)
  (s.chanNumber h at_, off)
/-- The devices' place of a heat-relative byte address of a heat, its position a physical one, before any redirection (R190). -/
def State.devicePlaceOf (s : State) (h : Heat) (x : Nat) : DevicePlace :=
  let d := devicePlace h.positionList.length s.chanLog x
  { d with pos := h.positionList.getD d.pos 0 }
/-- The line offset in its channel that a row, bank and column name: the inverse of R190's split. -/
def DevicePlace.offset (d : DevicePlace) : Nat := 256 * d.row + 16 * d.col + (d.bank ^^^ fld d.row 3 0)
/-- The address bytes of the controller code for granule j of a line at a place (R190, R195; the offset in the subchannel is DEDUCED, log 32). -/
def State.codeAddr (s : State) (ch off j : Nat) : List Nat :=
  rsAddr (ch / s.positionChans) (ch % s.positionChans) (j % 2) (4 * off + j / 2)

end Sys2Proof.Machine
end

