-- ==== Sys2Proof/Machine/Cache.lean ====
section
/-! DEFINITION. The shared cache (R19, R20, R31): which lines of a heat's memory it holds, the wide and the narrow path through it (R191,
R192), and the granules its misses and write-backs move on the channels (R409). Values are those of the heat's memory throughout: both paths
meet at the home slice, so residency changes none (R51, R193). -/
namespace Sys2Proof.Machine

/-! Slices and lines. -/

/-- The home slice of a line of a heat: the compute die of its memory position, and the slice on that die (R14, R19). -/
def Heat.homeSlice (h : Heat) (line : Nat) : Nat × Nat :=
  (h.positionList.getD (line % h.positionList.length) 0 / 6, fld line 11 8 ^^^ fld line 15 12 ^^^ fld line 19 16 ^^^ fld line 23 20)
/-- Lines of a heat that one slice can hold: 4 ways for each of its cluster blocks, less its scratch ways, of 512 KiB each (R20, R31). -/
def Heat.sliceLines (h : Heat) : Nat := (4 * popcount 4 h.blocks.1 - h.ways) * 2048
/-- The key of a heat's line in the list of cached lines. -/
def cacheKey (hi : Fin 4) (line : Nat) : Nat := hi.val * 2 ^ 40 + line
/-- What the cache holds of a line: 0 nothing, 1 a clean line, 2 a dirty one (R191). -/
def State.cached (s : State) (hi : Fin 4) (line : Nat) : Nat := amGet s.com.cache (cacheKey hi line)
/-- Set what the cache holds of a line. -/
def State.setCached (s : State) (hi : Fin 4) (line v : Nat) : State :=
  s.modCom (fun k => { k with cache := amPut k.cache (cacheKey hi line) v })
/-- The lines of a heat held in the slice that is a line's home. -/
def State.sliceHolds (s : State) (hi : Fin 4) (line : Nat) : List Nat :=
  let h := s.heat hi
  ((s.com.cache.filter (fun e => e.1 / 2 ^ 40 == hi.val)).map (fun e => e.1 % 2 ^ 40)).filter
    (fun l => h.homeSlice l == h.homeSlice line)
/-- Nothing of a heat's memory is cached (R208). -/
def State.dropCache (s : State) (hi : Fin 4) : State :=
  s.modCom (fun k => { k with cache := k.cache.filter (fun e => e.1 / 2 ^ 40 != hi.val) })

/-- Granules of a line that its channel reads (R409). -/
def State.lineReads (s : State) (hi : Fin 4) (line n : Nat) : State := s.chanReads (s.placeOf (s.heat hi) line).1 n
/-- Granules of a line that its channel writes (R409). -/
def State.lineWrites (s : State) (hi : Fin 4) (line n : Nat) : State := s.bump 2 (s.placeOf (s.heat hi) line).1 1 n
/-- A dirty line is written back whole, and is clean (R191). -/
def State.writeBack (s : State) (hi : Fin 4) (line : Nat) : State :=
  if s.cached hi line = 2 then (s.lineWrites hi line 8).setCached hi line 1 else s
/-- A line leaves the cache, written back first where it is dirty (R191, R200). -/
def State.dropLine (s : State) (hi : Fin 4) (line : Nat) : State := (s.writeBack hi line).setCached hi line 0
/-- A line is allocated in its home slice. A full slice evicts a line for it; which, and whether a slice that is not full evicts one, the spec
leaves open: a free value (DESIGN CHOICE, log 125). -/
def State.allocLine (s : State) (hi : Fin 4) (line : Nat) (dirty : Bool) : State :=
  let held := s.sliceHolds hi line
  let pick := Config.evictedLine s.free
  let out := if (s.heat hi).sliceLines ≤ held.length then some (pick.getD 0) else pick
  let s := s.useFree
  let s := match out.bind (fun i => held[i % held.length]?) with
    | some l => s.dropLine hi l
    | none => s
  s.setCached hi line (if dirty then 2 else 1)

/-! The two paths. -/

/-- One access to memory at a device address; write says whether it writes. -/
structure MemAccess where
  /-- device address -/
  addr : Nat
  /-- bytes -/
  len : Nat
  /-- a write -/
  write : Bool
deriving DecidableEq, Repr
/-- The wide path: one line is read, or written whole or in part, under a cache hint (R191). -/
def State.wideLine (s : State) (hi : Fin 4) (hint line : Nat) (write whole : Bool) : State :=
  let hit := s.cached hi line != 0
  let keep := hint == 0 && (s.heat hi).sliceLines != 0
  if hit then
    let s := if write then s.setCached hi line 2 else s
    if hint = 2 then s.dropLine hi line else s
  else
    let s := if write && whole then s else s.lineReads hi line 8
    if keep then s.allocLine hi line write else if write then s.lineWrites hi line 8 else s
/-- The narrow path: one granule of a line is read, or written whole or in part; a miss allocates nothing (R192). -/
def State.narrowGranule (s : State) (hi : Fin 4) (hint granule : Nat) (write whole : Bool) : State :=
  let line := granule / 8
  if s.cached hi line != 0 then
    let s := if write then s.setCached hi line 2 else s
    if hint = 2 then s.dropLine hi line else s
  else
    let s := if write && whole then s else s.lineReads hi line 1
    if write then s.lineWrites hi line 1 else s
/-- The units of n bytes that a range of memory touches: each with whether the range covers it whole. -/
def unitsOf (n m len : Nat) : List (Nat × Bool) :=
  if len = 0 then []
  else (List.range ((m + len - 1) / n - m / n + 1)).map (fun i =>
    let u := m / n + i
    (u, decide (m ≤ n * u) && decide (n * u + n ≤ m + len)))
/-- One access through the path its address names; what is not memory does not meet the cache. -/
def State.access (s : State) (hi : Fin 4) (hm : HeatMap) (hint : Nat) (a : MemAccess) : State :=
  match regionOf hm a.addr with
  | .mem m | .sample m =>
    if aliasWin ≤ a.addr then (unitsOf 32 m a.len).foldl (fun s u => s.narrowGranule hi hint u.1 a.write u.2) s
    else (unitsOf 256 m a.len).foldl (fun s u => s.wideLine hi hint u.1 a.write u.2) s
  | _ => s
/-- The accesses of one command, in order (R193). -/
def State.traffic (s : State) (hi : Fin 4) (hm : HeatMap) (hint : Nat) (as : List MemAccess) : State :=
  as.foldl (fun s a => s.access hi hm hint a) s

/-! What the mover's commands access. -/

/-- The accesses to one row of a tensor and its scale bytes. -/
def rowAccess (d : Desc) (r : Nat) (write : Bool) : List MemAccess :=
  ⟨d.rowAddr r, d.rowLen, write⟩ :: if d.rowScales = 0 then [] else [⟨d.scaleAddr r, d.rowScales, write⟩]
/-- The cache hint of a mover command (R209, R211, R212). -/
def cacheHint (q : Nat) : Nat := if cmdOp q = 0x22 then fld q 69 68 else fld q 137 136
/-- The rows of the table that a GATHER or SCATTER STORE reaches, in index order. -/
def tableAccess (recipes : List Recipe) (sp : Space) (q tableOff : Nat) (write : Bool) : List MemAccess :=
  match sp.desc recipes tableOff, sp.desc recipes (fld q 135 112) with
  | .ok d, .ok i => ((sp.indices i).filter (fun v => decide (0 ≤ v))).flatMap (fun v => rowAccess d v.toNat write)
  | _, _ => []
/-- The rows of a PLAIN COPY: read and written in turn. -/
def plainAccess (recipes : List Recipe) (sp : Space) (q : Nat) : List MemAccess :=
  match sp.desc recipes (fld q 95 72), sp.desc recipes (fld q 119 96) with
  | .ok d, .ok a => (List.range a.rows).flatMap (fun r => rowAccess a r false ++ rowAccess d r true)
  | _, _ => []
/-- The page table entries and entry bytes that a KV_READ or KV_WRITE reaches at n positions; a write sets the length too. -/
def kvAccess (sp : Space) (r : KvRegion) (p : KvPool) (q n : Nat) (write : Bool) : List MemAccess :=
  let parts := if fld q 237 236 = 3 then [0, 1] else [fld q 237 236]
  (List.range n).flatMap (fun j =>
    let x := fld q 235 216 + j
    let e := ((sp.kvEntry r (x / 256)).toOption).getD 0
    ⟨r.addr + 64 + 8 * (x / 256), 8, false⟩ ::
      (if write || x < r.length then parts.map (fun k => ⟨kvAddr r p e k x, (r.part k 0).1, write⟩) else [])
      ++ if write then [⟨r.addr + 4, 4, true⟩] else [])
/-- The entries, descriptors and pages that a page operation reaches; after holds the memory it leaves. -/
def pageAccess (sp after : Space) (r : KvRegion) (p : KvPool) (q page : Nat) : List MemAccess :=
  let entry := fun (k : KvRegion) (i : Nat) (w : Bool) => (⟨k.addr + 64 + 8 * i, 8, w⟩ : MemAccess)
  let desc := fun (n : Nat) => [(⟨p.descs + 16 * n, 16, false⟩ : MemAccess), ⟨p.descs + 16 * n, 16, true⟩]
  let old := entryPage (((sp.kvEntry r page).toOption).getD 0)
  let new := entryPage (((after.kvEntry r page).toOption).getD 0)
  let fresh := [(⟨p.pages + new * p.pageB, p.pageB, true⟩ : MemAccess)] ++ desc new
  [entry r page false] ++ (match copOf q with
    | 3 => fresh
    | 4 => desc new
    | 5 => fresh ++ ((List.range 3).flatMap (fun k =>
        let n := fld q 176 168 * (r.part k 0).1
        if n = 0 then []
        else [(⟨p.pages + old * p.pageB + (r.part k 0).2, n, false⟩ : MemAccess), ⟨p.pages + new * p.pageB + (r.part k 0).2, n, true⟩]))
        ++ desc old
    | _ => if entryValid (((sp.kvEntry r page).toOption).getD 0) then desc old else []) ++ [entry r page true]
/-- The accesses of a KV operation: headers, then positions or pages (R171 to R176). -/
def kvOpAccess (recipes : List Recipe) (sp after : Space) (q : Nat) : List MemAccess :=
  let cop := copOf q
  match sp.kvRegion (fld q 167 120) with
  | .error _ => []
  | .ok r =>
    let src := if cop = 4 then fld q 215 168 else r.addr
    match sp.kvRegion src with
    | .error _ => []
    | .ok k => match sp.kvPool k with
      | .error _ => []
      | .ok p =>
        let heads := [(⟨r.addr, 64, false⟩ : MemAccess)] ++ (if cop = 4 then [⟨k.addr, 64, false⟩] else []) ++ [⟨k.pool, 64, false⟩]
        let rows := fun (off : Nat) => ((sp.desc recipes off).toOption.map Desc.d1).getD 0
        let first := fld q 235 216 / 256
        heads ++ (match cop with
          | 1 => kvAccess sp r p q (rows (fld q 95 72)) false
          | 2 => kvAccess sp r p q (rows (fld q 119 96)) true
          | 3 | 5 => pageAccess sp after r p q first
          | _ => (List.range (fld q 251 240 + 1)).flatMap (fun i => pageAccess sp after r p q (first + i)))
/-- The memory accesses of a mover command that completed, in order (DEDUCED, log 90). -/
def moverAccess (recipes : List Recipe) (sp after : Space) (q : Nat) : List MemAccess :=
  match cmdOp q with
  | 0x20 => tableAccess recipes sp q (fld q 111 88) false
  | 0x21 => if aopOf q = 0 then tableAccess recipes sp q (fld q 87 64) true else []
  | _ => if copOf q = 0 then plainAccess recipes sp q else kvOpAccess recipes sp after q
/-- The traffic of a mover command through the cache. -/
def State.moverTraffic (s : State) (x : Site) (sp after : Space) (q : Nat) : State :=
  s.traffic x.h sp.hm (cacheHint q) (moverAccess x.prog.recipes sp after q)

end Sys2Proof.Machine
end

