-- ==== Sys2Proof/Machine/Tree.lean ====
section
/-! DEFINITION. Canonical order (R55 to R58): the pairwise tree, the segment stack that realises it in the matrix array (R98),
and the leaf stack of the vector engine (R144). An absent term is an empty leaf. -/
namespace Sys2Proof.Machine

/-- combine of R55: an empty leaf passes its sibling through. -/
def combineO {α : Type} (f : α → α → α) : Option α → Option α → Option α
  | none, b => b
  | a, none => a
  | some x, some y => some (f x y)

/-- combine of two FP32 values: one rounding (R55). -/
def combine32 (a b : Word) : Word := add32 a b

/-- One level of the tree: neighbours paired, a last odd entry passed through. -/
def pairUp {α : Type} (f : α → α → α) : List (Option α) → List (Option α)
  | a :: b :: rest => combineO f a b :: pairUp f rest
  | [a] => [a]
  | [] => []

/-- The given number of levels of pairing. -/
def treeLevels {α : Type} (f : α → α → α) : Nat → List (Option α) → List (Option α)
  | 0, xs => xs
  | n + 1, xs => treeLevels f n (pairUp f xs)

/-- tree(x[0 .. n−1]) of R55: padded with empty entries to a power of two, paired level by level. -/
def canonTree {α : Type} (f : α → α → α) (xs : List (Option α)) : Option α :=
  let p := pow2Ceil xs.length
  ((treeLevels f p.log2 (xs ++ List.replicate (p - xs.length) none)).head?).join

/-- tree over FP32 terms; +0 where every leaf is empty (R55). -/
def tree32 (xs : List (Option Word)) : Word := (canonTree combine32 xs).getD f32zero

/-- A segment close: m merges of the running entry with the top of the stack (R98). The stack's top is its head. -/
def closeSeg {α : Type} (f : α → α → α) : Nat → List (Option α) → Option α → List (Option α)
  | 0, stk, run => run :: stk
  | m + 1, top :: stk, run => closeSeg f m stk (combineO f top run)
  | _ + 1, [], run => [run]

/-- The stack after the segments, the first of which has index j (R98). -/
def segRun {α : Type} (f : α → α → α) : Nat → List (Option α) → List (Option α) → List (Option α)
  | _, stk, [] => stk
  | j, stk, x :: xs => segRun f (j + 1) (closeSeg f (ctz 64 (j + 1)) stk x) xs

/-- What a segment close writes to the registers of its block: the running entry above the stack, and each merge one place lower (R98). -/
def closeWrites {α : Type} (f : α → α → α) : Nat → List (Option α) → Option α → List (Nat × Option α)
  | 0, stk, run => [(stk.length, run)]
  | m + 1, top :: stk, run => (stk.length + 1, run) :: closeWrites f m stk (combineO f top run)
  | _ + 1, [], run => [(0, run)]

/-- What the segments write to the registers of a block, in order (R98). -/
def segWrites {α : Type} (f : α → α → α) : Nat → List (Option α) → List (Option α) → List (Nat × Option α)
  | _, _, [] => []
  | j, stk, x :: xs =>
    closeWrites f (ctz 64 (j + 1)) stk x ++ segWrites f (j + 1) (closeSeg f (ctz 64 (j + 1)) stk x) xs

/-- The flush: remaining subtrees joined from the most recent to the oldest (R98). -/
def segFlush {α : Type} (f : α → α → α) : List (Option α) → Option α
  | [] => none
  | top :: rest => rest.foldl (fun acc below => combineO f below acc) top

/-- The segment stack of R98 over the segment sums, an empty segment being an empty leaf (R115). -/
def segStack {α : Type} (f : α → α → α) (xs : List (Option α)) : Option α := segFlush f (segRun f 0 [] xs)

/-- Cut a list into leaves of 256 (R144); fuel bounds the number of leaves. -/
def leaves256 {α : Type} : Nat → List α → List (List α)
  | 0, _ => []
  | n + 1, xs => if xs.isEmpty then [] else xs.take 256 :: leaves256 n (xs.drop 256)

/-- One reduction leaf: 256 positions summed by an 8-level tree (R144). -/
def leafTree {α : Type} (f : α → α → α) (xs : List (Option α)) : Option α :=
  ((treeLevels f 8 (xs ++ List.replicate (256 - xs.length) none)).head?).join

/-- reduce_set of R144: leaves of 256, each an 8-level tree, combined by the leaf stack. -/
def reduceSet {α : Type} (f : α → α → α) (xs : List (Option α)) : Option α :=
  segStack f ((leaves256 (xs.length / 256 + 1) xs).map (leafTree f))

/-- A (count, mean, M2) triple of MEANVAR (R145). -/
structure Triple where
  /-- number of elements -/
  n : Nat
  /-- mean, FP32 -/
  mean : Word
  /-- sum of squared deviations, FP32 -/
  m2 : Word
deriving DecidableEq, Repr

/-- combine3 of R145. -/
def combine3 (a b : Triple) : Triple :=
  let n := a.n + b.n
  let dlt := sub32 b.mean a.mean
  let wb := r32 (ratio false b.n n 0)
  let w := r32 (ratio false (a.n * b.n) n 0)
  ⟨n, add32 a.mean (mul32 dlt wb), add32 (add32 a.m2 b.m2) (mul32 (mul32 dlt dlt) w)⟩

end Sys2Proof.Machine
end

