-- ==== Sys2Proof/Machine/MatrixCore.lean ====
section
/-! DEFINITION. What the matrix array computes: MATMUL (R89 to R107) and the windowed operators of CONV (R108 to R124), as functions
of the issuing cluster's store. -/
namespace Sys2Proof.Machine

/-- The sequential sum of one segment's products (R56, R91): the first product is rounded alone; an empty tap forms none (R115). -/
def segSum (terms : List (Option FV)) : Option Word :=
  terms.foldl (fun acc t =>
    match t, acc with
    | none, acc => acc
    | some p, none => some (r32 p)
    | some p, some a => some (r32 ((v32 a).add p))) none

/-- The reduction of one output element: segments of seg products, joined by the segment stack (R56, R98). -/
def dotF (seg : Nat) (terms : List (Option FV)) : Option Word :=
  segStack combine32 ((cut seg (terms.length + 1) terms).map segSum)

/-- The exact product of two decoded operands (R91, R92). -/
def prodF (a b : Word) : FV := (v32 a).mul (v32 b)

/-- Accumulator width of an integer acc code: INT32 for 1, INT64 for 2 (R93, R103). -/
def accBits (acc : Nat) : Nat := if acc = 2 then 64 else 32
/-- The format code of an acc code (R100, R103). -/
def accFmt (acc : Nat) : Nat := if acc = 0 then 0 else if acc = 1 then 13 else 14

/-- Outputs per cell of a tile shape (R96). -/
def shapeOuts (shape : Nat) : Nat := if shape = 0 then 1 else if shape = 3 then 4 else 2

/-- Tiles in progress that fit the registers (R97). -/
def tilesMax (acc shape n : Nat) : Nat :=
  8 / (shapeOuts shape * (if acc = 2 then 2 else 1) * ((if acc = 0 then n.log2 else 0) + 1))

/-- The tiles field obeys R97 for n segments. -/
def tilesOk (acc shape tiles n : Nat) : Bool := 1 ≤ tiles && tiles ≤ tilesMax acc shape n

/-- The MATMUL body obeys the load rows of R107. -/
def matmulBodyOk (seg q : Nat) : Bool :=
  rsv q 151 149 && rsv q 255 208 && fld q 141 140 != 3
    && 1 ≤ fld q 147 144 && fld q 147 144 ≤ 8
    && fld q 87 64 % 64 == 0 && fld q 111 88 % 64 == 0 && fld q 135 112 % 64 == 0
    && tilesOk (fld q 141 140) (fld q 143 142) (fld q 147 144) (ceilDiv (fld q 207 184 + 1) seg)

/-- The operand formats and the accumulator agree (R94). -/
def accOk (fa fb acc : Nat) : Bool :=
  if fa == 12 || fb == 12 then fa == 12 && fb == 12 && (acc == 1 || acc == 2)
  else fa ≤ 11 && fb ≤ 11 && acc == 0

/-- The output format is permitted for the accumulator (R94), and its kind for a matrix output (R163). -/
def matOutOk (acc : Nat) (c : Desc) (add : Bool) : Bool :=
  (if acc = 0 then c.fmt ≤ 11 else c.fmt == 13 || c.fmt == 14)
    && (!add || c.fmt == accFmt acc) && c.kind != 0 && c.kind != 2

/-- The layout rules every matrix operand and output obeys (R104, R126). -/
def matTensorOk (d : Desc) : Bool :=
  d.rank == 2 && d.lenTab == noDesc && d.base % 128 == 0 && d.s1 % 128 == 0

/-- The element (i, j) of a list of rows. -/
def elemAt {α : Type} (dflt : α) (rows : List (List α)) (i j : Nat) : α := (rows.getD i []).getD j dflt

/-- The row list of a tensor as FP32 values. -/
def Desc.allFloats (d : Desc) (rd : Nat → Nat → Bytes) : List (List Word) := (List.range d.rows).map (d.floats rd)
/-- The row list of a tensor as integers. -/
def Desc.allInts (d : Desc) (rd : Nat → Nat → Bytes) : List (List Int) := (List.range d.rows).map (d.ints rd)

/-- The drained element of a floating-point accumulation (R100). -/
def drainF (add : Bool) (existing : Word) (r : Option Word) : Elem :=
  .f (if add then combine32 existing (r.getD f32zero) else r.getD f32zero)

/-- The drained element of an integer accumulation (R57, R93, R100). -/
def drainI (w : Nat) (add : Bool) (existing sum : Int) : Elem :=
  .i (sgn w (wrap w (if add then existing + sum else sum)))

/-! The accumulator registers a pass writes (R95 to R98; DEDUCED, log 127). -/

/-- The tiles of a pass as (row of tiles, column of tiles), in traversal order (R103). -/
def tileSeq (mFast : Bool) (mt nt : Nat) : List (Nat × Nat) :=
  if mFast then (List.range nt).flatMap (fun j => (List.range mt).map (fun i => (i, j)))
  else (List.range mt).flatMap (fun i => (List.range nt).map (fun j => (i, j)))
/-- The registers of one output: a stack of d + 1 places of w registers each (R97). -/
def outRegs (acc n : Nat) : Nat := (if acc = 2 then 2 else 1) * ((if acc = 0 then n.log2 else 0) + 1)
/-- The register writes of one pass of M by N outputs whose first row is r0 and whose first tile is number t0 of the command. el gives what output (r, c) writes to its own
registers. Tile t takes block t mod tiles; the outputs of a cell follow one another in it, upper before lower, left before right. -/
def passWrites (r0 acc n t0 m nn : Nat) (mFast : Bool) (tiles shape : Nat) (el : Nat → Nat → List (Nat × Nat)) : List (Nat × Nat) :=
  let th := if shape = 1 ∨ shape = 3 then 256 else 128
  let tw := if 2 ≤ shape then 256 else 128
  let slots := outRegs acc n
  ((tileSeq mFast (ceilDiv m th) (ceilDiv nn tw)).mapIdx (fun t ab =>
    let base := (t0 + t) % tiles * (shapeOuts shape * slots)
    (List.range (min th (m - ab.1 * th))).flatMap (fun i => (List.range (min tw (nn - ab.2 * tw))).flatMap (fun j =>
      (el (r0 + ab.1 * th + i) (ab.2 * tw + j)).map (fun p =>
        ((i % 128 * 128 + j % 128) * 8 + base + (i / 128 * (tw / 128) + j / 128) * slots + p.1, p.2)))))).flatten
/-- What a floating-point output writes: the segment stack's places (R98); an empty segment writes none. -/
def floatWrites (seg : Nat) (terms : List (Option FV)) : List (Nat × Nat) :=
  (segWrites combine32 0 [] ((cut seg (terms.length + 1) terms).map segSum)).filterMap (fun p => p.2.map (fun v => (p.1, v.toNat)))
/-- What an integer output writes: its sum, an INT64 in an even and an odd register (R95). -/
def intWrites (acc : Nat) (v : Int) : List (Nat × Nat) :=
  if acc = 2 then [(0, wrap 64 v % 2 ^ 32), (1, wrap 64 v / 2 ^ 32)] else [(0, wrap 32 v)]
/-- A word put into a list of registers with rising keys. -/
def putReg : List (Nat × Nat) → Nat × Nat → List (Nat × Nat)
  | [], p => [p]
  | e :: m, p => if p.1 < e.1 then p :: e :: m else if p.1 = e.1 then p :: m else e :: putReg m p
/-- Registers written in order; one that unlisted registers equal is not listed. -/
def Accs.put (a : Accs) (ws : List (Nat × Nat)) : Accs :=
  let regs := ws.foldl putReg a.regs
  { a with regs := if a.lost.isNone then regs.filter (fun p => p.2 != 0) else regs }
/-- Register r of cell (i, j): the word a command last put there, or what the array held before (R95, R357). -/
def Accs.reg (a : Accs) (i j r : Nat) : Word :=
  let key := (128 * i + j) * 8 + r
  match a.regs.lookup key, a.lost with
  | some v, _ => BitVec.ofNat 32 v
  | none, some stamp => Config.lostRegister stamp key
  | none, none => 0

/-- The drain (R100, R101): rows in increasing order; el gives the element of output row r, column i over what the row held. Where stride1 lets
the rows of a matrix output share bytes, which no rule refuses, the later row's bytes stand (DESIGN CHOICE, log 128). -/
def drain (x : EngCtx) (c : Desc) (add : Bool) (elF : Option (Nat → Nat → Option Word)) (elI : Nat → Nat → Int) (w : Nat)
    (st : Mem) : Mem :=
  (List.range c.rows).foldl (fun m r =>
    let es : List (Option Elem) :=
      match elF with
      | some f =>
        let old := if add then c.floats (x.rd m) r else []
        (List.range c.d0).map (fun i => some (drainF add (old.getD i f32zero) (f r i)))
      | none =>
        let old := if add then c.ints (x.rd m) r else []
        (List.range c.d0).map (fun i => some (drainI w add (old.getD i 0) (elI r i)))
    putAll x.lo m (c.rowOut r es).writes) st

/-- MATMUL over the issuing cluster's store (R89 to R107): the store after it, or the status it ends with. -/
def matmulRun (x : EngCtx) (st : Mem) (q : Nat) : Except Nat EngOut := do
  demand (matmulBodyOk x.seg q) eDesc
  let a ← loadDesc x.hm x.recipes st (fld q 87 64)
  let b ← loadDesc x.hm x.recipes st (fld q 111 88)
  let c ← loadDesc x.hm x.recipes st (fld q 135 112)
  let at' := bitAt q 136
  let bt := bitAt q 137
  let ct := bitAt q 138
  let add := bitAt q 139
  let acc := fld q 141 140
  let m := fld q 167 152 + 1
  let n := fld q 183 168 + 1
  let k := fld q 207 184 + 1
  demand (matTensorOk a && matTensorOk b && matTensorOk c) eDesc
  need (firstStatus (ownRangeStatus x.hm x.own) (a.ranges ++ b.ranges ++ c.ranges))
  demand (accOk a.fmt b.fmt acc && matOutOk acc c add) eDesc
  demand ((!isBlockFmt a.fmt || !at') && (!isBlockFmt b.fmt || bt)) eDesc
  demand ((if at' then a.d1 == k && a.d0 == m else a.d1 == m && a.d0 == k)
    && (if bt then b.d1 == n && b.d0 == k else b.d1 == k && b.d0 == n)
    && (if ct then c.d1 == n && c.d0 == m else c.d1 == m && c.d0 == n)) eDesc
  demand (!rangesMeet c.ranges (a.ranges ++ b.ranges)) eDesc
  let writes := passWrites 0 acc (ceilDiv k x.seg) 0 m n (bitAt q 148) (fld q 147 144) (fld q 143 142)
  if acc = 0 then
    let av := a.allFloats (x.rd st)
    let bv := b.allFloats (x.rd st)
    let terms := fun (i j : Nat) => (List.range k).map (fun t =>
      some (prodF (if at' then elemAt f32zero av t i else elemAt f32zero av i t)
        (if bt then elemAt f32zero bv j t else elemAt f32zero bv t j)))
    let el := fun (i j : Nat) => dotF x.seg (terms i j)
    .ok ⟨drain x c add (some (fun r i => if ct then el i r else el r i)) (fun _ _ => 0) 32 st,
      writes (fun i j => floatWrites x.seg (terms i j))⟩
  else
    let av := a.allInts (x.rd st)
    let bv := b.allInts (x.rd st)
    let el := fun (i j : Nat) => ((List.range k).map (fun t =>
      (if at' then elemAt 0 av t i else elemAt 0 av i t) * (if bt then elemAt 0 bv j t else elemAt 0 bv t j))).sum
    .ok ⟨drain x c add none (fun r i => if ct then el i r else el r i) (accBits acc) st, writes (fun i j => intWrites acc (el i j))⟩

/-- A window descriptor (R110), unused spatial dimensions held at extent 1 with no padding. Each list runs (w, h, d). -/
structure Win where
  /-- spatial dimensions -/
  dims : Nat
  /-- padding mode -/
  padMode : Nat
  /-- groups -/
  groups : Nat
  /-- kernel extents -/
  ker : List Nat
  /-- strides -/
  stride : List Nat
  /-- dilations -/
  dil : List Nat
  /-- input dilations -/
  idil : List Nat
  /-- padding before -/
  padLo : List Nat
  /-- padding after -/
  padHi : List Nat
  /-- count padded taps in the divisor of AVGPOOL -/
  countPad : Bool
  /-- constant padding bits -/
  padValue : Nat
  /-- input extents -/
  ext : List Nat
  /-- samples -/
  batch : Nat
  /-- input channels -/
  cin : Nat
  /-- output channels -/
  cout : Nat
deriving DecidableEq, Repr

/-- The window descriptor in 512 bits (R110, R124): E_DESC for a reserved field, dims 0 or a kernel beyond dims. -/
def parseWin (w : Nat) : Except Nat Win :=
  let dims := fld w 1 0
  let trim := fun (dflt : Nat) (xs : List Nat) => xs.mapIdx (fun i v => if i < dims then v else dflt)
  if rsv w 7 4 && rsv w 79 73 && rsv w 127 116 && rsv w 511 256 && dims != 0
    && (2 ≤ dims || rsv w 35 30) && (3 ≤ dims || rsv w 41 36) then
    .ok { dims := dims, padMode := fld w 3 2, groups := fld w 23 8 + 1,
          ker := [fld w 29 24 + 1, fld w 35 30 + 1, fld w 41 36 + 1],
          stride := trim 1 [fld w 44 42 + 1, fld w 47 45 + 1, fld w 50 48 + 1],
          dil := trim 1 [fld w 54 51 + 1, fld w 58 55 + 1, fld w 62 59 + 1],
          idil := trim 1 [fld w 66 64 + 1, fld w 69 67 + 1, fld w 72 70 + 1],
          padLo := trim 0 [fld w 85 80, fld w 97 92, fld w 109 104],
          padHi := trim 0 [fld w 91 86, fld w 103 98, fld w 115 110],
          countPad := bitAt w 63, padValue := fld w 159 128,
          ext := trim 1 [fld w 175 160 + 1, fld w 191 176 + 1, fld w 207 192 + 1],
          batch := fld w 223 208 + 1, cin := fld w 239 224 + 1, cout := fld w 255 240 + 1 }
  else .error eDesc

/-- The dilated input extent in one dimension (R111). -/
def Win.dilExt (w : Win) (i : Nat) : Nat := (w.ext.getD i 1 - 1) * w.idil.getD i 1 + 1

/-- The output extent in one dimension, 0 where R111 gives none of at least 1. -/
def Win.outExt (w : Win) (i : Nat) : Nat :=
  let span := w.dilExt i + w.padLo.getD i 0 + w.padHi.getD i 0
  let reach := w.dil.getD i 1 * (w.ker.getD i 1 - 1) + 1
  if span < reach then 0 else (span - reach) / w.stride.getD i 1 + 1

/-- Output positions of the command: batch times the output extents (R111). -/
def Win.outs (w : Win) : Nat := w.batch * w.outExt 0 * w.outExt 1 * w.outExt 2
/-- Input positions. -/
def Win.ins (w : Win) : Nat := w.batch * w.ext.getD 0 1 * w.ext.getD 1 1 * w.ext.getD 2 1
/-- Taps of the kernel. -/
def Win.taps (w : Win) : Nat := w.ker.getD 0 1 * w.ker.getD 1 1 * w.ker.getD 2 1

/-- What one dimension of a tap reads (R114). -/
inductive Tap where
  /-- a source index -/
  | src (i : Nat)
  /-- an inserted zero: forms no product (R115) -/
  | gap
  /-- empty padding: forms no product (R115) -/
  | empty
  /-- constant padding -/
  | const
deriving DecidableEq, Repr

/-- The padding rules of R114 for a coordinate outside 0 to n − 1. -/
def padSrc (mode : Nat) (i : Int) (n : Nat) : Tap :=
  if mode = 0 then .empty
  else if mode = 1 then .const
  else if mode = 3 then .src ((min (max i 0) ((n : Int) - 1)).toNat)
  else if n = 1 then .src 0
  else
    let p := 2 * ((n : Int) - 1)
    let m := i % p
    .src (if (n : Int) ≤ m then (p - m).toNat else m.toNat)

/-- Positions in one row of the slowest spatial dimension: the unit of a halo (R121). -/
def Win.rowPositions (w : Win) : Nat := ((w.ext.take (w.dims - 1)).foldl (· * ·) 1)

/-- What the tap index t reads in dimension dim at output index o (R114). -/
def Win.tapDim (w : Win) (dim o t : Nat) : Tap :=
  let i : Int := (o * w.stride.getD dim 1 : Nat) - (w.padLo.getD dim 0 : Nat) + (t * w.dil.getD dim 1 : Nat)
  let q : Int := w.idil.getD dim 1
  if i % q ≠ 0 then .gap
  else if 0 ≤ i && i < w.dilExt dim then .src (i / q).toNat
  else padSrc w.padMode i (w.ext.getD dim 1)

/-- What a whole tap reads: a source position (row of the input), a gap, emptiness or the constant (R114, R115). Of a tap with one coordinate an
inserted zero and another in empty padding the spec says neither; it is taken as padding, which count_pad counts (DESIGN CHOICE, log 129). -/
def Win.tap (w : Win) (pos t : Nat) : Tap :=
  let ow := pos % w.outExt 0
  let oh := pos / w.outExt 0 % w.outExt 1
  let od := pos / (w.outExt 0 * w.outExt 1) % w.outExt 2
  let b := pos / (w.outExt 0 * w.outExt 1 * w.outExt 2)
  let tw := t % w.ker.getD 0 1
  let th := t / w.ker.getD 0 1 % w.ker.getD 1 1
  let td := t / (w.ker.getD 0 1 * w.ker.getD 1 1)
  match w.tapDim 0 ow tw, w.tapDim 1 oh th, w.tapDim 2 od td with
  | .src x, .src y, .src z => .src (((b * w.ext.getD 2 1 + z) * w.ext.getD 1 1 + y) * w.ext.getD 0 1 + x)
  | dx, dy, dz =>
    if dx = .const ∨ dy = .const ∨ dz = .const then .const
    else if dx = .empty ∨ dy = .empty ∨ dz = .empty then .empty else .gap

/-- The value a tap reads from the input rows, none where it forms no product. -/
def tapVal {α : Type} (dflt const : α) (rows : List (List α)) (tp : Tap) (ch : Nat) : Option α :=
  match tp with
  | .src p => some (elemAt dflt rows p ch)
  | .const => some const
  | _ => none

/-- The CONV body obeys the load rows of R124; halo channels are checked against the channel list apart. -/
def convBodyOk (q : Nat) : Bool :=
  let mode := fld q 162 160
  rsv q 175 175 && rsv q 255 192 && (mode ≤ 2 || mode == 4 || mode == 5) && fld q 165 164 != 3
    && 1 ≤ fld q 171 168 && fld q 171 168 ≤ 8
    && fld q 87 64 % 64 == 0 && fld q 135 112 % 64 == 0 && fld q 159 136 % 64 == 0
    && (if mode ≤ 2 then fld q 111 88 % 64 == 0
        else if mode == 4 then fld q 111 88 % 64 == 0 || fld q 111 88 == noDesc else fld q 111 88 == noDesc)

/-- A halo slot (store offset, bytes, slots, token-only) lies exactly over whole rows of the slowest spatial dimension, of so many positions each,
at one edge of the input range (R121). -/
def haloOk (x : EngCtx) (d : Desc) (positions : Nat) (atTop : Bool) (h : Option (Nat × Nat × Nat)) : Bool :=
  match h with
  | none => true
  | some (off, bytes, slots) =>
    slots == 1 && bytes != 0 && d.s1 != 0 && bytes % (positions * d.s1) == 0 && bytes ≤ d.d1 * d.s1
      && (if atTop then x.lo + off == d.base else x.lo + off + bytes == d.base + d.d1 * d.s1)

/-- The sum of AVGPOOL's taps in tap order and the divisor (R118). -/
def avgTaps (countPad : Bool) (ts : List (Tap × Option Word)) : Word :=
  let vals := ts.filterMap (·.2)
  let cnt := vals.length + (if countPad then (ts.filter (fun t => t.1 == .empty)).length else 0)
  if cnt = 0 then f32zero
  else
    let sum := (segSum (vals.map (fun v => some (v32 v)))).getD f32zero
    r32 ((v32 sum).div (FV.ofInt cnt))

/-- MAXPOOL's value and the index of the first tap that holds it (R118, R119); no index where no tap formed a value. -/
def maxTaps (ts : List (Option Word)) : Word × Option Nat :=
  let vals := (ts.mapIdx (fun i v => v.map (fun w => (i, w)))).filterMap id
  match vals with
  | [] => (f32zero, none)
  | (i0, v0) :: rest =>
    match vals.find? (fun p => (v32 p.2).isNan) with
    | some p => (f32nan, some p.1)
    | none =>
      let best := rest.foldl (fun b p => if (v32 b.2).below (v32 p.2) then p else b) (i0, v0)
      (best.2, some best.1)

/-- The index written for output row p, column ch; free where R119 gives none. -/
def poolIndex (p ch : Nat) (i : Option Nat) : Int :=
  match i with
  | some t => t
  | none => (Config.emptyPoolIndex p ch).toInt

/-- The register writes of a CONV, group after group (R117): the groups cut the columns, or the rows of a WGRAD. -/
def groupWrites (w : Win) (q mode acc n rows cols : Nat) (el : Nat → Nat → List (Nat × Nat)) : List (Nat × Nat) :=
  let gm := if mode = 2 then rows / w.groups else rows
  let gn := if mode = 2 then cols else cols / w.groups
  let shape := fld q 167 166
  let perGroup := ceilDiv gm (if shape = 1 ∨ shape = 3 then 256 else 128) * ceilDiv gn (if 2 ≤ shape then 256 else 128)
  (List.range w.groups).flatMap (fun g =>
    passWrites (if mode = 2 then g * gm else 0) acc n (g * perGroup) gm gn (bitAt q 172) (fld q 171 168) shape
      (fun r j => el r (if mode = 2 then j else g * gn + j)))

/-- CONV over the issuing cluster's store in any mode (R108 to R124). haloLo and haloHi are the slots taken (R122). An MX or UB4 output is encoded
in blocks along its whole row, so a block may span two groups, on which the spec is silent (DESIGN CHOICE, log 131). -/
def convRun (x : EngCtx) (st : Mem) (q : Nat) (haloLo haloHi : Option (Nat × Nat × Nat)) : Except Nat EngOut := do
  demand (convBodyOk q) eDesc
  let mode := fld q 162 160
  let add := bitAt q 163
  let acc := fld q 165 164
  let shape := fld q 167 166
  let bOff := fld q 111 88
  let a ← loadDesc x.hm x.recipes st (fld q 87 64)
  let c ← loadDesc x.hm x.recipes st (fld q 135 112)
  let b? ← (if bOff = noDesc then .ok none else (loadDesc x.hm x.recipes st bOff).map some)
  let w ← parseWin (st.num (fld q 159 136) 64)
  let bd := b?.getD a
  let all := a :: c :: b?.toList
  demand (all.all matTensorOk) eDesc
  need (firstStatus (ownRangeStatus x.hm x.own) (all.flatMap Desc.ranges))
  demand (w.padMode == 0 || w.idil.all (· == 1)) eDesc
  demand (w.taps ≤ 512 && w.cin % w.groups == 0 && w.cout % w.groups == 0) eLimit
  demand (1 ≤ w.outExt 0 && 1 ≤ w.outExt 1 && 1 ≤ w.outExt 2) eDesc
  let ci := w.cin / w.groups
  let co := w.cout / w.groups
  -- the K of the command (R109) within R97 and R112
  let k := if mode = 0 then w.taps * ci else if mode = 1 then w.taps * ci else if mode = 2 then w.outs else w.taps
  demand (k ≤ 16777216) eLimit
  demand (tilesOk acc shape (fld q 171 168) (if 4 ≤ mode then 1 else ceilDiv k x.seg)) eDesc
  demand (matOutOk acc c add) eDesc
  demand (!rangesMeet c.ranges (a.ranges ++ (if mode = 4 then [] else (b?.map Desc.ranges).getD []))) eDesc
  let inp := if mode = 2 then bd else a
  demand (haloOk x inp w.rowPositions true haloLo && haloOk x inp w.rowPositions false haloHi) eDesc
  -- bits [159:136] of pad_value are looked at under constant padding alone (DEDUCED, log 130)
  demand (inp.fmt != 12 || w.padMode != 1 || w.padValue / 256 == 0) eDesc
  let cF := BitVec.ofNat 32 w.padValue
  let cI := sgn 8 w.padValue
  if 4 ≤ mode then
    demand (a.fmt ≤ 11 && acc == 0 && shape == 0) eDesc
    demand (w.cin == w.cout && a.d1 == w.ins && a.d0 == w.cin && c.d1 == w.outs && c.d0 == w.cout) eDesc
    demand (mode == 5 || (match b? with
      | some d => d.fmt == 13 && d.d1 == w.outs && d.d0 == w.cout && d.kind != 0 && d.kind != 2
          && !rangesMeet d.ranges (a.ranges ++ c.ranges)
      | none => true)) eDesc
    let av := a.allFloats (x.rd st)
    let taps := fun (p ch : Nat) => (List.range w.taps).map (fun t =>
      let tp := w.tap p t; (tp, tapVal f32zero cF av tp ch))
    let el := fun (p ch : Nat) => some (if mode = 5 then avgTaps w.countPad (taps p ch) else (maxTaps ((taps p ch).map (·.2))).1)
    let st1 := drain x c add (some el) (fun _ _ => 0) 32 st
    let regs := groupWrites w q mode acc 1 w.outs w.cout (fun p ch =>
      let vals := (taps p ch).filterMap (·.2)
      if vals = [] then []
      else [(0, (if mode = 5 then (segSum (vals.map (fun v => some (v32 v)))).getD f32zero else (maxTaps (vals.map some)).1).toNat)])
    match b?, mode with
    | some d, 4 => .ok ⟨drain x d false none (fun p ch => poolIndex p ch (maxTaps ((taps p ch).map (·.2))).2) 32 st1, regs⟩
    | _, _ => .ok ⟨st1, regs⟩
  else
    demand (accOk a.fmt bd.fmt acc) eDesc
    demand ((mode != 2 || (!isBlockFmt a.fmt && !isBlockFmt bd.fmt)) && (mode != 1 || !isBlockFmt bd.fmt)) eDesc
    -- descriptor rows and columns (R108, R111)
    demand (if mode = 0 then
        a.d1 == w.ins && a.d0 == w.cin && bd.d1 == w.cout && bd.d0 == w.taps * ci && c.d1 == w.outs && c.d0 == w.cout
      else if mode = 1 then
        a.d1 == w.ins && a.d0 == w.cin && bd.d1 == w.cin && bd.d0 == w.taps * co && c.d1 == w.outs && c.d0 == w.cout
      else
        a.d1 == w.outs && a.d0 == w.cout && bd.d1 == w.ins && bd.d0 == w.cin && c.d1 == w.cout && c.d0 == w.taps * ci) eDesc
    -- the terms of output row r, column j, in K order (R109), over operands of either number kind
    let termIdx := fun (r j : Nat) => (List.range k).map (fun kk =>
      if mode = 0 then
        let g := j / co
        (w.tap r (kk / ci), g * ci + kk % ci, j, kk)
      else if mode = 1 then
        let g := j / co
        let t := kk / ci
        (w.tap r t, g * ci + kk % ci, g * ci + kk % ci, (w.taps - 1 - t) * co + j % co)
      else
        let g := r / co
        (w.tap kk (j / ci), g * ci + j % ci, kk, r))
    if acc = 0 then
      let av := a.allFloats (x.rd st)
      let bv := bd.allFloats (x.rd st)
      let iv := if mode = 2 then bv else av
      let ov := if mode = 2 then av else bv
      let terms := fun (r j : Nat) => (termIdx r j).map (fun (tp, ch, wr, wc) =>
        (tapVal f32zero cF iv tp ch).map (fun v => prodF v (elemAt f32zero ov wr wc)))
      .ok ⟨drain x c add (some (fun r j => dotF x.seg (terms r j))) (fun _ _ => 0) 32 st,
        groupWrites w q mode acc (ceilDiv k x.seg) c.d1 c.d0 (fun r j => floatWrites x.seg (terms r j))⟩
    else
      let av := a.allInts (x.rd st)
      let bv := bd.allInts (x.rd st)
      let iv := if mode = 2 then bv else av
      let ov := if mode = 2 then av else bv
      let el := fun (r j : Nat) => ((termIdx r j).map (fun (tp, ch, wr, wc) =>
        ((tapVal 0 cI iv tp ch).map (fun v => v * elemAt 0 ov wr wc)).getD 0)).sum
      .ok ⟨drain x c add none el (accBits acc) st, groupWrites w q mode acc (ceilDiv k x.seg) c.d1 c.d0 (fun r j => intWrites acc (el r j))⟩

end Sys2Proof.Machine
end

