-- ==== Sys2Proof/Machine/FnTable.lean ====
section
/-! DEFINITION. Function tables (R138 to R141): the directory's headers and the table lookup. -/
namespace Sys2Proof.Machine

/-- A function header (R139). -/
structure FnHead where
  /-- the header describes a function -/
  valid : Bool
  /-- 0 UNIFORM, 1 EXPO, 2 LOGM -/
  mode : Nat
  /-- knots_log2 -/
  k : Nat
  /-- span_log2 -/
  p : Int
  /-- word offset of the value table -/
  valueOff : Nat
  /-- word offset of the derivative table, 0xFFFF for none -/
  derivOff : Nat
  /-- UNIFORM rule below lo -/
  below : Nat
  /-- UNIFORM rule at and above lo + 2^p -/
  above : Nat
  /-- lower bound, or the per-octave step of LOGM -/
  lo : Word
  /-- pre-multiplier -/
  preMul : Word
deriving DecidableEq, Repr

/-- The fields of a 32-byte function header (R139). -/
def parseFn (w : Nat) : FnHead :=
  { valid := bitAt w 0, mode := fld w 2 1, k := fld w 7 4, p := sgn 8 (fld w 15 8), valueOff := fld w 31 16,
    derivOff := fld w 47 32, below := fld w 49 48, above := fld w 51 50,
    lo := BitVec.ofNat 32 (fld w 95 64), preMul := BitVec.ofNat 32 (fld w 127 96) }

/-- A power of two as a value. -/
def pow2V (p : Int) : FV := .fin false 1 p

/-- A header with valid = 1 obeys R139. -/
def fnOk (w : Nat) : Bool :=
  let h := parseFn w
  let n := 2 ^ h.k + 1
  let top := (v32 h.lo).add (pow2V h.p)
  rsv w 3 3 && rsv w 63 52 && rsv w 255 128 && h.mode != 3 && 1 ≤ h.k && h.k ≤ 12
    && (-32 ≤ h.p && h.p ≤ 32) && (h.mode == 0 || h.p == 0)
    && 128 ≤ h.valueOff && h.valueOff + n ≤ 65536
    && (h.derivOff == 0xFFFF || (128 ≤ h.derivOff && h.derivOff + n ≤ 65536))
    && h.below != 3 && h.above != 3
    && (v32 h.preMul).isFin && !(v32 h.preMul).isZero
    && (if h.mode = 0 then (v32 h.lo).isFin && (v32 (r32 top)).eqv top
        else h.mode != 1 || h.lo == 0)

/-- A header with valid = 0 has no reserved bit set and no reserved encoding of a field of its own: mode 3, rule 3 (R11, R139). -/
def fnUnusedOk (w : Nat) : Bool :=
  rsv w 3 3 && rsv w 63 52 && rsv w 255 128 && fld w 2 1 != 3 && fld w 49 48 != 3 && fld w 51 50 != 3

/-- The directory of a function-table memory obeys R138: every valid header is in order. -/
def fnDirOk (fn : Mem) : Bool :=
  (List.range 16).all (fun f => let w := fn.num (32 * f) 32; if bitAt w 0 then fnOk w else fnUnusedOk w)

/-- Knot i of a table at a word offset (R138). -/
def knot (fn : Mem) (off i : Nat) : FV := v32 (BitVec.ofNat 32 (fn.num (4 * (off + i)) 4))

/-- One knot's part in an interpolation: absent with weight zero. -/
def knotPart (v : FV) (weightZero : Bool) : Option FV := if weightZero then none else some v

/-- (1 − g) T[i] + g T[i+1], exact, over the knots that take part (R140). g is a finite value between 0 and 1. Where one knot alone takes part its
zero keeps its sign (DEDUCED, log 136). -/
def interpExact (fn : Mem) (off n : Nat) (t : FV) : FV :=
  match t with
  | .fin s m e =>
    let i := min (finFloor s m e).toNat (n - 2)
    let g := t.add (FV.ofInt (-(i : Int)))
    let one := FV.ofInt 1
    let a := knotPart (knot fn off i) (g.eqv one)
    let b := knotPart (knot fn off (i + 1)) g.isZero
    match a, b with
    | some x, some y =>
      if x.isNan || y.isNan then .nan
      else if x.isFin && y.isFin then x.add (g.mul (y.add x.neg))
      else match x, y with
        | .inf p, .inf q => if p == q then .inf p else .nan
        | .inf p, _ => .inf p
        | _, y => y
    | some x, none => x
    | none, some y => y
    | none, none => .nan
  | v => v

/-- An exponent kept within a span beyond which every scaled FP32 interpolation has overflowed or is below every subnormal. -/
def clampExp (n : Int) : Int := max (-2000) (min 2000 n)

/-- lookup(x) of R140 in the value table (deriv false) or the derivative table (deriv true). -/
def fnLookup (fn : Mem) (h : FnHead) (deriv : Bool) (x : Word) : Word :=
  let off := if deriv then h.derivOff else h.valueOff
  let n := 2 ^ h.k + 1
  if (v32 x).isNan then f32nan
  else
    let z := v32 (mul32 x h.preMul)
    match h.mode with
    | 0 =>
      let outside := fun (rule i : Nat) =>
        if rule = 0 then r32 (knot fn off i) else if rule = 1 then f32zero
        else if deriv then h.preMul else r32 z
      if z.lt (v32 h.lo) then outside h.below 0
      else if !z.lt ((v32 h.lo).add (pow2V h.p)) then outside h.above (n - 1)
      else r32 (interpExact fn off n ((v32 (r32 (z.add (v32 h.lo).neg))).scale ((h.k : Int) - h.p)))
    | 1 =>
      match z with
      | .inf s => if s then f32zero else r32 (.inf false)
      | .fin s m e =>
        let fl := finFloor s m e
        let f := z.add (FV.ofInt (-fl))
        r32 ((interpExact fn off n (f.scale h.k)).scale (clampExp fl))
      | .nan => f32nan
    | _ =>
      match z with
      | .nan => f32nan
      | .inf s => if s then f32nan else if deriv then f32zero else r32 (.inf false)
      | .fin s m e =>
        if m = 0 then r32 (.inf (!deriv))
        else if s then f32nan
        else
          let ex := (m.log2 : Int) + e
          let fr := (FV.fin false m (-(m.log2 : Int))).add (FV.ofInt (-1))
          let t := fr.scale h.k
          if deriv then r32 ((interpExact fn off n t).scale (-ex))
          else r32 ((interpExact fn off n t).add ((FV.ofInt ex).mul (v32 h.lo)))

end Sys2Proof.Machine
end

