-- ==== Sys2Proof/Machine/Philox.lean ====
section
/-! DEFINITION. Philox-4×32-10 and the module's four uses of it (R77, R135, R271, R296). -/
namespace Sys2Proof.Machine

/-- The given number of Philox rounds on key (k0, k1) and counter (c0, c1, c2, c3) (R77). -/
def philoxRounds : Nat → Nat → Nat → Nat → Nat → Nat → Nat → List Nat
  | 0, _, _, c0, c1, c2, c3 => [c0, c1, c2, c3]
  | n + 1, k0, k1, c0, c1, c2, c3 =>
    let p0 := 0xD2511F53 * c0
    let p1 := 0xCD9E8D57 * c2
    philoxRounds n ((k0 + 0x9E3779B9) % 2 ^ 32) ((k1 + 0xBB67AE85) % 2 ^ 32)
      ((p1 / 2 ^ 32) ^^^ c1 ^^^ k0) (p1 % 2 ^ 32) ((p0 / 2 ^ 32) ^^^ c3 ^^^ k1) (p0 % 2 ^ 32)

/-- One Philox-4×32-10 evaluation under a 64-bit seed: output word w (R77). -/
def philox (seed : DWord) (c0 c1 c2 c3 w : Nat) : Word :=
  BitVec.ofNat 32 ((philoxRounds 10 (seed.toNat % 2 ^ 32) (seed.toNat / 2 ^ 32)
    (c0 % 2 ^ 32) (c1 % 2 ^ 32) (c2 % 2 ^ 32) (c3 % 2 ^ 32)).getD w 0)

/-- The random word of a master update: element e of tensor t in step n (R77). -/
def srWord (seed : DWord) (t n e : Nat) : Word := philox seed (e / 4) t n 0xFFFFFFFF (e % 4)

/-- The random word of a RAND step: element e, tag, step n (R135). -/
def randWord (seed : DWord) (tag n e : Nat) : Word := philox seed (e / 4) tag n 0xFFFFFFFE (e % 4)

/-- A COMBINE RECV on a checked tag at module d is sampled in step n (R271). -/
def pfSampled (seed : DWord) (pf tag d n : Nat) : Bool :=
  pf != 31 && (philox seed tag d n 0xFFFFFFFD 0).toNat < 2 ^ (32 - pf)

/-- Draw d of operation o for sample index i: an integer from 0 to 2^24 − 1 (R296). -/
def draw (seed : DWord) (i o d : Nat) : Nat := (philox seed (i % 2 ^ 32) (i / 2 ^ 32) o (d / 4) (d % 4)).toNat / 2 ^ 8

end Sys2Proof.Machine
end

