-- ==== Sys2Proof/Machine/VectorCore.lean ====
section
/-! DEFINITION. What the vector engine computes: VEC chains, the master update and the high-half extraction (R127 to R141, R153,
R161 to R163), and REDUCE (R142 to R148), as functions of the issuing cluster's store and function tables. -/
namespace Sys2Proof.Machine

/-- The op code of step i of a VEC body (R131). -/
def vecOp (q i : Nat) : Nat := fld q (165 + 8 * i) (160 + 8 * i)
/-- The sel code of step i. -/
def vecSel (q i : Nat) : Nat := fld q (167 + 8 * i) (166 + 8 * i)
/-- The number of steps. -/
def vecSteps (q : Nat) : Nat := fld q 193 192 + 1
/-- The op takes no second operand (R133, R134). -/
def unaryOp (op : Nat) : Bool := [0x00, 0x0A, 0x0B, 0x0C, 0x0D, 0x0E, 0x0F, 0x10, 0x30].contains op
/-- The op is defined (R133, R134). -/
def opDefined (op : Nat) : Bool := op ≤ 0x13 || (0x20 ≤ op && op ≤ 0x2A) || op == 0x30
/-- The op belongs to integer chains only. -/
def intOp (op : Nat) : Bool := 0x20 ≤ op && op ≤ 0x2A
/-- Some step reads the operand sel names. -/
def vecUses (q sel : Nat) : Bool :=
  (List.range (vecSteps q)).any (fun i => !unaryOp (vecOp q i) && vecSel q i == sel)
/-- Some step is the op. -/
def vecHasOp (q op : Nat) : Bool := (List.range (vecSteps q)).any (fun i => vecOp q i == op)

/-- The VEC body obeys the load rows of R153 (R131). For RAND, whose sel is ignored (R133), any sel but imm is
accepted; a C that no step reads is the key tensor of a master update (R161), which only D's recipe can tell at start. -/
def vecBodyOk (q : Nat) : Bool :=
  let steps := vecSteps q
  let useB := vecUses q 0
  let useC := vecUses q 1 || vecHasOp q 0x07
  let rand := vecHasOp q 0x30
  let summary := bitAt q 12
  rsv q 223 204
    && (List.range 4).all (fun i => if i < steps then opDefined (vecOp q i)
          && (!unaryOp (vecOp q i) || vecOp q i == 0x30 || vecSel q i == 0) else vecOp q i == 0 && vecSel q i == 0)
    && (fld q 201 198 == 0 || vecHasOp q 0x0F || vecHasOp q 0x10)
    && fld q 87 64 % 64 == 0 && fld q 111 88 % 64 == 0
    && (if useB then fld q 135 112 % 64 == 0 else fld q 135 112 == noDesc)
    && (fld q 195 194 == 0 || useB) && (fld q 197 196 == 0 || fld q 159 136 != noDesc)
    && (if useC then fld q 159 136 % 64 == 0
        else fld q 159 136 == noDesc || (fld q 159 136 % 64 == 0 && steps == 1 && vecOp q 0 == 1 && vecSel q 0 == 0))
    && (if summary then fld q 203 202 != 0 else fld q 203 202 == 0)
    && (vecUses q 2 || rand || fld q 255 224 == 0)
    && !(rand && (List.range steps).any (fun i => vecSel q i == 2))

/-- The extents a broadcast source must have (R130). -/
def bcastOk (mode : Nat) (s d : Desc) : Bool :=
  match mode with
  | 0 => s.sameExt d
  | 1 => s.d0 == d.d0 && s.rows == 1
  | 2 => s.d0 == 1 && s.d1 == d.d1 && s.d2 == d.d2 && s.d3 == d.d3
  | _ => s.elems == 1

/-- Everything a tensor of the vector engine obeys: place, alignment (R127). -/
def vecPlace (x : EngCtx) (d : Desc) : Except Nat Unit := do
  need (firstStatus (ownRangeStatus x.hm x.own) d.ranges)
  demand (d.lenRange.all (fun r => r.1 + r.2 ≤ 0x1000000)) eLimit
  demand (d.aligned 32 && (d.lenTab == noDesc || d.lenTab % 4 == 0)) eDesc

/-- The float operations (R133): r, y, C. RAND, FUNC and DERIV are handled by their callers. -/
def floatOp (op : Nat) (r y c : Word) : Word :=
  let a := v32 r
  let b := v32 y
  let sel := fun (p : Bool) => if a.isNan || b.isNan then f32nan else if p then f32one else f32zero
  match op with
  | 0x00 => r32 a
  | 0x01 => add32 r y
  | 0x02 => sub32 r y
  | 0x03 => sub32 y r
  | 0x04 => mul32 r y
  | 0x05 => div32 r y
  | 0x06 => div32 y r
  | 0x07 => r32 ((a.mul b).add (v32 c))
  | 0x08 => r32 (a.max2 b)
  | 0x09 => r32 (a.min2 b)
  | 0x0A => r32 a.abs
  | 0x0B => r32 a.neg
  | 0x0C => r32 a.sqrt
  | 0x0D => r32 a.rsqrt
  | 0x0E => div32 f32one r
  | 0x11 => sel (b.lt a)
  | 0x12 => sel (b.lt a || a.eqv b)
  | 0x13 => sel (a.eqv b)
  | _ => r

/-- The integer operations in width w (R134), on signed values; the result is wrapped to w bits. -/
def intOpVal (w op : Nat) (r y : Int) : Int :=
  let u := wrap w r
  let v := wrap w y
  let sh := v % w
  sgn w (match op with
    | 0x20 => wrap w (r + y)
    | 0x21 => wrap w (r - y)
    | 0x22 => wrap w (r * y)
    | 0x23 => wrap w (min r y)
    | 0x24 => wrap w (max r y)
    | 0x25 => u &&& v
    | 0x26 => u ||| v
    | 0x27 => u ^^^ v
    | 0x28 => (u <<< sh) % 2 ^ w
    | 0x29 => wrap w (r / (2 ^ sh : Nat))
    | 0x2A => u >>> sh
    | _ => u)

/-- The uniform draw of RAND as FP32 (R135). -/
def randVal (w : Word) : Word := r32 (.fin false (w.toNat / 256) (-24))

/-- The element position a broadcast source is read at (R130): (row, column). -/
def bcastAt (mode row col : Nat) : Nat × Nat :=
  match mode with
  | 0 => (row, col)
  | 1 => (0, col)
  | 2 => (row, 0)
  | _ => (0, 0)

/-- One element through a float chain (R132, R133). -/
def chainF (x : EngCtx) (q : Nat) (a b c : Word) (e : Nat) : Word :=
  let imm := BitVec.ofNat 32 (fld q 255 224)
  let head := parseFn (x.fn.num (32 * fld q 201 198) 32)
  (List.range (vecSteps q)).foldl (fun r i =>
    let op := vecOp q i
    let y := match vecSel q i with | 0 => b | 1 => c | 2 => imm | _ => a
    if op = 0x0F then fnLookup x.fn head false r
    else if op = 0x10 then fnLookup x.fn head true r
    else if op = 0x30 then randVal (randWord x.seed (fld q 255 224) x.step e)
    else floatOp op r y c) a

/-- One element through an integer chain of width w (R134). -/
def chainI (q w : Nat) (a b c : Int) : Int :=
  let imm := sgn 32 (fld q 255 224)
  (List.range (vecSteps q)).foldl (fun r i =>
    let y := match vecSel q i with | 0 => b | 1 => c | 2 => imm | _ => a
    intOpVal w (vecOp q i) r y) a

/-- A source's rows read for a command: as floats or as integers, all rows. -/
def srcRows {α : Type} (f : Nat → List α) (d : Option Desc) : List (List α) :=
  match d with
  | some d => (List.range d.rows).map f
  | none => []

/-- The state of a row walk: the store, the values written, the status it stopped with (0 while it goes on). -/
structure Walk where
  /-- the store so far -/
  store : Mem
  /-- elements written so far -/
  vals : List FV
  /-- status that stopped the walk, 0 for none -/
  stop : Nat
deriving DecidableEq, Repr

/-- The walk over destination rows in row order (R129): each row's elements, or the status that ends the command there. -/
def walkRows (x : EngCtx) (d : Desc) (row : Mem → Nat → Except Nat (List (Option Elem))) (st : Mem) : Walk :=
  (List.range d.rows).foldl (fun wk r =>
    if wk.stop ≠ 0 then wk
    else match row wk.store r with
      | .error e => { wk with stop := e }
      | .ok es =>
        let o := d.rowOut r es
        ⟨putAll x.lo wk.store o.writes, wk.vals ++ o.vals, 0⟩) ⟨st, [], 0⟩

/-- How a vector command ended: the store as far as it was written, with the status of the row that ended it (R44), or the
summary of a complete run. -/
structure VecOut where
  /-- the store -/
  store : Mem
  /-- status, 0 for completion -/
  status : Nat
  /-- the summary -/
  sum : Option Word
deriving DecidableEq, Repr

/-- A complete or stopped walk with its summary (R150). -/
def walkOut (q kind : Nat) (wk : Walk) : VecOut :=
  ⟨wk.store, wk.stop, if bitAt q 12 && wk.stop == 0 then some (summaryWord kind wk.vals) else none⟩

/-- The command's descriptors, scale arrays and length tables that D may not overlap (R136), D's own scale array among them; D may coincide
exactly with A, the first of the sources. -/
def vecOverlap (x : EngCtx) (d : Desc) (srcs : List Desc) (offs : List Nat) : Bool :=
  let dr := d.ranges
  rangesMeet d.rowRanges [(d.scale, d.rows * d.rowScales)] || (srcs.mapIdx (fun i s => (i != 0 || !d.same s) && rangesMeet dr s.ranges)).any id
    || rangesMeet dr (offs.map (fun o => (x.lo + o, 64)))
    || rangesMeet dr ((d :: srcs).flatMap (fun s => s.lenRange.map (fun r => (x.lo + r.1, r.2))))

/-- The master update (R76, R77, R161): the form is checked and the step's number, then each valid element of A takes the stochastic sum. D is
identical to A where length table and kind agree too (DEDUCED, log 132); of a tensor index beyond 32 bits the low 32 enter the counter (DEDUCED,
log 133). -/
def masterRun (x : EngCtx) (st : Mem) (q : Nat) (d a : Desc) (b c : Option Desc) : Except Nat VecOut :=
  match b, c with
  | some b, some c =>
    if d.fmt == 0 && d.same a && d.lenTab == a.lenTab && a.kind == 0 && vecSteps q == 1 && vecOp q 0 == 0x01
        && vecSel q 0 == 0 && b.fmt == 0 && b.sameExt d && fld q 195 194 == 0 && b.kind != 0
        && c.fmt == 14 && c.rank == 1 && c.d0 == 2 && fld q 197 196 == 0 && fld q 255 224 == 0 then
      let key := c.ints (x.rd st) 0
      let t := wrap 32 (key.getD 0 0)
      let e0 := wrap 64 (key.getD 1 0)
      (demand (x.step < 2 ^ 32) eLimit).map (fun _ => walkOut q (fld q 203 202) (walkRows x d (fun m r => do
        let n ← validLen st d r
        let last := e0 + r * d.d0 + n
        demand (n == 0 || last ≤ 2 ^ 34) eLimit
        let av := a.floats (x.rd m) r
        let bv := b.floats (x.rd m) r
        .ok ((List.range d.d0).map (fun i => if i < n then
          some (.f (srAdd (av.getD i 0) (bv.getD i 0) (srWord x.seed t x.step (e0 + r * d.d0 + i)))) else none))) st))
    else .error eDesc
  | _, _ => .error eDesc

/-- VEC over the issuing cluster's store (R127 to R136, R153, R161 to R163). -/
def vecRun (x : EngCtx) (st : Mem) (q : Nat) : Except Nat VecOut := do
  demand (vecBodyOk q) eDesc
  let dOff := fld q 87 64
  let aOff := fld q 111 88
  let bOff := fld q 135 112
  let cOff := fld q 159 136
  let d ← loadDesc x.hm x.recipes st dOff
  let a ← loadDesc x.hm x.recipes st aOff
  let b ← (if bOff = noDesc then .ok none else (loadDesc x.hm x.recipes st bOff).map some)
  let c ← (if cOff = noDesc then .ok none else (loadDesc x.hm x.recipes st cOff).map some)
  let srcs := a :: (b.toList ++ c.toList)
  vecPlace x d
  vecPlace x a
  (match b with | some s => vecPlace x s | none => .ok ())
  (match c with | some s => vecPlace x s | none => .ok ())
  demand d.rowsApart eDesc
  demand (srcs.all (fun s => s.lenTab == noDesc || s.lenTab == d.lenTab)) eDesc
  demand (!vecOverlap x d srcs ([dOff, aOff] ++ b.toList.map (fun _ => bOff) ++ c.toList.map (fun _ => cOff))) eDesc
  if d.kind = 0 then masterRun x st q d a b c
  else
    demand (a.sameExt d && (c.isNone || vecUses q 1 || vecHasOp q 0x07)) eDesc
    demand (match b with | some s => bcastOk (fld q 195 194) s d | none => true) eDesc
    demand (match c with | some s => bcastOk (fld q 197 196) s d | none => true) eDesc
    demand (d.kind != 2 || (vecSteps q == 1 && vecOp q 0 == 0 && a.fmt == 0 && a.kind == 0)) eDesc
    let isInt := isIntFmt d.fmt && srcs.all (fun s => isIntFmt s.fmt)
    demand ((List.range (vecSteps q)).all (fun i =>
      let op := vecOp q i; if isInt then op == 0 || intOp op else !intOp op)) eDesc
    let fnw := x.fn.num (32 * fld q 201 198) 32
    demand (!(vecHasOp q 0x0F || vecHasOp q 0x10) || (bitAt fnw 0 && fnOk fnw)) eDesc
    demand (!vecHasOp q 0x10 || (parseFn fnw).derivOff != 0xFFFF) eDesc
    demand (!vecHasOp q 0x30 || x.step < 2 ^ 32) eLimit
    let bm := fld q 195 194
    let cm := fld q 197 196
    let wd := if (d :: srcs).any (fun s => s.fmt == 14) then 64 else 32
    .ok (walkOut q (fld q 203 202) (walkRows x d (fun m r => do
      let n ← validLen st d r
      let rowF := fun (s : Desc) (mode : Nat) => s.floats (x.rd m) (bcastAt mode r 0).1
      let rowI := fun (s : Desc) (mode : Nat) => s.ints (x.rd m) (bcastAt mode r 0).1
      if isInt then
        let av := rowI a 0
        let bv := (b.map (fun s => rowI s bm)).getD []
        let cv := (c.map (fun s => rowI s cm)).getD []
        .ok ((List.range d.d0).map (fun i => if i < n then
          some (.i (chainI q wd (av.getD i 0) (bv.getD (bcastAt bm r i).2 0) (cv.getD (bcastAt cm r i).2 0))) else none))
      else
        let av := rowF a 0
        let bv := (b.map (fun s => rowF s bm)).getD []
        let cv := (c.map (fun s => rowF s cm)).getD []
        .ok ((List.range d.d0).map (fun i => if i < n then
          let v := chainF x q (av.getD i 0) (bv.getD (bcastAt bm r i).2 0) (cv.getD (bcastAt cm r i).2 0) (r * d.d0 + i)
          some (if d.kind = 2 then .f ((highHalf v).zeroExtend 32 <<< 16) else .f v) else none))) st))

/-- The REDUCE body obeys the load rows of R142 and R153. -/
def reduceBodyOk (q : Nat) : Bool :=
  let rop := fld q 163 160
  let axis := fld q 165 164
  let imm := v32 (BitVec.ofNat 32 (fld q 255 224))
  rsv q 167 167 && rsv q 223 174 && rop ≤ 6 && axis != 3
    && fld q 87 64 % 64 == 0 && fld q 111 88 % 64 == 0
    && (if rop = 6 then fld q 135 112 % 64 == 0
        else if rop = 5 then fld q 135 112 == noDesc || fld q 135 112 % 64 == 0 else fld q 135 112 == noDesc)
    && (if rop = 4 then fld q 159 136 == noDesc || fld q 159 136 % 64 == 0 else fld q 159 136 == noDesc)
    && (rop == 5 || fld q 171 168 == 0) && (rop == 4 || !bitAt q 166)
    && (rop < 5 || axis == 0)
    && (if rop = 5 then imm.isFin && !imm.isZero else fld q 255 224 == 0)
    && (bitAt q 12 || fld q 173 172 == 0)

/-- The larger or smaller of two FP32 values (R143). -/
def maxMin32 (isMax : Bool) (a b : Word) : Word :=
  r32 (if isMax then (v32 a).max2 (v32 b) else (v32 a).min2 (v32 b))

/-- The output descriptor has the input's extents with the reduced axis at 1, a single element for ALL (R143). -/
def reducedExt (axis : Nat) (o a : Desc) : Bool :=
  match axis with
  | 0 => o.d0 == 1 && o.d1 == a.d1 && o.d2 == a.d2 && o.d3 == a.d3
  | 1 => o.d0 == a.d0 && o.d1 == 1 && o.d2 == a.d2 && o.d3 == a.d3
  | _ => o.elems == 1

/-- The reduced set of output element (row, column) as positions (row, column) of the input, in index order (R143). -/
def reducedSet (axis : Nat) (a : Desc) (row col : Nat) : List (Nat × Nat) :=
  match axis with
  | 0 => (List.range a.d0).map (fun i => (row, i))
  | 1 => (List.range a.d1).map (fun i1 => (row * a.d1 + i1, col))
  | _ => (List.range a.rows).flatMap (fun r => (List.range a.d0).map (fun i => (r, i)))

/-- The variance MEANVAR writes (R145, R146). -/
def varOf (div1 : Bool) (t : Triple) : Word :=
  r32 ((v32 t.m2).div (FV.ofInt (if div1 then (t.n : Int) - 1 else t.n)))

/-- The length of a row of A, absent elements being empty leaves (R128); out-of-range entries end the command when reached. -/
def lensUpTo (st : Mem) (a : Desc) (rows : List Nat) : Except Nat Unit :=
  rows.foldl (fun acc r => acc.bind (fun _ => (validLen st a r).map (fun _ => ()))) (.ok ())

/-- The valid length of a row already checked. -/
def lenAt (st : Mem) (a : Desc) (r : Nat) : Nat := match validLen st a r with | .ok n => n | .error _ => 0

/-- SOFTMAX of one row (R147): x is the row's scores, msk its mask bits, n its valid length. -/
def softmaxRow (fn : Mem) (h : FnHead) (imm : Word) (xs : List Word) (msk : List Bool) (n : Nat) : List Word :=
  let s := xs.map (fun v => mul32 v imm)
  let att := s.mapIdx (fun i v => decide (i < n) && msk.getD i true && !(v32 v).eqv (.inf true))
  let live := (s.zip att).filterMap (fun p => if p.2 then some p.1 else none)
  if live = [] then s.map (fun _ => f32zero)
  else if live.any (fun v => (v32 v).isNan || (v32 v).eqv (.inf false)) then att.map (fun b => if b then f32nan else f32zero)
  else if live.length = 1 then att.map (fun b => if b then f32one else f32zero)
  else
    let m := ((reduceSet (maxMin32 true) ((s.zip att).map (fun p => if p.2 then some p.1 else none)))).getD f32zero
    let es := (s.zip att).map (fun p => if p.2 then some (fnLookup fn h false (sub32 p.1 m)) else none)
    let sum := (reduceSet combine32 es).getD f32zero
    es.map (fun e => match e with | some v => div32 v sum | none => f32zero)

/-- SOFTMAX_BWD of one row (R148). -/
def softmaxBwdRow (p dy : List Word) (n : Nat) : List Word :=
  let att := p.mapIdx (fun i v => decide (i < n) && !(v32 v).isZero)
  let z := (p.zip dy).zip att
  let r := (reduceSet combine32 (z.map (fun t => if t.2 then some (mul32 t.1.2 t.1.1) else none))).getD f32zero
  z.map (fun t => if t.2 then mul32 t.1.1 (sub32 t.1.2 r) else f32zero)

/-- One reduced set of a SUM, SUMSQ, MAX or MIN over floats (R143, R144). -/
def reduceF (rop : Nat) (xs : List (Option Word)) : Word :=
  (match rop with
    | 0 => reduceSet combine32 xs
    | 1 => reduceSet combine32 (xs.map (Option.map (fun v => mul32 v v)))
    | 2 => reduceSet (maxMin32 true) (xs.map (Option.map (fun v => r32 (v32 v))))
    | _ => reduceSet (maxMin32 false) (xs.map (Option.map (fun v => r32 (v32 v))))).getD f32zero

/-- One reduced set of a SUM, MAX or MIN over integers, a SUM in the output's width w (R57, R143). -/
def reduceI (rop w : Nat) (xs : List (Option Int)) : Int :=
  (match rop with
    | 0 => reduceSet (fun a b => sgn w (wrap w (a + b))) xs
    | 2 => reduceSet max xs
    | _ => reduceSet min xs).getD 0

/-- REDUCE over the issuing cluster's store (R127, R128, R142 to R148, R150, R153, R163). The second output of MEANVAR obeys R136 as D does, and is
written after the whole of D (DEDUCED, logs 134 and 135). -/
def reduceRun (x : EngCtx) (st : Mem) (q : Nat) : Except Nat VecOut := do
  demand (reduceBodyOk q) eDesc
  let dOff := fld q 87 64
  let aOff := fld q 111 88
  let bOff := fld q 135 112
  let eOff := fld q 159 136
  let rop := fld q 163 160
  let axis := fld q 165 164
  let d ← loadDesc x.hm x.recipes st dOff
  let a ← loadDesc x.hm x.recipes st aOff
  let b ← (if bOff = noDesc then .ok none else (loadDesc x.hm x.recipes st bOff).map some)
  let e ← (if eOff = noDesc then .ok none else (loadDesc x.hm x.recipes st eOff).map some)
  let srcs := a :: b.toList
  let outs := d :: e.toList
  vecPlace x d
  vecPlace x a
  (match b with | some s => vecPlace x s | none => .ok ())
  (match e with | some s => vecPlace x s | none => .ok ())
  let offs := [dOff, aOff] ++ b.toList.map (fun _ => bOff) ++ e.toList.map (fun _ => eOff)
  demand (outs.all (fun o => o.rowsApart && o.lenTab == noDesc && o.kind != 0 && o.kind != 2)) eDesc
  demand (match b with | some s => s.lenTab == noDesc || s.lenTab == a.lenTab | none => true) eDesc
  demand (outs.all (fun o => !vecOverlap x o srcs offs)) eDesc
  demand (match e with | some o => !rangesMeet d.ranges o.ranges | none => true) eDesc
  let intIn := isIntFmt a.fmt
  -- formats (R143)
  demand (if intIn then
      (rop == 2 || rop == 3 || rop == 0) && isIntFmt d.fmt
        && (if rop = 0 then d.fmt != 12 && elemBits a.fmt ≤ elemBits d.fmt else elemBits a.fmt ≤ elemBits d.fmt)
    else true) eDesc
  -- extents (R143, R147, R148)
  demand (if rop = 5 ∨ rop = 6 then d.sameExt a else outs.all (fun o => reducedExt axis o a)) eDesc
  demand (if rop = 5 then (match b with
      | some s => s.fmt == 12 && (s.sameExt a || (s.d0 == a.d0 && s.rows == 1))
      | none => true)
    else if rop = 6 then (match b with | some s => s.sameExt a && !isIntFmt s.fmt | none => false) else true) eDesc
  let fnw := x.fn.num (32 * fld q 171 168) 32
  demand (rop != 5 || (bitAt fnw 0 && fnOk fnw && (parseFn fnw).mode == 1)) eDesc
  let kind := fld q 173 172
  demand (!(bitAt q 12 && kind == 0) || d.elems == 1) eDesc
  demand (axis != 2 || a.elems ≤ 2 ^ 32) eLimit
  let sumOut := fun (wk : Walk) (value : Word) (extra : List FV) =>
    (⟨wk.store, wk.stop, if bitAt q 12 && wk.stop == 0 then
      some (if kind = 0 then value else summaryWord kind (wk.vals ++ extra)) else none⟩ : VecOut)
  if rop = 5 then
    let imm := BitVec.ofNat 32 (fld q 255 224)
    let rowOf : Mem → Nat → Except Nat (List Word) := fun m r => do
      let n ← validLen st a r
      let msk := match b with
        | some s => (s.ints (x.rd m) (if s.sameExt a then r else 0)).map (fun v => v != 0)
        | none => []
      .ok (softmaxRow x.fn (parseFn fnw) imm (a.floats (x.rd m) r) msk n)
    let value := match rowOf st 0 with | .ok (v :: _) => v | _ => f32zero
    .ok (sumOut (walkRows x d (fun m r => (rowOf m r).map (fun ws => ws.map (fun w => some (.f w)))) st) value [])
  else if rop = 6 then
    let rowOf : Mem → Nat → Except Nat (List Word) := fun m r => do
      let n ← validLen st a r
      .ok (softmaxBwdRow (a.floats (x.rd m) r) ((b.map (fun (s : Desc) => s.floats (x.rd m) r)).getD []) n)
    let value := match rowOf st 0 with | .ok (v :: _) => v | _ => f32zero
    .ok (sumOut (walkRows x d (fun m r => (rowOf m r).map (fun ws => ws.map (fun w => some (.f w)))) st) value [])
  else
    let rowsOf := fun (r : Nat) => match axis with
      | 0 => [r]
      | 1 => (List.range a.d1).map (fun i1 => r * a.d1 + i1)
      | _ => List.range a.rows
    let av := (List.range a.rows).map (a.floats (x.rd st))
    let ai := if intIn then (List.range a.rows).map (a.ints (x.rd st)) else []
    let setF := fun (r c : Nat) => (reducedSet axis a r c).map (fun p =>
      if p.2 < lenAt st a p.1 then some ((av.getD p.1 []).getD p.2 f32zero) else none)
    let setI := fun (r c : Nat) => (reducedSet axis a r c).map (fun p =>
      if p.2 < lenAt st a p.1 then some ((ai.getD p.1 []).getD p.2 0) else none)
    if rop = 4 then
      let tri := fun (r c : Nat) => reduceSet combine3 ((setF r c).map (Option.map (fun w => (⟨1, w, f32zero⟩ : Triple))))
      let mean := fun (r c : Nat) => ((tri r c).map Triple.mean).getD f32zero
      let var := fun (r c : Nat) => ((tri r c).map (varOf (bitAt q 166))).getD f32zero
      let wkD := walkRows x d (fun _ r => do
        lensUpTo st a (rowsOf r)
        .ok ((List.range d.d0).map (fun c => some (.f (mean r c))))) st
      let wkE := match e with
        | some o => if wkD.stop ≠ 0 then wkD else
            walkRows x o (fun _ r => .ok ((List.range o.d0).map (fun c => some (.f (var r c))))) wkD.store
        | none => ⟨wkD.store, [], wkD.stop⟩
      .ok (sumOut ⟨wkE.store, wkD.vals, wkE.stop⟩ (mean 0 0) (if e.isSome then wkE.vals else []))
    else if intIn then
      let w := elemBits d.fmt
      let el := fun (r c : Nat) => reduceI rop w (setI r c)
      .ok (sumOut (walkRows x d (fun _ r => do
        lensUpTo st a (rowsOf r)
        .ok ((List.range d.d0).map (fun c => some (.i (el r c))))) st) (BitVec.ofNat 32 (wrap 32 (el 0 0))) [])
    else
      let el := fun (r c : Nat) => reduceF rop (setF r c)
      .ok (sumOut (walkRows x d (fun _ r => do
        lensUpTo st a (rowsOf r)
        .ok ((List.range d.d0).map (fun c => some (.f (el r c))))) st) (el 0 0) [])

end Sys2Proof.Machine
end

