-- ==== Sys2Proof/Machine/Engine.lean ====
section
/-! DEFINITION. How a queued command runs to its end: start, error (R44), completion, halo slots (R121, R122) and summaries (R151). -/
namespace Sys2Proof.Machine

/-- A command ends with a status: its record, no further command from the cluster, and a REQUEST with reason ERROR (R44, R263). -/
def State.failCommand (s : State) (c : Fin 64) (q : Fin 4) (x : Site) (e : QEntry) (status : Nat) : State :=
  let s := s.record c q e status
  (s.modCl c (fun k => { k.popHead q with halted := some status })).request x.h 6 status
/-- A command completes, or ends with a status. -/
def State.endCommand (s : State) (c : Fin 64) (q : Fin 4) (x : Site) (e : QEntry) (status : Nat) : State :=
  if status = 0 then s.complete c q x e else s.failCommand c q x e status
/-- A command starts: its start latch, the slot or token it takes and the slot it holds (R41, R46, R411). -/
def State.startCommand (s : State) (c : Fin 64) (q : Fin 4) (x : Site) (e : QEntry) : State × QEntry :=
  let e := s.latch c e
  (((s.modHeat x.h (fun h => h.takeChans x.own e.raw)).modCl c (fun k => k.setHead q e)), e)
/-- Run the head of a queue where it may start and is the row's command; go answers its effect and status. -/
def State.runHead (s : State) (c : Fin 64) (q : Fin 4) (isRow : Nat → Bool) (go : State → Site → QEntry → State × Nat) : Result :=
  match s.startable c q with
  | none => .next s
  | some (x, e) =>
    if isRow e.raw then
      let (s, e) := s.startCommand c q x e
      let (s, status) := go s x e
      .next ((s.endCommand c q x e status).refreshHeld x.h)
    else .next s

/-! The matrix queue. -/

/-- Put a store in place after a matrix command, and the words it left in accumulator registers (R95). -/
def State.putMatrix (s : State) (c : Fin 64) (r : Except Nat EngOut) : State × Nat :=
  match r with
  | .ok o => (s.modCl c (fun k => { k with store := o.store, acc := k.acc.put o.regs }), 0)
  | .error st => (s, st)
/-- MATMUL at the head of the matrix queue (R103). -/
def State.runMatmul (s : State) (c : Fin 64) : Result :=
  s.runHead c qMatrix (fun raw => cmdOp raw == 0x01) (fun s x e => s.putMatrix c (matmulRun (s.engCtx c x) (s.cl c).store e.raw))

/-- The mode of a CONV body (R123). -/
def convMode (raw : Nat) : Nat := fld raw 162 160
/-- The halo channel of one edge of a CONV: none where the edge takes no slot (R122, R123). -/
def haloChan (h : Heat) (own raw : Nat) (hi : Bool) : Option (Option Nat) :=
  if bitAt raw (if hi then 174 else 173) then some (h.waitChan own (if hi then fld raw 191 184 else fld raw 183 176)) else none
/-- The slot an edge takes is published, or the edge takes none here (R122). -/
def haloReady (h : Heat) (i : Option (Option Nat)) : Bool :=
  match i with
  | some (some k) => h.chanIs (some k) Chan.ready
  | _ => true
/-- Take the slots of the halo channels. -/
def Heat.takeHalo (h : Heat) (is : List (Option (Option Nat))) : Heat :=
  is.foldl (fun h i => match i with
    | some (some k) => h.modChan k (fun c => { c with taken := c.taken + 1 })
    | _ => h) h
/-- Return them. -/
def Heat.giveHalo (h : Heat) (is : List (Option (Option Nat))) : Heat :=
  is.foldl (fun h i => match i with
    | some (some k) => h.modChan k (fun c => { c with returned := c.returned + 1 })
    | _ => h) h
/-- The slot of a halo channel as (store offset, bytes, slots); a channel that does not consume here has none. -/
def haloSlot (h : Heat) (i : Option (Option Nat)) : Option (Nat × Nat × Nat) :=
  match i with
  | none => none
  | some none => some (0, 0, 0)
  | some (some k) => (h.chans[k]?).map (fun c => (c.def_.buffer, c.def_.slotBytes, c.def_.slots))
/-- The slots a CONV that has taken n of them takes now, the low edge before the high, and whether it then has all of them (R122). -/
def haloTake (h : Heat) (own raw n : Nat) : List (Option (Option Nat)) × Bool :=
  let lo := haloChan h own raw false
  let hi := haloChan h own raw true
  if n = 0 then
    if haloReady h lo then
      if haloReady (h.takeHalo [lo]) hi then ([lo, hi], true) else ([lo], false)
    else ([], false)
  else if haloReady h hi then ([hi], true) else ([], false)
/-- The command at the head of the matrix queue, where it may start, or has started and waits for a halo slot (R122). -/
def State.convHead (s : State) (c : Fin 64) : Option (Site × QEntry) :=
  let k := s.cl c
  match s.startable c qMatrix with
  | some r => some r
  | none => match s.site c, k.queues[qMatrix] with
    | some x, e :: _ => (match e.phase with
      | .halo _ => if k.able then some (x, e) else none
      | _ => none)
    | _, _ => none
/-- A CONV that has its halo slots runs, and returns them as it completes (R108, R122). -/
def State.convGo (s : State) (c : Fin 64) (x : Site) (e : QEntry) (halos : List (Option (Option Nat))) : State :=
  let h := s.heat x.h
  let (s, status) := s.putMatrix c (convRun (s.engCtx c x) (s.cl c).store e.raw (haloSlot h (halos.getD 0 none)) (haloSlot h (halos.getD 1 none)))
  let s := if status = 0 then s.modHeat x.h (fun h => h.giveHalo halos) else s
  (s.endCommand c qMatrix x e status).refreshHeld x.h
/-- CONV at the head of the matrix queue, for the modes of one row (R108, R122, R123): it starts, which takes the slot of wait_chan, then takes its
halo slots one after the other, and runs once it has them. -/
def State.runConv (s : State) (c : Fin 64) (isMode : Nat → Bool) : Result :=
  match s.convHead c with
  | none => .next s
  | some (x, e) =>
    if cmdOp e.raw == 0x02 && isMode (convMode e.raw) then
      let (s, e) := if e.phase = .waiting then s.startCommand c qMatrix x e else (s, e)
      let n := match e.phase with
        | .halo n => n
        | _ => 0
      let h := s.heat x.h
      let (now, all) := haloTake h x.own e.raw n
      let s := s.modHeat x.h (fun h => h.takeHalo now)
      if all then .next (s.convGo c x e [haloChan h x.own e.raw false, haloChan h x.own e.raw true])
      else .next ((s.modCl c (fun k => k.setHead qMatrix { e with phase := .halo (n + now.length) })).refreshHeld x.h)
    else .next s

/-! The vector queue. -/

/-- Put a vector command's store in place; the row buffer keeps what the spec does not state (R357). -/
def State.putVector (s : State) (c : Fin 64) (o : VecOut) : State :=
  (s.modCl c (fun k => { k with store := o.store, rowBuf := .unspecified s.free })).useFree
/-- Enter a summary word where an entry is free (R151). -/
def State.enterSum (s : State) (c : Fin 64) (w : Word) : State :=
  s.modCl c (fun k => { k with core := { k.core with sums := k.core.sums ++ [w] } })
/-- End a vector command that has written its result: one with a summary waits for a free entry (R151). -/
def State.endVector (s : State) (c : Fin 64) (x : Site) (e : QEntry) (sum : Option Word) : State :=
  match sum with
  | none => s.complete c qVector x e
  | some w =>
    if (s.cl c).core.sums.length < 4 then (s.enterSum c w).complete c qVector x e
    else s.modCl c (fun k => k.setHead qVector { e with phase := .summary w })
/-- A command at the head of the vector queue: VEC (R131) or REDUCE (R142). -/
def State.runVector (s : State) (c : Fin 64) (isRow : Nat → Bool) (run : EngCtx → Mem → Nat → Except Nat VecOut) : Result :=
  match s.startable c qVector with
  | none => .next s
  | some (x, e) =>
    if isRow e.raw then
      let (s, e) := s.startCommand c qVector x e
      match run (s.engCtx c x) (s.cl c).store e.raw with
      | .error st => .next ((s.failCommand c qVector x e st).refreshHeld x.h)
      | .ok o =>
        let s := s.putVector c o
        .next ((if o.status = 0 then s.endVector c x e o.sum else s.failCommand c qVector x e o.status).refreshHeld x.h)
    else .next s
/-- A vector command that waits for a summary entry enters it once one is free (R151). -/
def State.drainSum (s : State) (c : Fin 64) : State :=
  let k := s.cl c
  match s.site c, k.queues[qVector] with
  | some x, e :: _ => match e.phase with
    | .summary w =>
      if k.core.sums.length < 4 && !k.frozen && !k.core.restarting then ((s.enterSum c w).complete c qVector x e).refreshHeld x.h else s
    | _ => s
  | _, _ => s
/-- The rop of a REDUCE body (R142). -/
def reduceOp (raw : Nat) : Nat := fld raw 163 160

/-! The mover queue. -/

/-- atomics_mode (R200, R376): true for CACHE. -/
def State.cacheAtomics (s : State) : Bool := s.com.boot.setting 3 3 == 1
/-- A mover command that completed wrote through a memory controller: a tensor, position or page in memory, or the targets of an atomic at the
controllers (R197, R200). -/
def State.writesMemory (s : State) (x : Site) (sp after : Space) (q : Nat) : Bool :=
  (moverAccess x.prog.recipes sp after q).any (fun a => a.write && (match regionOf sp.hm a.addr with
    | .mem _ | .sample _ => true
    | _ => false))
    || (cmdOp q == 0x21 && 1 ≤ aopOf q && !s.cacheAtomics)

/-- No other cluster whose store a mover command reaches is in, entering or leaving Walk or Rest: its transfers wait there (R28). -/
def State.peersReach (s : State) (x : Site) (q : Nat) : Bool :=
  let sp := s.space x
  (moverAccess x.prog.recipes sp sp q).all (fun a => match regionOf sp.hm a.addr with
    | .store j _ => j == x.own || s.reach? x.h j
    | _ => true)
/-- Run the head of the mover queue, once the clusters it reaches accept transfers. -/
def State.runMoverHead (s : State) (c : Fin 64) (isRow : Nat → Bool) (go : State → Site → QEntry → State × Nat) : Result :=
  if (match s.startable c qMover with
    | some (x, e) => s.peersReach x e.raw
    | none => true) then s.runHead c qMover isRow go else .next s
/-- Put the memory a mover command left in place, with its bytes counted and, where it completed, its traffic through the cache (R191, R192,
R409); sp is the memory before it. Where a granule it writes fails its tag, the command writes nothing (R197, log 126). -/
def State.putMover (s : State) (c : Fin 64) (x : Site) (tagFail : Bool) (bytes : Nat) (sp : Space) (q : Nat) (r : Except Nat MovOut) : State × Nat :=
  match r with
  | .ok o =>
    if tagFail && o.status == 0 && s.writesMemory x sp o.sp q then (s, eCheck) else
    let s := (s.putSpace x o.sp).bump 1 c.val 17 (if o.status = 0 then bytes else 0)
    (if o.status = 0 then s.moverTraffic x sp o.sp q else s, o.status)
  | .error st => (s, st)
/-- Bytes a tensor at a store offset occupies, rows and scales; 0 for none. -/
def tensorBytes (sp : Space) (recipes : List Recipe) (off : Nat) : Nat :=
  if off = noDesc then 0
  else match sp.desc recipes off with
  | .ok d => (d.ranges.map Prod.snd).sum
  | .error _ => 0
/-- A command at the head of the mover queue. What it moves is counted over the tensors it names at off (DEDUCED, log 13). -/
def State.runMover (s : State) (c : Fin 64) (tagFail : Bool) (isRow : Nat → Bool) (offs : Nat → List Nat)
    (run : State → Site → Space → Nat → Except Nat MovOut) : Result :=
  s.runMoverHead c isRow (fun s x e =>
    let sp := s.space x
    s.putMover c x tagFail ((offs e.raw).map (tensorBytes sp x.prog.recipes)).sum sp e.raw (run s x sp e.raw))
/-- The channel on which a heat-relative memory address is read and written now, by its number in R409: its home, or the target its line has
moved to (R190, R204). -/
def State.chanOf (s : State) (h : Heat) (m : Nat) : Nat := (s.placeOf h (m / 256)).1
/-- Count the atomics of a command on the channels of their targets, each after the home slice has written back and dropped its line (R200,
R409); in CACHE mode no channel applies any. -/
def State.countAtomics (s : State) (x : Site) (raw : Nat) : State :=
  let sp := s.space x
  match sp.desc x.prog.recipes (fld raw 87 64), sp.desc x.prog.recipes (fld raw 111 88), sp.desc x.prog.recipes (fld raw 135 112) with
  | .ok d, .ok a, .ok i =>
    if s.cacheAtomics then s
    else
      let ats := ((sp.indices i).filter (fun v => decide (0 ≤ v))).flatMap (fun v =>
        (List.range a.d0).map (fun e => (canonAddr (d.rowAddr v.toNat + e * (elemBits a.fmt / 8), 1)).1))
      ats.foldl (fun s m => (s.dropLine x.h (m / 256)).bump 2 (s.chanOf (s.heat x.h) m) 7) s
  | _, _, _ => s
/-- SCATTER at the head of the mover queue under one aop (R200, R211). -/
def State.runScatter (s : State) (c : Fin 64) (tagFail : Bool) (isAop : Nat → Bool) : Result :=
  s.runMoverHead c (fun raw => cmdOp raw == 0x21 && isAop (aopOf raw)) (fun s x e =>
    let sp := s.space x
    let (s, status) := s.putMover c x tagFail (tensorBytes sp x.prog.recipes (fld e.raw 111 88)) sp e.raw
      (scatterRun x.prog.recipes x.prog.floatAtomics s.cacheAtomics sp e.raw)
    (if status = 0 ∧ 1 ≤ aopOf e.raw then s.countAtomics x e.raw else s, status))

end Sys2Proof.Machine
end

