-- ==== Sys2Proof/Machine/LinkQueue.lean ====
section
/-! DEFINITION. The commands of the link queue: SEND (R235 to R237), RECV (R240, R241) with the photo-finish check (R271, R272), and
HURDLE (R257, R259). -/
namespace Sys2Proof.Machine

/-! SEND. -/

/-- The body of a SEND obeys the load rows of R242. -/
def sendBodyOk (q : Nat) : Bool := rsv q 255 136 && fld q 87 64 % 64 == 0 && (!bitAt q 134 || fld q 111 100 == 0)
/-- The source is contiguous (R236). -/
def Desc.contiguous (d : Desc) : Bool :=
  (d.rank < 2 || d.s1 == d.rowLen) && (d.rank < 3 || d.s2 == d.d1 * d.s1) && (d.rank < 4 || d.s3 == d.d2 * d.s2)
/-- The low halves of FP32 elements (R341). -/
def lowHalves (bs : Bytes) : Bytes := (List.range (bs.length / 4)).flatMap (fun i => bytesAt bs (4 * i) 2)
/-- A sampled tag's copy goes to its twin in this step (R271, R272). -/
def Heat.sampled (h : Heat) (p : Program) (tag d : Nat) : Option Nat :=
  match p.twin tag with
  | some t => if !p.freeOrder && pfSampled h.seed h.hu.pf tag d h.hu.step then some t else none
  | none => none
/-- The source of a SEND after the checks at its start, and its bytes (R236, R242, R252, R341): descriptor and bytes. -/
def sendSource (h : Heat) (x : Site) (sp : Space) (tagFail : Bool) (q : Nat) : Except Nat (Desc × Bytes) := do
  demand (sendBodyOk q) eDesc
  let dest := fld q 99 88
  let tag := fld q 111 100
  let baton := bitAt q 134
  demand (dest < x.prog.moduleCount && (dest == h.ownId || x.prog.portCount != 0)) eLimit
  let d ← sp.desc x.prog.recipes (fld q 87 64)
  let size := d.rows * d.rowLen
  demand (d.lenTab == noDesc && d.aligned 32 && !isBlockFmt d.fmt && d.contiguous && size % 32 == 0 && 32 ≤ size && size ≤ 0x1000000) eDesc
  demand (!(baton && d.kind == 0) || size % 64 == 0) eDesc
  demand (match regionOf sp.hm d.base, regionOf sp.hm (d.base + size - 1) with
    | .staging _, _ | _, .staging _ => false
    | _, _ => true) eDesc
  need (moverStatus sp.hm sp.own false false (d.base, size))
  demand (baton || x.prog.tagValid tag) eDesc
  demand (baton || fld q 133 112 + size / 32 ≤ x.prog.tagUnits tag) eLimit
  let bs ← sp.read d.base size
  demand (!tagFail) eCheck
  .ok (d, if baton && d.kind == 0 then lowHalves bs else bs)
/-- The blocks of a SEND: (landing offset in granules, bytes) (R237). -/
def sendBlocks (off : Nat) (bs : Bytes) : List (Nat × Bytes) :=
  (cut blockBytes (bs.length / blockBytes + 1) bs).mapIdx (fun j b => (off + 127 * j, b))
/-- The port of a check copy: the alternate group, else another live member of the primary group, else the block's own port, which counts
as not route-independent (R272). -/
def State.twinPort (s : State) (h : Heat) (p : Program) (dest off : Nat) (own : Fin 32) : Fin 32 × Bool :=
  let e := p.route h.ownId dest
  let want := fun (log2 : Nat) => off / 127 % 2 ^ log2
  let alt := if bitAt e 17 then (s.groupMember h (fld e 11 7) (fld e 13 12) (want (fld e 13 12))).bind h.physPort else none
  let other := ((List.range (2 ^ fld e 6 5)).map (fun i => fld e 4 0 + i)).findSome? (fun l =>
    if s.portLive h l then (h.physPort l).filter (· != own) else none)
  match alt, other with
  | some q, _ => (q, true)
  | none, some q => (q, true)
  | none, none => (own, false)
/-- One block leaves: to the port routing gives, or to this module itself; none carries an unreachable one (R232, R235, R237). copy marks
the second copy of R272. -/
def State.launch (s : State) (c : Fin 64) (x : Site) (e : QEntry) (cls : Nat) (tag : Nat) (copy : Bool) (b : Nat × Bytes) : State :=
  let h := s.heat x.h
  let dest := fld e.raw 99 88
  let baton := bitAt e.raw 134
  let half := if baton then h.hu.step % 2 else 0
  let s := s.modHeat x.h (fun h => { h with
    sent := h.sent ++ [⟨c.val, e.ord, dest, tag, baton, h.epoch, b.1, b.2.length / 32⟩] })
  if dest = h.ownId then
    s.modHeat x.h (fun h => { h with ejected := h.ejected ++ [⟨32, h.ownId, tag, baton, half, h.epoch, b.1, b.2⟩] })
  else match s.routeFlit h x.prog dest (some b.1) with
  | none => s.bump 8 x.h.val 23
  | some (q, vc) =>
    let (port, free) := if copy then s.twinPort h x.prog dest b.1 q else (q, true)
    let s := if free then s else s.bump 3 q.val 13
    s.sendBlock port (dataHdr vc (copy || !bitAt e.raw 135) dest h.ownId tag h.epoch baton b.1 half) b.2 (crc32c b.2) cls
/-- Whether any block of a SEND still awaits its acknowledgement. -/
def Heat.awaits (h : Heat) (cl ord : Nat) : Bool := h.sent.any (fun b => b.cl == cl && b.ord == ord)
/-- A SEND whose blocks are all acknowledged completes (R237). -/
def State.settleSend (s : State) (cl : Fin 64) (ord : Nat) : State :=
  match s.site cl, (s.cl cl).queues[qLink] with
  | some x, e :: _ =>
    if e.ord = ord ∧ e.phase = .sending ∧ !(s.heat x.h).awaits cl.val ord then (s.complete cl qLink x e).refreshHeld x.h else s
  | _, _ => s
/-- SEND at the head of the link queue, of one kind (R235 to R237, R272). -/
def State.runSend (s : State) (c : Fin 64) (tagFail baton : Bool) : Result :=
  match s.startable c qLink with
  | none => .next s
  | some (x, e) =>
    if cmdOp e.raw == 0x30 && bitAt e.raw 134 == baton then
      let (s, e) := s.startCommand c qLink x e
      let h := s.heat x.h
      match sendSource h x (s.space x) tagFail e.raw with
      | .error st => .next ((s.failCommand c qLink x e st).refreshHeld x.h)
      | .ok (d, bs) =>
        let tag := fld e.raw 111 100
        let blocks := sendBlocks (fld e.raw 133 112) bs
        let cls := if d.fmt = 0 then 1 else if d.fmt = 1 then 2 else 0
        let s := s.modCl c (fun k => k.setHead qLink { e with phase := .sending })
        let s := blocks.foldl (fun (s : State) b => s.launch c x e cls tag false b) s
        let s := match (if baton then none else h.sampled x.prog tag (fld e.raw 99 88)) with
          | some t => blocks.foldl (fun (s : State) b => s.launch c x e cls t true b) s
          | none => s
        .next (s.refreshHeld x.h)
    else .next s

/-! RECV. -/

/-- The bytes landed on a tag in the current epoch's parity, both dies (R239, R241). -/
def Heat.landedBytes (h : Heat) (tag : Nat) : Nat :=
  let k := h.hu.count % 2 * 4096 + tag
  amGet h.arrivals k + amGet h.arrivals (8192 + k)
/-- The bytes a RECV expects (R240). -/
def recvExpect (q : Nat) : Nat := (fld q 154 132 + 1) * 32
/-- The rmode of a RECV (R240). -/
def recvMode (q : Nat) : Nat := fld q 125 124
/-- The combine of two elements of a format (R55, R57, R241). -/
def combineElem (fmt a b : Nat) : Nat :=
  if fmt = 0 then (combine32 (BitVec.ofNat 32 a) (BitVec.ofNat 32 b)).toNat else (a + b) % 2 ^ elemBits fmt
/-- A COMBINE checked and ready: D, the local operand, and the two tags' areas read. -/
structure Combine where
  /-- destination -/
  d : Desc
  /-- local operand -/
  k : Desc
deriving DecidableEq, Repr
/-- The body of a RECV obeys the load rows of R242, which ask for an engine below port_count in every mode. -/
def recvBodyOk (ports q : Nat) : Bool :=
  rsv q 131 131 && rsv q 255 155 && recvMode q != 3
    && (if recvMode q = 0 then fld q 87 64 == noDesc && fld q 111 88 == noDesc else fld q 87 64 % 64 == 0 && fld q 111 88 % 64 == 0)
    && fld q 130 126 < ports
/-- The checks at the start of a RECV (R241, R242). -/
def recvCheck (x : Site) (sp : Space) (q : Nat) : Except Nat (Option Combine) := do
  let mode := recvMode q
  let tag := fld q 123 112
  demand (recvBodyOk x.prog.portCount q) eDesc
  demand (x.prog.tagValid tag && recvExpect q ≤ 32 * x.prog.tagUnits tag) eDesc
  if mode = 0 then .ok none
  else
    let d ← sp.desc x.prog.recipes (fld q 87 64)
    let k ← sp.desc x.prog.recipes (fld q 111 88)
    demand (moverTensorOk d && moverTensorOk k && d.rowsApart && (d.fmt == 0 || d.fmt == 13 || d.fmt == 14) && k.fmt == d.fmt
      && k.sameExt d && d.elems * (elemBits d.fmt / 8) == recvExpect q) eDesc
    need (firstStatus (moverStatus sp.hm sp.own false false) k.ranges)
    need (firstStatus (moverStatus sp.hm sp.own true false) d.ranges)
    demand ((d.same k || !moverOverlap d.ranges k.ranges) && !moverOverlap d.ranges [(x.prog.tagBase tag, recvExpect q)]) eDesc
    .ok (some ⟨d, k⟩)
/-- Row r of a COMBINE: the combined element codes of the local operand and a tag's area (R241). -/
def combineRow (cb : Combine) (sp : Space) (base r : Nat) (left : Bool) : Except Nat (List Nat) := do
  let n := elemBits cb.d.fmt / 8
  let loc ← sp.read (cb.k.rowAddr r) cb.k.rowLen
  let lan ← sp.read (base + r * cb.d.rowLen) cb.d.rowLen
  .ok ((List.range cb.d.d0).map (fun i =>
    let a := leAt loc (n * i) n
    let b := leAt lan (n * i) n
    if left then combineElem cb.d.fmt a b else combineElem cb.d.fmt b a))
/-- Every row combined into D in order; the flag says that a twin gave other bits somewhere (R241, R272). -/
def combineRun (cb : Combine) (sp : Space) (base : Nat) (twin : Option Nat) (left : Bool) : MovOut × Bool :=
  (List.range cb.d.rows).foldl (fun (o : MovOut × Bool) r =>
    if o.1.status ≠ 0 then o
    else match combineRow cb o.1.sp base r left with
    | .error st => (⟨o.1.sp, st⟩, o.2)
    | .ok vs =>
      let bad := match twin with
        | some t => (match combineRow cb o.1.sp t r left with
          | .ok ws => ws != vs
          | .error _ => false)
        | none => false
      match o.1.sp.write (cb.d.rowAddr r) (vs.flatMap (natLE (elemBits cb.d.fmt / 8))) with
      | .ok sp => (⟨sp, 0⟩, o.2 || bad)
      | .error st => (⟨o.1.sp, st⟩, o.2 || bad)) (⟨sp, 0⟩, false)
/-- A photo-finish mismatch: counted, recorded, reported with its senders and ports, ten to a report (DESIGN CHOICE, log 147), and requested
(R272, R409). -/
def State.mismatch (s : State) (x : Site) (tag twin : Nat) : State :=
  let h := s.heat x.h
  let key := h.hu.count % 2 * 4096
  let from_ := ((h.hu.seen.filter (fun e => e.1 == key + tag || e.1 == key + twin)).map Prod.snd).eraseDups
  let again := h.hu.mismatched.contains tag
  let s := (List.range (max 1 (ceilDiv from_.length 10))).foldl (fun (s : State) i =>
    s.report 0x07 x.h.val eMismatch h.hu.step
      (natLE 2 tag ++ natLE 2 h.ownId ++ ((from_.drop (10 * i)).take 10).flatMap (fun e => natLE 2 e.1 ++ natLE 1 e.2)))
    ((s.bump 8 x.h.val 17).lifeCount 21)
  let s := (s.journal 9 eMismatch 0 0 (tag + h.hu.step % 2 ^ 48 * 2 ^ 16)).putSummary
  (s.modHu x.h (fun u => { u with mismatched := if again then u.mismatched else u.mismatched ++ [tag] })).request x.h
    (if again then 7 else 5) eMismatch
/-- RECV at the head of the link queue, for the modes of one row (R240, R241, R271, R272). -/
def State.runRecv (s : State) (c : Fin 64) (tagFail : Bool) (isMode : Nat → Bool) : Result :=
  match s.startable c qLink with
  | none => .next s
  | some (x, e) =>
    if cmdOp e.raw == 0x31 && isMode (recvMode e.raw) then
      let h := s.heat x.h
      let tag := fld e.raw 123 112
      let stop := fun (st : Nat) =>
        let (s, e) := s.startCommand c qLink x e
        Host.Outcome.next ((s.failCommand c qLink x e st).refreshHeld x.h)
      match recvCheck x (s.space x) e.raw with
      | .error st => stop st
      | .ok cb? =>
        let want := recvExpect e.raw
        let twin := if cb?.isSome then h.sampled x.prog tag h.ownId else none
        let counts := h.landedBytes tag :: (twin.map h.landedBytes).toList
        if counts.any (want < ·) then stop eLimit
        else if counts.any (· != want) then .next s
        else
          let (s, e) := s.startCommand c qLink x e
          match cb? with
          | none => .next ((s.complete c qLink x e).refreshHeld x.h)
          | some cb =>
            if tagFail then .next ((s.failCommand c qLink x e eCheck).refreshHeld x.h) else
            let (o, bad) := combineRun cb (s.space x) (x.prog.tagBase tag) (twin.map x.prog.tagBase) (recvMode e.raw == 1)
            let s := s.putSpace x o.sp
            let s := if twin.isSome then s.bump 8 x.h.val 16 else s
            let s := s.endCommand c qLink x e o.status
            .next ((if bad && o.status == 0 then s.mismatch x tag (twin.getD 0) else s).refreshHeld x.h)
    else .next s

/-! The six rows. A RECV with the rmode that R240 reserves is met by the WAIT row, which ends it with E_DESC (R242; DEDUCED, log 14). -/

/-- SEND of kind DATA (R235). -/
def execSend (c : Fin 64) (tagFail : Bool) (s : State) : Result := s.runSend c tagFail false
/-- SEND of kind BATON (R235, R237, R341). -/
def execSendBaton (c : Fin 64) (tagFail : Bool) (s : State) : Result := s.runSend c tagFail true
/-- RECV in WAIT (R241). -/
def execWait (c : Fin 64) (s : State) : Result := s.runRecv c false (fun m => m == 0 || m == 3)
/-- RECV in COMBINE_LEFT (R241). -/
def execCombineLeft (c : Fin 64) (tagFail : Bool) (s : State) : Result := s.runRecv c tagFail (· == 1)
/-- RECV in COMBINE_RIGHT (R241). -/
def execCombineRight (c : Fin 64) (tagFail : Bool) (s : State) : Result := s.runRecv c tagFail (· == 2)
/-- HURDLE: with every earlier command complete the cluster has reached it (R257, R259). -/
def execHurdle (c : Fin 64) (s : State) : Result :=
  match s.startable c qLink with
  | none => .next s
  | some (x, e) =>
    if cmdOp e.raw == 0x32 && (s.cl c).drained e then
      let (s, e) := s.startCommand c qLink x e
      if rsv e.raw 255 64 && !waitEn e.raw && !postEn e.raw then
        .next ((s.modCl c (fun k => k.setHead qLink { e with phase := .arrived })).refreshHeld x.h)
      else .next ((s.failCommand c qLink x e eDesc).refreshHeld x.h)
    else .next s

end Sys2Proof.Machine
end

