-- ==== Sys2Proof/Machine/Rv.lean ====
section
/-! DEFINITION. The control core's instructions: RV32IMC as the ratified standard has it (R383), the branch-on-summary extension (R152)
and the three CSRs (R444), decoded and executed over the memories of R443. -/
namespace Sys2Proof.Machine

/-- A decoded instruction. -/
inductive RvIns where
  /-- LUI -/
  | lui (rd : Nat) (imm : Word)
  /-- AUIPC -/
  | auipc (rd : Nat) (imm : Word)
  /-- JAL, C.J, C.JAL -/
  | jal (rd : Nat) (off : Word)
  /-- JALR, C.JR, C.JALR -/
  | jalr (rd rs1 : Nat) (imm : Word)
  /-- a conditional branch, by funct3 -/
  | branch (f3 rs1 rs2 : Nat) (off : Word)
  /-- a load, by funct3 -/
  | load (f3 rd rs1 : Nat) (imm : Word)
  /-- a store, by funct3 -/
  | store (f3 rs1 rs2 : Nat) (imm : Word)
  /-- an OP-IMM, by funct3; alt marks SRAI -/
  | opImm (f3 : Nat) (alt : Bool) (rd rs1 : Nat) (imm : Word)
  /-- an OP, by funct3; alt marks SUB and SRA -/
  | op (f3 : Nat) (alt : Bool) (rd rs1 rs2 : Nat)
  /-- an OP of the M extension, by funct3 -/
  | mulDiv (f3 rd rs1 rs2 : Nat)
  /-- FENCE, FENCE.I: no effect (R444) -/
  | fence
  /-- a write of blk_issue: rd, and the source register or the immediate (R40, R444) -/
  | blkIssue (rd src : Nat) (isImm : Bool)
  /-- a write of enc_issue (R324, R444) -/
  | encIssue (rd src : Nat) (isImm : Bool)
  /-- a read of enc_wait (R324, R444) -/
  | encWait (rd : Nat)
  /-- sum.get (R152) -/
  | sumGet (rd : Nat)
  /-- a bsum instruction, by funct3 (R152) -/
  | bsum (f3 rs2 : Nat) (off : Word)
  /-- a custom or SYSTEM encoding that LOAD_IMAGE refuses (R152, R444) -/
  | banned
  /-- no instruction of RV32IMC -/
  | illegal
deriving DecidableEq, Repr

/-- A sign-extended immediate of n bits. -/
def immS (n v : Nat) : Word := BitVec.ofInt 32 (sgn n v)

/-- A SYSTEM instruction: the forms that R444 permits. -/
def decodeSystem (w : Nat) : RvIns :=
  let f3 := fld w 14 12
  let csr := fld w 31 20
  let rd := fld w 11 7
  let src := fld w 19 15
  if csr = 0x7C0 ∧ (f3 = 1 ∨ f3 = 5) then .blkIssue rd src (f3 == 5)
  else if csr = 0x7C1 ∧ (f3 = 1 ∨ f3 = 5) then .encIssue rd src (f3 == 5)
  else if csr = 0x7C2 ∧ (f3 = 2 ∨ f3 = 3 ∨ f3 = 6 ∨ f3 = 7) ∧ src = 0 then .encWait rd
  else .banned
/-- The branch offset of a B-type instruction. -/
def immB (w : Nat) : Word := immS 13 (bit 31 * 4096 + bit 7 * 2048 + fld w 30 25 * 32 + fld w 11 8 * 2)
where
  /-- a bit as a number -/
  bit (i : Nat) : Nat := if bitAt w i then 1 else 0
/-- A 32-bit instruction. -/
def decode32 (w : Nat) : RvIns :=
  let f3 := fld w 14 12
  let f7 := fld w 31 25
  let rd := fld w 11 7
  let rs1 := fld w 19 15
  let rs2 := fld w 24 20
  match fld w 6 0 with
  | 0x37 => .lui rd (BitVec.ofNat 32 (fld w 31 12 * 4096))
  | 0x17 => .auipc rd (BitVec.ofNat 32 (fld w 31 12 * 4096))
  | 0x6F => .jal rd (immS 21 (fld w 31 31 * 2 ^ 20 + fld w 19 12 * 4096 + fld w 20 20 * 2048 + fld w 30 21 * 2))
  | 0x67 => if f3 = 0 then .jalr rd rs1 (immS 12 (fld w 31 20)) else .illegal
  | 0x63 => if f3 = 2 ∨ f3 = 3 then .illegal else .branch f3 rs1 rs2 (immB w)
  | 0x03 => if f3 = 3 ∨ 6 ≤ f3 then .illegal else .load f3 rd rs1 (immS 12 (fld w 31 20))
  | 0x23 => if 3 ≤ f3 then .illegal else .store f3 rs1 rs2 (immS 12 (f7 * 32 + rd))
  | 0x13 =>
    if f3 = 1 then (if f7 = 0 then .opImm 1 false rd rs1 (BitVec.ofNat 32 rs2) else .illegal)
    else if f3 = 5 then (if f7 = 0 ∨ f7 = 0x20 then .opImm 5 (f7 == 0x20) rd rs1 (BitVec.ofNat 32 rs2) else .illegal)
    else .opImm f3 false rd rs1 (immS 12 (fld w 31 20))
  | 0x33 =>
    if f7 = 1 then .mulDiv f3 rd rs1 rs2
    else if f7 = 0 then .op f3 false rd rs1 rs2
    else if f7 = 0x20 ∧ (f3 = 0 ∨ f3 = 5) then .op f3 true rd rs1 rs2
    else .illegal
  | 0x0F => if f3 ≤ 1 then .fence else .illegal
  | 0x73 => decodeSystem w
  | 0x0B => if f3 = 0 ∧ rs1 = 0 ∧ fld w 31 20 = 0 then .sumGet rd else .banned
  | 0x2B => if rs1 = 0 ∧ f3 ≠ 7 ∧ (f3 ≠ 4 ∨ rs2 = 0) then .bsum f3 rs2 (immB w) else .banned
  | _ => .illegal

/-- The jump offset of C.J and C.JAL. -/
def immCJ (h : Nat) : Word :=
  immS 12 (fld h 12 12 * 2048 + fld h 8 8 * 1024 + fld h 10 9 * 256 + fld h 6 6 * 128 + fld h 7 7 * 64 + fld h 2 2 * 32
    + fld h 11 11 * 16 + fld h 5 3 * 2)
/-- The branch offset of C.BEQZ and C.BNEZ. -/
def immCB (h : Nat) : Word :=
  immS 9 (fld h 12 12 * 256 + fld h 6 5 * 64 + fld h 2 2 * 32 + fld h 11 10 * 8 + fld h 4 3 * 2)
/-- A 16-bit instruction (RVC, quadrants 0 to 2). -/
def decode16 (h : Nat) : RvIns :=
  let f3 := fld h 15 13
  let rd := fld h 11 7
  let rs2 := fld h 6 2
  let rdp := 8 + fld h 4 2
  let rsp := 8 + fld h 9 7
  let imm6 := immS 6 (fld h 12 12 * 32 + fld h 6 2)
  match fld h 1 0, f3 with
  | 0, 0 =>
    let u := fld h 10 7 * 64 + fld h 12 11 * 16 + fld h 5 5 * 8 + fld h 6 6 * 4
    if u = 0 then .illegal else .opImm 0 false rdp 2 (BitVec.ofNat 32 u)
  | 0, 2 => .load 2 rdp rsp (BitVec.ofNat 32 (fld h 5 5 * 64 + fld h 12 10 * 8 + fld h 6 6 * 4))
  | 0, 6 => .store 2 rsp rdp (BitVec.ofNat 32 (fld h 5 5 * 64 + fld h 12 10 * 8 + fld h 6 6 * 4))
  | 1, 0 => .opImm 0 false rd rd imm6
  | 1, 1 => .jal 1 (immCJ h)
  | 1, 2 => .opImm 0 false rd 0 imm6
  | 1, 3 =>
    if rd = 2 then
      let v := fld h 12 12 * 512 + fld h 4 3 * 128 + fld h 5 5 * 64 + fld h 2 2 * 32 + fld h 6 6 * 16
      if v = 0 then .illegal else .opImm 0 false 2 2 (immS 10 v)
    else
      let v := fld h 12 12 * 32 + fld h 6 2
      if v = 0 then .illegal else .lui rd (immS 18 (v * 4096))
  | 1, 4 =>
    match fld h 11 10 with
    | 0 => if bitAt h 12 then .illegal else .opImm 5 false rsp rsp (BitVec.ofNat 32 (fld h 6 2))
    | 1 => if bitAt h 12 then .illegal else .opImm 5 true rsp rsp (BitVec.ofNat 32 (fld h 6 2))
    | 2 => .opImm 7 false rsp rsp imm6
    | _ =>
      if bitAt h 12 then .illegal
      else match fld h 6 5 with
      | 0 => .op 0 true rsp rsp rdp
      | 1 => .op 4 false rsp rsp rdp
      | 2 => .op 6 false rsp rsp rdp
      | _ => .op 7 false rsp rsp rdp
  | 1, 5 => .jal 0 (immCJ h)
  | 1, 6 => .branch 0 rsp 0 (immCB h)
  | 1, 7 => .branch 1 rsp 0 (immCB h)
  | 2, 0 => if bitAt h 12 then .illegal else .opImm 1 false rd rd (BitVec.ofNat 32 (fld h 6 2))
  | 2, 2 =>
    if rd = 0 then .illegal
    else .load 2 rd 2 (BitVec.ofNat 32 (fld h 3 2 * 64 + fld h 12 12 * 32 + fld h 6 4 * 4))
  | 2, 4 =>
    if bitAt h 12 then
      (if rs2 = 0 then (if rd = 0 then .banned else .jalr 1 rd 0) else .op 0 false rd rd rs2)
    else if rs2 = 0 then (if rd = 0 then .illegal else .jalr 0 rd 0)
    else .op 0 false rd 0 rs2
  | 2, 6 => .store 2 2 rs2 (BitVec.ofNat 32 (fld h 8 7 * 64 + fld h 12 9 * 4))
  | _, _ => .illegal

/-- The instruction and its length in bytes that a parcel begins; none where the memory ends inside it. -/
def decodeAt (mem : Mem) (limit a : Nat) : Option (RvIns × Nat) :=
  if limit < a + 2 then none
  else
    let h := mem.num a 2
    if h % 4 = 3 then (if limit < a + 4 then none else some (decode32 (mem.num a 4), 4)) else some (decode16 h, 2)

/-- Every parcel of a program decodes, none is refused, and the last ends at the section's end (R152, R444); fuel bounds the parcels. -/
def programOk (mem : Mem) (limit : Nat) : Nat → Nat → Bool
  | 0, _ => false
  | n + 1, a => if a = limit then true else
    match decodeAt mem limit a with
    | some (.banned, _) => false
    | some (_, len) => programOk mem limit n (a + len)
    | none => false

/-! Execution. -/

/-- A register; x0 reads as zero. -/
def xr (regs : Vector Word 32) (i : Nat) : Word := if i = 0 then 0 else regs.toList.getD i 0
/-- Write a register; a write of x0 is discarded. -/
def xw (regs : Vector Word 32) (i : Nat) (v : Word) : Vector Word 32 := if i = 0 then regs else regs.setIfInBounds i v
/-- The condition of a base branch. -/
def brCond (f3 : Nat) (a b : Word) : Bool :=
  match f3 with
  | 0 => a == b
  | 1 => a != b
  | 4 => a.slt b
  | 5 => !a.slt b
  | 6 => a.ult b
  | _ => !a.ult b
/-- An integer operation of the base set. -/
def aluOp (f3 : Nat) (alt : Bool) (a b : Word) : Word :=
  let sh := b.toNat % 32
  match f3 with
  | 0 => if alt then a - b else a + b
  | 1 => a <<< sh
  | 2 => if a.slt b then 1 else 0
  | 3 => if a.ult b then 1 else 0
  | 4 => a ^^^ b
  | 5 => if alt then a.sshiftRight sh else a >>> sh
  | 6 => a ||| b
  | _ => a &&& b
/-- An operation of the M extension. -/
def mulOp (f3 : Nat) (a b : Word) : Word :=
  match f3 with
  | 0 => a * b
  | 1 => BitVec.ofInt 32 (a.toInt * b.toInt / 2 ^ 32)
  | 2 => BitVec.ofInt 32 (a.toInt * (b.toNat : Int) / 2 ^ 32)
  | 3 => BitVec.ofNat 32 (a.toNat * b.toNat / 2 ^ 32)
  | 4 => if b = 0 then BitVec.allOnes 32 else BitVec.ofInt 32 (a.toInt.tdiv b.toInt)
  | 5 => if b = 0 then BitVec.allOnes 32 else BitVec.ofNat 32 (a.toNat / b.toNat)
  | 6 => if b = 0 then a else BitVec.ofInt 32 (a.toInt.tmod b.toInt)
  | _ => if b = 0 then a else BitVec.ofNat 32 (a.toNat % b.toNat)
/-- The bytes of a load or store by funct3. -/
def accessBytes (f3 : Nat) : Nat := match f3 % 4 with
  | 0 => 1
  | 1 => 2
  | _ => 4
/-- The offset in data memory of an access; none where it traps (R443). -/
def dataAt (a : Word) (n : Nat) : Option Nat :=
  let x := a.toNat
  if x % n = 0 ∧ 0x10000 ≤ x ∧ x + n ≤ 0x20000 then some (x - 0x10000) else none
/-- What an instruction other than a CSR or summary access does to pc, registers and data memory; none for a trap (R443). -/
def rvRun (i : RvIns) (len : Nat) (pc : Word) (regs : Vector Word 32) (dmem : Mem) : Option (Word × Vector Word 32 × Mem) :=
  let next := pc + BitVec.ofNat 32 len
  match i with
  | .lui rd imm => some (next, xw regs rd imm, dmem)
  | .auipc rd imm => some (next, xw regs rd (pc + imm), dmem)
  | .jal rd off => some (pc + off, xw regs rd next, dmem)
  | .jalr rd rs1 imm => some ((xr regs rs1 + imm) &&& (~~~ 1), xw regs rd next, dmem)
  | .branch f3 rs1 rs2 off => some (if brCond f3 (xr regs rs1) (xr regs rs2) then pc + off else next, regs, dmem)
  | .load f3 rd rs1 imm =>
    let n := accessBytes f3
    (dataAt (xr regs rs1 + imm) n).map (fun o =>
      let v := dmem.num o n
      (next, xw regs rd (if f3 < 4 then immS (8 * n) v else BitVec.ofNat 32 v), dmem))
  | .store f3 rs1 rs2 imm =>
    let n := accessBytes f3
    (dataAt (xr regs rs1 + imm) n).map (fun o => (next, regs, dmem.put o (natLE n (xr regs rs2).toNat)))
  | .opImm f3 alt rd rs1 imm => some (next, xw regs rd (aluOp f3 alt (xr regs rs1) imm), dmem)
  | .op f3 alt rd rs1 rs2 => some (next, xw regs rd (aluOp f3 alt (xr regs rs1) (xr regs rs2)), dmem)
  | .mulDiv f3 rd rs1 rs2 => some (next, xw regs rd (mulOp f3 (xr regs rs1) (xr regs rs2)), dmem)
  | .fence => some (next, regs, dmem)
  | _ => none
/-- The condition of a bsum instruction on summary s and x[rs2] (R152). -/
def bsumCond (f3 : Nat) (s x : Word) : Bool :=
  match f3 with
  | 0 => bsumFltCond s x
  | 1 => bsumFgeCond s x
  | 2 => bsumFeqCond s x
  | 3 => bsumFneCond s x
  | 4 => bsumNanCond s
  | 5 => bsumUltCond s x
  | _ => bsumUgeCond s x

end Sys2Proof.Machine
end

