-- ==== Sys2Proof/Machine/Image.lean ====
section
/-! DEFINITION. Validation of a Felost image at LOAD_IMAGE (R38): the header (R34, R39), the section table (R35, R36), the layout of every
section, every command (R43 and the load rows of the command chapters), channels and addresses (R45, R48, R336, R398). -/
namespace Sys2Proof.Machine

/-! Failures. -/

/-- Where and why validation fails: status, section index, byte offset (R38). -/
abbrev Bad := Option (Nat × Nat × Nat)
/-- The section index of a failure outside every section (R38). -/
def noSection : Nat := 0xFFFFFFFF
/-- The first offset of a list of checks that fails: (it holds, offset). -/
def firstFail (cs : List (Bool × Nat)) : Option Nat := (cs.find? (fun c => !c.1)).map Prod.snd
/-- A failure in the header or the section table. -/
def headBad (status : Nat) (o : Option Nat) : Bad := o.map (fun off => (status, noSection, off))
/-- k records of n bytes from the start of a string, as numbers. -/
def recsN (n : Nat) : Nat → Bytes → List Nat
  | 0, _ => []
  | k + 1, bs => leNat (bs.take n) :: recsN n k (bs.drop n)
/-- k records of n bytes from an offset. -/
def recsAt (bs : Bytes) (off n k : Nat) : List Nat := recsN n k (bs.drop off)
/-- A record breaks a rule: its offset. -/
def badRec (ws : List Nat) (off n : Nat) (ok : Nat → Nat → Bool) : Option Nat :=
  ((ws.mapIdx (fun i w => (ok i w, off + n * i))).find? (fun c => !c.1)).map Prod.snd
/-- No two ranges of a list share a byte. -/
def rangesApart : List (Nat × Nat) → Bool
  | [] => true
  | r :: rs => rs.all (fun q => !overlaps r.1 r.2 q.1 q.2) && rangesApart rs

/-! Steps 1 to 3: header and section table. -/

/-- Step 1: magic, version, header size, target against the order code, and the size delivered (R38, R39). -/
def checkMagic (order : Nat) (img : Bytes) : Option Nat :=
  let h := leAt img 0 64
  let v := fld h 47 32
  let t := fld h 71 64
  firstFail [(fld h 31 0 == 0x534C4546, 0), (v == 3 || (order == 3 && v == 2), 4), (fld h 63 48 == 64, 6),
    (if order = 3 then (t == 2 && v == 3) || (t == 3 && v == 2) else t == 1 && v == 3, 8),
    (fld h 223 192 == img.length, 24)]
/-- The header's reserved fields and ranges, its counts against the heat's resources, and the replica partition (R34, R39, R255). -/
def checkHeader (clusters positions ports : Nat) (p : Program) : Option Nat :=
  let h := p.hdr
  firstFail [(rsv h 79 76, 9), (8 ≤ fld h 84 80 && fld h 84 80 ≤ 16 && rsv h 87 85, 10), (p.clusterCount == clusters, 11),
    (p.positionCount == positions, 12), (p.portCount == ports, 13), (1 ≤ p.sectionCount && p.sectionCount ≤ 1024, 14),
    (1 ≤ p.replicas && p.replicas ≤ 4096, 16), (rsv h 143 141, 17), (fld h 148 144 ≤ 16 && rsv h 159 149, 18),
    (1 ≤ p.batch && p.batch ≤ 1048576, 20), (p.imageSize ≤ 0x40000000, 24), (rsv h 255 224, 28),
    (p.unaligned || (p.replicas == pow2Ceil p.replicas && p.replicas ≤ p.padded), 16)]
/-- The size limit of a section kind (R36). -/
def kindLimit (k : Nat) : Nat :=
  match k with
  | 0x01 | 0x03 => 64 * mib
  | 0x02 | 0x06 | 0x09 => 65536
  | 0x04 => 128 * mib
  | 0x05 | 0x0B => 16 * mib
  | 0x07 | 0x08 => mib
  | 0x0A => 262144
  | 0x0C => 8 * mib
  | _ => 512 * mib
/-- A section kind is owned by each cluster (R36). -/
def perCluster (k : Nat) : Bool := k == 1 || k == 2 || k == 5 || k == 10
/-- The owner of a section fits its kind (R35, R36). -/
def ownerOk (clusters k o : Nat) : Bool :=
  if perCluster k then o < clusters else if k = 4 then o < clusters && o % 2 == 0 else o == wide
/-- One section table entry by itself (R35, R36). -/
def entryOk (p : Program) (w : Nat) : Bool :=
  let k := fld w 7 0
  1 ≤ k && k ≤ 0x0D && rsv w 15 8 && rsv w 127 96 && ownerOk p.clusterCount k (fld w 31 16) && fld w 63 32 % 256 == 0
    && fld w 95 64 ≤ kindLimit k && 64 + 16 * p.sectionCount ≤ fld w 63 32 && fld w 63 32 + fld w 95 64 ≤ p.imageSize
/-- The section table: each entry, no kind and owner twice, no overlap, none missing (R36). -/
def checkTable (p : Program) (ws : List Nat) : Option Nat :=
  let bad := badRec ws 64 16 (fun i w => entryOk p w && (ws.take i).all (fun v =>
    fld v 31 0 != fld w 31 0 && !overlaps (fld v 63 32) (fld v 95 64) (fld w 63 32) (fld w 95 64)))
  match bad with
  | some o => some o
  | none =>
    let has := fun (k o : Nat) => ws.any (fun w => fld w 7 0 == k && fld w 31 16 == o)
    let cs := List.range p.clusterCount
    if [1, 2, 5, 10].all (fun k => cs.all (has k)) && cs.all (fun c => c % 2 == 1 || has 4 c)
      && [3, 6, 8, 9, 11].all (fun k => has k wide) && (p.portCount == 0 || has 7 wide) then none else some 14
/-- The sections of an image. -/
def cutSections (img : Bytes) (ws : List Nat) : List Section :=
  ws.map (fun w => ⟨fld w 7 0, fld w 31 16, (img.drop (fld w 63 32)).take (fld w 95 64)⟩)

/-! Step 3: the layout of each section. Each check answers the offset that fails. -/

/-- A stream's block table and whole commands (R40). -/
def checkStream (s : Bytes) : Option Nat :=
  let n := blockCount s
  if n = 0 ∨ 65536 < n ∨ s.length < cmdBase s then some 0
  else match badRec (recsAt s 4 8 n) 4 8 (fun _ w => 1 ≤ fld w 63 32) with
  | some o => some o
  | none => if (s.length - cmdBase s) % 32 = 0 then none else some (cmdBase s + 32 * cmdCount s)
/-- The first parcel of a program that is refused (R152, R444); fuel bounds the parcels. -/
def programBad (mem : Mem) (limit : Nat) : Nat → Nat → Option Nat
  | 0, a => some a
  | n + 1, a => if a = limit then none else
    match decodeAt mem limit a with
    | some (.banned, _) => some a
    | some (_, len) => programBad mem limit n (a + len)
    | none => some a
/-- A control program (R444). -/
def checkProgram (s : Bytes) : Option Nat :=
  if 65536 < s.length then some 0 else programBad (Mem.put [] 0 s) s.length (s.length / 2 + 1) 0
/-- A FOLD section's part table and parts (R48). -/
def checkFold (s : Bytes) : Option Nat :=
  let ws := recsAt s 0 16 4
  let parts := ws.map (fun w => (fld w 31 0, fld w 63 32))
  if s.length < 64 then some 0
  else match badRec ws 0 16 (fun i w => rsv w 127 64 && fld w 31 0 % 256 == 0 && 256 ≤ fld w 31 0 && fld w 31 0 + fld w 63 32 ≤ s.length
      && fld w 63 32 ≤ (if i % 2 = 0 then 64 * mib else 65536)
      && (parts.take i).all (fun r => !overlaps r.1 r.2 (fld w 31 0) (fld w 63 32))) with
  | some o => some o
  | none => (parts.mapIdx (fun i r =>
      let part := (s.drop r.1).take r.2
      ((if i % 2 = 0 then checkStream part else checkProgram part).map (· + r.1)))).findSome? id
/-- NEXT_EVENT (R358). -/
def checkEvents (p : Program) (owner : Nat) (s : Bytes) : Option Nat :=
  let n := leAt s 0 4
  if n ≠ blockCount (p.sec 0x01 owner) ∨ s.length < 16 + 16 * n then some 0
  else badRec (recsAt s 16 16 n) 16 16 (fun _ w => fld w 1 0 != 3 && rsv w 7 2 && rsv w 127 48
    && (if fld w 1 0 = 2 then 64 ≤ fld w 15 8 else fld w 15 8 == 0))
/-- One CHANNELS entry by itself (R45). -/
def chanEntryOk (w : Nat) : Bool :=
  (fld w 36 32 == 0 || (7 ≤ fld w 36 32 && fld w 36 32 ≤ 16)) && rsv w 39 37 && 1 ≤ fld w 46 40 && fld w 46 40 ≤ 64 && rsv w 47 47
    && rsv w 127 72 && (fld w 36 32 == 0 || fld w 71 48 % 128 == 0)
/-- CHANNELS, its layout (R45). -/
def checkChannels (s : Bytes) : Option Nat :=
  let n := leAt s 0 4
  if 8192 < n ∨ s.length < 16 + 16 * n then some 0 else badRec (recsAt s 16 16 n) 16 16 (fun _ w => chanEntryOk w)
/-- SCALE_RECIPES (R81, R83). -/
def checkRecipes (s : Bytes) : Option Nat :=
  let n := leAt s 0 4
  if n = 0 ∨ 4095 < n ∨ s.length < 16 + 16 * n then some 0
  else if leAt s 4 12 ≠ 0 then some 4 else badRec (recsAt s 16 16 n) 16 16 (fun _ w => recipeOk w)
/-- FUNC_TABLES (R138, R139). -/
def checkFnTables (s : Bytes) : Option Nat := badRec (recsAt s 0 32 16) 0 32 (fun _ w => if bitAt w 0 then fnOk w else fnUnusedOk w)
/-- A route entry (R231, R234). -/
def routeEntryOk (ports w : Nat) : Bool :=
  let group := fun (on : Bool) (port log2 : Nat) => !on || (port % 2 ^ log2 == 0 && port + 2 ^ log2 ≤ ports)
  rsv w 31 18 && group (bitAt w 16) (fld w 4 0) (fld w 6 5) && group (bitAt w 17) (fld w 11 7) (fld w 13 12)
    && (!bitAt w 16 || fld w 15 14 != 3)
/-- ROUTES (R228 to R231, R234). -/
def checkRoutes (p : Program) (s : Bytes) : Option Nat :=
  let h := leAt s 0 64
  let mc := fld h 12 0
  let cc := fld h 21 16
  let tables := 65728 + roundUp mc 64
  match firstFail [(1 ≤ mc && mc ≤ 4096 && (p.portCount != 0 || mc == 1), 0), (rsv h 15 14, 1), (1 ≤ cc && cc ≤ 59 && rsv h 31 22, 2),
      (16 ≤ fld h 41 32 && 16 ≤ fld h 51 42 && 16 ≤ fld h 61 52 && fld h 41 32 + fld h 51 42 + fld h 61 52 == 480, 4),
      (rsv h 511 62, 7), (tables + 16384 * cc ≤ s.length, 0)] with
  | some o => some o
  | none =>
    match badRec (recsAt s 64 4 32) 64 4 (fun i w => rsv w 31 18 && (i < p.portCount || !bitAt w 17)) with
    | some o => some o
    | none => match badRec (recsAt s 192 16 4096) 192 16 (fun _ w => fld w 47 0 % 32 == 0 && rsv w 63 49 && rsv w 127 86) with
      | some o => some o
      | none => match badRec (recsAt s 65728 1 mc) 65728 1 (fun _ w => w < cc) with
        | some o => some o
        | none => badRec (recsAt s tables 4 (4096 * cc)) tables 4 (fun _ w => routeEntryOk p.portCount w)
/-- Every module reaches the root along its parent links; fuel bounds the depth (R260). -/
def reaches (parents : List Nat) (root : Nat) : Nat → Nat → Bool
  | 0, m => m == root
  | n + 1, m => m == root || reaches parents root n (parents.getD m root)
/-- HURDLE_PLAN (R260). -/
def checkPlan (p : Program) (s : Bytes) : Option Nat :=
  let h := leAt s 0 64
  let mc := fld h 12 0
  let cc := fld h 43 32
  let mods := recsAt s 64 8 mc
  let parents := mods.map (fun w => fld w 11 0)
  let base := 64 + roundUp (8 * mc) 64
  let checks := recsAt s base 4 cc
  let tags := checks.flatMap (fun w => [fld w 11 0, fld w 23 12])
  let want := if p.has 7 wide then fld p.routeHdr 12 0 else 1
  match firstFail [(1 ≤ mc && mc ≤ 4096 && mc == want, 0), (rsv h 15 13, 1), (p.root < mc && rsv h 31 28, 2), (cc ≤ 2048, 4),
      (rsv h 511 44, 5), (base + 4 * cc ≤ s.length, 0)] with
  | some o => some o
  | none =>
    match badRec mods 64 8 (fun m w =>
        fld w 11 0 < mc && (fld w 11 0 == m) == (m == p.root) && reaches parents p.root mc m
        && fld w 18 12 == (parents.mapIdx (fun k q => (k, q))).countP (fun x => x.2 == m && x.1 != m) && fld w 18 12 ≤ 64
        && rsv w 19 19 && rsv w 63 32 && fld w 31 20 < mc && (fld w 31 20 != m || mc == 1)
        && (mods.take m).all (fun v => fld v 31 20 != fld w 31 20)) with
    | some o => some o
    | none => badRec checks base 4 (fun i w =>
        rsv w 31 24 && (tags.filter (· == fld w 11 0)).length == 1 && (tags.filter (· == fld w 23 12)).length == 1
        && p.tagValid (fld w 23 12) && p.tagUnits (fld w 23 12) == p.tagUnits (fld w 11 0) && i < cc)
/-- TOKENIZER (R308). -/
def checkTokenizer (s : Bytes) : Option Nat :=
  let h := leAt s 0 64
  let vocab := fld h 31 0
  let n := fld h 63 32
  let special := fun (w : Nat) => w == 0xFFFFFFFF || w < vocab
  let merges := recsAt s 1088 16 n
  let ranks := sortBy (fun a b => decide (a ≤ b)) (merges.map (fun w => fld w 127 96))
  match firstFail [(64 ≤ s.length && 257 ≤ vocab && vocab ≤ 1048576, 0), (n ≤ 524220 && 1088 + 16 * n ≤ s.length, 4),
      (fld h 65 64 ≤ 1 && rsv h 95 66, 8), (special (fld h 127 96), 12), (special (fld h 159 128), 16),
      (1 ≤ fld h 191 160 && fld h 191 160 ≤ 1048576, 20), (rsv h 511 192, 24)] with
  | some o => some o
  | none => match badRec (recsAt s 64 4 256) 64 4 (fun _ w => w < vocab) with
    | some o => some o
    | none =>
      let pairs := merges.map (fun w => fld w 31 0 * 2 ^ 32 + fld w 63 32)
      let rising := 0 :: (pairs.zip (pairs.drop 1)).map (fun x => if x.1 < x.2 then 0 else 1)
      match badRec (merges.zip rising |>.map (fun x => x.1 + x.2 * 2 ^ 128)) 1088 16 (fun _ w =>
          fld w 31 0 < vocab && fld w 63 32 < vocab && fld w 95 64 < vocab && fld w 128 128 == 0) with
      | some o => some o
      | none => if (ranks.zip (ranks.drop 1)).all (fun x => x.1 != x.2) then none else some 1088
/-- Every byte of a string is zero: padding (R36, R37). -/
def zeroBytes (bs : Bytes) : Bool := bs.all (· == 0)
/-- INIT_DATA records run to the section's end, each padded with zero bytes to 256 (R36); fuel bounds them. -/
def initRecs : Nat → Nat → Bytes → List (Nat × Nat × Nat) × Option Nat
  | 0, off, bs => ([], if bs.isEmpty then none else some off)
  | n + 1, off, bs =>
    if bs.isEmpty then ([], none)
    else
      let len := leNat ((bs.drop 8).take 8)
      let size := roundUp (16 + len) 256
      if bs.length < size then ([], some off)
      else if !zeroBytes ((bs.take size).drop (16 + len)) then ([], some (off + 16 + len))
      else
        let r := initRecs n (off + size) (bs.drop size)
        ((off, leNat (bs.take 8), len) :: r.1, r.2)
/-- The INIT_DATA records of an image: (offset in the section, address, length). -/
def Program.initRecords (p : Program) : List (Nat × Nat × Nat) × Option Nat :=
  let s := p.sec 0x0D wide
  initRecs (s.length / 256 + 1) 0 s

/-- The BATON length of a checkpoint record (R340). -/
def CkptRec.batonLen (r : CkptRec) : Nat := if r.master then r.len / 2 else r.len
/-- The baton payload size the checkpoint list gives (R37). -/
def Program.batonSize (p : Program) : Nat := 4096 + (p.ckpts.map (fun r => roundUp r.batonLen 4096)).sum
/-- A checkpoint list entry (R339). -/
def ckptEntryOk (w : Nat) : Bool :=
  let r := parseCkpt w
  r.a0 % 256 == 0 && r.len % 256 == 0 && !overlaps r.a0 r.len r.a1 r.len && fld w 139 136 ≤ 1 && rsv w 143 140 && rsv w 511 240
    && (r.master || (r.h0 == 0 && r.h1 == 0))
/-- A tensor table entry (R37). -/
def tensorEntryOk (w : Nat) : Bool :=
  fld w 47 0 % 32 == 0 && rsv w 63 48 && fld w 111 64 % 32 == 0 && rsv w 127 112 && fld w 179 176 != 15 && rsv w 255 180
    && (fld w 111 64 == 0 || !overlaps (fld w 47 0) (fld w 175 128) (fld w 111 64) (fld w 175 128))
/-- The bytes from one offset of a section to another are zero: the padding between two tables (R37). -/
def padZero (s : Bytes) (a b : Nat) : Bool := zeroBytes (bytesAt s a (b - a))
/-- PLACEMENT (R37, R339). -/
def checkPlacement (p : Program) (s : Bytes) : Option Nat :=
  let h := p.placeHdr
  match firstFail [(s.length ≥ 2112 && p.tensorCount ≤ 1048576, 0), (p.poolCount ≤ 64, 4), (rsv h 63 40, 5), (p.regionCount ≤ 1048576, 8),
      (rsv h 127 96, 12), (p.usedTop % mib == 0, 16), (rsv h 191 176, 22), (rsv h 511 240, 30),
      (p.ckptBase + 64 ≤ s.length && p.ckptBase + 64 + 64 * leAt s p.ckptBase 4 ≤ s.length, 0)] with
  | some o => some o
  | none =>
    match badRec (recsAt s 64 32 64) 64 32 (fun c w => if p.clusterCount ≤ c then w == 0 else
        fld w 47 0 % 256 == 0 && rsv w 63 48 && fld w 111 64 % 256 == 0 && rsv w 127 112
        && (fld w 151 128 == noDesc || fld w 151 128 % 64 == 0) && rsv w 255 152) with
    | some o => some o
    | none => match badRec (recsAt s tensorBase 32 p.tensorCount) tensorBase 32 (fun _ w => tensorEntryOk w) with
      | some o => some o
      | none => match badRec (recsAt s p.poolBase 16 p.poolCount) p.poolBase 16 (fun _ w => fld w 47 0 % 64 == 0 && rsv w 127 48) with
        | some o => some o
        | none => match badRec (recsAt s p.regionBase 16 p.regionCount) p.regionBase 16 (fun _ w => fld w 47 0 % 64 == 0 && rsv w 127 48) with
          | some o => some o
          | none =>
            let ranges := if p.unaligned then recsAt s p.slotBase 16 p.replicas else []
            let ends := ranges.foldl (fun a w => a ++ [a.getLastD 0 + fld w 63 32]) [0]
            match badRec ranges p.slotBase 16 (fun i w => fld w 31 0 == ends.getD i 0 && 1 ≤ fld w 63 32 && rsv w 127 64) with
            | some o => some o
            | none =>
              let n := leAt s p.ckptBase 4
              let t := tensorBase + 32 * p.tensorCount
              let q := p.poolBase + 16 * p.poolCount
              let r := p.regionBase + 16 * p.regionCount
              let u := p.slotBase + 16 * p.replicas
              match firstFail [(padZero s t p.poolBase, t), (padZero s q p.regionBase, q), (padZero s r p.slotBase, r),
                  (!p.unaligned || padZero s u p.ckptBase, u),
                  (!p.unaligned || ends.getLastD 0 == p.batch, p.slotBase), (n ≤ 4096 && leAt s (p.ckptBase + 4) 60 == 0, p.ckptBase)] with
              | some o => some o
              | none => match badRec (recsAt s (p.ckptBase + 64) 64 n) (p.ckptBase + 64) 64 (fun _ w => ckptEntryOk w) with
                | some o => some o
                | none => if p.batonBytes = p.batonSize then none else some 24

/-! SAMPLE_PLAN (R277, R278, R285, R286, R298, R306). -/

/-- A float in a 32-bit field is finite. -/
def finite32 (w : Nat) : Bool := (v32 (BitVec.ofNat 32 w)).isFin
/-- An augmentation recipe keeps its ranges (R298). -/
def augOk (w : Nat) : Bool :=
  fld w 7 6 ≤ 1 && (fld w 12 8 ≤ 2) && fld w 15 13 ≤ 5 && 1 ≤ fld w 31 16 && fld w 31 16 ≤ 8192 && 1 ≤ fld w 47 32 && fld w 47 32 ≤ 8192
    && fld w 63 48 ≤ fld w 79 64 && 1 ≤ fld w 95 80 && fld w 95 80 ≤ fld w 111 96 && fld w 146 136 ≤ 1024 && rsv w 151 147
    && 1 ≤ fld w 159 152 && fld w 159 152 ≤ 16 && 1 ≤ fld w 175 160 && rsv w 191 176 && rsv w 511 384
    && (bitAt w 1 || fld w 15 13 == 0)
/-- A server entry (R278). -/
def serverOk (w : Nat) : Bool := fld w 177 176 != 0 && rsv w 183 178 && fld w 185 184 == 0 && rsv w 511 192
/-- The audio frontend block (R306): its first failing offset within the block. -/
def checkAudio (a : Bytes) (size : Nat) : Option Nat :=
  if size = 0 then none
  else
    let h := leAt a 0 64
    let n := fld h 35 32
    match firstFail [(133376 ≤ size, 0), (finite32 (fld h 31 0) && fld h 31 31 == 0 && fld h 30 0 != 0, 0), (n ≤ 8 && rsv h 511 36, 4)] with
    | some o => some o
    | none => badRec (recsAt a 133248 16 8) 133248 16 (fun i w =>
        let l := fld w 47 32
        if n ≤ i then rsv w 95 72 else 1 ≤ l && l ≤ 640 && 1 ≤ fld w 71 64 && fld w 71 64 ≤ 64 && rsv w 95 72 && fld w 31 0 * l == 16000 * fld w 63 48
          && fld w 127 96 % 4 == 0 && fld w 127 96 + 4 * l * fld w 71 64 ≤ size)
/-- The rings a cluster's consumers hold in its store: channels and feed channels (R45, R286). -/
def Program.rings (p : Program) (c : Nat) : List (Nat × Nat) :=
  ((p.chans ++ p.feedChans).filter (fun d => d.cons == c && d.slotBytes != 0)).map (fun d => (d.buffer, d.slotBytes * d.slots))
/-- SAMPLE_PLAN; staging is the heat's share in bytes, memTop the end of its partner-free range. -/
def checkSamplePlan (p : Program) (staging memTop : Nat) (s : Bytes) : Option Nat :=
  let h := p.planHdr
  let fc := p.feedCount
  let own := ((List.range p.replicas).map (fun r => (p.ownSlots r).2)).foldl max 0
  match firstFail [(20608 + 16 * fc ≤ s.length, 0), (fld h 5 0 < p.serverCount && rsv h 7 6, 0), (1 ≤ p.serverCount && p.serverCount ≤ 64, 1),
      (1 ≤ p.augCount && p.augCount ≤ 256, 1), (rsv h 31 24, 3), (fld h 127 64 % 64 == 0, 8), (1 ≤ p.entryCount, 16), (1 ≤ p.claimRatio, 22),
      (1 ≤ fc && fc ≤ 1024, 24), (fld h 204 203 != 3, 25), (rsv h 223 205, 25),
      (p.recordRegion.1 % 4096 == 0, 28), (p.recordRegion.2 % 4096 == 0 && mib ≤ p.recordRegion.2, 34),
      (p.sampleRegion.1 % 4096 == 0, 40), (p.sampleRegion.2 % 4096 == 0 && mib ≤ p.sampleRegion.2, 46),
      (!overlaps p.recordRegion.1 p.recordRegion.2 p.sampleRegion.1 p.sampleRegion.2, 28),
      (p.recordRegion.1 + p.recordRegion.2 ≤ memTop, 28), (p.sampleRegion.1 + p.sampleRegion.2 ≤ memTop, 40), (rsv h 1023 448, 56),
      (p.runUp * own ≤ staging / 256, 0)] with
  | some o => some o
  | none =>
    match badRec (recsAt s 128 64 64) 128 64 (fun i w => if i < p.serverCount then serverOk w else rsv w 183 178 && rsv w 511 192) with
    | some o => some o
    | none => match badRec (recsAt s 4224 64 256) 4224 64 (fun i w =>
        if i < p.augCount then augOk w else rsv w 151 147 && rsv w 191 176 && rsv w 511 384) with
      | some o => some o
      | none => match badRec (recsAt s 20608 16 fc) 20608 16 (fun i w =>
          let d := parseFeedChan w
          1 ≤ d.slots && d.slots ≤ 64 && rsv w 23 23 && rsv w 127 48 && d.buffer % 256 == 0 && d.cons < p.clusterCount
            && d.buffer + 256 * d.slots ≤ 0x1000000
            && p.chans.all (fun c => !(c.cons == d.cons && c.consId == d.consId)
              && !(c.cons == d.cons && c.slotBytes != 0 && overlaps c.buffer (c.slotBytes * c.slots) d.buffer (256 * d.slots)))
            && (p.feedChans.take i).all (fun c => !(c.cons == d.cons
              && (c.consId == d.consId || overlaps c.buffer (256 * c.slots) d.buffer (256 * d.slots))))) with
        | some o => some o
        | none =>
          let base := roundUp (20608 + 16 * fc) 64
          let size := fld h 447 416
          if s.length < base + size ∧ size ≠ 0 then some 52
          else if (bytesAt s (20608 + 16 * fc) (base - (20608 + 16 * fc))).any (· != 0) then some (20608 + 16 * fc)
          else (checkAudio (s.drop base) size).map (· + base)

/-- The layout of one section (R36): its first failing offset. -/
def checkSection (p : Program) (staging memTop : Nat) (x : Section) : Option Nat :=
  match x.kind with
  | 0x01 => checkStream x.bytes
  | 0x02 => checkProgram x.bytes
  | 0x03 => checkPlacement p x.bytes
  | 0x04 => checkFold x.bytes
  | 0x05 => checkEvents p x.owner x.bytes
  | 0x06 => checkChannels x.bytes
  | 0x07 => checkRoutes p x.bytes
  | 0x08 => checkPlan p x.bytes
  | 0x09 => checkRecipes x.bytes
  | 0x0A => checkFnTables x.bytes
  | 0x0B => checkSamplePlan p staging memTop x.bytes
  | 0x0C => checkTokenizer x.bytes
  | _ => p.initRecords.2

/-! Step 4: commands. -/

/-- The clusters whose channel ends a stream may name: its own, and the pair's in a fold stream (R48, R335). -/
def chanOwners (fold : Bool) (c : Nat) : List Nat := if fold then [c / 2 * 2, c / 2 * 2 + 1] else [c]
/-- A channel id consumes at one of these clusters (R43). -/
def Program.consumes (p : Program) (cs : List Nat) (id : Nat) : Bool :=
  (p.chans ++ p.feedChans).any (fun d => cs.contains d.cons && d.consId == id)
/-- A channel id produces at one of these clusters (R43). -/
def Program.produces (p : Program) (cs : List Nat) (id : Nat) : Bool :=
  p.chans.any (fun d => (match d.prod with
    | some q => cs.contains q
    | none => false) && d.prodId == id)
/-- A command's header (R41, R43). -/
def headerOk (p : Program) (cs : List Nat) (q : Nat) : Bool :=
  (opQueue (cmdOp q)).isSome && rsv q 15 15 && (!bitAt q 12 || cmdOp q == 0x10 || cmdOp q == 0x11)
    && (!waitEn q || p.consumes cs (waitId q)) && (!postEn q || p.produces cs (postId q))
/-- A command's body: the load rows of R107, R124, R153, R213, R242 and R257. -/
def bodyOk (p : Program) (cs : List Nat) (q : Nat) : Bool :=
  match cmdOp q with
  | 0x01 => matmulBodyOk p.seg q
  | 0x02 => convBodyOk q && (!bitAt q 173 || p.consumes cs (fld q 183 176)) && (!bitAt q 174 || p.consumes cs (fld q 191 184))
  | 0x10 => vecBodyOk q
  | 0x11 => reduceBodyOk q
  | 0x20 => gatherBodyOk q
  | 0x21 => scatterBodyOk p.floatAtomics q
  | 0x22 => copyBodyOk q
  | 0x30 => sendBodyOk q
  | 0x31 => recvBodyOk p.portCount q
  | _ => rsv q 255 64 && !waitEn q && !postEn q
/-- One stream: its commands, its block table against them, its HURDLEs last in their blocks and at least one (R38, R43, R257). -/
def checkCommands (p : Program) (fold : Bool) (c : Nat) (s : Bytes) : Option Nat :=
  let n := cmdCount s
  let base := cmdBase s
  let cmds := recsAt s base 32 n
  let blocks := recsAt s 4 8 (blockCount s)
  let cs := chanOwners fold c
  match badRec blocks 4 8 (fun _ w => fld w 31 0 + fld w 63 32 ≤ n) with
  | some o => some o
  | none => match badRec cmds base 32 (fun _ q => headerOk p cs q && bodyOk p cs q) with
    | some o => some o
    | none =>
      let hurdles := ((List.range n).zip cmds).filterMap (fun x => if cmdOp x.2 = 0x32 then some x.1 else none)
      match badRec blocks 4 8 (fun _ w => hurdles.all (fun i => !(fld w 31 0 ≤ i && i + 1 < fld w 31 0 + fld w 63 32))) with
      | some o => some o
      | none => if hurdles.isEmpty then some 0 else none
/-- The commands of one section (R38). -/
def checkSectionCommands (p : Program) (x : Section) : Option Nat :=
  match x.kind with
  | 0x01 => checkCommands p false x.owner x.bytes
  | 0x04 => [0, 1].findSome? (fun i =>
      let off := leAt x.bytes (32 * i) 4
      (checkCommands p true (x.owner + i) (p.foldPart (x.owner / 2) (2 * i))).map (· + off))
  | _ => none

/-! Step 5: channels and addresses. -/

/-- One channel against the others and the heat's clusters (R45, R336). -/
def chanOk (p : Program) (i : Nat) (d : ChanDef) : Bool :=
  let pair := fun (a b : Nat) => a / 2 == b / 2
  let prod := d.prod.getD 0
  let before := p.chans.take i
  prod != d.cons && prod < p.clusterCount && d.cons < p.clusterCount && d.buffer + d.slotBytes * d.slots ≤ 0x1000000
    && before.all (fun o => !(pair (o.prod.getD 0) prod && o.prodId == d.prodId) && !(pair o.cons d.cons
      && (o.consId == d.consId || overlaps o.buffer (o.slotBytes * o.slots) d.buffer (d.slotBytes * d.slots))))
    && p.feedChans.all (fun o => !(pair o.cons d.cons
      && (o.consId == d.consId || overlaps o.buffer (256 * o.slots) d.buffer (d.slotBytes * d.slots))))
/-- The feed channels of the two clusters of a pair: an entry that clashes with an earlier one, by its offset in SAMPLE_PLAN (R336; which
offset of the section is reported is DEDUCED, log 123). -/
def feedPairsBad (p : Program) : Option Nat :=
  let fs := p.feedChans
  ((fs.mapIdx (fun i d => ((fs.take i).all (fun o =>
      !(o.cons / 2 == d.cons / 2 && (o.consId == d.consId || overlaps o.buffer (256 * o.slots) d.buffer (256 * d.slots)))),
    20608 + 16 * i))).find? (fun c => !c.1)).map Prod.snd
/-- Every channel of the image (R38, R45, R336). -/
def checkChans (p : Program) : Option Nat :=
  ((p.chans.mapIdx (fun i d => (chanOk p i d, 16 + 16 * i))).find? (fun c => !c.1)).map Prod.snd
/-- A memory range below the program top (R398). -/
def inMem (top a n : Nat) : Bool := a + n ≤ top && a ≤ top
/-- A range a record of INIT_DATA or a landing tag may name: memory outside the sample regions, a cluster store or scratch (R22, R206, R207,
R234, R398). -/
def placeable (h : HeatMap) (a n : Nat) : Bool := n == 0 || moverStatus h 0 true false (a, n) == 0
/-- The addresses PLACEMENT names (R37, R339, R398). -/
def checkPlaceAddrs (p : Program) (top : Nat) : Option Nat :=
  let streams := (List.range p.clusterCount).map (fun c =>
    (inMem top (p.streamAddr false c) (p.sec 0x01 c).length && inMem top (p.streamAddr true c) (p.stream true c).length, 64 + 32 * c))
  let tensors := (recsAt p.place tensorBase 32 p.tensorCount).mapIdx (fun i w =>
    (inMem top (fld w 47 0) (fld w 175 128) && (fld w 111 64 == 0 || inMem top (fld w 111 64) (fld w 175 128)), tensorBase + 32 * i))
  let pools := p.pools.mapIdx (fun i a => (inMem top a 64, p.poolBase + 16 * i))
  let regions := p.regions.mapIdx (fun i a => (inMem top a 64, p.regionBase + 16 * i))
  let ckpts := p.ckpts.mapIdx (fun i r =>
    (inMem top r.a0 r.len && inMem top r.a1 r.len && (!r.master || (inMem top r.h0 (r.len / 2) && inMem top r.h1 (r.len / 2))),
      p.ckptBase + 64 + 64 * i))
  firstFail ([(decide (p.usedTop ≤ top), 16)] ++ streams ++ tensors ++ pools ++ regions ++ ckpts)
/-- The region addresses a page operation or KV access names (R212, R398). -/
def copyAddrsOk (top q : Nat) : Bool :=
  cmdOp q != 0x22 || copOf q == 0 || (inMem top (fld q 167 120) 64 && (copOf q != 4 || inMem top (fld q 215 168) 64))
/-- The addresses of one section (R38, R398). -/
def checkAddrs (p : Program) (hm : HeatMap) (x : Section) : Option Nat :=
  let cmds := fun (s : Bytes) => badRec (recsAt s (cmdBase s) 32 (cmdCount s)) (cmdBase s) 32 (fun _ q => copyAddrsOk hm.programTop q)
  match x.kind with
  | 0x01 => cmds x.bytes
  | 0x03 => checkPlaceAddrs p hm.programTop
  | 0x0B => firstFail [(p.recordRegion.1 + p.recordRegion.2 ≤ hm.programTop, 28), (p.sampleRegion.1 + p.sampleRegion.2 ≤ hm.programTop, 40)]
  | 0x04 => [0, 1].findSome? (fun i => (cmds (p.foldPart (x.owner / 2) (2 * i))).map (· + leAt x.bytes (32 * i) 4))
  | 0x07 => badRec (recsAt x.bytes 192 16 4096) 192 16 (fun _ w => !bitAt w 48 || placeable hm (fld w 47 0) (32 * (fld w 85 64 + 1)))
  | 0x0D => firstFail (p.initRecords.1.map (fun r => (placeable hm r.2.1 r.2.2, r.1)))
  | _ => none

/-! The whole. -/

/-- The first section in table order that a check refuses. -/
def sectionBad (p : Program) (status : Nat) (f : Section → Option Nat) : Bad :=
  (p.secs.mapIdx (fun i x => (f x).map (fun o => (status, i, o)))).findSome? id
/-- The image as parsed: header and sections. -/
def parseImage (img : Bytes) : Program :=
  let h := leAt img 0 64
  ⟨h, cutSections img (recsAt img 64 16 (fld h 127 112))⟩
/-- Validation of a whole image for a heat (R38): none where it passes. Under CACHE mode an image with float_atomics is refused (R200). -/
def State.validate (s : State) (h : Heat) (img : Bytes) : Bad :=
  let p := parseImage img
  let hm := s.heatMap h p
  match checkMagic s.com.boot.order img with
  | some o => some (eConfig, noSection, o)
  | none =>
    if sha256 (img.drop 64) ≠ bytesAt img 32 32 then some (eCheck, noSection, 32)
    else match checkHeader h.clusterList.length h.positionList.length h.portList.length p with
    | some o => some (eConfig, noSection, o)
    | none => if s.com.boot.setting 3 3 = 1 ∧ p.floatAtomics = true then some (eConfig, noSection, 9)
    else match checkTable p (recsAt img 64 16 p.sectionCount) with
      | some o => some (eConfig, noSection, o)
      | none => match sectionBad p eConfig (checkSection p (h.feedShare * mib) (s.partnerBase h p)) with
        | some b => some b
        | none => match sectionBad p eDesc (checkSectionCommands p) with
          | some b => some b
          | none =>
            let chans := (p.secs.findIdx? (fun x => x.kind == 6)).getD 0
            let plan := (p.secs.findIdx? (fun x => x.kind == 11)).getD 0
            match checkChans p with
            | some o => some (eConfig, chans, o)
            | none => match feedPairsBad p with
              | some o => some (eConfig, plan, o)
              | none => sectionBad p eLimit (checkAddrs p hm)

end Sys2Proof.Machine
end

