-- ==== Sys2Proof/Machine/CkptCore.lean ====
section
/-! DEFINITION. Pieces of a checkpoint: payload and header (R340, R341), their digests, the local flash interval (R344), what a module
holds (R348, R403), and the sources of a restore (R349). -/
namespace Sys2Proof.Machine

/-- The bytes of a record in a layer: a MASTER record of the BATON layer keeps only bits [15:0] of each element (R340). -/
def recordBytes (m : Mem) (baton : Bool) (step : Nat) (r : CkptRec) : Bytes :=
  let bs := m.get (r.addr step) r.len
  if baton && r.master then lowHalves bs else bs
/-- Pad to a multiple of 4 KiB (R340). -/
def pad4k (bs : Bytes) : Bytes := bytesAt bs 0 (roundUp bs.length 4096)
/-- The payload of a piece: the records in list order (R340). -/
def ckptPayload (p : Program) (m : Mem) (baton : Bool) (step : Nat) : Bytes :=
  p.ckpts.flatMap (fun r => pad4k (recordBytes m baton step r))
/-- A granule of a record's copy is poisoned (R351). -/
def ckptPoisoned (p : Program) (poison : List Nat) (step : Nat) : Bool :=
  p.ckpts.any (fun r => poison.any (fun g => overlaps (32 * g) 32 (r.addr step) r.len))
/-- The 4 KiB piece header (R340): layer 1 BATON, 2 FLASH, 3 STORE; owner is the module whose state it is. Every baton header of an image with
force_same_feed sets not_independent (R343). -/
def pieceHeader (p : Program) (layer : Nat) (step : Nat) (seed : DWord) (owner replica : Nat) (payload : Bytes) : Bytes :=
  let w := 0x314B435A + layer * 2 ^ 32 + (if p.freeOrder then 2 ^ 34 else 0) + (if p.floatAtomics then 2 ^ 35 else 0)
    + (if layer = 1 ∧ p.forceSameFeed then 2 ^ 36 else 0) + 3 * 2 ^ 48 + step % 2 ^ 64 * 2 ^ 64 + seed.toNat * 2 ^ 128
    + (step + 1) * p.batch % 2 ^ 64 * 2 ^ 192 + owner * 2 ^ 256 + replica * 2 ^ 268 + p.moduleCount * 2 ^ 280
    + payload.length % 2 ^ 64 * 2 ^ 320 + p.ckpts.length * 2 ^ 384
  let h := natLE 96 w ++ p.digest
  let h := h ++ sha256 payload
  bytesAt (bytesAt h 0 160) 0 160 ++ sha256 (bytesAt h 0 128) ++ List.replicate (4096 - 192) 0
/-- The replica a module works for: its id modulo R (DESIGN CHOICE, log 21). -/
def Program.replicaOf (p : Program) (m : Nat) : Nat := m % p.replicas

/-- A piece has its digests in order (R349): header_digest over header bytes 0–127, payload_digest over the payload. -/
def pieceSound (bs : Bytes) : Bool :=
  let len := leAt bs 40 8
  4096 + len ≤ bs.length && bytesAt bs 160 32 == sha256 (bs.take 128) && bytesAt bs 128 32 == sha256 ((bs.drop 4096).take len)
/-- A piece is of a step of this job: image digest, module count and seed as saved (R348). -/
def pieceFits (p : Program) (seed : DWord) (step owner : Nat) (bs : Bytes) : Bool :=
  leAt bs 0 4 == 0x314B435A && leAt bs 8 8 == step && leAt bs 16 8 == seed.toNat && fld (leAt bs 32 8) 11 0 == owner
    && fld (leAt bs 32 8) 36 24 == p.moduleCount && bytesAt bs 96 32 == p.digest
/-- A piece names a step. -/
def pieceOf (step : Nat) (bs : Bytes) : Bool := leAt bs 0 4 == 0x314B435A && leAt bs 8 8 == step

/-! The local flash interval (R344). -/

/-- r: retirements in the life log within the last 720 h (R344, R417). -/
def State.recentRetirements (s : State) : Nat := (s.com.store.retiredAt.filter (fun t => s.powerOnS ≤ t + 2592000)).length
/-- q: transient retries in the last 24 h, in 65,536s. -/
def State.recentTransients (s : State) : Nat :=
  (s.com.store.transients.filter (fun t => s.now < t + 86400 * second)).length / 65536
/-- K of R344, with every time in the same unit: the largest power of two K with (K s)^2 (1 + r + q) at most 2 w ckpt_mtbf_s, or a quarter of
that where the baton is not independent. -/
def flashK (mtbf w gap rq : Nat) (notIndep : Bool) : Nat :=
  let ok := fun (k : Nat) => (if notIndep then 4 else 1) * (k * gap) * (k * gap) * (1 + rq) ≤ 2 * w * (mtbf * second)
  ((List.range 13).map (fun j => 2 ^ (12 - j))).find? ok |>.getD 1
/-- K of a heat now. -/
def State.heatK (s : State) (h : Heat) : Nat :=
  let gap := if h.hu.goGaps.isEmpty then 46 * second / 10 else lowMedian h.hu.goGaps
  flashK (s.com.boot.setting 191 160) h.ck.lastW gap (s.recentRetirements + s.recentTransients)
    ((h.image.map Program.forceSameFeed).getD false)

/-! Restore (R349). -/

/-- Write the records of a payload to their copies of a step's parity. -/
def writeRecords (step : Nat) (recs : List CkptRec) (payload : Bytes) (m : Mem) : Mem :=
  (recs.foldl (fun (x : Mem × Bytes) r => (x.1.put (r.addr step) (x.2.take r.len), x.2.drop (roundUp r.len 4096))) (m, payload)).1
/-- A master from its low and high halves, high << 16 | low (R349). -/
def joinHalves (lows highs : Bytes) : Bytes :=
  (List.range (lows.length / 2)).flatMap (fun i => bytesAt lows (2 * i) 2 ++ bytesAt highs (2 * i) 2)
/-- The full payload a BATON payload and the partner's high halves give. -/
def widenBaton (recs : List CkptRec) (payload : Bytes) (highs : Nat → Bytes) : Bytes :=
  (recs.foldl (fun (x : Bytes × Bytes × Nat) r =>
    let part := x.2.1.take r.batonLen
    (x.1 ++ pad4k (if r.master then joinHalves part (highs x.2.2) else part), x.2.1.drop (roundUp r.batonLen 4096), x.2.2 + 1))
    ([], payload, 0)).1
/-- What a source of a restore gives. -/
inductive Source where
  /-- it holds no copy of the step -/
  | absent
  /-- its copy fails a digest -/
  | bad
  /-- its copy is of another job -/
  | foreign
  /-- the parity copy in place -/
  | inPlace
  /-- a payload with full masters -/
  | payload (bs : Bytes)
deriving DecidableEq, Repr
/-- A piece as a source. -/
def pieceSource (p : Program) (seed : DWord) (step owner : Nat) (piece : Option Bytes) (f : Bytes → Bytes) : Source :=
  match piece with
  | none => .absent
  | some bs => if !pieceOf step bs then .absent else if !pieceSound bs then .bad
    else if !pieceFits p seed step owner bs then .foreign else .payload (f (bs.drop 4096))
/-- The piece of a step that local flash holds for a job: one that fits it, else the first of that step (R349). -/
def State.flashPiece (s : State) (p : Program) (j : Job) (step : Nat) : Option Bytes :=
  let held := (s.com.store.slots.filter (fun x => s.slotLive x && x.step == step)).map FlashSlot.piece
  (held.find? (pieceFits p j.seed step j.moduleId)).or held.head?
/-- The four sources in order (R349): the copy in place, the partner's half, the local flash slot, the shared store. stamp names the free
values. -/
def State.sources (s : State) (hi : Fin 4) (p : Program) (j : Job) (step stamp : Nat) (retained : Bool) : List Source :=
  let h := s.heat hi
  let own := if !retained then Source.absent
    else match h.ck.digests.lookup step with
    | none => .absent
    | some d => if h.ck.saved ≠ (j.seed, j.moduleId) then .foreign else if !ckptPoisoned p h.poison step && sha256 (ckptPayload p h.mem true step) == d then .inPlace else .bad
  [own, pieceSource p j.seed step j.moduleId (Config.partnerPiece stamp) (fun bs => widenBaton p.ckpts bs (Config.partnerHigh stamp)),
   pieceSource p j.seed step j.moduleId (s.flashPiece p j step) id,
   pieceSource p j.seed step j.moduleId (if j.storeStride = 0 then none else Config.storePiece stamp) id]
/-- The first source that gives the step; without one E_CHECK where a copy failed its digest, else E_CONFIG (R348, R349). -/
def chooseSource (xs : List Source) : Except Nat Source :=
  match xs.find? (fun x => match x with
    | .inPlace | .payload _ => true
    | _ => false) with
  | some x => .ok x
  | none => .error (if xs.contains .bad then eCheck else eConfig)

end Sys2Proof.Machine
end

