-- ==== Sys2Proof/Machine/Admit.lean ====
section
/-! DEFINITION. A heat's life: freeing it (R395, R399, R400), admission (R30, R31, R202, R208, R259, R396 to R398, R432), the chunks of an
image (R396) and the loading of one that passes validation (R37, R38, R48, R138, R308). -/
namespace Sys2Proof.Machine

/-! Back to FREE. -/

/-- A cluster loses what a heat gave it: queues, control core, memories stay to be cleared by the next admission (R208, R400). -/
def Cluster.release (k : Cluster) : Cluster :=
  { k with queues := Vector.replicate 4 [], core := Core.reset, halted := none, frozen := false, folded := false, firstRestart := none
           lastDone := Vector.replicate 4 none }
/-- The heat's traffic leaves a port. A flit already numbered stays in the replay buffer without its block, so that the link's numbers stay
whole (R400; DEDUCED, log 11). -/
def Port.release (k : Port) : Port :=
  { k with
    helloSent := false, hello := none
    tx := { k.tx with
      q := k.tx.q.map (fun l => l.filter (fun f => hdrType f.hdr = 3)), raws := []
      replay := k.tx.replay.map (fun e => { e with flit := { e.flit with blk := none } }) }
    rx := { k.rx with asm := [], held := [] } }
/-- A heat returns to FREE: its clusters stop, its traffic is withdrawn, a START that still waits is answered first with E_CONFIG (R395, R399,
R400). -/
def State.freeHeat (s : State) (hi : Fin 4) : State :=
  let h := s.heat hi
  let s := match h.job.bind Job.startReq with
    | some (conn, seq) => s.fillReply conn seq eConfig []
    | none => s
  let s := h.clusterList.foldl (fun s c => s.modCl c Cluster.release) s
  let s := h.portList.foldl (fun s p => s.modPort p Port.release) s
  let s := if s.frozenHeat hi then s.modStore (fun k => { k with dumping := none }) else s
  let s := { s with com := { s.com with chans := s.com.chans.mapIdx (fun (n : Nat) (k : MemChan) =>
    if h.positionList.contains (n / s.positionChans) then { k with moving := false } else k) } }
  (s.setHeat hi Heat.reset).noteOrphan

/-! The admission record (R396). -/

/-- cluster_blocks, position_blocks, port_blocks. -/
def admBlocks (a : Nat) : Nat × Nat × Nat := (fld a 3 0, fld a 7 4, fld a 11 8)
/-- Every field of the record lies in its range (R11, R396). -/
def admOk (a : Nat) : Bool :=
  rsv a 15 12 && 1 ≤ fld a 19 16 && fld a 19 16 ≤ 8 && 1 ≤ fld a 23 20 && fld a 23 20 ≤ 8
    && 16 ≤ fld a 32 24 && fld a 32 24 ≤ 256 && fld a 32 24 % 16 == 0 && fld a 34 33 ≤ 2 && 1 ≤ fld a 37 35 && fld a 37 35 ≤ 4
    && rsv a 39 38 && 1 ≤ fld a 46 40 && fld a 46 40 ≤ 64 && rsv a 47 47 && fld a 54 48 ≤ 64
    && 1 ≤ fld a 62 56 && fld a 62 56 ≤ 64 && rsv a 63 63 && 1 ≤ fld a 70 64 && fld a 70 64 ≤ 64 && rsv a 71 71
    && fld a 74 72 ≤ 6 && fld a 77 75 ≤ 6 && (fld a 82 78 ≤ 16 || fld a 82 78 == 31) && rsv a 511 83
/-- The heats that are admitted, one of them left out. -/
def State.otherHeats (s : State) (hi : Fin 4) : List Heat :=
  ((List.finRange 4).filter (fun k => k != hi && (s.heat k).phase != .free)).map s.heat
/-- The layout strap permits the blocks (R432). -/
def layoutOk (layout : Nat) (others : Nat) (b : Nat × Nat × Nat) : Bool :=
  match layout with
  | 3 => true
  | 1 => others ≤ 1 && ([b.1, b.2.1, b.2.2].all (· / 4 == 0) || [b.1, b.2.1, b.2.2].all (· % 4 == 0))
  | _ => others == 0 && b == (15, 15, 15)
/-- scratch ways s_h of a record (R20). -/
def State.waysOf (s : State) (a : Nat) : Nat := if fld a 82 78 = 31 then s.com.boot.setting 12 8 else fld a 82 78
/-- Step 1, first half: reserved fields, ownership, masks, layout, ways; the single heat that owns every block is heat 0 (R20, R30, R397,
R432). -/
def State.blocksOk (s : State) (hi : Fin 4) (a : Nat) : Bool :=
  let b := admBlocks a
  let others := s.otherHeats hi
  admOk a && b.1 != 0 && b.2.1 != 0
    && others.all (fun h => h.blocks.1 &&& b.1 == 0 && h.blocks.2.1 &&& b.2.1 == 0 && h.blocks.2.2 &&& b.2.2 == 0)
    && (b != (15, 15, 15) || hi == 0) && layoutOk ((s.com.boot.straps.map Straps.heatLayout).getD 0) others.length b && s.waysOf a ≤ 4 * popcount 4 b.1
/-- The memory channels of a position, numbered as in R409. -/
def State.chansOf (s : State) (pos : Nat) : List Nat := (List.range s.positionChans).map (fun c => pos * s.positionChans + c)
/-- The channel at a number is retired. -/
def State.chanRetired (s : State) (c : Nat) : Bool := (s.com.chans.toList.map MemChan.retired).getD c false
/-- The channel at a number is declared permanently faulty, its retirement refused (R202). -/
def State.chanFailed (s : State) (c : Nat) : Bool := (s.com.chans.toList.map MemChan.failed).getD c false
/-- The retired channels of the positions of a heat (R202). -/
def State.deadChans (s : State) (h : Heat) : List Nat := (h.positionList.flatMap s.chansOf).filter s.chanRetired
/-- The failed channels of the positions of a heat: the retired ones and those whose retirement was refused (R202). -/
def State.failedChans (s : State) (h : Heat) : List Nat :=
  (h.positionList.flatMap s.chansOf).filter (fun c => s.chanRetired c || s.chanFailed c)
/-- Channels of a heat, N of R202. -/
def State.chanCount (s : State) (h : Heat) : Nat := h.positionList.length * s.positionChans
/-- Step 1, second half: the reserve of R202, and no pair of clusters lost. -/
def State.unitsLive (s : State) (h : Heat) : Bool :=
  decide ((s.failedChans h).length ≤ s.chanCount h * s.reserve / 48)
    && (List.finRange 64).all (fun c => !(bitAt h.blocks.1 (c.val / 16)) || c.val % 2 == 1
      || !((s.cl c).retired && ((s.clusters.toList.map Cluster.retired).getD (c.val + 1) false)))

/-! Media units (R311, R397). -/

/-- A media unit is live. -/
def State.mediaLive (s : State) (u : Nat) : Bool := !((s.com.media.toList.map MediaUnit.retired).getD u true)
/-- The live units of a range of numbers. -/
def State.liveUnits (s : State) (lo n : Nat) : List Nat := ((List.range n).map (fun i => lo + i)).filter s.mediaLive
/-- Step 2: the sums of the shares (R397). -/
def State.sharesFit (s : State) (hi : Fin 4) (a : Nat) : Bool :=
  let adms := a :: (s.otherHeats hi).map Heat.adm
  let sum := fun (f : Nat → Nat) => (adms.map f).sum
  sum (fun x => fld x 19 16) ≤ (s.liveUnits 0 8).length && sum (fun x => fld x 23 20) ≤ (s.liveUnits 8 8).length
    && sum (fun x => fld x 32 24) ≤ 64 * (s.liveUnits 16 4).length && sum (fun x => fld x 34 33) ≤ (s.liveUnits 20 2).length
    && sum (fun x => fld x 37 35) ≤ 4 && sum (fun x => fld x 46 40) ≤ 64 && sum (fun x => fld x 54 48) ≤ 64
/-- Step 3: the lowest-numbered live units no other heat has, one entry an audio context. -/
def State.allot (s : State) (hi : Fin 4) (a : Nat) : List Nat :=
  let taken := (s.otherHeats hi).flatMap Heat.media
  let whole := fun (lo n k : Nat) => ((s.liveUnits lo n).filter (fun u => !taken.contains u)).take k
  let ctxs := (s.liveUnits 16 4).flatMap (fun u => List.replicate (64 - taken.count u) u)
  whole 0 8 (fld a 19 16) ++ whole 8 8 (fld a 23 20) ++ ctxs.take (fld a 32 24) ++ whole 20 2 (fld a 34 33)
/-- Depth of a token bucket, one token a byte, in 30,000ths of a token (R198, R396). -/
def bucketDepth (v : Nat) : Nat := 16384 * 2 ^ v * 30000
/-- The hurdle unit a heat takes (R259). -/
def hurdleUnit (others : List Heat) (ports : Nat) : Nat :=
  ((List.range 4).find? (fun u => if ports = 0 then !(others.any (fun h => h.unit == u)) else bitAt ports u)).getD 0

/-! Admission (R397). -/

/-- A cluster as admission leaves it: everything a job reads is zero (R208). -/
def Cluster.clear (k : Cluster) : Cluster :=
  { k.release with store := [], fnTab := [], imem := [], dmem := [], acc := ⟨[], none⟩, rowBuf := .cleared }
/-- Folds of clusters already retired: (retired, survivor) (R397). -/
def State.standingFolds (s : State) (h : Heat) : List (Nat × Nat) := s.dueFolds { h with folds := [] }
/-- Mark both clusters of every fold in effect. -/
def State.markFolds (s : State) (hi : Fin 4) : State :=
  let h := s.heat hi
  (h.folds.flatMap (fun f => [f.1, f.2])).foldl (fun s l => match h.clusterList[l]? with
    | some c => s.modCl c (fun k => { k with folded := true })
    | none => s) s
/-- A channel whose retirement an earlier heat's limit refused is retired as a heat that may lose it takes it over (R202; DEDUCED, log 124). -/
def State.retireFailed (s : State) (c : Fin 96) (hi : Fin 4) : State :=
  if (s.com.chans[c]).failed then
    (s.modChan c (fun k => { k with failed := false, retired := true, up := false })).noteRetired 3 c.val hi.val
  else s
/-- Admission of a heat for a record: the status that refuses it, or the module with the heat in LOADING. -/
def State.admitHeat (s : State) (hi : Fin 4) (a : Nat) : Except Nat State := do
  demand (s.blocksOk hi a) eConfig
  let h := { Heat.reset with phase := .loading, adm := a, blocks := admBlocks a, ways := s.waysOf a }
  demand (s.unitsLive h) eRetired
  demand (s.sharesFit hi a) eLimit
  let h := { h with media := s.allot hi a, unit := hurdleUnit (s.otherHeats hi) (admBlocks a).2.2, retired := s.failedChans h
                    folds := s.standingFolds h }
  let depth := (bucketDepth (fld a 74 72), bucketDepth (fld a 77 75))
  let s := h.clusterList.foldl (fun s c => s.modCl c Cluster.clear) ((s.setHeat hi h).dropCache hi)
  let mine := h.positionList.flatMap s.chansOf
  let s := mine.foldl (fun (s : State) n => match (List.finRange 96)[n]? with
    | some c => (s.modChan c (fun k => { k with service := (depth.1, s.now), repair := (depth.2, s.now) })).retireFailed c hi
    | none => s) s
  .ok (h.folds.foldl (fun (s : State) f => s.reportFold hi f) (s.markFolds hi))

/-! Loading (R37, R38, R48, R138, R308). -/

/-- Command streams and fold streams go to the addresses PLACEMENT gives (R37, R48). -/
def Program.putStreams (p : Program) (m : Mem) : Mem :=
  (List.range p.clusterCount).foldl (fun m c =>
    (m.put (p.streamAddr false c) (p.sec 0x01 c)).put (p.streamAddr true c) (p.stream true c)) m
/-- The function tables and the control program of every cluster, the fold program of one that works alone (R48, R138, R335). -/
def State.loadClusters (s : State) (hi : Fin 4) (p : Program) : State :=
  let h := s.heat hi
  (h.clusterList.mapIdx (fun l c => (l, c))).foldl (fun s lc => s.modCl lc.2 (fun k => { k with
    fnTab := Mem.put [] 0 (p.sec 0x0A lc.1), imem := Mem.put [] 0 (p.ctrl (h.alone lc.1) lc.1) })) s
/-- An image that passed validation loads in full (R38). -/
def State.loadAll (s : State) (hi : Fin 4) (p : Program) : State :=
  let s := s.modHeat hi (fun h => { h with
    phase := .loaded, image := some p, chunks := [], mem := p.putStreams h.mem, tok := Mem.put [] 0 (p.sec 0x0C wide) })
  s.loadClusters hi p

/-! Chunks (R396). -/

/-- A chunk at an offset may follow what the heat holds: offset 0 admits a FREE heat for the record, any other goes on where the last chunk
ended (R396). -/
def State.chunkStart (s : State) (hi : Fin 4) (off record : Nat) : Except Nat State :=
  match (s.heat hi).phase, off with
  | .free, 0 => s.admitHeat hi record
  | .free, _ => .error eConfig
  | _, _ => if off = (s.heat hi).chunks.length ∧ off ≠ 0 then .ok s else .error eConfig
/-- One LOAD_IMAGE chunk: the module after it, the status, and the 12 bytes a last chunk's reply adds. -/
def State.loadChunk (s : State) (hi : Fin 4) (last : Bool) (body : Bytes) : State × Nat × Bytes :=
  let off := leAt body 0 8
  let refuse := fun (s : State) (st : Nat) (sec at_ : Nat) =>
    (s.freeHeat hi, st, if last then natLE 4 sec ++ natLE 8 at_ else [])
  let data := body.drop (if off = 0 then 80 else 16)
  if body.length < (if off = 0 then 80 else 16) ∨ mib < data.length ∨ leAt body 8 8 ≠ 0 then
    (if (s.heat hi).phase = .loading then refuse s eConfig noSection 0 else (s, eConfig, if last then natLE 4 noSection ++ natLE 8 0 else []))
  else
    match s.chunkStart hi off (leAt body 16 64) with
    | .error st => refuse s st noSection 0
    | .ok s =>
      let img := (s.heat hi).chunks ++ data
      let s := s.modHeat hi (fun h => { h with chunks := img })
      if !last then (s, 0, [])
      else match s.validate (s.heat hi) img with
        | some (st, sec, at_) => refuse s st sec at_
        | none => (s.loadAll hi (parseImage img), 0, natLE 4 noSection ++ natLE 8 0)

end Sys2Proof.Machine
end

