-- ==== Sys2Proof/Machine/Fabric.lean ====
section
/-! DEFINITION. The fabric ports: lanes and their training (R215 to R217, R225 to R227), replay (R224), control messages (R220, R226, R229,
R248 to R250), the receipt of routed flits (R229, R232, R233, R243, R249), landing (R238, R239, R342) and acknowledgements (R238). -/
namespace Sys2Proof.Machine

/-! Lanes. -/

/-- Change a lane of a port. -/
def Port.modLane (k : Port) (l : Nat) (f : Lane → Lane) : Port :=
  { k with lanes := k.lanes.setIfInBounds l (f (k.lanes.toList.getD l Lane.reset)) }
/-- A lane of a port. -/
def Port.lane (k : Port) (l : Nat) : Lane := k.lanes.toList.getD l Lane.reset
/-- Some lane of the port is trained and not retired. -/
def Port.anyLane (k : Port) : Bool := k.lanes.toList.any (fun l => l.up && !l.retired)
/-- Number of the heat that owns a port, 0xFF for none. -/
def State.heatNo (s : State) (p : Fin 32) : Nat := ((s.heatOfPort p).map (fun x => x.1.val)).getD 0xFF
/-- A lane leaves a port for good on this side: out of the mask, reported and recorded (R226, R331). -/
def State.dropLane (s : State) (p : Fin 32) (l : Nat) : State :=
  let k := s.port p
  if (k.lane l).retired || s.clockLost then s
  else
    let k := k.modLane l (fun x => { x with retired := true, up := false, lock := false })
    let k := { k with tx := { k.tx.endFrame with mask := if bitAt k.tx.mask l then k.tx.mask - 2 ^ l else k.tx.mask } }
    (s.setPort p k).noteRetired 1 (8 * p.val + l) (s.heatNo p)
/-- Every lane of a port is retired. -/
def Port.spent (k : Port) : Bool := k.lanes.toList.all Lane.retired
/-- The mask of the lanes a port has not retired (R226; DEDUCED, log 140). -/
def Port.keptMask (k : Port) : Nat := (List.range 8).foldl (fun m l => if (k.lane l).retired then m else m + 2 ^ l) 0
/-- A port with no lane up has lost its link (R227). -/
def State.checkLink (s : State) (p : Fin 32) : State :=
  let k := s.port p
  if k.retired || k.anyLane || k.downSince.isSome then s else s.setPort p { k with downSince := some s.now }
/-- A port whose last lane is retired retires, and one whose last trained lane is has lost its link (R227). -/
def State.afterDrop (s : State) (p : Fin 32) : State := if (s.port p).spent then s.retirePort p else s.checkLink p
/-- This end declares a lane faulty: LANE_RETIRE on the lanes that remain, or the port retires with its last (R226, R227). -/
def State.declareLane (s : State) (p : Fin 32) (l : Nat) : State :=
  if (((s.port p).lane l).retired : Bool) then s
  else
    let s := (s.dropLane p l).afterDrop p
    if (s.port p).retired then s else s.linkCtl p [5, BitVec.ofNat 8 (s.port p).keptMask]
/-- The partner keeps the lanes of a mask: every other lane retires here too, trained or not (R226). -/
def State.keepLanes (s : State) (p : Fin 32) (mask : Nat) : State :=
  let gone := (List.range 8).filter (fun l => !bitAt mask l)
  (gone.foldl (fun (s : State) l => s.dropLane p l) s).afterDrop p
/-- A lane has failed auto-negotiation or training: at start-up three failures in succession retire it (R216), and one does where its port
retrains all its lanes for a flit that failed on different lanes (R225). -/
def State.failTraining (s : State) (p : Fin 32) (l : Nat) : State :=
  let s := s.modPort p (fun k => k.modLane l (fun x => { x with up := false, lock := false, good := 0, attempts := x.attempts + 1 }))
  let k := s.port p
  if (3 ≤ (k.lane l).attempts ∧ !s.com.boot.readySent) ∨ (k.lane l).retrain then s.declareLane p l
  else s.checkLink p
/-- Retrain every lane of a port that is not retired (R225). -/
def State.retrainPort (s : State) (p : Fin 32) : State :=
  (s.modPort p (fun k => { k with
    retrained := true
    lanes := k.lanes.map (fun (x : Lane) => { x with up := false, lock := false, good := 0, bad := 0, count := none, retrain := !x.retired }) })).checkLink p
/-- The credits of a link-up: the receiver's buffer for each virtual channel (R222, R223), once ROUTES gives the shares. -/
def State.fullCredits (s : State) (p : Fin 32) : Vector Nat 4 :=
  match s.heatOfPort p with
  | some (hi, _) =>
    if (s.heat hi).job.isSome then (match (s.heat hi).image with
      | some i => #v[i.vcFlits 0, i.vcFlits 1, i.vcFlits 2, 32]
      | none => #v[0, 0, 0, 32]) else #v[0, 0, 0, 32]
  | none => #v[0, 0, 0, 32]
/-- The link comes up: full credits, which the flits of the replay buffer spend as they are sent again (R223; DEDUCED, log 139), every table
slot empty, and each unacknowledged coded block sent again RAW (R248). -/
def State.linkUp (s : State) (p : Fin 32) : State :=
  let k := s.port p
  let again := k.tx.raws.filter (fun r => r.gen.isSome)
  let s := s.setPort p { k with
    downSince := none
    tx := { k.tx with credits := s.fullCredits p, tables := Vector.replicate 4 none, tableOut := none,
                      replay := k.tx.replay.map (fun e => { e with paid := false }), raws := k.tx.raws.filter (fun r => r.gen.isNone) }
    rx := { k.rx with owed := Vector.replicate 4 0, tables := Vector.replicate 4 none, pend := [], asm := k.rx.asm } }
  again.foldl (fun s r => s.resendBlock p r r.fails) s

/-- One attempt to train a lane ends (R215, R216, R225, R227). -/
def execLaneTraining (p : Fin 32) (lane : Fin 8) (ok : Bool) (s : State) : Result :=
  let k := s.port p
  let l := k.lanes[lane]
  if k.retired || l.retired || l.up || !s.com.boot.flashRead then .next s
  else
    let s := s.bump 4 (8 * p.val + lane.val) 3
    if ok then
      let first := !k.anyLane
      let s := s.modPort p (fun k =>
        let k := k.modLane lane.val (fun x => { x with
          up := true, attempts := 0, lock := false, good := 0, bad := 0, count := none, retrain := false })
        { k with tx := { k.tx.endFrame with mask := if bitAt k.tx.mask lane.val then k.tx.mask else k.tx.mask + 2 ^ lane.val } })
      .next ((if first then s.linkUp p else s).pump p)
    else .next (s.failTraining p lane.val)

/-- A frame header has the marker and a right header_check (R217). -/
def frameGood (hdr : Bytes) : Bool :=
  hdr.take 64 == (List.range 64).map markerByte && leAt hdr 72 4 == crc32c (bytesAt hdr 64 8)
/-- What RS(544,514) made of the 16 codewords of a lane frame: for each the symbols it corrected, of which it can correct 15, or none where the
codeword is uncorrectable (R215, R217, R409). -/
def State.countFec (s : State) (p : Fin 32) (lane : Fin 8) (fec : Vector (Option (Fin 16)) 16) : State :=
  (s.bump 4 (8 * p.val + lane.val) 0 (fec.toList.map (fun x => (x.map Fin.val).getD 0)).sum).bump 4 (8 * p.val + lane.val) 1
    (fec.toList.countP Option.isNone)
/-- The start of a lane frame on a lane, its codewords decoded (R215, R217). A lane that drops lock is down and has to train again (R227; DEDUCED, log 141). -/
def execLaneFrame (p : Fin 32) (lane : Fin 8) (hdr : Bytes) (fec : Vector (Option (Fin 16)) 16) (s : State) : Result :=
  if hdr.length = 200 then
    let k := s.port p
    let l := k.lanes[lane]
    if k.retired || l.retired || !l.up then .next s
    else
    let s := s.countFec p lane fec
    if frameGood hdr then
      let no := leAt hdr 64 1
      let mask := leAt hdr 66 1
      let count := leAt hdr 68 4
      let differs := k.lanes.toList.any (fun o => o.up && o.count == some count && o.mask != mask)
      if no ≠ lane.val ∨ differs then .next (s.failTraining p lane.val)
      else .next (s.setPort p (k.modLane lane.val (fun x => { x with
        good := min 3 (x.good + 1), bad := 0, lock := x.lock || 2 ≤ x.good, count := some count, mask := mask })))
    else
      let drops := l.lock && 2 ≤ l.bad
      .next ((s.setPort p (k.modLane lane.val (fun x => { x with
        good := 0, bad := min 3 (x.bad + 1), lock := x.lock && !drops, up := !drops }))).checkLink p)
  else .fault .illFormed

/-- A link is down for 1 s and no lane of it has come up: the port retires (R227). -/
def execPortRetrainTimeout (p : Fin 32) (s : State) : Result :=
  let k := s.port p
  match k.downSince with
  | some t => if k.retired || k.anyLane then .next s else .next ((s.reach (t + second)).retirePort p)
  | none => .next s

/-! Replay (R224, R225). -/

/-- A flit of the replay buffer may be sent again: it has spent its credit since the link came up, or spends one now (R223). -/
def Tx.pays (t : Tx) (e : Sent) : Bool := e.paid || 0 < t.credits.toList.getD (hdrVc e.flit.hdr) 0
/-- Send the sequenced flits from place i of the replay buffer again, in order, as far as credits allow; fuel bounds their number. -/
def State.resendN (p : Fin 32) : Nat → Nat → State → State
  | 0, _, s => s
  | n + 1, i, s =>
    let k := s.port p
    match k.tx.replay[i]? with
    | none => s
    | some e =>
      if k.canSend && k.tx.pays e then
        let v := hdrVc e.flit.hdr
        let (k, lane, bytes) := k.place e.flit e.seq
        let k := { k with tx := { k.tx with
          replay := k.tx.replay.set i { e with lane := lane, paid := true }
          credits := if e.paid then k.tx.credits else k.tx.credits.setIfInBounds v (k.tx.credits.toList.getD v 0 - 1) } }
        State.resendN p n (i + 1) (s.sendSlot p (k, lane, bytes))
      else s
/-- One retry charged to the lane that carried the failing flit (R225; DEDUCED, log 16), and what follows from it; none is charged while the
reference clock is lost (R429). -/
def State.chargeLane (s : State) (p : Fin 32) (i : Nat) : State :=
  match (s.port p).tx.replay[i]? with
  | none => s
  | some e =>
    if s.clockLost then s.bump 3 p.val 4 else
    let fails := e.fails ++ [e.lane]
    let s := (((s.bump 3 p.val 4).bump 4 (8 * p.val + e.lane) 2).lifeCount 22).transient
    let s := s.modPort p (fun k =>
      let k := k.modLane e.lane (fun x => { x with retries := chargeAt s.now x.retries })
      { k with tx := { k.tx with replay := k.tx.replay.set i { e with fails := fails } } })
    let k := s.port p
    if overCharged (k.lane e.lane).retries || 3 ≤ (fails.filter (· == e.lane)).length then s.declareLane p e.lane
    else if 3 ≤ fails.length && !k.retrained then s.retrainPort p
    else s
/-- Resend from a place of the replay buffer. -/
def State.replayFrom (s : State) (p : Fin 32) (i : Nat) : State :=
  let s := s.chargeLane p i
  let s := s.modPort p (fun k => { k with tx := { k.tx with ackAt := s.now } })
  State.resendN p (s.port p).tx.replay.length i s

/-- A REPLAY names the sequence number to resend from (R220, R224). -/
def execReplay (f : FlitRx) (s : State) : Result :=
  if f.bytes.length = 280 then
    if crcGood f.bytes && hdrType (leAt f.bytes 0 16) != 2 then .next s
    else
      let (s, v) := s.linkRx f
      match v with
      | .loose _ pay => match (s.port f.port).tx.replay.findIdx? (fun e => e.seq == leAt pay 0 2 % 4096) with
        | some i => .next (s.replayFrom f.port i)
        | none => .next s
      | _ => .next s
  else .fault .illFormed
/-- ack has not advanced for 2 us while flits are outstanding: resend from the oldest (R224). -/
def execReplayTimeout (p : Fin 32) (s : State) : Result :=
  let k := s.port p
  if k.tx.replay.isEmpty || !k.canSend then .next s
  else .next ((s.reach (k.tx.ackAt + 2 * micro)).replayFrom p 0)
/-- An IDLE flit carries trailer fields only (R220). -/
def execIdle (f : FlitRx) (s : State) : Result := s.withFlit f (fun hdr _ => hdrType hdr == 1) (fun s _ _ _ => s)

/-! Sub-streams (R249, R250). -/

/-- Discard a block: BLOCK_NACK names its sub-stream and first flit; the acknowledgement of its last flit, where it has come, follows it
(R249). -/
def State.nackBlock (s : State) (p : Fin 32) (sub first : Nat) (last : Option Nat) : State :=
  (s.modPort p (fun k => { k with rx := { k.rx with nacks := k.rx.nacks ++ [last] } })).linkCtl p
    ([4, BitVec.ofNat 8 sub] ++ natLE 2 first)
/-- The flits of a block that wait for a slot are taken out of their queue. -/
def Tx.unqueue (t : Tx) (id : Nat) : Tx := { t with q := t.q.map (fun fs => fs.filter (fun f => f.blk != some id)) }
/-- A block that was being forwarded cut-through goes no further there (R233). -/
def State.dropForward (s : State) (a : Asm) : State :=
  match a.fwd with
  | none => s
  | some (q, id) => s.modPort (Fin.ofNat 32 q) (fun k => { k with tx := { k.tx.unqueue id with
      raws := k.tx.raws.filter (fun r => r.id != id) } })
/-- A block no flit of which has left moves to the next active sub-stream (R247, R250). -/
def Tx.moveBlock (t : Tx) (id : Nat) : Tx :=
  let sub := t.subNext
  { t with
    nextSub := sub + 1
    raws := t.raws.map (fun r => if r.id = id then { r with sub := sub } else r)
    q := t.q.map (fun fs => fs.map (fun f => if f.blk = some id then { f with hdr := setFld f.hdr 35 32 sub } else f)) }
/-- A port still assembles a block that goes out cut-through as block id of port q. -/
def Port.forwards (k : Port) (q id : Nat) : Bool := k.rx.asm.any (fun a => a.fwd == some (q, id))
/-- Traffic of retired sub-streams moves to the others (R250; DEDUCED, log 143): a block that has not begun moves whole; of one that has
begun nothing more is sent, and its BLOCK_NACK sends it again, except that a block still arriving cut-through is sent again by this module
once it is whole. -/
def State.moveTraffic (s : State) (p : Fin 32) (gone : List Nat) : State :=
  let hit := (s.port p).tx.raws.filter (fun r => gone.contains r.sub && r.last.isNone)
  hit.foldl (fun (s : State) r =>
    if r.first.isNone then s.modPort p (fun k => { k with tx := k.tx.moveBlock r.id })
    else
      let arriving := (List.finRange 32).filter (fun q => (s.port q).forwards p.val r.id)
      let s := s.modPort p (fun k => { k with tx := { k.tx.unqueue r.id with
        raws := if arriving.isEmpty then k.tx.raws else k.tx.raws.filter (fun x => x.id != r.id) } })
      arriving.foldl (fun (s : State) q => s.modPort q (fun k => { k with rx := { k.rx with
        asm := k.rx.asm.map (fun a => if a.fwd = some (p.val, r.id) then { a with fwd := none } else a) } })) s) s
/-- A sub-stream leaves the rotation, its queued blocks are discarded with BLOCK_NACK, and the retirement is seen; the port retires with its
last (R250). Both directions of the sub-stream go together (DESIGN CHOICE, log 17). -/
def State.dropSubs (s : State) (p : Fin 32) (mask : Nat) : State :=
  let k := s.port p
  let gone := (List.range 16).filter (fun i => bitAt k.rx.subMask i && !bitAt mask i)
  let left := (List.range 16).foldl (fun a i => if bitAt k.rx.subMask i && bitAt mask i then a + 2 ^ i else a) 0
  let lost := k.rx.asm.filter (fun a => gone.contains a.sub)
  let s := s.setPort p { k with
    tx := { k.tx with subMask := left }
    rx := { k.rx with subMask := left, asm := k.rx.asm.filter (fun a => !gone.contains a.sub) } }
  let s := lost.foldl (fun s a => (s.dropForward a).nackBlock p a.sub a.first none) (s.moveTraffic p gone)
  let s := gone.foldl (fun s i => s.noteRetired 4 (16 * p.val + i) (s.heatNo p)) s
  if left = 0 then s.retirePort p else s
/-- This end declares a sub-stream faulty (R250). -/
def State.declareSub (s : State) (p : Fin 32) (sub : Nat) : State :=
  let m := (s.port p).rx.subMask
  if bitAt m sub then s.linkCtl p ([7, 0] ++ natLE 2 (m - 2 ^ sub)) else s
/-- A block whose last flit has the sequence number last has failed at the receiver: counted, charged to the sub-stream, and discarded (R249,
R250). -/
def State.rejectBlock (s : State) (p : Fin 32) (a : Asm) (last status : Nat) : State :=
  let s := ((s.bump 3 p.val (if status = eExpand then 5 else 6)).transient).modPort p (fun k => { k with rx := { k.rx with
    subRetries := k.rx.subRetries.filter (fun e => s.now < e.2 + second) ++ [(a.sub, s.now)] } })
  let s := s.nackBlock p a.sub a.first (some last)
  if 16 < ((s.port p).rx.subRetries.filter (fun e => e.1 == a.sub)).length then s.declareSub p a.sub else s

/-! Routed flits. -/

/-- A heat's port processes its routed flits from START on (R229); between a STOP and the next START it holds those of the new start
hurdle (DEDUCED, log 18). -/
def Heat.holdsFlit (h : Heat) (hdr : Nat) (pay : Bytes) : Bool :=
  match h.phase with
  | .running => false
  | .stopped => hdrType hdr == 3 || (hdrType hdr == 5 && hdrDest hdr == h.ownId && (parseHMsg pay).count == 0)
  | _ => true
/-- A flit stays in the receive buffer, its credit with it; blk keeps its sequence number (R229). -/
def State.holdFlit (s : State) (p : Fin 32) (hdr : Nat) (pay : Bytes) (seq : Nat) : State :=
  s.modPort p (fun k => { k with rx := { k.rx with held := k.rx.held ++ [⟨hdr, pay, some seq⟩] } })
/-- A block starts at a transit module: the port it leaves by, or none where its destination cannot be reached (R232, R233). A RAW or ZERO
block is forwarded as it comes. -/
def State.transitStart (s : State) (hi : Fin 4) (p : Fin 32) (i : Program) (hdr : Nat) (pay : Bytes) (seq : Nat) : State :=
  match s.routeFlit (s.heat hi) i (hdrDest hdr) (some (hdrOff hdr)) with
  | none => s.bump 3 p.val 8
  | some (q, vc) =>
    let coding := fld (leAt pay 0 8) 1 0
    if coding = 1 ∨ coding = 2 then
      s.modPort p (fun k => { k with rx := { k.rx with asm := k.rx.asm ++ [⟨hdrSub hdr, seq, hdr, [], none⟩] } })
    else
      let k := s.port q
      let id := k.tx.nextBlk
      let sub := k.tx.subNext
      let base := setFld (setFld (setFld (nextHop hdr vc) 44 36 0) 5 5 0) 6 6 0
      let copy : RawCopy := ⟨id, base, [], fld (leAt pay 0 8) 63 32, sub, none, none, none, []⟩
      let s := s.setPort q { k with tx := { k.tx with nextBlk := id + 1, nextSub := sub + 1, raws := k.tx.raws ++ [copy] } }
      s.modPort p (fun k => { k with rx := { k.rx with asm := k.rx.asm ++ [⟨hdrSub hdr, seq, hdr, [], some (q.val, id)⟩] } })
/-- The raw bytes a framed RAW or ZERO block carries (R243). -/
def rawOfFrame (bs : Bytes) : Bytes :=
  if fld (leAt bs 0 8) 1 0 = 3 then List.replicate (32 * (fld (leAt bs 0 8) 10 4 + 1)) 0 else bs.drop 8
/-- One flit of a block forwarded cut-through leaves (R233): sub, vc and hops are rewritten. -/
def State.forwardFlit (s : State) (q : Fin 32) (id hdr : Nat) (pay : Bytes) (framed : Bytes) : State :=
  match (s.port q).tx.raws.find? (fun r => r.id == id) with
  | none => s
  | some r =>
    let vc := hdrVc r.hdr
    let out := setFld (nextHop hdr vc) 35 32 r.sub
    let s := s.modPort q (fun k =>
      { (k.queue (vcFin vc) [⟨out, pay, some id⟩]) with tx := { (k.queue (vcFin vc) [⟨out, pay, some id⟩]).tx with
        raws := k.tx.raws.map (fun x => if x.id = id then { x with raw := rawOfFrame framed } else x) } })
    let s := (s.bump 3 q.val 3 pay.length).bump 3 q.val 2 (if bitAt hdr 6 then (rawOfFrame framed).length else 0)
    s.pump q
/-- A block is whole with the flit of sequence number last: ejected, or decoded and given to its next link, or discarded (R233, R238,
R249). -/
def State.blockDone (s : State) (hi : Fin 4) (p : Fin 32) (i : Program) (a : Asm) (last : Nat) : State :=
  let h := s.heat hi
  let own := hdrDest a.hdr == h.ownId
  if a.fwd.isSome then s
  else match decodeFramed (s.port p).rx.tables.toList a.bytes with
  | .error st => s.rejectBlock p a last st
  | .ok (raw, coding) =>
    if own then
      s.modHeat hi (fun h => { h with ejected := h.ejected ++ [⟨p.val, hdrSrc a.hdr, fld a.hdr 56 45, bitAt a.hdr 59, fld a.hdr 88 88,
        hdrEpoch a.hdr, hdrOff a.hdr, raw⟩] })
    else match s.routeFlit h i (hdrDest a.hdr) (some (hdrOff a.hdr)) with
      | none => s.bump 3 p.val 8
      | some (q, vc) =>
        s.sendBlock q (setFld (setFld (setFld (nextHop a.hdr vc) 44 36 0) 5 5 0) 6 6 0) raw (fld (leAt a.bytes 0 8) 63 32) coding
/-- A DATA flit of a running heat (R232, R233, R243). A flit that continues no block is dropped. -/
def State.dataIn (s : State) (hi : Fin 4) (p : Fin 32) (i : Program) (hdr : Nat) (pay : Bytes) (seq : Nat) : State :=
  let s := s.freeBuffer p hdr
  let sub := hdrSub hdr
  let own := hdrDest hdr == (s.heat hi).ownId
  if !own && fld hdr 87 82 == 63 then s.bump 3 p.val 9
  else
    let s := if bitAt hdr 5 then
        let s := ((s.port p).rx.asm.filter (fun a => a.sub == sub)).foldl State.dropForward s
        let s := s.modPort p (fun k => { k with rx := { k.rx with asm := k.rx.asm.filter (fun a => a.sub != sub) } })
        if own then s.modPort p (fun k => { k with rx := { k.rx with asm := k.rx.asm ++ [⟨sub, seq, hdr, [], none⟩] } })
        else s.transitStart hi p i hdr pay seq
      else s
    match (s.port p).rx.asm.find? (fun a => a.sub == sub) with
    | none => s
    | some a =>
      let a := { a with bytes := a.bytes ++ pay.take (hdrLen hdr) }
      let s := s.modPort p (fun k => { k with rx := { k.rx with
        asm := if bitAt hdr 6 then k.rx.asm.filter (fun b => b.sub != sub) else k.rx.asm.map (fun b => if b.sub = sub then a else b) } })
      let s := match a.fwd with
        | some (q, id) => s.forwardFlit (Fin.ofNat 32 q) id hdr (pay.take (hdrLen hdr)) a.bytes
        | none => s
      if bitAt hdr 6 then s.blockDone hi p i a seq else s
/-- An ACK or HURDLE flit for another module goes on to the port its route gives (R232, R233); one whose destination cannot be reached is
dropped. -/
def State.passOn (s : State) (hi : Fin 4) (p : Fin 32) (i : Program) (hdr : Nat) (pay : Bytes) : State :=
  let s := s.freeBuffer p hdr
  if fld hdr 87 82 = 63 then s.bump 3 p.val 9
  else match s.routeFlit (s.heat hi) i (hdrDest hdr) none with
  | none => s
  | some (q, _) => (s.modPort q (fun k => k.queue 3 [⟨nextHop hdr 3, pay, none⟩])).pump q

/-! Acknowledgements (R238). -/

/-- One acknowledgement entry from a destination: OK counts the block as landed, an error ends its SEND with that status, and E_LATE is
ignored (R238). -/
def State.ackEntry (s : State) (hi : Fin 4) (dest e : Nat) : State :=
  let h := s.heat hi
  let status := fld e 21 14
  match h.sent.find? (fun (b : SentBlock) => b.dest == dest && b.tag == fld e 11 0 && b.epoch == fld e 13 12 && b.off == fld e 43 22) with
  | none => s
  | some b =>
    if status = eLate then s
    else
      let s := s.modHeat hi (fun h => { h with sent := h.sent.erase b })
      let c := Fin.ofNat 64 b.cl
      if status = 0 then s.settleSend c b.ord
      else match s.site c, (s.cl c).queues[qLink] with
        | some x, q :: _ =>
          if q.ord = b.ord ∧ q.phase = .sending then (s.failCommand c qLink x q status).refreshHeld hi else s
        | _, _ => s
/-- The entries of an ACK flit (R238). -/
def State.ackIn (s : State) (hi : Fin 4) (hdr : Nat) (pay : Bytes) : State :=
  (List.range (min 15 (leAt pay 0 1))).foldl (fun (s : State) i => s.ackEntry hi (hdrSrc hdr) (leAt pay (16 + 16 * i) 16)) s
/-- The payload of an ACK flit (R238). -/
def ackPayload (es : List Nat) : Bytes := natLE 16 es.length ++ es.flatMap (natLE 16)
/-- Send the acknowledgements that wait for a destination. -/
def State.flushAck (s : State) (hi : Fin 4) (dest : Nat) : State :=
  match (s.heat hi).acks.find? (fun g => g.dest == dest) with
  | none => s
  | some g => (s.modHeat hi (fun h => { h with acks := h.acks.filter (fun g => g.dest != dest) })).sendRouted hi 4 dest (ackPayload g.entries)
/-- An acknowledgement waits for its ACK flit, which leaves once full; one for this module itself is taken at once (R238). -/
def State.pushAck (s : State) (hi : Fin 4) (dest e : Nat) : State :=
  if dest = (s.heat hi).ownId then s.ackEntry hi dest e
  else
    let acks := (s.heat hi).acks
    let g := (acks.find? (fun g => g.dest == dest)).getD ⟨dest, [], s.now⟩
    let g := { g with entries := g.entries ++ [e] }
    let s := s.modHeat hi (fun h => { h with acks := acks.filter (fun g => g.dest != dest) ++ [g] })
    if 15 ≤ g.entries.length then s.flushAck hi dest else s
/-- 64 stages after its first entry an ACK leaves (R238), a stage of the ports' clock taken at the nominal 1,600 M stages/s (log 19). -/
def execAckFlush (h : Fin 4) (dest : Nat) (s : State) : Result :=
  match (s.heat h).acks.find? (fun g => g.dest == dest) with
  | none => .next s
  | some g => .next ((s.reach (g.since + 400)).flushAck h dest)

/-! Landing (R238, R239, R342). -/

/-- The partner region half of a BATON block is written: its validity ends before (R342). -/
def State.landBaton (s : State) (hi : Fin 4) (p : Program) (b : Ejected) : State :=
  let a := s.partnerBase (s.heat hi) p + b.half * halfBytes p + 32 * b.off
  s.modHeat hi (fun h =>
    let half := h.ck.halves.toList.getD b.half ⟨false, 0, none⟩
    { h with
      mem := h.mem.put a b.bytes
      poison := h.poison.filter (fun g => !(a ≤ 32 * g && 32 * g < a + b.bytes.length))
      ck := { h.ck with halves := h.ck.halves.setIfInBounds b.half (⟨false, half.step, half.hashing⟩ : Half) } })
/-- A sender and the port its block came by are noted for a checked tag, each once (R272). -/
def Hurdle.saw (u : Hurdle) (e : Nat × Nat × Nat) : Hurdle := if u.seen.contains e then u else { u with seen := u.seen ++ [e] }
/-- A DATA block is written and counted (R238, R239). -/
def State.landData (s : State) (hi : Fin 4) (p : Program) (b : Ejected) : State :=
  let x := State.schedSite hi p
  let s := s.putSpace x ((s.space x).force (p.tagBase b.tag + 32 * b.off) b.bytes)
  let key := (if b.port < 16 ∨ b.port = 32 then 0 else 1) * 8192 + b.epoch % 2 * 4096 + b.tag
  let checked := (List.range p.checkCount).any (fun i => (p.check i).1 == b.tag || (p.check i).2 == b.tag)
  s.modHeat hi (fun h => { h with
    arrivals := amPut h.arrivals key (amGet h.arrivals key + b.bytes.length)
    hu := if checked then h.hu.saw (b.epoch % 2 * 4096 + b.tag, b.src, b.port) else h.hu })
/-- A block lands where its checks allow it: the status of its acknowledgement (R238, R239). -/
def State.land (s : State) (hi : Fin 4) (p : Program) (b : Ejected) (tagFail : Bool) : Nat × State :=
  let units := b.bytes.length / 32
  if 2 ≤ (b.epoch + 4 - (s.heat hi).epoch) % 4 then (eLate, s)
  else if !b.baton && !p.tagValid b.tag then (eDesc, s)
  else if (if b.baton then halfBytes p < 32 * (b.off + units) else p.tagUnits b.tag < b.off + units) then (eLimit, s)
  else if tagFail then (eCheck, s)
  else (0, if b.baton then s.landBaton hi p b else s.landData hi p b)
/-- The cluster in whose store a block lands, if it lands in one, accepts transfers (R28). -/
def State.landReach (s : State) (h : Fin 4) (p : Program) (b : Ejected) : Bool :=
  b.baton || match regionOf (s.heatMap (s.heat h) p) (p.tagBase b.tag + 32 * b.off) with
    | .store j _ => s.reach? h j
    | _ => true
/-- The next decoded block lands: checked, written, counted and acknowledged (R238, R239); one bound for a store that accepts no transfer
waits (R28). -/
def execLandingWrite (h : Fin 4) (tagFail : Bool) (s : State) : Result :=
  match (s.heat h).image, (s.heat h).ejected with
  | some p, b :: rest =>
    if !s.landReach h p b then .next s
    else
    let (status, s) := (s.modHeat h (fun t => { t with ejected := rest })).land h p b tagFail
    let s := if status = eLate ∧ b.port < 32 then s.bump 3 b.port 11 else s
    let e := b.tag + b.epoch * 2 ^ 12 + status * 2 ^ 14 + b.off * 2 ^ 22 + (b.bytes.length / 32 - 1) * 2 ^ 44
    .next (s.pushAck h b.src e)
  | _, _ => .next s

/-! Hurdle messages at their destination (R262 to R268). -/

/-- Change a child of a hurdle unit. -/
def Hurdle.modChild (u : Hurdle) (id : Nat) (f : Child → Child) : Hurdle :=
  { u with children := u.children.map (fun c => if c.id = id then f c else c) }
/-- A child of a hurdle unit. -/
def Hurdle.child (u : Hurdle) (id : Nat) : Option Child := u.children.find? (fun c => c.id == id)
/-- JOIN from a child (R262, R267). -/
def State.onJoin (s : State) (hi : Fin 4) (p : Program) (m : HMsg) : State :=
  let h := s.heat hi
  if h.phase ≠ .running ∨ m.count ≠ h.hu.count then s.stale hi
  else match h.hu.child m.origin with
  | some c =>
    if c.joined.isSome then s
    else
      let r := if m.digest ≠ leNat (p.digest.take 8) then 0x0A else m.reason
      (s.modHu hi (fun u => u.modChild m.origin (fun c => { c with joined := some r, mods := m.arrived }))).tryJoin hi
  | none => s.stale hi
/-- ARRIVE from a child (R262, R264). -/
def State.onArrive (s : State) (hi : Fin 4) (m : HMsg) : State :=
  let h := s.heat hi
  if h.phase ≠ .running ∨ m.count < h.hu.count then s.stale hi
  else (s.modHu hi (fun u => u.modChild m.origin (fun c => { c with arrived := some m.count, mods := m.arrived }))).progress hi
/-- HOLD from a child (R262, R265). -/
def State.onHold (s : State) (hi : Fin 4) (m : HMsg) : State :=
  let h := s.heat hi
  if h.phase ≠ .running ∨ m.count < h.hu.count then s.stale hi
  else (s.modHu hi (fun u => u.modChild m.origin (fun c => { c with held := m.held, heldAt := m.count }))).refreshHeld hi
/-- REQUEST at the root (R262, R264). -/
def State.onRequest (s : State) (hi : Fin 4) (m : HMsg) : State :=
  let h := s.heat hi
  if h.phase ≠ .running ∨ !h.isRoot then s.stale hi else s.rootRequest hi ⟨m.count, m.reason, m.status, m.origin⟩
/-- This module's FEED_ID strap (R431). -/
def State.feedId (s : State) : Nat := (s.com.boot.straps.map Straps.feedId).getD 0
/-- FEED_QUERY is answered at once with the FEED_ID strap (R262). -/
def State.onFeedQuery (s : State) (hi : Fin 4) (m : HMsg) : State :=
  s.sendHurdle hi m.origin { (s.heat hi).message 7 with count := 0, feed := s.feedId }
/-- FEED_REPLY: the partner's FEED_ID against this module's own (R267, R343). -/
def State.onFeedReply (s : State) (hi : Fin 4) (p : Program) (m : HMsg) : State :=
  let h := s.heat hi
  if h.phase ≠ .running ∨ h.hu.count ≠ 0 ∨ h.hu.feed.isSome ∨ m.origin ≠ p.partner h.ownId then s.stale hi
  else
    (s.modHu hi (fun u => { u with feed := some (if m.feed == s.feedId && !p.forceSameFeed then 9 else 0) })).tryJoin hi
/-- A hurdle message at its destination; a reserved one is dropped as a link error (R262). -/
def State.hurdleIn (s : State) (hi : Fin 4) (p : Fin 32) (i : Program) (pay : Bytes) : State :=
  let m := parseHMsg pay
  match m.msg with
  | 1 => s.onJoin hi i m
  | 2 => s.onArrive hi m
  | 3 => s.onHold hi m
  | 4 => s.onRequest hi m
  | 5 => if m.decision = 3 then s.bump 3 p.val 10 else s.onDecide hi i m
  | 6 => s.onFeedQuery hi m
  | 7 => s.onFeedReply hi i m
  | _ => s.bump 3 p.val 10

/-! HELLO (R229). -/

/-- HELLO of the partner of a port whose heat has its START: one that names another module or port fails the START (R229). -/
def State.helloIn (s : State) (hi : Fin 4) (p : Fin 32) (i : Program) (hdr : Nat) (pay : Bytes) : State :=
  let s := s.freeBuffer p hdr
  let l := (s.heat hi).portList.idxOf p
  let e := i.peer l
  let s := s.modPort p (fun k => { k with hello := some (leAt pay 2 2, leAt pay 4 1, leAt pay 5 1) })
  if bitAt e 17 && (leAt pay 2 2 != fld e 11 0 || leAt pay 4 1 != fld e 16 12) then
    (if (s.heat hi).hu.count = 0 then s.stopJob hi eConfig 0 else s)
  else s.tryJoin hi

/-- Process one routed flit or HELLO of a heat that has its START. -/
def State.process (s : State) (hi : Fin 4) (p : Fin 32) (i : Program) (hdr : Nat) (pay : Bytes) (seq : Nat) : State :=
  let own := hdrDest hdr == (s.heat hi).ownId
  match hdrType hdr with
  | 0 => s.dataIn hi p i hdr pay seq
  | 3 => s.helloIn hi p i hdr pay
  | 4 => if own then (s.freeBuffer p hdr).ackIn hi hdr pay else s.passOn hi p i hdr pay
  | _ => if own then (s.freeBuffer p hdr).hurdleIn hi p i pay else s.passOn hi p i hdr pay
/-- A routed flit or HELLO arrives at a port: held until START, else processed (R229). -/
def State.deliver (s : State) (p : Fin 32) (hdr : Nat) (pay : Bytes) (seq : Nat) : State :=
  match s.heatOfPort p with
  | none => (s.holdFlit p hdr pay seq).pump p
  | some (hi, _) =>
    match (s.heat hi).image with
    | none => (s.holdFlit p hdr pay seq).pump p
    | some i => if (s.heat hi).holdsFlit hdr pay then (s.holdFlit p hdr pay seq).pump p else (s.process hi p i hdr pay seq).pump p
/-- Process what a port held, in arrival order (R229). -/
def State.releaseHeld (s : State) (p : Fin 32) : State :=
  let fs := (s.port p).rx.held
  fs.foldl (fun (s : State) (f : Flit) => s.deliver p f.hdr f.pay (f.blk.getD 0)) (s.modPort p (fun k => { k with rx := { k.rx with held := [] } }))

/-! The rows of routed flits. -/

/-- A hurdle message of one kind. -/
def isHurdle (msg : Nat) (hdr : Nat) (pay : Bytes) : Bool := hdrType hdr == 5 && leAt pay 0 1 == msg
/-- A DECIDE of one decision. -/
def isDecide (d : Nat) (hdr : Nat) (pay : Bytes) : Bool := isHurdle 5 hdr pay && (parseHMsg pay).decision == d
/-- A LINK_CTL message of one kind. -/
def isCtl (b : Nat) (hdr : Nat) (pay : Bytes) : Bool := hdrType hdr == 3 && leAt pay 0 1 == b
/-- A DATA flit, or one of a reserved type or message: those are dropped as link errors (R220, R262; DEDUCED, log 20). -/
def isData (hdr : Nat) (pay : Bytes) : Bool :=
  hdrType hdr == 0 || 6 ≤ hdrType hdr || (hdrType hdr == 3 && (leAt pay 0 1 == 0 || 8 < leAt pay 0 1))
    || (hdrType hdr == 5 && (leAt pay 0 1 == 0 || 7 < leAt pay 0 1 || isDecide 3 hdr pay))

/-- DATA (R218 to R224, R232, R233, R243, R249). -/
def execDataFlit (f : FlitRx) (s : State) : Result :=
  s.withFlit f isData (fun s hdr pay seq =>
    if hdrType hdr = 3 then ((s.freeBuffer f.port hdr).bump 3 f.port.val 10).pump f.port else s.deliver f.port hdr pay seq)
/-- ACK (R238). -/
def execAck (f : FlitRx) (s : State) : Result :=
  s.withFlit f (fun hdr _ => hdrType hdr == 4) (fun s hdr pay seq => s.deliver f.port hdr pay seq)
/-- HELLO (R229). -/
def execHello (f : FlitRx) (s : State) : Result := s.withFlit f (isCtl 1) (fun s hdr pay seq => s.deliver f.port hdr pay seq)
/-- JOIN (R262, R267). -/
def execJoin (f : FlitRx) (s : State) : Result := s.withFlit f (isHurdle 1) (fun s hdr pay seq => s.deliver f.port hdr pay seq)
/-- ARRIVE (R262). -/
def execArrive (f : FlitRx) (s : State) : Result := s.withFlit f (isHurdle 2) (fun s hdr pay seq => s.deliver f.port hdr pay seq)
/-- HOLD (R265). -/
def execHold (f : FlitRx) (s : State) : Result := s.withFlit f (isHurdle 3) (fun s hdr pay seq => s.deliver f.port hdr pay seq)
/-- REQUEST (R263, R264). -/
def execRequest (f : FlitRx) (s : State) : Result := s.withFlit f (isHurdle 4) (fun s hdr pay seq => s.deliver f.port hdr pay seq)
/-- DECIDE GO (R264). -/
def execDecideGo (f : FlitRx) (s : State) : Result := s.withFlit f (isDecide 0) (fun s hdr pay seq => s.deliver f.port hdr pay seq)
/-- DECIDE FALSE_START (R269). -/
def execDecideFalseStart (f : FlitRx) (s : State) : Result :=
  s.withFlit f (isDecide 1) (fun s hdr pay seq => s.deliver f.port hdr pay seq)
/-- DECIDE STOP (R264). -/
def execDecideStop (f : FlitRx) (s : State) : Result := s.withFlit f (isDecide 2) (fun s hdr pay seq => s.deliver f.port hdr pay seq)
/-- FEED_QUERY (R262). -/
def execFeedQuery (f : FlitRx) (s : State) : Result := s.withFlit f (isHurdle 6) (fun s hdr pay seq => s.deliver f.port hdr pay seq)
/-- FEED_REPLY (R262, R267). -/
def execFeedReply (f : FlitRx) (s : State) : Result := s.withFlit f (isHurdle 7) (fun s hdr pay seq => s.deliver f.port hdr pay seq)

/-! The rows of LINK_CTL. -/

/-- A LINK_CTL message other than HELLO leaves the buffer once processed. -/
def State.withCtl (s : State) (f : FlitRx) (b : Nat) (go : State → Bytes → State) : Result :=
  s.withFlit f (isCtl b) (fun s hdr pay _ => (go (s.freeBuffer f.port hdr) pay).pump f.port)
/-- TABLE: kept until the blocks of its generation are decoded (R245, R248). -/
def execTable (f : FlitRx) (s : State) : Result :=
  s.withCtl f 2 (fun s pay =>
    let lens := (List.range 256).map (fun v => if v % 2 = 0 then fld (leAt pay (16 + v / 2) 1) 3 0 else fld (leAt pay (16 + v / 2) 1) 7 4)
    if leAt pay 1 1 < 4 then
      s.modPort f.port (fun k => { k with rx := { k.rx with pend := k.rx.pend ++ [(leAt pay 1 1, ⟨leAt pay 2 1, lens⟩)] } })
    else s.bump 3 f.port.val 10)
/-- Every block of the slot's generation that came before is decoded: the table is installed and acknowledged (R248). -/
def execTableInstall (p : Fin 32) (s : State) : Result :=
  let k := s.port p
  match k.rx.pend with
  | [] => .next s
  | (g, t) :: rest =>
    let busy := k.rx.asm.any (fun a =>
      let h := leAt a.bytes 0 8
      (fld h 1 0 == 1 || fld h 1 0 == 2) && fld h 3 2 == g)
    if k.retired || busy then .next s
    else .next ((s.setPort p { k with rx := { k.rx with pend := rest, tables := k.rx.tables.setIfInBounds g (some t) } }).linkCtl p
      [3, BitVec.ofNat 8 g])
/-- TABLE_ACK: the generation may be used (R248). -/
def execTableAck (f : FlitRx) (s : State) : Result :=
  s.withCtl f 3 (fun s pay =>
    let g := leAt pay 1 1
    s.modPort f.port (fun k => if k.tx.tableOut = some g then { k with tx := { k.tx with
      tableOut := none
      tables := k.tx.tables.setIfInBounds g ((k.tx.tables.toList.getD g none).map (fun t => (t.1, true))) } } else k))
/-- BLOCK_NACK: the block goes again RAW on the next sub-stream; after 3 failures it is abandoned (R249). The raw copy it names is taken before
the flit's own trailer can release it. -/
def execBlockNack (f : FlitRx) (s : State) : Result :=
  let pay := bytesAt f.bytes 16 256
  let hit := (s.port f.port).tx.raws.find? (fun r => r.sub == leAt pay 1 1 && r.first == some (leAt pay 2 2 % 4096))
  s.withCtl f 4 (fun s _ =>
    match hit with
    | none => s
    | some r =>
      let fails := r.fails ++ [r.sub]
      let s := s.modPort f.port (fun k => { k with tx := { k.tx.unqueue r.id with raws := k.tx.raws.filter (fun x => x.id != r.id) } })
      let s := if 3 ≤ fails.length then s.bump 3 f.port.val 7 else s.resendBlock f.port r fails
      if 3 ≤ (fails.filter (· == r.sub)).length then s.declareSub f.port r.sub else s)
/-- LANE_RETIRE: the lanes the new mask leaves out retire here too, answered with LANE_ACK (R226). -/
def execLaneRetire (f : FlitRx) (s : State) : Result :=
  s.withCtl f 5 (fun s pay =>
    let s := s.keepLanes f.port (leAt pay 1 1)
    if (s.port f.port).retired then s else s.linkCtl f.port [6, BitVec.ofNat 8 (s.port f.port).keptMask])
/-- LANE_ACK: slots rotate over the lanes both ends keep (R226); with none the port retires (R227). -/
def execLaneAck (f : FlitRx) (s : State) : Result := s.withCtl f 6 (fun s pay => s.keepLanes f.port (leAt pay 1 1))
/-- SUB_RETIRE: the sub-streams the new mask leaves out retire, answered with SUB_ACK (R250). -/
def execSubRetire (f : FlitRx) (s : State) : Result :=
  s.withCtl f 7 (fun s pay =>
    let s := s.linkCtl f.port ([8, 0] ++ bytesAt pay 2 2)
    s.dropSubs f.port (leAt pay 2 2))
/-- SUB_ACK: both ends have dropped the sub-stream (R250). -/
def execSubAck (f : FlitRx) (s : State) : Result := s.withCtl f 8 (fun s pay => s.dropSubs f.port (leAt pay 2 2))

/-! Arrival and the timers of the hurdle unit. -/

/-- Every cluster of the heat has reached its HURDLE, a folded pair's survivor for both, and no block of the ending epoch is unacknowledged or
queued: the module has arrived (R239, R259). -/
def State.allArrived (s : State) (hi : Fin 4) : Bool :=
  let h := s.heat hi
  let cs := h.clusterList
  let mine := fun (hdr : Nat) => hdrType hdr == 0 && hdrEpoch hdr == h.epoch && hdrSrc hdr == h.ownId
  cs.all (fun c => (s.cl c).headArrived.isSome || ((s.cl c).retired && (s.cl c).folded))
    && h.sent.all (fun b => b.epoch != h.epoch)
    && h.portList.all (fun p => (s.port p).tx.q.toList.all (fun q => q.all (fun f => !mine f.hdr)))
/-- ARRIVAL (R259): not before the GO that ended the last count is carried out (R337, R346). -/
def execArrival (h : Fin 4) (s : State) : Result :=
  let t := s.heat h
  if t.phase = .running ∧ t.live ∧ t.hu.count ≠ 0 ∧ !t.hu.arrived ∧ !s.decideWaits h ∧ s.allArrived h then
    .next ((s.modHu h (fun u => { u with arrived := true })).progress h)
  else .next s
/-- The root's window clock reaches the window (R264, R265, R269). -/
def execWindowExpiry (h : Fin 4) (s : State) : Result :=
  let t := s.heat h
  let u := t.hu
  if t.phase = .running ∧ t.isRoot ∧ u.count ≠ 0 ∧ u.heldSince = none ∧ u.deferred = [] then
    let s := s.reach (u.decideAt + u.heldTime + u.windowMs * milli)
    .next (State.rootRun h (u.reqs.length + 2) (s.rootDecide h (u.falseOrStop ((t.job.map Job.fsLimit).getD 0) 1 eLate)))
  else .next s
/-- hurdle_first_s passes before every module has joined (R267). -/
def execJoinLate (h : Fin 4) (s : State) : Result :=
  let t := s.heat h
  if t.phase = .running ∧ t.isRoot ∧ t.hu.count = 0 ∧ t.hu.deferred = [] then
    .next ((s.reach (t.hu.decideAt + (t.job.map Job.firstS).getD 0 * second)).rootDecide h (2, 0x0C, eLate))
  else .next s
/-- No DECIDE within twice the window after ARRIVE: E_HANG and a dump, and the module goes on waiting (R268). -/
def execDecideTimeout (h : Fin 4) (s : State) : Result :=
  let t := s.heat h
  match t.hu.arriveAt with
  | some a =>
    if t.phase = .running ∧ !t.hu.hung ∧ t.hu.deferred = [] then
      .next (((s.reach (a + 2 * t.hu.decideMs * milli)).modHu h (fun u => { u with hung := true })).declareHang h .noDecide)
    else .next s
  | none => .next s
/-- A subtree held for the longer of 600 s and 16 windows, again and again (R418). -/
def execHeldTooLong (h : Fin 4) (s : State) : Result :=
  let t := s.heat h
  match t.hu.heldSince with
  | some a =>
    if t.phase = .running then
      let n := t.hu.heldHangs + 1
      .next (((s.reach (a + n * max (600 * second) (16 * t.hu.windowMs * milli))).modHu h (fun u => { u with heldHangs := n })).declareHang h .held)
    else .next s
  | none => .next s

end Sys2Proof.Machine
end

