-- ==== Sys2Proof/Machine/StartJob.lean ====
section
/-! DEFINITION. START (R399): its checks, INIT_DATA or a restore (R36, R208, R349 to R351), the state a job begins with (R258, R266, R267),
HELLO (R229) and FEED_QUERY (R262). -/
namespace Sys2Proof.Machine

/-! The body. -/

/-- The hurdle parameters of a START: first_s, mult, fs_limit, pf_log2, floor_ms (R266, R399). -/
def hurdleParams (setting body : Nat) : List Nat :=
  if bitAt body 90 then [fld body 207 192, fld body 214 208, fld body 223 216, fld body 228 224, fld body 255 240]
  else [fld setting 63 48, fld setting 70 64, fld setting 79 72, fld setting 84 80, fld setting 111 96]
/-- Every parameter lies in its range (R266). -/
def hurdleParamsOk : List Nat → Bool
  | [first, mult, fs, pf, floor] => 1 ≤ first && 2 ≤ mult && mult ≤ 64 && 1 ≤ fs && (pf ≤ 24 || pf == 31) && 1 ≤ floor
  | _ => false
/-- The settings of the running configuration as one number (R376). -/
def Boot.settings (b : Boot) : Nat := leAt (b.config.getD []) 64 64
/-- The job a START body gives. -/
def jobOf (settings w : Nat) (req : Nat × Nat) : Job :=
  let ps := hurdleParams settings w
  { seed := BitVec.ofNat 64 (fld w 63 0), moduleId := fld w 75 64, modules := fld w 88 76
    restore := if bitAt w 89 then some (fld w 191 128) else none
    firstS := ps.getD 0 0, mult := ps.getD 1 0, fsLimit := ps.getD 2 0, pf := ps.getD 3 0, floorMs := ps.getD 4 0
    storeAddr := fld w 383 256, storeQpn := fld w 407 384, storeRkey := fld w 447 416, storeBase := fld w 511 448
    storeStride := fld w 575 512, storeInterval := fld w 607 576, startReq := some req }
/-- The body is one START accepts for an image: reserved fields, ids and counts, override ranges, stride (R11, R234, R260, R399). -/
def startOk (p : Program) (settings : Nat) (body : Bytes) : Bool :=
  let w := leAt body 0 128
  128 ≤ body.length && rsv w 127 91 && rsv w 215 215 && rsv w 239 229 && rsv w 415 408 && rsv w 1023 608
    && fld w 88 76 == p.moduleCount && fld w 75 64 < fld w 88 76 && hurdleParamsOk (hurdleParams settings w)
    && fld w 575 512 % 8192 == 0

/-! Memory before the first step. -/

/-- A START from INIT_DATA in a STOPPED heat zeroes what admission zeroed, and the streams are placed again (R208, R399). -/
def State.zeroHeat (s : State) (hi : Fin 4) (p : Program) : State :=
  let s := (s.modHeat hi (fun h => { h with mem := p.putStreams [], poison := [], scratch := [], staging := [] })).dropCache hi
  (s.heat hi).clusterList.foldl (fun s c => s.modCl c (fun k => { k with store := [], acc := ⟨[], none⟩, rowBuf := .cleared })) s
/-- The INIT_DATA records are written (R36). -/
def State.writeInit (s : State) (hi : Fin 4) (p : Program) : State :=
  let x := State.schedSite hi p
  let bytes := p.sec 0x0D wide
  s.putSpace x (p.initRecords.1.foldl (fun sp r => sp.force r.2.1 ((bytes.drop (r.1 + 16)).take r.2.2)) (s.space x))
/-- The granules a record's copy covers are no longer poisoned (R351). -/
def clearPoison (step : Nat) (recs : List CkptRec) (poison : List Nat) : List Nat :=
  poison.filter (fun g => !(recs.any (fun r => overlaps (32 * g) 32 (r.addr step) r.len)))
/-- Local flash is read where neither the copy in place nor the partner's half gives the step (R349, R409). -/
def State.readFlash (s : State) (hi : Fin 4) (p : Program) (j : Job) (step : Nat) (retained : Bool) : State :=
  match chooseSource ((s.sources hi p j step s.free retained).take 2), s.flashPiece p j step with
  | .error _, some bs => s.countRead bs.length
  | _, _ => s
/-- The state after step S comes from the first source that gives it (R348, R349): the status, 0 where one does. -/
def State.restoreStep (s : State) (hi : Fin 4) (p : Program) (j : Job) (step : Nat) (retained : Bool) : State × Nat :=
  let xs := s.sources hi p j step s.free retained
  let s := s.readFlash hi p j step retained
  match chooseSource xs with
  | .error st => (s.useFree, st)
  | .ok (.payload bs) => (s.useFree.modHeat hi (fun h => { h with
      mem := writeRecords step p.ckpts bs h.mem, poison := clearPoison step p.ckpts h.poison }), 0)
  | .ok _ => (s.useFree, 0)

/-! The state a job begins with. -/

/-- The live ends of the channels of an image, empty (R46, R286). -/
def Program.liveChans (p : Program) : List Chan := (p.chans ++ p.feedChans).map (fun d => ⟨d, 0, 0, 0, 0, (0, 0)⟩)
/-- A hurdle unit at hurdle count 0 (R267): the step it will begin, its replica and its children. -/
def startHurdle (p : Program) (j : Job) (now : Nat) : Hurdle :=
  { Hurdle.reset with
    step := (j.restore.map (· + 1)).getD 0, replica := p.replicaOf j.moduleId, pf := j.pf, decideAt := now
    children := (p.children j.moduleId).map (fun c => ⟨c, none, none, 0, false, 0⟩) }
/-- The checkpoint state a job begins with: a restore keeps the halves and its own copy of S, INIT_DATA nothing but the last write's
duration (R342, R344, R347). -/
def Ckpt.start (k : Ckpt) (restore : Option Nat) : Ckpt :=
  match restore with
  | some n => { Ckpt.reset with halves := k.halves, digests := k.digests.filter (fun d => d.1 == n), saved := k.saved, lastW := k.lastW, gens := k.gens }
  | none => { Ckpt.reset with lastW := k.lastW }
/-- A control core before the first step: at address 0, registers and data memory zero (R258). -/
def Cluster.ready (k : Cluster) : Cluster := { k.release with dmem := [], folded := k.folded }
/-- A heat at hurdle count 0 of a job. -/
def Heat.begin (h : Heat) (p : Program) (j : Job) (now : Nat) : Heat :=
  let hu := startHurdle p j now
  { h with phase := .running, live := false, status := 0, job := some j, chans := p.liveChans, hu := hu, arrivals := [], sent := []
           ejected := [], acks := [], kv := [], ck := h.ck.start j.restore
           pipe := { Pipeline.reset with step := hu.step, next := hu.step * p.batch } }
/-- Clusters of a heat that work neither themselves nor by a partner (R336). -/
def State.pairLost (s : State) (hi : Fin 4) : Bool := !s.unitsLive { (s.heat hi) with blocks := ((s.heat hi).blocks.1, 0, 0) }
/-- A connected port has no lane up (R229). -/
def State.portDown (s : State) (hi : Fin 4) (p : Program) : Bool :=
  let h := s.heat hi
  (List.range p.portCount).any (fun l => bitAt (p.peer l) 17 && (match h.physPort l with
    | some q => (s.port q).retired || !(s.port q).anyLane
    | none => true))
/-- HELLO of a port (R229). -/
def helloBytes (own port mask : Nat) : Bytes := [1, 0] ++ natLE 2 own ++ natLE 1 port ++ natLE 1 mask
/-- Every port of the heat sends HELLO, one with no lane up as soon as its link comes up; its DATA credits set by ROUTES at the first START (R222, R223, R229). -/
def State.sendHellos (s : State) (hi : Fin 4) (first : Bool) : State :=
  let h := s.heat hi
  (h.portList.mapIdx (fun l q => (l, q))).foldl (fun s lq =>
    let s := if first then s.modPort lq.2 (fun k => { k with tx := { k.tx with
      credits := (s.fullCredits lq.2).set 3 k.tx.credits[3] } }) else s
    let k := s.port lq.2
    let s := s.setPort lq.2 { k with helloSent := true, hello := none }
    if !k.retired then s.linkCtl lq.2 (helloBytes h.ownId lq.1 k.tx.mask) else s) s

/-- The start hurdle begins (R229, R262, R267): HELLOs, what the ports held, FEED_QUERY to the relay partner; in a job of
one module that is itself, and its reply is its own FEED_ID (log 59). -/
def State.beginHurdle (s : State) (hi : Fin 4) (p : Program) (first : Bool) : State :=
  let s := s.sendHellos hi first
  let s := (s.heat hi).portList.foldl (fun s q => s.releaseHeld q) s
  let own := (s.heat hi).ownId
  if (s.heat hi).phase ≠ .running then s
  else if p.partner own = own then s.onFeedReply hi p { (s.heat hi).message 7 with count := 0, feed := s.feedId }
  else s.sendHurdle hi (p.partner own) { (s.heat hi).message 6 with count := 0 }
/-- A START that is accepted: its job fails into STOPPED, or reaches the start hurdle (R395, R399). -/
def State.launchJob (s : State) (hi : Fin 4) (p : Program) (j : Job) : State :=
  let retained := (s.heat hi).phase = .stopped
  let first := (s.heat hi).phase = .loaded
  let s := if retained && j.restore.isNone then s.zeroHeat hi p else s
  let s := (((s.applyFolds hi).markFolds hi).loadClusters hi p)
  let (s, st) := match j.restore with
    | none => (s.writeInit hi p, 0)
    | some n => s.restoreStep hi p j n retained
  let s := (s.heat hi).clusterList.foldl (fun s c => s.modCl c Cluster.ready) s
  let s := (s.modHeat hi (fun h => h.begin p j s.now)).noteOrphan
  let s := s.modHeat hi (fun h => { h with ck := { h.ck with k := s.heatK h } })
  if st ≠ 0 then s.stopJob hi st 0
  else if s.pairLost hi then s.stopJob hi eRetired 0
  else if s.portDown hi p then s.stopJob hi eConfig 0
  else s.beginHurdle hi p first
/-- START for a heat: none where its reply waits for the start hurdle (R395, R399). -/
def State.startMsg (s : State) (hi : Fin 4) (req : Nat × Nat) (body : Bytes) : State × Option Nat :=
  let h := s.heat hi
  match h.image with
  | none => (s, some eConfig)
  | some p =>
    if (h.phase = .loaded ∨ h.phase = .stopped) ∧ startOk p s.com.boot.settings body then
      ((s.deferReply req.1 req.2 hi.val).launchJob hi p (jobOf s.com.boot.settings (leAt body 0 128) req), none)
    else (s, some eConfig)

end Sys2Proof.Machine
end

