-- ==== Sys2Proof/Machine/Mgmt.lean ====
section
/-! DEFINITION. Management messages on an attached session: how a request is taken and gated (R386, R387, R389, R391, R392, R395), and what
each does: firmware and configuration (R379, R382), heats and jobs (R395 to R400), QUERY (R401 to R404, R410), the life log (R400). -/
namespace Sys2Proof.Machine

/-! What a message asks. -/

/-- kind of a QUERY (R401). -/
def queryKind (m : Msg) : Nat := leAt m.body 0 4
/-- sub-kind of a QUERY COUNTERS (R410). -/
def querySub (m : Msg) : Nat := leAt m.body 4 4
/-- Types a client may send (R387). -/
def clientType (t : Nat) : Bool := [1, 3, 0x10, 0x11, 0x12, 0x20, 0x21, 0x22, 0x23, 0x24, 0x30, 0x31].contains t
/-- A QUERY STATUS, or a message of a reserved type or kind, which is refused (R11, R387, R401; DEDUCED, log 20). -/
def isStatus (m : Msg) : Bool := if msgType m = 0x30 then queryKind m == 0 || 3 < queryKind m else !clientType (msgType m)
/-- A QUERY of a kind. -/
def isQuery (m : Msg) (kind : Nat) : Bool := msgType m == 0x30 && queryKind m == kind
/-- A QUERY COUNTERS of a sub-kind. -/
def isCounters (m : Msg) (ok : Nat → Bool) : Bool := isQuery m 3 && ok (querySub m)
/-- RESET of scope MODULE (R400). -/
def isModuleReset (m : Msg) : Bool := msgType m == 0x12 && m.body.length != 0 && leAt m.body 0 1 == 1
/-- The row of a message. -/
def msgRow (m : Msg) : Instr → Bool
  | .detach _ => msgType m == 3
  | .loadFw _ _ => msgType m == 0x10
  | .writeConfig _ _ => msgType m == 0x11
  | .resetHeat _ => msgType m == 0x12 && !isModuleReset m
  | .resetModule _ => isModuleReset m
  | .loadImage _ => msgType m == 0x20
  | .start _ => msgType m == 0x21
  | .stopAtHurdle _ => msgType m == 0x22
  | .checkpointNow _ => msgType m == 0x23
  | .rearm _ => msgType m == 0x24
  | .queryStatus _ => isStatus m
  | .queryInventory _ => isQuery m 1
  | .queryAttest _ => isQuery m 2
  | .snapshot _ => isCounters m (fun k => k == 0 || 2 < k)
  | .splits _ => isCounters m (· == 1)
  | .queryDump _ => isCounters m (· == 2)
  | .readLifelog _ => msgType m == 0x31
  | _ => false
/-- The right a type needs: 0 observe, 1 operate, 2 maintain; none for DETACH and for reserved types (R378, R387). -/
def typeRight (t : Nat) : Option Nat :=
  match t with
  | 0x10 | 0x11 | 0x12 => some 2
  | 0x20 | 0x21 | 0x22 | 0x23 | 0x24 => some 1
  | 0x30 | 0x31 => some 0
  | _ => none
/-- The module's state serves the message (R370 to R372, R382). -/
def stateServes (st : ModuleState) (m : Msg) : Bool :=
  let t := msgType m
  match st with
  | .boot => false
  | .awaitFw => t == 3 || t == 0x10 || t == 0x11 || t == 0x12 || t == 0x30 || t == 0x31
  | .ready => true
  | .recovery => (t == 0x30 && queryKind m == 0) || t == 0x31 || t == 0x11 || t == 0x12
  | .halted => t != 0x10 && t != 0x20

/-! Taking a request. -/

/-- Answer a request. -/
def State.answer (s : State) (m : Msg) (status : Nat) (body : Bytes) : State := s.reply m.conn (msgSeq m) (msgHeat m) status body
/-- Serve a request a session has made: refused where its header, its right, the number outstanding or the module's state says so (R378, R386,
R387). -/
def State.serve (s : State) (m : Msg) (go : State → State) : State :=
  match s.session m.conn with
  | none => s
  | some k =>
    if !msgRsvOk m || !clientType (msgType m) then s.answer m eConfig []
    else if (typeRight (msgType m)).any (fun r => !bitAt k.rights r) then s.answer m eAuth []
    else if 16 ≤ k.replies.length then s.answer m eLimit []
    else if !stateServes s.com.boot.state m then s.answer m eConfig []
    else go s
/-- A request arrives on a row: it is framed, tagged and in order, and the scheduler core serves it now or later (R386, R387, R389, R391). -/
def State.takeReq (s : State) (m : Msg) (i : Instr) (go : State → State) : Result :=
  if m.hdr.length = 32 then
    match s.session m.conn with
    | none => .next s
    | some k =>
      if msgUnframed m then .next (s.closeSession m.conn)
      else if m.body.length ≠ msgLen m ∨ !msgRow m i then .next s
      else if k.phase ≠ .attached ∨ !tagHolds k m ∨ msgSeq m ≠ k.rxSeq then .next (s.closeSession m.conn)
      else
        let s' := s.modSession m.conn (fun k => { k with rxSeq := k.rxSeq + 1, lease := s.now })
        if s.serving then .next (s'.serve m go)
        else if ((s.com.mgmt.queue.filter (fun q => msgConn q == some m.conn)).length < 16 : Bool) then
          .next (s'.modMgmt (fun g => { g with queue := g.queue ++ [i] }))
        else .next s
  else .fault .illFormed
/-- Run what a message asks of one heat; another heat number is refused (R386, R395). -/
def State.onHeat (s : State) (m : Msg) (go : Fin 4 → State) : State :=
  match (List.finRange 4)[msgHeat m]? with
  | some hi => go hi
  | none => s.answer m eConfig []
/-- A QUERY that names a heat is accepted in LOADED, RUNNING and STOPPED (R395). -/
def State.queryOk (s : State) (m : Msg) : Bool :=
  match (List.finRange 4)[msgHeat m]? with
  | some hi => (s.heat hi).phase != .free && (s.heat hi).phase != .loading
  | none => msgHeat m == 0xFF
/-- Answer a QUERY. -/
def State.onQuery (s : State) (m : Msg) (go : State) : State := if s.queryOk m then go else s.answer m eConfig []

/-! DETACH (R400). -/

/-- DETACH: the reply, then the session closes (R387, R400). -/
def State.serveDetach (m : Msg) (s : State) : State :=
  (s.modSession m.conn (fun k => { k with closing := true })).answer m 0 []

/-! LOAD_FW and WRITE_CONFIG. -/

/-- The four sections of a bundle are loaded, the control-core runtime into every cluster, and the three central cores start (R370, R382,
R384). -/
def State.startFirmware (s : State) (b : Bytes) : State :=
  let n := s.free
  let s := s.useFree.modBoot (fun k => { k with
    state := .awaitFw, readySent := false, loadedAt := s.now, fwVersion := bundleVersion b, fwDigest := bundleDigest b, fwChunks := []
    fw := Vector.ofFn (fun i => bundleSection b (i.val + 1) n), security := .up, secFails := 0, scheduler := .up, power := .up })
  { s with clusters := s.clusters.map (fun (k : Cluster) => { k with rt := bundleSection b 4 n }) }
/-- The last chunk of a bundle: its status (R382). -/
def State.bundleStatus (s : State) (b : Bytes) (sigOk : Bool) : Nat :=
  if !bundleOk b then eConfig
  else if !bundleTrusted b || !sigOk then eAuth
  else if bundleVersion b < configMinFw (s.com.boot.config.getD []) then eConfig
  else 0
/-- LOAD_FW: one chunk (R370, R382, R396, R417). -/
def State.serveLoadFw (m : Msg) (sigOk : Bool) (s : State) : State :=
  let clear := fun (s : State) => s.modBoot (fun k => { k with fwChunks := [] })
  let off := leAt m.body 0 8
  let have_ := s.com.boot.fwChunks
  if s.heats.toList.any (fun h => h.phase != .free) then s.answer m eConfig []
  else if s.com.boot.security ≠ .up then s.answer m eAuth []
  else if m.body.length < 16 ∨ mib + 16 < m.body.length ∨ leAt m.body 8 8 ≠ 0 ∨ off ≠ have_.length ∨ 16777216 < off + m.body.length - 16 then
    (clear s).answer m eConfig []
  else
    let b := have_ ++ m.body.drop 16
    if !msgLast m then (s.modBoot (fun k => { k with fwChunks := b })).answer m 0 []
    else
      let st := s.bundleStatus b sigOk
      if st ≠ 0 then (clear s).answer m st []
      else (((s.startFirmware b).journal 7 0 0 0 (bundleVersion b)).answer m 0 []).closeAll
/-- WRITE_CONFIG (R372, R379, R417). -/
def State.serveWriteConfig (m : Msg) (sigOk : Bool) (s : State) : State :=
  if s.com.boot.security ≠ .up then s.answer m eAuth []
  else if !configOk m.body then s.answer m eConfig []
  else if !ownerKeyOk m.body || !sigOk then s.answer m eAuth []
  else if (s.com.boot.config.map (fun c => decide (configGen m.body ≤ configGen c))).getD false then s.answer m eConfig []
  else
    let base := slotBase s.otherSlot
    ((((s.flashErase base 65536).flashPut base m.body)).journal 8 0 0 0 (configGen m.body)).answer m 0 []

/-! RESET. -/

/-- RESET of scope HEAT (R395, R399, R400); another scope is reserved. -/
def State.serveResetHeat (m : Msg) (s : State) : State :=
  if m.body.length = 0 ∨ leAt m.body 0 1 ≠ 0 then s.answer m eConfig []
  else s.onHeat m (fun hi => (s.freeHeat hi).answer m 0 [])
/-- RESET of scope MODULE: a START that waits is answered, then the RESET, every session closes, and boot restarts (R399, R400). -/
def State.serveResetModule (m : Msg) (s : State) : State :=
  let s := (List.finRange 4).foldl (fun s hi => s.freeHeat hi) s
  ((s.answer m 0 []).closeAll).reboot

/-! Heats and jobs. -/

/-- LOAD_IMAGE (R395 to R397). -/
def State.serveLoadImage (m : Msg) (s : State) : State :=
  s.onHeat m (fun hi =>
    if (s.heat hi).phase = .free ∨ (s.heat hi).phase = .loading then
      let (s, st, extra) := s.loadChunk hi (msgLast m) m.body
      s.answer m st extra
    else s.answer m eConfig [])
/-- START (R399). -/
def State.serveStart (m : Msg) (s : State) : State :=
  s.onHeat m (fun hi =>
    match s.startMsg hi (m.conn, msgSeq m) m.body with
    | (s, some st) => s.answer m st []
    | (s, none) => s)
/-- STOP_AT_HURDLE (R263, R400). -/
def State.serveStop (m : Msg) (s : State) : State :=
  s.onHeat m (fun hi => if (s.heat hi).phase = .running then (s.stopAtNext hi).answer m 0 [] else s.answer m eConfig [])
/-- CHECKPOINT_NOW (R347, R400). -/
def State.serveCheckpoint (m : Msg) (s : State) : State :=
  s.onHeat m (fun hi =>
    let n := leAt m.body 0 8
    let w := leAt m.body 8 1
    if (s.heat hi).phase ≠ .running ∨ m.body.length < 9 ∨ !rsv w 7 2 then s.answer m eConfig []
    else if n ≤ (s.heat hi).hu.step then s.answer m eLimit []
    else (s.modHeat hi (fun h => { h with ck := { h.ck with extra := h.ck.extra ++ [(n, bitAt w 0, bitAt w 1)] } })).answer m 0 [])
/-- REARM (R275, R400). -/
def State.serveRearm (m : Msg) (s : State) : State :=
  s.onHeat m (fun hi =>
    let port := leAt m.body 0 1
    let server := leAt m.body 1 1
    let count := ((s.heat hi).image.map Program.serverCount).getD 0
    if (s.heat hi).phase ≠ .running ∨ m.body.length < 2 ∨ 2 ≤ port ∨ count ≤ server then s.answer m eConfig []
    else (s.modHeat hi (fun h => { h with pipe := { h.pipe with
      qps := h.pipe.qps.map (fun q => if q.port = port ∧ q.server = server then { q with err := false } else q) } })).answer m 0 [])

/-! QUERY. -/

/-- Silicon revision B1 (R442). -/
def revision : Bytes := ascii "B1"
/-- The number of a module state (R402). -/
def ModuleState.num : ModuleState → Nat
  | .boot => 0
  | .awaitFw => 1
  | .ready => 2
  | .recovery => 3
  | .halted => 4
/-- The number of a heat state (R402). -/
def HeatPhase.num : HeatPhase → Nat
  | .free => 0
  | .loading => 1
  | .loaded => 2
  | .running => 3
  | .stopped => 4
/-- The image digest of a heat; zero for none (R402, R404). -/
def Heat.digest (h : Heat) : Bytes := (h.image.map Program.digest).getD (List.replicate 32 0)
/-- The heat record of STATUS (R402). -/
def Heat.record (h : Heat) : Bytes :=
  let flag := fun (b : Option Bool) (v : Nat) => if b.getD false then v else 0
  let flags := flag (h.image.map Program.freeOrder) 1 + flag (h.image.map Program.floatAtomics) 2 + (if h.hu.orphanStop then 4 else 0)
  natLE 1 h.phase.num ++ natLE 1 flags ++ natLE 1 h.status ++ [0] ++ natLE 2 h.ownId ++ natLE 2 ((h.job.map Job.modules).getD 0)
    ++ h.digest ++ natLE 8 h.hu.step ++ natLE 8 h.hu.count ++ List.replicate 8 0
/-- The generation of the running configuration, 0 for none. -/
def Boot.generation (b : Boot) : Nat := (b.config.map configGen).getD 0
/-- The STATUS reply (R402). -/
def State.statusBody (s : State) : Bytes :=
  let b := s.com.boot
  let m := s.com.mgmt
  let strap := fun (f : Straps → Nat) => natLE 1 ((b.straps.map f).getD 0)
  natLE 4 b.fwVersion ++ bytesAt b.fwDigest 0 32 ++ natLE 4 b.generation ++ natLE 1 b.slot ++ strap Straps.memMode ++ strap Straps.feedId
    ++ strap Straps.slotId ++ revision ++ natLE 1 b.order ++ natLE 1 b.state.num ++ natLE 8 m.nextReport
    ++ natLE 8 (m.nextReport - m.reports.length) ++ natLE 8 m.dropped ++ natLE 1 (m.sessions.countP (fun k => k.phase == .attached))
    ++ List.replicate 7 0 ++ s.heats.toList.flatMap Heat.record
/-- QUERY STATUS (R402). -/
def State.serveStatus (m : Msg) (s : State) : State :=
  if m.body.length < 4 ∨ queryKind m ≠ 0 then s.answer m eConfig [] else s.onQuery m (s.answer m 0 s.statusBody)

/-- One INVENTORY entry (R403). -/
def invEntry (source : Nat) (notIndep : Bool) (owner step : Nat) : Bytes :=
  natLE 32 (source + (if notIndep then 16 else 0) + owner * 2 ^ 16 + step % 2 ^ 64 * 2 ^ 32)
/-- The module whose relay partner this one is (R260). -/
def Program.wardOf (p : Program) (own : Nat) : Nat := ((List.range p.moduleCount).find? (fun m => p.partner m == own)).getD 0
/-- The copies of one heat (R348, R403). -/
def State.inventory (s : State) (hi : Fin 4) : List Bytes :=
  let h := s.heat hi
  let forced := (h.image.map Program.forceSameFeed).getD false
  let own := h.ck.digests.map (fun d => invEntry 1 forced h.ownId d.1)
  let ward := match h.image with
    | some p => p.wardOf h.ownId
    | none => 0
  let halves := (h.ck.halves.toList.filter Half.valid).map (fun x => invEntry 2 forced ward x.step)
  let flash := s.com.store.slots.filter (fun x => s.slotLive x && x.heat == hi.val)
  let local_ := flash.map (fun x => invEntry 3 (bitAt (leAt x.piece 4 1) 4) (fld (leAt x.piece 32 2) 11 0) x.step)
  own ++ halves ++ local_ ++ h.ck.gens.map (fun g => invEntry 4 false h.ownId g.2)
/-- QUERY INVENTORY: of the heat named, or of every heat (R403). -/
def State.serveInventory (m : Msg) (s : State) : State :=
  s.onQuery m (
    let es := match (List.finRange 4)[msgHeat m]? with
      | some hi => s.inventory hi
      | none => (List.finRange 4).flatMap s.inventory
    s.answer m 0 (natLE 4 es.length ++ List.replicate 12 0 ++ es.flatten))

/-- The quote (R404). -/
def State.quote (s : State) (heat : Nat) (nonce : Bytes) : Bytes :=
  let b := s.com.boot
  let digest := match (List.finRange 4)[heat]? with
    | some hi => (s.heat hi).digest
    | none => List.replicate 32 0
  let q := natLE 4 0x3154515A ++ natLE 4 b.fwVersion ++ revision ++ natLE 1 heat ++ [0] ++ natLE 4 b.generation ++ bytesAt b.fwDigest 0 32
    ++ sha256 (bytesAt (b.config.getD []) 0 1344) ++ digest ++ bytesAt nonce 0 32 ++ bytesAt Config.serial 0 16 ++ natLE 8 s.micros
  bytesAt q 0 256
/-- QUERY ATTEST (R337, R401, R404). -/
def State.serveAttest (m : Msg) (s : State) : State :=
  if m.body.length < 48 then s.answer m eConfig []
  else s.onQuery m (
    if s.com.boot.security ≠ .up then s.answer m eAuth []
    else
      let q := s.quote (msgHeat m) (bytesAt m.body 16 32)
      s.useFree.answer m 0 (q ++ bytesAt (Config.deviceSignature s.free q) 0 17088 ++ bytesAt Config.deviceKey 0 32
        ++ bytesAt Config.serial 0 16 ++ bytesAt Config.certificate 0 7856))

/-! QUERY COUNTERS (R410). -/

/-- One counter of a snapshot. -/
def ctrBytes (ctrs : List (Nat × Nat)) (group inst : Nat) (idx : Nat) (kind : CtrKind) (more : Nat) : Bytes :=
  let v := amGet ctrs (ctrKey group inst idx 0)
  match kind with
  | .error => natLE 8 (if v < 2 ^ 32 then v else 2 ^ 33 - 1)
  | .level => natLE 8 (wrap 64 (sgn 32 v))
  | .hist => (List.range 16).flatMap (fun k => natLE 4 (amGet ctrs (ctrKey group inst idx (k + 1))))
      ++ natLE 8 (amGet ctrs (ctrKey group inst idx 17))
  | _ => natLE 8 (v + more)
/-- Ticks of the pacing state a cluster is in that its counter does not hold yet (R409). -/
def State.runningTicks (s : State) (group inst idx : Nat) : Nat :=
  match (List.finRange 64)[inst]? with
  | some c => if group = 1 ∧ idx = 18 + (s.cl c).pc.st.num then (s.now - (s.cl c).pc.since) / 64 else 0
  | none => 0
/-- One instance of a snapshot: its tick stamp and its counters (R408, R410). -/
def State.instanceBytes (s : State) (group inst : Nat) : Bytes :=
  natLE 8 s.ticks ++ ((ctrKinds group).mapIdx (fun i k => ctrBytes s.com.ctrs group inst i k (s.runningTicks group inst i))).flatten
/-- Bytes of one instance of a group. -/
def instanceSize (group : Nat) : Nat := 8 + ((ctrKinds group).map (fun k => if k = .hist then 72 else 8)).sum
/-- QUERY COUNTERS SNAPSHOT; a reserved sub-kind is refused (R11, R408 to R410). -/
def State.serveSnapshot (m : Msg) (s : State) : State :=
  let group := leAt m.body 8 1
  let first := leAt m.body 10 2
  let n := leAt m.body 12 2
  if m.body.length < 14 ∨ querySub m ≠ 0 ∨ leAt m.body 9 1 ≠ 0 ∨ group = 0 ∨ 9 < group then s.answer m eConfig []
  else s.onQuery m (
    if ctrInstances s.com.boot.order group < first + n ∨ mib < n * instanceSize group then s.answer m eLimit []
    else s.answer m 0 ((List.range n).flatMap (fun i => s.instanceBytes group (first + i))))
/-- A split record (R412). -/
def SplitRec.bytes (r : SplitRec) : Bytes :=
  natLE 64 (r.seq % 2 ^ 64 + r.cmdId * 2 ^ 64 + r.opcode * 2 ^ 80 + r.queue * 2 ^ 88 + r.hurdle * 2 ^ 96 + r.startT % 2 ^ 64 * 2 ^ 128
    + r.endT % 2 ^ 64 * 2 ^ 192 + r.busy * 2 ^ 256 + r.waitChan * 2 ^ 288 + r.waitMem * 2 ^ 320 + r.waitBank * 2 ^ 352
    + r.doneDelta % 2 ^ 48 * 2 ^ 384 + r.paceStart * 2 ^ 432 + r.paceEnd * 2 ^ 435 + r.status * 2 ^ 440)
/-- QUERY COUNTERS SPLITS (R410, R412). -/
def State.serveSplits (m : Msg) (s : State) : State :=
  if m.body.length < 24 ∨ leAt m.body 9 7 ≠ 0 then s.answer m eConfig []
  else s.onQuery m (match (List.finRange 64)[leAt m.body 8 1]? with
    | none => s.answer m eLimit []
    | some c =>
      let k := s.cl c
      let rs := (k.splits.filter (fun r => leAt m.body 16 8 ≤ r.seq)).take 1024
      s.answer m 0 (natLE 8 k.splitDropped ++ rs.flatMap SplitRec.bytes))
/-- Byte of a dump before its digest: the magic, then what it shows, whose layout inside a section is not stated (R422; free, log 26). -/
def dumpBody (d : Dump) (off : Nat) : Byte := if off < 4 then (natLE 4 0x3150445A).getD off 0 else Config.dumpByte d.stamp off
/-- Byte of a dump: it ends in the SHA-256 of every byte before (R422). -/
def dumpByteAt (d : Dump) (off : Nat) : Byte :=
  if d.total ≤ off + 32 then (sha256 ((List.range (d.total - 32)).map (dumpBody d))).getD (off + 32 - d.total) 0 else dumpBody d off
/-- QUERY COUNTERS DUMP (R410, R421). -/
def State.serveDump (m : Msg) (s : State) : State :=
  let off := leAt m.body 16 8
  let n := leAt m.body 24 4
  if m.body.length < 28 ∨ leAt m.body 9 7 ≠ 0 then s.answer m eConfig []
  else s.onQuery m (match s.com.store.dumps.find? (fun d => d.slot == leAt m.body 8 1) with
    | none => s.answer m eConfig []
    | some d => if mib < n ∨ d.len < off + n then s.answer m eLimit []
      else (if d.slot = 0xFF then s else s.countRead n).answer m 0 ((List.range n).map (fun i => dumpByteAt d (off + i))))
/-- READ_LIFELOG (R370, R400, R413); while the security core is down it cannot be served (DESIGN CHOICE, log 27). -/
def State.serveLifelog (m : Msg) (s : State) : State :=
  let off := leAt m.body 0 8
  let n := leAt m.body 8 4
  if m.body.length < 12 then s.answer m eConfig []
  else if s.com.boot.security ≠ .up then s.answer m eAuth []
  else if mib < n ∨ 992 * 4096 < off + n then s.answer m eLimit []
  else s.answer m 0 (s.flashGet (0x20000 + off) n)

/-! Serving what was queued (R391, R392). -/

/-- Serve one message row. -/
def State.serveInstr (i : Instr) (s : State) : State :=
  match i with
  | .detach m => s.serve m (State.serveDetach m)
  | .loadFw m ok => s.serve m (State.serveLoadFw m ok)
  | .writeConfig m ok => s.serve m (State.serveWriteConfig m ok)
  | .resetHeat m => s.serve m (State.serveResetHeat m)
  | .resetModule m => s.serve m (State.serveResetModule m)
  | .loadImage m => s.serve m (State.serveLoadImage m)
  | .start m => s.serve m (State.serveStart m)
  | .stopAtHurdle m => s.serve m (State.serveStop m)
  | .checkpointNow m => s.serve m (State.serveCheckpoint m)
  | .rearm m => s.serve m (State.serveRearm m)
  | .queryStatus m => s.serve m (State.serveStatus m)
  | .queryInventory m => s.serve m (State.serveInventory m)
  | .queryAttest m => s.serve m (State.serveAttest m)
  | .snapshot m => s.serve m (State.serveSnapshot m)
  | .splits m => s.serve m (State.serveSplits m)
  | .queryDump m => s.serve m (State.serveDump m)
  | .readLifelog m => s.serve m (State.serveLifelog m)
  | _ => s
/-- The scheduler core is back: lease clocks go on from where they stood, and what was queued is served in order of arrival (R391, R392); fuel
bounds the queue. -/
def State.serveQueue : Nat → State → State
  | 0, s => s
  | n + 1, s => match s.com.mgmt.queue with
    | [] => s
    | i :: rest => State.serveQueue n (State.serveInstr i (s.modMgmt (fun g => { g with queue := rest })))
/-- Lease clocks that stood while the scheduler core was down (R391). -/
def State.resumeLeases (s : State) : State :=
  s.modMgmt (fun g => { g with sessions := g.sessions.map (fun k => { k with lease := k.lease + (s.now - max k.lease s.com.boot.schedAt) }) })

/-! The rows. -/

/-- DETACH. -/
def execDetach (m : Msg) (s : State) : Result := s.takeReq m (.detach m) (State.serveDetach m)
/-- LOAD_FW. -/
def execLoadFw (m : Msg) (sigOk : Bool) (s : State) : Result := s.takeReq m (.loadFw m sigOk) (State.serveLoadFw m sigOk)
/-- WRITE_CONFIG. -/
def execWriteConfig (m : Msg) (sigOk : Bool) (s : State) : Result := s.takeReq m (.writeConfig m sigOk) (State.serveWriteConfig m sigOk)
/-- RESET, scope HEAT. -/
def execResetHeat (m : Msg) (s : State) : Result := s.takeReq m (.resetHeat m) (State.serveResetHeat m)
/-- RESET, scope MODULE. -/
def execResetModule (m : Msg) (s : State) : Result := s.takeReq m (.resetModule m) (State.serveResetModule m)
/-- LOAD_IMAGE. -/
def execLoadImage (m : Msg) (s : State) : Result := s.takeReq m (.loadImage m) (State.serveLoadImage m)
/-- START. -/
def execStart (m : Msg) (s : State) : Result := s.takeReq m (.start m) (State.serveStart m)
/-- STOP_AT_HURDLE. -/
def execStopAtHurdle (m : Msg) (s : State) : Result := s.takeReq m (.stopAtHurdle m) (State.serveStop m)
/-- CHECKPOINT_NOW. -/
def execCheckpointNow (m : Msg) (s : State) : Result := s.takeReq m (.checkpointNow m) (State.serveCheckpoint m)
/-- REARM. -/
def execRearm (m : Msg) (s : State) : Result := s.takeReq m (.rearm m) (State.serveRearm m)
/-- QUERY STATUS. -/
def execQueryStatus (m : Msg) (s : State) : Result := s.takeReq m (.queryStatus m) (State.serveStatus m)
/-- QUERY INVENTORY. -/
def execQueryInventory (m : Msg) (s : State) : Result := s.takeReq m (.queryInventory m) (State.serveInventory m)
/-- QUERY ATTEST. -/
def execQueryAttest (m : Msg) (s : State) : Result := s.takeReq m (.queryAttest m) (State.serveAttest m)
/-- QUERY COUNTERS, SNAPSHOT. -/
def execSnapshot (m : Msg) (s : State) : Result := s.takeReq m (.snapshot m) (State.serveSnapshot m)
/-- QUERY COUNTERS, SPLITS. -/
def execSplits (m : Msg) (s : State) : Result := s.takeReq m (.splits m) (State.serveSplits m)
/-- QUERY COUNTERS, DUMP. -/
def execQueryDump (m : Msg) (s : State) : Result := s.takeReq m (.queryDump m) (State.serveDump m)
/-- READ_LIFELOG. -/
def execReadLifelog (m : Msg) (s : State) : Result := s.takeReq m (.readLifelog m) (State.serveLifelog m)

end Sys2Proof.Machine
end

