-- ==== Sys2Proof/Machine/Boot.lean ====
section
/-! DEFINITION. The boot sequence (R370 to R374, R433): PWR_GOOD, straps, the flash read, links, drives and READY. -/
namespace Sys2Proof.Machine

/-- PWR_GOOD rises after the last rail, and boot begins (R353, R370, R417, R434). -/
def execPwrGood (s : State) : Result :=
  if s.com.pw.rail = 8 ∧ !s.com.pw.good then .next (s.reboot.modPw (fun p => { p with good := true, rising := false })) else .next s

/-- The module stops in HALTED (R371, R433). -/
def State.halt (s : State) : State := (s.modBoot (fun b => { b with state := .halted })).alert 5
/-- The order code the board's straps carry: 1 ZN4-L128, 2 ZN4-L64, 3 ZN4-G48, whose MEM_DENS is ignored (R431, R442; DEDUCED, log 6). -/
def strapOrder (x : Straps) : Nat := if x.memMode = 1 then 3 else if x.memDens = 1 then 2 else 1
/-- Eight samples of the straps, 100 µs apart: latched where they agree; HALTED where none have within 100 ms (R433). -/
def execStrapLatch (samples : List Straps) (s : State) : Result :=
  if samples.length = 8 then
    let b := s.com.boot
    if !s.com.pw.good || b.straps.isSome || b.strapFail || b.flashRead then .next s
    else
      let s := s.reach (s.now + 8 * 100 * micro)
      match samples with
      | x :: rest =>
        if rest.all (· == x) then .next (s.modBoot (fun b => { b with straps := some x, order := strapOrder x }))
        else if 100 * milli ≤ s.now then .next (s.modBoot (fun b => { b with strapFail := true })).halt
        else .next s
      | [] => .next s
  else .fault .illFormed

/-- The slot a boot selects: 0 A, 1 B, none where neither is valid (R374). -/
def selectSlot (a b : Bytes) (validA validB : Bool) : Option Nat :=
  match validA, validB with
  | true, true => if configGen a < configGen b then some 1 else some 0
  | true, false => some 0
  | false, true => some 1
  | false, false => none
/-- The single flash read completes (R5, R370 to R374): readOk says that the flash answered, sigA and sigB that the signatures verify. -/
def execFlashReadDone (readOk sigA sigB : Bool) (s : State) : Result :=
  let b := s.com.boot
  if !s.com.pw.good || b.flashRead || (b.straps.isNone && !b.strapFail) then .next s
  else
    let s := s.reach (66 * milli)
    let imgA := s.flashGet 0 configSize
    let imgB := s.flashGet 0x10000 configSize
    let pick := if readOk then selectSlot imgA imgB (configValid imgA sigA) (configValid imgB sigB) else none
    match pick with
    | none => .next ((s.modBoot (fun b => { b with flashRead := true, state := .recovery, slot := 0xFF, config := none })).alert 5)
    | some slot =>
      let img := if slot = 0 then imgA else imgB
      let s := s.modBoot (fun b => { b with flashRead := true, slot := slot, config := some (img.take 1344) })
      if b.strapFail then .next s
      else if (b.straps.map Straps.memMode).getD 0 ≠ s.com.boot.setting 0 0 then .next s.halt
      else .next (s.modBoot (fun b => { b with state := .awaitFw }))

/-- The management port's link comes up (R370, R372). -/
def execManagementPortLinkUp (s : State) : Result :=
  if s.com.boot.flashRead then .next (s.modMgmt (fun m => { m with link := true })) else .next s
/-- A feed port's link comes up, at boot or before its retirement (R275, R370). -/
def execFeedPortLinkUp (fp : Fin 2) (s : State) : Result :=
  if s.com.boot.flashRead && !s.com.feed[fp].retired then .next (s.modFeed fp (fun k => { k with up := true, downSince := none }))
  else .next s
/-- A drive is ready (R370). -/
def execNvmeDriveReady (d : Fin 2) (s : State) : Result :=
  if s.com.boot.flashRead && !s.com.store.drives[d].retired then .next (s.modDrive d (fun k => { k with ready := true })) else .next s

/-- A drive retires (R332): a write to local flash that both drives would have carried ends. -/
def State.retireDrive (s : State) (d : Fin 2) : State :=
  if s.com.store.drives[d].retired || s.clockLost then s
  else (s.modDrive d (fun k => { k with retired := true })).noteRetired 10 d.val 0xFF
/-- A drive is not ready within 2 s (R371). -/
def execNvmeReadyTimeout (d : Fin 2) (s : State) : Result :=
  if s.com.boot.flashRead && !s.com.store.drives[d].ready then .next ((s.reach (2 * second)).retireDrive d) else .next s

/-- Memory training has ended: every channel is trained or retired (R188, R370). -/
def State.trained (s : State) : Bool :=
  (s.com.chans.toList.take (12 * s.positionChans)).all (fun c => c.up || c.retired)
/-- Firmware runs and training is over: REPORT READY (R370, R393). -/
def execReady (s : State) : Result :=
  let b := s.com.boot
  if b.state = .awaitFw ∧ b.scheduler = .up ∧ !b.readySent ∧ s.trained then
    let s := (s.reach (b.loadedAt + 60 * milli)).modBoot (fun b => { b with state := .ready, readySent := true })
    .next (s.report 0x01 0xFF 0 0 (natLE 4 b.fwVersion))
  else .next s

end Sys2Proof.Machine
end

