-- ==== Sys2Proof/Machine/PaceCore.lean ====
section
/-! DEFINITION. How a cluster's supply is set (R28, R356, R357, R361, R365, R367 to R369). -/
namespace Sys2Proof.Machine

/-- Five times the typical rate at 65 C in M stages/s, for a setpoint in mV that is a multiple of 10 (R28). -/
def tab5 (mv : Nat) : Nat :=
  let rows := [680, 920, 1150, 1390, 1600, 1790, 1950]
  let i := (mv - 550) / 50
  5 * rows.getD i 1950 + (mv - 550) % 50 / 10 * (rows.getD (i + 1) 1950 - rows.getD i 1950)
/-- The setpoint a STRIDE block needs, in mV (R361): the temperature factor of R28 cancels out of pred. -/
def strideMv (frac r75 : Nat) : Nat :=
  (((List.range 20).map (fun i => 550 + 10 * i)).find? (fun v =>
    5 * 1600 * frac * r75 * 102 ≤ 256 * 100 * r75 * tab5 v)).getD 750
/-- A setting of the configuration image, or its default where no configuration is in force (R369, R376). -/
def State.powerSetting (s : State) (hi lo default : Nat) : Nat := if s.com.boot.config.isSome then s.com.boot.setting hi lo else default
/-- pacing = 1, the default (R369). -/
def State.pacingOn (s : State) : Bool := s.powerSetting 13 13 1 == 1
/-- power_limit_w, 2,000 W by default (R364, R369). -/
def State.limitW (s : State) : Nat := s.powerSetting 27 16 2000
/-- The effective power limit in W, under the brown-out cap (R355, R364). -/
def State.powerLimit (s : State) : Nat := if s.com.pw.brownOut then min s.limitW 1200 else s.limitW
/-- The setpoint of a cluster for active work, in mV (R361, R365, R368, R369): with pacing off every cluster is held at 0.75 V (DEDUCED,
log 154); the hardware floor holds every one there too (R367). Shedding takes its steps off what the caps leave. -/
def State.setpoint (s : State) (k : Pacing) : Nat :=
  if s.com.pw.floor || !s.pacingOn then 750
  else
    let base := match k.pace with
      | 0 => k.ceiling
      | 2 => min 850 (strideMv k.frac k.rate75 + k.raised)
      | _ => 750
    let v := min base s.com.pw.capMv
    let v := if k.noSprint then min v 750 else v
    let v := if k.cap700 then min v 700 else v
    max 550 (v - k.shed)
/-- The supply a sleeping cluster is held at for Jog: the last active setpoint, lowered where R365 or R368 lowers every cluster or this one
(R357; DEDUCED, log 154). -/
def State.heldMv (s : State) (k : Pacing) : Nat :=
  if s.com.pw.floor then 750
  else if !s.pacingOn then k.active
  else
    let v := min k.active s.com.pw.capMv
    if k.cap700 then min v 700 else v
/-- A cluster in Jog, Walk or Rest. -/
def PaceState.asleep : PaceState → Bool
  | .sprint | .stride => false
  | _ => true
/-- Change the pacing state of a cluster, counting the ticks of the state it leaves (R409). -/
def State.setPace (s : State) (c : Fin 64) (st : PaceState) (move : PaceMove) : State :=
  let k := (s.cl c).pc
  (s.bump 1 c.val (18 + k.st.num) ((s.now - k.since) / 64)).modCl c (fun t => { t with pc := { t.pc with st := st, move := move, since := s.now } })
/-- Write a cluster's setpoint; one at work is in Sprint from 750 mV on, else in Stride (R357). A retired cluster is power-gated (R335). -/
def State.applyPace (s : State) (c : Fin 64) : State :=
  let k := (s.cl c).pc
  if (s.cl c).retired then s
  else
  let v := if k.st.asleep then s.heldMv k else s.setpoint k
  let s := (s.modCl c (fun t => { t with pc := { t.pc with active := v } })).setLevel 1 c.val 29 v
  let st := if 750 ≤ v then PaceState.sprint else .stride
  if (k.st = .sprint ∨ k.st = .stride) ∧ k.st ≠ st then s.setPace c st k.move else s
/-- A Sprint ceiling is granted: none above 750 mV while the limit is reached or the hardware limit acts (R365, R366). -/
def State.grantSprint (s : State) (c : Fin 64) : State :=
  let top := s.powerSetting 41 32 850
  let tight := s.powerLimit ≤ s.com.pw.pin + 50 || s.com.pw.pause != 0 || s.com.pw.floor
  let v := if tight then 750 else max 750 (min (min top 850) (Config.sprintGrant s.free) / 10 * 10)
  let s := if tight then s else s.useFree
  (s.modCl c (fun t => { t with pc := { t.pc with ceiling := v } })).bump 1 c.val 23 (if 750 < v then 1 else 0)
/-- The power core sets a cluster's supply from its pace; while it is down the regulators hold their setpoints (R337, R361). -/
def State.pace (s : State) (c : Fin 64) : State :=
  if s.com.boot.power ≠ .up ∨ (s.cl c).retired = true then s
  else (if (s.cl c).pc.pace = 0 ∧ s.pacingOn = true then s.grantSprint c else s).applyPace c
/-- A block issues: its pace sets the supply (R358, R361). entry is its NEXT_EVENT entry. -/
def State.blockPace (s : State) (c : Fin 64) (entry : Nat) : State :=
  (s.modCl c (fun t => { t with pc := { t.pc with pace := fld entry 1 0, frac := fld entry 15 8, raised := 0 } })).pace c
/-- Every cluster's supply, in cluster order (R365). -/
def State.applyAll (s : State) : State := (List.finRange 64).foldl (fun s c => s.applyPace c) s
/-- Time to enter an idle state (R357). -/
def PaceState.entry : PaceState → Nat
  | .jog => 100
  | .walk => 2 * micro
  | .rest => 10 * micro
  | _ => 0
/-- Time to leave it (R357). -/
def PaceState.exit : PaceState → Nat
  | .jog => 200
  | .walk => 2 * micro
  | .rest => 40 * micro
  | _ => 0
/-- Exit from an idle state begins, an entry under way stopping where it is (R362). -/
def State.beginExit (s : State) (c : Fin 64) : State :=
  let k := (s.cl c).pc
  let leaving := match k.move with
    | .leaving _ => true
    | _ => false
  if k.st.asleep && !leaving && !(s.cl c).retired then
    s.modCl c (fun t => { t with pc := { t.pc with move := .leaving (s.now + t.pc.st.exit), exitAt := none } })
  else s
/-- A retired cluster is power-gated: its supply is off and nothing paces it again (R335). -/
def State.powerGate (s : State) (c : Fin 64) : State :=
  ((s.setPace c .rest .settled).modCl c (fun k => { k with pc := { k.pc with active := 0, idleSince := none, gap := none, exitAt := none } })).setLevel
    1 c.val 29 0

end Sys2Proof.Machine
end

