-- ==== Sys2Proof/Machine/Restart.lean ====
section
/-! DEFINITION. Restarts of clusters and firmware cores, and the retirement of a cluster (R333, R335 to R338). -/
namespace Sys2Proof.Machine

/-- A cluster retires: power-gated, reported, and its pair is asked to fold, or the job to stop where the pair is gone (R335, R336). -/
def State.retireCluster (s : State) (c : Fin 64) : State :=
  let s := (s.powerGate c).modCl c (fun k => { k with
    retired := true, queues := Vector.replicate 4 [], core := { k.core with running := false, restarting := false } })
  match s.heatOfCl c with
  | none => s.noteRetired 9 c.val 0xFF
  | some (hi, own) =>
    let s := s.noteRetired 9 c.val hi.val
    let mate := (s.heat hi).clusterList[if own % 2 = 0 then own + 1 else own - 1]?
    if (mate.map (fun m => (s.cl m).retired)).getD false then s.request hi 6 eRetired else s.request hi 4 0
/-- A cluster restarts: its engines, queues and control core stop until the scheduler core has brought them back; a second restart within
100 steps of the first retires it (R333, R337). -/
def State.restartCluster (s : State) (c : Fin 64) : State :=
  let k := s.cl c
  if k.retired || k.core.restarting then s
  else
    let step := match s.heatOfCl c with
      | some (hi, _) => (s.heat hi).hu.step
      | none => 0
    let s := s.bump 1 c.val 25
    if (k.firstRestart.map (fun f => decide (step < f + 100))).getD false then s.retireCluster c
    else s.modCl c (fun k => { k with
      queues := Vector.replicate 4 [], firstRestart := some step
      core := { k.core with running := false, restarting := true, issued := [], sums := [] } })
/-- The restart of a firmware core is reported, recorded and counted (R393, R409, R417): 0 control, 1 scheduler, 2 power, 3 security. -/
def State.noteCore (s : State) (core unit heat : Nat) : State :=
  let s := (s.bump 9 0 (6 + core)).report 0x0B heat 0 0 (natLE 1 core ++ natLE 1 unit)
  s.journal 5 0 0 unit core
/-- A control core has crashed: its cluster restarts (R337, R443). -/
def State.crashControl (s : State) (c : Fin 64) : State :=
  if (s.cl c).retired || (s.cl c).core.restarting then s
  else (s.noteCore 0 c.val ((s.heatOfCl c).map (fun h => h.1.val) |>.getD 0xFF)).restartCluster c
/-- A cluster's restart is done: its function tables come back from the image, and the step is a false start (R333). -/
def State.restartDone (s : State) (c : Fin 64) : State :=
  if (s.cl c).core.restarting && s.com.boot.scheduler == .up then
    let n := s.free
    let s := s.useFree.modCl c (fun k => { k with rt := { k.rt with stamp := n }, core := { k.core with restarting := false } })
    match s.heatOfCl c with
    | none => s
    | some (hi, own) =>
      match (s.heat hi).image with
      | some p => (s.modCl c (fun k => { k with fnTab := Mem.put [] 0 (p.sec 0x0A own) })).request hi 2 0
      | none => s
  else s

end Sys2Proof.Machine
end

