-- ==== Sys2Proof/Machine/ControlCore.lean ====
section
/-! DEFINITION. The control core and the stream fetcher: blk_issue (R40, R257), fetching (R40), encode requests (R324), summaries (R151,
R152) and every other instruction (R443, R444). -/
namespace Sys2Proof.Machine

/-! The instruction at the pc. -/

/-- The site of a cluster whose control core may take its next instruction. -/
def State.coreSite (s : State) (c : Fin 64) : Option Site :=
  let k := s.cl c
  if k.core.running && !k.core.restarting && !k.frozen && !k.retired && k.awake then s.site c else none
/-- The instruction at the pc and its length; none for a fetch that traps (R443). -/
def Cluster.fetch (k : Cluster) : Option (RvIns × Nat) :=
  if k.core.pc.toNat % 2 = 0 then decodeAt k.imem 0x10000 k.core.pc.toNat else none
/-- The control core goes on after an instruction, rd written. -/
def Cluster.retire (k : Cluster) (rd : Nat) (v : Word) (len : Nat) : Cluster :=
  { k with core := { k.core with pc := k.core.pc + BitVec.ofNat 32 len, regs := xw k.core.regs rd v } }
/-- The value a CSR write carries. -/
def Cluster.csrValue (k : Cluster) (src : Nat) (isImm : Bool) : Nat := if isImm then src else (xr k.core.regs src).toNat
/-- Run a step of the control core where it may take one and the instruction is of the row. -/
def State.onCore (s : State) (c : Fin 64) (go : State → Site → RvIns → Nat → State) : Result :=
  match s.coreSite c, (s.cl c).fetch with
  | some x, some (i, len) => .next ((go s x i len).refreshHeld x.h)
  | _, _ => .next s

/-! Streams. -/

/-- The memory address of a cluster's command stream now (R37, R48). -/
def State.streamBase (s : State) (x : Site) : Nat := x.prog.streamAddr ((s.heat x.h).alone x.own) x.own
/-- block_count of a stream in memory (R40). -/
def streamBlocks (sp : Space) (base : Nat) : Except Nat Nat := sp.num base 4
/-- First command and count of a block (R40). -/
def streamBlock (sp : Space) (base b : Nat) : Except Nat (Nat × Nat) := do
  .ok (← sp.num (base + 4 + 8 * b) 4, ← sp.num (base + 8 + 8 * b) 4)
/-- Command i of a stream (R40). -/
def streamCmd (sp : Space) (base i : Nat) : Except Nat Nat := do
  let n ← streamBlocks sp base
  sp.num (base + roundUp (4 + 8 * n) 32 + 32 * i) 32
/-- An error that no command carries stops the cluster as R44 says. -/
def State.failCluster (s : State) (c : Fin 64) (x : Site) (status : Nat) : State :=
  (s.modCl c (fun k => { k with halted := some status })).request x.h 6 status
/-- The NEXT_EVENT entry of a block; a fold stream has none, so every field at its default (R358; DEDUCED, log 15). -/
def State.eventOf (s : State) (x : Site) (b : Nat) : Nat :=
  if (s.heat x.h).alone x.own then 1 + 0xFFFFFFFF * 2 ^ 16 else x.prog.nextEvent x.own b
/-- The fate of a blk_issue write: the block ends in a HURDLE or not, or the status that stops the cluster. -/
def issueBlock (sp : Space) (base b : Nat) : Except Nat Bool := do
  let n ← streamBlocks sp base
  demand (b < n) eLimit
  let (first, count) ← streamBlock sp base b
  let last ← streamCmd sp base (first + count - 1)
  .ok (cmdOp last == 0x32)
/-- blk_issue stalls: four issued blocks are not fetched, or a HURDLE is open, or the cluster issues no further command (R40, R44, R257). -/
def Cluster.issueStalls (k : Cluster) : Bool := 4 ≤ k.core.issued.length || k.core.hurdleOpen || k.halted.isSome

/-- A write of blk_issue (R40, R257, R361). -/
def execBlkIssue (c : Fin 64) (s : State) : Result :=
  s.onCore c (fun s x i len => match i with
    | .blkIssue rd src isImm =>
      let k := s.cl c
      if k.issueStalls then s
      else
        let b := k.csrValue src isImm
        match issueBlock (s.space x) (s.streamBase x) b with
        | .error st => s.failCluster c x st
        | .ok hurdle =>
          (s.modCl c (fun k =>
            let core := { k.core with
              issued := k.core.issued ++ [⟨k.core.issueCount, b, 0⟩], issueCount := k.core.issueCount + 1, hurdleOpen := hurdle }
            ({ k with core := core } : Cluster).retire rd 0 len)).blockPace c (s.eventOf x b)
    | _ => s)

/-- The fetcher places the next command of the oldest issued block on its engine's queue (R40). -/
def execStreamFetch (c : Fin 64) (s : State) : Result :=
  let k := s.cl c
  match s.coreSite c, k.core.issued with
  | some x, b :: rest =>
    let sp := s.space x
    let base := s.streamBase x
    match (do
      let e ← streamBlock sp base b.blk
      let raw ← streamCmd sp base (e.1 + b.next)
      .ok (e.2, raw) : Except Nat (Nat × Nat)) with
    | .error st => .next ((s.failCluster c x st).refreshHeld x.h)
    | .ok (count, raw) =>
      match opQueue (cmdOp raw) with
      | none => .next ((s.failCluster c x eDesc).refreshHeld x.h)
      | some q =>
        if k.halted.isSome || 16 ≤ k.queues[q].length then .next s
        else
          let last := b.next + 1 == count
          let e : QEntry := ⟨k.nextOrd, b.iss, b.blk, last, raw, .waiting, 0, 0⟩
          let core := { k.core with issued := if last then rest else { b with next := b.next + 1 } :: rest }
          let k := { k with queues := k.queues.set q (k.queues[q] ++ [e]), nextOrd := k.nextOrd + 1, core := core }
          .next ((s.setCl c k).refreshHeld x.h)
  | _, _ => .next s

/-! Encode requests (R324, R326, R329, R396). -/

/-- A write of enc_issue: stalls with two requests outstanding (R324). -/
def execEncIssue (c : Fin 64) (s : State) : Result :=
  s.onCore c (fun s _ i len => match i with
    | .encIssue rd src isImm =>
      let k := s.cl c
      if 2 ≤ k.core.encs.length then s
      else s.modCl c (fun k =>
        let core := { k.core with encs := k.core.encs ++ [⟨k.csrValue src isImm, k.core.issueCount, .queued, []⟩] }
        ({ k with core := core } : Cluster).retire rd 0 len)
    | _ => s)
/-- A read of enc_wait: stalls until the oldest request is complete; E_DESC at once with none outstanding (R324). -/
def execEncWait (c : Fin 64) (s : State) : Result :=
  s.onCore c (fun s _ i len => match i with
    | .encWait rd => match (s.cl c).core.encs with
      | [] => s.modCl c (fun k => k.retire rd 8 len)
      | r :: rest => match r.phase with
        | .done st => s.modCl c (fun k => ({ k with core := { k.core with encs := rest } } : Cluster).retire rd (BitVec.ofNat 32 st) len)
        | _ => s
    | _ => s)
/-- Encode units of a heat that are live (R311, R328). -/
def State.encUnits (s : State) (h : Heat) : List Nat :=
  h.media.filter (fun u => 20 ≤ u && u < 22 && !((s.com.media.toList.map MediaUnit.retired).getD u true))
/-- An encode unit that runs no request. -/
def State.encFree (s : State) (u : Nat) : Bool :=
  s.clusters.toList.all (fun k => k.core.encs.all (fun r => match r.phase with
    | .running v _ => v != u
    | _ => true))
/-- Every command of every block issued before a request has completed (R324). -/
def Cluster.encReady (k : Cluster) (before : Nat) : Bool :=
  k.core.issued.all (fun b => before ≤ b.iss) && k.queues.toList.all (fun l => l.all (fun e => before ≤ e.iss))
/-- Set the progress of the i-th request. -/
def State.setEnc (s : State) (c : Fin 64) (i : Nat) (ph : EncPhase) : State :=
  s.modCl c (fun k => { k with core := { k.core with encs := k.core.encs.modify i (fun r => { r with phase := ph }) } })
/-- The oldest queued request starts: it reads its 64 bytes (R324), or ends at once where it names none or the heat has no encoder (R326,
R396), or stops the job where every encoder of the share is retired (R329). -/
def execEncodeRequestStart (c : Fin 64) (s : State) : Result :=
  let k := s.cl c
  match s.site c, k.core.encs.findIdx? (fun r => r.phase == .queued) with
  | some x, some i =>
    let r := k.core.encs.getD i ⟨0, 0, .queued, []⟩
    let h := s.heat x.h
    if !k.encReady r.before || k.frozen || k.core.restarting then .next s
    else if 0x1000000 < r.off + 64 then .next (s.setEnc c i (.done eLimit))
    else if h.media.all (fun u => u < 20 || 22 ≤ u) then .next ((s.encStatus c r.off eLimit 0).setEnc c i (.done eLimit))
    else if r.off % 64 ≠ 0 then .next ((s.encStatus c r.off eDesc 0).setEnc c i (.done eDesc))
    else if (s.encUnits h).isEmpty then .next (s.request x.h 6 eRetired)
    else match (s.encUnits h).find? s.encFree with
    | none => .next s
    | some u => .next (s.setEnc c i (.running u (k.store.num r.off 64)))
  | _, _ => .next s
/-- The oldest running request of a cluster completes (R325, R326). -/
def execEncodeComplete (c : Fin 64) (tagFail : Bool) (s : State) : Result :=
  let k := s.cl c
  match s.site c, k.core.encs.findIdx? encBusy with
  | some x, some i =>
    let r := k.core.encs.getD i ⟨0, 0, .queued, []⟩
    match r.phase with
    | .running u q =>
      if k.frozen then .next s else
      let (s, st) := s.encodeEnd c x r.off q tagFail
      .next (((s.setEnc c i (.done st)).bump 6 u 0).bump 6 u 4 (if st = 0 then encW q * encH q * encPics q else 0))
    | _ => .next s
  | _, _ => .next s

/-! Summaries (R151, R152). -/

/-- Take the oldest summary; a vector command that waits for an entry enters its own (R151). -/
def State.takeSum (s : State) (c : Fin 64) (f : Cluster → Word → Cluster) : State :=
  match (s.cl c).core.sums with
  | [] => s
  | w :: rest => (s.modCl c (fun k => f { k with core := { k.core with sums := rest } } w)).drainSum c
/-- sum.get (R152). -/
def execSumGet (c : Fin 64) (s : State) : Result :=
  s.onCore c (fun s _ i len => match i with
    | .sumGet rd => s.takeSum c (fun k w => k.retire rd w len)
    | _ => s)
/-- A bsum instruction of one funct3 (R152). -/
def State.runBsum (s : State) (c : Fin 64) (want : Nat) : Result :=
  s.onCore c (fun s _ i len => match i with
    | .bsum f3 rs2 off =>
      if f3 = want then s.takeSum c (fun k w =>
        let pc := k.core.pc + (if bsumCond f3 w (xr k.core.regs rs2) then off else BitVec.ofNat 32 len)
        { k with core := { k.core with pc := pc } })
      else s
    | _ => s)
/-- bsum.flt (R152). -/
def execBsumFlt (c : Fin 64) (s : State) : Result := s.runBsum c 0
/-- bsum.fge (R152). -/
def execBsumFge (c : Fin 64) (s : State) : Result := s.runBsum c 1
/-- bsum.feq (R152). -/
def execBsumFeq (c : Fin 64) (s : State) : Result := s.runBsum c 2
/-- bsum.fne (R152). -/
def execBsumFne (c : Fin 64) (s : State) : Result := s.runBsum c 3
/-- bsum.nan (R152). -/
def execBsumNan (c : Fin 64) (s : State) : Result := s.runBsum c 4
/-- bsum.ult (R152). -/
def execBsumUlt (c : Fin 64) (s : State) : Result := s.runBsum c 5
/-- bsum.uge (R152). -/
def execBsumUge (c : Fin 64) (s : State) : Result := s.runBsum c 6

/-! Every other instruction. -/

/-- The instruction belongs to a row of its own. -/
def RvIns.ownRow : RvIns → Bool
  | .blkIssue _ _ _ | .encIssue _ _ _ | .encWait _ | .sumGet _ | .bsum _ _ _ => true
  | _ => false
/-- Any other instruction of the program; a trap is a crash of the core (R337, R443, R444). -/
def execControlCoreInstruction (c : Fin 64) (s : State) : Result :=
  match s.coreSite c with
  | none => .next s
  | some x =>
    let k := s.cl c
    match k.fetch with
    | none => .next ((s.crashControl c).refreshHeld x.h)
    | some (i, len) =>
      if i.ownRow then .next s
      else match rvRun i len k.core.pc k.core.regs k.dmem with
      | none => .next ((s.crashControl c).refreshHeld x.h)
      | some (pc, regs, dmem) => .next (s.modCl c (fun k => { k with dmem := dmem, core := { k.core with pc := pc, regs := regs } }))

end Sys2Proof.Machine
end

