-- ==== Sys2Proof/Machine/Faults.lean ====
section
/-! DEFINITION. Faults of clusters and firmware cores (R333, R337, R338), hangs and dumps (R418, R419, R421). -/
namespace Sys2Proof.Machine

/-- The held flag of the heat a cluster belongs to follows (R265). -/
def State.refreshCl (s : State) (c : Fin 64) : State :=
  match s.heatOfCl c with
  | some (hi, _) => s.refreshHeld hi
  | none => s

/-! Clusters (R333, R337). -/

/-- A parity error stops the cluster and restarts it (R333, R409). -/
def execParityError (c : Fin 64) (s : State) : Result :=
  if (s.cl c).retired || (s.cl c).core.restarting then .next s
  else .next (((s.bump 1 c.val 24).restartCluster c).refreshCl c)
/-- A control core crashes (R337, R443). -/
def execControlCoreCrash (c : Fin 64) (s : State) : Result := .next ((s.crashControl c).refreshCl c)

/-! Central cores (R337, R338). -/

/-- The scheduler core crashes: the security core restarts it, unless it is itself down, and then this module is lost (R337, R338). -/
def execSchedulerCrash (s : State) : Result :=
  if s.com.boot.scheduler = .up then
    .next (s.modBoot (fun b => { b with scheduler := if b.security = .up then .restarting else .dead, schedAt := s.now }))
  else .next s
/-- The power core crashes: the regulators hold their setpoints (R337). -/
def execPowerCoreCrash (s : State) : Result :=
  if s.com.boot.power = .up then .next (s.modBoot (fun b => { b with power := if b.security = .up then .restarting else .dead }))
  else .next s
/-- The security core crashes: its watchdog restarts it from boot ROM (R337, R338). -/
def execSecurityCoreCrash (s : State) : Result :=
  if s.com.boot.security = .up then .next (s.modBoot (fun b => { b with security := .restarting })) else .next s

/-- What a heat's GO left owed is done, unless a checkpoint write or a dump still holds it; then the DECIDEs that waited for it (R337, R346,
R419). -/
def State.settleGo (s : State) (hi : Fin 4) : State :=
  let h := s.heat hi
  match h.image with
  | none => s
  | some p =>
    if (h.hu.owed || h.hu.goHeld) && h.phase == .running && s.com.boot.scheduler == .up && !s.frozenHeat hi then
      if (h.hu.lastGo.map h.ck.holds).getD false then
        s.modHu hi (fun u => { u with owed := false, goHeld := true, goHeldAt := if u.goHeld then u.goHeldAt else s.now })
      else ((s.finishGo hi p h.hu.lastGo).refreshHeld hi).resumeDecides hi p
    else s
/-- What the scheduler core kept in its own memory is gone after a crash: sender digests, and hashes whose result it was to keep or to write
into a half's header (R337, R342; DEDUCED, log 146). -/
def Ckpt.forget (k : Ckpt) : Ckpt :=
  { k with digests := [], hashing := [], halves := k.halves.map (fun (x : Half) => { x with hashing := none }) }
/-- A central core runs again from its protected image, and keeps nothing it held in its memory (R337, R384): 0 security, 1 scheduler, 2 power. -/
def State.coreAnew (s : State) (i : Fin 3) : State :=
  let n := s.free
  s.useFree.modBoot (fun b => { b with fw := b.fw.set i { b.fw[i] with stamp := n } })
/-- The scheduler core is back: it writes the step records it owes, asks every job's attempt to be repeated, and serves what was queued (R337,
R391). -/
def State.schedulerBack (s : State) : State :=
  let s := ((s.coreAnew 1).modBoot (fun b => { b with scheduler := .up })).noteCore 1 0 0xFF
  let s := (List.finRange 4).foldl (fun (s : State) hi =>
    let s := (s.modHeat hi (fun h => { h with ck := h.ck.forget })).settleGo hi
    if (s.heat hi).phase = .running ∧ (s.heat hi).hu.count ≠ 0 then s.request hi 3 0 else s) s
  let s := s.resumeLeases
  State.serveQueue s.com.mgmt.queue.length s
/-- The power core is back: its first setpoints end the floor (R367). -/
def State.powerBack (s : State) : State :=
  let s := ((s.coreAnew 2).modBoot (fun b => { b with power := .up })).modPw (fun p => { p with floor := false })
  s.applyAll.noteCore 2 0 0xFF
/-- A restart of the security core ends: what it had to write is written; the third failure in succession leaves it down (R338, R417). -/
def State.securityBack (s : State) (ok : Bool) : State :=
  if ok then (((s.coreAnew 0).modBoot (fun b => { b with security := .up, secFails := 0 })).catchUpLog).noteCore 3 0 0xFF
  else s.modBoot (fun b => { b with secFails := b.secFails + 1, security := if 3 ≤ b.secFails + 1 then .dead else .restarting })
/-- A restart of a core ends; one of the scheduler or power core that fails is tried again (R337, R338). -/
def execCoreRestartDone (core : CoreId) (ok : Bool) (s : State) : Result :=
  let b := s.com.boot
  match core with
  | .control c => if ok then .next ((s.restartDone c).refreshCl c) else .next s
  | .scheduler => if ok && b.scheduler == .restarting && b.security == .up then .next s.schedulerBack else .next s
  | .power => if ok && b.power == .restarting && b.security == .up then .next s.powerBack else .next s
  | .security => if b.security = .restarting then .next (s.securityBack ok) else .next s

/-! Hangs and dumps (R418, R419, R421). -/

/-- A unit with started work completes no handshake for 1 s (R418). -/
def execProgressHang (u : HangUnit) (s : State) : Result :=
  let s := s.reach (s.now + second)
  match u with
  | .cluster c => match s.heatOfCl c with
    | some (hi, _) =>
      if (s.heat hi).live && !(s.cl c).retired && !(s.cl c).core.restarting then .next (((s.declareHang hi (.progress u)).restartCluster c).refreshCl c)
      else .next s
    | none => .next s
  | .link p => match s.heatOfPort p with
    | some (hi, _) =>
      if (s.port p).retired then .next s
      else
        let s := s.declareHang hi (.progress u)
        let s := if (s.port p).tx.replay.isEmpty then s else s.chargeLane p 0
        .next (if (s.port p).retired then s else s.retrainPort p)
    | none => .next s
  | .other hi => if (s.heat hi).phase = .running then .next ((s.declareHang hi (.progress u)).request hi 6 eHang) else .next s
/-- A summary has no free entry, or an encode completion waits for its enc_wait. -/
def Cluster.completionStuck (k : Cluster) : Bool :=
  (4 ≤ k.core.sums.length && (k.queues[qVector]).any (fun e => match e.phase with
    | .summary _ => true
    | _ => false))
    || (k.core.hurdleOpen && !k.core.encs.isEmpty && k.core.encs.all (fun r => match r.phase with
      | .done _ => true
      | _ => false))
/-- A summary or encode completion cannot be taken while the control core is stalled in blk_issue behind its own queues (R151, R418). -/
def execIntraClusterDeadlock (c : Fin 64) (s : State) : Result :=
  let k := s.cl c
  let inIssue := match k.fetch with
    | some (.blkIssue _ _ _, _) => k.issueStalls
    | _ => false
  match s.heatOfCl c with
  | some (hi, _) =>
    if k.core.running && inIssue && k.completionStuck && k.halted.isNone then .next ((s.declareHang hi (.deadlock c)).request hi 6 eHang) else .next s
  | none => .next s
/-- Bytes of a dump slot (R421). -/
def State.dumpCapacity (s : State) : Nat :=
  if s.driveLive 0 && s.driveLive 1 then 4 * 2 ^ 30 else if s.driveLive 0 || s.driveLive 1 then 2 * 2 ^ 30 else 8 * mib
/-- The dump under way is written, its units resume, and the DECIDEs it held back are acted on (R419, R421). -/
def execDumpWritten (s : State) : Result :=
  let k := s.com.store
  match k.dumping with
  | none => .next s
  | some v =>
  match (List.finRange 4)[v.heat]? with
  | none => .next s
  | some hi =>
    let cls := v.clusters.map Prod.fst
    let total := 4096 + Config.dumpLen s.free + 32
    let d : Dump := ⟨s.dumpSlot, k.dumpSeq, s.free, total, min s.dumpCapacity total, v⟩
    let s := (s.countWrite d.len).useFree.modStore (fun k => { k with
      dumping := none, dumpSeq := k.dumpSeq + 1, dumps := k.dumps.filter (fun x => x.slot != d.slot) ++ [d] })
    let s := cls.foldl (fun (s : State) c => match (List.finRange 64)[c]? with
      | some f => s.modCl f (fun k => { k with frozen := false })
      | none => s) s
    let s := s.bump 9 0 11
    match (s.heat hi).image with
    | none => .next s
    | some p => .next (if s.decideWaits hi then s.settleGo hi else s.resumeDecides hi p)

end Sys2Proof.Machine
end

