-- ==== Sys2Proof/Machine/SampleCore.lean ====
section
/-! DEFINITION. The sample pipeline's shared operations: RDMA reads and queue pairs (R273 to R276), rings (R284), descriptors (R288),
readiness and rejection (R287, R294), and the placing of decoded parts. -/
namespace Sys2Proof.Machine

/-- Change a heat's pipeline. -/
def State.modPipe (s : State) (hi : Fin 4) (f : Pipeline → Pipeline) : State := s.modHeat hi (fun h => { h with pipe := f h.pipe })
/-- Change a sample of the window. -/
def State.modSample (s : State) (hi : Fin 4) (i : Nat) (f : Sample → Sample) : State :=
  s.modPipe hi (fun p => { p with samples := p.samples.map (fun x => if x.idx = i then f x else x) })
/-- A sample of the window. -/
def Heat.sample (h : Heat) (i : Nat) : Option Sample := h.pipe.samples.find? (fun x => x.idx == i)
/-- The next sample index to fetch: the first the module owns in the run-up window that is not fetched yet (R283). -/
def Heat.nextSample (h : Heat) (p : Program) : Option Nat :=
  ((List.range p.runUp).flatMap (fun k => p.ownSamples h.hu.replica (h.pipe.step + k))).find? (fun i => h.pipe.next ≤ i)
/-- Records in flight: a record has its place and is being fetched (R283). -/
def Pipeline.inFlight (p : Pipeline) : Nat := (p.samples.filter (fun x => x.phase == .record && x.record_.isSome)).length

/-! Packets (R273, R274, R278). -/

/-- The port record of feed port fp as a number; none without a configuration (R375, R377). -/
def Boot.portRecord (b : Boot) (fp : Fin 2) : Option Nat := b.config.map (fun c => leAt c (192 + 64 * fp.val) 64)
/-- The headers of a packet on a feed port to a remote address and QPN: to the gateway's MAC, from the port's own addresses, UDP port 4,791,
marked ECT(0) (R273, R274, R377). -/
def State.packetHdr (s : State) (port dstIp tclass lqpn rqpn psn : Nat) : RoceHdr :=
  let r := (((List.finRange 2)[port]?).bind s.com.boot.portRecord).getD 0
  { port := port, dstMac := fld r 271 224, srcMac := fld r 47 0, vlan := fld r 59 48, srcIp := fld r 191 64, dstIp := dstIp,
    tclass := tclass / 4 * 4 + 2, udp := 4791, lqpn := lqpn, rqpn := rqpn, psn := psn }
/-- The fields an ICRC covers besides the payload (R273). -/
def RoceHdr.fields (h : RoceHdr) : List Nat := [h.srcIp, h.dstIp, h.tclass, h.udp, h.lqpn, h.rqpn, h.psn]
/-- An RDMA READ request with its ICRC. -/
def readPacket (h : RoceHdr) (remote rkey len : Nat) : OutItem := .rdmaRead h remote rkey len (Config.icrc (h.fields ++ [remote, rkey, len]) [])
/-- An RDMA WRITE with its ICRC. -/
def writePacket (h : RoceHdr) (remote rkey : Nat) (data : Bytes) : OutItem :=
  .rdmaWrite h remote rkey data (Config.icrc (h.fields ++ [remote, rkey, data.length]) data)
/-- A CNP with its ICRC. -/
def cnpPacket (h : RoceHdr) : OutItem := .cnp h (Config.icrc h.fields [])

/-! Queue pairs (R274, R275). -/

/-- A queue pair in its initial state: PSN 0, the server's from its entry, the full rate. -/
def freshQp (port server rpsn : Nat) : Qp := ⟨port, server, false, [], 65536, none, none, 0, rpsn⟩
/-- The queue pair of a port and server. -/
def Heat.qp (h : Heat) (port server : Nat) : Qp :=
  (h.pipe.qps.find? (fun q => q.port == port && q.server == server)).getD
    (freshQp port server ((h.image.map (fun p => fld (p.server server) 175 152)).getD 0))
/-- Replace a queue pair. -/
def State.putQp (s : State) (hi : Fin 4) (q : Qp) : State :=
  s.modPipe hi (fun p => { p with qps := p.qps.filter (fun x => !(x.port == q.port && x.server == q.server)) ++ [q] })
/-- Path MTU (R277). -/
def Program.mtu (p : Program) : Nat := 4096 / 2 ^ fld p.planHdr 204 203
/-- The local QPN (R274). -/
def localQpn (hi : Fin 4) (port server : Nat) : Nat := 0x1000 + 128 * hi.val + 64 * port + server
/-- The headers of a queue pair's packets: the server's address, QPN and traffic class (R274, R278). -/
def State.qpHdr (s : State) (hi : Fin 4) (p : Program) (q : Qp) (psn : Nat) : RoceHdr :=
  let e := p.server q.server
  s.packetHdr q.port (fld e 127 0) (fld e 191 184) (localQpn hi q.port q.server) (fld e 151 128) psn
/-- A read goes out (R273 to R275, R409). -/
def State.sendRead (s : State) (hi : Fin 4) (p : Program) (q : Qp) (r : Read) : State :=
  (s.emit (readPacket (s.qpHdr hi p q r.psn) r.remote r.rkey r.len)).bump 5 q.port 2
/-- Reads go out while fewer than 16 are outstanding; each takes as many sequence numbers as its answer has packets (R275; PRESUMED, log 38).
fuel bounds them. -/
def State.pumpQp (hi : Fin 4) (p : Program) (port server : Nat) : Nat → State → State
  | 0, s => s
  | n + 1, s =>
    let q := (s.heat hi).qp port server
    match q.reads.findIdx? (fun r => r.sentAt.isNone && r.nakAt.isNone) with
    | none => s
    | some i =>
      if 16 ≤ (q.reads.filter (fun r => r.sentAt.isSome)).length || q.err then s
      else match q.reads[i]? with
      | none => s
      | some r =>
        let r := { r with sentAt := some s.now, psn := q.psn }
        let q := { q with reads := q.reads.set i r, psn := (q.psn + max 1 (ceilDiv r.len p.mtu)) % 2 ^ 24 }
        State.pumpQp hi p port server n ((s.putQp hi q).sendRead hi p q r)
/-- A port may carry reads to a server: enabled, live, its queue pair in order (R275). -/
def State.portFor (s : State) (hi : Fin 4) (p : Program) (server port : Nat) : Bool :=
  bitAt (p.server server) (176 + port) && ((s.com.feed.toList.map (fun k => k.up && !k.retired)).getD port false)
    && !((s.heat hi).qp port server).err
/-- The port for a sample's reads: i mod 2 where it serves, else the other, else none (R275). -/
def State.choosePort (s : State) (hi : Fin 4) (p : Program) (server i : Nat) : Option Nat :=
  [i % 2, 1 - i % 2].find? (s.portFor hi p server)
/-- The sample a fetch belongs to. -/
def Fetch.idx : Fetch → Nat
  | .entry i => i
  | .record i _ => i
/-- A read joins the queue pair of the port that serves, or waits on the first enabled one until a port does. -/
def State.addRead (s : State) (hi : Fin 4) (p : Program) (server : Nat) (r : Read) : State :=
  let i := r.what.idx
  let port := (s.choosePort hi p server i).getD (if bitAt (p.server server) (176 + i % 2) then i % 2 else 1 - i % 2)
  let q := (s.heat hi).qp port server
  let s := s.putQp hi { q with reads := q.reads ++ [{ r with sentAt := none, nakAt := none, tries := 0, lost := 0 }] }
  if s.portFor hi p server port then State.pumpQp hi p port server 16 s else s
/-- The reads of a queue pair that cannot serve move to where they can go (R275). -/
def State.moveReads (s : State) (hi : Fin 4) (p : Program) (port server : Nat) : State :=
  let q := (s.heat hi).qp port server
  if s.portFor hi p server port || q.reads.isEmpty then s
  else q.reads.foldl (fun s r => s.addRead hi p server r) (s.putQp hi { q with reads := [] })
/-- Every stranded read moves, and every queue pair that serves again goes on (R275). -/
def State.settleReads (s : State) (hi : Fin 4) (p : Program) : State :=
  ((s.heat hi).pipe.qps.map (fun q => (q.port, q.server))).foldl (fun s k =>
    let s := s.moveReads hi p k.1 k.2
    if s.portFor hi p k.2 k.1 then State.pumpQp hi p k.1 k.2 16 s else s) s
/-- A read as it is first queued. -/
def newRead (what : Fetch) (remote rkey len : Nat) : Read := ⟨what, remote, rkey, len, 0, none, none, 0, 0⟩

/-! Rings (R284). -/

/-- A place for n bytes in a ring: the space runs from the head to the oldest block not released; a block does not wrap (DESIGN CHOICE,
log 40). -/
def ringPlace (size head : Nat) (oldest : Option Nat) (n : Nat) : Option Nat :=
  match oldest with
  | none => if head + n ≤ size then some head else if n ≤ size then some 0 else none
  | some tail =>
    if tail < head then (if head + n ≤ size then some head else if n ≤ tail then some 0 else none)
    else if head + n ≤ tail then some head else none
/-- Blocks of a ring begin at multiples of 256 bytes (DESIGN CHOICE, log 40). -/
def ringBlock (n : Nat) : Nat := max 256 (roundUp n 256)
/-- The oldest record block not released. -/
def Pipeline.oldestRecord (p : Pipeline) : Option Nat :=
  (p.samples.find? (fun x => x.record_.isSome && !x.recFree)).bind (fun x => x.record_.map Prod.fst)
/-- The oldest output block: it is released with its sample. -/
def Pipeline.oldestOutput (p : Pipeline) : Option Nat := p.samples.findSome? (fun x => x.outp.map Prod.fst)

/-! Descriptors (R288) and readiness (R287). -/

/-- The descriptor of a sample, its ready bit set. -/
def descriptorOf (p : Program) (x : Sample) : Nat :=
  let t := x.idx / p.batch
  let ok := x.reject.isNone
  let recs := if ok then x.parts.map (fun (q : PartSt) => match q.phase with
    | .done r _ => r
    | _ => 0) else []
  x.idx % 2 ^ 64 + (x.idx - t * p.batch) % 2 ^ 20 * 2 ^ 64 + recs.length * 2 ^ 84 + (if ok then 0 else eMalformed) * 2 ^ 88
    + x.reject.getD 0 * 2 ^ 96 + 2 ^ 104
    + (if ok && fld x.entry 30 16 != 0 then fld x.entry 31 16 * 2 ^ 16 else 0) * 2 ^ 128
    + fld x.entry 223 192 * 2 ^ 160 + fld x.entry 511 256 * 2 ^ 192
    + ((recs.mapIdx (fun i r => r * 2 ^ (448 + 192 * i))).sum)
/-- Where the descriptor of a sample lies in the heat's share of the staging buffer (R285). -/
def Heat.descOffset (h : Heat) (i : Nat) : Nat := 256 * (i % (h.feedShare * mib / 256))
/-- A sample is ready: its descriptor is written, and it joins the posting order of its step (R285, R287). -/
def State.sampleReady (s : State) (hi : Fin 4) (p : Program) (i : Nat) : State :=
  let s := s.modSample hi i (fun x => { x with phase := .ready })
  match (s.heat hi).sample i with
  | none => s
  | some x => s.modHeat hi (fun h => { h with
      staging := h.staging.put (h.descOffset i) (natLE 256 (descriptorOf p x))
      pipe := { h.pipe with order :=
        if h.pipe.posting && (p.ownSamples h.hu.replica h.pipe.step).contains i && !h.pipe.order.contains i then h.pipe.order ++ [i]
        else h.pipe.order } })
/-- A service of the pipeline writes memory; a granule it writes whole is poisoned no longer (R204). The channel's regulator has admitted the
granules it moves: SERVICE_ADMIT is that step (R198, R284, R312). -/
def State.engineWrite (s : State) (hi : Fin 4) (a : Nat) (bs : Bytes) : State :=
  s.modHeat hi (fun h => { h with
    mem := h.mem.put a bs
    poison := h.poison.filter (fun g => !(a ≤ 32 * g && 32 * g + 32 ≤ a + bs.length)) })
/-- The pool slots of a video pair are cleared (R317, R327). -/
def State.clearSlots (s : State) (u : Nat) : State :=
  match (List.finRange 22)[u]? with
  | some f => s.modMedia f (fun m => { m with slots := [], current := none, residual := none })
  | none => s
/-- A sample is rejected: E_MALFORMED, weight +0, no parts; ready at once (R294). -/
def State.reject (s : State) (hi : Fin 4) (p : Program) (i reason : Nat) : State :=
  let units := match (s.heat hi).sample i with
    | some x => x.parts.filterMap (fun (q : PartSt) => match q.phase with
      | .onUnit u => some u
      | _ => none)
    | none => []
  let s := units.foldl State.clearSlots s
  let s := (s.bump 8 hi.val (7 + reason)).modSample hi i (fun x => { x with reject := some reason, parts := [], recFree := true })
  s.sampleReady hi p i

end Sys2Proof.Machine
end

