-- ==== Sys2Proof/Machine/Checkpoint.lean ====
section
/-! DEFINITION. Checkpoint layers (R340 to R347) and NVMe drives (R331, R332). -/
namespace Sys2Proof.Machine

/-- A DECIDE GO that a write held back is carried out once no write holds it (R346). -/
def State.releaseGo (s : State) (hi : Fin 4) : State := if (s.heat hi).hu.goHeld then s.settleGo hi else s

/-! The baton copy (R342). -/

/-- Bytes of a BATON payload (R340). -/
def Program.batonLen (p : Program) : Nat := (p.ckpts.map (fun r => roundUp r.batonLen 4096)).sum
/-- The sender digest of a step is kept with it, the last two of them (R342, R348). -/
def State.keepDigest (s : State) (hi : Fin 4) (p : Program) (n : Nat) : State :=
  s.modHeat hi (fun h => { h with ck := { h.ck with
    hashing := h.ck.hashing.drop 1
    saved := ((h.job.map Job.seed).getD 0, h.ownId)
    digests := ((h.ck.digests.filter (fun d => d.1 != n)) ++ [(n, sha256 (ckptPayload p h.mem true n))]).reverse.take 2 |>.reverse } })
/-- The header of the partner's half is written, which makes it valid (R340, R342). -/
def State.writeHalf (s : State) (hi : Fin 4) (p : Program) (n : Nat) : State :=
  let h := s.heat hi
  let x := h.ck.halves.toList.getD (n % 2) ⟨false, 0, none⟩
  match x.hashing, h.job with
  | some k, some j =>
    if k ≠ n then s
    else
      let a := s.partnerBase h p + n % 2 * halfBytes p
      let ward := p.wardOf h.ownId
      let hdr := pieceHeader p 1 n j.seed ward (p.replicaOf ward) (h.mem.get (a + 4096) p.batonLen)
      s.modHeat hi (fun h => { h with
        mem := h.mem.put a hdr
        ck := { h.ck with halves := h.ck.halves.setIfInBounds (n % 2) (⟨true, n, none⟩ : Half) } })
  | _, _ => s
/-- Hashing after a GO completes: of this module's own payload and of the half it keeps for its ward (R342). -/
def execBatonHashDone (hi : Fin 4) (s : State) : Result :=
  match (s.heat hi).image, (s.heat hi).ck.hashing with
  | some p, n :: _ => if (s.heat hi).phase = .free then .next s else .next ((s.keepDigest hi p n).writeHalf hi p n)
  | _, _ => .next s

/-! Local flash (R344 to R346). -/

/-- A drive is charged a retry; one item's third failure, or more than 16 retries in 1 s, retires it (R331, R429). -/
def State.chargeDrive (s : State) (d : Fin 2) : State :=
  if s.clockLost then s
  else
    let s := ((s.bump 7 d.val 2).transient).modDrive d (fun k => { k with retries := chargeAt s.now k.retries, fails := k.fails + 1 })
    let k := s.com.store.drives[d]
    if 3 ≤ k.fails || overCharged k.retries then s.retireDrive d else s
/-- The drive that holds a piece's header: the first live one (R345). -/
def State.headDrive (s : State) : Option (Fin 2) := if s.driveLive 0 then some 0 else if s.driveLive 1 then some 1 else none
/-- A piece of this module's own state (R340). -/
def State.ownPiece (s : State) (hi : Fin 4) (p : Program) (j : Job) (layer n : Nat) : Bytes :=
  let h := s.heat hi
  let payload := ckptPayload p h.mem false n
  pieceHeader p layer n j.seed h.ownId h.hu.replica payload ++ payload
/-- A drive under a local flash write has gone: the write goes on in a slot on the other drive alone, and with no drive or no room it ends, its
slot EMPTY (R332). -/
def State.dropFlash (s : State) (hi : Fin 4) : State :=
  match (s.heat hi).image, (s.heat hi).ck.flash with
  | some p, some w =>
    if ((s.com.store.slots[w.slot]?).map FlashSlot.on).getD 0 = s.liveMask ∧ s.liveMask ≠ 0 then s
    else
      let s := s.modStore (fun k => { k with slots := k.slots.set w.slot FlashSlot.none })
      match s.flashSlotFor hi p w.step s.slotTable with
      | some x => (s.modStore (fun k => { k with slots := k.slots.set x.1 x.2 })).modHeat hi (fun h => { h with
          ck := { h.ck with flash := some { w with slot := x.1 } } })
      | none => (s.modHeat hi (fun h => { h with ck := { h.ck with flash := none } })).releaseGo hi
  | _, _ => s
/-- A slot whose piece has its header read back in order (R345). -/
def FlashSlot.done (x : FlashSlot) (step : Nat) (piece : Bytes) : FlashSlot :=
  { x with step := step, state := .valid, level := ctz 12 (step + 1), digest := bytesAt piece 128 32, piece := piece }
/-- A local flash write ends: with its header read back in order the slot is VALID and K is computed anew; otherwise, or where a drive ends one
of its commands with an error, that drive is charged and the command is retried (R330, R331, R344, R345). -/
def execLocalFlashWriteDone (hi : Fin 4) (result : FlashResult) (s : State) : Result :=
  let h := s.heat hi
  match h.image, h.job, h.ck.flash, s.headDrive with
  | some p, some j, some w, some d =>
    if s.frozenHeat hi then .next s
    else match result with
    | .error e => if s.driveLive e then .next ((s.chargeDrive e).dropFlash hi) else .next s
    | .badReadBack => .next (((s.bump 7 d.val 4).chargeDrive d).dropFlash hi)
    | .ok =>
      let piece := s.ownPiece hi p j 2 w.step
      let s := ((s.countWrite piece.length).bump 7 d.val 1 4096).modStore (fun k => { k with
        slots := k.slots.modify w.slot (fun x => x.done w.step piece), drives := k.drives.map (fun (x : Drive) => { x with fails := 0 }) })
      let s := s.modHeat hi (fun h => { h with ck := { h.ck with flash := none, lastW := s.now - w.since } })
      let s := s.modHeat hi (fun h => { h with ck := { h.ck with k := s.heatK h } })
      let s := s.report 0x08 hi.val 0 w.step (natLE 1 2 ++ natLE 4 (s.heat hi).ck.k)
      .next (s.releaseGo hi)
  | _, _, _, _ => .next s
/-- An NVMe command misses its 1 s timeout: retried, and charged to its drive (R331, R332). -/
def execNvmeTimeout (d : Fin 2) (s : State) : Result :=
  let busy := s.heats.toList.any (fun h => h.ck.flash.isSome) || s.com.store.dumping.isSome
  if s.driveLive d && busy then
    let s := ((s.reach (s.now + second)).bump 7 d.val 3).chargeDrive d
    .next ((List.finRange 4).foldl (fun s hi => s.dropFlash hi) s)
  else .next s

/-! The shared store (R347). -/

/-- The feed port that carries a store write: the first live one. -/
def State.storePort (s : State) : Option (Fin 2) :=
  [0, 1].find? (fun (f : Fin 2) => (s.com.feed[f]).up && !(s.com.feed[f]).retired)
/-- A shared-store write ends: the payload goes out, then the header; one that fails, as it does with no feed port live, leaves the other
generation as it was (R347). The ports' choice is DESIGN CHOICE, log 43. -/
def execSharedStoreWriteDone (hi : Fin 4) (ok : Bool) (s : State) : Result :=
  let h := s.heat hi
  match h.image, h.job, h.ck.store with
  | some p, some j, some w =>
    let gens := h.ck.gens.filter (fun g => g.1 != w.slot)
    match (if ok then s.storePort else none) with
    | some f =>
      let piece := s.ownPiece hi p j 3 w.step
      let a := (j.storeBase + h.ownId * j.storeStride + w.slot * (j.storeStride / 2)) % 2 ^ 64
      let lqpn := 0x1800 + 2 * hi.val + f.val
      let psn := if f = 0 then h.ck.storePsn.1 else h.ck.storePsn.2
      let after := psn + ceilDiv (piece.drop 4096).length p.mtu
      let hdr := fun (n : Nat) => s.packetHdr f.val j.storeAddr 0 lqpn j.storeQpn (n % 2 ^ 24)
      let s := (s.emit (writePacket (hdr psn) (a + 4096) j.storeRkey (piece.drop 4096))).emit
        (writePacket (hdr after) a j.storeRkey (piece.take 4096))
      let next := (after + ceilDiv 4096 p.mtu) % 2 ^ 24
      let s := s.modHeat hi (fun h => { h with ck := { h.ck with
        storePsn := if f = 0 then (next, h.ck.storePsn.2) else (h.ck.storePsn.1, next) } })
      let s := s.bump 5 f.val 1 piece.length
      let s := s.modHeat hi (fun h => { h with ck := { h.ck with store := none, gens := gens ++ [(w.slot, w.step)] } })
      let s := s.report 0x08 hi.val 0 w.step (natLE 1 3 ++ natLE 4 (storeEvery j h.hu.stepWin.2))
      .next (s.releaseGo hi)
    | none => .next ((s.modHeat hi (fun h => { h with ck := { h.ck with store := none, gens := gens } })).releaseGo hi)
  | _, _, _ => .next s

end Sys2Proof.Machine
end

