-- ==== Sys2Proof/Machine/Jtag.lean ====
section
/-! DEFINITION. The JTAG TAP (R434, R437). Shifting follows IEEE 1149.1 (PRESUMED, log 8). -/
namespace Sys2Proof.Machine

/-- Change the TAP. -/
def State.modTap (s : State) (f : JtagTap → JtagTap) : State := s.modCom (fun k => { k with tap := f k.tap })
/-- An instruction is loaded, on the standby rail. -/
def State.loadTap (s : State) (ir : Nat) : State := if s.com.pw.standby then s.modTap (fun t => { t with ir := ir }) else s
/-- TDO shifts bits out; before PWR_GOOD it is high-Z (R434). -/
def State.shiftOut (s : State) (bits : List Bool) : State := if s.com.pw.good then s.emit (.tdo bits) else s
/-- EXTEST, HIGHZ or CLAMP has the pins: only in AWAIT_FW, RECOVERY or HALTED with no heat admitted (R437). -/
def State.pinsTaken (s : State) : Bool :=
  let t := s.com.tap.ir
  (t == 2 || t == 4 || t == 5)
    && (s.com.boot.state == .awaitFw || s.com.boot.state == .recovery || s.com.boot.state == .halted)
    && s.heats.toList.all (fun h => h.phase == .free)
/-- BYPASS: tdi passes through the one-bit register, which captures 0. -/
def execBypass (tdi : List Bool) (s : State) : Result :=
  if s.com.pw.standby then
    .next (((s.loadTap 0).modTap (fun t => { t with bypass := tdi.getLastD false })).shiftOut ((false :: tdi).take tdi.length))
  else .next s
/-- SAMPLE/PRELOAD: the pins are sampled and shifted out while the cells are loaded; what the pins read is free (log 45). -/
def execSamplePreload (cells : List Bool) (s : State) : Result :=
  if s.com.pw.standby then
    .next (((s.loadTap 1).modTap (fun t => { t with cells := cells })).useFree.shiftOut
      ((List.range cells.length).map (fun i => (Config.freeByte s.free i).toNat % 2 == 1)))
  else .next s
/-- EXTEST. -/
def execExtest (s : State) : Result := .next (s.loadTap 2)
/-- IDCODE of silicon revision B1, least significant bit first. -/
def execIdcode (s : State) : Result := .next ((s.loadTap 3).shiftOut ((List.range 32).map (fun i => bitAt 0x35A4E9E7 i)))
/-- HIGHZ. -/
def execHighz (s : State) : Result := .next (s.loadTap 4)
/-- CLAMP. -/
def execClamp (s : State) : Result := .next (s.loadTap 5)

end Sys2Proof.Machine
end

