-- ==== Sys2Proof/Machine/LifeLog.lean ====
section
/-! DEFINITION. The periodic summary of the life log (R417). -/
namespace Sys2Proof.Machine

/-- Every 3,600 s of power_on_s the next summary is written; it waits while the security core is down (R417). -/
def execLifelogSummary (s : State) : Result :=
  if s.com.pw.good && s.com.boot.security == .up then
    let k := s.com.store
    let s := s.reach ((k.summaryAt + 3600 - k.onBefore) * second)
    .next ((s.modStore (fun k => { k with summaryAt := k.summaryAt + 3600 })).putSummary)
  else .next s

end Sys2Proof.Machine
end

