-- ==== Sys2Proof/Machine/Matrix.lean ====
section
/-! DEFINITION. The commands of the matrix queue (R103, R108, R118, R123). A mode of CONV that R108 reserves is met by the CONV_FWD row,
which ends it with E_DESC (R124; DEDUCED, log 14). -/
namespace Sys2Proof.Machine

/-- MATMUL (R103). -/
def execMatmul (c : Fin 64) (s : State) : Result := s.runMatmul c
/-- CONV in mode FWD, and in a reserved mode (R108, R124). -/
def execConvFwd (c : Fin 64) (s : State) : Result := s.runConv c (fun m => m == 0 || m == 3 || 6 ≤ m)
/-- CONV in mode DGRAD (R108). -/
def execConvDgrad (c : Fin 64) (s : State) : Result := s.runConv c (· == 1)
/-- CONV in mode WGRAD (R108). -/
def execConvWgrad (c : Fin 64) (s : State) : Result := s.runConv c (· == 2)
/-- CONV in mode MAXPOOL (R118, R119). -/
def execMaxpool (c : Fin 64) (s : State) : Result := s.runConv c (· == 4)
/-- CONV in mode AVGPOOL (R118). -/
def execAvgpool (c : Fin 64) (s : State) : Result := s.runConv c (· == 5)

end Sys2Proof.Machine
end

