-- ==== Sys2Proof/Machine/Trig.lean ====
section
/-! DEFINITION. Correctly rounded cosines, sines and natural logarithms (R302, R307), by integer series in units of 2 to the −200. -/
namespace Sys2Proof.Machine

/-- Units of 2 to the −200 in one. -/
def fixOne : Nat := 2 ^ 200
/-- Pi in units of 2 to the −200, rounded down. -/
def fixPi : Nat := 0x3243f6a8885a308d313198a2e03707344a4093822299f31d008
/-- The natural logarithm of 2, likewise. -/
def fixLn2 : Nat := 0xb17217f7d1cf79abc9e3b39803f2f6af40f343267298b62d8a
/-- The alternating series of cosine (k = 0) or sine (k = 1) from a term on; t2 is the square of the angle. -/
def trigSum (t2 : Nat) : Nat → Nat → Nat → Int
  | 0, _, _ => 0
  | n + 1, k, t => (t : Int) - trigSum t2 n (k + 2) (t * t2 / fixOne / ((k + 1) * (k + 2)))
/-- Cosine of 2 pi r / 4,096 for r up to 512. -/
def fixCos (r : Nat) : Int :=
  let t := fixPi * r / 2048
  trigSum (t * t / fixOne) 40 0 fixOne
/-- Sine of 2 pi r / 4,096 for r up to 512. -/
def fixSin (r : Nat) : Int :=
  let t := fixPi * r / 2048
  trigSum (t * t / fixOne) 40 1 t
/-- Cosine of 2 pi r / 4,096 for r up to 1,024. -/
def fixCosQ (r : Nat) : Int := if r ≤ 512 then fixCos r else fixSin (1024 - r)
/-- Sine of 2 pi r / 4,096 for r up to 1,024. -/
def fixSinQ (r : Nat) : Int := if r ≤ 512 then fixSin r else fixCos (1024 - r)
/-- Cosine of 2 pi k / 4,096, correctly rounded to FP32. -/
def cos32 (k : Int) : Word :=
  let j := (k % 4096).toNat
  let r := j % 1024
  r32 (FV.ofInt (match j / 1024 with
    | 0 => fixCosQ r
    | 1 => -fixSinQ r
    | 2 => -fixCosQ r
    | _ => fixSinQ r) (-200))
/-- Sine of 2 pi k / 4,096, correctly rounded to FP32: the cosine a quarter turn earlier. -/
def sin32 (k : Int) : Word := cos32 (k - 1024)

/-- The series z + z³/3 + z⁵/5 + … from a term on. -/
def atanhSum (z2 : Nat) : Nat → Nat → Nat → Nat
  | 0, _, _ => 0
  | n + 1, k, t => t / k + atanhSum z2 n (k + 2) (t * z2 / fixOne)
/-- The natural logarithm, correctly rounded to FP32; a value not above zero gives minus infinity or a NaN. -/
def ln32 (w : Word) : Word :=
  match v32 w with
  | .nan => f32nan
  | .inf s => if s then f32nan else w
  | .fin s m e =>
    if m = 0 then r32 (.inf true) else if s then f32nan
    else
      let l := m.log2
      let z := (m - 2 ^ l) * fixOne / (m + 2 ^ l)
      let f := 2 * atanhSum (z * z / fixOne) 70 1 z
      r32 (FV.ofInt ((e + l) * fixLn2 + f) (-200))

end Sys2Proof.Machine
end

