-- ==== Sys2Proof/Machine/Augment.lean ====
section
/-! DEFINITION. Image and video augmentation (R298 to R305): colour conversion, crop, resize, flip, rotation, normalisation, pyramid. -/
namespace Sys2Proof.Machine

/-! Recipes (R298). -/

/-- colour = GREY. -/
def rcGrey (r : Nat) : Bool := fld r 7 6 == 1
/-- out_format. -/
def rcFormat (r : Nat) : Nat := fld r 12 8
/-- Pyramid levels. -/
def rcLevels (r : Nat) : Nat := fld r 15 13 + 1
/-- Channels of the output. -/
def rcChannels (r : Nat) : Nat := if rcGrey r then 1 else 3
/-- clip_max. -/
def rcClip (r : Nat) : Nat := fld r 175 160
/-- frame_step. -/
def rcStep (r : Nat) : Nat := fld r 159 152

/-! A picture in FP32. -/

/-- Rows of pixels of some channels, in row-major order, channels innermost. -/
structure Img where
  /-- width -/
  w : Nat
  /-- height -/
  h : Nat
  /-- channels -/
  c : Nat
  /-- elements -/
  px : Array Word
deriving DecidableEq, Repr
/-- An element; +0 outside the picture. -/
def Img.at_ (p : Img) (x y ch : Nat) : Word := if x < p.w ∧ y < p.h then p.px.getD ((y * p.w + x) * p.c + ch) 0 else 0
/-- A picture given element by element. -/
def Img.make (w h c : Nat) (f : Nat → Nat → Nat → Word) : Img :=
  ⟨w, h, c, ((List.range h).flatMap (fun y => (List.range w).flatMap (fun x => (List.range c).map (fun ch => f x y ch)))).toArray⟩
/-- A quotient of naturals rounded to FP32. -/
def q32 (n d : Nat) : Word := r32 (ratio false n d 0)
/-- The exact product of a value and a quotient of naturals, rounded to FP32. -/
def scale32 (n d : Nat) (v : Word) : Word :=
  match v32 v with
  | .fin s m e => r32 (ratio s (m * n) d e)
  | x => r32 x

/-! Colour (R303). -/

/-- Kr, Kb and their denominator; of a matrix R303 does not list they are free (log 148). -/
def matrixOf : Matrix → Nat × Nat × Nat
  | .bt601 => (2990, 1140, 10000)
  | .bt709 => (2126, 722, 10000)
  | .bt2020 => (2627, 593, 10000)
  | .other code => ((Config.otherMatrix code).1, (Config.otherMatrix code).2, 10000)
/-- K1 to K4, each rounded from its exact value. -/
def chromaK (f : Matrix) : Word × Word × Word × Word :=
  let (kr, kb, d) := matrixOf f
  let kg := d - kr - kb
  (q32 (2 * (d - kr)) d, q32 (2 * (d - kb)) d, q32 (2 * kb * (d - kb)) (kg * d), q32 (2 * kr * (d - kr)) (kg * d))
/-- An exact integer times an FP32 factor, rounded once. -/
def intTimes (i : Int) (k : Word) : Word := r32 ((FV.ofInt i).mul (v32 k))
/-- k_f. -/
def kFull (b : Nat) : Word := q32 1 (2 ^ b - 1)
/-- y′ of a luma code. -/
def lumaOf (full : Bool) (b y : Nat) : Word :=
  if full then intTimes y (kFull b) else intTimes ((y : Int) - 16 * 2 ^ (b - 8)) (q32 1 (219 * 2 ^ (b - 8)))
/-- c′ of a chroma code. -/
def chromaOf (full : Bool) (b c : Nat) : Word :=
  if full then intTimes ((c : Int) - 2 ^ (b - 1)) (kFull b) else intTimes ((c : Int) - 128 * 2 ^ (b - 8)) (q32 1 (224 * 2 ^ (b - 8)))
/-- R, G, B of y′, cb′, cr′. -/
def rgbOf (f : Matrix) (y cb cr : Word) : Word × Word × Word :=
  let (k1, k2, k3, k4) := chromaK f
  (add32 y (mul32 k1 cr), sub32 (sub32 y (mul32 k3 cb)) (mul32 k4 cr), add32 y (mul32 k2 cb))
/-- y′ of an RGB source with BT.709; each product is exact before its rounding (DEDUCED, log 35). -/
def greyOf (r g b : Word) : Word :=
  add32 (add32 (scale32 2126 10000 r) (scale32 7152 10000 g)) (scale32 722 10000 b)
/-- One pixel of a decoded picture, converted. -/
def pixelOf (grey : Bool) (p : Picture) (p0 p1 p2 : Array Nat) (x y : Nat) : List Word :=
  let at0 := p0.getD (y * p.w + x) 0
  match p.form with
  | .rgb =>
    let k := kFull p.depth
    let r := intTimes at0 k
    let g := intTimes (p1.getD (y * p.w + x) 0) k
    let b := intTimes (p2.getD (y * p.w + x) 0) k
    if grey then [greyOf r g b] else [r, g, b]
  | .grey =>
    let v := lumaOf p.full p.depth at0
    if grey then [v] else [v, v, v]
  | .ycc f =>
    let v := lumaOf p.full p.depth at0
    if grey then [v]
    else
      let i := y * p.vc / p.vmax * p.cw + x * p.hc / p.hmax
      let (r, g, b) := rgbOf f v (chromaOf p.full p.depth (p1.getD i 0)) (chromaOf p.full p.depth (p2.getD i 0))
      [r, g, b]
/-- The crop of a picture, converted (R299 steps 2 and 3): origin and extents. -/
def cropImg (grey : Bool) (p : Picture) (x0 y0 w h : Nat) : Img :=
  let p0 := p.p0.toArray
  let p1 := p.p1.toArray
  let p2 := p.p2.toArray
  ⟨w, h, if grey then 1 else 3,
    ((List.range h).flatMap (fun y => (List.range w).flatMap (fun x => pixelOf grey p p0 p1 p2 (x0 + x) (y0 + y)))).toArray⟩

/-! Geometry. -/

/-- A draw scaled to n outcomes. -/
def pick (u n : Nat) : Nat := u * n / 2 ^ 24
/-- The crop of a W × H picture: x, y, w, h (R300). -/
def cropBox (r : Nat) (u : Nat → Nat) (W H : Nat) : Nat × Nat × Nat × Nat :=
  if !bitAt r 0 then (0, 0, W, H)
  else
    let smin := fld r 63 48
    let s := smin + 1 + pick (u 0) (fld r 79 64 - smin + 1)
    let a := fld r 95 80 + pick (u 1) (fld r 111 96 - fld r 95 80 + 1)
    let T := W * H * s / 2 ^ 16
    let w := min (max (isqrt (T * a / 4096)) 1) W
    let h := min (max (isqrt (T * 4096 / a)) 1) H
    (pick (u 2) (W - w + 1), pick (u 3) (H - h + 1), w, h)
/-- Output extents of level 0 for a W × H picture (R284, R298). -/
def outExtent (r : Nat) (u : Nat → Nat) (W H : Nat) : Nat × Nat :=
  if bitAt r 1 then (fld r 31 16, fld r 47 32)
  else
    let (_, _, w, h) := cropBox r u W H
    (w, h)
/-- Bilinear interpolation at (sx, sy) (R301): beyond the last column or row the edge repeats, or outside the picture 0.0 is read (R302). -/
def Img.sample (p : Img) (edge : Bool) (sx sy : Word) (ch : Nat) : Word :=
  match v32 sx, v32 sy with
  | .fin s m e, .fin t n g =>
    let x0 := finFloor s m e
    let y0 := finFloor t n g
    let fx := r32 ((v32 sx).add (FV.ofInt (-x0)))
    let fy := r32 ((v32 sy).add (FV.ofInt (-y0)))
    let get := fun (x y : Int) =>
      let x := if edge then min x (p.w - 1) else x
      let y := if edge then min y (p.h - 1) else y
      if x < 0 ∨ y < 0 then (0 : Word) else p.at_ x.toNat y.toNat ch
    let mix := fun (f a b : Word) => add32 a (mul32 f (sub32 b a))
    mix fy (mix fx (get x0 y0) (get (x0 + 1) y0)) (mix fx (get x0 (y0 + 1)) (get (x0 + 1) (y0 + 1)))
  | _, _ => 0
/-- A coordinate of RESIZE: centre x of n outputs over wi inputs (R301). -/
def resizeAt (wi n x : Nat) : Word :=
  let s := sub32 (r32 ((FV.ofInt (2 * x + 1) (-1)).mul (v32 (q32 wi n)))) (r32 (FV.ofInt 1 (-1)))
  let v := v32 s
  if v.lt (FV.ofInt 0) then 0 else if (FV.ofInt (wi - 1)).lt v then ofInt32 (wi - 1) else s
/-- RESIZE (R301). -/
def Img.resize (p : Img) (bilinear : Bool) (w h : Nat) : Img :=
  if bilinear then
    let xs := ((List.range w).map (resizeAt p.w w)).toArray
    let ys := ((List.range h).map (resizeAt p.h h)).toArray
    Img.make w h p.c (fun x y ch => p.sample true (xs.getD x 0) (ys.getD y 0) ch)
  else Img.make w h p.c (fun x y ch => p.at_ (x * p.w / w) (y * p.h / h) ch)
/-- FLIP (R302). -/
def Img.flip (p : Img) (hor ver : Bool) : Img :=
  if !hor && !ver then p
  else Img.make p.w p.h p.c (fun x y ch => p.at_ (if hor then p.w - 1 - x else x) (if ver then p.h - 1 - y else y) ch)
/-- ROTATE by angle index k (R302). -/
def Img.rotate (p : Img) (k : Int) : Img :=
  let c := cos32 k
  let sn := sin32 k
  let cx := r32 (FV.ofInt ((p.w : Int) - 1) (-1))
  let cy := r32 (FV.ofInt ((p.h : Int) - 1) (-1))
  Img.make p.w p.h p.c (fun x y ch =>
    let dx := sub32 (ofInt32 x) cx
    let dy := sub32 (ofInt32 y) cy
    let sx := add32 (add32 (mul32 c dx) (mul32 sn dy)) cx
    let sy := add32 (sub32 (mul32 c dy) (mul32 sn dx)) cy
    p.sample false sx sy ch)

/-! Normalisation and pyramid (R304). -/

/-- Normalise with the recipe's mean and inv_std. -/
def Img.normalise (p : Img) (r : Nat) : Img :=
  { p with px := p.px.mapIdx (fun i v =>
      let k := 32 * (i % p.c)
      mul32 (sub32 v (BitVec.ofNat 32 (fld r (223 + k) (192 + k)))) (BitVec.ofNat 32 (fld r (319 + k) (288 + k)))) }
/-- The next level of a pyramid. -/
def Img.half (p : Img) : Img :=
  Img.make (ceilDiv p.w 2) (ceilDiv p.h 2) p.c (fun x y ch =>
    let get := fun (i j : Nat) => p.at_ (min (2 * x + i) (p.w - 1)) (min (2 * y + j) (p.h - 1)) ch
    mul32 (add32 (add32 (get 0 0) (get 1 0)) (add32 (get 0 1) (get 1 1))) (r32 (FV.ofInt 1 (-2))))
/-- n levels from a picture on. -/
def Img.pyramid : Nat → Img → List Img
  | 0, _ => []
  | n + 1, p => p :: Img.pyramid n p.half
/-- The bytes of a picture in an output format (R75, R299). -/
def Img.bytes (p : Img) (fmt : Nat) : Bytes := p.px.toList.flatMap (fun v => natLE (elemBits fmt / 8) (encodeElem fmt 0 v))

/-- Every step of R299 on one picture: the levels, level 0 first. u gives the draws of an operation for this sample. -/
def processPicture (r : Nat) (u : Nat → Nat → Nat) (p : Picture) : List Img :=
  let (x, y, w, h) := cropBox r (u 1) p.w p.h
  let g := cropImg (rcGrey r) p x y w h
  let g := if bitAt r 1 then g.resize (bitAt r 5) (fld r 31 16) (fld r 47 32) else g
  let g := g.flip (bitAt r 2 && u 2 0 < fld r 135 112) (bitAt r 3 && u 2 1 < fld r 135 112)
  let rot := fld r 146 136
  let g := if bitAt r 4 then g.rotate ((pick (u 3 0) (2 * rot + 1) : Int) - rot) else g
  Img.pyramid (rcLevels r) (g.normalise r)

/-! Frames (R305) and the output of a part (R289). -/

/-- The first selected picture and the number selected, of F (R305). -/
def frameSelect (r : Nat) (u0 F : Nat) : Nat × Nat :=
  let step := rcStep r
  let clip := min (rcClip r) ((F - 1) / step + 1)
  (pick u0 (F - (clip - 1) * step), clip)
/-- Pad to a multiple of 32 bytes: where the next level or part begins (R289). -/
def pad32 (bs : Bytes) : Bytes := bytesAt bs 0 (roundUp bs.length 32)
/-- The levels of a part one after the other, each of all its frames (R289; DEDUCED, log 36). -/
def levelBytes (fmt levels : Nat) (frames : List (List Img)) : Bytes :=
  (List.range levels).flatMap (fun l => pad32 (frames.flatMap (fun f => (f.getD l ⟨0, 0, 0, #[]⟩).bytes fmt)))
/-- Elements of a level of w × h pixels and of the levels after it, each padded to 32 bytes (R284, R304). -/
def levelsSize (fmt chans frames : Nat) : Nat → Nat → Nat → Nat
  | 0, _, _ => 0
  | n + 1, w, h => roundUp (w * h * chans * frames * (elemBits fmt / 8)) 32 + levelsSize fmt chans frames n (ceilDiv w 2) (ceilDiv h 2)
/-- A part record (R289). -/
def partRecord (addr fmt kind branch n0 n1 n2 : Nat) (rgb : Bool) (levels : Nat) (trunc : Bool) (count : Nat) : Nat :=
  addr % 2 ^ 48 + fmt * 2 ^ 48 + kind * 2 ^ 53 + branch * 2 ^ 56 + n0 % 2 ^ 24 * 2 ^ 64 + n1 % 2 ^ 24 * 2 ^ 88 + n2 % 2 ^ 24 * 2 ^ 112
    + (if rgb then 2 ^ 136 else 0) + (levels - 1) * 2 ^ 137 + (if trunc then 2 ^ 140 else 0) + count % 2 ^ 32 * 2 ^ 160

end Sys2Proof.Machine
end

