-- ==== Sys2Proof/Machine/LogMel.lean ====
section
/-! DEFINITION. The log-mel frontend (R306, R307). -/
namespace Sys2Proof.Machine

/-- The FP32 value at a byte offset of the audio block. -/
def blockWord (b : Bytes) (off : Nat) : Word := BitVec.ofNat 32 (leAt b off 4)
/-- n FP32 values from an offset. -/
def blockWords (b : Bytes) (off n : Nat) : List Word := (List.range n).map (fun i => blockWord b (off + 4 * i))
/-- A sequential sum, each addition rounded; +0 where there is nothing. -/
def seqSum : List Word → Word
  | [] => 0
  | x :: xs => xs.foldl add32 x
/-- Downmix (R307 step 2). -/
def downmix (chans : List (List Word)) : List Word :=
  let k := q32 1 chans.length
  let n := (chans.map List.length).foldl max 0
  (List.range n).map (fun i => mul32 (seqSum (chans.map (fun c => c.getD i 0))) k)
/-- The rate entry of an input rate: L, M, T and the offset of its filter (R306). -/
def rateEntry (b : Bytes) (rate : Nat) : Option (Nat × Nat × Nat × Nat) :=
  ((List.range (fld (leAt b 0 64) 35 32)).map (fun i => leAt b (133248 + 16 * i) 16)).findSome? (fun e =>
    if fld e 31 0 = rate then some (fld e 47 32, fld e 63 48, fld e 71 64, fld e 127 96) else none)
/-- Resample (R307 step 3). -/
def resample (b : Bytes) (e : Nat × Nat × Nat × Nat) (xs : List Word) : List Word :=
  let (L, M, T, off) := e
  let x := xs.toArray
  let taps := (blockWords b off (L * T)).toArray
  (List.range (xs.length * L / M)).map (fun n =>
    let q := n * M
    seqSum ((List.range T).map (fun (t : Nat) =>
      let i : Int := Int.ofNat (q / L + t + 1) - Int.ofNat (T / 2)
      mul32 (taps.getD (q % L * T + t) 0) (if i < 0 then 0 else x.getD i.toNat 0))))
/-- A complex product: each real product and each sum rounds once. -/
def cmul32 (a b : Word × Word) : Word × Word :=
  (sub32 (mul32 a.1 b.1) (mul32 a.2 b.2), add32 (mul32 a.1 b.2) (mul32 a.2 b.1))
/-- Elements at even places. -/
def evens {α : Type} : List α → List α
  | x :: _ :: xs => x :: evens xs
  | xs => xs
/-- The radix-2 decimation-in-time FFT of 2^d points, d at most 9 (R307 step 5). -/
def fft : Nat → List (Word × Word) → List (Word × Word)
  | 0, xs => xs
  | d + 1, xs =>
    let e := fft d (evens xs)
    let o := (fft d (evens (xs.drop 1))).mapIdx (fun k b =>
      let a := k * 2 ^ (8 - d) * 8
      cmul32 (cos32 a, sin32 (-(a : Int))) b)
    List.zipWith (fun a b => (add32 a.1 b.1, add32 a.2 b.2)) e o ++ List.zipWith (fun a b => (sub32 a.1 b.1, sub32 a.2 b.2)) e o
/-- One frame: its 128 log-mel values (R307 steps 4 to 7). -/
def melFrame (b : Bytes) (x : Array Word) (j : Nat) : List Word :=
  let ws := (blockWords b 64 400).mapIdx (fun i w => (mul32 (x.getD (160 * j + i) 0) w, (0 : Word)))
  let bins := (fft 9 (ws ++ List.replicate 112 (0, 0))).take 257
  let power := bins.map (fun c => add32 (mul32 c.1 c.1) (mul32 c.2 c.2))
  let floor := v32 (blockWord b 0)
  (List.range 128).map (fun m =>
    let s := seqSum (List.zipWith mul32 (blockWords b (1664 + 1028 * m) 257) power)
    ln32 (r32 ((v32 s).max2 floor)))
/-- An audio part after decoding: the frames and the first one, and its rows; none where the rate has no entry (R294, R307). -/
def audioOut (b : Bytes) (r u0 rate : Nat) (chans : List (List Word)) : Option (List (List Word)) :=
  let xs := downmix chans
  let ys? := if rate = 16000 then some xs else (rateEntry b rate).map (fun e => resample b e xs)
  ys?.map (fun ys =>
    let frames := ceilDiv ys.length 160
    let clip := min (rcClip r) frames
    let first := pick u0 (frames - clip + 1)
    let y := ys.toArray
    (List.range clip).map (fun i => melFrame b y (first + i)))

end Sys2Proof.Machine
end

