-- ==== Sys2Proof/Machine/AudioDec.lean ====
section
/-! DEFINITION. Audio parts (R323): what each codec accepts, its rejections, and its output as FP32 samples (R307 step 1). -/
namespace Sys2Proof.Machine

/-- An integer code of some bits as FP32: code / 2^(bits − 1), exactly (R307, R323). -/
def pcm32 (bits : Nat) (code : Int) : Word := r32 (FV.ofInt code (1 - (bits : Int)))
/-- The series 1 + t + t²/2 + … in units of 2 to the −200, from a term on. -/
def expSum (t : Nat) : Nat → Nat → Nat → Nat
  | 0, _, _ => 0
  | n + 1, k, a => a + expSum t n (k + 1) (a * t / fixOne / k)
/-- The natural logarithm of 10 in units of 2 to the −200, rounded down. -/
def fixLn10 : Nat := 0x24d763776aaa2b05ba95b58ae0b4c28a38a3fb3e76977e43a0f
/-- g of an Opus output gain G: FP32 of 10^(G / 5,120) (R323). -/
def opusGain (g : Int) : Word :=
  let y := g * fixLn10 / 5120
  let n := y / fixLn2
  r32 (FV.ofInt (expSum (y - n * fixLn2).toNat 80 1 fixOne) (n - 200))
/-- The PNS noise numbers: x = (1,664,525 x + 1,013,904,223) mod 2³², from x = 0 at the start of the part (R323). -/
def pnsNoise : Nat → Nat → List Nat
  | 0, _ => []
  | n + 1, x =>
    let y := (1664525 * x + 1013904223) % 2 ^ 32
    y :: pnsNoise n y

/-- The header alone puts a stream outside the supported subset: CODEC (R323). -/
def audioCodecOk : AudioCode → Bool
  | .flac bits _ _ _ => 4 ≤ bits && bits ≤ 24
  | .opus family _ _ _ _ _ _ => family ≤ 1
  | .aac objectType config freqIndex _ _ _ => objectType == 2 && 1 ≤ config && config ≤ 7 && freqIndex ≤ 11
  | .wav form bits _ => form == .pcm && (bits == 16 || bits == 24) || form == .float && bits == 32
/-- A stream's bytes hold no error: CRCs, the MD5, packets, finite float samples; otherwise BITSTREAM (R323). -/
def audioWhole : AudioCode → Bool
  | .flac _ crcOk md5Ok _ => crcOk && md5Ok
  | .opus _ _ _ _ crcOk packetsOk _ => crcOk && packetsOk
  | .aac _ _ _ crcOk _ _ => crcOk
  | .wav form _ codes => form != .float || codes.all (fun c => c.all (fun v => (v32 (BitVec.ofInt 32 v)).isFin))
/-- The decoded channels in FP32 (R307, R323). -/
def audioChannels : AudioCode → List (List Word)
  | .flac bits _ _ codes => codes.map (fun c => c.map (pcm32 bits))
  | .opus _ gain preSkip final _ _ codes =>
    let g := opusGain gain
    codes.map (fun c => ((c.take final).drop preSkip).map (fun v => mul32 (pcm32 16 v) g))
  | .aac _ _ _ _ _ samples => samples
  | .wav form bits codes => codes.map (fun c => c.map (fun v => if form = .float then BitVec.ofInt 32 v else pcm32 bits v))
/-- The rate of the decoded samples: 48,000 Hz for Opus (R323). -/
def audioRate (a : AudioPart) : Nat :=
  match a.code with
  | .opus _ _ _ _ _ _ _ => 48000
  | _ => a.rate
/-- The codec number of R282 that a stream belongs to. -/
def audioKind : AudioCode → Nat
  | .flac _ _ _ _ => 0x20
  | .opus _ _ _ _ _ _ _ => 0x21
  | .aac _ _ _ _ _ _ => 0x22
  | .wav _ _ _ => 0x23
/-- PNS noise comes from the generator of R323 alone. -/
def audioNoiseOk : AudioCode → Bool
  | .aac _ _ _ _ noise _ => noise == pnsNoise noise.length 0
  | _ => true

end Sys2Proof.Machine
end

