-- ==== Sys2Proof/Machine/Still.lean ====
section
/-! DEFINITION. Pictures from what a decoder reads of a part (R303, R315, R320 to R322): JPEG, PNG, and the planes a pixel engine leaves in a
pool slot. A part's header is checked before its pixels (R293). -/
namespace Sys2Proof.Machine

/-- The width and height a header declares, and then the picture or the reason it is rejected (R293, R294): 3 BITSTREAM, 4 CODEC. -/
structure StillPart where
  /-- why the header alone rejects the part -/
  refuse : Option Nat
  /-- declared width -/
  w : Nat
  /-- declared height -/
  h : Nat
  /-- the picture; none is BITSTREAM -/
  pic : Option Picture

/-! JPEG (R320). -/

/-- C[n][k] of the inverse transform: 0.5 c(k) cos((2n+1) k pi / 16); halving a rounded cosine is exact. -/
def idctC (n k : Nat) : Word := scale32 1 2 (if k = 0 then cos32 512 else cos32 (128 * ((2 * n + 1) * k)))
/-- A sample of a block from its dequantised coefficients (R320). -/
def idctSample (f : Nat → Nat → Int) (x y : Nat) : Nat :=
  let t := fun (v : Nat) => seqSum ((List.range 8).map (fun u => intTimes (f u v) (idctC y u)))
  let s := seqSum ((List.range 8).map (fun v => mul32 (idctC x v) (t v)))
  (min 255 (max 0 (toIntSat 32 (v32 (add32 s (ofInt32 128)))))).toNat
/-- A coefficient of a component; one that no scan supplies is 0. -/
def jpegCoeff (c : JpegComp) (block u v : Nat) : Int :=
  ((c.coeffs.find? (fun e => e.1 == 64 * block + 8 * u + v)).map Prod.snd).getD 0
/-- A component's plane of w × h samples. -/
def jpegPlane (c : JpegComp) (w h : Nat) : List Nat :=
  (List.range h).flatMap (fun y => (List.range w).map (fun x => idctSample (jpegCoeff c (y / 8 * c.bw + x / 8)) (x % 8) (y % 8)))
/-- The frame is one R320 accepts. -/
def jpegOk (j : Jpeg) : Bool :=
  j.sof ≤ 2 && j.precision == 8 && !j.dnl && (j.comps.length == 1 || j.comps.length == 3)
    && (j.comps.take 1).all (fun c => (c.hs == 1 || c.hs == 2) && (c.vs == 1 || c.vs == 2))
    && (j.comps.drop 1).all (fun c => c.hs == 1 && c.vs == 1)
/-- The picture of a JPEG: YCbCr under BT.601 full range, RGB where APP14 gives transform 0, grey with one component (R303, R320). -/
def jpegPicture (j : Jpeg) : Picture :=
  let c0 := j.comps.getD 0 ⟨1, 1, 0, []⟩
  let cw := ceilDiv j.w c0.hs
  let ch := ceilDiv j.h c0.vs
  let sub := fun (n : Nat) => ((j.comps[n]?).map (fun c => jpegPlane c cw ch)).getD []
  let ycc : Picture :=
    { w := j.w, h := j.h, depth := 8, full := true, form := .ycc .bt601, hc := 1, hmax := c0.hs, vc := 1, vmax := c0.vs,
      cw := cw, p0 := jpegPlane c0 j.w j.h, p1 := sub 1, p2 := sub 2 }
  let spread := fun (p : List Nat) => (List.range j.h).flatMap (fun y => (List.range j.w).map (fun x => p.getD (y / c0.vs * cw + x / c0.hs) 0))
  if j.comps.length = 1 then { ycc with form := .grey, hmax := 1, vmax := 1, cw := 0 }
  else if j.app14 = some 0 then { ycc with form := .rgb, hmax := 1, vmax := 1, cw := j.w, p1 := spread ycc.p1, p2 := spread ycc.p2 }
  else ycc
/-- A JPEG part (R320). -/
def jpegPart (j : Jpeg) : StillPart := ⟨if jpegOk j then none else some 4, j.w, j.h, if j.whole then some (jpegPicture j) else none⟩

/-! PNG (R321). -/

/-- Colour type and bit depth are ones R321 accepts. -/
def pngOk (p : Png) : Bool := p.depth == 8 && [0, 2, 3, 4, 6].contains p.colour || p.depth == 16 && [0, 2, 4, 6].contains p.colour
/-- The chunks, check sums and palette indices of a PNG hold, and every row is there. -/
def pngWhole (p : Png) : Bool :=
  p.hasIhdr && p.hasIdat && p.hasIend && p.crcOk && p.adlerOk && p.px.length == p.w * p.h
    && (p.colour != 3 || p.px.all (fun c => c.getD 0 0 < p.palette.length))
/-- The picture of a PNG: grey, or RGB with the palette applied; alpha and ancillary chunks are dropped. -/
def pngPicture (p : Png) : Picture :=
  let grey := p.colour == 0 || p.colour == 4
  let rgb := p.px.map (fun c => if p.colour = 3 then p.palette.getD (c.getD 0 0) (0, 0, 0) else (c.getD 0 0, c.getD 1 0, c.getD 2 0))
  { w := p.w, h := p.h, depth := p.depth, full := true, form := if grey then .grey else .rgb, hc := 1, hmax := 1, vc := 1, vmax := 1, cw := p.w,
    p0 := rgb.map Prod.fst, p1 := if grey then [] else rgb.map (fun c => c.2.1), p2 := if grey then [] else rgb.map (fun c => c.2.2) }
/-- A PNG part (R321). A missing IHDR declares no size and is no matter of the codec's subset. -/
def pngPart (p : Png) : StillPart :=
  ⟨if p.hasIhdr && !pngOk p then some 4 else none, if p.hasIhdr then p.w else 0, if p.hasIhdr then p.h else 0, if pngWhole p then some (pngPicture p) else none⟩

/-! Planes in a pool slot (R313, R315, R317). -/

/-- Bytes of a stored sample: 8 or 16 bits (R316). -/
def sampleBytes (depth : Nat) : Nat := if depth = 8 then 1 else 2
/-- Planes as a slot stores them: luma, then Cb, then Cr (DEDUCED, log 149). -/
def planesBytes (p : Planes) : Bytes := (p.y ++ p.cb ++ p.cr).flatMap (natLE (sampleBytes p.depth))
/-- Codes of a plane that a slot stores. -/
def planeAt (bs : Bytes) (depth off n : Nat) : List Nat := (List.range n).map (fun i => leAt bs (sampleBytes depth * (off + i)) (sampleBytes depth))
/-- Bytes of the picture a slot holds. -/
def slotPicBytes (d : SlotPic) : Nat :=
  (d.w * d.h + (if d.form = .grey then 0 else 2 * (ceilDiv d.w 2 * ceilDiv d.h 2))) * sampleBytes d.depth
/-- The picture of a slot's bytes: 4:2:0, or grey where it is monochrome, which gives c′ = 0 (R303, R315). -/
def slotPicture (d : SlotPic) (bs : Bytes) : Picture :=
  let n := d.w * d.h
  let cw := ceilDiv d.w 2
  let m := if d.form = .grey then 0 else cw * ceilDiv d.h 2
  { w := d.w, h := d.h, depth := d.depth, full := d.full, form := d.form, hc := 1, hmax := 2, vc := 1, vmax := 2, cw := cw,
    p0 := planeAt bs d.depth 0 n, p1 := planeAt bs d.depth n m, p2 := planeAt bs d.depth (n + m) m }
/-- How a stream's pictures are converted: what it signals, BT.709 where it signals nothing, grey where it is monochrome (R303, R315). -/
def seqForm (q : SeqHdr) : ColourForm := if q.chroma = .mono then .grey else .ycc (q.mat.getD .bt709)

end Sys2Proof.Machine
end

