-- ==== Sys2Proof/Machine/Survey.lean ====
section
/-! DEFINITION. The survey of a video part (R305, R314 to R319): the supported subset, start points and first clean pictures, the figures of
the stream, and the pictures its decode needs. -/
namespace Sys2Proof.Machine

/-! Sequence headers (R315, R316). -/

/-- The codec number of R282 that a sequence header belongs to. -/
def seqCodec (q : SeqHdr) : Nat :=
  match q.profile with
  | .av1 _ _ => 0x10
  | .hevc _ _ _ => 0x11
  | .h264 _ _ _ _ => 0x12
/-- Profile, bit depth and chroma of a sequence header are supported (R315). Baseline without FMO, ASO and redundant slices is (DEDUCED,
log 150). -/
def seqSubset (q : SeqHdr) : Bool :=
  let ten := q.depth == 8 || q.depth == 10
  let c420 := q.chroma == .c420
  let mono := q.chroma == .mono
  match q.profile with
  | .av1 sp tile => sp == 0 && !tile && ten && (c420 || mono)
  | .hevc pr fields _ => pr != .other && !fields && ten && (c420 || (mono && pr == .main10))
  | .h264 pr frames _ _ => pr != .other && pr != .baseline true && frames && q.depth == 8 && (c420 || mono)
/-- A sequence header is in the supported subset: a picture is at least 16 × 16, either way round (R315). -/
def seqOk (q : SeqHdr) : Bool := seqSubset q && 16 ≤ q.w && 16 ≤ q.h
/-- References a stream may hold (R316). -/
def seqRefs (q : SeqHdr) : Nat :=
  match q.profile with
  | .av1 _ _ => 8
  | .hevc _ _ m => m + 1
  | .h264 _ _ m level => m.getD level
/-- The header of the largest picture; the first of those as large (R314, R316). -/
def seqLargest : List SeqHdr → Nat × Nat
  | [] => (0, 0)
  | q :: qs => let m := seqLargest qs; if m.1 * m.2 ≤ q.w * q.h then (q.w, q.h) else m
/-- Bytes of a pool slot, and the slots of a pair (R316). -/
def slotBytes (w h depth : Nat) : Nat := roundUp ((w * h + 2 * ceilDiv w 2 * ceilDiv h 2) * (if depth = 8 then 1 else 2)) 4096
/-- Slots the pair's 1,024 MiB hold. -/
def slotCount (w h depth : Nat) : Nat := min 18 (2 ^ 30 / slotBytes w h depth)
/-- A video picture is within the absolute limits, either way round (R293, R315). -/
def videoLimit (w h : Nat) : Bool := (w ≤ 8192 && h ≤ 4320) || (h ≤ 8192 && w ≤ 4320)

/-! Start points (R318, R319). -/

/-- recovery_frames of a refresh metadata OBU: metadata_type 24, id 0x5A 0x47, version 1, 1 to 64 (R319); any other is ignored. -/
def refreshFrames (m : Nat × Bytes) : Option Nat :=
  let n := leAt m.2 3 1
  if m.1 = 24 ∧ m.2.length = 4 ∧ m.2.take 3 = [0x5A, 0x47, 1] ∧ 1 ≤ n ∧ n ≤ 64 then some n else none
/-- The picture at an output place, by its number in decode order. -/
def picOut (pics : List VideoPic) (place : Nat) : Option Nat := pics.findIdx? (fun x => x.outs.contains place)
/-- Output pictures of a part. -/
def outCount (pics : List VideoPic) : Nat := (pics.map (fun x => x.outs.length)).sum
/-- The coded video sequence of a picture: IDR and BLA pictures up to it. -/
def cvsOf (pics : List VideoPic) (i : Nat) : Nat := ((pics.take (i + 1)).filter (fun x => x.kind == .idr || x.kind == .bla)).length
/-- The output place k pictures after a picture's own, where the part has it. -/
def placeAfter (pics : List VideoPic) (x : VideoPic) (k : Nat) : Option Nat := (x.outs.head?.map (· + k)).filter (· < outCount pics)
/-- HEVC: the first picture in output order at or after picture i in decode order with POC not below t; one of a later sequence counts
(DEDUCED, log 150). -/
def pocPlace (pics : List VideoPic) (i : Nat) (t : Int) : Option Nat :=
  (List.range (outCount pics)).find? (fun k => match picOut pics k with
    | some j => i ≤ j && (cvsOf pics i < cvsOf pics j || (match pics[j]? with
      | some y => decide (t ≤ y.poc)
      | none => false))
    | none => false)
/-- A start picture from which decoding needs no fill: IDR, BLA or a shown key frame (R318). -/
def startWhole (x : VideoPic) : Bool := x.kind == .idr || x.kind == .bla || (x.kind == .key && x.shown)
/-- Picture i as a start point: the output place of its first clean picture, which the part may not have; none where it is no start point
(R318). -/
def startPoint (codec : Nat) (pics : List VideoPic) (i : Nat) : Option (Option Nat) :=
  (pics[i]?).bind (fun x =>
    if codec = 0x10 then
      if x.kind = .key ∧ x.shown = true then some x.outs.head?
      else if x.shown = true then (x.metas.findSome? refreshFrames).map (fun n => placeAfter pics x (n - 1))
      else none
    else if x.kind = .idr ∨ (codec = 0x11 ∧ (x.kind = .cra ∨ x.kind = .bla)) then some x.outs.head?
    else x.recovery.map (fun t => if codec = 0x11 then pocPlace pics i (x.poc + t) else placeAfter pics x t.toNat))
/-- The start points of a part in decode order, each with the place of its first clean picture. -/
def startPoints (codec : Nat) (pics : List VideoPic) : List (Nat × Option Nat) :=
  (List.range pics.length).filterMap (fun i => (startPoint codec pics i).map (fun c => (i, c)))

/-! The decode (R305, R314). -/

/-- The pictures a list needs, itself among them, at or after a first one: references precede what reads them in decode order. -/
def neededPics (pics : List VideoPic) (first : Nat) (sel : List Nat) : List Nat :=
  (List.range pics.length).reverse.foldl (fun acc j =>
    if first ≤ j && acc.contains j then acc ++ ((pics[j]?).map VideoPic.reads).getD [] else acc) sel
/-- The pictures of a decode from picture first to the last selected one, without the RASL pictures of its start (R314, R318). -/
def planPics (seqs : List SeqHdr) (pics : List VideoPic) (first : Nat) (places : List Nat) : List PlanPic :=
  let sel := places.filterMap (picOut pics)
  let need := neededPics pics first sel
  let last := sel.foldl max 0
  ((List.range (last + 1)).drop first).filterMap (fun j => (pics[j]?).bind (fun x =>
    if x.raslOf = some first then none
    else (seqs[x.seq]?).map (fun q =>
      { needed := need.contains j, outs := x.outs.filter places.contains, w := q.w, h := q.h, depth := q.depth,
        form := if q.chroma = .mono then .grey else .ycc (q.mat.getD .bt709), full := q.full, places := x.places, drops := x.drops })))
/-- A survey's outcome: the plan of the decode, and the start picture whose named references a fill slot stands for, if there is one. -/
structure Surveyed where
  /-- the plan -/
  plan : VideoPlan
  /-- reference indices of the fill slot; none where the start needs no fill (R318) -/
  fill : Option (List Nat)
/-- The survey of a part of len bytes: why it is rejected, or its figures and the decode of the selected pictures. A part without a clean
picture is rejected like one that begins with no start point (DESIGN CHOICE, log 151, as is the order of the checks). -/
def surveyPart (codec ratio len r u0 : Nat) (seqs : List SeqHdr) (pics : List VideoPic) : Except Nat Surveyed :=
  let starts := startPoints codec pics
  let (w, h) := seqLargest seqs
  let depth := (seqs.map SeqHdr.depth).foldl max 0
  let rmax := (seqs.map seqRefs).foldl max 0
  if !seqs.all seqOk then .error 4
  else match starts.head? with
  | some (0, some base) =>
    let f := outCount pics - base
    if ratio * len < w * h * f then .error 1
    else if !videoLimit w h || 65536 < f || slotCount w h depth < rmax + 2 then .error 2
    else
      let (start, clip) := frameSelect r u0 f
      let places := (List.range clip).map (fun k => base + start + k * rcStep r)
      let from_ := (starts.filter (fun x => (x.2.map (fun c => decide (c ≤ base + start))).getD false)).getLast?
      match from_.bind (fun x => (pics[x.1]?).map (fun y => (x.1, y))) with
      | some (first, x) => .ok ⟨⟨f, w, h, depth, rmax, places, planPics seqs pics first places⟩, if startWhole x then none else some x.names⟩
      | none => .error 3
  | _ => .error 3

end Sys2Proof.Machine
end

