-- ==== Sys2Proof/Machine/Tokenizer.lean ====
section
/-! DEFINITION. The tokenizer engines (R308 to R310). -/
namespace Sys2Proof.Machine

/-- A merge: left, right, result, rank (R308). -/
structure Merge where
  /-- left -/
  left : Nat
  /-- right -/
  right : Nat
  /-- result -/
  res : Nat
  /-- rank -/
  rank : Nat
deriving DecidableEq, Repr
/-- The merges of the tables. -/
def mergesOf (tok : Mem) : List Merge :=
  (List.range (tok.num 4 4)).map (fun i => let a := 1088 + 16 * i; ⟨tok.num a 4, tok.num (a + 4) 4, tok.num (a + 8) 4, tok.num (a + 12) 4⟩)
/-- The merge of a pair. -/
def mergeOf (ms : List Merge) (l r : Nat) : Option Merge := ms.find? (fun m => m.left == l && m.right == r)
/-- The merges of neighbouring tokens, with the place of the left one. -/
def candidates (ms : List Merge) : Nat → List Nat → List (Nat × Merge)
  | j, a :: b :: ts => ((mergeOf ms a b).map (fun m => (j, m))).toList ++ candidates ms (j + 1) (b :: ts)
  | _, _ => []
/-- The candidate of lowest rank, the leftmost on equal pairs. -/
def bestOf : List (Nat × Merge) → Option (Nat × Merge)
  | [] => none
  | c :: cs => match bestOf cs with
    | some d => if d.2.rank < c.2.rank then some d else some c
    | none => some c
/-- Merge until no pair has a merge; fuel bounds the merges (R309). -/
def bpe (ms : List Merge) : Nat → List Nat → List Nat
  | 0, ts => ts
  | n + 1, ts => match bestOf (candidates ms 0 ts) with
    | none => ts
    | some (j, m) => bpe ms n (ts.take j ++ m.res :: ts.drop (j + 2))
/-- Whitespace under SPACE. -/
def isSpace (b : Byte) : Bool := b == 0x09 || b == 0x0A || b == 0x0D || b == 0x20
/-- Pieces under SPACE: one begins at every whitespace byte after a non-whitespace byte; cur is the piece so far, newest byte first. -/
def spacePieces : Bytes → Bytes → List Bytes
  | [], cur => if cur.isEmpty then [] else [cur.reverse]
  | b :: bs, cur => match cur with
    | c :: _ => if isSpace b && !isSpace c then cur.reverse :: spacePieces bs [b] else spacePieces bs (b :: cur)
    | [] => spacePieces bs [b]
/-- Pieces of at most 16,384 bytes; fuel bounds their number. -/
def cutPieces : Nat → Bytes → List Bytes
  | 0, _ => []
  | n + 1, bs => if bs.isEmpty then [] else bs.take 16384 :: cutPieces n (bs.drop 16384)
/-- The token ids of a text part: at most max_tokens, and whether it was cut (R309, R310). -/
def tokenize (tok : Mem) (text : Bytes) : List Nat × Bool :=
  let ms := mergesOf tok
  let pieces := if fld (tok.num 8 4) 1 0 = 1 then spacePieces text [] else [text]
  let body := (pieces.flatMap (fun p => cutPieces (p.length / 16384 + 1) p)).flatMap (fun p =>
    bpe ms p.length (p.map (fun b => tok.num (64 + 4 * b.toNat) 4)))
  let one := fun (off : Nat) => let t := tok.num off 4; if t = 0xFFFFFFFF then [] else [t]
  let ts := one 12 ++ body ++ one 16
  let n := tok.num 20 4
  (ts.take n, n < ts.length)

end Sys2Proof.Machine
end

