-- ==== Sys2Proof/WellFormed.lean ====
section
/-! DEFINITION. What makes a command well formed: each operand has the size its row requires (R196, R217, R218, R386, R433).
Numbers that the module compares with a range are left to the meanings. -/
namespace Sys2Proof

/-- A message carries a 32-byte header (R386); a tag that is not 32 bytes long holds under no key. -/
def Msg.wf (m : Msg) : Bool := m.hdr.length == 32
/-- A flit is 280 bytes (R218). -/
def FlitRx.wf (f : FlitRx) : Bool := f.bytes.length == 280
/-- A received granule is 36 stored bytes, or 32 on a ZN4-G48 (R195, R196). -/
def GranuleRead.wf : GranuleRead → Bool
  | .word bs => bs.length == 36 || bs.length == 32
  | .crcError bs => bs.length == 32
  | .deviceUncorrectable => true
/-- Planes have the lengths their extents give, 4:2:0 or luma alone, in 8 or 10 bits (R315). -/
def Planes.wf (p : Planes) : Bool :=
  let c := (p.w + 1) / 2 * ((p.h + 1) / 2)
  1 ≤ p.w && 1 ≤ p.h && (p.depth == 8 || p.depth == 10) && p.y.length == p.w * p.h
    && (p.cb.isEmpty && p.cr.isEmpty || p.cb.length == c && p.cr.length == c) && (p.y ++ p.cb ++ p.cr).all (· < 2 ^ p.depth)
/-- An audio stream has as many channels as it says, of one length, and integer codes within their bits (R323). -/
def AudioPart.wf (a : AudioPart) : Bool :=
  let even := fun (n : List Nat) => n.length == a.channels && n.all (· == n.headD 0)
  let fits := fun (bits : Nat) (cs : List (List Int)) => cs.all (fun c => c.all (fun v => -(2 ^ (bits - 1)) ≤ v && v < 2 ^ (bits - 1)))
  1 ≤ a.channels && (match a.code with
  | .flac bits _ _ cs => even (cs.map List.length) && fits bits cs
  | .opus _ g _ _ _ _ cs => even (cs.map List.length) && fits 16 cs && -32768 ≤ g && g ≤ 32767
  | .aac _ _ _ _ _ cs => even (cs.map List.length)
  | .wav form bits cs => even (cs.map List.length) && (form == .float || fits bits cs))
/-- A decoder's operand is well formed: an image has pixels, a JPEG component sampling factors. -/
def Decoded.wf : Decoded → Bool
  | .jpeg j => 1 ≤ j.w && 1 ≤ j.h && j.comps.all (fun c => 1 ≤ c.hs && 1 ≤ c.vs)
  | .png p => !p.hasIhdr || (1 ≤ p.w && 1 ≤ p.h)
  | .avif a => 1 ≤ a.seq.w && 1 ≤ a.seq.h
  | .audio a => a.wf
  | _ => true

/-- The command is well formed. -/
def Instr.wf : Instr → Bool
  | .attachPhase0 m | .attachPhase1 m _ _ | .detach m | .loadFw m _ | .writeConfig m _ | .resetHeat m | .resetModule m
  | .loadImage m | .start m | .stopAtHurdle m | .checkpointNow m | .rearm m | .queryStatus m | .queryInventory m | .queryAttest m
  | .snapshot m | .splits m | .queryDump m | .readLifelog m => m.wf
  | .join f | .arrive f | .hold f | .request f | .decideGo f | .decideFalseStart f | .decideStop f | .feedQuery f | .feedReply f
  | .dataFlit f | .idle f | .replay f | .ack f | .hello f | .table f | .tableAck f | .blockNack f | .laneRetire f | .laneAck f
  | .subRetire f | .subAck f => f.wf
  | .laneFrame _ _ hdr _ => hdr.length == 200
  | .memReadDecode _ _ reads _ => reads.all GranuleRead.wf && !reads.isEmpty
  | .partDecoded _ _ _ d => d.wf
  | .pictureDecoded _ _ w => w.all Planes.wf
  | .strapLatch samples => samples.length == 8
  | .arpRequest _ t => t.length == 4
  | .neighborSolicitation _ t => t.length == 16
  | .matmul _ | .convFwd _ | .convDgrad _ | .convWgrad _ | .maxpool _ | .avgpool _ | .vec _ | .sum _ | .sumsq _ | .reduceMax _
  | .reduceMin _ | .meanvar _ | .softmax _ | .softmaxBwd _ | .gather _ | .store _ _ | .fadd _ _ | .iadd _ _ | .imax _ _ | .imin _ _
  | .plain _ _ | .kvRead _ | .kvWrite _ _ | .alloc _ _ | .share _ _ | .cow _ _ | .free _ _ | .send _ _ | .sendBaton _ _ | .wait _
  | .combineLeft _ _ | .combineRight _ _ | .hurdle _ | .blkIssue _ | .streamFetch _ | .encIssue _ | .encWait _
  | .encodeRequestStart _ | .encodeComplete _ _ | .sumGet _ | .bsumFlt _ | .bsumFge _ | .bsumFeq _ | .bsumFne _ | .bsumNan _
  | .bsumUlt _ | .bsumUge _ | .tcpConnect _ _ _ | .tcpLoss _ | .listenTimeout _ | .challengedTimeout _ | .leaseExpiry _
  | .orphanGraceExpiry | .arrival _ | .windowExpiry _ | .joinLate _ | .decideTimeout _ | .heldTooLong _ | .replayTimeout _
  | .ackFlush _ _ | .landingWrite _ _ | .tableInstall _ | .portRetrainTimeout _ | .laneTraining _ _ _ | .migrationLine _ _
  | .eccCountPoll _ | .dqsTracking | .memTraining _ _ | .serviceAdmit _ _ _ _ | .sampleFetch _ | .rdmaReadResponse _ _ _ _ _ _
  | .recordLanded _ _ | .ackTimeout _ _ _ | .nakRetry _ _ _ | .cePacket _ _ _ | .cnpReceived _ _ _ | .rateRecovery _ _ _
  | .feedPortLinkDown _ | .samplePost _ | .survey _ _ _ _ | .mediaWatchdog _ _ | .pwrEnRise _ | .railStep
  | .railFailure | .pwrEnFall | .brownOut _ | .brownOutEnd _ | .inputUndervoltage _ | .inputOvervoltage _ | .inputRecovery _
  | .powerAverage _ _ | .shedRound | .hardwareLimit _ | .heartbeatLapse | .sensorRead _ _ | .thermalTrip _ | .clockLoss
  | .clockReturn | .clockLossTimeout | .clusterIdle _ | .paceEvaluate _ _ _ | .jogToWalk _ | .pacingEntryDone _ | .exitTimer _
  | .wakeLine _ _ | .pacingExitDone _ | .pwrGood | .flashReadDone _ _ _ | .nvmeReadyTimeout _ | .ready | .parityError _
  | .controlCoreCrash _ | .schedulerCrash | .powerCoreCrash | .securityCoreCrash | .coreRestartDone _ _ | .batonHashDone _
  | .localFlashWriteDone _ _ | .sharedStoreWriteDone _ _ | .nvmeTimeout _ | .lifelogSummary | .progressHang _
  | .intraClusterDeadlock _ | .dumpWritten | .state | .vin | .pin | .tjMax | .tBoard | .ident | .alertCause | .part | .railFail
  | .alertResponse | .bypass _ | .samplePreload _ | .extest | .idcode | .highz | .clamp | .standbyRailRise | .standbyRailLoss
  | .managementPortLinkUp | .feedPortLinkUp _ | .nvmeDriveReady _ | .controlCoreInstruction _ | .perBankRefresh _ _ => true

end Sys2Proof
end

