-- ==== Sys2Proof/Machine/Media.lean ====
section
/-! DEFINITION. Media engines (R311 to R329) and what becomes of a decoded part (R282, R284, R289, R293, R294): shares, surveys, the reference
pool, claims, faults, augmentation. What a codec's published standard reads from the part's bytes comes with the command. -/
namespace Sys2Proof.Machine

/-! Kinds and shares (R282, R311). -/

/-- Units a codec needs: the first number and how many there are; 22 stands for the tokenizers. -/
def codecUnits (codec : Nat) : Nat × Nat :=
  if codec = 1 ∨ codec = 2 then (8, 8)
  else if codec = 3 ∨ (0x10 ≤ codec ∧ codec ≤ 0x12) then (0, 8)
  else if 0x20 ≤ codec ∧ codec ≤ 0x23 then (16, 4)
  else (22, 1)
/-- The codec is defined (R282). -/
def codecOk (codec : Nat) : Bool := [1, 2, 3, 0x10, 0x11, 0x12, 0x20, 0x21, 0x22, 0x23, 0x30].contains codec
/-- A video part: it is surveyed (R314). -/
def codecVideo (codec : Nat) : Bool := 0x10 ≤ codec && codec ≤ 0x12
/-- Places a heat has on a unit: contexts of an audio engine, tokenizers, or one. -/
def Heat.places (h : Heat) (u : Nat) : Nat := if u = 22 then fld h.adm 37 35 else h.media.count u
/-- Parts of a heat that occupy a unit. -/
def Heat.onUnit (h : Heat) (u : Nat) : Nat :=
  (h.pipe.samples.map (fun x => (x.parts.filter (fun q => q.phase == .onUnit u)).length)).sum
/-- Units of a kind that are live in the heat's share. -/
def State.shareLive (s : State) (h : Heat) (codec : Nat) : List Nat :=
  let (lo, n) := codecUnits codec
  ((List.range n).map (fun i => lo + i)).filter (fun u => 0 < h.places u && (u == 22 || s.mediaLive u))
/-- The unit a waiting part takes now: a free one, on another than it failed on where another is live (R311, R327). -/
def State.unitFor (s : State) (h : Heat) (q : PartSt) : Option Nat :=
  let live := s.shareLive h q.codec
  let bad := q.badOn.toList ++ q.fails
  let others := live.filter (fun u => !bad.contains u)
  (if others.isEmpty then live else others).find? (fun u => h.onUnit u < h.places u)
/-- Change a part. -/
def State.modPart (s : State) (hi : Fin 4) (i n : Nat) (f : PartSt → PartSt) : State :=
  s.modSample hi i (fun x => { x with parts := x.parts.modify n f })
/-- A part. -/
def Heat.part (h : Heat) (i n : Nat) : Option PartSt := (h.sample i).bind (fun x => x.parts[n]?)
/-- A change to the media unit of a number. -/
def State.onMedia (s : State) (u : Nat) (f : MediaUnit → MediaUnit) : State :=
  match (List.finRange 22)[u]? with
  | some k => s.modMedia k f
  | none => s
/-- An AVIF part takes its pair in still mode, with one slot (R322). -/
def State.openStill (s : State) (q : PartSt) (u : Nat) : State :=
  if q.codec = 3 then s.onMedia u (fun m => { m with slots := [⟨true, [], false, none⟩], current := some 0 }) else s
/-- Busy and stall time of a unit: timing, free values (R313, R409, log 10). -/
def State.mediaTime (s : State) (u : Nat) : State :=
  if u < 22 then ((s.bump 6 u 1 (Config.ticks s.free)).bump 6 u 2 (Config.ticks (s.free + 1))).useFree.useFree else s
/-- Free units take the waiting parts of lowest sample index; a kind without a live unit in the share asks for a stop (R283, R311, R329). -/
def State.assign (s : State) (hi : Fin 4) : State :=
  let waiting := (s.heat hi).pipe.samples.flatMap (fun x =>
    (List.range x.parts.length).filterMap (fun n => match x.parts[n]? with
      | some q => if q.phase = .waiting then some (x.idx, n, q) else none
      | none => none))
  let s := waiting.foldl (fun (s : State) w => match s.unitFor (s.heat hi) w.2.2 with
    | some u => (s.openStill w.2.2 u).modPart hi w.1 w.2.1 (fun q => { q with phase := .onUnit u })
    | none => s) s
  if waiting.any (fun w => (s.shareLive (s.heat hi) w.2.2.codec).isEmpty) then s.request hi 6 eRetired else s
/-- Units of every heat's share are given out again. -/
def State.assignAll (s : State) : State := (List.finRange 4).foldl (fun s hi => s.assign hi) s

/-! Faults of units (R327, R328). -/

/-- Unit class of R416. -/
def mediaClass (u : Nat) : Nat := if u < 8 then 5 else if u < 16 then 6 else if u < 20 then 7 else 8
/-- The decodes on a unit are abandoned and start again from the survey; failed says that each counts as a failure on it. -/
def State.abandonUnit (s : State) (u : Nat) (failed : Bool) : State :=
  let back := fun (q : PartSt) => if q.phase = .onUnit u then
    { q with phase := .waiting, survey := none, got := [], fails := if failed then q.fails ++ [u] else q.fails } else q
  (List.finRange 4).foldl (fun (s : State) hi => s.modPipe hi (fun p => { p with
    samples := p.samples.map (fun x => { x with parts := x.parts.map back }) })) (s.clearSlots u)
/-- The heat whose share holds a unit. -/
def State.unitHeat (s : State) (u : Nat) : Nat := (((List.finRange 4).find? (fun hi => (s.heat hi).media.contains u)).map Fin.val).getD 0xFF
/-- A unit retires: its parts go to others, an encode request waits again (R328). -/
def State.retireMedia (s : State) (f : Fin 22) : State :=
  if (s.com.media[f]).retired then s
  else
    let u := f.val
    let s := (s.abandonUnit u false).modMedia f (fun m => { m with retired := true })
    let again := fun (r : EncReq) => match r.phase with
      | .running v _ => if v = u then { r with phase := EncPhase.queued } else r
      | _ => r
    let s := if u < 20 then s else (List.finRange 64).foldl (fun (s : State) c => s.modCl c (fun k =>
      { k with core := { k.core with encs := k.core.encs.map again } })) s
    s.noteRetired (mediaClass u) u (s.unitHeat u)
/-- A unit is charged one transient retry; more than 16 in 1 s retire it, as 3 failures of one part do (R328). -/
def State.chargeMedia (s : State) (f : Fin 22) (thrice : Bool) : State :=
  let s := ((s.bump 6 f.val 3).transient).modMedia f (fun m => { m with retries := chargeAt s.now m.retries })
  if thrice || overCharged (s.com.media[f]).retries then s.retireMedia f else s
/-- Something has failed three times on a unit. -/
def thriceOn (u : Nat) (fails : List Nat) : Bool := 3 ≤ fails.count u
/-- An internal check of a unit fails, or it makes no handshake progress for 100 ms: its work starts again, charged to it (R327). -/
def execMediaWatchdog (f : Fin 22) (why : UnitFault) (s : State) : Result :=
  let u := f.val
  let parts := ((List.finRange 4).flatMap (fun hi => (s.heat hi).pipe.samples)).flatMap (fun x => x.parts.filter (fun q => q.phase == .onUnit u))
  let runs := fun (r : EncReq) => match r.phase with
    | .running v _ => v == u
    | _ => false
  let encs := (s.clusters.toList.flatMap (fun k => k.core.encs)).filter runs
  if (s.com.media[f]).retired || (parts.isEmpty && encs.isEmpty) || (s.com.store.dumping.map (fun v => v.media.any (fun e => e.1 == u))).getD false then .next s
  else
    let s := match why with
      | .stuck => s.reach (s.now + 100 * milli)
      | .check => s
    let thrice := parts.any (fun q => thriceOn u (q.fails ++ [u])) || encs.any (fun r => thriceOn u (r.fails ++ [u]))
    let s := (s.abandonUnit u true)
    let s := if encs.isEmpty then s else (List.finRange 64).foldl (fun (s : State) c => s.modCl c (fun k => { k with core := { k.core with
      encs := k.core.encs.map (fun r => if runs r then { r with fails := r.fails ++ [u] } else r) } })) s
    .next (s.chargeMedia f thrice).assignAll

/-! Placing and readiness (R284, R287). -/

/-- A record's space is released once all its parts are decoded (R284). -/
def State.releaseRecord (s : State) (hi : Fin 4) (i : Nat) : State :=
  s.modSample hi i (fun x => { x with recFree := x.recFree || x.parts.all (fun q => match q.phase with
    | .done _ _ => true
    | _ => false) })

/-- Bytes of a part's output, once they are known: a video part's from its survey (R284). -/
def partSize (h : Heat) (p : Program) (x : Sample) (q : PartSt) : Option Nat :=
  match q.phase, q.survey with
  | .done _ bs, _ => some bs.length
  | _, some v =>
    let r := p.aug (fld x.entry 15 8)
    let (ow, oh) := outExtent r (draw h.seed x.idx 1) v.w v.h
    some (levelsSize (rcFormat r) (rcChannels r) v.sel.length (rcLevels r) ow oh)
  | _, _ => none
/-- Bytes of a sample's output, each part at a multiple of 32, once all are known. -/
def sampleSize (h : Heat) (p : Program) (x : Sample) : Option Nat :=
  x.parts.foldl (fun (a : Option Nat) q => a.bind (fun n => (partSize h p x q).map (fun k => n + roundUp k 32))) (some 0)
/-- One sample takes its place in the sample ring, or is rejected for its size; false where it must wait and those after it with it (R284). -/
def State.placeSample (s : State) (hi : Fin 4) (p : Program) (x : Sample) : State × Bool :=
  match x.phase with
  | .ready => (s, true)
  | .decoding =>
    if x.outp.isSome then (s, true)
    else match sampleSize (s.heat hi) p x with
    | none => (s, false)
    | some n =>
      if p.sampleRegion.2 / 2 < n then (s.reject hi p x.idx 8, true)
      else
        let pp := (s.heat hi).pipe
        match ringPlace p.sampleRegion.2 pp.outHead pp.oldestOutput (ringBlock n) with
        | none => (s, false)
        | some off => ((s.modPipe hi (fun q => { q with outHead := off + ringBlock n })).modSample hi x.idx
            (fun x => { x with outp := some (off, n) }), true)
  | _ => (s, false)
/-- Write a sample's parts at its place and give their records their addresses. -/
def State.writeParts (s : State) (hi : Fin 4) (p : Program) (x : Sample) (off : Nat) : State :=
  let base := p.sampleRegion.1 + off
  let go := x.parts.foldl (fun (a : Nat × List (Nat × Bytes) × List PartSt) q => match q.phase with
    | .done r bs => (a.1 + roundUp bs.length 32, a.2.1 ++ [(a.1, bs)], a.2.2 ++ [{ q with phase := .done (r + a.1) [] }])
    | _ => (a.1, a.2.1, a.2.2 ++ [q])) (base, [], [])
  (go.2.1.foldl (fun (s : State) w => s.engineWrite hi w.1 w.2) s).modSample hi x.idx (fun x => { x with parts := go.2.2 })
/-- Samples take their places in sample-index order, and those placed with every part decoded become ready (R284, R287; DEDUCED, log 39). -/
def State.settleSamples (s : State) (hi : Fin 4) (p : Program) : State :=
  let s := ((s.heat hi).pipe.samples.foldl (fun (a : State × Bool) x => if a.2 then a.1.placeSample hi p x else a) (s, true)).1
  (s.heat hi).pipe.samples.foldl (fun (s : State) x => match x.phase, x.outp with
    | .decoding, some (off, _) =>
      if x.parts.all (fun q => match q.phase with
        | .done _ _ => true
        | _ => false) then (s.writeParts hi p x off).sampleReady hi p x.idx else s
    | _, _ => s) s
/-- After a part or sample has moved on: units are given out, samples settle, the held flag follows (R265, R287, R311). -/
def State.afterPart (s : State) (hi : Fin 4) (p : Program) : State := ((s.settleSamples hi p).assign hi).refreshHeld hi

/-! Claims (R293) and bitstream errors (R327). -/

/-- The claim check: declared elements against the part's bytes. -/
def claimOk (p : Program) (q : PartSt) (declared : Nat) : Bool := declared ≤ p.claimRatio * q.len
/-- A part's earlier bitstream error did not repeat: the unit it occurred on is charged (R327, R328). -/
def State.chargeFirst (s : State) (q : PartSt) : State :=
  match q.badOn.bind (fun b => (List.finRange 22)[b]?) with
  | some f => s.chargeMedia f (thriceOn f.val (q.fails ++ [f.val]))
  | none => s
/-- A decode error: the first is re-run on another unit, a repeated one rejects the sample. -/
def State.bitstreamError (s : State) (hi : Fin 4) (p : Program) (i n : Nat) (q : PartSt) (u : Nat) : State :=
  if q.badOn.isSome then (s.reject hi p i 3).afterPart hi p
  else ((s.clearSlots u).modPart hi i n (fun q => { q with phase := .waiting, survey := none, got := [], badOn := some u })).afterPart hi p
/-- A part is refused with a reason: BITSTREAM is re-run first; any other rejects at once, and an earlier error has not repeated. -/
def State.partRefused (s : State) (hi : Fin 4) (p : Program) (i n : Nat) (q : PartSt) (u reason : Nat) : State :=
  if reason = 3 then s.bitstreamError hi p i n q u else ((s.reject hi p i reason).chargeFirst q).afterPart hi p
/-- A part that a unit works on: its heat's program, the part and the unit; none while a dump freezes the unit (R419). -/
def State.partOn (s : State) (hi : Fin 4) (i n : Nat) : Option (Program × PartSt × Nat) :=
  match (s.heat hi).image, (s.heat hi).part i n with
  | some p, some q => match q.phase with
    | .onUnit u => if (s.heat hi).phase = .running ∧ !s.frozenHeat hi then some (p, q, u) else none
    | _ => none
  | _, _ => none

/-! The reference pool (R316 to R318). -/

/-- A free slot of the pool: no mark. -/
def PoolSlot.free (x : PoolSlot) : Bool := !x.cur && x.refs.isEmpty && !x.out_
/-- A picture takes the lowest-numbered free slot (R317). -/
def MediaUnit.takeSlot (m : MediaUnit) : MediaUnit :=
  match m.current, m.slots.findIdx? PoolSlot.free with
  | none, some i => { m with slots := m.slots.modify i (fun x => { x with cur := true }), current := some i }
  | _, _ => m
/-- The codec's reference process removes or overwrites reference indices (R317). -/
def MediaUnit.dropRefs (m : MediaUnit) (gone : List Nat) : MediaUnit :=
  { m with slots := m.slots.map (fun x => { x with refs := x.refs.filter (fun r => !gone.contains r) }) }
/-- Pictures that nothing selected needs are skipped after their headers, and the next one takes a slot (R314, R317): the unit, and the
pictures left. -/
def MediaUnit.advance (m : MediaUnit) (todo : List PlanPic) : MediaUnit × List PlanPic :=
  let skip := todo.takeWhile (fun x => !x.needed)
  let rest := todo.drop skip.length
  let m := skip.foldl (fun m x => m.dropRefs (x.places ++ x.drops)) m
  (if rest.isEmpty then m else m.takeSlot, rest)
/-- The picture under reconstruction completes: CUR goes, the codec's reference process places it, a selected picture is held for the
augmentation units (R317). -/
def MediaUnit.finish (m : MediaUnit) (k : Nat) (x : PlanPic) : MediaUnit :=
  let pic : SlotPic := ⟨x.w, x.h, x.depth, x.full, x.form, x.outs⟩
  let m := m.dropRefs (x.places ++ x.drops)
  { m with slots := m.slots.modify k (fun _ => ⟨false, x.places, !x.outs.isEmpty, some pic⟩), current := none }
/-- Where a pool slot lies: the pairs of the share divide the pool in order, a pair's slots follow one another (R312, R316; DEDUCED, log 149). -/
def State.slotAddr (s : State) (hi : Fin 4) (p : Program) (u k bytes : Nat) : Nat :=
  s.mediaBase (s.heat hi) p + 1024 * mib * (((s.heat hi).media.filter (· < 8)).idxOf u) + k * bytes
/-- The augmentation units have read a slot: its picture is theirs for each selected place, and OUT is cleared (R317). -/
def State.readSlot (s : State) (hi : Fin 4) (p : Program) (i n u bytes k : Nat) : State :=
  match ((List.finRange 22)[u]?).bind (fun f => (s.com.media[f]).slots[k]?) with
  | some x =>
    match x.out_, x.pic with
    | true, some d =>
      let v := slotPicture d ((s.heat hi).mem.get (s.slotAddr hi p u k bytes) (slotPicBytes d))
      (s.onMedia u (fun m => { m with slots := m.slots.modify k (fun x => { x with out_ := false }) })).modPart hi i n
        (fun q => { q with got := q.got ++ d.outs.map (fun o => (o, v)) })
    | _, _ => s
  | none => s
/-- The fill slot of a start that is no IDR picture, key frame or BLA picture: 2^(b-1) in every sample, and every REF bit the start picture's
references name (R318). -/
def State.fillSlot (s : State) (hi : Fin 4) (p : Program) (u : Nat) (v : VideoPlan) (names : List Nat) : State :=
  let half := List.replicate ((v.w * v.h + 2 * (ceilDiv v.w 2 * ceilDiv v.h 2))) (2 ^ (v.depth - 1))
  (s.engineWrite hi (s.slotAddr hi p u 0 0) (half.flatMap (natLE (sampleBytes v.depth)))).onMedia u
    (fun m => { m with slots := m.slots.modify 0 (fun x => { x with refs := names }) })

/-! Video (R313 to R318). -/

/-- The survey of a video part ends: the part is rejected, or its pool is laid out and its decode begins (R314, R316, R318). -/
def execSurvey (hi : Fin 4) (i n : Nat) (out : SurveyOut) (s : State) : Result :=
  match s.partOn hi i n, (s.heat hi).sample i with
  | some (p, q, u), some x =>
    if !codecVideo q.codec || q.survey.isSome then .next s
    else match out with
    | .corrupt => .next ((s.mediaTime u).partRefused hi p i n q u 3)
    | .stream seqs pics =>
      if seqs.isEmpty || seqs.any (fun h => seqCodec h != q.codec) then .next s
      else
      let s := s.mediaTime u
      match surveyPart q.codec p.claimRatio q.len (p.aug (fld x.entry 15 8)) (draw (s.heat hi).seed x.idx 4 0) seqs pics with
      | .error r => .next (s.partRefused hi p i n q u r)
      | .ok v =>
        let s := s.onMedia u (fun m => { m with
          slots := List.replicate (slotCount v.plan.w v.plan.h v.plan.depth) ⟨false, [], false, none⟩, current := none, residual := some s.free })
        let s := match v.fill with
          | some names => s.fillSlot hi p u v.plan names
          | none => s
        let s := s.useFree.onMedia u (fun m => (m.advance v.plan.todo).1)
        let rest := v.plan.todo.drop (v.plan.todo.takeWhile (fun x => !x.needed)).length
        .next ((s.modPart hi i n (fun q => { q with survey := some { v.plan with todo := rest } })).settleSamples hi p)
  | _, _ => .next s
/-- The part a pair works on, once its survey is done; an AVIF part has none. -/
def State.pairPart (s : State) (pair : Nat) : Option (Fin 4 × Nat × Nat) :=
  (List.finRange 4).findSome? (fun hi => (s.heat hi).pipe.samples.findSome? (fun x =>
    (x.parts.findIdx? (fun q => q.phase == .onUnit pair && (q.survey.isSome || q.codec == 3))).map (fun n => (hi, x.idx, n))))
/-- The plan of an AVIF part's one picture. -/
def stillPlan (w : Planes) : PlanPic :=
  ⟨true, [0], w.w, w.h, w.depth, if w.cb.isEmpty then .grey else .ycc .bt709, false, [], []⟩
/-- The pixel engine of a pair completes the picture under reconstruction, into its slot, after the augmentation units have read the slots
listed; with no slot free it waits for one (R313, R317, R322). Planes that have not the extents of the picture's header are no such
picture. -/
def execPictureDecoded (pair : Fin 8) (read : List Nat) (planes : Option Planes) (s : State) : Result :=
  if !(planes.all Sys2Proof.Planes.wf) then .fault .illFormed
  else match s.pairPart pair.val with
  | none => .next s
  | some (hi, i, n) =>
    match s.partOn hi i n, (List.finRange 22)[pair.val]? with
    | some (p, q, u), some f =>
      match planes with
      | none => .next ((s.mediaTime u).bitstreamError hi p i n q u)
      | some w =>
        let todo := match q.survey with
          | some v => v.todo
          | none => [stillPlan w]
        let bytes := match q.survey with
          | some v => slotBytes v.w v.h v.depth
          | none => 0
        let s := read.foldl (fun s k => s.readSlot hi p i n u bytes k) (s.mediaTime u)
        match todo, (s.com.media[f]).current with
        | x :: rest, some k =>
          if x.w ≠ w.w ∨ x.h ≠ w.h ∨ x.depth ≠ w.depth ∨ (x.form = .grey) ≠ (w.cb.isEmpty = true) then .next s
          else
            let s := s.engineWrite hi (s.slotAddr hi p u k bytes) (planesBytes w)
            let s := s.modMedia f (fun m => { (m.finish k x).advance rest |>.1 with residual := some s.free })
            let left := rest.drop (rest.takeWhile (fun x => !x.needed)).length
            .next (s.useFree.modPart hi i n (fun q => { q with survey := q.survey.map (fun v => { v with todo := left }) }))
        | _ :: _, none => .next (s.modMedia f MediaUnit.takeSlot)
        | [], _ => .next s
    | _, _ => .next s

/-! A part is decoded (R287 to R289, R293, R294, R299, R305, R307, R309). -/

/-- A still image's header, and its picture: of an AVIF, the one its slot holds, with the matrix an nclx box selects (R320 to R322). -/
def stillPart (got : List (Nat × Picture)) : Decoded → Option StillPart
  | .jpeg j => some (jpegPart j)
  | .png p => some (pngPart p)
  | .avif a =>
    let form := match a.nclx with
      | some (m, _) => if a.seq.chroma = .mono then .grey else .ycc m
      | none => seqForm a.seq
    some ⟨if a.item == .av01 && seqSubset a.seq && seqCodec a.seq == 0x10 then none else some 4, a.seq.w, a.seq.h,
      (got.head?).map (fun g => { g.2 with form := form, full := (a.nclx.map Prod.snd).getD a.seq.full })⟩
  | _ => none
/-- The codec of R282 that an operand belongs to; 0 for a syntax error, which any but a text part may have. -/
def decodedCodec : Decoded → Nat
  | .jpeg _ => 1
  | .png _ => 2
  | .avif _ => 3
  | .audio a => audioKind a.code
  | .text => 0x30
  | .video | .corrupt => 0
/-- What a part's decode gives: why it is refused, or the part record and bytes; none where the operand is not of the part's codec or its
pictures are not all there. -/
def partResult (h : Heat) (p : Program) (x : Sample) (q : PartSt) (text : Bytes) (out : Decoded) : Option (Except Nat (Nat × Bytes)) :=
  let r := p.aug (fld x.entry 15 8)
  let u := draw h.seed x.idx
  let fmt := rcFormat r
  let rec_ := fun (kind n0 n1 n2 count : Nat) => partRecord 0 fmt kind q.branch n0 n1 n2 (kind < 2 && !rcGrey r)
    (if kind < 2 then rcLevels r else 1) false count
  if decodedCodec out ≠ q.codec ∧ decodedCodec out ≠ 0 then none
  else match out with
  | .corrupt => if q.codec = 0x30 then none else some (.error 3)
  | .video =>
    match q.survey with
    | none => none
    | some v =>
      let pics := v.sel.filterMap (fun o => (q.got.find? (fun g => g.1 == o)).map Prod.snd)
      if !v.todo.isEmpty || pics.length ≠ v.sel.length then none
      else
        let (ow, oh) := outExtent r (u 1) v.w v.h
        let clip := v.sel.length
        some (.ok (rec_ 1 ow oh clip clip, bytesAt (levelBytes fmt (rcLevels r) (pics.map (processPicture r u))) 0
          (levelsSize fmt (rcChannels r) clip (rcLevels r) ow oh)))
  | .audio a =>
    if !audioCodecOk a.code then some (.error 4)
    else if !claimOk p q (a.declared * a.channels) then some (.error 1)
    else if 8 < a.channels || 2 ^ 26 < a.declared then some (.error 2)
    else if !audioWhole a.code then some (.error 3)
    else match audioOut p.audio r (u 5 0) (audioRate a) (audioChannels a.code) with
    | none => some (.error 7)
    | some rows => some (.ok (rec_ 2 128 rows.length 1 rows.length, (rows.flatMap id).flatMap (fun v => natLE (elemBits fmt / 8) (encodeElem fmt 0 v))))
  | .text =>
    let (ts, cutOff) := tokenize h.tok text
    some (.ok (partRecord 0 13 3 q.branch ts.length 1 1 false 1 cutOff ts.length, ts.flatMap (natLE 4)))
  | out =>
    match stillPart q.got out with
    | none => none
    | some st =>
      match st.refuse with
      | some e => some (.error e)
      | none =>
        if !claimOk p q (st.w * st.h) then some (.error 1)
        else if 8192 < st.w || 8192 < st.h then some (.error 2)
        else match st.pic with
        | none => if q.codec = 3 then none else some (.error 3)
        | some pic =>
          let (w, ht) := outExtent r (u 1) pic.w pic.h
          some (.ok (rec_ 0 w ht 1 1, levelBytes fmt (rcLevels r) [processPicture r u pic]))
/-- Pixels or samples a decoder puts out (R409). -/
def decodedElems (q : PartSt) : Decoded → Nat
  | .jpeg j => j.w * j.h
  | .png p => p.w * p.h
  | .avif a => a.seq.w * a.seq.h
  | .video => (q.got.map (fun g => g.2.w * g.2.h)).sum
  | .audio a => ((audioChannels a.code).map List.length).sum
  | .text | .corrupt => 0
/-- The augmentation units read every slot still held for them before a part is done (R317). -/
def State.readSlots (s : State) (hi : Fin 4) (p : Program) (i n u : Nat) (q : PartSt) : State :=
  let slots := (((List.finRange 22)[u]?).map (fun f => (s.com.media[f]).slots.length)).getD 0
  let bytes := match q.survey with
    | some v => slotBytes v.w v.h v.depth
    | none => 0
  (List.range slots).foldl (fun s k => s.readSlot hi p i n u bytes k) s
/-- A part finishes decode and augmentation, or its decoder refuses it (R287, R294, R327). -/
def execPartDecoded (hi : Fin 4) (i n : Nat) (out : Decoded) (s : State) : Result :=
  if !(Sys2Proof.Decoded.wf out) then .fault .illFormed
  else match s.partOn hi i n, (s.heat hi).sample i with
  | some (p, q, u), some x =>
    let base := p.recordRegion.1 + (x.record_.getD (0, 0)).1 + q.off
    let t := if codecVideo q.codec || q.codec = 3 then s.readSlots hi p i n u q else s
    let q' := ((t.heat hi).part i n).getD q
    match partResult (s.heat hi) p x q' ((s.heat hi).mem.get base q.len) out with
    | none => .next s
    | some (.error r) => .next (s.partRefused hi p i n q u r)
    | some (.ok (rec_, bs)) =>
      let s := (if u = 22 then s else ((s.bump 6 u 0).bump 6 u 4 (decodedElems q' out)).mediaTime u).chargeFirst q
      let s := (s.clearSlots u).modPart hi i n (fun q => { q with phase := .done rec_ bs, got := [] })
      .next ((s.releaseRecord hi i).afterPart hi p)
  | _, _ => .next s

end Sys2Proof.Machine
end

