-- ==== Sys2Proof/Machine/MemorySys.lean ====
section
/-! DEFINITION. The memory system's own events: decoding of reads (R194 to R196), retirement and migration of channels (R202 to R204),
training and tracking (R187, R188), and the service regulators (R198). -/
namespace Sys2Proof.Machine

/-! Retirement (R202, R204). -/

/-- MIGRATION report: channel and move pointer (R393). -/
def State.migrationReport (s : State) (hi : Fin 4) (ch : Fin 96) : State :=
  s.report 0x0E hi.val 0 0 (natLE 2 ch.val ++ natLE 8 (s.com.chans[ch]).pointer)
/-- The heat's limit lets one more of its channels retire (R202). -/
def State.mayRetire (s : State) (h : Heat) : Bool :=
  decide ((s.deadChans h).length + 1 ≤ s.chanCount h * s.reserve / 48)
/-- A permanently faulty channel: retired, its lines to migrate, within the heat's limit; beyond it the retirement is refused, the channel
stays failed, which later admissions count, and the job is asked to stop with E_RETIRED (R202, R204). -/
def State.retireChan (s : State) (ch : Fin 96) : State :=
  if (s.com.chans[ch]).retired then s
  else match s.heatOfPos (ch.val / s.positionChans) with
  | none => (s.modChan ch (fun k => { k with retired := true, up := false })).noteRetired 3 ch.val 0xFF
  | some hi =>
    let h := s.heat hi
    if s.mayRetire h then
      let s := s.modChan ch (fun k => { k with retired := true, moving := true, pointer := 0, retries := [], granFails := [] })
      let s := s.modHeat hi (fun h => { h with retired := h.retired ++ [ch.val] })
      (s.noteRetired 3 ch.val hi.val).migrationReport hi ch
    else (s.modChan ch (fun k => { k with failed := true })).request hi 6 eRetired

/-! Decoding a read (R196). -/

/-- What one read of a granule gives. -/
inductive ReadResult where
  /-- clean, with its 32 data bytes -/
  | clean (data : Bytes)
  /-- correctable, with the corrected data -/
  | corrected (data : Bytes)
  /-- uncorrectable -/
  | bad
deriving DecidableEq, Repr
/-- The read is of the form the module's devices give: LPDDR6 stores 36 bytes, GDDR7 32 with reports of its own (R185, R189). -/
def readForm (gddr : Bool) : GranuleRead → Bool
  | .word bs => bs.length == if gddr then 32 else 36
  | _ => gddr
/-- The decode of a read at an address (R195, R196). -/
def decodeRead (gddr : Bool) (addr : List Nat) : GranuleRead → ReadResult
  | .word bs => if gddr then .clean bs else match rsDecode addr bs with
    | .clean => .clean (bs.take 32)
    | .corrected w => .corrected (w.take 32)
    | .uncorrectable => .bad
  | .crcError bs => .corrected bs
  | .deviceUncorrectable => .bad
/-- What a controller does about a granule: the data returned, none where three re-reads fail, whether it rewrites the granule, the reads it
makes, the retries charged, and whether a read-back failed. -/
structure ReadPlan where
  /-- data for the reader -/
  data : Option Bytes
  /-- the granule is rewritten with it -/
  rewrite : Bool
  /-- reads made -/
  reads : List ReadResult
  /-- retries charged -/
  retries : Nat
  /-- failed retries: read-backs that are not clean -/
  failed : Nat
deriving DecidableEq, Repr
/-- The actions of R196 over the results of successive reads. -/
def planRead : List ReadResult → Option ReadPlan
  | .clean d :: _ => some ⟨some d, false, [.clean d], 0, 0⟩
  | .corrected d :: .clean e :: _ => some ⟨some e, false, [.corrected d, .clean e], 1, 0⟩
  | .corrected d :: r :: .clean e :: _ => some ⟨some d, true, [.corrected d, r, .clean e], 1, 0⟩
  | .corrected d :: r :: t :: _ => some ⟨some d, true, [.corrected d, r, t], 2, 1⟩
  | .bad :: .clean d :: _ => some ⟨some d, false, [.bad, .clean d], 1, 0⟩
  | .bad :: .corrected d :: _ => some ⟨some d, false, [.bad, .corrected d], 1, 0⟩
  | .bad :: .bad :: .clean d :: _ => some ⟨some d, false, [.bad, .bad, .clean d], 2, 0⟩
  | .bad :: .bad :: .corrected d :: _ => some ⟨some d, false, [.bad, .bad, .corrected d], 2, 0⟩
  | .bad :: .bad :: .bad :: .clean d :: _ => some ⟨some d, false, [.bad, .bad, .bad, .clean d], 3, 0⟩
  | .bad :: .bad :: .bad :: .corrected d :: _ => some ⟨some d, false, [.bad, .bad, .bad, .corrected d], 3, 0⟩
  | .bad :: .bad :: .bad :: .bad :: _ => some ⟨none, false, [.bad, .bad, .bad, .bad], 3, 0⟩
  | _ => none
/-- A correctable read. -/
def ReadResult.isCorrected : ReadResult → Bool
  | .corrected _ => true
  | _ => false
/-- The counters and charges of a plan; the first read is counted with the access that makes it (R196, R409, R414; DEDUCED, log 90). -/
def State.chargeChan (s : State) (ch : Fin 96) (granule : Nat) (p : ReadPlan) : State :=
  let s := ((((s.chanReads ch.val (p.reads.length - 1)).bump 2 ch.val 1 (if p.rewrite then 1 else 0)).bump 2 ch.val 3
    (p.reads.filter ReadResult.isCorrected).length).bump 2 ch.val 4 (p.reads.filter (· == .bad)).length).bump 2 ch.val 6 p.failed
  let s := (List.range p.retries).foldl (fun (s : State) _ =>
    (((s.bump 2 ch.val 5).lifeCount 23).transient).modChan ch (fun k => { k with retries := chargeAt s.now k.retries })) s
  s.modChan ch (fun k => { k with granFails := amPut k.granFails granule (amGet k.granFails granule + p.failed) })
/-- The channel is permanently faulty: three uncorrectable re-reads, more than 16 retries in 1 s, or 3 failed retries of a granule (R196). -/
def State.chanFaulty (s : State) (ch : Fin 96) (granule : Nat) (p : ReadPlan) : Bool :=
  p.data.isNone || overCharged (s.com.chans[ch]).retries || 3 ≤ amGet (s.com.chans[ch]).granFails granule
/-- The command that reads ends with E_CHECK (R44, R196). -/
def State.failReader (s : State) (hi : Fin 4) (reader : Option (Fin 64 × Fin 4)) : State :=
  match reader with
  | none => s
  | some (c, q) => match s.startable c q with
    | some (x, e) =>
      if x.h = hi then
        let (s, e) := s.startCommand c q x e
        (s.failCommand c q x e eCheck).refreshHeld hi
      else s
    | none => s
/-- A granule of a heat is read, by a command of the heat's or by a service: reads gives what the channel returns to the first read and the
re-reads, as many as R196 makes (R195, R196). -/
def execMemReadDecode (hi : Fin 4) (granule : Nat) (reads : List GranuleRead) (reader : Option (Fin 64 × Fin 4)) (s : State) : Result :=
  if !(reads.all GranuleRead.wf) || reads.isEmpty then .fault .illFormed
  else
    let h := s.heat hi
    let gddr := s.com.boot.order == 3
    let (n, off) := s.placeOf h (granule / 8)
    match (List.finRange 96)[n]? with
    | none => .next s
    | some ch =>
      if h.phase == .free || s.capacity h ≤ 32 * granule || !(reads.all (readForm gddr)) then .next s
      else match planRead (reads.map (decodeRead gddr (s.codeAddr n off (granule % 8)))) with
      | none => .next s
      | some p =>
        let key := 8 * off + granule % 8
        let s := s.chargeChan ch key p
        let s := match p.data with
          | some d => s.modHeat hi (fun h => { h with
              mem := h.mem.put (32 * granule) d
              poison := if p.rewrite then h.poison.filter (· != granule) else h.poison })
          | none => s.failReader hi reader
        .next (if s.chanFaulty ch key p then s.retireChan ch else s)

/-! Migration (R203, R204). -/

/-- One line of a retired channel moves to its target. A line that is dirty in its home slice is taken from there, and is clean then; another
is read from the channel, where unreadable lists the granules that stay uncorrectable, and a line with any is written poisoned (R204;
DEDUCED, log 33). -/
def execMigrationLine (ch : Fin 96) (unreadable : List Nat) (s : State) : Result :=
  let k := s.com.chans[ch]
  match s.heatOfPos (ch.val / s.positionChans) with
  | none => .next s
  | some hi =>
    let h := s.heat hi
    let P := h.positionList.length
    let ts := s.heatStages h
    let before := ts.takeWhile (fun t => t.c != s.chanName h ch.val)
    match ts[before.length]? with
    | none => .next s
    | some t =>
      if !k.moving then .next s
      else
        let line := heldLine P s.chanLog before.reverse (t.c, k.pointer)
        let target := freeLine P s.chanLog t.dead t.from_ k.pointer
        let (tp, tc, _) := homeOf P s.chanLog target
        let dirty := s.cached hi line == 2
        let s := (s.chanReads ch.val (if dirty then 0 else 8)).bump 2 (s.chanNumber h (tp, tc)) 1 8
        let s := if dirty then s.setCached hi line 1 else s
        let s := if !dirty && (List.range 8).any unreadable.contains then s.modHeat hi (fun h => { h with
            poison := h.poison ++ ((List.range 8).map (fun i => 8 * line + i)).filter (fun g => !h.poison.contains g) })
          else s
        let done := t.count ≤ k.pointer + 1
        let s := s.modChan ch (fun k => { k with pointer := k.pointer + 1, moving := !done, up := if done then false else k.up })
        .next (if done then s.migrationReport hi ch else s)

/-! Devices and training (R187, R188, R194). -/

/-- Every 1 s the on-die corrected-error count of each channel's device is read (R194); counts holds one for each channel. -/
def execEccCountPoll (counts : List Nat) (s : State) : Result :=
  if !s.com.pw.good then .next s
  else
    let s := (s.reach (s.com.eccAt + second)).modCom (fun k => { k with eccAt := max s.now (s.com.eccAt + second) })
    .next (((List.finRange 96).zip counts).foldl (fun (s : State) cv =>
      if (s.com.chans[cv.1]).up then
        (s.bump 2 cv.1.val 2 (cv.2 - (s.com.chans[cv.1]).onDie)).modChan cv.1 (fun k => { k with onDie := cv.2 })
      else s) s)
/-- Every 64 ms the channels track DQS: time passes and nothing else (R188). -/
def execDqsTracking (s : State) : Result :=
  if !s.com.pw.good then .next s
  else .next ((s.reach (s.com.dqsAt + 64 * milli)).modCom (fun k => { k with dqsAt := max s.now (s.com.dqsAt + 64 * milli) }))
/-- A refresh changes timing only (R187, R188). -/
def execPerBankRefresh (_ch : Fin 96) (_bank : Fin 16) (s : State) : Result := .next s
/-- A channel's training ends: in order, it is then filled with zeros; failed three times in succession, the channel retires (R188). -/
def execMemTraining (ch : Fin 96) (ok : Bool) (s : State) : Result :=
  let k := s.com.chans[ch]
  if !s.com.boot.flashRead || s.com.boot.state == .recovery || s.com.boot.state == .halted || k.up || k.retired
    || 12 * s.positionChans ≤ ch.val then .next s
  else if ok then .next (s.modChan ch (fun k => { k with up := true, attempts := 0 }))
  else
    let s := s.modChan ch (fun k => { k with attempts := k.attempts + 1 })
    .next (if 3 ≤ k.attempts + 1 then s.retireChan ch else s)

/-! Service regulators (R198). -/

/-- The payload of a position in 30,000ths of a byte each 0.1 ns, divided by 64 (R186, R189). -/
def State.payloadRate (s : State) : Nat :=
  if s.com.boot.order = 3 then 6000
  else match s.com.boot.setting 2 1 with
    | 0 => 14400
    | 1 => 12800
    | _ => 10667
/-- A bucket now: it refills continuously up to its depth (R198). -/
def refill (rate depth now : Nat) (b : Nat × Nat) : Nat × Nat := (min depth (b.1 + (now - b.2) * rate), now)
/-- A service request at a channel is admitted where its class's bucket holds its tokens, or by borrowing while no program request waits;
otherwise it goes on waiting (R198). A bucket that lends goes no lower than empty (DEDUCED, log 34). -/
def execServiceAdmit (ch : Fin 96) (repair programWaiting : Bool) (granules : Nat) (s : State) : Result :=
  match s.heatOfPos (ch.val / s.positionChans), (List.finRange 96)[ch.val / s.positionChans * s.positionChans]? with
  | some hi, some first =>
    let a := (s.heat hi).adm
    let rate := s.payloadRate * (if repair then fld a 70 64 else fld a 62 56)
    let depth := bucketDepth (if repair then fld a 77 75 else fld a 74 72)
    let k := s.com.chans[first]
    let b := refill rate depth s.now (if repair then k.repair else k.service)
    let cost := 32 * granules * 30000
    let left := if cost ≤ b.1 then some (b.1 - cost) else if bitAt a 55 && !programWaiting then some 0 else none
    let b := (left.getD b.1, b.2)
    .next (s.modChan first (fun k => if repair then { k with repair := b } else { k with service := b }))
  | _, _ => .next s

end Sys2Proof.Machine
end

