-- ==== Sys2Proof/Machine/Mover.lean ====
section
/-! DEFINITION. The commands of the mover queue (R209 to R213, R175, R176, R200). An aop that R211 reserves is met by the STORE row and a
cop that R212 reserves by the PLAIN row, which end them with E_DESC (R213; DEDUCED, log 14). -/
namespace Sys2Proof.Machine

/-- GATHER (R210). -/
def execGather (c : Fin 64) (s : State) : Result :=
  s.runMover c false (fun raw => cmdOp raw == 0x20) (fun raw => [fld raw 87 64]) (fun _ x sp raw => gatherRun x.prog.recipes sp raw)
/-- SCATTER STORE, and a reserved aop (R211). -/
def execStore (c : Fin 64) (tagFail : Bool) (s : State) : Result := s.runScatter c tagFail (fun a => a == 0 || 5 ≤ a)
/-- SCATTER FADD (R201, R211). -/
def execFadd (c : Fin 64) (tagFail : Bool) (s : State) : Result := s.runScatter c tagFail (· == 1)
/-- SCATTER IADD (R201, R211). -/
def execIadd (c : Fin 64) (tagFail : Bool) (s : State) : Result := s.runScatter c tagFail (· == 2)
/-- SCATTER IMAX (R201, R211). -/
def execImax (c : Fin 64) (tagFail : Bool) (s : State) : Result := s.runScatter c tagFail (· == 3)
/-- SCATTER IMIN (R201, R211). -/
def execImin (c : Fin 64) (tagFail : Bool) (s : State) : Result := s.runScatter c tagFail (· == 4)
/-- COPY with a cop that satisfies a test, counting the tensors at the offsets given. -/
def State.runCopy (s : State) (c : Fin 64) (tagFail : Bool) (isCop : Nat → Bool) (offs : Nat → List Nat) (run : List Recipe → Space → Nat → Except Nat MovOut) : Result :=
  s.runMover c tagFail (fun raw => cmdOp raw == 0x22 && isCop (copOf raw)) offs (fun _ x sp raw => run x.prog.recipes sp raw)
/-- COPY PLAIN, and a reserved cop (R212). -/
def execPlain (c : Fin 64) (tagFail : Bool) (s : State) : Result := s.runCopy c tagFail (fun k => k == 0 || 7 ≤ k) (fun raw => [fld raw 95 72]) plainRun
/-- COPY KV_READ (R176, R181, R212). -/
def execKvRead (c : Fin 64) (s : State) : Result :=
  s.runCopy c false (· == 1) (fun raw => [fld raw 95 72] ++ if fld raw 237 236 = 3 then [fld raw 119 96] else []) kvReadRun
/-- COPY KV_WRITE (R174, R212). -/
def execKvWrite (c : Fin 64) (tagFail : Bool) (s : State) : Result := s.runCopy c tagFail (· == 2) (fun raw => [fld raw 119 96]) kvWriteRun
/-- COPY ALLOC (R175, R179). -/
def execAlloc (c : Fin 64) (tagFail : Bool) (s : State) : Result := s.runCopy c tagFail (· == 3) (fun _ => []) (fun _ sp q => allocRun sp q)
/-- COPY SHARE (R175). -/
def execShare (c : Fin 64) (tagFail : Bool) (s : State) : Result := s.runCopy c tagFail (· == 4) (fun _ => []) (fun _ sp q => shareRun sp q)
/-- COPY COW (R175, R179). -/
def execCow (c : Fin 64) (tagFail : Bool) (s : State) : Result := s.runCopy c tagFail (· == 5) (fun _ => []) (fun _ sp q => cowRun sp q)
/-- COPY FREE (R175, R177). -/
def execFree (c : Fin 64) (tagFail : Bool) (s : State) : Result := s.runCopy c tagFail (· == 6) (fun _ => []) (fun _ sp q => freeRun sp q)

end Sys2Proof.Machine
end

