-- ==== Sys2Proof/Machine/Pace.lean ====
section
/-! DEFINITION. Pacing states (R357): idleness and its gap (R359), the state it selects (R360), exit (R362), and the periodic evaluation of
a setpoint (R361). -/
namespace Sys2Proof.Machine

/-! Idleness (R359). -/

/-- A command waits on a channel, a feed ring or a HURDLE; a CONV that has started waits on its next halo channel (R122). -/
def State.headWaits (s : State) (c : Fin 64) (q : Fin 4) : Bool :=
  match (s.cl c).queues[q] with
  | [] => true
  | e :: _ => match e.phase with
    | .arrived => true
    | .waiting => !(s.cl c).pastHurdle e || cmdOp e.raw == 0x32 || (match s.site c with
      | some x =>
        let h := s.heat x.h
        (waitEn e.raw && !h.chanIs (h.waitChan x.own (waitId e.raw)) Chan.ready)
          || (postEn e.raw && !h.chanIs (h.postChan x.own (postId e.raw)) Chan.room)
      | none => false)
    | .halo n => (match s.site c with
      | some x => (haloTake (s.heat x.h) x.own e.raw n).1.isEmpty
      | none => false)
    | _ => false
/-- The control core is stalled in blk_issue, sum.get, a bsum instruction or enc_wait. -/
def Cluster.coreStalled (k : Cluster) : Bool :=
  k.core.running && (match k.fetch with
    | some (.blkIssue _ _ _, _) => k.issueStalls
    | some (.sumGet _, _) | some (.bsum _ _ _, _) => k.core.sums.isEmpty
    | some (.encWait _, _) => (match k.core.encs with
      | r :: _ => (match r.phase with
        | .done _ => false
        | _ => true)
      | [] => false)
    | _ => false)
/-- The cluster is idle. -/
def State.isIdle (s : State) (c : Fin 64) : Bool :=
  (List.finRange 4).all (fun q => s.headWaits c q) && (s.cl c).coreStalled
/-- The later of two completions, in end-latch order (R412). -/
def laterDone (a b : Option LastDone) : Option LastDone :=
  match a, b with
  | some x, some y => if x.seq ≤ y.seq then b else a
  | none, _ => b
  | _, none => a
/-- The gap of the entry of the block just completed, where no later block is issued: none for another case, some none for unknown (R358,
R359). -/
def State.blockGap (s : State) (c : Fin 64) : Option (Option Nat) :=
  let k := s.cl c
  match k.lastDone.toList.foldl laterDone none, s.site c with
  | some d, some x =>
    if d.last && d.iss + 1 == k.core.issueCount then
      let g := fld (s.eventOf x d.blk) 47 16
      some (if g = 0xFFFFFFFF then none else some (100 * g))
    else none
  | _, _ => none
/-- The least time left of the engines' next gaps; none where every engine is left out (R359). -/
def State.engineGap (s : State) (c : Fin 64) : Option Nat :=
  let gs := (s.cl c).lastDone.toList.filterMap (fun o => match o with
    | some d => if d.gap = 0xFFFF then none else some (100 * d.gap - (s.now - d.time))
    | none => none)
  match gs with
  | [] => none
  | g :: rest => some (rest.foldl min g)
/-- The gap G of a cluster that becomes idle, in 0.1 ns; none for unknown (R359). -/
def State.gapOf (s : State) (c : Fin 64) : Option Nat :=
  match s.blockGap c with
  | some g => g
  | none => s.engineGap c

/-! Choosing a state (R360). -/

/-- Minimum residency (R357). -/
def PaceState.residency : PaceState → Nat
  | .walk => 4 * micro
  | .rest => 100 * micro
  | _ => 0
/-- fits(s, G), in sixteenths so that nothing is rounded. -/
def fits (st : PaceState) (g : Nat) : Bool := 16 * (st.entry + st.residency + st.exit) + g ≤ 16 * g
/-- select_idle. -/
def selectIdle (g : Option Nat) : PaceState :=
  match g with
  | none => .jog
  | some g => if fits .rest g then .rest else if fits .walk g then .walk else .jog
/-- The cluster becomes idle (R359, R360, R369). -/
def execClusterIdle (c : Fin 64) (s : State) : Result :=
  let k := (s.cl c).pc
  if k.st.asleep || k.move != .settled || s.com.boot.power != .up || s.com.pw.floor || !s.isIdle c then .next s
  else
    let g := s.gapOf c
    let st := if s.pacingOn then selectIdle g else .jog
    let s := s.setPace c st (.entering (s.now + st.entry))
    .next (s.modCl c (fun t => { t with pc := { t.pc with
      idleSince := some s.now, gap := g
      exitAt := g.map (fun g => s.now + (g - g / 32 - st.exit)) } }))
/-- 20 µs of unbroken idleness with an unknown gap: from Jog to Walk (R360). -/
def execJogToWalk (c : Fin 64) (s : State) : Result :=
  let k := (s.cl c).pc
  match k.idleSince with
  | some t =>
    if k.st = .jog ∧ k.move = .settled ∧ k.gap = none ∧ s.pacingOn ∧ s.com.boot.power = .up then
      let s := s.reach (t + 20 * micro)
      .next (s.setPace c .walk (.entering (s.now + PaceState.entry .walk)))
    else .next s
  | none => .next s
/-- Entry is complete; in Rest the accumulators and the row buffer are lost (R357). -/
def execPacingEntryDone (c : Fin 64) (s : State) : Result :=
  match (s.cl c).pc.move with
  | .entering t =>
    let s := (s.reach t).modCl c (fun k => { k with pc := { k.pc with move := .settled } })
    if (s.cl c).pc.st = .rest then
      .next (s.useFree.modCl c (fun k => { k with acc := ⟨[], some s.free⟩, rowBuf := .unspecified s.free }))
    else .next s
  | _ => .next s
/-- The timer of a known gap (R362). -/
def execExitTimer (c : Fin 64) (s : State) : Result :=
  match (s.cl c).pc.exitAt with
  | some t => if s.com.boot.power = .up then .next ((s.reach t).beginExit c) else .next s
  | none => .next s
/-- The wake line (R362). What raised it does not matter to the regulator. -/
def execWakeLine (c : Fin 64) (_why : WakeCause) (s : State) : Result :=
  if (s.cl c).retired then .next s else .next (s.beginExit c)
/-- Exit is complete: the cluster works at the setpoint of the work that wakes it (R357, R362). -/
def execPacingExitDone (c : Fin 64) (s : State) : Result :=
  match (s.cl c).pc.move with
  | .leaving t =>
    let s := s.reach t
    let st := if 750 ≤ (s.cl c).pc.active then PaceState.sprint else .stride
    .next (((s.setPace c st .settled).modCl c (fun k => { k with pc := { k.pc with
      idleSince := none, gap := none, exitAt := none } })).pace c)
  | _ => .next s

/-! Evaluation (R361). -/

/-- The rate at 0.75 V brought to 65 °C by the factor of R28, rounded down (R28, R414; DEDUCED, log 28). -/
def rateAt65 (rate75 : Nat) (quarterC : Int) : Nat := (10000 * (rate75 : Int) / (10000 - 3 * (quarterC - 260))).toNat
/-- Keep a cluster's rate for the life log: at its first boot, and latest (R414). -/
def Storage.noteRate (k : Storage) (c rate : Nat) : Storage :=
  let put := fun (l : List Nat) => (l ++ List.replicate (64 - l.length) 0).set c rate
  { k with rates := (if k.rates.1.getD c 0 = 0 then put k.rates.1 else k.rates.1, put k.rates.2) }
/-- The measured rate is below a STRIDE block's target (R361). -/
def belowTarget (k : Pacing) : Bool := k.pace == 2 && k.rateNow * 25600 < k.frac * k.rate75 * 102
/-- Every 100 µs, and whenever the temperature has changed by 2 °C: the rates are read and the setpoint evaluated again (R29, R361, R409). -/
def execPaceEvaluate (c : Fin 64) (rate75 rateNow : Nat) (s : State) : Result :=
  let k := (s.cl c).pc
  if (s.cl c).retired || s.com.boot.power != .up || !s.com.pw.good then .next s
  else
    let s := if 8 ≤ (k.temp - k.evalTemp).natAbs then s else s.reach (k.evalAt + 100 * micro)
    let s := (s.setLevel 1 c.val 26 rateNow).setLevel 1 c.val 27 rate75
    let s := s.modStore (fun g => g.noteRate c.val (rateAt65 rate75 k.temp))
    let s := s.modCl c (fun t => { t with pc := { t.pc with rate75 := rate75, rateNow := rateNow, evalTemp := t.pc.temp, evalAt := s.now } })
    let s := s.modCl c (fun t => { t with pc := { t.pc with
      raised := if belowTarget t.pc && !t.pc.st.asleep && t.pc.active < 850 then t.pc.raised + 10 else t.pc.raised } })
    .next (s.pace c)

end Sys2Proof.Machine
end

