-- ==== Sys2Proof/Machine/Power.lean ====
section
/-! DEFINITION. Power input and rails (R352 to R355, R429, R434), the power envelope (R364 to R367) and temperature (R368). -/
namespace Sys2Proof.Machine

/-- A POWER report: 0 brown-out, 1 thermal step, 2 hardware limit (R393; the detail's layout is DESIGN CHOICE, log 29). -/
def State.powerReport (s : State) (what : Nat) : State := s.report 0x09 0xFF 0 0 (natLE 1 what)
/-- The input voltage as the monitor has it (R409, R435). -/
def State.setVin (s : State) (mv : Nat) : State :=
  let ok := 46000 ≤ mv && mv ≤ 58000
  let bad := fun (p : Power) => if ok then p.vinBad.filter (fun t => s.now < t + 10 * milli) else some s.now
  (s.modPw (fun p => { p with vin := mv, measured := true, vinBad := bad p })).setLevel 9 0 2 mv

/-! Standby rail (R352, R434). -/

/-- The input rises above 40 V. -/
def execStandbyRailRise (s : State) : Result :=
  if s.com.pw.standby then .next s else .next (s.modPw (fun p => { p with standby := true, measured := false }))
/-- The input falls below 40 V: everything on the standby rail is lost, the latches included (R434, R436). PWR_EN is the baseboard's, and keeps
its level. -/
def execStandbyRailLoss (s : State) : Result :=
  if s.com.pw.standby then
    .next (s.railsOff.modCom (fun k => { k with pw := { Power.reset with pwrEn := k.pw.pwrEn }, tap := JtagTap.reset }))
  else .next s

/-! Power-up and power-down (R353, R354). -/

/-- A power-up sequence begins. -/
def State.beginRise (s : State) : State := s.modPw (fun p => { p with rising := true, rail := 0, railFail := 0, needCycle := false })
/-- Power-up begins where PWR_EN is high and honoured: the input has stayed in range, and neither a fault nor a failure stands (R353, R355). -/
def State.tryRise (s : State) : State :=
  let p := s.com.pw
  if p.standby && p.pwrEn && !p.rising && !p.good && !p.needCycle && !p.inputFault && p.vinBad.isNone then s.beginRise else s
/-- PWR_EN has been low for lowMs and goes high (R353): after a rail failure it must have been low for 100 ms; with the input out of range
power-up waits, and after an input fault the input must recover first (R355). -/
def execPwrEnRise (lowMs : Nat) (s : State) : Result :=
  let p := s.com.pw
  if !p.standby || p.pwrEn then .next s
  else .next (s.modPw (fun p => { p with pwrEn := true, needCycle := p.railFail != 0 && lowMs < 100 })).tryRise
/-- The next rail is in regulation; with the fourth, the feed die's at 27 ms, the power core and the security core leave reset (R353). -/
def execRailStep (s : State) : Result :=
  if s.com.pw.rising ∧ s.com.pw.rail < 8 then
    let s := s.modPw (fun p => { p with rail := p.rail + 1 })
    .next (if s.com.pw.rail = 4 then s.modBoot (fun b => { b with security := .up, power := .up }) else s)
  else .next s
/-- A rail, or after the last one the reference clock, does not come within 10 ms of its step (R353, R429). -/
def execRailFailure (s : State) : Result :=
  let p := s.com.pw
  if p.rising ∧ !p.good then
    .next ((s.railsOff.modPw (fun q => { q with railFail := min 8 (p.rail + 1), needCycle := true })).alert 0)
  else .next s
/-- PWR_EN goes low (R354). A trip needs nothing more than this cycle (R368). -/
def execPwrEnFall (s : State) : Result :=
  if s.com.pw.pwrEn then .next (s.railsOff.modPw (fun p => { p with pwrEn := false, needCycle := p.railFail != 0 })) else .next s

/-! Input faults and brown-out (R355). -/

/-- Below 45 V for 50 µs. -/
def execBrownOut (mv : Nat) (s : State) : Result :=
  if s.com.pw.standby ∧ mv < 45000 ∧ !s.com.pw.brownOut then
    let s := ((s.setVin mv).modPw (fun p => { p with brownOut := true })).alert 1
    if s.com.pw.good then .next (((s.bump 9 0 4).powerReport 0).journal 4 0 0 0 0) else .next s
  else .next s
/-- At or above 46 V for 100 ms. -/
def execBrownOutEnd (mv : Nat) (s : State) : Result :=
  if s.com.pw.brownOut ∧ 46000 ≤ mv then .next ((s.setVin mv).modPw (fun p => { p with brownOut := false })).tryRise else .next s
/-- An input fault: latched, and the module shuts down (R355, R436). -/
def State.inputFault (s : State) : State := ((s.railsOff).modPw (fun p => { p with inputFault := true })).alert 4
/-- Below 42 V for 20 µs. -/
def execInputUndervoltage (mv : Nat) (s : State) : Result :=
  if s.com.pw.standby ∧ mv < 42000 ∧ (!s.com.pw.inputFault ∨ s.com.pw.rising ∨ s.com.pw.good) then .next (s.inputFault.setVin mv)
  else .next s
/-- Above 60 V for 10 µs: the hot-swap switch opens first. -/
def execInputOvervoltage (mv : Nat) (s : State) : Result :=
  if s.com.pw.standby ∧ 60000 < mv ∧ (!s.com.pw.switchOpen ∨ s.com.pw.rising ∨ s.com.pw.good) then
    .next ((s.inputFault.modPw (fun p => { p with switchOpen := true })).setVin mv)
  else .next s
/-- The input has stayed in range for 100 ms with PWR_EN high: power-up again (R353, R355). The latch of the fault stays for the boot to record
(R417), or went with the standby rail. -/
def execInputRecovery (mv : Nat) (s : State) : Result :=
  let p := s.com.pw
  if p.standby ∧ p.pwrEn ∧ !p.rising ∧ !p.good ∧ 46000 ≤ mv ∧ mv ≤ 58000 then
    let s := (s.setVin mv).modPw (fun p => { p with brownOut := false, switchOpen := false, vinBad := none })
    if p.needCycle then .next s else .next s.beginRise
  else .next s

/-! The envelope (R364, R365). -/

/-- The 1 ms average of input power, every 10 µs: measured and counted (R355, R409), and held against the limit less 50 W while the power core
runs (R364, R365; DEDUCED, log 30). -/
def execPowerAverage (watts mv : Nat) (s : State) : Result :=
  if !s.com.pw.standby then .next s
  else
    let s := s.reach (s.com.pw.polls.1 + 10 * micro)
    let s := s.modPw (fun p => { p with polls := (s.now, p.polls.2) })
    let e := s.com.pw.energyUj + 10 * watts
    let s := (((s.setVin mv).modPw (fun p => { p with pin := watts, energyUj := e % 1000 })).bump 9 0 0 (e / 1000)).setLevel 9 0 1 watts
    let s := (s.bumpBin 9 0 13 (watts / 125)).modStore (fun k => { k with watts := (k.watts.1 + watts, k.watts.2 + 1) })
    if !s.com.pw.good || s.com.boot.power != .up then .next s.tryRise
    else
      let limit := s.powerLimit
      let above := limit < watts + 50
      let s := s.modPw (fun p => { p with
        overLim := above, capMv := if above then 750 else p.capMv
        underSince := if watts + 100 ≤ limit then some (p.underSince.getD s.now) else none })
      .next (if above then s.applyAll else s)
/-- 10 mV off an active cluster, down to 0.55 V. -/
def shedOne (k : Pacing) : Pacing := if !k.st.asleep && 550 < k.active then { k with shed := k.shed + 10 } else k
/-- 10 mV back. -/
def restoreOne (k : Pacing) : Pacing := { k with shed := k.shed - 10 }
/-- One round of 100 µs: shed while the average is over the limit; restore in the reverse order, 10 mV a round, once it has stayed 100 W below for
1 ms (R365). -/
def execShedRound (s : State) : Result :=
  if !s.com.pw.good || s.com.boot.power != .up then .next s
  else
    let s := s.reach (s.com.pw.polls.2.1 + 100 * micro)
    let s := s.modPw (fun p => { p with polls := (p.polls.1, s.now, p.polls.2.2) })
    let p := s.com.pw
    let each := fun (s : State) (f : Pacing → Pacing) => (List.finRange 64).foldl (fun s c => s.modCl c (fun k => { k with pc := f k.pc })) s
    if p.overLim then .next (each s shedOne).applyAll
    else if (p.underSince.map (fun t => decide (t + milli ≤ s.now))).getD false then
      if s.clusters.toList.any (fun k => k.pc.shed != 0) then .next (each s restoreOne).applyAll
      else .next (s.modPw (fun p => { p with capMv := min 850 (p.capMv + 10) })).applyAll
    else .next s

/-! The hardware limit and the hardware floor (R366, R367). -/

/-- The 20 µs average is above the threshold: the power limit plus 5 %, or 1,250 W under the brown-out cap (R355, R366). -/
def State.hardOver (s : State) (watts : Nat) : Bool :=
  if s.com.pw.brownOut then 1250 < watts else s.limitW * 105 < 100 * watts
/-- The hardware limit, every 20 µs, without the power core (R366). -/
def execHardwareLimit (watts : Nat) (s : State) : Result :=
  if !s.com.pw.good then .next s
  else
    let s := s.reach (s.com.pw.polls.2.2.1 + 20 * micro)
    let s := s.modPw (fun p => { p with polls := (p.polls.1, p.polls.2.1, s.now, p.polls.2.2.2) })
    let p := s.com.pw
    let s := if p.pause ≠ 0 then s.bump 9 0 3 3125 else s
    if s.hardOver watts then
      let s := if p.pause = 0 then s.powerReport 2 else s
      .next (s.modPw (fun p => { p with pause := min 6 (p.pause + 1), pauseAt := s.now }))
    else if p.pause ≠ 0 ∧ watts < s.powerLimit ∧ p.pauseAt + 100 * micro ≤ s.now then
      .next (s.modPw (fun p => { p with pause := p.pause - 1, pauseAt := s.now }))
    else .next s
/-- The power core's heartbeat has lapsed for 10 ms: every cluster below 0.75 V goes to 0.75 V, and every cluster wakes (R337, R367). -/
def execHeartbeatLapse (s : State) : Result :=
  if !s.com.pw.good || s.com.boot.power == .up || s.com.pw.floor then .next s
  else .next ((List.finRange 64).foldl (fun s c => (s.applyPace c).beginExit c) (s.modPw (fun p => { p with floor := true })))

/-! Temperature (R368). -/

/-- The restrictions a junction temperature in quarter degrees sets and ends (R368). -/
def thermal (k : Pacing) (t : Int) : Pacing :=
  { k with temp := t
           noSprint := if t < 368 then false else k.noSprint || decide (380 ≤ t)
           cap700 := if t < 368 then false else k.cap700 || decide (400 ≤ t) }
/-- One junction sensor is read. -/
def State.readJunction (s : State) (c : Fin 64) (t : Int) : State :=
  let k := (s.cl c).pc
  let new := thermal k t
  let s := (s.modCl c (fun g => { g with pc := { g.pc with temp := t } })).setLevel 1 c.val 28 t
  if !s.com.pw.good || s.com.boot.power != .up || (s.cl c).retired then s
  else
    let s := s.modCl c (fun g => { g with pc := new })
    let s := if new.cap700 && !k.cap700 then ((s.bump 9 0 5).alert 2).powerReport 1 else s
    if new.cap700 != k.cap700 || new.noSprint != k.noSprint then s.applyPace c else s
/-- Every 100 µs the junction sensors are read, 64 of clusters and 4 of the feed die, and the board sensor (R368, R409, R435). -/
def execSensorRead (quarterC : List Int) (boardQuarterC : Int) (s : State) : Result :=
  if !s.com.pw.standby then .next s
  else
    let s := s.reach (s.com.pw.polls.2.2.2 + 100 * micro)
    let s := s.modPw (fun p => { p with polls := (p.polls.1, p.polls.2.1, p.polls.2.2.1, s.now) })
    let s := ((List.finRange 64).zip quarterC).foldl (fun (s : State) ct => s.readJunction ct.1 ct.2) s
    let feed := quarterC.drop 64
    let s := s.modPw (fun p => { p with tBoard := boardQuarterC, feedTemp := feed, measured := true })
    match feed with
    | [] => .next s
    | t :: rest => .next (s.setLevel 9 0 12 (rest.foldl max t))
/-- A thermal trip, by a sensor or by the hardware comparator: latched, and shutdown whatever the firmware does (R368, R436). Which sensor
tripped changes nothing. -/
def execThermalTrip (_sensor : Nat) (s : State) : Result :=
  if s.com.pw.good ∨ s.com.pw.rising then
    .next ((s.railsOff.modPw (fun p => { p with tripped := true, needCycle := true })).alert 3)
  else .next s

/-! The reference clock (R429). -/

/-- The clock has been absent for 10 µs. -/
def execClockLoss (s : State) : Result :=
  if s.com.pw.good ∧ s.com.pw.clockLost = none then
    let s := s.reach (s.now + 10 * micro)
    .next ((s.modPw (fun p => { p with clockLost := some s.now })).alert 6)
  else .next s
/-- Every lane of a port trains again. -/
def Port.retrain (k : Port) (now : Nat) : Port :=
  let ls := k.lanes.map (fun (x : Lane) => { x with up := false, lock := false, good := 0, bad := 0, count := none })
  { k with lanes := ls, downSince := if k.retired || !k.anyLane then k.downSince else some now }
/-- The clock is back: the flag clears and the links retrain. -/
def execClockReturn (s : State) : Result :=
  if s.com.pw.clockLost.isSome then
    let s := s.modPw (fun p => { p with clockLost := none })
    let s := (List.finRange 32).foldl (fun s p => s.modPort p (fun k => k.retrain s.now)) s
    let s := [0, 1].foldl (fun (s : State) fp => s.modFeed fp (fun k => { k with
      up := false, downSince := if k.up then some s.now else k.downSince })) s
    .next (s.modMgmt (fun m => { m with link := false }))
  else .next s
/-- The clock has not come back within 1 s: shutdown as at an input fault (R355, R429). -/
def execClockLossTimeout (s : State) : Result :=
  match s.com.pw.clockLost with
  | some t => if s.com.pw.good then .next (s.reach (t + second)).inputFault else .next s
  | none => .next s

end Sys2Proof.Machine
end

