-- ==== Sys2Proof/Machine/Sample.lean ====
section
/-! DEFINITION. The sample pipeline's events (R273 to R287, R291, R295): fetching, transport, congestion, address resolution, a port that goes
down, posting. -/
namespace Sys2Proof.Machine

/-! Fetching (R279, R280, R283, R284). -/

/-- The reads of a record: at most 1 MiB each (R275). -/
def recordReads (i remote rkey len : Nat) : List Read :=
  (List.range (ceilDiv len mib)).map (fun k => newRead (.record i (k * mib)) ((remote + k * mib) % 2 ^ 64) rkey (min mib (len - k * mib)))
/-- Queue the reads of a sample's record. -/
def State.fetchRecord (s : State) (hi : Fin 4) (p : Program) (x : Sample) : State :=
  let e := x.entry
  (recordReads x.idx (fld e 127 64) (fld e 159 128) (fld e 63 32)).foldl (fun s r => s.addRead hi p (fld e 5 0) r) s
/-- The sample whose record is fetched next: the first without one, once its entry and every earlier one has come (R283). -/
def Pipeline.nextRecord (p : Pipeline) : Option Sample :=
  (p.samples.find? (fun x => x.phase == .entry || (x.phase == .record && x.record_.isNone))).filter (fun x => x.phase == .record)
/-- The next record gets its place and its reads, where there is room and fewer than 256 are in flight (R283, R284). -/
def State.startRecord (s : State) (hi : Fin 4) (p : Program) : State :=
  let pp := (s.heat hi).pipe
  match pp.nextRecord with
  | none => s
  | some x =>
    let n := fld x.entry 63 32
    if 256 ≤ pp.inFlight then s
    else match ringPlace p.recordRegion.2 pp.recHead pp.oldestRecord (ringBlock n) with
    | none => s
    | some off =>
      let s := (s.modPipe hi (fun q => { q with recHead := off + ringBlock n })).modSample hi x.idx (fun x => { x with record_ := some (off, n) })
      s.fetchRecord hi p { x with record_ := some (off, n) }
/-- The next sample's entry is fetched (R279, R283). -/
def State.startEntry (s : State) (hi : Fin 4) (p : Program) : State :=
  let h := s.heat hi
  match h.nextSample p with
  | none => s
  | some i =>
    let x : Sample := ⟨i, .entry, 0, none, false, none, [], none, 0, false⟩
    let s := s.modPipe hi (fun q => { q with next := i + 1, samples := q.samples ++ [x] })
    s.addRead hi p (fld p.planHdr 5 0) (newRead (.entry i)
      ((fld p.planHdr 127 64 + 64 * (i % p.entryCount)) % 2 ^ 64) (fld p.planHdr 63 32) 64)
/-- The pipeline fetches what it has room for: reads that were held go on, the first record that waits for room starts, and one more entry is
read (R275, R283, R284). -/
def execSampleFetch (hi : Fin 4) (s : State) : Result :=
  match (s.heat hi).image with
  | some p =>
    if (s.heat hi).phase = .running ∧ !s.frozenHeat hi then
      .next ((((s.settleReads hi p).startRecord hi p).startEntry hi p).settleSamples hi p)
    else .next s
  | none => .next s

/-! Answers (R275, R280, R295). -/

/-- Why an entry is rejected (R280, R284, R294). -/
def entryFault (p : Program) (e : Nat) : Option Nat :=
  let w := fld e 31 16
  if !rsv e 7 6 || !rsv e 255 224 || p.serverCount ≤ fld e 5 0 || p.augCount ≤ fld e 15 8 || fld w 14 7 == 255
    || (bitAt w 15 && w != 0x8000) || fld e 63 32 < 64 then some 6
  else if fld w 14 0 = 0 then none
  else if p.recordRegion.2 / 2 < fld e 63 32 then some 8
  else none
/-- A sample's table entry has come (R280). -/
def State.onEntry (s : State) (hi : Fin 4) (p : Program) (i : Nat) (data : Bytes) : State :=
  let e := leNat data
  let s := s.modSample hi i (fun x => { x with entry := e })
  match entryFault p e with
  | some r => s.reject hi p i r
  | none =>
    if fld e 30 16 = 0 then s.sampleReady hi p i
    else (s.modSample hi i (fun x => { x with phase := .record })).startRecord hi p
/-- Bytes of a record have come; with the last of them it has landed (R283). -/
def State.onRecord (s : State) (hi : Fin 4) (p : Program) (i off : Nat) (data : Bytes) : State :=
  let base := match ((s.heat hi).sample i).bind Sample.record_ with
    | some (o, _) => p.recordRegion.1 + o
    | none => 0
  let s := s.engineWrite hi (base + off) data
  let left := (s.heat hi).pipe.qps.any (fun q => q.reads.any (fun r => r.what.idx == i))
  if left then s else s.modSample hi i (fun x => { x with phase := .landed })
/-- A feed port retires: its reads move to the other port (R275, R331). -/
def State.retireFeed (s : State) (fp : Fin 2) : State :=
  if (s.com.feed[fp]).retired || s.clockLost then s
  else
    let s := (s.modFeed fp (fun k => { k with retired := true, up := false })).noteRetired 11 fp.val 0xFF
    (List.finRange 4).foldl (fun (s : State) hi => match (s.heat hi).image with
      | some p => s.settleReads hi p
      | none => s) s
/-- A feed port is charged a retry of its own; more than 16 in 1 s retire it, as 3 failures of one read do (R275, R331). -/
def State.chargeFeed (s : State) (fp : Fin 2) (thrice : Bool) : State :=
  if s.clockLost then s
  else
    let s := s.transient.modFeed fp (fun k => { k with retries := chargeAt s.now k.retries })
    if thrice || overCharged (s.com.feed[fp]).retries then s.retireFeed fp else s
/-- The program of a running heat. -/
def State.pipeOf (s : State) (hi : Fin 4) : Option Program := if (s.heat hi).phase = .running then (s.heat hi).image else none
/-- The place of the oldest read a queue pair has sent. -/
def Qp.oldest (q : Qp) : Option (Nat × Read) :=
  (q.reads.findIdx? (fun r => r.sentAt.isSome)).bind (fun i => (q.reads[i]?).map (fun r => (i, r)))
/-- A frame a feed port cannot use: dropped, one retry charged to the port, and counted where its ICRC fails (R275, R331, R409). The oldest read
of its queue pair, if there is one, has lost an answer. -/
def State.badFrame (s : State) (hi : Fin 4) (fp : Fin 2) (server : Nat) (f : FrameFault) : State :=
  let q := (s.heat hi).qp fp.val server
  let s := if f = .icrc then s.bump 5 fp.val 4 else s
  match (s.pipeOf hi).bind (fun _ => q.oldest) with
  | some (i, r) => (s.putQp hi { q with reads := q.reads.set i { r with lost := r.lost + 1 } }).chargeFeed fp (3 ≤ r.lost + 1)
  | none => s.chargeFeed fp false
/-- A frame for a queue pair: one the port cannot use, or the answer to its oldest read, a remote access NAK or data (R274, R275). -/
def execRdmaReadResponse (hi : Fin 4) (fp : Fin 2) (server : Fin 64) (data : Bytes) (nak : Bool) (bad : Option FrameFault) (s : State) : Result :=
  if !(s.com.feed[fp]).up then .next s
  else match bad with
  | some f => .next (s.badFrame hi fp server.val f)
  | none =>
  let q := (s.heat hi).qp fp.val server.val
  match s.pipeOf hi, q.oldest with
  | some p, some (i, r) =>
    if nak then
      let s := (s.putQp hi { q with reads := q.reads.set i { r with sentAt := none, nakAt := some s.now } }).bump 5 fp.val 7
      .next (State.pumpQp hi p fp.val server.val 16 s)
    else if data.length ≠ r.len then .next s
    else
      let s := (s.putQp hi { q with reads := q.reads.eraseIdx i }).bump 5 fp.val 0 data.length
      let s := State.pumpQp hi p fp.val server.val 16 s
      match r.what with
      | .entry k => .next ((s.onEntry hi p k data).afterPart hi p)
      | .record k off => .next (s.onRecord hi p k off data)
  | _, _ => .next s

/-! A record that has landed (R281, R282, R295). -/

/-- The parts of a record, or why it is rejected (R281, R282, R293, R294). A recipe cannot produce video with a clip_max above 64 (R298), nor a
kind the image has no tables for (DEDUCED, log 41). -/
def parseRecord (p : Program) (tok : Mem) (recipe : Nat) (bs : Bytes) : Except Nat (List PartSt) :=
  let h := leAt bs 0 32
  let n := fld h 35 32
  let ws := (List.range n).map (fun i => leAt bs (32 + 16 * i) 16)
  let span := fun (w : Nat) => (fld w 31 0, fld w 63 32)
  let meets := (List.range n).any (fun i => (List.range i).any (fun j =>
    let a := span (ws.getD i 0)
    let b := span (ws.getD j 0)
    overlaps a.1 a.2 b.1 b.2))
  if fld h 31 0 ≠ 0x3152535A || n < 1 || 8 < n || !rsv h 255 36 || bs.length < 32 + 16 * n
    || ws.any (fun w => !rsv w 127 80 || fld w 63 32 < 1 || fld w 31 0 < 32 + 16 * n || bs.length < fld w 31 0 + fld w 63 32)
    || meets then .error 5
  else if ws.any (fun w => !codecOk (fld w 71 64) || (fld w 71 64 == 0x30 && tok.isEmpty)
    || ((codecUnits (fld w 71 64)).1 == 16 && p.audio.isEmpty) || (codecVideo (fld w 71 64) && 64 < rcClip recipe)) then .error 4
  else if ws.any (fun w => fld w 71 64 == 0x30 && 16 * mib < fld w 63 32) then .error 2
  else .ok (ws.map (fun w => ⟨fld w 71 64, fld w 79 72, fld w 31 0, fld w 63 32, .waiting, none, [], none, []⟩))
/-- A landed record is checked: its parts go to decode, or it is fetched again, and rejected at the third failure (R281, R295). -/
def execRecordLanded (hi : Fin 4) (i : Nat) (s : State) : Result :=
  match s.pipeOf hi, (s.heat hi).sample i with
  | some p, some x =>
    match x.phase, x.record_ with
    | .landed, some (off, len) =>
      if s.frozenHeat hi then .next s else
      let bs := (s.heat hi).mem.get (p.recordRegion.1 + off) len
      if crc32c bs = fld x.entry 191 160 then
        match parseRecord p (s.heat hi).tok (p.aug (fld x.entry 15 8)) bs with
        | .error r => .next ((s.reject hi p i r).afterPart hi p)
        | .ok ps => .next ((s.modSample hi i (fun x => { x with phase := .decoding, parts := ps })).assign hi)
      else if 3 ≤ x.checkFails + 1 then .next ((s.reject hi p i 5).afterPart hi p)
      else .next ((s.transient.modSample hi i (fun x => { x with phase := .record, checkFails := x.checkFails + 1 })).fetchRecord hi p x)
    | _, _ => .next s
  | _, _ => .next s

/-! Timeouts and NAKs (R275). -/

/-- A queue pair enters the error state: reported, its reads moved to the other port's (R275, R393). -/
def State.failQp (s : State) (hi : Fin 4) (p : Program) (q : Qp) : State :=
  ((s.putQp hi { q with err := true }).report 0x0A hi.val 0 0 (natLE 1 q.port ++ natLE 1 q.server)).moveReads hi p q.port q.server
/-- 67 ms without an answer: sent again up to 7 times, then the queue pair fails (R275). -/
def execAckTimeout (hi : Fin 4) (fp : Fin 2) (server : Fin 64) (s : State) : Result :=
  let q := (s.heat hi).qp fp.val server.val
  match s.pipeOf hi, q.oldest with
  | some p, some (i, r) =>
    let s := s.reach (r.sentAt.getD s.now + 67 * milli)
    if 7 ≤ r.tries then .next (s.failQp hi p q)
    else
      let r := { r with tries := r.tries + 1, sentAt := some s.now }
      let s := (s.transient.bump 5 fp.val 3).putQp hi { q with reads := q.reads.set i r }
      .next (s.sendRead hi p q r)
  | _, _ => .next s
/-- A fetch held by a NAK is sent again after 1 s, with a new sequence number (R275). -/
def execNakRetry (hi : Fin 4) (fp : Fin 2) (server : Fin 64) (s : State) : Result :=
  let q := (s.heat hi).qp fp.val server.val
  match s.pipeOf hi, q.reads.find? (fun r => r.nakAt.isSome) with
  | some p, some r =>
    let s := s.reach (r.nakAt.getD s.now + second)
    let free := fun (x : Read) => if x.nakAt = r.nakAt then { x with nakAt := none } else x
    let s := s.putQp hi { q with reads := q.reads.map free }
    .next (State.pumpQp hi p fp.val server.val 16 s)
  | _, _ => .next s

/-! Congestion (R276). -/

/-- A CE-marked packet: one CNP, at most one in 50 µs for a queue pair. -/
def execCePacket (hi : Fin 4) (fp : Fin 2) (server : Fin 64) (s : State) : Result :=
  let q := (s.heat hi).qp fp.val server.val
  match s.pipeOf hi with
  | none => .next s
  | some p =>
    if (q.cnpOut.map (fun t => decide (s.now < t + 50 * micro))).getD false then .next s
    else .next (((s.putQp hi { q with cnpOut := some s.now }).emit (cnpPacket (s.qpHdr hi p q q.psn))).bump 5 fp.val 5)
/-- A CNP: the rate halves, down to 1/64 of the port rate. -/
def execCnpReceived (hi : Fin 4) (fp : Fin 2) (server : Fin 64) (s : State) : Result :=
  let q := (s.heat hi).qp fp.val server.val
  if (s.pipeOf hi).isNone then .next s
  else .next ((s.putQp hi { q with rate := max 1024 (q.rate / 2), cnpIn := some s.now }).bump 5 fp.val 6)
/-- 100 µs without a CNP: the rate rises by 1/16 of the port rate. -/
def execRateRecovery (hi : Fin 4) (fp : Fin 2) (server : Fin 64) (s : State) : Result :=
  let q := (s.heat hi).qp fp.val server.val
  match s.pipeOf hi, q.cnpIn with
  | some _, some t =>
    let s := s.reach (t + 100 * micro)
    .next (s.putQp hi { q with rate := min 65536 (q.rate + 4096), cnpIn := if 65536 ≤ q.rate + 4096 then none else some s.now })
  | _, _ => .next s

/-! Addresses (R274, R377). -/

/-- An ARP request for the port's own IPv4 address is answered with its MAC (R274; the order of the address bytes is DEDUCED, log 37). -/
def execArpRequest (fp : Fin 2) (target : Bytes) (s : State) : Result :=
  if target.length = 4 then
    match s.com.boot.portRecord fp with
    | some r =>
      if (s.com.feed[fp]).up && fld r 191 64 == 0xFFFF * 2 ^ 32 + beNat target then .next (s.emit (.arpReply fp.val target (natBE 6 (fld r 47 0))))
      else .next s
    | none => .next s
  else .fault .illFormed
/-- A neighbour solicitation for the port's own IPv6 address is answered (R274). -/
def execNeighborSolicitation (fp : Fin 2) (target : Bytes) (s : State) : Result :=
  if target.length = 16 then
    match s.com.boot.portRecord fp with
    | some r =>
      if (s.com.feed[fp]).up && fld r 191 64 == beNat target then .next (s.emit (.neighbourAdvert fp.val target (natBE 6 (fld r 47 0))))
      else .next s
    | none => .next s
  else .fault .illFormed

/-! A port that goes down, and posting. -/

/-- A feed port's link goes down and stays down for 1 s: the port retires (R275). -/
def execFeedPortLinkDown (fp : Fin 2) (s : State) : Result :=
  let k := s.com.feed[fp]
  if k.retired || (!k.up && k.downSince.isNone) then .next s
  else
    let t := k.downSince.getD s.now
    let s := (s.modFeed fp (fun k => { k with up := false, downSince := some t })).reach (t + second)
    .next (s.retireFeed fp)
/-- The feed channel that takes a sample next: the first with one still to come, a free slot and a consumer that accepts transfers, its place
among the feed channels, and the sample's index (R28, R287). -/
def State.nextPost (s : State) (hi : Fin 4) : Option (Nat × Nat) :=
  let h := s.heat hi
  let feeds := h.chans.filter (fun c => c.def_.prod.isNone)
  (List.range feeds.length).findSome? (fun k => match feeds[k]?, h.pipe.order[h.pipe.sent.getD k 0]? with
    | some c, some i => if c.room && s.reach? hi (h.runs c.def_.cons) then some (k, i) else none
    | _, _ => none)
/-- A sample is posted to one feed channel: its descriptor goes to the ring's next slot, without the staging buffer's ready bit (R286 to
R288). -/
def State.postSample (s : State) (hi : Fin 4) (k i : Nat) : State :=
  let h := s.heat hi
  let n := (h.chans.filter (fun c => c.def_.prod.isSome)).length + k
  match h.chans[n]? with
  | none => s
  | some c =>
    let w := leNat (h.staging.get (h.descOffset i) 256)
    let bs := natLE 256 (if bitAt w 104 then w - 2 ^ 104 else w)
    let s := match h.clusterList[h.runs c.def_.cons]? with
      | some cl => s.modCl cl (fun t => { t with store := t.store.put (c.def_.buffer + 256 * (c.posted % c.def_.slots)) bs })
      | none => s
    let s := s.modHeat hi (fun h => { h.modChan n (fun c => { c with posted := c.posted + 1 }) with
      pipe := { h.pipe with sent := h.pipe.sent.modify k (· + 1) } })
    let pp := (s.heat hi).pipe
    if pp.sent.all (fun m => pp.order.idxOf i < m) then
      (s.modSample hi i (fun x => { x with posted := true })).bump 8 hi.val 7
    else s
/-- A ready sample of the step under way is posted to a feed channel with room (R265, R287). -/
def execSamplePost (hi : Fin 4) (s : State) : Result :=
  match s.pipeOf hi with
  | none => .next s
  | some p =>
    let s := s.settleSamples hi p
    if !(s.heat hi).pipe.posting || s.frozenHeat hi then .next s
    else match s.nextPost hi with
    | some (k, i) => .next ((s.postSample hi k i).refreshHeld hi)
    | none => .next s

end Sys2Proof.Machine
end

