-- ==== Sys2Proof/Machine/Smbus.lean ====
section
/-! DEFINITION. The SMBus target (R435, R436). It is powered by the standby rail; without it nothing answers. -/
namespace Sys2Proof.Machine

/-- A word is read. -/
def State.smbusRead (s : State) (v : Nat) : Result := if s.com.pw.standby then .next (s.emit (.smbus v)) else .next s
/-- A bit of a register. -/
def bitIf (b : Bool) (i : Nat) : Nat := if b then 2 ^ i else 0
/-- HALTED or recovery mode. -/
def State.stopped (s : State) : Bool := s.com.boot.state == .halted || s.com.boot.state == .recovery
/-- STATE. -/
def State.smbusState (s : State) : Nat :=
  let p := s.com.pw
  bitIf p.good 0 + bitIf s.alertLow 1 + bitIf p.tripped 2 + bitIf p.inputFault 3 + bitIf p.brownOut 4 + bitIf s.stopped 5 + bitIf s.clockLost 6
/-- STATE, 0x00. -/
def execState (s : State) : Result := s.smbusRead s.smbusState
/-- A measured value: 0 until the standby monitor has measured once. -/
def State.measured (s : State) (v : Int) : Nat := if s.com.pw.measured then wrap 16 v else 0
/-- VIN, 0x01. -/
def execVin (s : State) : Result := s.smbusRead (s.measured s.com.pw.vin)
/-- PIN, 0x02. -/
def execPin (s : State) : Result := s.smbusRead (s.measured s.com.pw.pin)
/-- TJ_MAX, 0x03. -/
def execTjMax (s : State) : Result := s.smbusRead (s.measured s.hottest)
/-- T_BOARD, 0x04. -/
def execTBoard (s : State) : Result := s.smbusRead (s.measured s.com.pw.tBoard)
/-- IDENT, 0x05: FEED_ID and SLOT_ID as latched; before the straps are latched the pins decide, which the model does not hold (free, log 42). -/
def execIdent (s : State) : Result :=
  match s.com.boot.straps with
  | some x => s.smbusRead (x.feedId % 16 + x.slotId % 256 * 256)
  | none => s.useFree.smbusRead ((Config.freeByte s.free 0).toNat % 16 + (Config.freeByte s.free 1).toNat * 256)
/-- ALERT_CAUSE, 0x06: read-to-clear in one step (R436). -/
def execAlertCause (s : State) : Result :=
  if s.com.pw.standby then .next ((s.emit (.smbus s.com.pw.alert)).modPw (fun p => { p with alert := 0 })) else .next s
/-- PART, 0x07: order code, and the digit of silicon revision B1 (R442). -/
def execPart (s : State) : Result := s.smbusRead (s.com.boot.order + 1 * 256)
/-- RAIL_FAIL, 0x08. -/
def execRailFail (s : State) : Result := s.smbusRead s.com.pw.railFail
/-- The Alert Response Address is answered with the module's own, 0x60 + SLOT_ID[2:0], in the upper 7 bits of the byte; it clears nothing (R435,
R436; the place of the address bits is PRESUMED, log 44). Only a module that holds ALERT_N low answers. -/
def execAlertResponse (s : State) : Result :=
  if s.alertLow then match s.com.boot.straps with
    | some x => s.smbusRead (2 * (0x60 + x.slotId % 8))
    | none => s.useFree.smbusRead (2 * (0x60 + (Config.freeByte s.free 1).toNat % 8))
  else .next s

end Sys2Proof.Machine
end

