-- ==== Sys2Proof/Machine/Vector.lean ====
section
/-! DEFINITION. The commands of the vector queue (R131, R142). A rop that R142 reserves is met by the SUM row, which ends it with E_DESC
(R153; DEDUCED, log 14). -/
namespace Sys2Proof.Machine

/-- VEC (R131 to R136, R161, R162). -/
def execVec (c : Fin 64) (s : State) : Result := s.runVector c (fun raw => cmdOp raw == 0x10) vecRun
/-- REDUCE with an rop that satisfies a test. -/
def State.runReduce (s : State) (c : Fin 64) (isRop : Nat → Bool) : Result :=
  s.runVector c (fun raw => cmdOp raw == 0x11 && isRop (reduceOp raw)) reduceRun
/-- REDUCE SUM, and a reserved rop (R142 to R144). -/
def execSum (c : Fin 64) (s : State) : Result := s.runReduce c (fun r => r == 0 || 7 ≤ r)
/-- REDUCE SUMSQ (R143, R144). -/
def execSumsq (c : Fin 64) (s : State) : Result := s.runReduce c (· == 1)
/-- REDUCE MAX (R143, R144). -/
def execReduceMax (c : Fin 64) (s : State) : Result := s.runReduce c (· == 2)
/-- REDUCE MIN (R143, R144). -/
def execReduceMin (c : Fin 64) (s : State) : Result := s.runReduce c (· == 3)
/-- REDUCE MEANVAR (R145, R146). -/
def execMeanvar (c : Fin 64) (s : State) : Result := s.runReduce c (· == 4)
/-- REDUCE SOFTMAX (R147). -/
def execSoftmax (c : Fin 64) (s : State) : Result := s.runReduce c (· == 5)
/-- REDUCE SOFTMAX_BWD (R148). -/
def execSoftmaxBwd (c : Fin 64) (s : State) : Result := s.runReduce c (· == 6)

end Sys2Proof.Machine
end

