-- ==== Sys2Proof/Machine/Dispatch.lean ====
section
/-! DEFINITION. One arm for each command, each a direct call of its meaning. -/
namespace Sys2Proof.Machine

/-- The effect of a command on everything but the queue. -/
def exec (i : Instr) (s : State) : Host.Outcome State Fault Refusal :=
  match i with
  | .matmul c => Sys2Proof.Machine.execMatmul c s
  | .convFwd c => Sys2Proof.Machine.execConvFwd c s
  | .convDgrad c => Sys2Proof.Machine.execConvDgrad c s
  | .convWgrad c => Sys2Proof.Machine.execConvWgrad c s
  | .maxpool c => Sys2Proof.Machine.execMaxpool c s
  | .avgpool c => Sys2Proof.Machine.execAvgpool c s
  | .vec c => Sys2Proof.Machine.execVec c s
  | .sum c => Sys2Proof.Machine.execSum c s
  | .sumsq c => Sys2Proof.Machine.execSumsq c s
  | .reduceMax c => Sys2Proof.Machine.execReduceMax c s
  | .reduceMin c => Sys2Proof.Machine.execReduceMin c s
  | .meanvar c => Sys2Proof.Machine.execMeanvar c s
  | .softmax c => Sys2Proof.Machine.execSoftmax c s
  | .softmaxBwd c => Sys2Proof.Machine.execSoftmaxBwd c s
  | .gather c => Sys2Proof.Machine.execGather c s
  | .store c tagFail => Sys2Proof.Machine.execStore c tagFail s
  | .fadd c tagFail => Sys2Proof.Machine.execFadd c tagFail s
  | .iadd c tagFail => Sys2Proof.Machine.execIadd c tagFail s
  | .imax c tagFail => Sys2Proof.Machine.execImax c tagFail s
  | .imin c tagFail => Sys2Proof.Machine.execImin c tagFail s
  | .plain c tagFail => Sys2Proof.Machine.execPlain c tagFail s
  | .kvRead c => Sys2Proof.Machine.execKvRead c s
  | .kvWrite c tagFail => Sys2Proof.Machine.execKvWrite c tagFail s
  | .alloc c tagFail => Sys2Proof.Machine.execAlloc c tagFail s
  | .share c tagFail => Sys2Proof.Machine.execShare c tagFail s
  | .cow c tagFail => Sys2Proof.Machine.execCow c tagFail s
  | .free c tagFail => Sys2Proof.Machine.execFree c tagFail s
  | .send c tagFail => Sys2Proof.Machine.execSend c tagFail s
  | .sendBaton c tagFail => Sys2Proof.Machine.execSendBaton c tagFail s
  | .wait c => Sys2Proof.Machine.execWait c s
  | .combineLeft c tagFail => Sys2Proof.Machine.execCombineLeft c tagFail s
  | .combineRight c tagFail => Sys2Proof.Machine.execCombineRight c tagFail s
  | .hurdle c => Sys2Proof.Machine.execHurdle c s
  | .blkIssue c => Sys2Proof.Machine.execBlkIssue c s
  | .streamFetch c => Sys2Proof.Machine.execStreamFetch c s
  | .encIssue c => Sys2Proof.Machine.execEncIssue c s
  | .encWait c => Sys2Proof.Machine.execEncWait c s
  | .encodeRequestStart c => Sys2Proof.Machine.execEncodeRequestStart c s
  | .encodeComplete c tagFail => Sys2Proof.Machine.execEncodeComplete c tagFail s
  | .sumGet c => Sys2Proof.Machine.execSumGet c s
  | .bsumFlt c => Sys2Proof.Machine.execBsumFlt c s
  | .bsumFge c => Sys2Proof.Machine.execBsumFge c s
  | .bsumFeq c => Sys2Proof.Machine.execBsumFeq c s
  | .bsumFne c => Sys2Proof.Machine.execBsumFne c s
  | .bsumNan c => Sys2Proof.Machine.execBsumNan c s
  | .bsumUlt c => Sys2Proof.Machine.execBsumUlt c s
  | .bsumUge c => Sys2Proof.Machine.execBsumUge c s
  | .tcpConnect conn addr tcpPort => Sys2Proof.Machine.execTcpConnect conn addr tcpPort s
  | .tcpLoss conn => Sys2Proof.Machine.execTcpLoss conn s
  | .attachPhase0 m => Sys2Proof.Machine.execAttachPhase0 m s
  | .attachPhase1 m sigOk decapOk => Sys2Proof.Machine.execAttachPhase1 m sigOk decapOk s
  | .listenTimeout conn => Sys2Proof.Machine.execListenTimeout conn s
  | .challengedTimeout conn => Sys2Proof.Machine.execChallengedTimeout conn s
  | .leaseExpiry conn => Sys2Proof.Machine.execLeaseExpiry conn s
  | .orphanGraceExpiry => Sys2Proof.Machine.execOrphanGraceExpiry s
  | .detach m => Sys2Proof.Machine.execDetach m s
  | .loadFw m sigOk => Sys2Proof.Machine.execLoadFw m sigOk s
  | .writeConfig m sigOk => Sys2Proof.Machine.execWriteConfig m sigOk s
  | .resetHeat m => Sys2Proof.Machine.execResetHeat m s
  | .resetModule m => Sys2Proof.Machine.execResetModule m s
  | .loadImage m => Sys2Proof.Machine.execLoadImage m s
  | .start m => Sys2Proof.Machine.execStart m s
  | .stopAtHurdle m => Sys2Proof.Machine.execStopAtHurdle m s
  | .checkpointNow m => Sys2Proof.Machine.execCheckpointNow m s
  | .rearm m => Sys2Proof.Machine.execRearm m s
  | .queryStatus m => Sys2Proof.Machine.execQueryStatus m s
  | .queryInventory m => Sys2Proof.Machine.execQueryInventory m s
  | .queryAttest m => Sys2Proof.Machine.execQueryAttest m s
  | .snapshot m => Sys2Proof.Machine.execSnapshot m s
  | .splits m => Sys2Proof.Machine.execSplits m s
  | .queryDump m => Sys2Proof.Machine.execQueryDump m s
  | .readLifelog m => Sys2Proof.Machine.execReadLifelog m s
  | .join f => Sys2Proof.Machine.execJoin f s
  | .arrive f => Sys2Proof.Machine.execArrive f s
  | .hold f => Sys2Proof.Machine.execHold f s
  | .request f => Sys2Proof.Machine.execRequest f s
  | .decideGo f => Sys2Proof.Machine.execDecideGo f s
  | .decideFalseStart f => Sys2Proof.Machine.execDecideFalseStart f s
  | .decideStop f => Sys2Proof.Machine.execDecideStop f s
  | .feedQuery f => Sys2Proof.Machine.execFeedQuery f s
  | .feedReply f => Sys2Proof.Machine.execFeedReply f s
  | .arrival h => Sys2Proof.Machine.execArrival h s
  | .windowExpiry h => Sys2Proof.Machine.execWindowExpiry h s
  | .joinLate h => Sys2Proof.Machine.execJoinLate h s
  | .decideTimeout h => Sys2Proof.Machine.execDecideTimeout h s
  | .heldTooLong h => Sys2Proof.Machine.execHeldTooLong h s
  | .laneFrame p lane hdr fec => Sys2Proof.Machine.execLaneFrame p lane hdr fec s
  | .dataFlit f => Sys2Proof.Machine.execDataFlit f s
  | .idle f => Sys2Proof.Machine.execIdle f s
  | .replay f => Sys2Proof.Machine.execReplay f s
  | .replayTimeout p => Sys2Proof.Machine.execReplayTimeout p s
  | .ack f => Sys2Proof.Machine.execAck f s
  | .ackFlush h dest => Sys2Proof.Machine.execAckFlush h dest s
  | .landingWrite h tagFail => Sys2Proof.Machine.execLandingWrite h tagFail s
  | .hello f => Sys2Proof.Machine.execHello f s
  | .table f => Sys2Proof.Machine.execTable f s
  | .tableInstall p => Sys2Proof.Machine.execTableInstall p s
  | .tableAck f => Sys2Proof.Machine.execTableAck f s
  | .blockNack f => Sys2Proof.Machine.execBlockNack f s
  | .laneRetire f => Sys2Proof.Machine.execLaneRetire f s
  | .laneAck f => Sys2Proof.Machine.execLaneAck f s
  | .subRetire f => Sys2Proof.Machine.execSubRetire f s
  | .subAck f => Sys2Proof.Machine.execSubAck f s
  | .portRetrainTimeout p => Sys2Proof.Machine.execPortRetrainTimeout p s
  | .laneTraining p lane ok => Sys2Proof.Machine.execLaneTraining p lane ok s
  | .memReadDecode h granule reads reader => Sys2Proof.Machine.execMemReadDecode h granule reads reader s
  | .migrationLine ch unreadable => Sys2Proof.Machine.execMigrationLine ch unreadable s
  | .eccCountPoll counts => Sys2Proof.Machine.execEccCountPoll counts s
  | .dqsTracking => Sys2Proof.Machine.execDqsTracking s
  | .memTraining ch ok => Sys2Proof.Machine.execMemTraining ch ok s
  | .serviceAdmit ch repair programWaiting granules => Sys2Proof.Machine.execServiceAdmit ch repair programWaiting granules s
  | .sampleFetch h => Sys2Proof.Machine.execSampleFetch h s
  | .rdmaReadResponse h fp server data nak bad => Sys2Proof.Machine.execRdmaReadResponse h fp server data nak bad s
  | .recordLanded h sample => Sys2Proof.Machine.execRecordLanded h sample s
  | .ackTimeout h fp server => Sys2Proof.Machine.execAckTimeout h fp server s
  | .nakRetry h fp server => Sys2Proof.Machine.execNakRetry h fp server s
  | .cePacket h fp server => Sys2Proof.Machine.execCePacket h fp server s
  | .cnpReceived h fp server => Sys2Proof.Machine.execCnpReceived h fp server s
  | .rateRecovery h fp server => Sys2Proof.Machine.execRateRecovery h fp server s
  | .arpRequest fp target => Sys2Proof.Machine.execArpRequest fp target s
  | .neighborSolicitation fp target => Sys2Proof.Machine.execNeighborSolicitation fp target s
  | .feedPortLinkDown fp => Sys2Proof.Machine.execFeedPortLinkDown fp s
  | .partDecoded h sample partNo out => Sys2Proof.Machine.execPartDecoded h sample partNo out s
  | .samplePost h => Sys2Proof.Machine.execSamplePost h s
  | .survey h sample partNo out => Sys2Proof.Machine.execSurvey h sample partNo out s
  | .pictureDecoded pair read planes => Sys2Proof.Machine.execPictureDecoded pair read planes s
  | .mediaWatchdog unitNo why => Sys2Proof.Machine.execMediaWatchdog unitNo why s
  | .pwrEnRise lowMs => Sys2Proof.Machine.execPwrEnRise lowMs s
  | .railStep => Sys2Proof.Machine.execRailStep s
  | .railFailure => Sys2Proof.Machine.execRailFailure s
  | .pwrEnFall => Sys2Proof.Machine.execPwrEnFall s
  | .brownOut mv => Sys2Proof.Machine.execBrownOut mv s
  | .brownOutEnd mv => Sys2Proof.Machine.execBrownOutEnd mv s
  | .inputUndervoltage mv => Sys2Proof.Machine.execInputUndervoltage mv s
  | .inputOvervoltage mv => Sys2Proof.Machine.execInputOvervoltage mv s
  | .inputRecovery mv => Sys2Proof.Machine.execInputRecovery mv s
  | .powerAverage watts mv => Sys2Proof.Machine.execPowerAverage watts mv s
  | .shedRound => Sys2Proof.Machine.execShedRound s
  | .hardwareLimit watts => Sys2Proof.Machine.execHardwareLimit watts s
  | .heartbeatLapse => Sys2Proof.Machine.execHeartbeatLapse s
  | .sensorRead quarterC boardQuarterC => Sys2Proof.Machine.execSensorRead quarterC boardQuarterC s
  | .thermalTrip sensor => Sys2Proof.Machine.execThermalTrip sensor s
  | .clockLoss => Sys2Proof.Machine.execClockLoss s
  | .clockReturn => Sys2Proof.Machine.execClockReturn s
  | .clockLossTimeout => Sys2Proof.Machine.execClockLossTimeout s
  | .clusterIdle c => Sys2Proof.Machine.execClusterIdle c s
  | .paceEvaluate c rate75 rateNow => Sys2Proof.Machine.execPaceEvaluate c rate75 rateNow s
  | .jogToWalk c => Sys2Proof.Machine.execJogToWalk c s
  | .pacingEntryDone c => Sys2Proof.Machine.execPacingEntryDone c s
  | .exitTimer c => Sys2Proof.Machine.execExitTimer c s
  | .wakeLine c why => Sys2Proof.Machine.execWakeLine c why s
  | .pacingExitDone c => Sys2Proof.Machine.execPacingExitDone c s
  | .pwrGood => Sys2Proof.Machine.execPwrGood s
  | .strapLatch samples => Sys2Proof.Machine.execStrapLatch samples s
  | .flashReadDone readOk sigA sigB => Sys2Proof.Machine.execFlashReadDone readOk sigA sigB s
  | .nvmeReadyTimeout d => Sys2Proof.Machine.execNvmeReadyTimeout d s
  | .ready => Sys2Proof.Machine.execReady s
  | .parityError c => Sys2Proof.Machine.execParityError c s
  | .controlCoreCrash c => Sys2Proof.Machine.execControlCoreCrash c s
  | .schedulerCrash => Sys2Proof.Machine.execSchedulerCrash s
  | .powerCoreCrash => Sys2Proof.Machine.execPowerCoreCrash s
  | .securityCoreCrash => Sys2Proof.Machine.execSecurityCoreCrash s
  | .coreRestartDone core ok => Sys2Proof.Machine.execCoreRestartDone core ok s
  | .batonHashDone h => Sys2Proof.Machine.execBatonHashDone h s
  | .localFlashWriteDone h result => Sys2Proof.Machine.execLocalFlashWriteDone h result s
  | .sharedStoreWriteDone h ok => Sys2Proof.Machine.execSharedStoreWriteDone h ok s
  | .nvmeTimeout d => Sys2Proof.Machine.execNvmeTimeout d s
  | .lifelogSummary => Sys2Proof.Machine.execLifelogSummary s
  | .progressHang u => Sys2Proof.Machine.execProgressHang u s
  | .intraClusterDeadlock c => Sys2Proof.Machine.execIntraClusterDeadlock c s
  | .dumpWritten => Sys2Proof.Machine.execDumpWritten s
  | .state => Sys2Proof.Machine.execState s
  | .vin => Sys2Proof.Machine.execVin s
  | .pin => Sys2Proof.Machine.execPin s
  | .tjMax => Sys2Proof.Machine.execTjMax s
  | .tBoard => Sys2Proof.Machine.execTBoard s
  | .ident => Sys2Proof.Machine.execIdent s
  | .alertCause => Sys2Proof.Machine.execAlertCause s
  | .part => Sys2Proof.Machine.execPart s
  | .railFail => Sys2Proof.Machine.execRailFail s
  | .alertResponse => Sys2Proof.Machine.execAlertResponse s
  | .bypass tdi => Sys2Proof.Machine.execBypass tdi s
  | .samplePreload cells => Sys2Proof.Machine.execSamplePreload cells s
  | .extest => Sys2Proof.Machine.execExtest s
  | .idcode => Sys2Proof.Machine.execIdcode s
  | .highz => Sys2Proof.Machine.execHighz s
  | .clamp => Sys2Proof.Machine.execClamp s
  | .standbyRailRise => Sys2Proof.Machine.execStandbyRailRise s
  | .standbyRailLoss => Sys2Proof.Machine.execStandbyRailLoss s
  | .managementPortLinkUp => Sys2Proof.Machine.execManagementPortLinkUp s
  | .feedPortLinkUp fp => Sys2Proof.Machine.execFeedPortLinkUp fp s
  | .nvmeDriveReady d => Sys2Proof.Machine.execNvmeDriveReady d s
  | .controlCoreInstruction c => Sys2Proof.Machine.execControlCoreInstruction c s
  | .perBankRefresh ch bank => Sys2Proof.Machine.execPerBankRefresh ch bank s

end Sys2Proof.Machine
end

