-- ==== Sys2Proof/Safety.lean ====
section
/-! DEFINITION. What counts as a safe run, and the invariant every step keeps. -/
namespace Sys2Proof.Machine

/-- The step answers a next state: it neither faults nor is refused. -/
def completes (s : State) : Prop := ∃ t, step s = .next t

/-- Every command waiting is well formed. -/
def allWellFormed (s : State) : Prop := ∀ c ∈ s.pending, c.wf = true

/-! The invariant. -/

/-- A snapshot's data memory is canonical and its x0 zero (R258). -/
def snapOk (o : Option Snapshot) : Prop := ∀ t, o = some t → t.dmem.wf = true ∧ t.regs[0] = 0
/-- No engine queue holds more than 16 entries (R40). -/
def queuesOk (qs : Vector (List QEntry) 4) : Prop := ∀ q : Fin 4, qs[q].length ≤ 16
/-- A cluster: its memories are canonical, x0 of its control core and of the snapshot is zero (R258, R383), and its queues hold no more than
the spec gives them (R40, R151, R324, R412). -/
structure Cluster.Inv (k : Cluster) : Prop where
  /-- the cluster store is canonical -/
  store : k.store.wf = true
  /-- the function tables are canonical -/
  fnTab : k.fnTab.wf = true
  /-- the instruction memory is canonical -/
  imem : k.imem.wf = true
  /-- the data memory is canonical -/
  dmem : k.dmem.wf = true
  /-- x0 reads zero -/
  x0 : k.core.regs[0] = 0
  /-- so does the snapshot's, whose data memory is canonical -/
  snap : snapOk k.core.snap
  /-- an engine queue is 16 deep (R40) -/
  queues : queuesOk k.queues
  /-- the summary queue is 4 deep (R151) -/
  sums : k.core.sums.length ≤ 4
  /-- at most 4 issued blocks are not fetched whole (R40) -/
  issued : k.core.issued.length ≤ 4
  /-- at most 2 encode requests are outstanding (R324) -/
  encs : k.core.encs.length ≤ 2
  /-- the split ring holds 1,024 records (R412) -/
  splits : k.splits.length ≤ 1024
/-- A heat: its memories are canonical. -/
structure Heat.Inv (h : Heat) : Prop where
  /-- memory -/
  mem : h.mem.wf = true
  /-- scratch -/
  scratch : h.scratch.wf = true
  /-- staging share -/
  staging : h.staging.wf = true
  /-- tokenizer tables -/
  tok : h.tok.wf = true
/-- A port: its replay buffer holds no more than 1,024 flits (R224). -/
structure Port.Inv (p : Port) : Prop where
  /-- replay buffer -/
  replay : p.tx.replay.length ≤ 1024
/-- The module-wide part: the configuration flash is canonical, at most 4 sessions exist (R385), the telemetry ring holds no more than its
size (R393), and no rail step lies beyond the eighth (R353). -/
structure Common.Inv (k : Common) : Prop where
  /-- configuration flash -/
  flash : k.boot.flash.wf = true
  /-- sessions -/
  sessions : k.mgmt.sessions.length ≤ 4
  /-- telemetry ring -/
  reports : k.mgmt.reports.length ≤ ringSize
  /-- rail steps -/
  rail : k.pw.rail ≤ 8
/-- The invariant of the module. -/
structure State.Inv (s : State) : Prop where
  /-- clusters -/
  cl : ∀ c, (s.cl c).Inv
  /-- heats -/
  heat : ∀ h, (s.heat h).Inv
  /-- ports -/
  port : ∀ p, (s.port p).Inv
  /-- the rest -/
  com : s.com.Inv

/-! What a statement says a command leaves as it was. -/

/-- An address that no range of a list holds. -/
def Outside (rs : List (Nat × Nat)) (a : Nat) : Prop := ∀ r ∈ rs, ¬ (r.1 ≤ a ∧ a < r.1 + r.2)

/-- Where a byte that a mover reaches is held. -/
inductive Place where
  /-- memory of the heat, by its offset -/
  | mem (m : Nat)
  /-- the store of a logical cluster -/
  | store (c off : Nat)
  /-- scratch -/
  | scratch (off : Nat)
  /-- function tables of the issuing cluster -/
  | table (off : Nat)
deriving DecidableEq, Repr
/-- Where the byte at a device address is held (R21 to R24). -/
def placeOf (hm : HeatMap) (a : Nat) : Option Place :=
  match regionOf hm a with
  | .mem m | .sample m => some (.mem m)
  | .store c o => some (.store c o)
  | .scratch o => some (.scratch o)
  | .fnTab _ o => some (.table o)
  | _ => none
/-- The byte at a place. -/
def Space.at (sp : Space) : Place → Byte
  | .mem m => sp.mem.read m
  | .store c o => (sp.stores.getD c []).read o
  | .scratch o => sp.scratch.read o
  | .table o => sp.fn.read o
/-- No address of the ranges is held at a place. -/
def Untouched (hm : HeatMap) (rs : List (Nat × Nat)) (l : Place) : Prop := ∀ r ∈ rs, ∀ i < r.2, placeOf hm (r.1 + i) ≠ some l

/-- Where a command stores whose destination is the tensor at a store offset. -/
def tensorDest (rs : List Recipe) (sp : Space) (off : Nat) (ds : List (Nat × Nat)) : Prop := ∃ d, sp.desc rs off = .ok d ∧ ds = d.ranges
/-- Where a KV_READ stores: the rows of D, and of S where part is 3 (R181). -/
def kvReadDest (rs : List Recipe) (sp : Space) (q : Nat) (ds : List (Nat × Nat)) : Prop :=
  ∃ d, sp.desc rs (fld q 95 72) = .ok d ∧
    if fld q 237 236 = 3 then ∃ k, sp.desc rs (fld q 119 96) = .ok k ∧ ds = d.rowRanges ++ k.rowRanges else ds = d.rowRanges
/-- The pages of a pool that 24-bit page numbers can name (R171, R172). -/
def KvPool.allPages (p : KvPool) : List (Nat × Nat) := (List.range (2 ^ 24)).map (fun n => (p.pages + n * p.pageB, p.pageB))
/-- Where a KV_WRITE stores: the pages of the pool and the length of the region (R174). -/
def kvWriteDest (sp : Space) (q : Nat) (ds : List (Nat × Nat)) : Prop :=
  ∃ r p, sp.kvRegion (fld q 167 120) = .ok r ∧ sp.kvPool r = .ok p ∧ ds = (r.addr + 4, 4) :: p.allPages
/-- Where a page operation on n entries from entry a stores: those entries, page descriptors, and pages of the pool (R175). -/
def pageDest (r : KvRegion) (p : KvPool) (a n : Nat) : List (Nat × Nat) :=
  (r.addr + 64 + 8 * a, 8 * n) :: (p.descs, 16 * 2 ^ 24) :: p.allPages
/-- The entries, descriptors and pages a page operation may store to; of SHARE the pool is the source region's (R175). -/
def pageOpDest (n : Nat) (sp : Space) (q : Nat) (ds : List (Nat × Nat)) : Prop :=
  ∃ r k p, sp.kvRegion (fld q 167 120) = .ok r ∧ (if copOf q = 4 then sp.kvRegion (fld q 215 168) = .ok k else k = r) ∧ sp.kvPool k = .ok p ∧
    ds = pageDest r p (fld q 235 216 / 256) n

/-- A hurdle unit with the held flag's bookkeeping of another (R265). -/
def Hurdle.heldAs (u v : Hurdle) : Hurdle :=
  { u with heldSent := v.heldSent, heldSince := v.heldSince, heldTime := v.heldTime, heldHangs := v.heldHangs }
/-- Of a port only the transmitter, the credits it owes, the acknowledgement due and the BLOCK_NACKs that hold it may differ. -/
def Port.sentAs (k l : Port) : Port :=
  { k with tx := l.tx, rx := { k.rx with owed := l.rx.owed, ackDue := l.rx.ackDue, nacks := l.rx.nacks } }
/-- Sending flits, and bringing a held flag up to date (R265), may change ports' transmitters, the flag's bookkeeping and counts, and use free
values; nothing else differs but what has left. -/
structure HoldOnly (s t : State) : Prop where
  /-- clusters -/
  clusters : t.clusters = s.clusters
  /-- heats -/
  heats : ∀ j, t.heat j = { s.heat j with hu := (s.heat j).hu.heldAs (t.heat j).hu }
  /-- ports -/
  ports : ∀ p, t.port p = (s.port p).sentAs (t.port p)
  /-- the module-wide part -/
  com : t.com = { s.com with ctrs := t.com.ctrs }
  /-- time -/
  now : t.now = s.now
  /-- the queue of commands -/
  pending : t.pending = s.pending

/-- The command e at the head of queue q of cluster c has ended with OK: it has left the queue, its completion is noted (R359), its record
is in the split ring (R412), and its channels, with the halo channels of a CONV (R122), have their slots and tokens back (R41, R46). -/
structure CommandDone (s t : State) (c : Fin 64) (q : Fin 4) (x : Site) (e : QEntry) (halos : List (Option (Option Nat))) : Prop where
  /-- the queue -/
  queues : (t.cl c).queues = (s.cl c).queues.set q ((s.cl c).queues[q].drop 1)
  /-- the completion -/
  lastDone : (t.cl c).lastDone = (s.cl c).lastDone.set q (some ⟨s.now, nextGap e.raw, e.blk, e.iss, e.last, (s.cl c).splitSeq + 1⟩)
  /-- the record -/
  split : ∃ r, (t.cl c).splits.getLast? = some r ∧ r.seq = (s.cl c).splitSeq ∧ r.cmdId = fld e.raw 47 32 ∧ r.opcode = cmdOp e.raw ∧
    r.queue = q.val ∧ r.startT = s.ticks ∧ r.endT = s.ticks ∧ r.status = 0
  /-- the next record's number -/
  splitSeq : (t.cl c).splitSeq = (s.cl c).splitSeq + 1
  /-- the channels -/
  chans : (t.heat x.h).chans = ((((s.heat x.h).takeChans x.own e.raw).takeHalo halos).giveHalo halos |>.giveChans x.own e.raw).chans
/-- What a matrix or vector command of cluster c in heat x.h leaves: all other clusters, the rest of its own, all of every heat but that
heat's channels and the held flag, and everything module-wide but counters. -/
structure EngineFrame (s t : State) (c : Fin 64) (x : Site) : Prop where
  /-- other clusters -/
  others : ∀ d, d ≠ c → t.cl d = s.cl d
  /-- its own cluster -/
  own : t.cl c = { s.cl c with
    store := (t.cl c).store, acc := (t.cl c).acc, rowBuf := (t.cl c).rowBuf, queues := (t.cl c).queues, lastDone := (t.cl c).lastDone
    splits := (t.cl c).splits, splitSeq := (t.cl c).splitSeq, splitDropped := (t.cl c).splitDropped
    core := { (s.cl c).core with sums := (t.cl c).core.sums } }
  /-- heats -/
  heats : ∀ j, t.heat j = { s.heat j with
    chans := if j = x.h then (t.heat j).chans else (s.heat j).chans, hu := (s.heat j).hu.heldAs (t.heat j).hu }
  /-- ports -/
  ports : ∀ p, t.port p = (s.port p).sentAs (t.port p)
  /-- the module-wide part -/
  com : t.com = { s.com with ctrs := t.com.ctrs }
  /-- time -/
  now : t.now = s.now
  /-- the queue of commands -/
  pending : t.pending = s.pending
/-- What a mover command of cluster c in heat x.h leaves: of other clusters all but their stores, and those only in its heat; of its own
all but store, function tables, queue and ring; of its heat all but memory, scratch, channels and the held flag; module-wide all but
counters and which lines the shared cache holds. -/
structure MoverFrame (s t : State) (c : Fin 64) (x : Site) : Prop where
  /-- other clusters -/
  others : ∀ d, d ≠ c → t.cl d = { s.cl d with store := (t.cl d).store }
  /-- clusters of other heats -/
  apart : ∀ d, d ∉ (s.heat x.h).clusterList → (t.cl d).store = (s.cl d).store
  /-- its own cluster -/
  own : t.cl c = { s.cl c with
    store := (t.cl c).store, fnTab := (t.cl c).fnTab, queues := (t.cl c).queues, lastDone := (t.cl c).lastDone
    splits := (t.cl c).splits, splitSeq := (t.cl c).splitSeq, splitDropped := (t.cl c).splitDropped }
  /-- heats -/
  heats : ∀ j, t.heat j = if j = x.h then { s.heat j with
      mem := (t.heat j).mem, poison := (t.heat j).poison, scratch := (t.heat j).scratch, chans := (t.heat j).chans
      hu := (s.heat j).hu.heldAs (t.heat j).hu }
    else { s.heat j with hu := (s.heat j).hu.heldAs (t.heat j).hu }
  /-- ports -/
  ports : ∀ p, t.port p = (s.port p).sentAs (t.port p)
  /-- the module-wide part -/
  com : t.com = { s.com with ctrs := t.com.ctrs, cache := t.com.cache }
  /-- time -/
  now : t.now = s.now
  /-- the queue of commands -/
  pending : t.pending = s.pending

/-! Management requests. -/

/-- The rows a request may be. -/
def requestRows (m : Msg) (ok : Bool) : List Instr :=
  [.detach m, .loadFw m ok, .writeConfig m ok, .resetHeat m, .resetModule m, .loadImage m, .start m, .stopAtHurdle m, .checkpointNow m, .rearm m,
    .queryStatus m, .queryInventory m, .queryAttest m, .snapshot m, .splits m, .queryDump m, .readLifelog m]
/-- A request taken on its session: the next sequence number, and the lease from now (R389, R391). -/
def State.took (s : State) (m : Msg) : State := s.modSession m.conn (fun k => { k with rxSeq := k.rxSeq + 1, lease := s.now })
/-- A request on its row that reaches an attached session whole, in order and with a tag that verifies (R386, R389). -/
structure Arrived (s : State) (m : Msg) (i : Instr) (k : Session) : Prop where
  /-- the header has its size -/
  size : m.hdr.length = 32
  /-- its session -/
  session : s.session m.conn = some k
  /-- it is framed -/
  framed : msgUnframed m = false
  /-- its body is whole -/
  body : m.body.length = msgLen m
  /-- it is of the row -/
  row : msgRow m i = true
  /-- the session is attached -/
  attached : k.phase = .attached
  /-- the tag is the HMAC under the session's key -/
  tag : tagHolds k m = true
  /-- the sequence number is the next -/
  seq : msgSeq m = k.rxSeq
/-- A request that is served: nothing refuses it before its own meaning (R378, R386, R387, R391). -/
structure Accepted (s : State) (m : Msg) (i : Instr) (k : Session) : Prop extends Arrived s m i k where
  /-- the scheduler core serves messages -/
  serving : s.serving = true
  /-- reserved header fields are zero -/
  reserved : msgRsvOk m = true
  /-- a client may send the type -/
  type : clientType (msgType m) = true
  /-- the session has the right -/
  right : ∀ r, typeRight (msgType m) = some r → bitAt k.rights r = true
  /-- fewer than 16 requests are outstanding -/
  room : k.replies.length < 16
  /-- the module's state serves it -/
  state : stateServes s.com.boot.state m = true

/-! Flits. -/

/-- The rows of sequenced flits. -/
def flitRows (f : FlitRx) : List Instr :=
  [.dataFlit f, .ack f, .hello f, .join f, .arrive f, .hold f, .request f, .decideGo f, .decideFalseStart f, .decideStop f, .feedQuery f,
    .feedReply f, .table f, .tableAck f, .blockNack f, .laneRetire f, .laneAck f, .subRetire f, .subAck f]
/-- A flit arrives at a port that is not retired, on a lane that is up and in lock (R217, R226, R227). -/
structure FlitSeen (s : State) (f : FlitRx) : Prop where
  /-- a flit's size -/
  size : f.bytes.length = 280
  /-- the port -/
  port : (s.port f.port).retired = false
  /-- the lane is trained -/
  up : (s.port f.port).lanes[f.lane].up = true
  /-- it is not retired -/
  lane : (s.port f.port).lanes[f.lane].retired = false
  /-- it is in lock -/
  lock : (s.port f.port).lanes[f.lane].lock = true
/-- A flit that the link layer accepts: its CRC is right, it is sequenced, and its number is the one expected (R219, R220, R224). -/
structure FlitTaken (s : State) (f : FlitRx) (hdr : Nat) (pay : Bytes) : Prop extends FlitSeen s f where
  /-- the link CRC is right -/
  crc : crcGood f.bytes = true
  /-- its route header -/
  header : leAt f.bytes 0 16 = hdr
  /-- its payload -/
  payload : bytesAt f.bytes 16 256 = pay
  /-- a type that takes a sequence number -/
  type : hdrType hdr = 0 ∨ (3 ≤ hdrType hdr ∧ hdrType hdr ≤ 5)
  /-- the number expected -/
  seq : fld (leAt f.bytes 272 8) 11 0 = (s.port f.port).rx.expect
/-- What the link layer does with any flit whose CRC is right: it is counted, and its trailer's acknowledgement and credits are taken
(R219, R223, R224). -/
def State.trailerTaken (s : State) (f : FlitRx) : State :=
  let t := leAt f.bytes 272 8
  (s.bump 3 f.port.val 1).modPort f.port (fun k => { k with tx := k.tx.takeTrailer s.now (fld t 23 12) (fld t 25 24) (fld t 31 26) })
/-- A flit accepted: the next number is expected, dropping ends, and an acknowledgement is due (R224). -/
def State.flitTaken (s : State) (f : FlitRx) : State :=
  (s.trailerTaken f).modPort f.port (fun k => { k with rx := { k.rx with
    expect := (k.rx.expect + 1) % 4096, dropping := false, ackDue := true } })
/-- A heat that runs a job owns the port, and holds image p. -/
structure PortRuns (s : State) (port : Fin 32) (hi : Fin 4) (p : Program) : Prop where
  /-- the heat owns the port -/
  owner : (s.heatOfPort port).map Prod.fst = some hi
  /-- its image -/
  image : (s.heat hi).image = some p
  /-- it runs -/
  running : (s.heat hi).phase = .running

/-- The state after a list of commands, each of which has a next state. -/
def State.runAll (s : State) : List Instr → Option State
  | [] => some s
  | c :: cs => match exec c s with
    | .next t => t.runAll cs
    | _ => none

end Sys2Proof.Machine
end

