-- ==== Sys2Proof/Certificates/Slice0/Obligations.lean ====
section
/-! DEFINITION. The statements for the provers. Each docstring names the rules of spec/ it formalises, or says that it is derived. -/
open Sys2Proof Sys2Proof.Machine

/-! The block as a whole. -/

/-- One step takes the command at the front of the queue and runs it on the rest of the state, the queue without it. -/
def Obligations.StepRunsFrontCommand : Prop :=
  ∀ (s : State) (c : Instr) (rest : List Instr), s.pending = c :: rest → step s = exec c { s with pending := rest }

/-- The state after reset meets the invariant. -/
def Obligations.ResetMeetsInvariant : Prop := State.reset.Inv

/-- Every step keeps the invariant: memories canonical, x0 zero (R258, R383), queues within their depths (R40, R151, R224, R324, R385, R393, R412),
no rail beyond the eighth (R353). -/
def Obligations.StepKeepsInvariant : Prop := ∀ s t : State, s.Inv → step s = .next t → t.Inv

/-- A well-formed command always has a next state, an ill-formed one always faults: no command ends a run. -/
def Obligations.WellFormedCommandsComplete : Prop :=
  ∀ (i : Instr) (s : State), (i.wf = true → ∃ t, exec i s = .next t) ∧ (i.wf = false → exec i s = .fault .illFormed)

/-! Engines. -/

/-- MATMUL (R103, R41, R412): where it may start and its checks pass, it completes with the store and the accumulator registers that the rules give
(R95), and everything else but its output tensor stays. -/
def Obligations.MatmulCompletes : Prop :=
  ∀ (s : State) (c : Fin 64) (x : Site) (e : QEntry) (o : EngOut), s.startable c qMatrix = some (x, e) → cmdOp e.raw = 0x01 →
    matmulRun (s.engCtx c x) (s.cl c).store e.raw = .ok o →
    ∃ t, exec (.matmul c) s = .next t ∧ CommandDone s t c qMatrix x e [] ∧ EngineFrame s t c x ∧ (t.cl c).store = o.store ∧
      (t.cl c).acc = (s.cl c).acc.put o.regs ∧ (t.cl c).core = (s.cl c).core ∧ (t.cl c).rowBuf = (s.cl c).rowBuf ∧
      ∀ d, loadDesc (s.engCtx c x).hm x.prog.recipes (s.cl c).store (fld e.raw 135 112) = .ok d →
        ∀ a, Outside d.ranges ((s.engCtx c x).lo + a) → (t.cl c).store.read a = (s.cl c).store.read a

/-- CONV in each of its modes (R108, R118, R119, R122): where it may start, its halo slots are published, the low edge's before the high edge's, and
its checks pass, it completes, and everything else but its output, and in MAXPOOL the index tensor B, stays; where a slot is not published it waits
at the head of its queue with the slots it has taken. -/
def Obligations.ConvolutionsComplete : Prop :=
  ∀ (s : State) (c : Fin 64) (x : Site) (e : QEntry) (i : Instr), s.startable c qMatrix = some (x, e) → cmdOp e.raw = 0x02 →
    (convMode e.raw, i) ∈ [(0, .convFwd c), (1, .convDgrad c), (2, .convWgrad c), (4, .maxpool c), (5, .avgpool c)] →
    let lo := haloChan (s.heat x.h) x.own e.raw false
    let hi := haloChan (s.heat x.h) x.own e.raw true
    let h := (s.heat x.h).takeChans x.own e.raw
    let waits := fun (took : List (Option (Option Nat))) => ∃ t, exec i s = .next t ∧
      t.cl c = (s.cl c).setHead qMatrix { s.latch c e with phase := .halo took.length } ∧ (t.heat x.h).chans = (h.takeHalo took).chans ∧
      ∀ d, d ≠ c → t.cl d = s.cl d
    (∀ o, haloReady h lo = true → haloReady (h.takeHalo [lo]) hi = true →
      convRun (s.engCtx c x) (s.cl c).store e.raw (haloSlot (s.heat x.h) lo) (haloSlot (s.heat x.h) hi) = .ok o →
      ∃ t, exec i s = .next t ∧ CommandDone s t c qMatrix x e [lo, hi] ∧ EngineFrame s t c x ∧ (t.cl c).store = o.store ∧
        (t.cl c).acc = (s.cl c).acc.put o.regs ∧ (t.cl c).core = (s.cl c).core ∧ (t.cl c).rowBuf = (s.cl c).rowBuf ∧
        ∀ d b, loadDesc (s.engCtx c x).hm x.prog.recipes (s.cl c).store (fld e.raw 135 112) = .ok d →
          (convMode e.raw = 4 → ∀ k, loadDesc (s.engCtx c x).hm x.prog.recipes (s.cl c).store (fld e.raw 111 88) = .ok k → b = k.ranges) →
          ∀ a, Outside (d.ranges ++ b) ((s.engCtx c x).lo + a) → (t.cl c).store.read a = (s.cl c).store.read a) ∧
    (haloReady h lo = false → waits []) ∧
    (haloReady h lo = true → haloReady (h.takeHalo [lo]) hi = false → waits [lo])

/-- VEC and REDUCE in each op (R131, R142, R151): where the command may start and runs without error, it completes with the store that the rules
give, the summary word joins the summary queue where the command has one and an entry is free, and everything else stays but the destination and, in
MEANVAR, the second output. -/
def Obligations.VectorCommandsComplete : Prop :=
  ∀ (s : State) (c : Fin 64) (x : Site) (e : QEntry) (o : VecOut) (i : Instr), s.startable c qVector = some (x, e) →
    ((cmdOp e.raw, reduceOp e.raw, i) ∈ [(0x11, 0, .sum c), (0x11, 1, .sumsq c), (0x11, 2, .reduceMax c), (0x11, 3, .reduceMin c),
        (0x11, 4, .meanvar c), (0x11, 5, .softmax c), (0x11, 6, .softmaxBwd c)] ∨ (cmdOp e.raw = 0x10 ∧ i = .vec c)) →
    (if cmdOp e.raw = 0x10 then vecRun else reduceRun) (s.engCtx c x) (s.cl c).store e.raw = .ok o → o.status = 0 →
    (o.sum = none ∨ (s.cl c).core.sums.length < 4) →
    ∃ t, exec i s = .next t ∧ CommandDone s t c qVector x e [] ∧ EngineFrame s t c x ∧ (t.cl c).store = o.store ∧
      (t.cl c).core.sums = (s.cl c).core.sums ++ o.sum.toList ∧ (t.cl c).acc = (s.cl c).acc ∧
      ∀ d b, loadDesc (s.engCtx c x).hm x.prog.recipes (s.cl c).store (fld e.raw 87 64) = .ok d →
        (cmdOp e.raw = 0x11 → reduceOp e.raw = 4 →
          ∀ k, loadDesc (s.engCtx c x).hm x.prog.recipes (s.cl c).store (fld e.raw 159 136) = .ok k → b = k.ranges) →
        ∀ a, Outside (d.ranges ++ b) ((s.engCtx c x).lo + a) → (t.cl c).store.read a = (s.cl c).store.read a

/-- An error (R44): a command whose checks fail at its start leaves its queue, the cluster issues no further command, its memory is untouched, and
the record carries the status. -/
def Obligations.ErrorStopsCluster : Prop :=
  ∀ (s : State) (c : Fin 64) (x : Site) (e : QEntry) (st : Nat), s.startable c qMatrix = some (x, e) → cmdOp e.raw = 0x01 →
    matmulRun (s.engCtx c x) (s.cl c).store e.raw = .error st → st ≠ 0 → (s.heat x.h).isRoot = false →
    ∃ t r, exec (.matmul c) s = .next t ∧ (t.cl c).halted = some st ∧ (t.cl c).store = (s.cl c).store ∧
      (t.cl c).queues[qMatrix] = (s.cl c).queues[qMatrix].drop 1 ∧ (t.cl c).splits.getLast? = some r ∧ r.status = st ∧
      r.cmdId = fld e.raw 47 32

/-! The mover. -/

/-- The mover's commands (R209 to R213, R175, R181): where the command may start, the other clusters it reaches accept transfers (R28) and it runs
without error, it completes with the memory that the rules give, and every byte outside the tensor, entries, descriptors and pages it stores to
stays; where a granule of memory it writes fails its tag it ends with E_CHECK and writes nothing (R197, R213). -/
def Obligations.MoverCommandsComplete : Prop :=
  ∀ (s : State) (c : Fin 64) (x : Site) (e : QEntry) (o : MovOut), s.startable c qMover = some (x, e) → s.peersReach x e.raw = true →
    o.status = 0 →
    let sp := s.space x
    let rs := x.prog.recipes
    let q := e.raw
    let completes := fun (i : Instr) (dest : List (Nat × Nat) → Prop) => ∃ t, exec i s = .next t ∧ CommandDone s t c qMover x e [] ∧
      MoverFrame s t c x ∧ t.space x = o.sp ∧ ∃ ds, dest ds ∧ ∀ l, Untouched sp.hm ds l → (t.space x).at l = sp.at l
    let tagFails := fun (i : Instr) => s.writesMemory x sp o.sp q = true → (s.heat x.h).isRoot = false →
      ∃ t, exec i s = .next t ∧ (t.cl c).halted = some eCheck ∧ (t.heat x.h).mem = (s.heat x.h).mem ∧ ∀ d, (t.cl d).store = (s.cl d).store
    (cmdOp q = 0x20 → gatherRun rs sp q = .ok o → completes (.gather c) (tensorDest rs sp (fld q 87 64))) ∧
    (cmdOp q = 0x21 → scatterRun rs x.prog.floatAtomics s.cacheAtomics sp q = .ok o →
      (aopOf q = 0 → completes (.store c false) (tensorDest rs sp (fld q 87 64)) ∧ tagFails (.store c true)) ∧
      (aopOf q = 1 → completes (.fadd c false) (tensorDest rs sp (fld q 87 64)) ∧ tagFails (.fadd c true)) ∧
      (aopOf q = 2 → completes (.iadd c false) (tensorDest rs sp (fld q 87 64)) ∧ tagFails (.iadd c true)) ∧
      (aopOf q = 3 → completes (.imax c false) (tensorDest rs sp (fld q 87 64)) ∧ tagFails (.imax c true)) ∧
      (aopOf q = 4 → completes (.imin c false) (tensorDest rs sp (fld q 87 64)) ∧ tagFails (.imin c true))) ∧
    (cmdOp q = 0x22 →
      (copOf q = 0 → plainRun rs sp q = .ok o → completes (.plain c false) (tensorDest rs sp (fld q 95 72)) ∧ tagFails (.plain c true)) ∧
      (copOf q = 1 → kvReadRun rs sp q = .ok o → completes (.kvRead c) (kvReadDest rs sp q)) ∧
      (copOf q = 2 → kvWriteRun rs sp q = .ok o → completes (.kvWrite c false) (kvWriteDest sp q) ∧ tagFails (.kvWrite c true)) ∧
      (copOf q = 3 → allocRun sp q = .ok o → completes (.alloc c false) (pageOpDest 1 sp q) ∧ tagFails (.alloc c true)) ∧
      (copOf q = 4 → shareRun sp q = .ok o →
        completes (.share c false) (pageOpDest (fld q 251 240 + 1) sp q) ∧ tagFails (.share c true)) ∧
      (copOf q = 5 → cowRun sp q = .ok o → completes (.cow c false) (pageOpDest 1 sp q) ∧ tagFails (.cow c true)) ∧
      (copOf q = 6 → freeRun sp q = .ok o →
        completes (.free c false) (pageOpDest (fld q 251 240 + 1) sp q) ∧ tagFails (.free c true)))

/-! The link queue. -/

/-- SEND (R235 to R237, R239, R271): where it may start and its source is good, its blocks leave and are awaited, those to this module itself
landing here, with a second copy to the twin of a sampled tag; it stays at the head of its queue until each is acknowledged, and then completes;
where a granule of its source fails its tag it ends with E_CHECK and nothing leaves (R242). -/
def Obligations.SendsLeave : Prop :=
  (∀ (s : State) (c : Fin 64) (x : Site) (e : QEntry) (d : Desc) (bs : Bytes), s.startable c qLink = some (x, e) → cmdOp e.raw = 0x30 →
    let h := s.heat x.h
    let q := e.raw
    let dest := fld q 99 88
    let tag := fld q 111 100
    sendSource h x (s.space x) false q = .ok (d, bs) →
    let copies : List Nat := if bitAt q 134 then [] else (h.sampled x.prog tag dest).toList
    let blocks := (tag :: copies).flatMap (fun t => (sendBlocks (fld q 133 112) bs).map (fun b => (t, b)))
    let leaves := fun (i : Instr) => ∃ t, exec i s = .next t ∧
      (t.heat x.h).sent = h.sent ++ blocks.map (fun b => ⟨c.val, e.ord, dest, b.1, bitAt q 134, h.epoch, b.2.1, b.2.2.length / 32⟩) ∧
      (t.heat x.h).ejected = h.ejected ++ (if dest = h.ownId then
        blocks.map (fun b => ⟨32, h.ownId, b.1, bitAt q 134, if bitAt q 134 then h.hu.step % 2 else 0, h.epoch, b.2.1, b.2.2⟩) else []) ∧
      t.cl c = (s.cl c).setHead qLink { s.latch c e with phase := .sending } ∧ (∀ k, k ≠ c → t.cl k = s.cl k) ∧
      (∀ j, t.heat j = { s.heat j with
        sent := (t.heat j).sent, ejected := (t.heat j).ejected, hu := (s.heat j).hu.heldAs (t.heat j).hu
        chans := if j = x.h then (h.takeChans x.own q).chans else (s.heat j).chans }) ∧
      (∀ j, j ≠ x.h → (t.heat j).sent = (s.heat j).sent ∧ (t.heat j).ejected = (s.heat j).ejected) ∧
      (∀ p, t.port p = (s.port p).sentAs (t.port p)) ∧ t.com = { s.com with ctrs := t.com.ctrs } ∧ t.now = s.now ∧ t.pending = s.pending
    let tagFails := fun (i : Instr) => h.isRoot = false → ∃ t, exec i s = .next t ∧ (t.cl c).halted = some eCheck ∧
      (t.heat x.h).sent = h.sent ∧ (t.heat x.h).ejected = h.ejected
    (bitAt q 134 = false → leaves (.send c false) ∧ tagFails (.send c true)) ∧
    (bitAt q 134 = true → leaves (.sendBaton c false) ∧ tagFails (.sendBaton c true))) ∧
  (∀ (s : State) (c : Fin 64) (x : Site) (e : QEntry) (rest : List QEntry), s.site c = some x → (s.cl c).queues[qLink] = e :: rest →
    e.phase = .sending →
    ((s.heat x.h).awaits c.val e.ord = true → s.settleSend c e.ord = s) ∧
    ((s.heat x.h).awaits c.val e.ord = false → let t := s.settleSend c e.ord
      (t.cl c).queues = (s.cl c).queues.set qLink rest ∧ (t.cl c).store = (s.cl c).store ∧ (∀ d, d ≠ c → t.cl d = s.cl d) ∧
      ∃ r, (t.cl c).splits.getLast? = some r ∧ r.cmdId = fld e.raw 47 32 ∧ r.opcode = cmdOp e.raw ∧ r.startT = e.startT ∧ r.endT = s.ticks ∧
        r.status = 0))

/-- RECV (R240, R241, R272): once every byte of its tag, and of the twin of a tag that is sampled, has landed, WAIT completes, and a COMBINE
completes with its destination combined, every byte outside it as before; a tag without a mismatch. Where a granule it reads or writes fails its tag
a COMBINE ends with E_CHECK and writes nothing (R242). -/
def Obligations.ReceivesComplete : Prop :=
  ∀ (s : State) (c : Fin 64) (x : Site) (e : QEntry), s.startable c qLink = some (x, e) → cmdOp e.raw = 0x31 →
    let h := s.heat x.h
    let q := e.raw
    let tag := fld q 123 112
    let sp := s.space x
    h.landedBytes tag = recvExpect q →
    (recvMode q = 0 → recvCheck x sp q = .ok none → ∃ t, exec (.wait c) s = .next t ∧ CommandDone s t c qLink x e [] ∧ EngineFrame s t c x ∧
      (t.cl c).store = (s.cl c).store ∧ (t.cl c).core = (s.cl c).core ∧ (t.cl c).acc = (s.cl c).acc ∧ (t.cl c).rowBuf = (s.cl c).rowBuf) ∧
    ∀ k, recvCheck x sp q = .ok (some k) →
      let twin := h.sampled x.prog tag h.ownId
      (∀ t, twin = some t → h.landedBytes t = recvExpect q) →
      let combines := fun (i : Instr) (left : Bool) =>
        let o := combineRun k sp (x.prog.tagBase tag) (twin.map x.prog.tagBase) left
        o.1.status = 0 → o.2 = false → ∃ t, exec i s = .next t ∧ CommandDone s t c qLink x e [] ∧ MoverFrame s t c x ∧ t.space x = o.1.sp ∧
          ∀ l, Untouched sp.hm k.d.ranges l → (t.space x).at l = sp.at l
      let tagFails := fun (i : Instr) => h.isRoot = false → ∃ t, exec i s = .next t ∧ (t.cl c).halted = some eCheck ∧
        (t.heat x.h).mem = h.mem ∧ ∀ d, (t.cl d).store = (s.cl d).store
      (recvMode q = 1 → combines (.combineLeft c false) true ∧ tagFails (.combineLeft c true)) ∧
      (recvMode q = 2 → combines (.combineRight c false) false ∧ tagFails (.combineRight c true))

/-- HURDLE (R257, R259, R324): with every earlier command complete and no encode request outstanding the cluster has reached the hurdle; the command
stays at the head of its queue and nothing else changes. -/
def Obligations.HurdleIsReached : Prop :=
  ∀ (s : State) (c : Fin 64) (x : Site) (e : QEntry), s.startable c qLink = some (x, e) → cmdOp e.raw = 0x32 → (s.cl c).drained e = true →
    rsv e.raw 255 64 = true → waitEn e.raw = false → postEn e.raw = false →
    ∃ t, exec (.hurdle c) s = .next t ∧ HoldOnly (s.modCl c (fun k => k.setHead qLink { s.latch c e with phase := .arrived })) t

/-! The control core. -/

/-- A write of blk_issue (R40, R44, R257, R361): it joins the issued blocks and the core goes on, with the block's pace in force; with four blocks
not fetched, a HURDLE open or the cluster stopped by an error it stalls. -/
def Obligations.BlockIssues : Prop :=
  ∀ (s : State) (c : Fin 64) (x : Site) (rd src len : Nat) (isImm : Bool), s.coreSite c = some x →
    (s.cl c).fetch = some (.blkIssue rd src isImm, len) →
    let k := s.cl c
    (k.issueStalls = true → ∃ t, exec (.blkIssue c) s = .next t ∧ HoldOnly s t) ∧
    ∀ hurdle, k.issueStalls = false → issueBlock (s.space x) (s.streamBase x) (k.csrValue src isImm) = .ok hurdle →
      ∃ t, exec (.blkIssue c) s = .next t ∧
        t.cl c = { k with pc := (t.cl c).pc, core := { k.core with
          issued := k.core.issued ++ [⟨k.core.issueCount, k.csrValue src isImm, 0⟩], issueCount := k.core.issueCount + 1
          hurdleOpen := hurdle, pc := k.core.pc + BitVec.ofNat 32 len, regs := xw k.core.regs rd 0 } } ∧
        (t.cl c).pc.pace = fld (s.eventOf x (k.csrValue src isImm)) 1 0 ∧ (∀ d, d ≠ c → t.cl d = s.cl d) ∧
        (∀ j, t.heat j = { s.heat j with hu := (s.heat j).hu.heldAs (t.heat j).hu }) ∧
        (∀ p, t.port p = (s.port p).sentAs (t.port p)) ∧ t.com = { s.com with ctrs := t.com.ctrs } ∧ t.now = s.now ∧ t.pending = s.pending

/-- The stream fetcher (R40): the next command of the oldest issued block joins the queue of its engine, if that has room; the block leaves the
issued ones with its last command. -/
def Obligations.StreamFetchQueuesCommand : Prop :=
  ∀ (s : State) (c : Fin 64) (x : Site) (b : Issue) (rest : List Issue) (first count raw : Nat) (q : Fin 4), s.coreSite c = some x →
    (s.cl c).core.issued = b :: rest → streamBlock (s.space x) (s.streamBase x) b.blk = .ok (first, count) →
    streamCmd (s.space x) (s.streamBase x) (first + b.next) = .ok raw → opQueue (cmdOp raw) = some q → (s.cl c).halted = none →
    (s.cl c).queues[q].length < 16 →
    ∃ t, exec (.streamFetch c) s = .next t ∧ HoldOnly (s.modCl c (fun k => { k with
      queues := k.queues.set q (k.queues[q] ++ [⟨k.nextOrd, b.iss, b.blk, b.next + 1 == count, raw, .waiting, 0, 0⟩]), nextOrd := k.nextOrd + 1
      core := { k.core with issued := if b.next + 1 = count then rest else { b with next := b.next + 1 } :: rest } })) t

/-- enc_issue and enc_wait (R324): a write joins the outstanding requests, stalling with two of them; a read answers the status of the oldest
complete one and removes it, E_DESC at once with none outstanding, and stalls on one that is not complete. -/
def Obligations.EncodeQueueKept : Prop :=
  ∀ (s : State) (c : Fin 64) (x : Site) (rd src len : Nat) (isImm : Bool), s.coreSite c = some x →
    let k := s.cl c
    (k.fetch = some (.encIssue rd src isImm, len) → ∃ t, exec (.encIssue c) s = .next t ∧
      HoldOnly (if 2 ≤ k.core.encs.length then s else s.modCl c (fun k => { k with core := { k.core with
        encs := k.core.encs ++ [⟨k.csrValue src isImm, k.core.issueCount, .queued, []⟩], pc := k.core.pc + BitVec.ofNat 32 len
        regs := xw k.core.regs rd 0 } })) t) ∧
    (k.fetch = some (.encWait rd, len) → k.core.encs = [] → ∃ t, exec (.encWait c) s = .next t ∧
      HoldOnly (s.modCl c (fun k => { k with core := { k.core with pc := k.core.pc + BitVec.ofNat 32 len, regs := xw k.core.regs rd 8 } })) t) ∧
    ∀ r rest, k.fetch = some (.encWait rd, len) → k.core.encs = r :: rest → ∃ t, exec (.encWait c) s = .next t ∧
      HoldOnly (match r.phase with
        | .done st => s.modCl c (fun k => { k with core := { k.core with
          encs := rest, pc := k.core.pc + BitVec.ofNat 32 len, regs := xw k.core.regs rd (BitVec.ofNat 32 st) } })
        | _ => s) t

/-- An encode request (R324 to R326): the oldest queued one, once the blocks issued before it are complete and an encode unit is free, runs on the
64 bytes at its offset; when it completes it holds its status, which with the bytes written stands in the store too, the stream in memory, and
everything else as before. -/
def Obligations.EncodeRequestsRun : Prop :=
  ∀ (s : State) (c : Fin 64) (x : Site) (i : Nat) (r : EncReq), s.site c = some x → (s.cl c).core.encs[i]? = some r →
    (∀ u, (s.cl c).core.encs.findIdx? (fun r => r.phase == .queued) = some i → (s.cl c).encReady r.before = true → (s.cl c).frozen = false →
      (s.cl c).core.restarting = false → r.off % 64 = 0 → r.off + 64 ≤ 0x1000000 →
      (s.encUnits (s.heat x.h)).find? s.encFree = some u →
      exec (.encodeRequestStart c) s = .next (s.modCl c (fun k => { k with core := { k.core with
        encs := k.core.encs.modify i (fun p => { p with phase := .running u (k.store.num r.off 64) }) } }))) ∧
    ∀ u q tagFail, (s.cl c).core.encs.findIdx? encBusy = some i → (s.cl c).frozen = false →
      r.phase = .running u q →
      let o := encodeRun s.free (s.space x) q tagFail
      ∃ t, exec (.encodeComplete c tagFail) s = .next t ∧ (t.cl c).core = { (s.cl c).core with
          encs := (s.cl c).core.encs.modify i (fun r => { r with phase := .done o.1 }) } ∧
        (t.cl c).store.get (r.off + 32) 1 = natLE 1 o.1 ∧ (t.cl c).store.get (r.off + 40) 8 = natLE 8 o.2.1 ∧
        (t.heat x.h).mem = o.2.2.mem ∧ (∀ d, d ≠ c → (t.cl d).core = (s.cl d).core ∧ (t.cl d).queues = (s.cl d).queues) ∧
        (t.cl c).queues = (s.cl c).queues ∧ t.ports = s.ports ∧ t.com = { s.com with ctrs := t.com.ctrs } ∧ t.now = s.now ∧
        (∀ j, t.heat j = { s.heat j with mem := (t.heat j).mem, poison := (t.heat j).poison, scratch := (t.heat j).scratch }) ∧
        ∀ l, Untouched (s.space x).hm [(fld q 207 160, fld q 255 208)] l → o.2.2.at l = (s.space x).at l

/-- sum.get and the seven bsum instructions (R151, R152): the oldest summary is taken, into rd or as what the branch compares with x[rs2]; on an
empty queue they stall. -/
def Obligations.SummariesAreTaken : Prop :=
  ∀ (s : State) (c : Fin 64) (x : Site) (i : Instr) (len : Nat) (next : Word → Core → Core), s.coreSite c = some x →
    ((∃ rd, (s.cl c).fetch = some (.sumGet rd, len) ∧ i = .sumGet c ∧
        next = fun w k => { k with pc := k.pc + BitVec.ofNat 32 len, regs := xw k.regs rd w }) ∨
      (∃ f3 rs2 off, (s.cl c).fetch = some (.bsum f3 rs2 off, len) ∧ (f3, i) ∈ [(0, Instr.bsumFlt c), (1, .bsumFge c), (2, .bsumFeq c),
          (3, .bsumFne c), (4, .bsumNan c), (5, .bsumUlt c), (6, .bsumUge c)] ∧
        next = fun w k => { k with pc := k.pc + if bsumCond f3 w (xr k.regs rs2) then off else BitVec.ofNat 32 len })) →
    ((s.cl c).core.sums = [] → ∃ t, exec i s = .next t ∧ HoldOnly s t) ∧
    ∀ w rest, (s.cl c).core.sums = w :: rest → (∀ e, (s.cl c).queues[qVector].head? = some e → ∀ v, e.phase ≠ .summary v) →
      ∃ t, exec i s = .next t ∧ HoldOnly (s.modCl c (fun k => { k with core := next w { k.core with sums := rest } })) t

/-- A vector command with a summary that meets four entries (R151): its result is written, and it stays at the head of its queue with its summary;
when the oldest summary is taken its own enters and it completes. -/
def Obligations.SummariesWaitForRoom : Prop :=
  (∀ (s : State) (c : Fin 64) (x : Site) (e : QEntry) (o : VecOut) (w : Word), s.startable c qVector = some (x, e) → cmdOp e.raw = 0x10 →
    vecRun (s.engCtx c x) (s.cl c).store e.raw = .ok o → o.status = 0 → o.sum = some w → 4 ≤ (s.cl c).core.sums.length →
    ∃ t k, exec (.vec c) s = .next t ∧ (t.cl c).store = o.store ∧ (t.cl c).core = (s.cl c).core ∧
      (t.cl c).queues[qVector].head? = some k ∧ k.raw = e.raw ∧ k.phase = .summary w ∧
      (t.cl c).queues[qVector].length = (s.cl c).queues[qVector].length ∧ (t.cl c).splits = (s.cl c).splits) ∧
  (∀ (s : State) (c : Fin 64) (x : Site) (rd len : Nat) (w v : Word) (rest : List Word) (e : QEntry), s.coreSite c = some x →
    (s.cl c).fetch = some (.sumGet rd, len) → (s.cl c).core.sums = w :: rest → rest.length < 4 →
    (s.cl c).queues[qVector].head? = some e → e.phase = .summary v →
    ∃ t r, exec (.sumGet c) s = .next t ∧ (t.cl c).core = { (s.cl c).core with
        pc := (s.cl c).core.pc + BitVec.ofNat 32 len, regs := xw (s.cl c).core.regs rd w, sums := rest ++ [v] } ∧
      (t.cl c).queues = (s.cl c).queues.set qVector ((s.cl c).queues[qVector].drop 1) ∧ (t.cl c).store = (s.cl c).store ∧
      (t.cl c).splits.getLast? = some r ∧ r.cmdId = fld e.raw 47 32 ∧ r.status = 0 ∧ ∀ d, d ≠ c → t.cl d = s.cl d)

/-- Every other instruction of the control core (R443, R444) changes its pc, its registers and its data memory as RV32IMC says, and x0 reads zero
afterwards; one that traps crashes the core, which stops with its queues empty until the scheduler core has restarted it (R337). -/
def Obligations.ControlCoreSteps : Prop :=
  ∀ (s : State) (c : Fin 64) (x : Site) (i : RvIns) (len : Nat), s.coreSite c = some x → (s.cl c).fetch = some (i, len) → i.ownRow = false →
    (∀ pc regs dmem, rvRun i len (s.cl c).core.pc (s.cl c).core.regs (s.cl c).dmem = some (pc, regs, dmem) →
      exec (.controlCoreInstruction c) s = .next (s.modCl c (fun k => { k with dmem := dmem, core := { k.core with pc := pc, regs := regs } })) ∧
      ((s.cl c).core.regs[0] = 0 → regs[0] = 0)) ∧
    (rvRun i len (s.cl c).core.pc (s.cl c).core.regs (s.cl c).dmem = none → (s.cl c).firstRestart = none →
      ∃ t, exec (.controlCoreInstruction c) s = .next t ∧ (t.cl c).core.running = false ∧ (t.cl c).core.restarting = true ∧
        (t.cl c).queues = Vector.replicate 4 [] ∧ (t.cl c).store = (s.cl c).store ∧ (t.cl c).dmem = (s.cl c).dmem ∧
        ∀ d, d ≠ c → t.cl d = s.cl d)

/-! Management. -/

/-- How a request is gated (R378, R386, R387, R389, R391): one that cannot be framed, has a bad tag or a wrong sequence number, or comes before
ATTACH closes its session; while the scheduler core is down it waits; a reserved field or type, a right the session lacks, a 17th outstanding
request and a state that does not serve it are answered with their status. -/
def Obligations.RequestsAreGated : Prop :=
  ∀ (s : State) (m : Msg) (ok : Bool) (i : Instr) (k : Session), i ∈ requestRows m ok → m.hdr.length = 32 → s.session m.conn = some k →
    (msgUnframed m = true → exec i s = .next (s.closeSession m.conn)) ∧
    (msgUnframed m = false → m.body.length = msgLen m → msgRow m i = true →
      k.phase ≠ .attached ∨ m.tag ≠ hmac k.keys.1 (m.hdr ++ m.body) ∨ msgSeq m ≠ k.rxSeq → exec i s = .next (s.closeSession m.conn)) ∧
    (Arrived s m i k →
      (s.serving = false → (s.com.mgmt.queue.filter (fun q => msgConn q == some m.conn)).length < 16 →
        exec i s = .next ((s.took m).modMgmt (fun g => { g with queue := g.queue ++ [i] }))) ∧
      (s.serving = true →
        let status : Nat := if msgRsvOk m = false ∨ clientType (msgType m) = false then eConfig
          else if ∃ r, typeRight (msgType m) = some r ∧ bitAt k.rights r = false then eAuth
          else if 16 ≤ k.replies.length then eLimit
          else if stateServes s.com.boot.state m = false then eConfig else 0
        status ≠ 0 → exec i s = .next ((s.took m).answer m status [])))

/-- A reply (R386, R387, R389): with no earlier request unanswered it leaves at once, tagged under the session's key, with the sequence number of
the session, the heat and the sequence number of the request; behind an unanswered one it waits; nothing else changes. -/
def Obligations.RepliesAreSent : Prop :=
  ∀ (s : State) (m : Msg) (status : Nat) (body : Bytes) (k : Session), s.session m.conn = some k →
    let t := s.answer m status body
    let hdr := msgHdr 0x40 status (msgHeat m) k.txSeq body.length (msgSeq m)
    (k.replies = [] → k.closing = false → t.out = s.out ++ [.mgmt m.conn hdr body (hmac k.keys.2 (hdr ++ body))] ∧
      t.session m.conn = some { k with txSeq := k.txSeq + 1 }) ∧
    (∀ q h rest, k.replies = (q, h, none) :: rest →
      t.out = s.out ∧ t.session m.conn = some { k with replies := k.replies ++ [(msgSeq m, msgHeat m, some (status, body))] }) ∧
    ((k.replies = [] ∧ k.closing = false) ∨ (∃ q h rest, k.replies = (q, h, none) :: rest) → (∀ c, c ≠ m.conn → t.session c = s.session c) ∧
      t = { s with out := t.out, com := { s.com with mgmt := { s.com.mgmt with sessions := t.com.mgmt.sessions } } })

/-- DETACH, every QUERY and READ_LIFELOG (R400 to R404, R410 to R413, R421): where the request is served and its fields are in range, the reply
carries what it asks for; DETACH closes the session after it. -/
def Obligations.QueriesAnswer : Prop :=
  ∀ (s : State) (m : Msg) (k : Session),
    let t := s.took m
    (Accepted s m (.detach m) k → exec (.detach m) s = .next ((t.modSession m.conn (fun k => { k with closing := true })).answer m 0 [])) ∧
    (Accepted s m (.queryStatus m) k → 4 ≤ m.body.length → queryKind m = 0 → s.queryOk m = true →
      exec (.queryStatus m) s = .next (t.answer m 0 t.statusBody)) ∧
    (Accepted s m (.queryInventory m) k → s.queryOk m = true →
      ∃ es : List Bytes, exec (.queryInventory m) s = .next (t.answer m 0 (natLE 4 es.length ++ List.replicate 12 0 ++ es.flatten)) ∧
        (∀ hi : Fin 4, msgHeat m = hi.val → es = t.inventory hi) ∧
        (msgHeat m = 0xFF → es = t.inventory 0 ++ t.inventory 1 ++ t.inventory 2 ++ t.inventory 3)) ∧
    (Accepted s m (.queryAttest m) k → 48 ≤ m.body.length → s.queryOk m = true → s.com.boot.security = .up →
      let q := t.quote (msgHeat m) (bytesAt m.body 16 32)
      exec (.queryAttest m) s = .next (t.useFree.answer m 0 (q ++ bytesAt (Config.deviceSignature t.free q) 0 17088
        ++ bytesAt Config.deviceKey 0 32 ++ bytesAt Config.serial 0 16 ++ bytesAt Config.certificate 0 7856))) ∧
    (Accepted s m (.snapshot m) k → 14 ≤ m.body.length → querySub m = 0 → leAt m.body 9 1 = 0 → s.queryOk m = true →
      let g := leAt m.body 8 1
      let first := leAt m.body 10 2
      let n := leAt m.body 12 2
      1 ≤ g → g ≤ 9 → first + n ≤ ctrInstances s.com.boot.order g → n * instanceSize g ≤ mib →
      exec (.snapshot m) s = .next (t.answer m 0 ((List.range n).flatMap (fun i => t.instanceBytes g (first + i))))) ∧
    (Accepted s m (.splits m) k → 24 ≤ m.body.length → leAt m.body 9 7 = 0 → s.queryOk m = true → ∀ c : Fin 64, leAt m.body 8 1 = c.val →
      exec (.splits m) s = .next (t.answer m 0 (natLE 8 (s.cl c).splitDropped ++
        (((s.cl c).splits.filter (fun r => leAt m.body 16 8 ≤ r.seq)).take 1024).flatMap SplitRec.bytes))) ∧
    (Accepted s m (.queryDump m) k → 28 ≤ m.body.length → leAt m.body 9 7 = 0 → s.queryOk m = true →
      ∀ d, s.com.store.dumps.find? (fun d => d.slot == leAt m.body 8 1) = some d → leAt m.body 24 4 ≤ mib →
      leAt m.body 16 8 + leAt m.body 24 4 ≤ d.len →
      exec (.queryDump m) s = .next ((if d.slot = 0xFF then t else t.countRead (leAt m.body 24 4)).answer m 0 ((List.range (leAt m.body 24 4)).map (fun i => dumpByteAt d (leAt m.body 16 8 + i))))) ∧
    (Accepted s m (.readLifelog m) k → 12 ≤ m.body.length → s.com.boot.security = .up → leAt m.body 8 4 ≤ mib →
      leAt m.body 0 8 + leAt m.body 8 4 ≤ 992 * 4096 →
      exec (.readLifelog m) s = .next (t.answer m 0 (s.flashGet (0x20000 + leAt m.body 0 8) (leAt m.body 8 4))))

/-- LOAD_FW and WRITE_CONFIG (R370, R379, R382, R384, R417): a chunk that follows the ones before is kept; the last one of a bundle that verifies
loads its sections, the control-core runtime into every cluster, and starts the central cores, and every session closes after the reply; a bundle
that does not verify is dropped with its status; an image of a higher generation goes into the other slot. -/
def Obligations.FirmwareAndConfigurationLoad : Prop :=
  ∀ (s : State) (m : Msg) (k : Session) (ok : Bool),
    let t := s.took m
    let have_ := s.com.boot.fwChunks
    let b := have_ ++ m.body.drop 16
    (Accepted s m (.loadFw m ok) k → (∀ h, (s.heat h).phase = .free) → s.com.boot.security = .up → 16 ≤ m.body.length →
      m.body.length ≤ mib + 16 → leAt m.body 8 8 = 0 → leAt m.body 0 8 = have_.length → have_.length + m.body.length - 16 ≤ 16777216 →
      (msgLast m = false → exec (.loadFw m ok) s = .next ((t.modBoot (fun k => { k with fwChunks := b })).answer m 0 [])) ∧
      (msgLast m = true → bundleOk b = true → bundleTrusted b = true → ok = true → configMinFw (s.com.boot.config.getD []) ≤ bundleVersion b →
        let u := t.useFree.modBoot (fun k => { k with
          state := .awaitFw, readySent := false, loadedAt := s.now, fwVersion := bundleVersion b, fwDigest := bundleDigest b, fwChunks := []
          fw := Vector.ofFn (fun i => bundleSection b (i.val + 1) s.free), security := .up, secFails := 0, scheduler := .up, power := .up })
        let v : State := { u with clusters := u.clusters.map (fun k => { k with rt := bundleSection b 4 s.free }) }
        exec (.loadFw m ok) s = .next (((v.journal 7 0 0 0 (bundleVersion b)).answer m 0 []).closeAll)) ∧
      (msgLast m = true → bundleOk b = false → exec (.loadFw m ok) s = .next ((t.modBoot (fun k => { k with fwChunks := [] })).answer m eConfig [])) ∧
      (msgLast m = true → bundleOk b = true → bundleTrusted b = false ∨ ok = false →
        exec (.loadFw m ok) s = .next ((t.modBoot (fun k => { k with fwChunks := [] })).answer m eAuth []))) ∧
    (Accepted s m (.writeConfig m ok) k → s.com.boot.security = .up → configOk m.body = true → ownerKeyOk m.body = true → ok = true →
      (∀ c, s.com.boot.config = some c → configGen c < configGen m.body) →
      let base := slotBase s.otherSlot
      exec (.writeConfig m ok) s = .next ((((t.flashErase base 65536).flashPut base m.body).journal 8 0 0 0 (configGen m.body)).answer m 0 []))

/-- RESET (R395, R399, R400): of a heat, it is FREE afterwards and the reply follows; of the module, every session closes after the reply and boot
restarts, so that time is 0, the module in BOOT, every heat, cluster and port as after reset, nothing queued. -/
def Obligations.ResetsTakeEffect : Prop :=
  ∀ (s : State) (m : Msg) (k : Session),
    (Accepted s m (.resetHeat m) k → m.body.length ≠ 0 → leAt m.body 0 1 = 0 → ∀ hi : Fin 4, msgHeat m = hi.val →
      exec (.resetHeat m) s = .next (((s.took m).freeHeat hi).answer m 0 []) ∧
      (((s.took m).freeHeat hi).answer m 0 []).heat hi = Heat.reset) ∧
    (Accepted s m (.resetModule m) k →
      ∃ t, exec (.resetModule m) s = .next t ∧ t.now = 0 ∧ t.com.boot.state = .boot ∧ t.com.boot.config = none ∧ t.com.mgmt.sessions = [] ∧
        t.com.mgmt.link = false ∧ (∀ h, t.heat h = Heat.reset) ∧ (∀ c, t.cl c = Cluster.reset) ∧ (∀ p, t.port p = Port.reset) ∧
        t.pending = s.pending ∧ t.com.store.boots = s.com.store.boots + 1 ∧ t.com.store.slots = s.com.store.slots)

/-- LOAD_IMAGE, START, STOP_AT_HURDLE, CHECKPOINT_NOW and REARM (R263, R275, R347, R395 to R400): where the request is served and its fields are in
range, each has its effect on the heat it names. -/
def Obligations.JobsAreControlled : Prop :=
  ∀ (s : State) (m : Msg) (k : Session) (hi : Fin 4), msgHeat m = hi.val →
    let t := s.took m
    let h := s.heat hi
    (Accepted s m (.loadImage m) k → leAt m.body 8 8 = 0 →
      let off := leAt m.body 0 8
      let data := m.body.drop (if off = 0 then 80 else 16)
      let ends := fun (u : State) => let img := (u.heat hi).chunks ++ data
        let v := u.modHeat hi (fun h => { h with chunks := img })
        (msgLast m = false → exec (.loadImage m) s = .next (v.answer m 0 [])) ∧
        (msgLast m = true → exec (.loadImage m) s = .next (match v.validate (v.heat hi) img with
          | none => (v.loadAll hi (parseImage img)).answer m 0 (natLE 4 noSection ++ natLE 8 0)
          | some (st, sec, at_) => (v.freeHeat hi).answer m st (natLE 4 sec ++ natLE 8 at_)))
      data.length ≤ mib →
      (h.phase = .free → off = 0 → 80 ≤ m.body.length → ∀ u, t.admitHeat hi (leAt m.body 16 64) = .ok u → ends u) ∧
      (h.phase = .free → off = 0 → 80 ≤ m.body.length → ∀ st, t.admitHeat hi (leAt m.body 16 64) = .error st → msgLast m = false →
        exec (.loadImage m) s = .next ((t.freeHeat hi).answer m st [])) ∧
      (h.phase = .loading → off = h.chunks.length → off ≠ 0 → 16 ≤ m.body.length → ends t)) ∧
    (Accepted s m (.start m) k → ∀ p, h.image = some p → (h.phase = .loaded ∨ h.phase = .stopped) → startOk p s.com.boot.settings m.body = true →
      exec (.start m) s = .next ((t.deferReply m.conn (msgSeq m) hi.val).launchJob hi p
        (jobOf s.com.boot.settings (leAt m.body 0 128) (m.conn, msgSeq m)))) ∧
    (Accepted s m (.stopAtHurdle m) k → h.phase = .running → exec (.stopAtHurdle m) s = .next ((t.stopAtNext hi).answer m 0 [])) ∧
    (Accepted s m (.checkpointNow m) k → h.phase = .running → 9 ≤ m.body.length → rsv (leAt m.body 8 1) 7 2 = true →
      h.hu.step < leAt m.body 0 8 →
      exec (.checkpointNow m) s = .next ((t.modHeat hi (fun h => { h with ck := { h.ck with
        extra := h.ck.extra ++ [(leAt m.body 0 8, bitAt (leAt m.body 8 1) 0, bitAt (leAt m.body 8 1) 1)] } })).answer m 0 [])) ∧
    (Accepted s m (.rearm m) k → h.phase = .running → 2 ≤ m.body.length → leAt m.body 0 1 < 2 →
      leAt m.body 1 1 < (h.image.map Program.serverCount).getD 0 →
      exec (.rearm m) s = .next ((t.modHeat hi (fun h => { h with pipe := { h.pipe with qps := h.pipe.qps.map (fun q =>
        if q.port = leAt m.body 0 1 ∧ q.server = leAt m.body 1 1 then { q with err := false } else q) } })).answer m 0 []))

/-- Sessions (R372, R385, R386, R388 to R391, R394): a connection to the module's address and port is accepted where fewer than four sessions exist,
one to another is not; the attach exchange, whose messages carry a zero tag, CHALLENGE and session keys; the loss of a connection; and the timers,
each of which closes its session, or asks running jobs to stop. -/
def Obligations.SessionsAreKept : Prop :=
  ∀ (s : State) (conn addr port : Nat),
    (s.com.mgmt.link = true → s.session conn = none → s.com.boot.endpoint.2 = (addr, port) →
      exec (.tcpConnect conn addr port) s = .next (if 4 ≤ s.com.mgmt.sessions.length then s.emit (.tcpReset conn)
        else s.modMgmt (fun m => { m with sessions := m.sessions ++ [Session.fresh conn s.now] }))) ∧
    (s.com.boot.endpoint.2 ≠ (addr, port) → exec (.tcpConnect conn addr port) s = .next s) ∧
    (∀ k, s.session conn = some k →
      exec (.tcpLoss conn) s = .next (s.dropSession conn) ∧
      (k.phase = .listen → exec (.listenTimeout conn) s = .next ((s.reach (k.since + 10 * second)).closeSession conn)) ∧
      (k.phase = .challenged → exec (.challengedTimeout conn) s = .next ((s.reach (k.since + 10 * second)).closeSession conn)) ∧
      (k.phase = .attached → s.serving = true →
        exec (.leaseExpiry conn) s = .next ((s.reach (k.lease + s.leaseS * second)).closeSession conn)) ∧
      ∀ m : Msg, m.conn = conn → m.hdr.length = 32 → msgUnframed m = false → m.body.length = msgLen m → msgType m = 1 → msgRsvOk m = true →
        s.com.boot.security = .up →
        (m.tag ≠ zeroTag → (leAt m.body 0 4 = 0 → exec (.attachPhase0 m) s = .next (s.closeSession conn)) ∧
          ∀ sigOk decapOk, leAt m.body 0 4 = 1 → exec (.attachPhase1 m sigOk decapOk) s = .next (s.closeSession conn)) ∧
        (m.tag = zeroTag → k.phase = .listen → m.body.length = 80 → leAt m.body 0 4 = 0 → ∀ rights, s.attachRights (leAt m.body 4 4) (bytesAt m.body 48 32) = some rights →
          exec (.attachPhase0 m) s = .next ((s.useFree.modSession conn (fun k => { k with
            phase := .challenged, since := s.now, key := leAt m.body 4 4, rights := rights, firstReport := leAt m.body 8 8
            t1 := attachT1 m.body s.free, stamp := s.free })).sendPlain conn 0x02 0 0 (challengeBody (attachT1 m.body s.free) s.free))) ∧
        (m.tag = zeroTag → k.phase = .challenged → m.body.length = 8960 → leAt m.body 0 4 = 1 → leAt m.body 4 12 = 0 →
          let ct := bytesAt m.body 16 1088
          let keys := sessionKeys (Config.kemSecret k.stamp ct) (sha256 (k.t1 ++ ct))
          let u := ((s.modSession conn (fun k => { k with
            phase := .attached, since := s.now, keys := keys, rxSeq := 1, txSeq := 1, lease := s.now })).noteOrphan).reply conn (msgSeq m) 0xFF 0 []
          exec (.attachPhase1 m true true) s = .next (if bitAt k.rights 0 then u.replayReports conn k.firstReport else u))) ∧
    (∀ t, s.com.mgmt.orphanSince = some t → s.orphaned = true → s.com.boot.setting 159 128 ≠ 0 → s.com.boot.scheduler = .up →
      exec .orphanGraceExpiry s = .next (s.reach (t + s.com.boot.setting 159 128 * second)).orphanStops)

/-! The fabric. -/

/-- How the link layer takes a flit of any sequenced row, an IDLE or a REPLAY (R219, R223, R224, R233, R251): a wrong CRC or number asks for a
replay, once until the expected flit arrives, and drops the flit, the copy that is leaving cut-through stomped; a stomped one asks for nothing; the
trailer of every flit with a right CRC is taken; on a port or lane out of use nothing changes. -/
def Obligations.FlitsAreReceived : Prop :=
  ∀ (s : State) (f : FlitRx) (i : Instr), i ∈ flitRows f → f.bytes.length = 280 →
    let crc := leAt f.bytes 276 4
    let want := crc32 (f.bytes.take 276)
    let v := if (s.port f.port).rx.dropping then s else s.stompCopy f.port f.bytes
    (crc ≠ want → exec i s = .next (if (s.port f.port).retired ∨ (s.port f.port).lanes[f.lane].up = false ∨
        (s.port f.port).lanes[f.lane].retired ∨ (s.port f.port).lanes[f.lane].lock = false then s
      else if crc + want = 2 ^ 32 - 1 then v else v.askReplay f.port)) ∧
    (FlitSeen s f → crcGood f.bytes = true → hdrType (leAt f.bytes 0 16) = 1 →
      exec (.idle f) s = .next ((s.trailerTaken f).pump f.port)) ∧
    (FlitSeen s f → crcGood f.bytes = true → hdrType (leAt f.bytes 0 16) = 2 → ∀ n,
      (((s.trailerTaken f).pump f.port).port f.port).tx.replay.findIdx? (fun e => e.seq == leAt (bytesAt f.bytes 16 256) 0 2 % 4096) = some n →
      exec (.replay f) s = .next (((s.trailerTaken f).pump f.port).replayFrom f.port n)) ∧
    (∀ hi p, FlitSeen s f → crcGood f.bytes = true → hdrType (leAt f.bytes 0 16) = 4 → PortRuns s f.port hi p → i = .ack f →
      fld (leAt f.bytes 272 8) 11 0 ≠ (s.port f.port).rx.expect → exec i s = .next ((s.trailerTaken f).askReplay f.port))

/-- DATA, ACK and HELLO (R218, R229, R232, R233, R238, R243): a flit the link layer accepts is taken in by the heat that runs on its port, an ACK
for another module passed on, and anything for a heat without its START held with its credit; a block of one flit for this module, whose frame
decodes, waits to land with the bytes it carried. -/
def Obligations.RoutedFlitsAreTakenIn : Prop :=
  ∀ (s : State) (f : FlitRx) (hdr : Nat) (pay : Bytes) (hi : Fin 4) (p : Program), FlitTaken s f hdr pay →
    let u := s.flitTaken f
    let n := (s.port f.port).rx.expect
    let own := hdrDest hdr = (s.heat hi).ownId
    (PortRuns s f.port hi p →
      (hdrType hdr = 0 → exec (.dataFlit f) s = .next ((u.dataIn hi f.port p hdr pay n).pump f.port)) ∧
      (hdrType hdr = 4 → own → exec (.ack f) s = .next (((u.freeBuffer f.port hdr).ackIn hi hdr pay).pump f.port)) ∧
      (hdrType hdr = 4 → ¬ own → exec (.ack f) s = .next ((u.passOn hi f.port p hdr pay).pump f.port)) ∧
      (hdrType hdr = 3 → leAt pay 0 1 = 1 → exec (.hello f) s = .next ((u.helloIn hi f.port p hdr pay).pump f.port)) ∧
      (hdrType hdr = 0 → own → bitAt hdr 5 = true → bitAt hdr 6 = true → ∀ raw coding,
        decodeFramed (s.port f.port).rx.tables.toList (pay.take (hdrLen hdr)) = .ok (raw, coding) →
        ((u.dataIn hi f.port p hdr pay n).heat hi).ejected = (s.heat hi).ejected ++ [⟨f.port.val, hdrSrc hdr, fld hdr 56 45, bitAt hdr 59,
          fld hdr 88 88, hdrEpoch hdr, hdrOff hdr, raw⟩])) ∧
    (s.heatOfPort f.port = none → (i : Instr) → (hdrType hdr, i) ∈ [(0, .dataFlit f), (4, .ack f)] →
      exec i s = .next ((u.holdFlit f.port hdr pay n).pump f.port))

/-- LINK_CTL (R220, R226, R245, R248 to R250): each message the link layer accepts leaves the buffer and has its effect on the port; a block that a
BLOCK_NACK names goes again RAW; every lane that a LANE_RETIRE or LANE_ACK leaves out retires here too, trained or not. -/
def Obligations.LinkMessagesAct : Prop :=
  ∀ (s : State) (f : FlitRx) (hdr : Nat) (pay : Bytes), FlitTaken s f hdr pay → hdrType hdr = 3 →
    let p := f.port
    let u := (s.flitTaken f).freeBuffer p hdr
    let lens := (List.range 256).map (fun v => if v % 2 = 0 then fld (leAt pay (16 + v / 2) 1) 3 0 else fld (leAt pay (16 + v / 2) 1) 7 4)
    let fewer := u.keepLanes p (leAt pay 1 1)
    (leAt pay 0 1 = 2 → leAt pay 1 1 < 4 → exec (.table f) s = .next ((u.modPort p (fun k => { k with rx := { k.rx with
      pend := k.rx.pend ++ [(leAt pay 1 1, ⟨leAt pay 2 1, lens⟩)] } })).pump p)) ∧
    (leAt pay 0 1 = 3 → (u.port p).tx.tableOut = some (leAt pay 1 1) →
      exec (.tableAck f) s = .next ((u.modPort p (fun k => { k with tx := { k.tx with
        tableOut := none
        tables := k.tx.tables.setIfInBounds (leAt pay 1 1) ((k.tx.tables.toList.getD (leAt pay 1 1) none).map (fun t => (t.1, true))) } })).pump p)) ∧
    (leAt pay 0 1 = 4 → ∀ r, (s.port p).tx.raws.find? (fun r => r.sub == leAt pay 1 1 && r.first == some (leAt pay 2 2 % 4096)) = some r →
      let v := u.modPort p (fun k => { k with tx := { k.tx with
        q := k.tx.q.map (fun fs => fs.filter (fun f => f.blk != some r.id)), raws := k.tx.raws.filter (fun x => x.id != r.id) } })
      let w := if 2 ≤ r.fails.length then v.bump 3 p.val 7
        else v.queueBlock p r.hdr r.raw r.check (r.fails ++ [r.sub]) (plainBlock r.raw r.check, none)
      exec (.blockNack f) s = .next ((if 2 ≤ (r.fails.filter (· == r.sub)).length then w.declareSub p r.sub else w).pump p)) ∧
    (leAt pay 0 1 = 5 → exec (.laneRetire f) s = .next ((if (fewer.port p).retired then fewer
      else fewer.linkCtl p [6, BitVec.ofNat 8 (fewer.port p).keptMask]).pump p)) ∧
    (leAt pay 0 1 = 6 → exec (.laneAck f) s = .next (fewer.pump p)) ∧
    (∀ l : Fin 8, bitAt (leAt pay 1 1) l.val = false → s.clockLost = false →
      (fewer.port p).lanes[l].retired = true) ∧
    (leAt pay 0 1 = 7 → exec (.subRetire f) s = .next (((u.linkCtl p ([8, 0] ++ bytesAt pay 2 2)).dropSubs p (leAt pay 2 2)).pump p)) ∧
    (leAt pay 0 1 = 8 → exec (.subAck f) s = .next ((u.dropSubs p (leAt pay 2 2)).pump p))

/-- Lanes and links (R215 to R217, R224, R226, R227, R248): a lane that trains joins the mask, and the link comes up with its first; a lane frame
counts what the FEC made of its codewords, and with a right header counts toward lock, which the third in succession gives, with a bad one away from
it; a table is installed once no coded block of its generation is under assembly; a replay time-out resends from the oldest flit; a link down for a
second retires its port. -/
def Obligations.LanesAndLinksAct : Prop :=
  ∀ (s : State) (p : Fin 32) (lane : Fin 8), (s.port p).retired = false →
    let k := s.port p
    let l := k.lanes[lane]
    let counted := s.bump 4 (8 * p.val + lane.val) 3
    let joined := counted.modPort p (fun k =>
      { (k.modLane lane.val (fun x => { x with
          up := true, attempts := 0, lock := false, good := 0, bad := 0, count := none, retrain := false })) with
        tx := { k.tx.endFrame with mask := if bitAt k.tx.mask lane.val then k.tx.mask else k.tx.mask + 2 ^ lane.val } })
    (l.retired = false → l.up = false → s.com.boot.flashRead = true →
      exec (.laneTraining p lane true) s = .next ((if k.anyLane then joined else joined.linkUp p).pump p) ∧
      exec (.laneTraining p lane false) s = .next (counted.failTraining p lane.val)) ∧
    (∀ (h : Bytes) (fec : Vector (Option (Fin 16)) 16), h.length = 200 → l.retired = false → l.up = true →
      let c := s.countFec p lane fec
      let wrong := leAt h 64 1 ≠ lane.val ∨ k.lanes.toList.any (fun o => o.up && o.count == some (leAt h 68 4) && o.mask != leAt h 66 1) = true
      (frameGood h = true → wrong → exec (.laneFrame p lane h fec) s = .next (c.failTraining p lane.val)) ∧
      (frameGood h = true → ¬ wrong → ∃ t, exec (.laneFrame p lane h fec) s = .next t ∧ t = c.setPort p (t.port p) ∧
        (t.port p).lanes = k.lanes.set lane { l with
          good := min 3 (l.good + 1), bad := 0, lock := l.lock || 2 ≤ l.good, count := some (leAt h 68 4), mask := leAt h 66 1 } ∧ t.port p = { k with lanes := (t.port p).lanes }) ∧
      (frameGood h = false → let drops := l.lock && 2 ≤ l.bad
        exec (.laneFrame p lane h fec) s = .next ((c.setPort p { k with
          lanes := k.lanes.set lane { l with good := 0, bad := min 3 (l.bad + 1), lock := l.lock && !drops, up := !drops } }).checkLink p))) ∧
    (∀ g t rest, k.rx.pend = (g, t) :: rest → (∀ a ∈ k.rx.asm, fld (leAt a.bytes 0 8) 1 0 = 1 ∨ fld (leAt a.bytes 0 8) 1 0 = 2 →
        fld (leAt a.bytes 0 8) 3 2 ≠ g) →
      exec (.tableInstall p) s = .next ((s.setPort p { k with rx := { k.rx with
        pend := rest, tables := k.rx.tables.setIfInBounds g (some t) } }).linkCtl p [3, BitVec.ofNat 8 g])) ∧
    (k.tx.replay ≠ [] → k.canSend = true →
      exec (.replayTimeout p) s = .next ((s.reach (k.tx.ackAt + 2 * micro)).replayFrom p 0)) ∧
    (∀ t, k.downSince = some t → k.anyLane = false → exec (.portRetrainTimeout p) s = .next ((s.reach (t + second)).retirePort p))

/-- Landing and its acknowledgement (R28, R238, R239): the oldest decoded block, where the cluster it lands in accepts transfers, is checked in
order (epoch, tag, extent, memory), written where it passes, and acknowledged with its status; an ACK leaves 64 stages after its first entry. -/
def Obligations.BlocksLand : Prop :=
  ∀ (s : State) (h : Fin 4) (p : Program) (b : Ejected) (rest : List Ejected) (tagFail : Bool), (s.heat h).image = some p →
    (s.heat h).ejected = b :: rest → s.landReach h p b = true →
    let u := s.modHeat h (fun t => { t with ejected := rest })
    let units := b.bytes.length / 32
    let status : Nat := if 2 ≤ (b.epoch + 4 - (s.heat h).epoch) % 4 then eLate
      else if b.baton = false ∧ p.tagValid b.tag = false then eDesc
      else if (if b.baton then halfBytes p < 32 * (b.off + units) else p.tagUnits b.tag < b.off + units) then eLimit
      else if tagFail then eCheck else 0
    let e := b.tag + b.epoch * 2 ^ 12 + status * 2 ^ 14 + b.off * 2 ^ 22 + (units - 1) * 2 ^ 44
    let v := if status ≠ 0 then u else if b.baton then u.landBaton h p b else u.landData h p b
    exec (.landingWrite h tagFail) s = .next ((if status = eLate ∧ b.port < 32 then v.bump 3 b.port 11 else v).pushAck h b.src e) ∧
    ∀ dest g, (s.heat h).acks.find? (fun g => g.dest == dest) = some g →
      exec (.ackFlush h dest) s = .next ((s.reach (g.since + 400)).flushAck h dest)

/-! Hurdles. -/

/-- Hurdle messages at their destination (R262 to R265, R267, R269, R337, R346, R400): each, taken in by a heat that runs, has its effect for the
pending count; a DECIDE goes to the children at once, and waits here while an earlier one is not carried out; one of an earlier count is discarded
and counted. -/
def Obligations.HurdleMessagesAct : Prop :=
  ∀ (s : State) (f : FlitRx) (hdr : Nat) (pay : Bytes) (hi : Fin 4) (p : Program), FlitTaken s f hdr pay → PortRuns s f.port hi p →
    hdrType hdr = 5 → hdrDest hdr = (s.heat hi).ownId →
    let m := parseHMsg pay
    let hu := (s.heat hi).hu
    let u := (s.flitTaken f).freeBuffer f.port hdr
    let forward := hu.children.foldl (fun s c => s.sendHurdle hi c.id m) u
    let decided := m.count = hu.count ∧ hu.deferred = [] ∧ s.decideWaits hi = false
    (m.msg = 1 → m.count = hu.count → ∀ c, hu.child m.origin = some c → c.joined = none →
      exec (.join f) s = .next (((u.modHu hi (fun x => x.modChild m.origin (fun c => { c with
        joined := some (if m.digest ≠ leNat (p.digest.take 8) then 0x0A else m.reason), mods := m.arrived }))).tryJoin hi).pump f.port)) ∧
    (m.msg = 2 → hu.count ≤ m.count → exec (.arrive f) s = .next (((u.modHu hi (fun x => x.modChild m.origin (fun c => { c with
      arrived := some m.count, mods := m.arrived }))).progress hi).pump f.port)) ∧
    (m.msg = 3 → hu.count ≤ m.count → exec (.hold f) s = .next (((u.modHu hi (fun x => x.modChild m.origin (fun c => { c with
      held := m.held, heldAt := m.count }))).refreshHeld hi).pump f.port)) ∧
    (m.msg = 4 → (s.heat hi).isRoot = true →
      exec (.request f) s = .next ((u.rootRequest hi ⟨m.count, m.reason, m.status, m.origin⟩).pump f.port)) ∧
    (m.msg = 5 → m.decision = 0 → decided → exec (.decideGo f) s = .next ((forward.actGo hi p m).pump f.port)) ∧
    (m.msg = 5 → m.decision = 1 → decided → exec (.decideFalseStart f) s = .next ((forward.actFalseStart hi p m).pump f.port)) ∧
    (m.msg = 5 → m.decision = 2 → decided → exec (.decideStop f) s = .next ((forward.stopJob hi m.status m.reason).pump f.port)) ∧
    (m.msg = 6 → exec (.feedQuery f) s = .next ((u.sendHurdle hi m.origin { (u.heat hi).message 7 with count := 0, feed := s.feedId }).pump f.port)) ∧
    (m.msg = 7 → hu.count = 0 → hu.feed = none → m.origin = p.partner (s.heat hi).ownId →
      exec (.feedReply f) s = .next (((u.modHu hi (fun x => { x with
        feed := some (if m.feed = s.feedId ∧ p.forceSameFeed = false then 9 else 0) })).tryJoin hi).pump f.port)) ∧
    (∀ i : Instr, (m.decision, i) ∈ [(0, Instr.decideGo f), (1, .decideFalseStart f), (2, .decideStop f)] → m.msg = 5 →
      m.count = hu.count + hu.deferred.length → s.decideWaits hi = true → exec i s = .next ((forward.modHu hi (fun x => { x with
        deferred := x.deferred ++ [m.bytes] })).pump f.port)) ∧
    (∀ i : Instr, (m.msg, i) ∈ [(1, Instr.join f), (2, .arrive f), (3, .hold f)] → m.count < hu.count →
      exec i s = .next ((u.bump 8 hi.val 18).pump f.port))

/-- The timers of a hurdle (R259, R264, R265, R267, R268, R418): the module arrives once its clusters and blocks have; the root decides when the
window has passed and nothing is held; a join that is late stops the job; no DECIDE within twice the window, and a subtree held too long, is a
hang. -/
def Obligations.HurdleTimersAct : Prop :=
  ∀ (s : State) (h : Fin 4), (s.heat h).phase = .running →
    let t := s.heat h
    let u := t.hu
    (t.live = true → u.count ≠ 0 → u.arrived = false → s.decideWaits h = false → s.allArrived h = true →
      exec (.arrival h) s = .next ((s.modHu h (fun u => { u with arrived := true })).progress h)) ∧
    (t.isRoot = true → u.count ≠ 0 → u.heldSince = none → u.deferred = [] →
      exec (.windowExpiry h) s = .next (State.rootRun h (u.reqs.length + 2) ((s.reach (u.decideAt + u.heldTime + u.windowMs * milli)).rootDecide h
        (if (t.job.map Job.fsLimit).getD 0 ≤ u.falseStarts then (2, 0x0B, eLate) else (1, 1, eLate))))) ∧
    (t.isRoot = true → u.count = 0 → u.deferred = [] →
      exec (.joinLate h) s = .next ((s.reach (u.decideAt + (t.job.map Job.firstS).getD 0 * second)).rootDecide h (2, 0x0C, eLate))) ∧
    (∀ a, u.arriveAt = some a → u.hung = false → u.deferred = [] →
      exec (.decideTimeout h) s = .next (((s.reach (a + 2 * u.decideMs * milli)).modHu h (fun u => { u with hung := true })).declareHang h
        .noDecide)) ∧
    (∀ a, u.heldSince = some a →
      exec (.heldTooLong h) s = .next (((s.reach (a + (u.heldHangs + 1) * max (600 * second) (16 * u.windowMs * milli))).modHu h
        (fun x => { x with heldHangs := u.heldHangs + 1 })).declareHang h .held))

/-- GO ends a step (R239, R264): the count and the step advance by one, or at the start hurdle the count alone; the arrivals of the ending parity
are cleared and no other; nothing else of the heat's memory, queues or image changes. -/
def Obligations.GoAdvances : Prop :=
  ∀ (s : State) (hi : Fin 4) (w : Nat),
    let h := s.heat hi
    let t := s.advanceGo hi w
    let k := t.heat hi
    k.hu.count = h.hu.count + 1 ∧ k.hu.step = (if h.hu.count = 0 then h.hu.step else h.hu.step + 1) ∧
    k.hu.lastGo = (if h.hu.count = 0 then h.hu.lastGo else some h.hu.step) ∧ k.hu.windowMs = w ∧ k.hu.falseStarts = 0 ∧ k.hu.arrived = false ∧
    k.arrivals = h.arrivals.filter (fun a => a.1 / 4096 % 2 != h.hu.count % 2) ∧ k = { h with arrivals := k.arrivals, hu := k.hu } ∧
    (∀ j, j ≠ hi → t.heat j = s.heat j) ∧ t.clusters = s.clusters ∧ t.ports = s.ports ∧ t.now = s.now

/-- FALSE_START (R258, R269, R335): every cluster of the heat that is not retired has empty queues, no error, and its control core back at its
snapshot, or, where a fold takes effect, at address 0 with registers zero, which is its snapshot from then on; the count advances, the step does
not; no arrival of the ending parity and no unacknowledged block of the ending epoch is left. -/
def Obligations.FalseStartRestores : Prop :=
  ∀ (s : State) (hi : Fin 4) (p : Program) (m : HMsg),
    let t := s.actFalseStart hi p m
    (t.heat hi).hu.count = (s.heat hi).hu.count + 1 ∧ (t.heat hi).hu.step = (s.heat hi).hu.step ∧
    (t.heat hi).hu.falseStarts = (s.heat hi).hu.falseStarts + 1 ∧ (t.heat hi).hu.arrived = false ∧
    (∀ a ∈ (t.heat hi).arrivals, a.1 / 4096 % 2 ≠ (s.heat hi).hu.count % 2) ∧
    (∀ b ∈ (t.heat hi).sent, b.epoch ≠ (s.heat hi).hu.count % 4) ∧
    ∀ c ∈ (s.heat hi).clusterList, (s.cl c).retired = false → (t.cl c).queues = Vector.replicate 4 [] ∧ (t.cl c).halted = none ∧
      (t.cl c).dmem = ((s.cl c).core.snap.map Snapshot.dmem).getD [] ∧ (t.cl c).core.issued = [] ∧ (t.cl c).core.sums = [] ∧
      (t.cl c).core.encs = [] ∧ (s.dueFolds (s.heat hi) = [] → ∀ n, (s.cl c).core.snap = some n →
        (t.cl c).core.pc = n.pc ∧ (t.cl c).core.regs = n.regs) ∧
      ∀ f ∈ s.dueFolds (s.heat hi), (s.heat hi).clusterList[f.2]? = some c → (t.cl c).core.pc = 0 ∧
        (t.cl c).core.regs = Vector.replicate 32 0 ∧
        ∀ n, (s.cl c).core.snap = some n → (t.cl c).core.snap = some { n with pc := 0, regs := Vector.replicate 32 0 }

/-! Numbers. -/

/-- Every code of every floating-point format, read and written again, directly or through FP32, is itself, and a NaN its canonical NaN (R63, R64,
R75); an operation on a NaN gives the canonical NaN (R64); x − x is +0 and −0 plus −0 is −0 (R65); a master that is not a NaN is rebuilt from its
high half and its low bits (R78). -/
def Obligations.NumbersKeepTheirFormats : Prop :=
  (∀ f ∈ [fp32, bf16, fp16, e4m3, e5m2, e3m2, e2m3, e2m1], ∀ code, code < 2 ^ f.width →
    let same := if (f.dec code).isNan then f.nanCode else code
    f.enc (f.dec code) = same ∧ f.enc (v32 (r32 (f.dec code))) = same) ∧
  (∀ a b : Word, (v32 a).isNan = true ∨ (v32 b).isNan = true →
    add32 a b = 0x7FC00000 ∧ sub32 a b = 0x7FC00000 ∧ mul32 a b = 0x7FC00000 ∧ div32 a b = 0x7FC00000 ∧
    r32 ((v32 a).max2 (v32 b)) = 0x7FC00000 ∧ r32 ((v32 a).min2 (v32 b)) = 0x7FC00000) ∧
  (∀ a : Word, (v32 a).isFin = true → sub32 a a = 0) ∧ add32 0x80000000 0x80000000 = 0x80000000 ∧
  ∀ w : Word, ((v32 w).isNan = true → highHalf w = 0x7FC0) ∧ ((v32 w).isNan = false → highHalf w ++ w.extractLsb' 0 16 = w)

/-- Rounding (R63, R74, R75): within a format's range the code written for an exact value is nearer to it than any other finite code, and at a tie
it is the even one; beyond the range the value becomes infinite or saturates. -/
def Obligations.ConversionsRoundToNearest : Prop :=
  ∀ f ∈ [fp32, bf16, fp16, e4m3, e5m2, e3m2, e2m3, e2m1], ∀ (m : Nat) (e : Int),
    let c := f.magCode m e
    let val := fun (k : Nat) => match f.dec k with
      | .fin _ n g => (n : ℚ) * 2 ^ g
      | _ => 0
    let x := (m : ℚ) * 2 ^ e
    let sign := 2 ^ (f.eb + f.mb)
    (c ≤ f.maxCode → f.enc (.fin false m e) = c ∧ f.enc (.fin true m e) = sign + c ∧
      ∀ k, k ≤ f.maxCode → k ≠ c → |val c - x| < |val k - x| ∨ (|val c - x| = |val k - x| ∧ c % 2 = 0)) ∧
    (f.maxCode < c →
      let most := if f = fp32 then 0x7F800000 else if f = bf16 then 0x7F80 else if f = fp16 then 0x7C00 else f.maxCode
      f.enc (.fin false m e) = most ∧ f.enc (.fin true m e) = sign + most)

/-! Canonical order and the memory system. -/

/-- The segment stack of the matrix array (R98): over any number of segments, an empty one among them, the stack and its flush give the canonical
tree of R55. -/
def Obligations.SegmentStackIsTree : Prop :=
  ∀ (α : Type) (f : α → α → α) (xs : List (Option α)), xs.length < 2 ^ 64 → segStack f xs = canonTree f xs

/-- The reduction of the vector engine (R144, R58): leaves of 256 by their own trees, joined through the leaf stack, give the canonical tree of R55
over the whole set. -/
def Obligations.ReduceSetIsTree : Prop :=
  ∀ (α : Type) (f : α → α → α) (xs : List (Option α)), xs.length ≤ 2 ^ 32 → reduceSet f xs = canonTree f xs

/-- The controller code (R195): whatever two of a granule's 36 stored bytes have become, decoding at its address gives back the bytes stored, and
calls the word clean exactly where none has changed. -/
def Obligations.TwoByteErrorsAreCorrected : Prop :=
  ∀ (position channel subch goff : Nat) (data : Bytes) (i j : Fin 36) (a b : Byte), data.length = 32 → goff < 2 ^ 40 →
    let addr := rsAddr position channel subch goff
    let word := data ++ rsEncode addr data
    let got := (word.set i.val a).set j.val b
    rsDecode addr got = if got = word then .clean else .corrected word

/-- Reading a granule (R196): the results of its reads decide the data returned, the re-reads, the retries charged and the rewrite; the channel is
charged them, the data is the granule's from then on, three uncorrectable re-reads end the reading command, and a channel beyond its limits
retires. -/
def Obligations.ReadsAreDecoded : Prop :=
  ∀ (s : State) (hi : Fin 4) (granule : Nat) (reads : List GranuleRead) (reader : Option (Fin 64 × Fin 4)) (ch : Fin 96) (off : Nat)
    (rs : List ReadResult) (p : ReadPlan), reads ≠ [] →
    (∀ r ∈ reads, r.wf = true ∧ readForm (s.com.boot.order == 3) r = true) → (s.heat hi).phase ≠ .free →
    32 * granule < s.capacity (s.heat hi) → s.placeOf (s.heat hi) (granule / 8) = (ch.val, off) →
    rs = reads.map (decodeRead (s.com.boot.order == 3) (s.codeAddr ch.val off (granule % 8))) → planRead rs = some p →
    let key := 8 * off + granule % 8
    let u := s.chargeChan ch key p
    let v := match p.data with
      | some d => u.modHeat hi (fun h => { h with
          mem := h.mem.put (32 * granule) d
          poison := if p.rewrite then h.poison.filter (· != granule) else h.poison })
      | none => u.failReader hi reader
    exec (.memReadDecode hi granule reads reader) s = .next (if v.chanFaulty ch key p then v.retireChan ch else v) ∧
    (p.data = none ↔ rs.take 4 = [.bad, .bad, .bad, .bad]) ∧ (p.data = none → p.retries = 3 ∧ v.chanFaulty ch key p = true) ∧
    (∀ d, rs.head? = some (.clean d) → p = ⟨some d, false, [.clean d], 0, 0⟩) ∧
    (∀ d e l, rs = .corrected d :: .clean e :: l → p = ⟨some e, false, [.corrected d, .clean e], 1, 0⟩) ∧
    (∀ d r t l, rs = .corrected d :: r :: t :: l → (∀ e, r ≠ .clean e) → p.data = some d ∧ p.rewrite = true ∧
      (p.failed = 0 ↔ ∃ e, t = .clean e) ∧ p.retries = 1 + p.failed) ∧
    (∀ l, rs = .bad :: l → p.rewrite = false ∧ p.failed = 0)

/-- The memory system's own events (R188, R190, R194, R198, R203, R204): the poll of the devices' counts, tracking and refresh, which change time
only, training, which a channel passes or after three failures retires, the regulators' tokens, and the migration of one line, from its home slice
where it is dirty there; no two granules of a heat have one place in its devices. -/
def Obligations.MemoryEventsAct : Prop :=
  ∀ (s : State) (ch : Fin 96),
    (∀ counts : List Nat, s.com.pw.good = true → ∃ t, exec (.eccCountPoll counts) s = .next t ∧ t.now = max s.now (s.com.eccAt + second) ∧
      (∀ k : Fin 96, t.com.chans[k] = { s.com.chans[k] with
        onDie := if (s.com.chans[k]).up then counts.getD k.val (s.com.chans[k]).onDie else (s.com.chans[k]).onDie }) ∧
      t.com = { s.com with eccAt := t.now, chans := t.com.chans, ctrs := t.com.ctrs, store := t.com.store } ∧
      t.heats = s.heats ∧ t.clusters = s.clusters ∧ t.ports = s.ports ∧ t.pending = s.pending ∧ t.free = s.free ∧ t.out = s.out) ∧
    (s.com.pw.good = true → ∃ t, exec .dqsTracking s = .next t ∧ t.now = max s.now (s.com.dqsAt + 64 * milli) ∧
      t.com = { s.com with dqsAt := t.now, store := t.com.store } ∧ t.heats = s.heats ∧ t.clusters = s.clusters ∧ t.ports = s.ports ∧
      t.pending = s.pending ∧ t.free = s.free ∧ t.out = s.out) ∧
    (∀ bank, exec (.perBankRefresh ch bank) s = .next s) ∧
    (s.com.boot.flashRead = true → s.com.boot.state ≠ .recovery → s.com.boot.state ≠ .halted → (s.com.chans[ch]).up = false →
      (s.com.chans[ch]).retired = false → ch.val < 12 * s.positionChans →
      let k := s.com.chans[ch]
      let u := s.modChan ch (fun k => { k with attempts := k.attempts + 1 })
      exec (.memTraining ch true) s = .next (s.modChan ch (fun k => { k with up := true, attempts := 0 })) ∧
      exec (.memTraining ch false) s = .next (if k.attempts < 2 then u else u.retireChan ch)) ∧
    (∀ (hi : Fin 4) (first : Fin 96) (repair waiting : Bool) (granules : Nat), s.heatOfPos (ch.val / s.positionChans) = some hi →
      first.val = ch.val / s.positionChans * s.positionChans →
      let a := (s.heat hi).adm
      let k := s.com.chans[first]
      let old := if repair then k.repair else k.service
      let tokens := min (bucketDepth (if repair then fld a 77 75 else fld a 74 72))
        (old.1 + (s.now - old.2) * (s.payloadRate * (if repair then fld a 70 64 else fld a 62 56)))
      let cost := 32 * granules * 30000
      let left := (if cost ≤ tokens then tokens - cost else if bitAt a 55 = true ∧ waiting = false then 0 else tokens, s.now)
      exec (.serviceAdmit ch repair waiting granules) s = .next (s.modChan first (fun k =>
        if repair then { k with repair := left } else { k with service := left }))) ∧
    (∀ (hi : Fin 4) (t : Stage) (unreadable : List Nat), s.heatOfPos (ch.val / s.positionChans) = some hi → (s.com.chans[ch]).moving = true →
      let h := s.heat hi
      let k := s.com.chans[ch]
      let before := (s.heatStages h).takeWhile (fun t => t.c != s.chanName h ch.val)
      (s.heatStages h)[before.length]? = some t →
      let line := heldLine h.positionList.length s.chanLog before.reverse (t.c, k.pointer)
      let place := homeOf h.positionList.length s.chanLog (freeLine h.positionList.length s.chanLog t.dead t.from_ k.pointer)
      let dirty := s.cached hi line = 2
      let u := (s.chanReads ch.val (if dirty then 0 else 8)).bump 2 (s.chanNumber h (place.1, place.2.1)) 1 8
      let v := if dirty then u.setCached hi line 1 else if (∃ g ∈ List.range 8, g ∈ unreadable) then u.modHeat hi (fun h => { h with
        poison := h.poison ++ ((List.range 8).map (fun i => 8 * line + i)).filter (fun g => !h.poison.contains g) }) else u
      exec (.migrationLine ch unreadable) s = .next (if k.pointer + 1 < t.count
        then v.modChan ch (fun k => { k with pointer := k.pointer + 1, moving := true })
        else (v.modChan ch (fun k => { k with pointer := k.pointer + 1, moving := false, up := false })).migrationReport hi ch)) ∧
    (∀ positions w x y, 0 < positions → (w = 2 ∨ w = 3) → devicePlace positions w x = devicePlace positions w y → x / 32 = y / 32)

/-! The sample pipeline and the media engines. -/

/-- Fetching (R275, R279 to R284): a running heat's pipeline fetches what it has room for; an answer to the oldest read of a queue pair takes it off
the pair and goes to its sample, a remote access error holds it, a frame whose ICRC or Ethernet FEC fails is charged to the port alone, whether or
not a read is outstanding; a record that has landed goes to decode, is fetched again where its check fails, and is rejected at the third failure or
where it is malformed. -/
def Obligations.SamplesAreFetched : Prop :=
  ∀ (s : State) (hi : Fin 4) (p : Program), (s.heat hi).phase = .running → (s.heat hi).image = some p →
    (s.frozenHeat hi = false →
      exec (.sampleFetch hi) s = .next ((((s.settleReads hi p).startRecord hi p).startEntry hi p).settleSamples hi p)) ∧
    (∀ (fp : Fin 2) (server : Fin 64) (data : Bytes) (nak : Bool), (s.com.feed[fp]).up = true →
      ((s.heat hi).qp fp.val server.val).oldest = none →
      exec (.rdmaReadResponse hi fp server data nak (some .icrc)) s = .next ((s.bump 5 fp.val 4).chargeFeed fp false) ∧
      exec (.rdmaReadResponse hi fp server data nak (some .fec)) s = .next (s.chargeFeed fp false)) ∧
    (∀ (fp : Fin 2) (server : Fin 64) (data : Bytes) (nak : Bool) (n : Nat) (r : Read), (s.com.feed[fp]).up = true →
      let q := (s.heat hi).qp fp.val server.val
      q.oldest = some (n, r) →
      let i := Instr.rdmaReadResponse hi fp server data nak
      let lost := fun (s : State) => s.putQp hi { q with reads := q.reads.set n { r with lost := r.lost + 1 } }
      let held := (s.putQp hi { q with reads := q.reads.set n { r with sentAt := none, nakAt := some s.now } }).bump 5 fp.val 7
      let taken := State.pumpQp hi p fp.val server.val 16 ((s.putQp hi { q with reads := q.reads.eraseIdx n }).bump 5 fp.val 0 data.length)
      exec (i (some .icrc)) s = .next ((lost (s.bump 5 fp.val 4)).chargeFeed fp (2 ≤ r.lost)) ∧
      exec (i (some .fec)) s = .next ((lost s).chargeFeed fp (2 ≤ r.lost)) ∧
      (nak = true → exec (i none) s = .next (State.pumpQp hi p fp.val server.val 16 held)) ∧
      (nak = false → data.length = r.len →
        (∀ k, r.what = .entry k → exec (i none) s = .next ((taken.onEntry hi p k data).afterPart hi p)) ∧
        (∀ k off, r.what = .record k off → exec (i none) s = .next (taken.onRecord hi p k off data)))) ∧
    (∀ (i : Nat) (x : Sample) (off len : Nat), (s.heat hi).sample i = some x → x.phase = .landed → x.record_ = some (off, len) →
      s.frozenHeat hi = false →
      let bs := (s.heat hi).mem.get (p.recordRegion.1 + off) len
      (crc32c bs = fld x.entry 191 160 → ∀ r, parseRecord p (s.heat hi).tok (p.aug (fld x.entry 15 8)) bs = .error r →
        exec (.recordLanded hi i) s = .next ((s.reject hi p i r).afterPart hi p)) ∧
      (crc32c bs = fld x.entry 191 160 → ∀ ps, parseRecord p (s.heat hi).tok (p.aug (fld x.entry 15 8)) bs = .ok ps →
        exec (.recordLanded hi i) s = .next ((s.modSample hi i (fun x => { x with phase := .decoding, parts := ps })).assign hi)) ∧
      (crc32c bs ≠ fld x.entry 191 160 → 2 ≤ x.checkFails →
        exec (.recordLanded hi i) s = .next ((s.reject hi p i 5).afterPart hi p)) ∧
      (crc32c bs ≠ fld x.entry 191 160 → x.checkFails < 2 →
        exec (.recordLanded hi i) s = .next ((s.transient.modSample hi i (fun x => { x with
          phase := .record, checkFails := x.checkFails + 1 })).fetchRecord hi p x)))

/-- Queue pairs (R275, R276): 67 ms without an answer sends a read again, up to seven times, and then the pair fails; a held fetch goes out again
after 1 s; a marked packet is answered with one CNP in 50 µs; a CNP halves the rate down to 1/64, and 100 µs without one raise it by 1/16. -/
def Obligations.QueuePairsKeepTime : Prop :=
  ∀ (s : State) (hi : Fin 4) (p : Program) (fp : Fin 2) (server : Fin 64), (s.heat hi).phase = .running → (s.heat hi).image = some p →
    let q := (s.heat hi).qp fp.val server.val
    (∀ n r t, q.oldest = some (n, r) → r.sentAt = some t →
      let u := s.reach (t + 67 * milli)
      let r := { r with tries := r.tries + 1, sentAt := some u.now }
      (r.tries ≤ 7 → exec (.ackTimeout hi fp server) s = .next (((u.transient.bump 5 fp.val 3).putQp hi { q with reads := q.reads.set n r }).sendRead hi p q r)) ∧
      (7 < r.tries → exec (.ackTimeout hi fp server) s = .next (u.failQp hi p q))) ∧
    (∀ r t, q.reads.find? (fun r => r.nakAt.isSome) = some r → r.nakAt = some t →
      exec (.nakRetry hi fp server) s = .next (State.pumpQp hi p fp.val server.val 16 ((s.reach (t + second)).putQp hi { q with
        reads := q.reads.map (fun x => if x.nakAt = some t then { x with nakAt := none } else x) }))) ∧
    ((∀ t, q.cnpOut = some t → t + 50 * micro ≤ s.now) → exec (.cePacket hi fp server) s =
      .next (((s.putQp hi { q with cnpOut := some s.now }).emit (cnpPacket (s.qpHdr hi p q q.psn))).bump 5 fp.val 5)) ∧
    (∀ t, q.cnpOut = some t → s.now < t + 50 * micro → exec (.cePacket hi fp server) s = .next s) ∧
    exec (.cnpReceived hi fp server) s = .next ((s.putQp hi { q with rate := max 1024 (q.rate / 2), cnpIn := some s.now }).bump 5 fp.val 6) ∧
    (∀ t, q.cnpIn = some t →
      let u := s.reach (t + 100 * micro)
      exec (.rateRecovery hi fp server) s = .next (u.putQp hi { q with
        rate := min 65536 (q.rate + 4096), cnpIn := if q.rate + 4096 < 65536 then some u.now else none }))

/-- A queue pair's rate stays between 1/64 of the port rate and the whole of it, and the other pairs of the heat are as they were, when a CNP comes
and when the rate recovers (R276). -/
def Obligations.RateStaysInRange : Prop :=
  ∀ (s t : State) (hi : Fin 4) (fp : Fin 2) (server : Fin 64) (i : Instr), i ∈ [Instr.cnpReceived hi fp server, .rateRecovery hi fp server] →
    let q := (s.heat hi).qp fp.val server.val
    1024 ≤ q.rate → q.rate ≤ 65536 → exec i s = .next t →
    1024 ≤ ((t.heat hi).qp fp.val server.val).rate ∧ ((t.heat hi).qp fp.val server.val).rate ≤ 65536 ∧
    (∀ port k : Nat, (port, k) ≠ (fp.val, server.val) → (t.heat hi).qp port k = (s.heat hi).qp port k) ∧
    (∀ j, j ≠ hi → t.heat j = s.heat j) ∧ (t.heat hi).mem = (s.heat hi).mem ∧ t.clusters = s.clusters

/-- The feed ports (R274, R275): a request for a port's own address is answered with its MAC while the link is up; a link down for a second retires
its port. -/
def Obligations.FeedPortsAnswer : Prop :=
  ∀ (s : State) (fp : Fin 2),
    (∀ (r : Nat) (target : Bytes), s.com.boot.portRecord fp = some r → (s.com.feed[fp]).up = true →
      (target.length = 4 → fld r 191 64 = 0xFFFF * 2 ^ 32 + beNat target →
        exec (.arpRequest fp target) s = .next (s.emit (.arpReply fp.val target (natBE 6 (fld r 47 0))))) ∧
      (target.length = 16 → fld r 191 64 = beNat target →
        exec (.neighborSolicitation fp target) s = .next (s.emit (.neighbourAdvert fp.val target (natBE 6 (fld r 47 0)))))) ∧
    ((s.com.feed[fp]).retired = false → (s.com.feed[fp]).up = true ∨ (s.com.feed[fp]).downSince.isSome →
      let t := (s.com.feed[fp]).downSince.getD s.now
      exec (.feedPortLinkDown fp) s = .next (((s.modFeed fp (fun k => { k with up := false, downSince := some t })).reach (t + second)).retireFeed fp))

/-- A sample is posted (R265, R286 to R288): its descriptor, without the ready bit, goes to the next slot of the channel's ring in its consumer's
memory, and the channel has one more entry. -/
def Obligations.SamplesArePosted : Prop :=
  ∀ (s : State) (hi : Fin 4) (p : Program), (s.heat hi).phase = .running → (s.heat hi).image = some p →
    let u := s.settleSamples hi p
    (u.heat hi).pipe.posting = true → u.frozenHeat hi = false → ∀ k i, u.nextPost hi = some (k, i) →
    exec (.samplePost hi) s = .next ((u.postSample hi k i).refreshHeld hi) ∧
    ∀ c cl, (u.heat hi).chans[((u.heat hi).chans.filter (fun c => c.def_.prod.isSome)).length + k]? = some c →
      (u.heat hi).clusterList[(u.heat hi).runs c.def_.cons]? = some cl →
      let w := leNat ((u.heat hi).staging.get ((u.heat hi).descOffset i) 256)
      ((u.postSample hi k i).cl cl).store = (u.cl cl).store.put (c.def_.buffer + 256 * (c.posted % c.def_.slots))
        (natLE 256 (if bitAt w 104 then w - 2 ^ 104 else w)) ∧
      ((u.postSample hi k i).heat hi).chans[((u.heat hi).chans.filter (fun c => c.def_.prod.isSome)).length + k]? = some { c with posted := c.posted + 1 }

/-- Media engines (R287, R293, R294, R313 to R318, R327, R328): a survey that is within its limits gives the part the pictures it needs and the pair
its pool, with a fill slot where the start asks for one, one that is not, or corrupt, has its outcome; a picture goes into its slot and the pool
moves on, or waits for a slot; a finished part releases its record's space and charges an earlier error that did not repeat, a refused one is
rejected. -/
def Obligations.MediaEnginesAct : Prop :=
  ∀ (s : State) (hi : Fin 4) (i n : Nat) (p : Program) (q : PartSt) (u : Nat) (x : Sample), s.partOn hi i n = some (p, q, u) →
    (s.heat hi).sample i = some x →
    let t := s.mediaTime u
    (codecVideo q.codec = true → q.survey = none →
      exec (.survey hi i n .corrupt) s = .next (t.partRefused hi p i n q u 3) ∧
      ∀ seqs pics, seqs ≠ [] → (∀ h ∈ seqs, seqCodec h = q.codec) →
        let got := surveyPart q.codec p.claimRatio q.len (p.aug (fld x.entry 15 8)) (draw (s.heat hi).seed i 4 0) seqs pics
        (∀ r, got = .error r → exec (.survey hi i n (.stream seqs pics)) s = .next (t.partRefused hi p i n q u r)) ∧
        ∀ v, got = .ok v → ∀ k : Fin 22, k.val = u →
          let a := t.modMedia k (fun m => { m with
            slots := List.replicate (slotCount v.plan.w v.plan.h v.plan.depth) ⟨false, [], false, none⟩, current := none, residual := some t.free })
          let b := match v.fill with
            | some names => a.fillSlot hi p u v.plan names
            | none => a
          let d := b.useFree.modMedia k (fun m => (m.advance v.plan.todo).1)
          exec (.survey hi i n (.stream seqs pics)) s = .next ((d.modPart hi i n (fun q => { q with survey := some { v.plan with
            todo := v.plan.todo.drop (v.plan.todo.takeWhile (fun x => !x.needed)).length } })).settleSamples hi p)) ∧
    (∀ out : Decoded, out.wf = true →
      let held := if codecVideo q.codec ∨ q.codec = 3 then s.readSlots hi p i n u q else s
      let q' := ((held.heat hi).part i n).getD q
      let text := (s.heat hi).mem.get (p.recordRegion.1 + (x.record_.getD (0, 0)).1 + q.off) q.len
      (∀ r, partResult (s.heat hi) p x q' text out = some (.error r) →
        exec (.partDecoded hi i n out) s = .next (s.partRefused hi p i n q u r)) ∧
      (∀ rec bs, partResult (s.heat hi) p x q' text out = some (.ok (rec, bs)) →
        let v := (if u = 22 then s else ((s.bump 6 u 0).bump 6 u 4 (decodedElems q' out)).mediaTime u).chargeFirst q
        exec (.partDecoded hi i n out) s = .next
          ((((v.clearSlots u).modPart hi i n (fun q => { q with phase := .done rec bs, got := [] })).releaseRecord hi i).afterPart hi p))) ∧
    (∀ (pair : Fin 8) (k : Fin 22) (read : List Nat) (v : VideoPlan) (pic : PlanPic) (rest : List PlanPic), u = pair.val → k.val = u →
      q.survey = some v → v.todo = pic :: rest → s.pairPart u = some (hi, i, n) →
      let bytes := slotBytes v.w v.h v.depth
      let r := read.foldl (fun (s : State) j => s.readSlot hi p i n u bytes j) t
      exec (.pictureDecoded pair read none) s = .next (t.bitstreamError hi p i n q u) ∧
      ∀ w : Planes, w.wf = true → pic.w = w.w → pic.h = w.h → pic.depth = w.depth → (pic.form = .grey ↔ w.cb = []) →
        (∀ c, (r.com.media[k]).current = some c →
          let a := r.engineWrite hi (r.slotAddr hi p u c bytes) (planesBytes w)
          let d := a.modMedia k (fun m => { ((m.finish c pic).advance rest).1 with residual := some a.free })
          exec (.pictureDecoded pair read (some w)) s = .next (d.useFree.modPart hi i n (fun q => { q with survey := q.survey.map (fun v =>
            { v with todo := rest.drop (rest.takeWhile (fun x => !x.needed)).length }) }))) ∧
        ((r.com.media[k]).current = none → exec (.pictureDecoded pair read (some w)) s = .next (r.modMedia k MediaUnit.takeSlot)))

/-- The faults of a media unit (R327, R328): after 100 ms without progress, or when an internal check fails, its parts and encode requests start
again elsewhere, each charged with a failure on it; the unit is charged one retry, and retires at the third failure of one part. -/
def Obligations.StalledUnitsStartAgain : Prop :=
  ∀ (s : State) (f : Fin 22) (why : UnitFault),
    let parts := ((List.finRange 4).flatMap (fun hi => (s.heat hi).pipe.samples)).flatMap (fun x => x.parts.filter (fun q => q.phase == .onUnit f.val))
    let runs := fun (r : EncReq) => match r.phase with
      | .running v _ => v == f.val
      | _ => false
    let encs := (s.clusters.toList.flatMap (fun k => k.core.encs)).filter runs
    let thrice := parts.any (fun q => thriceOn f.val (q.fails ++ [f.val])) || encs.any (fun r => thriceOn f.val (r.fails ++ [f.val]))
    let u := (if why = .stuck then s.reach (s.now + 100 * milli) else s).abandonUnit f.val true
    let charged := fun (s : State) => (List.finRange 64).foldl (fun (s : State) c => s.modCl c (fun k => { k with core := { k.core with
      encs := k.core.encs.map (fun r => if runs r then { r with fails := r.fails ++ [f.val] } else r) } })) s
    (s.com.media[f]).retired = false → parts ≠ [] ∨ encs ≠ [] → (∀ v, s.com.store.dumping = some v → ∀ e ∈ v.media, e.1 ≠ f.val) →
    exec (.mediaWatchdog f why) s = .next (((if encs = [] then u else charged u).chargeMedia f thrice).assignAll) ∧
    ∀ hi, ∀ x ∈ (u.heat hi).pipe.samples, ∀ q ∈ x.parts, q.phase ≠ .onUnit f.val

/-! Power, pacing, boot and faults. -/

/-- Power input (R352 to R355): the standby rail follows the input; a rise of PWR_EN begins the rails where the input is in range and neither a
fault nor an unfinished 100 ms holds it, each step brings one rail, the fourth the security and power cores too, and a rail that fails, a fall of
PWR_EN or an input fault turns them off; a brown-out caps and reports, and 100 ms in range power up again. With its rails off the module keeps its
storage, flash, standby rail and alert causes, and no cluster, heat or port keeps anything. -/
def Obligations.RailsFollowInput : Prop :=
  ∀ (s : State) (mv lowMs : Nat),
    let p := s.com.pw
    let on := s.modPw (fun p => { p with pwrEn := true, needCycle := p.railFail != 0 && lowMs < 100 })
    let next := s.modPw (fun p => { p with rail := p.rail + 1 })
    let seen := s.setVin mv
    (p.standby = false → exec .standbyRailRise s = .next (s.modPw (fun p => { p with standby := true, measured := false }))) ∧
    (p.standby = true → exec .standbyRailLoss s =
      .next (s.railsOff.modCom (fun k => { k with pw := { Power.reset with pwrEn := p.pwrEn }, tap := JtagTap.reset }))) ∧
    (p.standby = true → p.pwrEn = false → exec (.pwrEnRise lowMs) s =
      .next (if p.inputFault = false ∧ p.vinBad = none ∧ (p.railFail = 0 ∨ 100 ≤ lowMs) ∧ p.rising = false ∧ p.good = false
        then on.beginRise else on)) ∧
    (p.rising = true → p.rail < 8 → exec .railStep s =
      .next (if p.rail = 3 then next.modBoot (fun b => { b with security := .up, power := .up }) else next)) ∧
    (p.rising = true → p.good = false → exec .railFailure s =
      .next ((s.railsOff.modPw (fun q => { q with railFail := min 8 (p.rail + 1), needCycle := true })).alert 0)) ∧
    (p.pwrEn = true → exec .pwrEnFall s = .next (s.railsOff.modPw (fun p => { p with pwrEn := false, needCycle := p.railFail != 0 }))) ∧
    (p.standby = true → mv < 45000 → p.brownOut = false →
      let t := (seen.modPw (fun p => { p with brownOut := true })).alert 1
      exec (.brownOut mv) s = .next (if p.good then ((t.bump 9 0 4).powerReport 0).journal 4 0 0 0 0 else t)) ∧
    (p.brownOut = true → 46000 ≤ mv → exec (.brownOutEnd mv) s = .next (seen.modPw (fun p => { p with brownOut := false })).tryRise) ∧
    (p.standby = true → mv < 42000 → p.inputFault = false ∨ p.rising = true ∨ p.good = true →
      exec (.inputUndervoltage mv) s = .next (s.inputFault.setVin mv)) ∧
    (p.standby = true → 60000 < mv → p.switchOpen = false ∨ p.rising = true ∨ p.good = true → exec (.inputOvervoltage mv) s =
      .next ((s.inputFault.modPw (fun p => { p with switchOpen := true })).setVin mv)) ∧
    (p.standby = true → p.pwrEn = true → p.rising = false → p.good = false → 46000 ≤ mv → mv ≤ 58000 →
      let t := seen.modPw (fun p => { p with brownOut := false, switchOpen := false, vinBad := none })
      exec (.inputRecovery mv) s = .next (if p.needCycle then t else t.beginRise)) ∧
    (∀ t, t = s.railsOff →
      t.com.pw.good = false ∧ t.com.pw.standby = p.standby ∧ t.com.pw.alert = p.alert ∧ t.com.boot.flash = s.com.boot.flash ∧
      t.com.store.slots = s.com.store.slots ∧ t.com.store.dumps = s.com.store.dumps ∧ (∀ c, t.cl c = Cluster.reset) ∧
      (∀ h, t.heat h = Heat.reset) ∧ (∀ k, t.port k = Port.reset) ∧ t.pending = s.pending)

/-- The envelope (R364 to R367): the average is kept, and above the limit less 50 W every Sprint ends; a round lowers each active cluster by 10 mV
while that lasts, and once 1 ms has passed 100 W below gives back 10 mV, of what was shed first and then of the cap; the hardware limit pauses the
arrays in steps of an eighth; the hardware floor holds every supply at 0.75 V. -/
def Obligations.EnvelopeIsHeld : Prop :=
  ∀ (s : State) (watts mv : Nat),
    (s.com.pw.standby = true → ∃ t, exec (.powerAverage watts mv) s = .next t ∧ t.com.pw.pin = watts ∧ t.com.pw.vin = mv ∧
      t.com.pw.polls.1 = t.now ∧ t.heats = s.heats ∧ t.ports = s.ports ∧ t.pending = s.pending ∧
      (s.com.pw.good = true → s.com.boot.power = .up →
        (t.com.pw.overLim = true ↔ s.powerLimit < watts + 50) ∧
        t.com.pw.capMv = (if s.powerLimit < watts + 50 then 750 else s.com.pw.capMv) ∧
        (s.powerLimit < watts + 50 → ∀ c, (s.cl c).retired = false → s.pacingOn = true ∨ (s.cl c).pc.st.asleep = false →
          (t.cl c).pc.active ≤ 750) ∧
        (watts + 100 ≤ s.powerLimit → t.com.pw.underSince = some (s.com.pw.underSince.getD t.now)) ∧
        (s.powerLimit < watts + 100 → t.com.pw.underSince = none))) ∧
    (s.com.pw.good = true → s.com.boot.power = .up → ∃ t, exec .shedRound s = .next t ∧ t.now = max s.now (s.com.pw.polls.2.1 + 100 * micro) ∧
      (∀ c, let k := (s.cl c).pc
        (s.com.pw.overLim = true → (t.cl c).pc.shed = if k.st.asleep = false ∧ 550 < k.active then k.shed + 10 else k.shed) ∧
        (s.com.pw.overLim = false → ∀ u, s.com.pw.underSince = some u → u + milli ≤ t.now → (t.cl c).pc.shed = k.shed - 10)) ∧
      (s.com.pw.overLim = false → (∀ c, (s.cl c).pc.shed = 0) → ∀ u, s.com.pw.underSince = some u → u + milli ≤ t.now →
        t.com.pw.capMv = min 850 (s.com.pw.capMv + 10)) ∧
      t.heats = s.heats ∧ t.ports = s.ports ∧ t.pending = s.pending ∧ ∀ c, (t.cl c).store = (s.cl c).store) ∧
    (s.com.pw.good = true → ∃ t, exec (.hardwareLimit watts) s = .next t ∧ t.now = max s.now (s.com.pw.polls.2.2.1 + 20 * micro) ∧
      (s.hardOver watts = true → t.com.pw.pause = min 6 (s.com.pw.pause + 1)) ∧
      (s.hardOver watts = false → t.com.pw.pause =
        if watts < s.powerLimit ∧ s.com.pw.pauseAt + 100 * micro ≤ t.now then s.com.pw.pause - 1 else s.com.pw.pause) ∧
      t.heats = s.heats ∧ t.clusters = s.clusters ∧ t.ports = s.ports ∧ t.pending = s.pending) ∧
    (s.com.pw.good = true → s.com.boot.power ≠ .up → s.com.pw.floor = false → ∃ t, exec .heartbeatLapse s = .next t ∧ t.com.pw.floor = true ∧
      (∀ c, (s.cl c).retired = false → (t.cl c).pc.active = 750 ∧ ((t.cl c).pc.st.asleep = true → ∃ a, (t.cl c).pc.move = .leaving a)) ∧
      (∀ c, (t.cl c).store = (s.cl c).store) ∧
      t.heats = s.heats ∧ t.ports = s.ports ∧ t.pending = s.pending)

/-- A cluster's setpoint (R356, R357, R361, R365, R367 to R369): exactly 0.75 V under the hardware floor and with pacing off, else within 0.55 and
0.85 V for any ceiling the power core grants, at most 0.75 V while the envelope or a temperature bars Sprint and for any pace but Sprint and STRIDE,
at most 0.70 V under the thermal cap; a cluster in Jog is held at its last setpoint, lowered by the same caps; a grant is within 0.75 and 0.85 V,
and within the configured bound. -/
def Obligations.SetpointsStayInRange : Prop :=
  ∀ (s : State) (c : Fin 64) (k : Pacing),
    (s.com.pw.floor = true ∨ s.pacingOn = false → s.setpoint k = 750) ∧
    (s.com.pw.floor = false → s.pacingOn = true → 550 ≤ s.setpoint k ∧ (k.ceiling ≤ 850 → s.setpoint k ≤ 850) ∧
      (k.cap700 = true → s.setpoint k ≤ 700) ∧
      (s.com.pw.capMv ≤ 750 ∨ k.noSprint = true ∨ (k.pace ≠ 0 ∧ k.pace ≠ 2) → s.setpoint k ≤ 750) ∧
      s.heldMv k ≤ k.active ∧ (k.cap700 = true → s.heldMv k ≤ 700) ∧ s.heldMv k ≤ s.com.pw.capMv) ∧
    (∀ v, v = ((s.grantSprint c).cl c).pc.ceiling →
      750 ≤ v ∧ v ≤ 850 ∧ v ≤ max 750 (s.powerSetting 41 32 850) ∧
      (s.com.pw.pause ≠ 0 ∨ s.com.pw.floor = true ∨ s.powerLimit ≤ s.com.pw.pin + 50 → v = 750))

/-- Temperature and clock (R368, R429, R435): a reading of the sensors sets and ends each cluster's restrictions; a trip shuts the module down with
its latch; a lost clock sets its flag and alert, its return clears the flag and every link trains again, and a second without it shuts the module
down as an input fault does. -/
def Obligations.TemperatureAndClockAct : Prop :=
  ∀ (s : State),
    (∀ (ts : List Int) (board : Int), s.com.pw.standby = true → ∃ t, exec (.sensorRead ts board) s = .next t ∧ t.com.pw.tBoard = board ∧
      t.com.pw.feedTemp = ts.drop 64 ∧ t.com.pw.measured = true ∧ t.heats = s.heats ∧ t.ports = s.ports ∧
      ∀ c : Fin 64, c.val < ts.length →
        let q := ts.getD c.val 0
        let k := (s.cl c).pc
        (t.cl c).pc.temp = q ∧ (t.cl c).store = (s.cl c).store ∧
        (s.com.pw.good = true → s.com.boot.power = .up → (s.cl c).retired = false →
          ((t.cl c).pc.noSprint = true ↔ 380 ≤ q ∨ (368 ≤ q ∧ k.noSprint = true)) ∧
          ((t.cl c).pc.cap700 = true ↔ 400 ≤ q ∨ (368 ≤ q ∧ k.cap700 = true)))) ∧
    (∀ n, s.com.pw.good = true ∨ s.com.pw.rising = true → exec (.thermalTrip n) s =
      .next ((s.railsOff.modPw (fun p => { p with tripped := true, needCycle := true })).alert 3)) ∧
    (s.com.pw.good = true → s.com.pw.clockLost = none →
      let t := s.reach (s.now + 10 * micro)
      exec .clockLoss s = .next ((t.modPw (fun p => { p with clockLost := some t.now })).alert 6)) ∧
    (s.com.pw.clockLost.isSome = true → ∃ t, exec .clockReturn s = .next t ∧ t.com.pw.clockLost = none ∧ t.com.mgmt.link = false ∧
      (∀ p, t.port p = (s.port p).retrain s.now) ∧ (∀ f : Fin 2, (t.com.feed[f]).up = false) ∧ t.clusters = s.clusters ∧ t.heats = s.heats) ∧
    (∀ t, s.com.pw.clockLost = some t → s.com.pw.good = true → exec .clockLossTimeout s = .next (s.reach (t + second)).inputFault)

/-- Pacing states (R357, R359 to R362): an idle cluster enters the state that its gap selects, with an exit timer; 20 µs of Jog with an unknown gap
lead to Walk; entry into Rest loses the accumulators and the row buffer; the timer or a wake begins exit, after which the cluster works at the
setpoint of its work. -/
def Obligations.PacingStatesAct : Prop :=
  ∀ (s : State) (c : Fin 64),
    let k := (s.cl c).pc
    (k.st.asleep = false → k.move = .settled → s.com.boot.power = .up → s.com.pw.floor = false → s.isIdle c = true →
      let g := s.gapOf c
      let st := if s.pacingOn then selectIdle g else .jog
      exec (.clusterIdle c) s = .next ((s.setPace c st (.entering (s.now + st.entry))).modCl c (fun t => { t with pc := { t.pc with
        idleSince := some s.now, gap := g, exitAt := g.map (fun g => s.now + (g - g / 32 - st.exit)) } })) ∧
      (st = .rest → ∃ n, g = some n ∧ 160 * micro ≤ n) ∧ (st = .walk → ∃ n, g = some n ∧ 85334 ≤ n)) ∧
    (∀ t, k.idleSince = some t → k.st = .jog → k.move = .settled → k.gap = none → s.pacingOn = true → s.com.boot.power = .up →
      let u := s.reach (t + 20 * micro)
      exec (.jogToWalk c) s = .next (u.setPace c .walk (.entering (u.now + 2 * micro)))) ∧
    (∀ a, k.move = .entering a →
      let u := (s.reach a).modCl c (fun k => { k with pc := { k.pc with move := .settled } })
      exec (.pacingEntryDone c) s = .next (if k.st = .rest
        then u.useFree.modCl c (fun k => { k with acc := ⟨[], some u.free⟩, rowBuf := .unspecified u.free }) else u)) ∧
    (∀ t, k.exitAt = some t → s.com.boot.power = .up → exec (.exitTimer c) s = .next ((s.reach t).beginExit c)) ∧
    (∀ why, (s.cl c).retired = false → ∃ t, exec (.wakeLine c why) s = .next t ∧ (k.st.asleep = true → (∀ a, k.move ≠ .leaving a) →
      (t.cl c).pc.move = .leaving (s.now + k.st.exit)) ∧ t.heats = s.heats ∧ t.ports = s.ports ∧ t.com = s.com ∧
      (∀ j, j ≠ c → t.cl j = s.cl j) ∧ (t.cl c).store = (s.cl c).store) ∧
    (∀ a, k.move = .leaving a →
      let u := s.reach a
      exec (.pacingExitDone c) s = .next (((u.setPace c (if 750 ≤ k.active then .sprint else .stride) .settled).modCl c (fun k => { k with
        pc := { k.pc with idleSince := none, gap := none, exitAt := none } })).pace c)) ∧
    (∀ rate75 rateNow : Nat, (s.cl c).retired = false → s.com.boot.power = .up → s.com.pw.good = true →
      let u := if 8 ≤ (k.temp - k.evalTemp).natAbs then s else s.reach (k.evalAt + 100 * micro)
      let v := ((u.setLevel 1 c.val 26 rateNow).setLevel 1 c.val 27 rate75).modStore (fun g => g.noteRate c.val (rateAt65 rate75 k.temp))
      let w := v.modCl c (fun t => { t with pc := { t.pc with rate75 := rate75, rateNow := rateNow, evalTemp := t.pc.temp, evalAt := v.now } })
      let x := w.modCl c (fun t => { t with pc := { t.pc with raised := if belowTarget t.pc && !t.pc.st.asleep && t.pc.active < 850 then t.pc.raised + 10 else t.pc.raised } })
      exec (.paceEvaluate c rate75 rateNow) s = .next (x.pace c))

/-- Boot (R5, R353, R370 to R374, R433): PWR_GOOD starts it afresh; eight straps that agree are latched, and without any by 100 ms the module halts;
the one flash read selects the valid image of the higher generation, slot A of two equal, and leads to AWAIT_FW, HALTED or recovery; the links and
drives come up, a drive that does not retires, and READY is reported once firmware runs and training has ended. -/
def Obligations.BootRuns : Prop :=
  ∀ s : State,
    (s.com.pw.rail = 8 → s.com.pw.good = false → ∃ t, exec .pwrGood s = .next t ∧ t.com.pw.good = true ∧ t.now = 0 ∧
      t.com.boot.security = .up ∧ t.com.boot.power = .up ∧ t.com.boot.scheduler = .off ∧ t.com.boot.straps = none ∧ t.com.boot.state = .boot ∧
      (∀ c, t.cl c = Cluster.reset) ∧ (∀ h, t.heat h = Heat.reset) ∧ (∀ p, t.port p = Port.reset) ∧ t.com.mgmt = Mgmt.reset ∧ t.com.ctrs = [] ∧
      t.pending = s.pending) ∧
    (∀ (x : Straps) (rest : List Straps), rest.length = 7 → s.com.pw.good = true → s.com.boot.straps = none → s.com.boot.strapFail = false →
      s.com.boot.flashRead = false →
      let u := s.reach (s.now + 800 * micro)
      ((∀ y ∈ rest, y = x) → exec (.strapLatch (x :: rest)) s = .next (u.modBoot (fun b => { b with straps := some x, order := strapOrder x }))) ∧
      ((∃ y ∈ rest, y ≠ x) → exec (.strapLatch (x :: rest)) s =
        .next (if u.now < 100 * milli then u else (u.modBoot (fun b => { b with strapFail := true })).halt))) ∧
    (∀ (readOk sigA sigB : Bool), s.com.pw.good = true → s.com.boot.flashRead = false → s.com.boot.straps.isSome = true ∨ s.com.boot.strapFail = true →
      let u := s.reach (66 * milli)
      let a := u.flashGet 0 configSize
      let b := u.flashGet 0x10000 configSize
      let va := readOk && configValid a sigA
      let vb := readOk && configValid b sigB
      ∃ t, exec (.flashReadDone readOk sigA sigB) s = .next t ∧ t.com.boot.flashRead = true ∧ t.com.boot.flash = s.com.boot.flash ∧
        t.now = u.now ∧ t.clusters = s.clusters ∧ t.heats = s.heats ∧ t.ports = s.ports ∧
        (va = false → vb = false → t.com.boot.state = .recovery ∧ t.com.boot.config = none ∧ bitAt t.com.pw.alert 5 = true) ∧
        (va = true → vb = false ∨ configGen b ≤ configGen a → t.com.boot.slot = 0 ∧ t.com.boot.config = some (a.take 1344)) ∧
        (vb = true → va = false ∨ configGen a < configGen b → t.com.boot.slot = 1 ∧ t.com.boot.config = some (b.take 1344)) ∧
        (va = true ∨ vb = true → s.com.boot.strapFail = false → ∀ x, s.com.boot.straps = some x →
          t.com.boot.state = if x.memMode = t.com.boot.setting 0 0 then .awaitFw else .halted)) ∧
    (s.com.boot.flashRead = true → exec .managementPortLinkUp s = .next (s.modMgmt (fun m => { m with link := true })) ∧
      (∀ fp : Fin 2, (s.com.feed[fp]).retired = false → exec (.feedPortLinkUp fp) s =
        .next (s.modFeed fp (fun k => { k with up := true, downSince := none }))) ∧
      (∀ d : Fin 2, (s.com.store.drives[d]).retired = false → exec (.nvmeDriveReady d) s = .next (s.modDrive d (fun k => { k with ready := true }))) ∧
      (∀ d : Fin 2, (s.com.store.drives[d]).ready = false → exec (.nvmeReadyTimeout d) s = .next ((s.reach (2 * second)).retireDrive d))) ∧
    (s.com.boot.state = .awaitFw → s.com.boot.scheduler = .up → s.com.boot.readySent = false → s.trained = true →
      exec .ready s = .next (((s.reach (s.com.boot.loadedAt + 60 * milli)).modBoot (fun b => { b with state := .ready, readySent := true })).report
        0x01 0xFF 0 0 (natLE 4 s.com.boot.fwVersion)))

/-- Faults of clusters and cores (R333, R337, R338, R418): a parity error or a crash of a control core restarts its cluster, whose end asks for a
false start; a central core that crashes is down until the security core has brought it back, or for good where that is down too; work without
progress, or a completion that nothing can take, is a hang. -/
def Obligations.CoresRestart : Prop :=
  ∀ (s : State),
    (∀ c : Fin 64, (s.cl c).retired = false → (s.cl c).core.restarting = false →
      exec (.parityError c) s = .next (((s.bump 1 c.val 24).restartCluster c).refreshCl c) ∧
      exec (.controlCoreCrash c) s = .next (((s.noteCore 0 c.val (((s.heatOfCl c).map (fun h => h.1.val)).getD 0xFF)).restartCluster c).refreshCl c)) ∧
    (∀ (c : Fin 64) (hi : Fin 4) (own : Nat) (p : Program), (s.cl c).core.restarting = true → s.com.boot.scheduler = .up →
      s.heatOfCl c = some (hi, own) → (s.heat hi).image = some p →
      exec (.coreRestartDone (.control c) true) s = .next (((s.useFree.modCl c (fun k => { k with
        rt := { k.rt with stamp := s.free }, core := { k.core with restarting := false }, fnTab := Mem.put [] 0 (p.sec 0x0A own) })).request hi 2 0).refreshCl c)) ∧
    (s.com.boot.scheduler = .up → exec .schedulerCrash s = .next (s.modBoot (fun b => { b with
      scheduler := if s.com.boot.security = .up then .restarting else .dead, schedAt := s.now }))) ∧
    (s.com.boot.power = .up → exec .powerCoreCrash s = .next (s.modBoot (fun b => { b with
      power := if s.com.boot.security = .up then .restarting else .dead }))) ∧
    (s.com.boot.security = .up → exec .securityCoreCrash s = .next (s.modBoot (fun b => { b with security := .restarting }))) ∧
    (s.com.boot.scheduler = .restarting → s.com.boot.security = .up → exec (.coreRestartDone .scheduler true) s = .next s.schedulerBack) ∧
    (s.com.boot.power = .restarting → s.com.boot.security = .up → exec (.coreRestartDone .power true) s = .next s.powerBack) ∧
    (s.com.boot.security = .restarting → exec (.coreRestartDone .security true) s =
        .next ((((s.coreAnew 0).modBoot (fun b => { b with security := .up, secFails := 0 })).catchUpLog).noteCore 3 0 0xFF) ∧
      exec (.coreRestartDone .security false) s = .next (s.modBoot (fun b => { b with
        secFails := b.secFails + 1, security := if s.com.boot.secFails < 2 then .restarting else .dead }))) ∧
    (∀ (hi : Fin 4), let u := s.reach (s.now + second)
      (∀ c own, s.heatOfCl c = some (hi, own) → (s.heat hi).live = true → (s.cl c).retired = false → (s.cl c).core.restarting = false →
        exec (.progressHang (.cluster c)) s = .next (((u.declareHang hi (.progress (.cluster c))).restartCluster c).refreshCl c)) ∧
      ((s.heat hi).phase = .running → exec (.progressHang (.other hi)) s = .next ((u.declareHang hi (.progress (.other hi))).request hi 6 eHang)) ∧
      (∀ p k, s.heatOfPort p = some (hi, k) → (s.port p).retired = false →
        let w := u.declareHang hi (.progress (.link p))
        let v := if (w.port p).tx.replay = [] then w else w.chargeLane p 0
        exec (.progressHang (.link p)) s = .next (if (v.port p).retired then v else v.retrainPort p)) ∧
      (∀ c own, s.heatOfCl c = some (hi, own) → (s.cl c).core.running = true → (s.cl c).halted = none → (s.cl c).issueStalls = true →
        (∃ a b k n, (s.cl c).fetch = some (.blkIssue a b k, n)) → (s.cl c).completionStuck = true →
        exec (.intraClusterDeadlock c) s = .next ((s.declareHang hi (.deadlock c)).request hi 6 eHang)))

/-- Checkpoints, drives and records (R330 to R332, R340 to R347, R417, R419, R421): hashing keeps the digest and the ward's half; a local flash
write whose header reads back right makes its slot VALID with the module's piece, one that does not, or that a drive ends with an error, charges its
drive; a shared-store write sends the payload before the header, and with no live feed port it fails; a late drive is charged; a dump goes to the
slots and its units resume; the summary is due each hour. -/
def Obligations.CheckpointsAreKept : Prop :=
  ∀ (s : State) (hi : Fin 4) (p : Program), (s.heat hi).image = some p →
    (∀ n l, (s.heat hi).ck.hashing = n :: l → (s.heat hi).phase ≠ .free → exec (.batonHashDone hi) s = .next ((s.keepDigest hi p n).writeHalf hi p n)) ∧
    (∀ j w (d : Fin 2), (s.heat hi).job = some j → (s.heat hi).ck.flash = some w → s.headDrive = some d → s.frozenHeat hi = false →
      exec (.localFlashWriteDone hi .badReadBack) s = .next (((s.bump 7 d.val 4).chargeDrive d).dropFlash hi) ∧
      (∀ e, s.driveLive e = true → exec (.localFlashWriteDone hi (.error e)) s = .next ((s.chargeDrive e).dropFlash hi)) ∧
      let piece := s.ownPiece hi p j 2 w.step
      let t := ((s.countWrite piece.length).bump 7 d.val 1 4096).modStore (fun k => { k with
        slots := k.slots.modify w.slot (fun x => { x with
          step := w.step, state := .valid, level := ctz 12 (w.step + 1), digest := bytesAt piece 128 32, piece := piece }),
        drives := k.drives.map (fun (x : Drive) => { x with fails := 0 }) })
      let u := t.modHeat hi (fun h => { h with ck := { h.ck with flash := none, lastW := s.now - w.since } })
      let v := u.modHeat hi (fun h => { h with ck := { h.ck with k := u.heatK h } })
      exec (.localFlashWriteDone hi .ok) s =
        .next ((v.report 0x08 hi.val 0 w.step (natLE 1 2 ++ natLE 4 (v.heat hi).ck.k)).releaseGo hi)) ∧
    (∀ j w ok, (s.heat hi).job = some j → (s.heat hi).ck.store = some w → ok = false ∨ s.storePort = none →
      exec (.sharedStoreWriteDone hi ok) s = .next ((s.modHeat hi (fun h => { h with ck := { h.ck with
        store := none, gens := h.ck.gens.filter (fun g => g.1 != w.slot) } })).releaseGo hi)) ∧
    (∀ j w (f : Fin 2), (s.heat hi).job = some j → (s.heat hi).ck.store = some w → s.storePort = some f →
      let gens := (s.heat hi).ck.gens.filter (fun g => g.1 != w.slot)
      let piece := s.ownPiece hi p j 3 w.step
      let a := (j.storeBase + (s.heat hi).ownId * j.storeStride + w.slot * (j.storeStride / 2)) % 2 ^ 64
      let psns := (s.heat hi).ck.storePsn
      let psn := if f = 0 then psns.1 else psns.2
      let after := psn + ceilDiv (piece.drop 4096).length p.mtu
      let last := (after + ceilDiv 4096 p.mtu) % 2 ^ 24
      let hdr := fun (n : Nat) => s.packetHdr f.val j.storeAddr 0 (0x1800 + 2 * hi.val + f.val) j.storeQpn (n % 2 ^ 24)
      let sent := (s.emit (writePacket (hdr psn) (a + 4096) j.storeRkey (piece.drop 4096))).emit
        (writePacket (hdr after) a j.storeRkey (piece.take 4096))
      let t := (sent.modHeat hi (fun h => { h with ck := { h.ck with
        storePsn := if f = 0 then (last, psns.2) else (psns.1, last) } })).bump 5 f.val 1 piece.length
      let u := t.modHeat hi (fun h => { h with ck := { h.ck with store := none, gens := gens ++ [(w.slot, w.step)] } })
      exec (.sharedStoreWriteDone hi true) s =
        .next ((u.report 0x08 hi.val 0 w.step (natLE 1 3 ++ natLE 4 (storeEvery j (s.heat hi).hu.stepWin.2))).releaseGo hi)) ∧
    (∀ d : Fin 2, s.driveLive d = true → (s.heat hi).ck.flash.isSome = true → exec (.nvmeTimeout d) s =
      .next ((List.finRange 4).foldl (fun s hi => s.dropFlash hi) (((s.reach (s.now + second)).bump 7 d.val 3).chargeDrive d))) ∧
    (s.com.pw.good = true → s.com.boot.security = .up → exec .lifelogSummary s =
      .next (((s.reach ((s.com.store.summaryAt + 3600 - s.com.store.onBefore) * second)).modStore (fun k => { k with
        summaryAt := k.summaryAt + 3600 })).putSummary)) ∧
    (∀ v, s.com.store.dumping = some v → v.heat = hi.val →
      let total := 4096 + Config.dumpLen s.free + 32
      let d : Dump := ⟨s.dumpSlot, s.com.store.dumpSeq, s.free, total, min s.dumpCapacity total, v⟩
      let t := (s.countWrite d.len).useFree.modStore (fun k => { k with
        dumping := none, dumpSeq := k.dumpSeq + 1, dumps := k.dumps.filter (fun x => x.slot != d.slot) ++ [d] })
      let u := ((v.clusters.map Prod.fst).foldl (fun (s : State) c => match (List.finRange 64)[c]? with
        | some f => s.modCl f (fun k => { k with frozen := false })
        | none => s) t).bump 9 0 11
      exec .dumpWritten s = .next (if u.decideWaits hi then u.settleGo hi else u.resumeDecides hi p))

/-- SMBus (R435, R436): on the standby rail each command is answered with its word, and changes nothing but what has left; a read of ALERT_CAUSE
also clears the bits it returns; a module that holds ALERT_N low answers the Alert Response Address, which clears nothing. Where the address bits
stand in that answer is the model's choice (log 44). -/
def Obligations.SmbusAnswers : Prop :=
  ∀ s : State, s.com.pw.standby = true →
    let p := s.com.pw
    let word := fun (v : Nat) => (Host.Outcome.next { s with out := s.out ++ [OutItem.smbus v] } : Result)
    let seen := fun (v : Int) => if p.measured then wrap 16 v else 0
    (exec .state s = word ((if p.good then 1 else 0) + (if p.alert ≠ 0 then 2 else 0) + (if p.tripped then 4 else 0) + (if p.inputFault then 8 else 0)
      + (if p.brownOut then 16 else 0) + (if s.com.boot.state = .halted ∨ s.com.boot.state = .recovery then 32 else 0)
      + (if p.clockLost.isSome then 64 else 0))) ∧
    exec .vin s = word (seen p.vin) ∧ exec .pin s = word (seen p.pin) ∧ exec .tjMax s = word (seen s.hottest) ∧ exec .tBoard s = word (seen p.tBoard) ∧
    (∀ x, s.com.boot.straps = some x → exec .ident s = word (x.feedId % 16 + x.slotId % 256 * 256) ∧
      (p.alert ≠ 0 → exec .alertResponse s = word (2 * (0x60 + x.slotId % 8)))) ∧
    exec .alertCause s = .next { s with out := s.out ++ [OutItem.smbus p.alert], com := { s.com with pw := { p with alert := 0 } } } ∧
    exec .part s = word (s.com.boot.order + 256) ∧ exec .railFail s = word p.railFail ∧
    (s.com.boot.straps = none → ∃ v, v < 2 ^ 16 ∧ v % 256 < 16 ∧ exec .ident s =
      .next { s with out := s.out ++ [OutItem.smbus v], free := s.free + 1 }) ∧
    (p.alert = 0 → exec .alertResponse s = .next s)

/-- JTAG (R434, R437): each instruction loads; BYPASS passes its input through one bit, IDCODE shifts out the code, SAMPLE/PRELOAD loads the cells;
TDO is driven only from PWR_GOOD on, and EXTEST, HIGHZ and CLAMP hold the pins only before any heat is admitted. What a bit order or a captured 0
is, is the model's (log 8). -/
def Obligations.TapShifts : Prop :=
  ∀ s : State, s.com.pw.standby = true →
    let put := fun (ir : Nat) (t : State) => t.com.tap.ir = ir ∧ t.heats = s.heats ∧ t.clusters = s.clusters ∧ t.ports = s.ports ∧ t.now = s.now ∧
      t.pending = s.pending ∧ t.com = { s.com with tap := t.com.tap } ∧ (s.com.pw.good = false → t.out = s.out)
    (∀ tdi, ∃ t, exec (.bypass tdi) s = .next t ∧ put 0 t ∧ t.com.tap.bypass = tdi.getLastD false ∧
      (s.com.pw.good = true → t.out = s.out ++ [.tdo ((false :: tdi).take tdi.length)])) ∧
    (∀ cells, ∃ t bits, exec (.samplePreload cells) s = .next t ∧ put 1 t ∧ t.com.tap.cells = cells ∧ bits.length = cells.length ∧
      (s.com.pw.good = true → t.out = s.out ++ [.tdo bits])) ∧
    (∃ t, exec .idcode s = .next t ∧ put 3 t ∧ (s.com.pw.good = true →
      t.out = s.out ++ [.tdo ((List.range 32).map (fun i => (0x35A4E9E7 / 2 ^ i) % 2 == 1))])) ∧
    (∀ ir i, (ir, i) ∈ [(2, Instr.extest), (4, .highz), (5, .clamp)] → ∃ t, exec i s = .next t ∧ put ir t ∧ t.out = s.out ∧
      (t.pinsTaken = true ↔ (s.com.boot.state = .awaitFw ∨ s.com.boot.state = .recovery ∨ s.com.boot.state = .halted) ∧
        ∀ h, (s.heat h).phase = .free))

/-- What the model chose where the spec is silent: with no command waiting a step lets one tick of 6.4 ns pass (log 3); reset holds a module without
input (log 1), which the input, PWR_EN and the eight rail steps lead to PWR_GOOD and the start of boot (R352, R353, R370): module time 0, the
security and power cores on, every cluster in Jog at 0.75 V, no heat admitted. -/
def Obligations.IdleAndPowerUpFromReset : Prop :=
  (∀ s : State, s.pending = [] → ∃ t, step s = .next t ∧ t.now = s.now + 64 ∧ t.clusters = s.clusters ∧ t.ports = s.ports ∧
    t.heats = s.heats ∧ t.free = s.free ∧ t.out = s.out ∧ t.pending = [] ∧ t.com = { s.com with store := t.com.store }) ∧
  (∃ t, State.reset.runAll ([.standbyRailRise, .pwrEnRise 0] ++ List.replicate 8 .railStep ++ [.pwrGood]) = some t ∧
    t.com.pw.good = true ∧ t.now = 0 ∧ t.com.boot.security = .up ∧ t.com.boot.power = .up ∧ t.com.boot.scheduler = .off ∧
    (∀ c, (t.cl c).pc.st = .jog ∧ (t.cl c).pc.active = 750) ∧ (∀ h, (t.heat h).phase = .free)) ∧
  State.reset.pending = [] ∧ State.reset.com.pw.standby = false ∧ State.reset.com.mgmt.sessions = []
end

