-- ==== Sys2Proof/Laws/Mem.lean ====
section
/-! SUPPORT. The laws of sparse memory: what a read gives after a write or a clear, and that both keep the canonical form. -/
namespace Sys2Proof.Machine

/-- The canonical form as a property of the whole list. -/
theorem Mem.wf_iff (m : Mem) : m.wf = true ↔ m.Pairwise (fun c d => c.1 < d.1) ∧ ∀ c ∈ m, c.2 ≠ 0 := by
  induction m with
  | nil => simp [Mem.wf]
  | cons c m ih =>
    cases m with
    | nil => simp [Mem.wf]
    | cons d m =>
      simp only [Mem.wf, Bool.and_eq_true, bne_iff_ne, ne_eq, decide_eq_true_eq, ih, List.pairwise_cons, List.mem_cons]
      constructor
      · rintro ⟨⟨hc, hlt⟩, ⟨hd, hp⟩, hz⟩
        refine ⟨⟨?_, hd, hp⟩, ?_⟩
        · rintro e (rfl | he)
          · exact hlt
          · exact Nat.lt_trans hlt (hd e he)
        · rintro e (rfl | he)
          · exact hc
          · exact hz e he
      · rintro ⟨⟨h1, hd, hp⟩, hz⟩
        exact ⟨⟨hz c (Or.inl rfl), h1 d (Or.inl rfl)⟩, ⟨hd, hp⟩, fun e he => hz e (Or.inr he)⟩

/-- The cells of a byte string lie in its range. -/
theorem cellsOf_bounds (a : Nat) (bs : Bytes) : ∀ c ∈ cellsOf a bs, a ≤ c.1 ∧ c.1 < a + bs.length ∧ c.2 ≠ 0 := by
  induction bs generalizing a with
  | nil => simp [cellsOf]
  | cons b bs ih =>
    intro c hc
    unfold cellsOf at hc
    rw [List.length_cons]
    split at hc
    · obtain ⟨h1, h2, h3⟩ := ih (a + 1) c hc
      exact ⟨by omega, by omega, h3⟩
    · rename_i hb
      rcases List.mem_cons.mp hc with rfl | hc
      · exact ⟨Nat.le_refl _, by simp only; omega, hb⟩
      · obtain ⟨h1, h2, h3⟩ := ih (a + 1) c hc
        exact ⟨by omega, by omega, h3⟩
theorem cellsOf_pairwise (a : Nat) (bs : Bytes) : (cellsOf a bs).Pairwise (fun c d => c.1 < d.1) := by
  induction bs generalizing a with
  | nil => simp [cellsOf]
  | cons b bs ih =>
    unfold cellsOf
    split
    · exact ih _
    · refine List.pairwise_cons.mpr ⟨?_, ih _⟩
      intro d hd
      have := cellsOf_bounds (a + 1) bs d hd
      simp only; omega

/-- A write keeps the canonical form. -/
@[simp] theorem Mem.put_wf (m : Mem) (a : Nat) (bs : Bytes) (h : m.wf = true) : (m.put a bs).wf = true := by
  rw [Mem.wf_iff] at h ⊢
  obtain ⟨hp, hz⟩ := h
  have hb := cellsOf_bounds a bs
  unfold Mem.put
  constructor
  · rw [List.pairwise_append, List.pairwise_append]
    refine ⟨⟨hp.filter _, cellsOf_pairwise a bs, ?_⟩, hp.filter _, ?_⟩
    · intro c hc d hd
      have := hb d hd
      simp only [List.mem_filter, decide_eq_true_eq] at hc
      omega
    · intro c hc d hd
      simp only [List.mem_filter, decide_eq_true_eq] at hd
      rcases List.mem_append.mp hc with hc | hc
      · simp only [List.mem_filter, decide_eq_true_eq] at hc; omega
      · have := hb c hc; omega
  · intro c hc
    rcases List.mem_append.mp hc with hc | hc
    · rcases List.mem_append.mp hc with hc | hc
      · exact hz c ((List.mem_filter.mp hc).1)
      · exact (hb c hc).2.2
    · exact hz c ((List.mem_filter.mp hc).1)
/-- A clear keeps the canonical form. -/
@[simp] theorem Mem.clear_wf (m : Mem) (a n : Nat) (h : m.wf = true) : (m.clear a n).wf = true := by
  rw [Mem.wf_iff] at h ⊢
  exact ⟨h.1.filter _, fun c hc => h.2 c ((List.mem_filter.mp hc).1)⟩
@[simp] theorem Mem.nil_wf : Mem.wf [] = true := rfl

/-- A read of an address no cell of a list has. -/
theorem Mem.read_none (m : Mem) (x : Nat) (h : ∀ c ∈ m, c.1 ≠ x) : m.read x = 0 := by
  unfold Mem.read
  rw [List.find?_eq_none.mpr]
  intro c hc
  simpa using h c hc
theorem Mem.read_append (m n : Mem) (x : Nat) : Mem.read (m ++ n) x = if m.any (fun c => c.1 == x) then m.read x else n.read x := by
  unfold Mem.read
  rw [List.find?_append]
  cases h : m.find? (fun c => c.1 == x) with
  | none =>
    have : m.any (fun c => c.1 == x) = false := by
      rw [List.any_eq_false]; exact List.find?_eq_none.mp h
    simp [this]
  | some c =>
    have : m.any (fun c => c.1 == x) = true := by
      rw [List.any_eq_true]; exact ⟨c, List.mem_of_find?_eq_some h, by simpa using List.find?_some h⟩
    simp [this]
theorem Mem.read_filter (m : Mem) (p : Nat → Bool) (x : Nat) :
    Mem.read (m.filter (fun c => p c.1)) x = if p x then m.read x else 0 := by
  induction m with
  | nil => simp [Mem.read]
  | cons c m ih =>
    unfold Mem.read at ih ⊢
    by_cases hc : p c.1
    · by_cases hx : c.1 = x
      · subst hx; simp [hc]
      · simp [hc, hx]; simpa using ih
    · by_cases hx : c.1 = x
      · subst hx; simp [hc]; simpa [hc] using ih
      · simp [hc, hx]; simpa using ih
/-- The cells of a byte string read back as its bytes. -/
theorem cellsOf_read (a : Nat) (bs : Bytes) (x : Nat) (h1 : a ≤ x) (h2 : x < a + bs.length) :
    Mem.read (cellsOf a bs) x = bs.getD (x - a) 0 := by
  induction bs generalizing a with
  | nil => simp at h2; omega
  | cons b bs ih =>
    by_cases hx : x = a
    · subst hx
      unfold cellsOf
      split
      · rename_i hb
        rw [Mem.read_none]
        · simp [hb]
        · intro c hc; have := (cellsOf_bounds (x + 1) bs c hc).1; omega
      · simp [Mem.read]
    · have hr := ih (a + 1) (by omega) (by simp only [List.length_cons] at h2; omega)
      have he : x - a = (x - (a + 1)) + 1 := by omega
      unfold cellsOf
      have hne : ¬ a = x := fun e => hx e.symm
      split
      · rw [hr, he]; simp
      · have : Mem.read ((a, b) :: cellsOf (a + 1) bs) x = Mem.read (cellsOf (a + 1) bs) x := by
          simp [Mem.read, hne]
        rw [this, hr, he]; simp

/-- A byte outside a write reads as before. -/
theorem Mem.read_put_out (m : Mem) (a : Nat) (bs : Bytes) (x : Nat) (h : x < a ∨ a + bs.length ≤ x) :
    (m.put a bs).read x = m.read x := by
  unfold Mem.put
  have hcells : ∀ c ∈ cellsOf a bs, c.1 ≠ x := by
    intro c hc; have := cellsOf_bounds a bs c hc; omega
  have hnone : (cellsOf a bs).any (fun c => c.1 == x) = false := by
    rw [List.any_eq_false]; intro c hc; simpa using hcells c hc
  rw [Mem.read_append, Mem.read_append, List.any_append, hnone, Bool.or_false]
  rw [Mem.read_filter m (fun k => decide (k < a)), Mem.read_filter m (fun k => decide (a + bs.length ≤ k)),
    Mem.read_none (cellsOf a bs) x hcells]
  by_cases hlt : x < a
  · have h2 : ¬ a + bs.length ≤ x := by omega
    simp only [hlt, decide_true, if_true, h2, decide_false]
    by_cases hany : (m.filter (fun c => decide (c.1 < a))).any (fun c => c.1 == x) = true
    · simp [hany]
    · simp only [hany]
      have : m.read x = 0 := by
        apply Mem.read_none
        intro c hc he
        apply hany
        rw [List.any_eq_true]
        exact ⟨c, by simp [List.mem_filter, hc, he, hlt], by simp [he]⟩
      simp [this]
  · have hge : a + bs.length ≤ x := by omega
    have hany : (m.filter (fun c => decide (c.1 < a))).any (fun c => c.1 == x) = false := by
      rw [List.any_eq_false]
      intro c hc
      simp only [List.mem_filter, decide_eq_true_eq] at hc
      simp; omega
    simp [hany, hge]
/-- A byte inside a write reads as the byte written. -/
theorem Mem.read_put_in (m : Mem) (a : Nat) (bs : Bytes) (x : Nat) (h1 : a ≤ x) (h2 : x < a + bs.length) :
    (m.put a bs).read x = bs.getD (x - a) 0 := by
  unfold Mem.put
  have hl : (m.filter (fun c => decide (c.1 < a))).any (fun c => c.1 == x) = false := by
    rw [List.any_eq_false]
    intro c hc
    simp only [List.mem_filter, decide_eq_true_eq] at hc
    simp; omega
  have hr : Mem.read (m.filter (fun c => decide (a + bs.length ≤ c.1))) x = 0 := by
    rw [Mem.read_filter m (fun k => decide (a + bs.length ≤ k))]
    have : ¬ a + bs.length ≤ x := by omega
    simp [this]
  rw [Mem.read_append, Mem.read_append, List.any_append, hl, Bool.false_or, hr, cellsOf_read a bs x h1 h2]
  simp only [Bool.false_eq_true, if_false]
  by_cases hc : (cellsOf a bs).any (fun c => c.1 == x) = true
  · simp [hc]
  · have : Mem.read (cellsOf a bs) x = 0 := by
      apply Mem.read_none
      intro c hcm he
      apply hc
      rw [List.any_eq_true]
      exact ⟨c, hcm, by simp [he]⟩
    rw [cellsOf_read a bs x h1 h2] at this
    simp only [hc, Bool.false_eq_true, if_false]
    exact this.symm
/-- A cleared byte reads zero, every other as before. -/
theorem Mem.read_clear (m : Mem) (a n x : Nat) : (m.clear a n).read x = if x < a ∨ a + n ≤ x then m.read x else 0 := by
  unfold Mem.clear
  have := Mem.read_filter m (fun k => decide (k < a) || decide (a + n ≤ k)) x
  simpa [Bool.or_eq_true] using this

/-- Canonical memories that read alike are equal. -/
theorem Mem.ext_read (m n : Mem) (hm : m.wf = true) (hn : n.wf = true) (h : ∀ x, m.read x = n.read x) : m = n := by
  rw [Mem.wf_iff] at hm hn
  induction m generalizing n with
  | nil =>
    cases n with
    | nil => rfl
    | cons d n =>
      have := h d.1
      simp [Mem.read] at this
      exact absurd this.symm (hn.2 d (List.mem_cons_self ..))
  | cons c m ih =>
    cases n with
    | nil =>
      have := h c.1
      simp [Mem.read] at this
      exact absurd this (hm.2 c (List.mem_cons_self ..))
    | cons d n =>
      have hmp := List.pairwise_cons.mp hm.1
      have hnp := List.pairwise_cons.mp hn.1
      have hc := h c.1
      have hd := h d.1
      have key : c.1 = d.1 := by
        rcases Nat.lt_trichotomy c.1 d.1 with hlt | he | hlt
        · have : Mem.read (d :: n) c.1 = 0 := by
            apply Mem.read_none
            intro e he heq
            rcases List.mem_cons.mp he with rfl | he
            · omega
            · have := hnp.1 e he; omega
          rw [this] at hc
          simp [Mem.read] at hc
          exact absurd hc (hm.2 c (List.mem_cons_self ..))
        · exact he
        · have : Mem.read (c :: m) d.1 = 0 := by
            apply Mem.read_none
            intro e he heq
            rcases List.mem_cons.mp he with rfl | he
            · omega
            · have := hmp.1 e he; omega
          rw [this] at hd
          simp [Mem.read] at hd
          exact absurd hd.symm (hn.2 d (List.mem_cons_self ..))
      have hval : c.2 = d.2 := by
        rw [key] at hc
        simpa [Mem.read, key] using hc
      have hcd : c = d := Prod.ext key hval
      subst hcd
      congr 1
      refine ih n ⟨hmp.2, fun e he => hm.2 e (List.mem_cons_of_mem _ he)⟩
        ⟨hnp.2, fun e he => hn.2 e (List.mem_cons_of_mem _ he)⟩ (fun x => ?_)
      by_cases hx : x = c.1
      · subst hx
        rw [Mem.read_none m _ (fun e he => by have := hmp.1 e he; omega),
          Mem.read_none n _ (fun e he => by have := hnp.1 e he; omega)]
      · have := h x
        have hne : ¬ c.1 = x := fun e => hx e.symm
        simpa [Mem.read, hne] using this

end Sys2Proof.Machine
end

