-- ==== Sys2Proof/Laws/KeepSpace.lean ====
section
/-! SUPPORT. The memories a mover command reaches stay canonical under everything the mover does. -/
namespace Sys2Proof.Machine

/-- What an answer holds, where it is one. -/
def Post {α : Type} (P : α → Prop) : Except Nat α → Prop
  | .ok a => P a
  | .error _ => True

@[simp] theorem post_ok {α : Type} (P : α → Prop) (a : α) : Post P (.ok a) ↔ P a := Iff.rfl
@[simp] theorem post_pure {α : Type} (P : α → Prop) (a : α) : Post P (pure a) ↔ P a := Iff.rfl
@[simp] theorem post_error {α : Type} (P : α → Prop) (e : Nat) : Post P (.error e) := trivial
/-- What holds after a first step and then a second. -/
theorem post_bind {α β : Type} (P : β → Prop) (x : Except Nat α) (f : α → Except Nat β) (h : ∀ a, x = .ok a → Post P (f a)) :
    Post P (x >>= f) := by
  cases x with
  | error e => trivial
  | ok a => exact h a rfl
theorem post_bind' {α β : Type} (P : β → Prop) (x : Except Nat α) (f : α → Except Nat β) (h : ∀ a, x = .ok a → Post P (f a)) :
    Post P (x.bind f) := post_bind P x f h
theorem Post.of_eq {α : Type} {P : α → Prop} {x : Except Nat α} {a : α} (h : Post P x) (e : x = .ok a) : P a := by
  rw [e] at h; exact h

/-- Every memory a mover reaches is canonical. -/
structure Space.Inv (sp : Space) : Prop where
  /-- memory -/
  mem : sp.mem.wf = true
  /-- scratch -/
  scratch : sp.scratch.wf = true
  /-- staging -/
  staging : sp.staging.wf = true
  /-- stores -/
  stores : ∀ m ∈ sp.stores, m.wf = true
  /-- function tables -/
  fn : sp.fn.wf = true

theorem keep_modify (ms : List Mem) (i : Nat) (f : Mem → Mem) (h : ∀ m ∈ ms, m.wf = true) (hf : ∀ m, m.wf = true → (f m).wf = true) :
    ∀ m ∈ ms.modify i f, m.wf = true := by
  intro m hm
  rw [List.mem_iff_getElem] at hm
  obtain ⟨j, hj, rfl⟩ := hm
  rw [List.getElem_modify]
  split
  · exact hf _ (h _ (List.getElem_mem _))
  · exact h _ (List.getElem_mem _)
@[simp] theorem keep_putIn (sp : Space) (r : Region) (bs : Bytes) (h : sp.Inv) : (sp.putIn r bs).Inv := by
  unfold Space.putIn
  split
  · exact ⟨Mem.put_wf _ _ _ h.mem, h.scratch, h.staging, h.stores, h.fn⟩
  · exact ⟨Mem.put_wf _ _ _ h.mem, h.scratch, h.staging, h.stores, h.fn⟩
  · exact ⟨h.mem, h.scratch, h.staging, keep_modify _ _ _ h.stores (fun m hm => Mem.put_wf _ _ _ hm), h.fn⟩
  · exact ⟨h.mem, Mem.put_wf _ _ _ h.scratch, h.staging, h.stores, h.fn⟩
  · exact ⟨h.mem, h.scratch, h.staging, h.stores, Mem.put_wf _ _ _ h.fn⟩
  · exact h
@[simp] theorem keep_putBytes (sp : Space) (a : Nat) (bs : Bytes) (h : sp.Inv) : (sp.putBytes a bs).Inv := by
  induction bs generalizing a sp with
  | nil => exact h
  | cons b bs ih => exact ih _ _ (keep_putIn _ _ _ h)
theorem keep_write (sp : Space) (a : Nat) (bs : Bytes) (h : sp.Inv) : Post Space.Inv (sp.write a bs) := by
  have hp : ∀ p : List Nat, ({ sp with poison := p } : Space).Inv := fun p => ⟨h.mem, h.scratch, h.staging, h.stores, h.fn⟩
  unfold Space.write
  dsimp only
  repeat' split
  all_goals simp [hp]
theorem keep_foldBind {α β : Type} (P : β → Prop) (f : β → α → Except Nat β) (hf : ∀ b a, P b → Post P (f b a)) (xs : List α)
    (x : Except Nat β) (h : Post P x) : Post P (xs.foldl (fun acc a => acc.bind (fun b => f b a)) x) := by
  induction xs generalizing x with
  | nil => exact h
  | cons a xs ih => exact ih _ (post_bind' _ _ _ (fun b hb => hf b a (h.of_eq hb)))
theorem keep_runRows {α : Type} (f : Space → α → Except Nat Space) (sp : Space) (xs : List α) (h : sp.Inv)
    (hf : ∀ sp a, sp.Inv → Post Space.Inv (f sp a)) : (runRows f sp xs).sp.Inv := by
  unfold runRows
  suffices ∀ o : MovOut, o.sp.Inv → (xs.foldl (fun o x => if o.status ≠ 0 then o else match f o.sp x with
    | .ok sp' => ⟨sp', 0⟩
    | .error e => ⟨o.sp, e⟩) o).sp.Inv from this _ h
  induction xs with
  | nil => exact fun o h => h
  | cons a xs ih =>
    intro o ho
    refine ih _ ?_
    dsimp only
    split
    · exact ho
    · split
      · exact (hf _ _ ho).of_eq ‹_›
      · exact ho
/-- What a mover command's answer holds. -/
abbrev MovInv (r : Except Nat MovOut) : Prop := Post (fun o => o.sp.Inv) r

theorem keep_moveRow (s d : Desc) (i j : Nat) (sp : Space) (h : sp.Inv) : Post Space.Inv (moveRow s d i j sp) := by
  unfold moveRow
  refine post_bind _ _ _ (fun _ _ => post_bind _ _ _ (fun _ _ => post_bind _ _ _ (fun t ht => ?_)))
  have := (keep_write _ _ _ h).of_eq ht
  split
  · exact this
  · exact keep_write _ _ _ this
theorem keep_zeroRow (d : Desc) (j : Nat) (sp : Space) (h : sp.Inv) : Post Space.Inv (zeroRow d j sp) := by
  unfold zeroRow
  refine post_bind _ _ _ (fun t ht => ?_)
  have := (keep_write _ _ _ h).of_eq ht
  split
  · exact this
  · exact keep_write _ _ _ this
theorem keep_atomicRow (aop : Nat) (a d : Desc) (i j : Nat) (sp : Space) (h : sp.Inv) : Post Space.Inv (atomicRow aop a d i j sp) := by
  unfold atomicRow
  refine keep_foldBind _ _ (fun sp p h => ?_) _ _ h
  exact post_bind _ _ _ (fun _ _ => keep_write _ _ _ h)
theorem keep_gatherRun (rs : List Recipe) (sp : Space) (q : Nat) (h : sp.Inv) : MovInv (gatherRun rs sp q) := by
  unfold gatherRun
  repeat' (refine post_bind _ _ _ (fun _ _ => ?_))
  refine keep_runRows _ _ _ h (fun sp a h => ?_)
  repeat' split
  · exact keep_zeroRow _ _ _ h
  · trivial
  · exact keep_moveRow _ _ _ _ _ h
theorem keep_scatterRun (rs : List Recipe) (fa cm : Bool) (sp : Space) (q : Nat) (h : sp.Inv) : MovInv (scatterRun rs fa cm sp q) := by
  unfold scatterRun
  repeat' (refine post_bind _ _ _ (fun _ _ => ?_))
  refine keep_runRows _ _ _ h (fun sp a h => ?_)
  repeat' split
  · exact h
  · trivial
  · exact keep_moveRow _ _ _ _ _ h
  · exact keep_atomicRow _ _ _ _ _ _ h
theorem keep_plainRun (rs : List Recipe) (sp : Space) (q : Nat) (h : sp.Inv) : MovInv (plainRun rs sp q) := by
  unfold plainRun
  repeat' (refine post_bind _ _ _ (fun _ _ => ?_))
  exact keep_runRows _ _ _ h (fun sp a h => keep_moveRow _ _ _ _ _ h)
theorem keep_unref (sp : Space) (p : KvPool) (n : Nat) (h : sp.Inv) : Post Space.Inv (sp.unref p n) :=
  post_bind _ _ _ (fun _ _ => keep_write _ _ _ h)
theorem keep_takePage (sp : Space) (p : KvPool) (n : Nat) (h : sp.Inv) : Post (fun o => o.1.Inv) (sp.takePage p n) := by
  unfold Space.takePage
  refine post_bind _ _ _ (fun f _ => ?_)
  split
  · trivial
  · refine post_bind _ _ _ (fun _ _ => post_bind _ _ _ (fun t ht => post_bind _ _ _ (fun u hu => ?_)))
    exact (keep_write _ _ _ ((keep_write _ _ _ h).of_eq ht)).of_eq hu
theorem keep_kvReadRow (r : KvRegion) (p : KvPool) (part : Nat) (d : Desc) (sp : Space) (j pos : Nat) (h : sp.Inv) :
    Post Space.Inv (kvReadRow r p part d sp j pos) := by
  unfold kvReadRow
  repeat' (refine post_bind _ _ _ (fun _ _ => ?_))
  exact keep_write _ _ _ h
theorem keep_kvReadRun (rs : List Recipe) (sp : Space) (q : Nat) (h : sp.Inv) : MovInv (kvReadRun rs sp q) := by
  unfold kvReadRun
  repeat' (refine post_bind _ _ _ (fun _ _ => ?_))
  split
  · repeat' (refine post_bind _ _ _ (fun _ _ => ?_))
    exact keep_runRows _ _ _ h (fun sp a h => post_bind _ _ _ (fun t ht =>
      keep_kvReadRow _ _ _ _ _ _ _ ((keep_kvReadRow _ _ _ _ _ _ _ h).of_eq ht)))
  · exact keep_runRows _ _ _ h (fun sp a h => keep_kvReadRow _ _ _ _ _ _ _ h)
theorem keep_kvWriteRun (rs : List Recipe) (sp : Space) (q : Nat) (h : sp.Inv) : MovInv (kvWriteRun rs sp q) := by
  unfold kvWriteRun
  repeat' (refine post_bind _ _ _ (fun _ _ => ?_))
  refine keep_runRows _ _ _ h (fun sp a h => ?_)
  dsimp only
  repeat' (refine post_bind _ _ _ (fun t ht => ?_))
  exact keep_write _ _ _ ((keep_write _ _ _ h).of_eq ht)
theorem keep_pageOut (sp : Space) (r : Except Nat Space) (h : sp.Inv) (hr : Post Space.Inv r) : (pageOut sp r).sp.Inv := by
  unfold pageOut
  split
  · exact hr
  · exact h
theorem keep_allocRun (sp : Space) (q : Nat) (h : sp.Inv) : MovInv (allocRun sp q) := by
  unfold allocRun
  repeat' (first | refine post_bind _ _ _ (fun x hx => ?_) | split)
  exact keep_pageOut _ _ h (keep_write _ _ _ ((keep_takePage _ _ _ h).of_eq ‹_›))
theorem keep_shareRun (sp : Space) (q : Nat) (h : sp.Inv) : MovInv (shareRun sp q) := by
  unfold shareRun
  repeat' (first | refine post_bind _ _ _ (fun x hx => ?_) | split)
  refine keep_runRows _ _ _ h (fun sp a h => ?_)
  repeat' (refine post_bind _ _ _ (fun t ht => ?_))
  exact keep_write _ _ _ ((keep_write _ _ _ h).of_eq ht)
theorem keep_cowRun (sp : Space) (q : Nat) (h : sp.Inv) : MovInv (cowRun sp q) := by
  unfold cowRun
  repeat' (first | refine post_bind _ _ _ (fun x hx => ?_) | split)
  refine keep_pageOut _ _ h ?_
  have h0 := (keep_takePage _ _ _ h).of_eq ‹_›
  have hc : ∀ (n : Nat) (sp : Space) (a b : Nat), sp.Inv → Post Space.Inv (if n = 0 then .ok sp else do
      let bs ← sp.read a n
      sp.write b bs) := by
    intro n sp a b h
    split
    · exact h
    · exact post_bind _ _ _ (fun _ _ => keep_write _ _ _ h)
  refine post_bind _ _ _ (fun s1 e1 => ?_)
  have h1 := (hc _ _ _ _ h0).of_eq e1
  refine post_bind _ _ _ (fun s2 e2 => ?_)
  have h2 := (hc _ _ _ _ h1).of_eq e2
  refine post_bind _ _ _ (fun s3 e3 => ?_)
  have h3 := (hc _ _ _ _ h2).of_eq e3
  refine post_bind _ _ _ (fun s4 e4 => ?_)
  exact keep_unref _ _ _ ((keep_write _ _ _ h3).of_eq e4)
theorem keep_freeRun (sp : Space) (q : Nat) (h : sp.Inv) : MovInv (freeRun sp q) := by
  unfold freeRun
  repeat' (first | refine post_bind _ _ _ (fun x hx => ?_) | split)
  refine keep_runRows _ _ _ h (fun sp a h => ?_)
  refine post_bind _ _ _ (fun e _ => ?_)
  refine post_bind _ _ _ (fun t ht => keep_write _ _ _ ?_)
  split at ht
  · exact (keep_unref _ _ _ h).of_eq ht
  · cases ht; exact h
theorem keep_coolPages (sp : Space) (p : KvPool) (h : sp.Inv) : Post Space.Inv (sp.coolPages p) := by
  unfold Space.coolPages
  refine keep_foldBind _ _ (fun sp i h => ?_) _ _ h
  refine post_bind _ _ _ (fun v _ => ?_)
  split
  · exact keep_write _ _ _ h
  · exact h

end Sys2Proof.Machine
end

