-- ==== Sys2Proof/Laws/Engine.lean ====
section
/-! SUPPORT. Where a matrix or vector command writes: only bytes of its destination's ranges, and the store stays canonical. -/
namespace Sys2Proof.Machine

/-- A store differs from another only at device addresses inside some ranges, lo being the address of its first byte, and is canonical
where the other is. -/
def Within (lo : Nat) (rs : List (Nat × Nat)) (m n : Mem) : Prop :=
  (m.wf = true → n.wf = true) ∧ ∀ a, (∀ r ∈ rs, ¬ (r.1 ≤ lo + a ∧ lo + a < r.1 + r.2)) → n.read a = m.read a

theorem Within.refl (lo : Nat) (rs : List (Nat × Nat)) (m : Mem) : Within lo rs m m := ⟨id, fun _ _ => rfl⟩
theorem Within.trans {lo : Nat} {rs : List (Nat × Nat)} {m n k : Mem} (h : Within lo rs m n) (g : Within lo rs n k) : Within lo rs m k :=
  ⟨fun w => g.1 (h.1 w), fun a ha => (g.2 a ha).trans (h.2 a ha)⟩
theorem Within.mono {lo : Nat} {rs qs : List (Nat × Nat)} {m n : Mem} (h : Within lo rs m n) (hs : ∀ r ∈ rs, r ∈ qs) : Within lo qs m n :=
  ⟨h.1, fun a ha => h.2 a (fun r hr => ha r (hs r hr))⟩
/-- A write lies in some ranges that begin at lo or above. -/
def WriteIn (lo : Nat) (rs : List (Nat × Nat)) (w : Nat × Bytes) : Prop :=
  w.2 = [] ∨ (lo ≤ w.1 ∧ ∃ r ∈ rs, r.1 ≤ w.1 ∧ w.1 + w.2.length ≤ r.1 + r.2)
theorem within_put (lo : Nat) (rs : List (Nat × Nat)) (m : Mem) (w : Nat × Bytes) (h : WriteIn lo rs w) :
    Within lo rs m (m.put (w.1 - lo) w.2) := by
  refine ⟨fun hm => Mem.put_wf _ _ _ hm, fun a ha => Mem.read_put_out _ _ _ _ ?_⟩
  rcases h with h | ⟨h1, r, hr, h2, h3⟩
  · simp only [h, List.length_nil]; omega
  · have := ha r hr; omega
theorem within_putAll (lo : Nat) (rs : List (Nat × Nat)) (ws : List (Nat × Bytes)) (h : ∀ w ∈ ws, WriteIn lo rs w) (m : Mem) :
    Within lo rs m (putAll lo m ws) := by
  unfold putAll
  induction ws generalizing m with
  | nil => exact Within.refl _ _ _
  | cons w ws ih =>
    exact (within_put lo rs m w (h w (by simp))).trans (ih (fun v hv => h v (by simp [hv])) _)

/-- A destination whose bytes lie in the store that begins at lo. -/
def Desc.from (d : Desc) (lo : Nat) : Prop := ∀ r ∈ d.ranges, r.2 ≠ 0 → lo ≤ r.1

theorem encodeBlock_length (f : Nat) (xs : List Word) : (encodeBlock f xs).2.length = xs.length := by
  unfold encodeBlock
  split
  · unfold encodeUB4; dsimp only; split <;> simp
  · unfold encodeMX; dsimp only; split <;> simp
theorem natLE_length (n v : Nat) : (natLE n v).length = n := by
  induction n generalizing v with
  | zero => rfl
  | succ n ih => simp [natLE, ih]

theorem ceilDiv_mul (a b : Nat) (h : 0 < b) : ceilDiv (a * b) b = a := by
  unfold ceilDiv
  rw [show a * b + b - 1 = a * b + (b - 1) by omega, Nat.mul_comm a b, Nat.mul_add_div h, Nat.div_eq_of_lt (by omega)]; rfl
theorem lt_ceilDiv (a b c : Nat) (hb : 0 < b) (h : c * b < a) : c < ceilDiv a b := by
  unfold ceilDiv
  rw [Nat.lt_iff_add_one_le, Nat.le_div_iff_mul_le hb, Nat.add_mul]; omega
theorem isBlock_cases (f : Nat) (h : isBlockFmt f = true) :
    f = 5 ∨ f = 6 ∨ f = 7 ∨ f = 8 ∨ f = 9 ∨ f = 10 ∨ f = 11 := by
  simp [isBlockFmt] at h; omega
/-- The pieces a row is cut into: piece b is no longer than n, and what precedes it fills b pieces. -/
theorem cut_get {α : Type} (n : Nat) (k : Nat) (xs : List α) (b : Nat) (blk : List α) (h : (cut n k xs)[b]? = some blk) :
    blk.length ≤ n ∧ b * n < xs.length := by
  induction k generalizing xs b with
  | zero => simp [cut] at h
  | succ k ih =>
    unfold cut at h
    split at h
    · simp at h
    · rename_i hne
      have hpos : 0 < xs.length := by cases xs <;> simp_all
      cases b with
      | zero => simp at h; subst h; simp; omega
      | succ b =>
        simp at h
        have := ih _ _ h
        simp at this
        refine ⟨this.1, ?_⟩
        rw [Nat.add_mul]; omega
/-- Every write of a row lies in the rows and scales of its tensor. -/
theorem rowOut_within (d : Desc) (lo r : Nat) (es : List (Option Elem)) (hd : d.from lo) (hr : r < d.rows) (he : es.length ≤ d.d0)
    (hf : d.fmt ≤ 14) : ∀ w ∈ (d.rowOut r es).writes, WriteIn lo d.ranges w := by
  have hrow : (d.rowAddr r, d.rowLen) ∈ d.ranges := by
    unfold Desc.ranges Desc.rowRanges; exact List.mem_append_left _ (List.mem_map.2 ⟨r, List.mem_range.2 hr, rfl⟩)
  have hsc : (d.scale, d.rows * d.rowScales) ∈ d.ranges := by unfold Desc.ranges; simp
  have put1 : ∀ a (bs : Bytes), d.rowAddr r ≤ a → a + bs.length ≤ d.rowAddr r + d.rowLen → WriteIn lo d.ranges (a, bs) := by
    intro a bs h1 h2
    rcases bs with _ | ⟨b, bs⟩
    · exact Or.inl rfl
    · simp at h2
      have := hd _ hrow (by simp; omega)
      simp at this
      exact Or.inr ⟨by simp; omega, _, hrow, by simpa using h1, by simpa using h2⟩
  intro w hw
  unfold Desc.rowOut at hw
  split at hw
  · rename_i hb
    dsimp only at hw
    simp only [List.mem_flatMap, List.mem_mapIdx] at hw
    obtain ⟨o, ⟨b, hb1, rfl⟩, hw⟩ := hw
    have hn : 0 < blockSize d.fmt := by rcases isBlock_cases _ hb with h | h | h | h | h | h | h <;> rw [h] <;> decide
    have hc := cut_get _ _ _ b _ (List.getElem?_eq_getElem hb1)
    revert hw hc
    generalize (cut (blockSize d.fmt) (es.length + 1) es)[b] = blk
    intro hw hc
    unfold blockOut at hw
    split at hw
    · simp at hw
    · dsimp only at hw
      have hlen : (packCodes (elemBits d.fmt) (encodeBlock d.fmt ((blk ++ List.replicate (blockSize d.fmt - blk.length) none).map
          (fun (e : Option Elem) => (e.map Elem.toWord).getD f32zero))).2).length = blockSize d.fmt * elemBits d.fmt / 8 := by
        unfold packCodes
        rw [natLE_length, encodeBlock_length]
        simp only [List.length_map, List.length_append, List.length_replicate]
        rw [show blk.length + (blockSize d.fmt - blk.length) = blockSize d.fmt by omega]
        rcases isBlock_cases _ hb with h | h | h | h | h | h | h <;> rw [h] <;> rfl
      have hblk : b < ceilDiv d.d0 (blockSize d.fmt) := lt_ceilDiv _ _ _ hn (by omega)
      have hrl : d.rowLen = ceilDiv d.d0 (blockSize d.fmt) * (blockSize d.fmt * elemBits d.fmt / 8) := by
        unfold Desc.rowLen rowBytes storedElems roundUp
        generalize ceilDiv d.d0 (blockSize d.fmt) = q
        rcases isBlock_cases _ hb with h | h | h | h | h | h | h <;> rw [h] <;> simp [blockSize, elemBits, isMX, isUB4, ceilDiv] <;> omega
      have hrs : d.rowScales = ceilDiv d.d0 (blockSize d.fmt) := by unfold Desc.rowScales rowBlocks; rw [if_pos hb]
      simp only [List.mem_cons, List.not_mem_nil, or_false] at hw
      rcases hw with rfl | rfl
      · refine put1 _ _ (by omega) ?_
        rw [hlen, hrl]
        have := Nat.mul_le_mul_right (blockSize d.fmt * elemBits d.fmt / 8) (Nat.succ_le_of_lt hblk)
        rw [Nat.succ_mul] at this
        omega
      · have h2 : r * d.rowScales + b + 1 ≤ d.rows * d.rowScales := by
          have := Nat.mul_le_mul_right d.rowScales (Nat.succ_le_of_lt hr)
          rw [Nat.succ_mul] at this
          omega
        have := hd _ hsc (by simp only; omega)
        refine Or.inr ⟨?_, _, hsc, ?_, ?_⟩ <;> simp [Desc.scaleAddr] <;> simp at this <;> omega
  · rename_i hb
    dsimp only at hw
    simp only [List.mem_filterMap, Option.map_eq_some_iff] at hw
    obtain ⟨p, hp, q, rfl, rfl⟩ := hw
    rw [List.mem_mapIdx] at hp
    obtain ⟨i, hi, hq⟩ := hp
    simp only [Option.map_eq_some_iff] at hq
    obtain ⟨e, -, rfl⟩ := hq
    have hrl : d.rowLen = d.d0 * (elemBits d.fmt / 8) := by
      unfold Desc.rowLen rowBytes storedElems roundUp
      have : d.fmt = 0 ∨ d.fmt = 1 ∨ d.fmt = 2 ∨ d.fmt = 3 ∨ d.fmt = 4 ∨ d.fmt = 12 ∨ d.fmt = 13 ∨ d.fmt = 14 := by
        simp [isBlockFmt] at hb; omega
      rcases this with h | h | h | h | h | h | h | h <;> rw [h] <;> simp [blockSize, elemBits, isMX, isUB4, ceilDiv] <;> omega
    refine put1 _ _ (by simp) ?_
    simp only [natLE_length]
    rw [hrl]
    have := Nat.mul_le_mul_right (elemBits d.fmt / 8) (show i + 1 ≤ d.d0 by omega)
    rw [Nat.succ_mul] at this
    omega

theorem within_foldl {α : Type} (lo : Nat) (rs : List (Nat × Nat)) (f : Mem → α → Mem) (xs : List α)
    (hf : ∀ m a, a ∈ xs → Within lo rs m (f m a)) (m : Mem) : Within lo rs m (xs.foldl f m) := by
  induction xs generalizing m with
  | nil => exact Within.refl _ _ _
  | cons a xs ih => exact (hf m a (by simp)).trans (ih (fun m b hb => hf m b (by simp [hb])) _)
/-- The drain writes nothing but its output. -/
theorem drain_within (x : EngCtx) (c : Desc) (add : Bool) (elF : Option (Nat → Nat → Option Word)) (elI : Nat → Nat → Int) (w : Nat)
    (st : Mem) (hd : c.from x.lo) (hf : c.fmt ≤ 14) : Within x.lo c.ranges st (drain x c add elF elI w st) := by
  unfold drain
  refine within_foldl _ _ _ _ (fun m r hr => within_putAll _ _ _ (rowOut_within c x.lo r _ hd (List.mem_range.1 hr) ?_ hf) m) _
  split <;> simp
/-- Two drains, one after the other. -/
theorem drain2_within (x : EngCtx) (c d : Desc) (add add' : Bool) (elF elF' : Option (Nat → Nat → Option Word)) (elI elI' : Nat → Nat → Int)
    (w w' : Nat) (st : Mem) (hc : c.from x.lo) (hf : c.fmt ≤ 14) (hd : d.from x.lo) (hg : d.fmt ≤ 14) :
    Within x.lo (c.ranges ++ d.ranges) st (drain x d add' elF' elI' w' (drain x c add elF elI w st)) :=
  ((drain_within _ _ _ _ _ _ _ hc hf).mono (by simp +contextual)).trans ((drain_within _ _ _ _ _ _ _ hd hg).mono (by simp +contextual))
/-- A walk writes nothing but its destination, where each row gives at most as many elements as the destination is wide. -/
theorem walkRows_within (x : EngCtx) (d : Desc) (row : Mem → Nat → Except Nat (List (Option Elem))) (st : Mem) (hd : d.from x.lo)
    (hf : d.fmt ≤ 14) (hr : ∀ m r, Post (fun es => es.length ≤ d.d0) (row m r)) :
    Within x.lo d.ranges st (walkRows x d row st).store := by
  unfold walkRows
  suffices ∀ (xs : List Nat), (∀ r ∈ xs, r < d.rows) → ∀ wk : Walk, Within x.lo d.ranges wk.store (xs.foldl (fun wk r =>
    if wk.stop ≠ 0 then wk
    else match row wk.store r with
      | .error e => { wk with stop := e }
      | .ok es =>
        let o := d.rowOut r es
        ⟨putAll x.lo wk.store o.writes, wk.vals ++ o.vals, 0⟩) wk).store from this _ (fun r h => List.mem_range.1 h) ⟨st, [], 0⟩
  intro xs
  induction xs with
  | nil => exact fun _ wk => Within.refl _ _ _
  | cons r xs ih =>
    intro hx wk
    refine Within.trans ?_ (ih (fun r h => hx r (by simp [h])) _)
    dsimp only
    split
    · exact Within.refl _ _ _
    · split
      · exact Within.refl _ _ _
      · rename_i es he
        exact within_putAll _ _ _ (rowOut_within d x.lo r _ hd (hx r (by simp)) ((hr _ _).of_eq he) hf) _

theorem demand_ok {b : Bool} {st : Nat} {u : Unit} (h : demand b st = .ok u) : b = true := by
  unfold demand at h; split at h
  · assumption
  · cases h
theorem need_ok {st : Nat} {u : Unit} (h : need st = .ok u) : st = 0 := by
  unfold need at h; split at h
  · assumption
  · cases h
theorem firstStatus_zero {f : Nat × Nat → Nat} {rs : List (Nat × Nat)} (h : firstStatus f rs = 0) : ∀ r ∈ rs, f r = 0 := by
  intro r hr
  unfold firstStatus at h
  cases hc : (rs.map f).find? (· != 0) with
  | none =>
    have := List.find?_eq_none.1 hc (f r) (List.mem_map.2 ⟨r, hr, rfl⟩)
    simpa using this
  | some v =>
    have := List.find?_some hc
    rw [hc] at h
    simp at this h; exact absurd h this
theorem ownRange_from {h : HeatMap} {own : Nat} {r : Nat × Nat} (hr : ownRangeStatus h own r = 0) (hz : r.2 ≠ 0) :
    storeWin + own * 0x1000000 ≤ r.1 ∧ r.1 + r.2 ≤ storeWin + own * 0x1000000 + 0x1000000 := by
  unfold ownRangeStatus at hr
  dsimp only at hr
  rw [if_neg hz] at hr
  split at hr
  · rename_i hc
    simpa using hc
  · exfalso; revert hr; split <;> decide
theorem from_of_status {x : EngCtx} {rs : List (Nat × Nat)} (h : firstStatus (ownRangeStatus x.hm x.own) rs = 0) (d : Desc)
    (hs : ∀ r ∈ d.ranges, r ∈ rs) : d.from x.lo :=
  fun r hr hz => (ownRange_from (firstStatus_zero h r (hs r hr)) hz).1
theorem loadDesc_fmt {h : HeatMap} {rs : List Recipe} {st : Mem} {off : Nat} {d : Desc} (hd : loadDesc h rs st off = .ok d) : d.fmt ≤ 14 := by
  unfold loadDesc parseDesc at hd
  dsimp only at hd
  split at hd
  · simp [Except.map] at hd
  · split at hd
    · rename_i hc
      simp only [Except.map, Except.ok.injEq] at hd
      subst hd
      simp only [Bool.and_eq_true, fmtOk, decide_eq_true_eq] at hc
      exact hc.1.1.1.1.1.2
    · simp [Except.map] at hd

/-- MATMUL writes nothing but its output. -/
theorem matmulRun_within (x : EngCtx) (st : Mem) (q : Nat) : Post (fun o => ∃ c, loadDesc x.hm x.recipes st (fld q 135 112) = .ok c ∧
    Within x.lo c.ranges st o.store) (matmulRun x st q) := by
  unfold matmulRun
  dsimp only
  refine post_bind _ _ _ (fun _ _ => post_bind _ _ _ (fun a _ => post_bind _ _ _ (fun b _ => post_bind _ _ _ (fun c hc => ?_))))
  refine post_bind _ _ _ (fun _ _ => post_bind _ _ _ (fun _ hn => ?_))
  have hd := from_of_status (need_ok hn) c (by simp +contextual)
  repeat' (with_reducible refine post_bind _ _ _ (fun _ _ => ?_))
  split <;> (rw [post_ok]; refine ⟨c, hc, ?_⟩; dsimp only; exact drain_within _ _ _ _ _ _ _ hd (loadDesc_fmt hc))

/-- CONV writes nothing but its output and, in mode MAXPOOL, the index tensor B (R119). -/
theorem convRun_within (x : EngCtx) (st : Mem) (q : Nat) (lo hi : Option (Nat × Nat × Nat)) : Post (fun o => ∃ c b,
    loadDesc x.hm x.recipes st (fld q 135 112) = .ok c ∧ (b = [] ∨ fld q 162 160 = 4 ∧ ∃ d, loadDesc x.hm x.recipes st (fld q 111 88) = .ok d
      ∧ b = d.ranges) ∧ Within x.lo (c.ranges ++ b) st o.store) (convRun x st q lo hi) := by
  unfold convRun
  dsimp only
  refine post_bind _ _ _ (fun _ _ => post_bind _ _ _ (fun a _ => post_bind _ _ _ (fun c hc => post_bind _ _ _ (fun b hb => ?_))))
  refine post_bind _ _ _ (fun w _ => post_bind _ _ _ (fun _ _ => post_bind _ _ _ (fun _ hn => ?_)))
  have hd := from_of_status (need_ok hn) c (by simp +contextual)
  have hf := loadDesc_fmt hc
  have one : ∀ m, Within x.lo c.ranges st m → Within x.lo (c.ranges ++ []) st m := fun m h => by simpa using h
  repeat' (with_reducible refine post_bind _ _ _ (fun _ _ => ?_))
  split
  · repeat' (with_reducible refine post_bind _ _ _ (fun _ _ => ?_))
    split
    · rename_i b? mode d h4 _ _ _ _ _
      have hbd : loadDesc x.hm x.recipes st (fld q 111 88) = .ok d := by
        split at hb
        · cases hb
        · revert hb
          cases loadDesc x.hm x.recipes st (fld q 111 88) with
          | error e => exact fun h => by cases h
          | ok d' => intro h; cases h; rfl
      have hdd := from_of_status (need_ok hn) d (by simp +contextual)
      rw [post_ok]
      refine ⟨c, d.ranges, hc, Or.inr ⟨h4, d, hbd, rfl⟩, ?_⟩
      dsimp only
      exact drain2_within _ _ _ _ _ _ _ _ _ _ _ _ hd hf hdd (loadDesc_fmt hbd)
    · rw [post_ok]; refine ⟨c, [], hc, Or.inl rfl, one _ ?_⟩; dsimp only; exact drain_within _ _ _ _ _ _ _ hd hf
  · repeat' (with_reducible refine post_bind _ _ _ (fun _ _ => ?_))
    split <;> (rw [post_ok]; refine ⟨c, [], hc, Or.inl rfl, one _ ?_⟩; dsimp only; exact drain_within _ _ _ _ _ _ _ hd hf)

theorem vecPlace_from {x : EngCtx} {d : Desc} {u : Unit} (h : vecPlace x d = .ok u) : d.from x.lo := by
  unfold vecPlace at h
  cases hn : need (firstStatus (ownRangeStatus x.hm x.own) d.ranges) with
  | error e => rw [hn] at h; cases h
  | ok v => exact from_of_status (need_ok hn) d (fun _ h => h)
theorem softmaxRow_length (fn : Mem) (h : FnHead) (imm : Word) (xs : List Word) (msk : List Bool) (n : Nat) :
    (softmaxRow fn h imm xs msk n).length = xs.length := by
  unfold softmaxRow
  dsimp only
  split
  · simp
  split
  · simp
  split
  · simp
  · simp
theorem softmaxBwdRow_length (p dy : List Word) (n : Nat) : (softmaxBwdRow p dy n).length ≤ p.length := by
  unfold softmaxBwdRow
  simp <;> omega
theorem floats_length (d : Desc) (rd : Nat → Nat → Bytes) (r : Nat) : (d.floats rd r).length = d.d0 := by
  unfold Desc.floats Desc.codes
  dsimp only
  split <;> simp
/-- The master update writes nothing but its destination (R76). -/
theorem masterRun_within (x : EngCtx) (st : Mem) (q : Nat) (d a : Desc) (b c : Option Desc) (hd : d.from x.lo) (hf : d.fmt ≤ 14) :
    Post (fun o => Within x.lo d.ranges st o.store) (masterRun x st q d a b c) := by
  unfold masterRun
  split
  · split
    · dsimp only
      cases demand (decide (x.step < 2 ^ 32)) eLimit with
      | error _ => exact post_error _ _
      | ok _ => ?_
      rw [Except.map, post_ok]
      unfold walkOut
      dsimp only
      refine walkRows_within _ _ _ _ hd hf (fun m r => ?_)
      repeat' (with_reducible refine post_bind _ _ _ (fun _ _ => ?_))
      rw [post_ok]; simp
    · exact post_error _ _
  · exact post_error _ _
/-- VEC writes nothing but its destination. -/
theorem vecRun_within (x : EngCtx) (st : Mem) (q : Nat) : Post (fun o => ∃ d, loadDesc x.hm x.recipes st (fld q 87 64) = .ok d ∧
    Within x.lo d.ranges st o.store) (vecRun x st q) := by
  unfold vecRun
  dsimp only
  with_reducible refine post_bind _ _ _ (fun _ _ => post_bind _ _ _ (fun d hd => post_bind _ _ _ (fun a _ => ?_)))
  with_reducible refine post_bind _ _ _ (fun b _ => post_bind _ _ _ (fun c _ => post_bind _ _ _ (fun _ hp => ?_)))
  have hfr := vecPlace_from hp
  have hf := loadDesc_fmt hd
  repeat' (with_reducible refine post_bind _ _ _ (fun _ _ => ?_))
  split
  · have := masterRun_within x st q d a b c hfr hf
    revert this
    cases masterRun x st q d a b c with
    | error e => exact fun _ => trivial
    | ok o => exact fun h => ⟨d, hd, h⟩
  · repeat' (with_reducible refine post_bind _ _ _ (fun _ _ => ?_))
    rw [post_ok]
    refine ⟨d, hd, ?_⟩
    unfold walkOut
    dsimp only
    refine walkRows_within _ _ _ _ hfr hf (fun m r => ?_)
    repeat' (with_reducible refine post_bind _ _ _ (fun _ _ => ?_))
    split <;> (rw [post_ok]; simp)
/-- A second walk after one that did not stop (R145). -/
theorem thenWalk_within (x : EngCtx) (d e : Desc) (wk : Walk) (row : Mem → Nat → Except Nat (List (Option Elem))) (st : Mem)
    (h : Within x.lo d.ranges st wk.store) (he : e.from x.lo) (hf : e.fmt ≤ 14) (hr : ∀ m r, Post (fun es => es.length ≤ e.d0) (row m r)) :
    Within x.lo (d.ranges ++ e.ranges) st (if wk.stop ≠ 0 then wk else walkRows x e row wk.store).store := by
  split
  · exact h.mono (by simp +contextual)
  · exact (h.mono (by simp +contextual)).trans ((walkRows_within x e row wk.store he hf hr).mono (by simp +contextual))
/-- REDUCE writes nothing but its destination and, with op MEANVAR, the second output (R145). -/
theorem reduceRun_within (x : EngCtx) (st : Mem) (q : Nat) : Post (fun o => ∃ d rs, loadDesc x.hm x.recipes st (fld q 87 64) = .ok d ∧
    (rs = [] ∨ fld q 163 160 = 4 ∧ ∃ e, loadDesc x.hm x.recipes st (fld q 159 136) = .ok e ∧ rs = e.ranges)
    ∧ Within x.lo (d.ranges ++ rs) st o.store) (reduceRun x st q) := by
  unfold reduceRun
  with_reducible refine post_bind _ _ _ (fun _ _ => post_bind _ _ _ (fun d hd => post_bind _ _ _ (fun a ha => ?_)))
  with_reducible refine post_bind _ _ _ (fun b _ => post_bind _ _ _ (fun e he => post_bind _ _ _ (fun _ hp => ?_)))
  with_reducible refine post_bind _ _ _ (fun _ _ => post_bind _ _ _ (fun _ _ => post_bind _ _ _ (fun _ hpe => ?_)))
  have hfr := vecPlace_from hp
  have hf := loadDesc_fmt hd
  have one : ∀ m, Within x.lo d.ranges st m → Within x.lo (d.ranges ++ []) st m := fun m h => by simpa using h
  with_reducible refine post_bind _ _ _ (fun _ _ => post_bind _ _ _ (fun _ _ => post_bind _ _ _ (fun _ _ => post_bind _ _ _ (fun _ _ => ?_))))
  with_reducible refine post_bind _ _ _ (fun _ _ => post_bind _ _ _ (fun _ hext => ?_))
  repeat' (with_reducible refine post_bind _ _ _ (fun _ _ => ?_))
  have hw : fld q 163 160 = 5 ∨ fld q 163 160 = 6 → a.d0 = d.d0 := by
    intro h
    have := demand_ok hext
    rw [if_pos h] at this
    simp [Desc.sameExt] at this
    exact this.1.1.1.symm
  by_cases h5 : fld q 163 160 = 5
  · rw [if_pos h5]
    dsimp only
    rw [post_ok]
    refine ⟨d, [], hd, Or.inl rfl, one _ ?_⟩
    dsimp only
    refine walkRows_within _ _ _ _ hfr hf (fun m r => ?_)
    cases validLen st a r with
    | error e => exact trivial
    | ok n => simp [bind, Except.bind, Except.map, softmaxRow_length, floats_length, hw (Or.inl h5)]
  · rw [if_neg h5]
    by_cases h6 : fld q 163 160 = 6
    · rw [if_pos h6]
      dsimp only
      rw [post_ok]
      refine ⟨d, [], hd, Or.inl rfl, one _ ?_⟩
      dsimp only
      refine walkRows_within _ _ _ _ hfr hf (fun m r => ?_)
      cases validLen st a r with
      | error e => exact trivial
      | ok n =>
        have := softmaxBwdRow_length (a.floats (x.rd m) r) ((b.map (fun (s : Desc) => s.floats (x.rd m) r)).getD []) n
        rw [floats_length, hw (Or.inr h6)] at this
        simpa [bind, Except.bind, Except.map] using this
    · rw [if_neg h6]
      by_cases h4 : fld q 163 160 = 4
      · rw [if_pos h4]
        dsimp only
        rw [post_ok]
        have hD : ∀ row, (∀ m r, Post (fun es => es.length ≤ d.d0) (row m r)) → Within x.lo d.ranges st (walkRows x d row st).store :=
          fun row hr => walkRows_within _ _ _ _ hfr hf hr
        cases e with
        | some o =>
          have heo : loadDesc x.hm x.recipes st (fld q 159 136) = .ok o := by
            split at he
            · cases he
            · revert he
              cases loadDesc x.hm x.recipes st (fld q 159 136) with
              | error e => exact fun h => by cases h
              | ok d' => intro h; cases h; rfl
          refine ⟨d, o.ranges, hd, Or.inr ⟨h4, o, heo, rfl⟩, ?_⟩
          dsimp only
          refine thenWalk_within x d o _ _ st (hD _ (fun m r => post_bind _ _ _ (fun _ _ => ?_))) (vecPlace_from hpe) (loadDesc_fmt heo)
            (fun m r => ?_)
          · rw [post_ok]; simp
          · rw [post_ok]; simp
        | none =>
          refine ⟨d, [], hd, Or.inl rfl, one _ ?_⟩
          dsimp only
          exact hD _ (fun m r => post_bind _ _ _ (fun _ _ => by rw [post_ok]; simp))
      · rw [if_neg h4]
        by_cases hi : isIntFmt a.fmt = true
        all_goals
          first | rw [if_pos hi] | rw [if_neg hi]
          dsimp only
          rw [post_ok]
          refine ⟨d, [], hd, Or.inl rfl, one _ ?_⟩
          refine walkRows_within _ _ _ _ hfr hf (fun m r => ?_)
          with_reducible refine post_bind _ _ _ (fun _ _ => ?_)
          rw [post_ok]; simp

end Sys2Proof.Machine
end

