-- ==== Sys2Proof/Laws/State.lean ====
section
/-! SUPPORT. One lemma for each part of the state under each of the elementary updates, all by rfl, so that no proof unfolds a record
update; and the two lemmas of each indexed part: what was put is read back, and the others are untouched. -/
namespace Sys2Proof.Machine

@[simp] theorem State.setCl_com (s : State) (c : Fin 64) (k : Cluster) : (s.setCl c k).com = s.com := rfl
@[simp] theorem State.setCl_now (s : State) (c : Fin 64) (k : Cluster) : (s.setCl c k).now = s.now := rfl
@[simp] theorem State.setCl_free (s : State) (c : Fin 64) (k : Cluster) : (s.setCl c k).free = s.free := rfl
@[simp] theorem State.setCl_out (s : State) (c : Fin 64) (k : Cluster) : (s.setCl c k).out = s.out := rfl
@[simp] theorem State.setCl_pending (s : State) (c : Fin 64) (k : Cluster) : (s.setCl c k).pending = s.pending := rfl
@[simp] theorem State.setCl_ports (s : State) (c : Fin 64) (k : Cluster) : (s.setCl c k).ports = s.ports := rfl
@[simp] theorem State.setCl_heats (s : State) (c : Fin 64) (k : Cluster) : (s.setCl c k).heats = s.heats := rfl
@[simp] theorem State.setCl_port (s : State) (c : Fin 64) (k : Cluster) (j : Fin 32) : (s.setCl c k).port j = s.port j := rfl
@[simp] theorem State.setCl_heat (s : State) (c : Fin 64) (k : Cluster) (j : Fin 4) : (s.setCl c k).heat j = s.heat j := rfl
@[simp] theorem State.modCl_com (s : State) (c : Fin 64) (f : Cluster → Cluster) : (s.modCl c f).com = s.com := rfl
@[simp] theorem State.modCl_now (s : State) (c : Fin 64) (f : Cluster → Cluster) : (s.modCl c f).now = s.now := rfl
@[simp] theorem State.modCl_free (s : State) (c : Fin 64) (f : Cluster → Cluster) : (s.modCl c f).free = s.free := rfl
@[simp] theorem State.modCl_out (s : State) (c : Fin 64) (f : Cluster → Cluster) : (s.modCl c f).out = s.out := rfl
@[simp] theorem State.modCl_pending (s : State) (c : Fin 64) (f : Cluster → Cluster) : (s.modCl c f).pending = s.pending := rfl
@[simp] theorem State.modCl_ports (s : State) (c : Fin 64) (f : Cluster → Cluster) : (s.modCl c f).ports = s.ports := rfl
@[simp] theorem State.modCl_heats (s : State) (c : Fin 64) (f : Cluster → Cluster) : (s.modCl c f).heats = s.heats := rfl
@[simp] theorem State.modCl_port (s : State) (c : Fin 64) (f : Cluster → Cluster) (j : Fin 32) : (s.modCl c f).port j = s.port j := rfl
@[simp] theorem State.modCl_heat (s : State) (c : Fin 64) (f : Cluster → Cluster) (j : Fin 4) : (s.modCl c f).heat j = s.heat j := rfl
@[simp] theorem State.setPort_com (s : State) (p : Fin 32) (k : Port) : (s.setPort p k).com = s.com := rfl
@[simp] theorem State.setPort_now (s : State) (p : Fin 32) (k : Port) : (s.setPort p k).now = s.now := rfl
@[simp] theorem State.setPort_free (s : State) (p : Fin 32) (k : Port) : (s.setPort p k).free = s.free := rfl
@[simp] theorem State.setPort_out (s : State) (p : Fin 32) (k : Port) : (s.setPort p k).out = s.out := rfl
@[simp] theorem State.setPort_pending (s : State) (p : Fin 32) (k : Port) : (s.setPort p k).pending = s.pending := rfl
@[simp] theorem State.setPort_clusters (s : State) (p : Fin 32) (k : Port) : (s.setPort p k).clusters = s.clusters := rfl
@[simp] theorem State.setPort_heats (s : State) (p : Fin 32) (k : Port) : (s.setPort p k).heats = s.heats := rfl
@[simp] theorem State.setPort_cl (s : State) (p : Fin 32) (k : Port) (j : Fin 64) : (s.setPort p k).cl j = s.cl j := rfl
@[simp] theorem State.setPort_heat (s : State) (p : Fin 32) (k : Port) (j : Fin 4) : (s.setPort p k).heat j = s.heat j := rfl
@[simp] theorem State.modPort_com (s : State) (p : Fin 32) (f : Port → Port) : (s.modPort p f).com = s.com := rfl
@[simp] theorem State.modPort_now (s : State) (p : Fin 32) (f : Port → Port) : (s.modPort p f).now = s.now := rfl
@[simp] theorem State.modPort_free (s : State) (p : Fin 32) (f : Port → Port) : (s.modPort p f).free = s.free := rfl
@[simp] theorem State.modPort_out (s : State) (p : Fin 32) (f : Port → Port) : (s.modPort p f).out = s.out := rfl
@[simp] theorem State.modPort_pending (s : State) (p : Fin 32) (f : Port → Port) : (s.modPort p f).pending = s.pending := rfl
@[simp] theorem State.modPort_clusters (s : State) (p : Fin 32) (f : Port → Port) : (s.modPort p f).clusters = s.clusters := rfl
@[simp] theorem State.modPort_heats (s : State) (p : Fin 32) (f : Port → Port) : (s.modPort p f).heats = s.heats := rfl
@[simp] theorem State.modPort_cl (s : State) (p : Fin 32) (f : Port → Port) (j : Fin 64) : (s.modPort p f).cl j = s.cl j := rfl
@[simp] theorem State.modPort_heat (s : State) (p : Fin 32) (f : Port → Port) (j : Fin 4) : (s.modPort p f).heat j = s.heat j := rfl
@[simp] theorem State.setHeat_com (s : State) (h : Fin 4) (k : Heat) : (s.setHeat h k).com = s.com := rfl
@[simp] theorem State.setHeat_now (s : State) (h : Fin 4) (k : Heat) : (s.setHeat h k).now = s.now := rfl
@[simp] theorem State.setHeat_free (s : State) (h : Fin 4) (k : Heat) : (s.setHeat h k).free = s.free := rfl
@[simp] theorem State.setHeat_out (s : State) (h : Fin 4) (k : Heat) : (s.setHeat h k).out = s.out := rfl
@[simp] theorem State.setHeat_pending (s : State) (h : Fin 4) (k : Heat) : (s.setHeat h k).pending = s.pending := rfl
@[simp] theorem State.setHeat_clusters (s : State) (h : Fin 4) (k : Heat) : (s.setHeat h k).clusters = s.clusters := rfl
@[simp] theorem State.setHeat_ports (s : State) (h : Fin 4) (k : Heat) : (s.setHeat h k).ports = s.ports := rfl
@[simp] theorem State.setHeat_cl (s : State) (h : Fin 4) (k : Heat) (j : Fin 64) : (s.setHeat h k).cl j = s.cl j := rfl
@[simp] theorem State.setHeat_port (s : State) (h : Fin 4) (k : Heat) (j : Fin 32) : (s.setHeat h k).port j = s.port j := rfl
@[simp] theorem State.modHeat_com (s : State) (h : Fin 4) (f : Heat → Heat) : (s.modHeat h f).com = s.com := rfl
@[simp] theorem State.modHeat_now (s : State) (h : Fin 4) (f : Heat → Heat) : (s.modHeat h f).now = s.now := rfl
@[simp] theorem State.modHeat_free (s : State) (h : Fin 4) (f : Heat → Heat) : (s.modHeat h f).free = s.free := rfl
@[simp] theorem State.modHeat_out (s : State) (h : Fin 4) (f : Heat → Heat) : (s.modHeat h f).out = s.out := rfl
@[simp] theorem State.modHeat_pending (s : State) (h : Fin 4) (f : Heat → Heat) : (s.modHeat h f).pending = s.pending := rfl
@[simp] theorem State.modHeat_clusters (s : State) (h : Fin 4) (f : Heat → Heat) : (s.modHeat h f).clusters = s.clusters := rfl
@[simp] theorem State.modHeat_ports (s : State) (h : Fin 4) (f : Heat → Heat) : (s.modHeat h f).ports = s.ports := rfl
@[simp] theorem State.modHeat_cl (s : State) (h : Fin 4) (f : Heat → Heat) (j : Fin 64) : (s.modHeat h f).cl j = s.cl j := rfl
@[simp] theorem State.modHeat_port (s : State) (h : Fin 4) (f : Heat → Heat) (j : Fin 32) : (s.modHeat h f).port j = s.port j := rfl
@[simp] theorem State.modHu_com (s : State) (h : Fin 4) (f : Hurdle → Hurdle) : (s.modHu h f).com = s.com := rfl
@[simp] theorem State.modHu_now (s : State) (h : Fin 4) (f : Hurdle → Hurdle) : (s.modHu h f).now = s.now := rfl
@[simp] theorem State.modHu_free (s : State) (h : Fin 4) (f : Hurdle → Hurdle) : (s.modHu h f).free = s.free := rfl
@[simp] theorem State.modHu_out (s : State) (h : Fin 4) (f : Hurdle → Hurdle) : (s.modHu h f).out = s.out := rfl
@[simp] theorem State.modHu_pending (s : State) (h : Fin 4) (f : Hurdle → Hurdle) : (s.modHu h f).pending = s.pending := rfl
@[simp] theorem State.modHu_clusters (s : State) (h : Fin 4) (f : Hurdle → Hurdle) : (s.modHu h f).clusters = s.clusters := rfl
@[simp] theorem State.modHu_ports (s : State) (h : Fin 4) (f : Hurdle → Hurdle) : (s.modHu h f).ports = s.ports := rfl
@[simp] theorem State.modHu_cl (s : State) (h : Fin 4) (f : Hurdle → Hurdle) (j : Fin 64) : (s.modHu h f).cl j = s.cl j := rfl
@[simp] theorem State.modHu_port (s : State) (h : Fin 4) (f : Hurdle → Hurdle) (j : Fin 32) : (s.modHu h f).port j = s.port j := rfl
@[simp] theorem State.modCom_now (s : State) (f : Common → Common) : (s.modCom f).now = s.now := rfl
@[simp] theorem State.modCom_free (s : State) (f : Common → Common) : (s.modCom f).free = s.free := rfl
@[simp] theorem State.modCom_out (s : State) (f : Common → Common) : (s.modCom f).out = s.out := rfl
@[simp] theorem State.modCom_pending (s : State) (f : Common → Common) : (s.modCom f).pending = s.pending := rfl
@[simp] theorem State.modCom_clusters (s : State) (f : Common → Common) : (s.modCom f).clusters = s.clusters := rfl
@[simp] theorem State.modCom_ports (s : State) (f : Common → Common) : (s.modCom f).ports = s.ports := rfl
@[simp] theorem State.modCom_heats (s : State) (f : Common → Common) : (s.modCom f).heats = s.heats := rfl
@[simp] theorem State.modCom_cl (s : State) (f : Common → Common) (j : Fin 64) : (s.modCom f).cl j = s.cl j := rfl
@[simp] theorem State.modCom_port (s : State) (f : Common → Common) (j : Fin 32) : (s.modCom f).port j = s.port j := rfl
@[simp] theorem State.modCom_heat (s : State) (f : Common → Common) (j : Fin 4) : (s.modCom f).heat j = s.heat j := rfl
@[simp] theorem State.modMgmt_now (s : State) (f : Mgmt → Mgmt) : (s.modMgmt f).now = s.now := rfl
@[simp] theorem State.modMgmt_free (s : State) (f : Mgmt → Mgmt) : (s.modMgmt f).free = s.free := rfl
@[simp] theorem State.modMgmt_out (s : State) (f : Mgmt → Mgmt) : (s.modMgmt f).out = s.out := rfl
@[simp] theorem State.modMgmt_pending (s : State) (f : Mgmt → Mgmt) : (s.modMgmt f).pending = s.pending := rfl
@[simp] theorem State.modMgmt_clusters (s : State) (f : Mgmt → Mgmt) : (s.modMgmt f).clusters = s.clusters := rfl
@[simp] theorem State.modMgmt_ports (s : State) (f : Mgmt → Mgmt) : (s.modMgmt f).ports = s.ports := rfl
@[simp] theorem State.modMgmt_heats (s : State) (f : Mgmt → Mgmt) : (s.modMgmt f).heats = s.heats := rfl
@[simp] theorem State.modMgmt_cl (s : State) (f : Mgmt → Mgmt) (j : Fin 64) : (s.modMgmt f).cl j = s.cl j := rfl
@[simp] theorem State.modMgmt_port (s : State) (f : Mgmt → Mgmt) (j : Fin 32) : (s.modMgmt f).port j = s.port j := rfl
@[simp] theorem State.modMgmt_heat (s : State) (f : Mgmt → Mgmt) (j : Fin 4) : (s.modMgmt f).heat j = s.heat j := rfl
@[simp] theorem State.modBoot_now (s : State) (f : Boot → Boot) : (s.modBoot f).now = s.now := rfl
@[simp] theorem State.modBoot_free (s : State) (f : Boot → Boot) : (s.modBoot f).free = s.free := rfl
@[simp] theorem State.modBoot_out (s : State) (f : Boot → Boot) : (s.modBoot f).out = s.out := rfl
@[simp] theorem State.modBoot_pending (s : State) (f : Boot → Boot) : (s.modBoot f).pending = s.pending := rfl
@[simp] theorem State.modBoot_clusters (s : State) (f : Boot → Boot) : (s.modBoot f).clusters = s.clusters := rfl
@[simp] theorem State.modBoot_ports (s : State) (f : Boot → Boot) : (s.modBoot f).ports = s.ports := rfl
@[simp] theorem State.modBoot_heats (s : State) (f : Boot → Boot) : (s.modBoot f).heats = s.heats := rfl
@[simp] theorem State.modBoot_cl (s : State) (f : Boot → Boot) (j : Fin 64) : (s.modBoot f).cl j = s.cl j := rfl
@[simp] theorem State.modBoot_port (s : State) (f : Boot → Boot) (j : Fin 32) : (s.modBoot f).port j = s.port j := rfl
@[simp] theorem State.modBoot_heat (s : State) (f : Boot → Boot) (j : Fin 4) : (s.modBoot f).heat j = s.heat j := rfl
@[simp] theorem State.modPw_now (s : State) (f : Power → Power) : (s.modPw f).now = s.now := rfl
@[simp] theorem State.modPw_free (s : State) (f : Power → Power) : (s.modPw f).free = s.free := rfl
@[simp] theorem State.modPw_out (s : State) (f : Power → Power) : (s.modPw f).out = s.out := rfl
@[simp] theorem State.modPw_pending (s : State) (f : Power → Power) : (s.modPw f).pending = s.pending := rfl
@[simp] theorem State.modPw_clusters (s : State) (f : Power → Power) : (s.modPw f).clusters = s.clusters := rfl
@[simp] theorem State.modPw_ports (s : State) (f : Power → Power) : (s.modPw f).ports = s.ports := rfl
@[simp] theorem State.modPw_heats (s : State) (f : Power → Power) : (s.modPw f).heats = s.heats := rfl
@[simp] theorem State.modPw_cl (s : State) (f : Power → Power) (j : Fin 64) : (s.modPw f).cl j = s.cl j := rfl
@[simp] theorem State.modPw_port (s : State) (f : Power → Power) (j : Fin 32) : (s.modPw f).port j = s.port j := rfl
@[simp] theorem State.modPw_heat (s : State) (f : Power → Power) (j : Fin 4) : (s.modPw f).heat j = s.heat j := rfl
@[simp] theorem State.modStore_now (s : State) (f : Storage → Storage) : (s.modStore f).now = s.now := rfl
@[simp] theorem State.modStore_free (s : State) (f : Storage → Storage) : (s.modStore f).free = s.free := rfl
@[simp] theorem State.modStore_out (s : State) (f : Storage → Storage) : (s.modStore f).out = s.out := rfl
@[simp] theorem State.modStore_pending (s : State) (f : Storage → Storage) : (s.modStore f).pending = s.pending := rfl
@[simp] theorem State.modStore_clusters (s : State) (f : Storage → Storage) : (s.modStore f).clusters = s.clusters := rfl
@[simp] theorem State.modStore_ports (s : State) (f : Storage → Storage) : (s.modStore f).ports = s.ports := rfl
@[simp] theorem State.modStore_heats (s : State) (f : Storage → Storage) : (s.modStore f).heats = s.heats := rfl
@[simp] theorem State.modStore_cl (s : State) (f : Storage → Storage) (j : Fin 64) : (s.modStore f).cl j = s.cl j := rfl
@[simp] theorem State.modStore_port (s : State) (f : Storage → Storage) (j : Fin 32) : (s.modStore f).port j = s.port j := rfl
@[simp] theorem State.modStore_heat (s : State) (f : Storage → Storage) (j : Fin 4) : (s.modStore f).heat j = s.heat j := rfl
@[simp] theorem State.modChan_now (s : State) (c : Fin 96) (f : MemChan → MemChan) : (s.modChan c f).now = s.now := rfl
@[simp] theorem State.modChan_free (s : State) (c : Fin 96) (f : MemChan → MemChan) : (s.modChan c f).free = s.free := rfl
@[simp] theorem State.modChan_out (s : State) (c : Fin 96) (f : MemChan → MemChan) : (s.modChan c f).out = s.out := rfl
@[simp] theorem State.modChan_pending (s : State) (c : Fin 96) (f : MemChan → MemChan) : (s.modChan c f).pending = s.pending := rfl
@[simp] theorem State.modChan_clusters (s : State) (c : Fin 96) (f : MemChan → MemChan) : (s.modChan c f).clusters = s.clusters := rfl
@[simp] theorem State.modChan_ports (s : State) (c : Fin 96) (f : MemChan → MemChan) : (s.modChan c f).ports = s.ports := rfl
@[simp] theorem State.modChan_heats (s : State) (c : Fin 96) (f : MemChan → MemChan) : (s.modChan c f).heats = s.heats := rfl
@[simp] theorem State.modChan_cl (s : State) (c : Fin 96) (f : MemChan → MemChan) (j : Fin 64) : (s.modChan c f).cl j = s.cl j := rfl
@[simp] theorem State.modChan_port (s : State) (c : Fin 96) (f : MemChan → MemChan) (j : Fin 32) : (s.modChan c f).port j = s.port j := rfl
@[simp] theorem State.modChan_heat (s : State) (c : Fin 96) (f : MemChan → MemChan) (j : Fin 4) : (s.modChan c f).heat j = s.heat j := rfl
@[simp] theorem State.modMedia_now (s : State) (u : Fin 22) (f : MediaUnit → MediaUnit) : (s.modMedia u f).now = s.now := rfl
@[simp] theorem State.modMedia_free (s : State) (u : Fin 22) (f : MediaUnit → MediaUnit) : (s.modMedia u f).free = s.free := rfl
@[simp] theorem State.modMedia_out (s : State) (u : Fin 22) (f : MediaUnit → MediaUnit) : (s.modMedia u f).out = s.out := rfl
@[simp] theorem State.modMedia_pending (s : State) (u : Fin 22) (f : MediaUnit → MediaUnit) : (s.modMedia u f).pending = s.pending := rfl
@[simp] theorem State.modMedia_clusters (s : State) (u : Fin 22) (f : MediaUnit → MediaUnit) : (s.modMedia u f).clusters = s.clusters := rfl
@[simp] theorem State.modMedia_ports (s : State) (u : Fin 22) (f : MediaUnit → MediaUnit) : (s.modMedia u f).ports = s.ports := rfl
@[simp] theorem State.modMedia_heats (s : State) (u : Fin 22) (f : MediaUnit → MediaUnit) : (s.modMedia u f).heats = s.heats := rfl
@[simp] theorem State.modMedia_cl (s : State) (u : Fin 22) (f : MediaUnit → MediaUnit) (j : Fin 64) : (s.modMedia u f).cl j = s.cl j := rfl
@[simp] theorem State.modMedia_port (s : State) (u : Fin 22) (f : MediaUnit → MediaUnit) (j : Fin 32) : (s.modMedia u f).port j = s.port j := rfl
@[simp] theorem State.modMedia_heat (s : State) (u : Fin 22) (f : MediaUnit → MediaUnit) (j : Fin 4) : (s.modMedia u f).heat j = s.heat j := rfl
@[simp] theorem State.modFeed_now (s : State) (p : Fin 2) (f : FeedPort → FeedPort) : (s.modFeed p f).now = s.now := rfl
@[simp] theorem State.modFeed_free (s : State) (p : Fin 2) (f : FeedPort → FeedPort) : (s.modFeed p f).free = s.free := rfl
@[simp] theorem State.modFeed_out (s : State) (p : Fin 2) (f : FeedPort → FeedPort) : (s.modFeed p f).out = s.out := rfl
@[simp] theorem State.modFeed_pending (s : State) (p : Fin 2) (f : FeedPort → FeedPort) : (s.modFeed p f).pending = s.pending := rfl
@[simp] theorem State.modFeed_clusters (s : State) (p : Fin 2) (f : FeedPort → FeedPort) : (s.modFeed p f).clusters = s.clusters := rfl
@[simp] theorem State.modFeed_ports (s : State) (p : Fin 2) (f : FeedPort → FeedPort) : (s.modFeed p f).ports = s.ports := rfl
@[simp] theorem State.modFeed_heats (s : State) (p : Fin 2) (f : FeedPort → FeedPort) : (s.modFeed p f).heats = s.heats := rfl
@[simp] theorem State.modFeed_cl (s : State) (p : Fin 2) (f : FeedPort → FeedPort) (j : Fin 64) : (s.modFeed p f).cl j = s.cl j := rfl
@[simp] theorem State.modFeed_port (s : State) (p : Fin 2) (f : FeedPort → FeedPort) (j : Fin 32) : (s.modFeed p f).port j = s.port j := rfl
@[simp] theorem State.modFeed_heat (s : State) (p : Fin 2) (f : FeedPort → FeedPort) (j : Fin 4) : (s.modFeed p f).heat j = s.heat j := rfl
@[simp] theorem State.modDrive_now (s : State) (d : Fin 2) (f : Drive → Drive) : (s.modDrive d f).now = s.now := rfl
@[simp] theorem State.modDrive_free (s : State) (d : Fin 2) (f : Drive → Drive) : (s.modDrive d f).free = s.free := rfl
@[simp] theorem State.modDrive_out (s : State) (d : Fin 2) (f : Drive → Drive) : (s.modDrive d f).out = s.out := rfl
@[simp] theorem State.modDrive_pending (s : State) (d : Fin 2) (f : Drive → Drive) : (s.modDrive d f).pending = s.pending := rfl
@[simp] theorem State.modDrive_clusters (s : State) (d : Fin 2) (f : Drive → Drive) : (s.modDrive d f).clusters = s.clusters := rfl
@[simp] theorem State.modDrive_ports (s : State) (d : Fin 2) (f : Drive → Drive) : (s.modDrive d f).ports = s.ports := rfl
@[simp] theorem State.modDrive_heats (s : State) (d : Fin 2) (f : Drive → Drive) : (s.modDrive d f).heats = s.heats := rfl
@[simp] theorem State.modDrive_cl (s : State) (d : Fin 2) (f : Drive → Drive) (j : Fin 64) : (s.modDrive d f).cl j = s.cl j := rfl
@[simp] theorem State.modDrive_port (s : State) (d : Fin 2) (f : Drive → Drive) (j : Fin 32) : (s.modDrive d f).port j = s.port j := rfl
@[simp] theorem State.modDrive_heat (s : State) (d : Fin 2) (f : Drive → Drive) (j : Fin 4) : (s.modDrive d f).heat j = s.heat j := rfl
@[simp] theorem State.useFree_com (s : State) : (s.useFree).com = s.com := rfl
@[simp] theorem State.useFree_now (s : State) : (s.useFree).now = s.now := rfl
@[simp] theorem State.useFree_out (s : State) : (s.useFree).out = s.out := rfl
@[simp] theorem State.useFree_pending (s : State) : (s.useFree).pending = s.pending := rfl
@[simp] theorem State.useFree_clusters (s : State) : (s.useFree).clusters = s.clusters := rfl
@[simp] theorem State.useFree_ports (s : State) : (s.useFree).ports = s.ports := rfl
@[simp] theorem State.useFree_heats (s : State) : (s.useFree).heats = s.heats := rfl
@[simp] theorem State.useFree_cl (s : State) (j : Fin 64) : (s.useFree).cl j = s.cl j := rfl
@[simp] theorem State.useFree_port (s : State) (j : Fin 32) : (s.useFree).port j = s.port j := rfl
@[simp] theorem State.useFree_heat (s : State) (j : Fin 4) : (s.useFree).heat j = s.heat j := rfl
@[simp] theorem State.emit_com (s : State) (o : OutItem) : (s.emit o).com = s.com := rfl
@[simp] theorem State.emit_now (s : State) (o : OutItem) : (s.emit o).now = s.now := rfl
@[simp] theorem State.emit_free (s : State) (o : OutItem) : (s.emit o).free = s.free := rfl
@[simp] theorem State.emit_pending (s : State) (o : OutItem) : (s.emit o).pending = s.pending := rfl
@[simp] theorem State.emit_clusters (s : State) (o : OutItem) : (s.emit o).clusters = s.clusters := rfl
@[simp] theorem State.emit_ports (s : State) (o : OutItem) : (s.emit o).ports = s.ports := rfl
@[simp] theorem State.emit_heats (s : State) (o : OutItem) : (s.emit o).heats = s.heats := rfl
@[simp] theorem State.emit_cl (s : State) (o : OutItem) (j : Fin 64) : (s.emit o).cl j = s.cl j := rfl
@[simp] theorem State.emit_port (s : State) (o : OutItem) (j : Fin 32) : (s.emit o).port j = s.port j := rfl
@[simp] theorem State.emit_heat (s : State) (o : OutItem) (j : Fin 4) : (s.emit o).heat j = s.heat j := rfl
@[simp] theorem State.bump_now (s : State) (g i x n : Nat) : (s.bump g i x n).now = s.now := rfl
@[simp] theorem State.bump_free (s : State) (g i x n : Nat) : (s.bump g i x n).free = s.free := rfl
@[simp] theorem State.bump_out (s : State) (g i x n : Nat) : (s.bump g i x n).out = s.out := rfl
@[simp] theorem State.bump_pending (s : State) (g i x n : Nat) : (s.bump g i x n).pending = s.pending := rfl
@[simp] theorem State.bump_clusters (s : State) (g i x n : Nat) : (s.bump g i x n).clusters = s.clusters := rfl
@[simp] theorem State.bump_ports (s : State) (g i x n : Nat) : (s.bump g i x n).ports = s.ports := rfl
@[simp] theorem State.bump_heats (s : State) (g i x n : Nat) : (s.bump g i x n).heats = s.heats := rfl
@[simp] theorem State.bump_cl (s : State) (g i x n : Nat) (j : Fin 64) : (s.bump g i x n).cl j = s.cl j := rfl
@[simp] theorem State.bump_port (s : State) (g i x n : Nat) (j : Fin 32) : (s.bump g i x n).port j = s.port j := rfl
@[simp] theorem State.bump_heat (s : State) (g i x n : Nat) (j : Fin 4) : (s.bump g i x n).heat j = s.heat j := rfl
@[simp] theorem State.bumpBin_now (s : State) (g i x b : Nat) : (s.bumpBin g i x b).now = s.now := rfl
@[simp] theorem State.bumpBin_free (s : State) (g i x b : Nat) : (s.bumpBin g i x b).free = s.free := rfl
@[simp] theorem State.bumpBin_out (s : State) (g i x b : Nat) : (s.bumpBin g i x b).out = s.out := rfl
@[simp] theorem State.bumpBin_pending (s : State) (g i x b : Nat) : (s.bumpBin g i x b).pending = s.pending := rfl
@[simp] theorem State.bumpBin_clusters (s : State) (g i x b : Nat) : (s.bumpBin g i x b).clusters = s.clusters := rfl
@[simp] theorem State.bumpBin_ports (s : State) (g i x b : Nat) : (s.bumpBin g i x b).ports = s.ports := rfl
@[simp] theorem State.bumpBin_heats (s : State) (g i x b : Nat) : (s.bumpBin g i x b).heats = s.heats := rfl
@[simp] theorem State.bumpBin_cl (s : State) (g i x b : Nat) (j : Fin 64) : (s.bumpBin g i x b).cl j = s.cl j := rfl
@[simp] theorem State.bumpBin_port (s : State) (g i x b : Nat) (j : Fin 32) : (s.bumpBin g i x b).port j = s.port j := rfl
@[simp] theorem State.bumpBin_heat (s : State) (g i x b : Nat) (j : Fin 4) : (s.bumpBin g i x b).heat j = s.heat j := rfl
@[simp] theorem State.setLevel_now (s : State) (g i x : Nat) (v : Int) : (s.setLevel g i x v).now = s.now := rfl
@[simp] theorem State.setLevel_free (s : State) (g i x : Nat) (v : Int) : (s.setLevel g i x v).free = s.free := rfl
@[simp] theorem State.setLevel_out (s : State) (g i x : Nat) (v : Int) : (s.setLevel g i x v).out = s.out := rfl
@[simp] theorem State.setLevel_pending (s : State) (g i x : Nat) (v : Int) : (s.setLevel g i x v).pending = s.pending := rfl
@[simp] theorem State.setLevel_clusters (s : State) (g i x : Nat) (v : Int) : (s.setLevel g i x v).clusters = s.clusters := rfl
@[simp] theorem State.setLevel_ports (s : State) (g i x : Nat) (v : Int) : (s.setLevel g i x v).ports = s.ports := rfl
@[simp] theorem State.setLevel_heats (s : State) (g i x : Nat) (v : Int) : (s.setLevel g i x v).heats = s.heats := rfl
@[simp] theorem State.setLevel_cl (s : State) (g i x : Nat) (v : Int) (j : Fin 64) : (s.setLevel g i x v).cl j = s.cl j := rfl
@[simp] theorem State.setLevel_port (s : State) (g i x : Nat) (v : Int) (j : Fin 32) : (s.setLevel g i x v).port j = s.port j := rfl
@[simp] theorem State.setLevel_heat (s : State) (g i x : Nat) (v : Int) (j : Fin 4) : (s.setLevel g i x v).heat j = s.heat j := rfl
@[simp] theorem State.alert_now (s : State) (b : Nat) : (s.alert b).now = s.now := rfl
@[simp] theorem State.alert_free (s : State) (b : Nat) : (s.alert b).free = s.free := rfl
@[simp] theorem State.alert_out (s : State) (b : Nat) : (s.alert b).out = s.out := rfl
@[simp] theorem State.alert_pending (s : State) (b : Nat) : (s.alert b).pending = s.pending := rfl
@[simp] theorem State.alert_clusters (s : State) (b : Nat) : (s.alert b).clusters = s.clusters := rfl
@[simp] theorem State.alert_ports (s : State) (b : Nat) : (s.alert b).ports = s.ports := rfl
@[simp] theorem State.alert_heats (s : State) (b : Nat) : (s.alert b).heats = s.heats := rfl
@[simp] theorem State.alert_cl (s : State) (b : Nat) (j : Fin 64) : (s.alert b).cl j = s.cl j := rfl
@[simp] theorem State.alert_port (s : State) (b : Nat) (j : Fin 32) : (s.alert b).port j = s.port j := rfl
@[simp] theorem State.alert_heat (s : State) (b : Nat) (j : Fin 4) : (s.alert b).heat j = s.heat j := rfl
@[simp] theorem State.flashPut_now (s : State) (a : Nat) (bs : Bytes) : (s.flashPut a bs).now = s.now := rfl
@[simp] theorem State.flashPut_free (s : State) (a : Nat) (bs : Bytes) : (s.flashPut a bs).free = s.free := rfl
@[simp] theorem State.flashPut_out (s : State) (a : Nat) (bs : Bytes) : (s.flashPut a bs).out = s.out := rfl
@[simp] theorem State.flashPut_pending (s : State) (a : Nat) (bs : Bytes) : (s.flashPut a bs).pending = s.pending := rfl
@[simp] theorem State.flashPut_clusters (s : State) (a : Nat) (bs : Bytes) : (s.flashPut a bs).clusters = s.clusters := rfl
@[simp] theorem State.flashPut_ports (s : State) (a : Nat) (bs : Bytes) : (s.flashPut a bs).ports = s.ports := rfl
@[simp] theorem State.flashPut_heats (s : State) (a : Nat) (bs : Bytes) : (s.flashPut a bs).heats = s.heats := rfl
@[simp] theorem State.flashPut_cl (s : State) (a : Nat) (bs : Bytes) (j : Fin 64) : (s.flashPut a bs).cl j = s.cl j := rfl
@[simp] theorem State.flashPut_port (s : State) (a : Nat) (bs : Bytes) (j : Fin 32) : (s.flashPut a bs).port j = s.port j := rfl
@[simp] theorem State.flashPut_heat (s : State) (a : Nat) (bs : Bytes) (j : Fin 4) : (s.flashPut a bs).heat j = s.heat j := rfl
@[simp] theorem State.flashErase_now (s : State) (a n : Nat) : (s.flashErase a n).now = s.now := rfl
@[simp] theorem State.flashErase_free (s : State) (a n : Nat) : (s.flashErase a n).free = s.free := rfl
@[simp] theorem State.flashErase_out (s : State) (a n : Nat) : (s.flashErase a n).out = s.out := rfl
@[simp] theorem State.flashErase_pending (s : State) (a n : Nat) : (s.flashErase a n).pending = s.pending := rfl
@[simp] theorem State.flashErase_clusters (s : State) (a n : Nat) : (s.flashErase a n).clusters = s.clusters := rfl
@[simp] theorem State.flashErase_ports (s : State) (a n : Nat) : (s.flashErase a n).ports = s.ports := rfl
@[simp] theorem State.flashErase_heats (s : State) (a n : Nat) : (s.flashErase a n).heats = s.heats := rfl
@[simp] theorem State.flashErase_cl (s : State) (a n : Nat) (j : Fin 64) : (s.flashErase a n).cl j = s.cl j := rfl
@[simp] theorem State.flashErase_port (s : State) (a n : Nat) (j : Fin 32) : (s.flashErase a n).port j = s.port j := rfl
@[simp] theorem State.flashErase_heat (s : State) (a n : Nat) (j : Fin 4) : (s.flashErase a n).heat j = s.heat j := rfl
@[simp] theorem State.modCom_com (s : State) (f : Common → Common) : (s.modCom f).com = f s.com := rfl
@[simp] theorem State.modMgmt_com (s : State) (f : Mgmt → Mgmt) : (s.modMgmt f).com = { s.com with mgmt := f s.com.mgmt } := rfl
@[simp] theorem State.modBoot_com (s : State) (f : Boot → Boot) : (s.modBoot f).com = { s.com with boot := f s.com.boot } := rfl
@[simp] theorem State.modPw_com (s : State) (f : Power → Power) : (s.modPw f).com = { s.com with pw := f s.com.pw } := rfl
@[simp] theorem State.modStore_com (s : State) (f : Storage → Storage) : (s.modStore f).com = { s.com with store := f s.com.store } := rfl
@[simp] theorem State.modChan_com (s : State) (c : Fin 96) (f : MemChan → MemChan) : (s.modChan c f).com = { s.com with chans := s.com.chans.set c (f s.com.chans[c]) } := rfl
@[simp] theorem State.modMedia_com (s : State) (u : Fin 22) (f : MediaUnit → MediaUnit) : (s.modMedia u f).com = { s.com with media := s.com.media.set u (f s.com.media[u]) } := rfl
@[simp] theorem State.modFeed_com (s : State) (p : Fin 2) (f : FeedPort → FeedPort) : (s.modFeed p f).com = { s.com with feed := s.com.feed.set p (f s.com.feed[p]) } := rfl
@[simp] theorem State.modDrive_com (s : State) (d : Fin 2) (f : Drive → Drive) : (s.modDrive d f).com = { s.com with store := { s.com.store with drives := s.com.store.drives.set d (f s.com.store.drives[d]) } } := rfl
@[simp] theorem State.bump_com (s : State) (g i x n : Nat) : (s.bump g i x n).com = { s.com with ctrs := ctrAdd s.com.ctrs g i x n } := rfl
@[simp] theorem State.bumpBin_com (s : State) (g i x b : Nat) : (s.bumpBin g i x b).com = { s.com with ctrs := ctrBin s.com.ctrs g i x b } := rfl
@[simp] theorem State.setLevel_com (s : State) (g i x : Nat) (v : Int) : (s.setLevel g i x v).com = { s.com with ctrs := ctrLevel s.com.ctrs g i x v } := rfl
@[simp] theorem State.alert_com (s : State) (b : Nat) : (s.alert b).com = { s.com with pw := { s.com.pw with alert := s.com.pw.alert ||| 2 ^ b } } := rfl
@[simp] theorem State.flashPut_com (s : State) (a : Nat) (bs : Bytes) : (s.flashPut a bs).com = { s.com with boot := { s.com.boot with flash := s.com.boot.flash.put a (bs.map (fun x => x ^^^ 0xFF)) } } := rfl
@[simp] theorem State.flashErase_com (s : State) (a n : Nat) : (s.flashErase a n).com = { s.com with boot := { s.com.boot with flash := s.com.boot.flash.clear a n } } := rfl
@[simp] theorem State.useFree_free (s : State) : s.useFree.free = s.free + 1 := rfl
@[simp] theorem State.emit_out (s : State) (o : OutItem) : (s.emit o).out = s.out ++ [o] := rfl

@[simp] theorem State.cl_setCl_same (s : State) (i : Fin 64) (k : Cluster) : (s.setCl i k).cl i = k := by
  simp [State.cl, State.setCl]
theorem State.cl_setCl_ne (s : State) (i j : Fin 64) (k : Cluster) (h : i ≠ j) : (s.setCl i k).cl j = s.cl j := by
  have : i.val ≠ j.val := fun e => h (Fin.ext e)
  simp [State.cl, State.setCl, this]
theorem State.cl_setCl (s : State) (i j : Fin 64) (k : Cluster) : (s.setCl i k).cl j = if i = j then k else s.cl j := by
  by_cases h : i = j
  · subst h; simp
  · simp [h, State.cl_setCl_ne]
@[simp] theorem State.cl_modCl_same (s : State) (i : Fin 64) (f : Cluster → Cluster) : (s.modCl i f).cl i = f (s.cl i) := by
  simp [State.modCl]
theorem State.cl_modCl_ne (s : State) (i j : Fin 64) (f : Cluster → Cluster) (h : i ≠ j) : (s.modCl i f).cl j = s.cl j := by
  simp [State.modCl, State.cl_setCl_ne _ _ _ _ h]
theorem State.cl_modCl (s : State) (i j : Fin 64) (f : Cluster → Cluster) :
    (s.modCl i f).cl j = if i = j then f (s.cl j) else s.cl j := by
  by_cases h : i = j
  · subst h; simp
  · simp [h, State.cl_modCl_ne]
@[simp] theorem State.port_setPort_same (s : State) (i : Fin 32) (k : Port) : (s.setPort i k).port i = k := by
  simp [State.port, State.setPort]
theorem State.port_setPort_ne (s : State) (i j : Fin 32) (k : Port) (h : i ≠ j) : (s.setPort i k).port j = s.port j := by
  have : i.val ≠ j.val := fun e => h (Fin.ext e)
  simp [State.port, State.setPort, this]
theorem State.port_setPort (s : State) (i j : Fin 32) (k : Port) : (s.setPort i k).port j = if i = j then k else s.port j := by
  by_cases h : i = j
  · subst h; simp
  · simp [h, State.port_setPort_ne]
@[simp] theorem State.port_modPort_same (s : State) (i : Fin 32) (f : Port → Port) : (s.modPort i f).port i = f (s.port i) := by
  simp [State.modPort]
theorem State.port_modPort_ne (s : State) (i j : Fin 32) (f : Port → Port) (h : i ≠ j) : (s.modPort i f).port j = s.port j := by
  simp [State.modPort, State.port_setPort_ne _ _ _ _ h]
theorem State.port_modPort (s : State) (i j : Fin 32) (f : Port → Port) :
    (s.modPort i f).port j = if i = j then f (s.port j) else s.port j := by
  by_cases h : i = j
  · subst h; simp
  · simp [h, State.port_modPort_ne]
@[simp] theorem State.heat_setHeat_same (s : State) (i : Fin 4) (k : Heat) : (s.setHeat i k).heat i = k := by
  simp [State.heat, State.setHeat]
theorem State.heat_setHeat_ne (s : State) (i j : Fin 4) (k : Heat) (h : i ≠ j) : (s.setHeat i k).heat j = s.heat j := by
  have : i.val ≠ j.val := fun e => h (Fin.ext e)
  simp [State.heat, State.setHeat, this]
theorem State.heat_setHeat (s : State) (i j : Fin 4) (k : Heat) : (s.setHeat i k).heat j = if i = j then k else s.heat j := by
  by_cases h : i = j
  · subst h; simp
  · simp [h, State.heat_setHeat_ne]
@[simp] theorem State.heat_modHeat_same (s : State) (i : Fin 4) (f : Heat → Heat) : (s.modHeat i f).heat i = f (s.heat i) := by
  simp [State.modHeat]
theorem State.heat_modHeat_ne (s : State) (i j : Fin 4) (f : Heat → Heat) (h : i ≠ j) : (s.modHeat i f).heat j = s.heat j := by
  simp [State.modHeat, State.heat_setHeat_ne _ _ _ _ h]
theorem State.heat_modHeat (s : State) (i j : Fin 4) (f : Heat → Heat) :
    (s.modHeat i f).heat j = if i = j then f (s.heat j) else s.heat j := by
  by_cases h : i = j
  · subst h; simp
  · simp [h, State.heat_modHeat_ne]
@[simp] theorem State.heat_modHu_same (s : State) (i : Fin 4) (f : Hurdle → Hurdle) :
    (s.modHu i f).heat i = { s.heat i with hu := f (s.heat i).hu } := by
  simp [State.modHu]
theorem State.heat_modHu_ne (s : State) (i j : Fin 4) (f : Hurdle → Hurdle) (h : i ≠ j) : (s.modHu i f).heat j = s.heat j := by
  simp [State.modHu, State.heat_modHeat_ne _ _ _ _ h]

end Sys2Proof.Machine
end

