-- ==== Sys2Proof/Laws/Frame.lean ====
section
/-! SUPPORT. What the held flag's update, the start and the completion of a command change, said once in the terms of Safety.lean. -/
namespace Sys2Proof.Machine

theorem HoldOnly.refl (s : State) : HoldOnly s s := ⟨rfl, fun _ => rfl, fun _ => rfl, rfl, rfl, rfl⟩
theorem HoldOnly.trans {s t u : State} (h : HoldOnly s t) (k : HoldOnly t u) : HoldOnly s u where
  clusters := k.clusters.trans h.clusters
  heats j := by
    rw [k.heats j, h.heats j]; rfl
  ports p := by
    rw [k.ports p, h.ports p]; rfl
  com := by
    rw [k.com, h.com]
  now := k.now.trans h.now
  pending := k.pending.trans h.pending
theorem HoldOnly.cl {s t : State} (h : HoldOnly s t) (c : Fin 64) : t.cl c = s.cl c := by simp [State.cl, h.clusters]
theorem HoldOnly.foldl {α : Type} (f : State → α → State) (xs : List α) (hf : ∀ s a, HoldOnly s (f s a)) (s : State) :
    HoldOnly s (xs.foldl f s) := by
  induction xs generalizing s with
  | nil => exact HoldOnly.refl s
  | cons a xs ih => exact (hf s a).trans (ih _)
theorem holdOnly_ite (c : Prop) {d : Decidable c} {s t u : State} (h : HoldOnly s t) (k : HoldOnly s u) :
    HoldOnly s (if c then t else u) := by
  split
  · exact h
  · exact k

theorem holdOnly_bump (s : State) (g i x n : Nat) : HoldOnly s (s.bump g i x n) :=
  ⟨rfl, fun _ => rfl, fun _ => rfl, rfl, rfl, rfl⟩
theorem holdOnly_emit (s : State) (o : OutItem) : HoldOnly s (s.emit o) :=
  ⟨rfl, fun _ => rfl, fun _ => rfl, rfl, rfl, rfl⟩
theorem holdOnly_setPort (s : State) (p : Fin 32) (k : Port) (h : k = (s.port p).sentAs k) : HoldOnly s (s.setPort p k) where
  clusters := rfl
  heats _ := rfl
  ports q := by
    by_cases hq : q = p
    · subst hq; simpa using h
    · rw [State.port_setPort_ne _ _ _ _ (Ne.symm hq)]; rfl
  com := rfl
  now := rfl
  pending := rfl
theorem holdOnly_hu (s : State) (i : Fin 4) (f : Hurdle → Hurdle) (h : f (s.heat i).hu = (s.heat i).hu.heldAs (f (s.heat i).hu)) :
    HoldOnly s (s.modHu i f) where
  clusters := rfl
  heats j := by
    by_cases hj : j = i
    · subst hj; simp only [State.heat_modHu_same]; rw [← h]
    · rw [State.heat_modHu_ne _ _ _ _ (Ne.symm hj)]; rfl
  ports _ := rfl
  com := rfl
  now := rfl
  pending := rfl

theorem place_sentAs (p : Port) (f : Flit) (seq : Nat) : (p.place f seq).1 = p.sentAs (p.place f seq).1 := rfl
theorem sentAs_trans {a b c : Port} (h : b = a.sentAs b) (k : c = b.sentAs c) : c = a.sentAs c := by
  rw [h] at k; exact k
theorem sendHead_sentAs {p : Port} {v : Fin 4} {r : Port × Nat × Bytes} (h : p.sendHead v = some r) : r.1 = p.sentAs r.1 := by
  unfold Port.sendHead at h
  split at h
  · cases h
  · dsimp only at h
    split at h
    · cases h; split <;> rfl
    · cases h
theorem sendNext_sentAs {p : Port} {r : Port × Nat × Bytes} (h : p.sendNext = some r) : r.1 = p.sentAs r.1 := by
  unfold Port.sendNext at h
  split at h
  · rename_i e; cases h; exact sendHead_sentAs e
  · dsimp only at h
    simp only [Option.map_eq_some_iff] at h
    obtain ⟨a, ha, rfl⟩ := h
    obtain ⟨v, -, hv⟩ := List.exists_of_findSome?_eq_some ha
    simp only [Option.map_eq_some_iff] at hv
    obtain ⟨b, hb, rfl⟩ := hv
    have := sendHead_sentAs hb
    dsimp only
    rw [this]; rfl
/-- Sending lane-frame headers changes nothing but what has left. -/
theorem foldl_emit {α : Type} (f : α → OutItem) (l : List α) (s : State) :
    ∃ o, l.foldl (fun (s : State) a => s.emit (f a)) s = { s with out := o } := by
  induction l generalizing s with
  | nil => exact ⟨s.out, rfl⟩
  | cons a l ih => obtain ⟨o, h⟩ := ih (s.emit (f a)); exact ⟨o, h⟩
theorem holdOnly_sendSlot (s : State) (p : Fin 32) (r : Port × Nat × Bytes) (h : r.1 = (s.port p).sentAs r.1) : HoldOnly s (s.sendSlot p r) := by
  unfold State.sendSlot
  dsimp only
  refine HoldOnly.trans (HoldOnly.trans ?_ (holdOnly_emit _ _)) (holdOnly_bump _ _ _ _ _)
  split
  · obtain ⟨o, e⟩ := foldl_emit (fun l => OutItem.frame p.val l (frameHeader l p.val (s.port p).tx.mask (s.port p).tx.frame))
      (s.port p).lanesUp s
    rw [e]
    have hu : HoldOnly s { s with out := o } := ⟨rfl, fun _ => rfl, fun _ => rfl, rfl, rfl, rfl⟩
    exact hu.trans (holdOnly_setPort _ p _ h)
  · exact holdOnly_setPort s p _ h
theorem holdOnly_pumpN (p : Fin 32) (n : Nat) (s : State) : HoldOnly s (State.pumpN p n s) := by
  induction n generalizing s with
  | zero => exact HoldOnly.refl s
  | succ n ih =>
    unfold State.pumpN
    split
    · exact HoldOnly.refl s
    · rename_i k lane bytes e
      have hk : k = (s.port p).sentAs k := sendNext_sentAs e
      refine HoldOnly.trans (holdOnly_sendSlot s p _ ?_) (ih _)
      dsimp only
      split
      · rw [hk]; rfl
      · exact hk
theorem holdOnly_idleN (p : Fin 32) (n : Nat) (s : State) : HoldOnly s (State.idleN p n s) := by
  induction n generalizing s with
  | zero => exact HoldOnly.refl s
  | succ n ih =>
    unfold State.idleN
    dsimp only
    split
    · exact (holdOnly_sendSlot s p _ (place_sentAs _ _ _)).trans (ih _)
    · exact HoldOnly.refl s
theorem holdOnly_pump (s : State) (p : Fin 32) : HoldOnly s (s.pump p) := (holdOnly_pumpN _ _ _).trans (holdOnly_idleN _ _ _)
theorem holdOnly_sendRouted (s : State) (hi : Fin 4) (type dest : Nat) (pay : Bytes) : HoldOnly s (s.sendRouted hi type dest pay) := by
  unfold State.sendRouted
  dsimp only
  split
  · exact HoldOnly.refl s
  · split
    · exact HoldOnly.refl s
    · exact (holdOnly_setPort _ _ _ rfl).trans (holdOnly_pump _ _)
theorem holdOnly_sendParent (s : State) (hi : Fin 4) (m : HMsg) : HoldOnly s (s.sendParent hi m) := by
  unfold State.sendParent
  split
  · exact holdOnly_sendRouted _ _ _ _ _
  · exact HoldOnly.refl s
theorem holdOnly_linkCtl (s : State) (p : Fin 32) (pay : Bytes) : HoldOnly s (s.linkCtl p pay) :=
  (holdOnly_setPort _ _ _ rfl).trans (holdOnly_pump _ _)
theorem holdOnly_useFree (s : State) : HoldOnly s s.useFree := ⟨rfl, fun _ => rfl, fun _ => rfl, rfl, rfl, rfl⟩
theorem holdOnly_offerTable (s : State) (p : Fin 32) : HoldOnly s (s.offerTable p) := by
  unfold State.offerTable
  dsimp only
  split
  · split
    · split
      · exact (((holdOnly_setPort s p _ rfl).trans (holdOnly_useFree _)).trans (holdOnly_linkCtl _ _ _)).trans (holdOnly_bump _ _ _ _ _)
      · exact holdOnly_useFree s
    · exact holdOnly_useFree s
  · exact holdOnly_useFree s
/-- A block given to a port changes that port's transmitter and counts. -/
theorem holdOnly_queueBlock (s : State) (p : Fin 32) (hdr : Nat) (raw : Bytes) (check : Nat) (fails : List Nat) (framed : Bytes × Option Nat) :
    HoldOnly s (s.queueBlock p hdr raw check fails framed) := by
  unfold State.queueBlock
  dsimp only
  exact ((((holdOnly_setPort s p _ rfl).trans (holdOnly_bump _ _ _ _ _)).trans (holdOnly_bump _ _ _ _ _)).trans (holdOnly_offerTable _ _)).trans (holdOnly_pump _ _)
theorem holdOnly_sendBlock (s : State) (p : Fin 32) (hdr : Nat) (raw : Bytes) (check cls : Nat) : HoldOnly s (s.sendBlock p hdr raw check cls) :=
  holdOnly_queueBlock _ _ _ _ _ _ _
theorem holdOnly_resendBlock (s : State) (p : Fin 32) (r : RawCopy) (fails : List Nat) : HoldOnly s (s.resendBlock p r fails) :=
  holdOnly_queueBlock _ _ _ _ _ _ _
theorem holdOnly_closeHold (s : State) (hi : Fin 4) : HoldOnly s (s.closeHold hi) := by
  unfold State.closeHold
  split
  · exact HoldOnly.refl s
  · exact (holdOnly_hu _ _ _ rfl).trans (holdOnly_bump _ _ _ _ _)
/-- The update of a held flag changes nothing but the flag's bookkeeping, what it sends and counts (R265). -/
theorem holdOnly_refreshHeld (s : State) (hi : Fin 4) : HoldOnly s (s.refreshHeld hi) := by
  unfold State.refreshHeld
  dsimp only
  split
  · exact HoldOnly.refl s
  · refine holdOnly_ite _ (HoldOnly.refl s) ?_
    have h1 : HoldOnly s (if s.subtreeHeld hi ‹_› then (if (s.heat hi).hu.heldSince.isSome then s else
        s.modHu hi (fun u => { u with heldSince := some s.now, heldHangs := 0 })) else s.closeHold hi) :=
      holdOnly_ite _ (holdOnly_ite _ (HoldOnly.refl s) (holdOnly_hu _ _ _ rfl)) (holdOnly_closeHold _ _)
    exact holdOnly_ite _ h1 ((h1.trans (holdOnly_hu _ _ _ rfl)).trans (holdOnly_sendParent _ _ _))
/-- A REQUEST of a module that is not the root sends one flit (R262). -/
theorem holdOnly_request (s : State) (i : Fin 4) (r st : Nat) (h : (s.heat i).isRoot = false) : HoldOnly s (s.request i r st) := by
  unfold State.request
  dsimp only
  split
  · exact HoldOnly.refl s
  · rw [h]
    simp only [Bool.false_eq_true, if_false]
    split
    · exact holdOnly_sendRouted _ _ _ _ _
    · exact HoldOnly.refl s

/-! A command of the matrix or vector queue that ends with OK. -/

theorem takeChans_only (h : Heat) (own raw : Nat) : h.takeChans own raw = { h with chans := (h.takeChans own raw).chans } := by
  unfold Heat.takeChans Heat.modChan
  dsimp only
  split <;> split <;> (try split) <;> (try split) <;> rfl
theorem giveChans_only (h : Heat) (own raw : Nat) : h.giveChans own raw = { h with chans := (h.giveChans own raw).chans } := by
  unfold Heat.giveChans Heat.modChan
  dsimp only
  split <;> split <;> (try split) <;> (try split) <;> rfl
theorem takeHalo_only (h : Heat) (is : List (Option (Option Nat))) : h.takeHalo is = { h with chans := (h.takeHalo is).chans } := by
  unfold Heat.takeHalo
  induction is generalizing h with
  | nil => rfl
  | cons i is ih =>
    simp only [List.foldl_cons]
    rw [ih]
    split <;> rfl
theorem giveHalo_only (h : Heat) (is : List (Option (Option Nat))) : h.giveHalo is = { h with chans := (h.giveHalo is).chans } := by
  unfold Heat.giveHalo
  induction is generalizing h with
  | nil => rfl
  | cons i is ih =>
    simp only [List.foldl_cons]
    rw [ih]
    split <;> rfl
/-- Taking and returning slots changes no channel's definition. -/
def SameDefs (h g : Heat) : Prop := g = { h with chans := g.chans } ∧ g.chans.map Chan.def_ = h.chans.map Chan.def_
theorem SameDefs.trans {a b c : Heat} (h : SameDefs a b) (k : SameDefs b c) : SameDefs a c :=
  ⟨by rw [k.1, h.1], k.2.trans h.2⟩
theorem modChan_defs (h : Heat) (i : Nat) (f : Chan → Chan) (hf : ∀ c, (f c).def_ = c.def_) : SameDefs h (h.modChan i f) := by
  refine ⟨rfl, List.ext_getElem? (fun n => ?_)⟩
  simp only [Heat.modChan, List.getElem?_map, List.getElem?_modify]
  cases h.chans[n]? with
  | none => rfl
  | some c => simp only [Option.map_some]; split <;> simp [hf]
theorem takeChans_defs (h : Heat) (own raw : Nat) : SameDefs h (h.takeChans own raw) := by
  have h0 : SameDefs h h := ⟨rfl, rfl⟩
  unfold Heat.takeChans
  dsimp only
  repeat' split
  all_goals first
    | exact h0
    | exact modChan_defs _ _ _ (fun _ => rfl)
    | exact SameDefs.trans (modChan_defs h _ (fun c => { c with taken := c.taken + 1 }) (fun _ => rfl)) (modChan_defs _ _ _ (fun _ => rfl))
theorem takeHalo_defs (h : Heat) (is : List (Option (Option Nat))) : SameDefs h (h.takeHalo is) := by
  unfold Heat.takeHalo
  induction is generalizing h with
  | nil => exact ⟨rfl, rfl⟩
  | cons i is ih =>
    simp only [List.foldl_cons]
    refine SameDefs.trans ?_ (ih _)
    split
    · exact modChan_defs _ _ _ (fun _ => rfl)
    · exact ⟨rfl, rfl⟩
/-- Which channel a consumer names depends on the definitions alone. -/
theorem waitChan_defs {h g : Heat} (e : SameDefs h g) (own id : Nat) : g.waitChan own id = h.waitChan own id := by
  obtain ⟨a, b⟩ := e
  have key : ∀ k : Heat, k.waitChan own id = (k.chans.map Chan.def_).findIdx? (fun c => k.runs c.cons == own && c.consId == id) := by
    intro k; unfold Heat.waitChan; rw [List.findIdx?_map]; rfl
  rw [key, key, b, a]; rfl
theorem haloChan_defs {h g : Heat} (e : SameDefs h g) (own raw : Nat) (hi : Bool) : haloChan g own raw hi = haloChan h own raw hi := by
  unfold haloChan; rw [waitChan_defs e]
theorem haloSlot_defs {h g : Heat} (e : SameDefs h g) (i : Option (Option Nat)) : haloSlot g i = haloSlot h i := by
  unfold haloSlot
  split
  · rfl
  · rfl
  · rename_i k
    have := congrArg (fun l => l[k]?) e.2
    simp only [List.getElem?_map] at this
    cases hg : g.chans[k]? with
    | none => cases hh : h.chans[k]? with
      | none => rfl
      | some c => rw [hg, hh] at this; cases this
    | some d => cases hh : h.chans[k]? with
      | none => rw [hg, hh] at this; cases this
      | some c => rw [hg, hh] at this; simp only [Option.map_some, Option.some.injEq] at this; simp [this]
/-- What an engine leaves of its cluster at the end: a store, a summary queue, and contents the spec does not state. -/
def Cluster.engineOut (k : Cluster) (store : Mem) (acc : Accs) (rowBuf : AccState) (sums : List Word) : Cluster :=
  { k with store := store, acc := acc, rowBuf := rowBuf, core := { k.core with sums := sums } }

/-- The end latch puts one record in the ring and counts, and nothing else (R411, R412). -/
theorem record_shape (s : State) (c : Fin 64) (q : Fin 4) (e : QEntry) (st : Nat) : ∃ (r : SplitRec) (ctrs : List (Nat × Nat)),
    s.record c q e st = { s.setCl c ((s.cl c).addSplit r) with free := s.free + 3, com := { s.com with ctrs := ctrs } } ∧
    r.seq = (s.cl c).splitSeq ∧ r.cmdId = fld e.raw 47 32 ∧ r.opcode = cmdOp e.raw ∧
    r.queue = q.val ∧ r.startT = e.startT ∧ r.endT = s.ticks ∧ r.status = st := by
  unfold State.record State.bumpBin State.bump State.modCom
  exact ⟨_, _, rfl, rfl, rfl, rfl, rfl, rfl, rfl, rfl⟩
theorem addSplit_last (k : Cluster) (r : SplitRec) : (k.addSplit r).splits.getLast? = some r := by
  unfold Cluster.addSplit; simp

/-- A state that an engine has left between the start of a command and its completion. -/
structure Between (s u : State) (c : Fin 64) (q : Fin 4) (x : Site) (e : QEntry) (halos : List (Option (Option Nat)))
    (k : Cluster) : Prop where
  cl : u.cl c = k
  others : ∀ d, d ≠ c → u.cl d = s.cl d
  heats : ∀ j, u.heat j = if j = x.h then (((s.heat j).takeChans x.own e.raw).takeHalo halos).giveHalo halos else s.heat j
  ports : u.ports = s.ports
  com : u.com = { s.com with ctrs := u.com.ctrs }
  now : u.now = s.now
  pending : u.pending = s.pending
/-- The start of a command latches it, takes its slots and tokens, and nothing else. -/
theorem start_between (s : State) (c : Fin 64) (q : Fin 4) (x : Site) (e : QEntry) :
    Between s (s.startCommand c q x e).1 c q x e [] ((s.cl c).setHead q (s.latch c e)) := by
  unfold State.startCommand
  refine ⟨?_, ?_, ?_, rfl, rfl, rfl, rfl⟩
  · simp
  · intro d hd; simp [State.cl_modCl_ne _ _ _ _ hd.symm]
  · intro j
    simp only [State.modCl_heat, State.heat_modHeat]
    by_cases h : x.h = j
    · rw [if_pos h, if_pos h.symm]; rfl
    · rw [if_neg h, if_neg (Ne.symm h)]
theorem start_free (s : State) (c : Fin 64) (q : Fin 4) (x : Site) (e : QEntry) : (s.startCommand c q x e).1.free = s.free := rfl
theorem start_entry (s : State) (c : Fin 64) (q : Fin 4) (x : Site) (e : QEntry) : (s.startCommand c q x e).2 = s.latch c e := rfl
/-- An engine writes its output into the cluster, halo slots are taken and returned, between start and completion. -/
theorem Between.out {s u : State} {c : Fin 64} {q : Fin 4} {x : Site} {e : QEntry} {k : Cluster} {halos : List (Option (Option Nat))}
    (h : Between s u c q x e halos k) (f : Cluster → Cluster) (n : Nat) :
    Between s { (u.modCl c f) with free := n } c q x e halos (f k) where
  cl := by
    have : ({ (u.modCl c f) with free := n } : State).cl c = (u.modCl c f).cl c := rfl
    rw [this, State.cl_modCl_same, h.cl]
  others d hd := by
    have : ({ (u.modCl c f) with free := n } : State).cl d = (u.modCl c f).cl d := rfl
    rw [this, State.cl_modCl_ne _ _ _ _ hd.symm, h.others d hd]
  heats := h.heats
  ports := h.ports
  com := h.com
  now := h.now
  pending := h.pending
/-- The address map of a heat does not depend on its channels. -/
theorem heatMap_chans (s u : State) (h : Heat) (cs : List Chan) (p : Program) (hb : u.com.boot = s.com.boot) :
    u.heatMap { h with chans := cs } p = s.heatMap h p := by
  unfold State.heatMap State.programTop State.mediaBase State.partnerBase State.usableTop State.capacity State.positionBytes State.reserve
  rw [hb]; rfl
/-- The channels of the heat in which an engine runs have their definitions. -/
theorem Between.defs {s u : State} {c : Fin 64} {q : Fin 4} {x : Site} {e : QEntry} {k : Cluster}
    (h : Between s u c q x e [] k) : SameDefs (s.heat x.h) (u.heat x.h) := by
  have := h.heats x.h
  rw [if_pos rfl] at this
  rw [this]
  exact takeChans_defs _ _ _
/-- What an engine reads does not change between the start of its command and its completion. -/
theorem Between.engCtx {s u : State} {c : Fin 64} {q : Fin 4} {x : Site} {e : QEntry} {k : Cluster} {halos : List (Option (Option Nat))}
    (h : Between s u c q x e halos k) (hf : k.fnTab = (s.cl c).fnTab) : u.engCtx c x = s.engCtx c x := by
  have hh := h.heats x.h
  rw [if_pos rfl, giveHalo_only, takeHalo_only, takeChans_only] at hh
  have hb : u.com.boot = s.com.boot := by rw [h.com]
  unfold State.engCtx
  dsimp only
  rw [h.cl, hf, hh, heatMap_chans s u _ _ _ hb]
  rfl
/-- Taking and returning halo slots between start and completion (R122). -/
theorem Between.halo {s u : State} {c : Fin 64} {q : Fin 4} {x : Site} {e : QEntry} {k : Cluster} (halos : List (Option (Option Nat)))
    (h : Between s u c q x e [] k) :
    Between s ((u.modHeat x.h (fun h => h.takeHalo halos)).modHeat x.h (fun h => h.giveHalo halos)) c q x e halos k where
  cl := h.cl
  others := h.others
  heats j := by
    simp only [State.heat_modHeat]
    have := h.heats j
    by_cases hj : x.h = j
    · rw [if_pos hj, if_pos hj, this, if_pos hj.symm, if_pos hj.symm]; rfl
    · rw [if_neg hj, if_neg hj, this, if_neg (Ne.symm hj), if_neg (Ne.symm hj)]
  ports := h.ports
  com := h.com
  now := h.now
  pending := h.pending
theorem engCtx_takeHalo (u : State) (c : Fin 64) (x : Site) (halos : List (Option (Option Nat))) :
    (u.modHeat x.h (fun h => h.takeHalo halos)).engCtx c x = u.engCtx c x := by
  unfold State.engCtx
  dsimp only
  rw [State.heat_modHeat_same, takeHalo_only, heatMap_chans u _ _ _ _ rfl]
  rfl
/-- The completion of a command puts one record in the ring, takes the command off its queue, gives its channels back and counts. -/
structure Finished (u w : State) (c : Fin 64) (q : Fin 4) (x : Site) (e : QEntry) (r : SplitRec) : Prop where
  cl : w.cl c = (((u.cl c).addSplit r).popHead q).noteDone q e u.now
  others : ∀ d, d ≠ c → w.cl d = u.cl d
  heats : ∀ j, w.heat j = if j = x.h then (u.heat j).giveChans x.own e.raw else u.heat j
  ports : w.ports = u.ports
  com : w.com = { u.com with ctrs := w.com.ctrs }
  now : w.now = u.now
  pending : w.pending = u.pending
theorem complete_finished (u : State) (c : Fin 64) (q : Fin 4) (x : Site) (e : QEntry) : ∃ r : SplitRec,
    Finished u (u.complete c q x e) c q x e r ∧ r.seq = (u.cl c).splitSeq ∧ r.cmdId = fld e.raw 47 32 ∧ r.opcode = cmdOp e.raw ∧
    r.queue = q.val ∧ r.startT = e.startT ∧ r.endT = u.ticks ∧ r.status = 0 := by
  obtain ⟨r, ctrs, hr, hs⟩ := record_shape u c q e 0
  refine ⟨r, ?_, hs⟩
  unfold State.complete
  dsimp only
  rw [hr]
  have hc : ∀ d, ({ u.setCl c ((u.cl c).addSplit r) with free := u.free + 3, com := { u.com with ctrs := ctrs } } : State).cl d =
      (u.setCl c ((u.cl c).addSplit r)).cl d := fun _ => rfl
  have hj : ∀ d, ({ u.setCl c ((u.cl c).addSplit r) with free := u.free + 3, com := { u.com with ctrs := ctrs } } : State).heat d =
      u.heat d := fun _ => rfl
  refine ⟨?_, ?_, ?_, rfl, rfl, rfl, rfl⟩
  · rw [State.bump_cl, State.cl_modCl_same, State.modHeat_cl, hc, State.cl_setCl_same]; rfl
  · intro d hd
    rw [State.bump_cl, State.cl_modCl_ne _ _ _ _ hd.symm, State.modHeat_cl, hc, State.cl_setCl_ne _ _ _ _ hd.symm]
  · intro j
    rw [State.bump_heat, State.modCl_heat, State.heat_modHeat, hj]
    by_cases h : x.h = j
    · rw [if_pos h, if_pos h.symm]
    · rw [if_neg h, if_neg (Ne.symm h)]
theorem heat_chansHeld {h b : Heat} {cs : List Chan} {v : Hurdle} (e : h = { b with chans := cs, hu := b.hu.heldAs v }) :
    h = { b with chans := h.chans, hu := b.hu.heldAs h.hu } := by
  subst e; rfl
/-- A command that completes after an engine has left its cluster with the output of a matrix or vector command. -/
theorem engine_done (s u : State) (c : Fin 64) (q : Fin 4) (x : Site) (e : QEntry) (store : Mem) (acc : Accs) (rowBuf : AccState) (sums : List Word)
    (halos : List (Option (Option Nat))) (hb : Between s u c q x e halos (((s.cl c).setHead q (s.latch c e)).engineOut store acc rowBuf sums)) :
    let t := (u.complete c q x (s.latch c e)).refreshHeld x.h
    CommandDone s t c q x e halos ∧ EngineFrame s t c x ∧ (t.cl c).store = store ∧ (t.cl c).core.sums = sums ∧
      (t.cl c).acc = acc ∧ (t.cl c).rowBuf = rowBuf := by
  intro t
  have hh : HoldOnly (u.complete c q x (s.latch c e)) t := holdOnly_refreshHeld _ x.h
  obtain ⟨r, hf, h1, h2, h3, h4, h5, h6, h7⟩ := complete_finished u c q x (s.latch c e)
  revert hh hf
  generalize u.complete c q x (s.latch c e) = w
  intro hh hf
  clear_value t
  have hcl : t.cl c = (((((s.cl c).setHead q (s.latch c e)).engineOut store acc rowBuf sums).addSplit r).popHead q).noteDone q (s.latch c e) s.now := by
    rw [hh.cl, hf.cl, hb.cl, hb.now]
  have hheat : ∀ j, w.heat j = if j = x.h then
      ((((s.heat j).takeChans x.own e.raw).takeHalo halos).giveHalo halos).giveChans x.own e.raw else s.heat j := by
    intro j
    rw [hf.heats, hb.heats]
    split <;> rfl
  have hticks : u.ticks = s.ticks := by simp [State.ticks, hb.now]
  refine ⟨⟨?_, ?_, ⟨r, ?_, ?_, h2, h3, h4, h5, h6.trans hticks, h7⟩, ?_, ?_⟩, ⟨?_, ?_, ?_, ?_, ?_, ?_, ?_⟩, ?_, ?_, ?_, ?_⟩
  · rw [hcl]; simp [Cluster.noteDone, Cluster.popHead, Cluster.addSplit, Cluster.engineOut, Cluster.setHead]
  · rw [hcl]; simp [Cluster.noteDone, Cluster.popHead, Cluster.addSplit, Cluster.engineOut, Cluster.setHead, State.latch]
  · rw [hcl]; exact addSplit_last _ _
  · rw [h1, hb.cl]; rfl
  · rw [hcl]; rfl
  · rw [hh.heats, hheat, if_pos rfl]
  · intro d hd
    rw [hh.cl, hf.others d hd, hb.others d hd]
  · rw [hcl]; rfl
  · intro j
    have hw := hh.heats j
    by_cases hj : j = x.h
    · rw [hheat, if_pos hj, giveChans_only, giveHalo_only, takeHalo_only, takeChans_only] at hw
      rw [if_pos hj]; exact heat_chansHeld hw
    · rw [hheat, if_neg hj] at hw
      rw [if_neg hj]; exact hw
  · intro p
    rw [hh.ports]
    have : w.port p = s.port p := by simp only [State.port, hf.ports, hb.ports]
    rw [this]; rfl
  · rw [hh.com, hf.com, hb.com]
  · rw [hh.now, hf.now, hb.now]
  · rw [hh.pending, hf.pending, hb.pending]
  · rw [hcl]; rfl
  · rw [hcl]; rfl
  · rw [hcl]; rfl
  · rw [hcl]; rfl

end Sys2Proof.Machine
end

