-- ==== Sys2Proof/Laws/Space.lean ====
section
/-! SUPPORT. What the mover leaves alone: every place that the ranges it stores to do not hold. -/
namespace Sys2Proof.Machine

/-- Between two memories of one heat only places for which R fails may differ. -/
structure Space.Leaves (R : Place → Prop) (sp t : Space) : Prop where
  hm : t.hm = sp.hm
  own : t.own = sp.own
  staging : t.staging = sp.staging
  stores : t.stores.length = sp.stores.length
  same : ∀ l, R l → t.at l = sp.at l

theorem Space.Leaves.refl (R : Place → Prop) (sp : Space) : Space.Leaves R sp sp := ⟨rfl, rfl, rfl, rfl, fun _ _ => rfl⟩
theorem Space.Leaves.trans {R : Place → Prop} {a b c : Space} (h : Space.Leaves R a b) (k : Space.Leaves R b c) : Space.Leaves R a c :=
  ⟨k.hm.trans h.hm, k.own.trans h.own, k.staging.trans h.staging, k.stores.trans h.stores, fun l hl => (k.same l hl).trans (h.same l hl)⟩

/-- The place of a region. -/
def Region.place : Region → Option Place
  | .mem m | .sample m => some (.mem m)
  | .store c o => some (.store c o)
  | .scratch o => some (.scratch o)
  | .fnTab _ o => some (.table o)
  | _ => Option.none
theorem placeOf_region (hm : HeatMap) (a : Nat) : placeOf hm a = (regionOf hm a).place := by
  unfold placeOf Region.place
  cases regionOf hm a <;> rfl
/-- A place moved on. -/
def Place.shift (i : Nat) : Place → Place
  | .mem m => .mem (m + i)
  | .store c o => .store c (o + i)
  | .scratch o => .scratch (o + i)
  | .table o => .table (o + i)

theorem leaves_putIn (R : Place → Prop) (sp : Space) (r : Region) (bs : Bytes)
    (h : ∀ l, R l → ∀ i < bs.length, r.place.map (Place.shift i) ≠ some l) : Space.Leaves R sp (sp.putIn r bs) := by
  have key : ∀ m a : Nat, (∀ i < bs.length, a + i ≠ m) → m < a ∨ a + bs.length ≤ m := by
    intro m a hk
    by_cases h1 : m < a
    · exact Or.inl h1
    · refine Or.inr (Nat.le_of_not_lt (fun h2 => hk (m - a) (by omega) (by omega)))
  unfold Space.putIn
  split
  · refine ⟨rfl, rfl, rfl, rfl, fun l hl => ?_⟩
    cases l with
    | mem x => exact Mem.read_put_out _ _ _ _ (key _ _ (fun i hi e => h _ hl i hi (by simp [Region.place, Place.shift, e])))
    | _ => rfl
  · refine ⟨rfl, rfl, rfl, rfl, fun l hl => ?_⟩
    cases l with
    | mem x => exact Mem.read_put_out _ _ _ _ (key _ _ (fun i hi e => h _ hl i hi (by simp [Region.place, Place.shift, e])))
    | _ => rfl
  · rename_i c o
    refine ⟨rfl, rfl, rfl, by simp, fun l hl => ?_⟩
    cases l with
    | store d x =>
      show ((sp.stores.modify c (fun m => m.put o bs)).getD d []).read x = (sp.stores.getD d []).read x
      rw [List.getD_eq_getElem?_getD, List.getD_eq_getElem?_getD, List.getElem?_modify]
      by_cases hc : c = d
      · subst hc
        cases hm : sp.stores[c]? with
        | none => simp
        | some m =>
          simp only [if_true, Option.getD_some]
          exact Mem.read_put_out _ _ _ _ (key _ _ (fun i hi e => h _ hl i hi (by simp [Region.place, Place.shift, e])))
      · simp [hc]
    | _ => rfl
  · refine ⟨rfl, rfl, rfl, rfl, fun l hl => ?_⟩
    cases l with
    | scratch x => exact Mem.read_put_out _ _ _ _ (key _ _ (fun i hi e => h _ hl i hi (by simp [Region.place, Place.shift, e])))
    | _ => rfl
  · refine ⟨rfl, rfl, rfl, rfl, fun l hl => ?_⟩
    cases l with
    | table x => exact Mem.read_put_out _ _ _ _ (key _ _ (fun i hi e => h _ hl i hi (by simp [Region.place, Place.shift, e])))
    | _ => rfl
  · exact Space.Leaves.refl R sp

theorem untouched_shift {hm : HeatMap} {a n : Nat} {l : Place} (h : Untouched hm [(a, n)] l) : ∀ i < n, placeOf hm (a + i) ≠ some l :=
  h _ (List.mem_singleton.mpr rfl)
theorem leaves_putBytes (R : Place → Prop) (hm : HeatMap) (a : Nat) (bs : Bytes) (h : ∀ l, R l → Untouched hm [(a, bs.length)] l) (sp : Space)
    (hs : sp.hm = hm) : Space.Leaves R sp (sp.putBytes a bs) := by
  induction bs generalizing a sp with
  | nil => exact Space.Leaves.refl R sp
  | cons b bs ih =>
    have h1 : Space.Leaves R sp (sp.putIn (regionOf sp.hm a) [b]) := by
      refine leaves_putIn R sp _ _ (fun l hl i hi => ?_)
      have hi0 : i = 0 := by simp at hi; exact hi
      subst hi0
      have := untouched_shift (h l hl) 0 (by simp)
      rw [placeOf_region] at this
      rw [hs]
      intro e
      refine this ?_
      cases hp : (regionOf hm a).place with
      | none => rw [hp] at e; cases e
      | some p =>
        rw [hp] at e
        rw [← e]
        cases p <;> rfl
    refine h1.trans (ih (a + 1) (fun l hl => ?_) _ (h1.hm.trans hs))
    intro r hr i hi
    rw [List.mem_singleton] at hr
    subst hr
    have := untouched_shift (h l hl) (i + 1) (by simp at hi ⊢; omega)
    rw [show a + 1 + i = a + (i + 1) by omega]; exact this

theorem memRegion_place (hm : HeatMap) (m m' i : Nat) (h : memRegion hm (m + i) = .mem m') : ∀ j ≤ i, (memRegion hm (m + j)).place = some (.mem (m + j)) := by
  intro j hj
  have : ¬ hm.programTop ≤ m + i := by
    intro hp
    unfold memRegion at h
    rw [if_pos hp] at h; cases h
  have h2 : ¬ hm.programTop ≤ m + j := by omega
  unfold memRegion
  rw [if_neg h2]
  split <;> rfl
theorem memRegion_mem (hm : HeatMap) (a m : Nat) (h : memRegion hm a = .mem m) : m = a := by
  unfold memRegion at h
  split at h
  · cases h
  · split at h
    · cases h
    · cases h; rfl
theorem regionOf_mem (hm : HeatMap) (a m : Nat) (h : regionOf hm a = .mem m) :
    (a < storeWin ∧ memRegion hm a = .mem m) ∨
    (aliasWin ≤ a ∧ a < 2 ^ 48 ∧ feedWin + hm.feedShare * 0x100000 ≤ a ∧ memRegion hm (a - aliasWin) = .mem m) := by
  unfold regionOf at h
  split at h
  · exact Or.inl ⟨‹_›, h⟩
  · dsimp only at h
    repeat' split at h
    all_goals first | cases h | refine Or.inr ⟨by simp_all, by simp_all, ?_, h⟩
    simp only [Bool.and_eq_true, decide_eq_true_eq, not_and, Nat.not_lt] at *
    unfold aliasWin feedWin at *
    omega
theorem regionOf_alias (hm : HeatMap) (a : Nat) (h1 : aliasWin ≤ a) (h2 : a < 2 ^ 48) (h3 : feedWin + hm.feedShare * 0x100000 ≤ a) :
    regionOf hm a = memRegion hm (a - aliasWin) := by
  unfold regionOf
  unfold aliasWin at *
  unfold feedWin at *
  rw [if_neg (by unfold storeWin; omega), if_neg (by unfold storeWin; omega), if_neg (by unfold scratchWin; simp; omega),
    if_neg (by unfold tableWin; simp; omega), if_neg (by simp; omega), if_neg (by simp; omega), if_neg (by simp; omega), if_pos (by simp; omega)]
/-- A range of memory whose ends are as far apart as its length lies at one stretch of memory. -/
theorem regionOf_stretch (hm : HeatMap) (a n m m' : Nat) (h0 : 0 < n) (h : regionOf hm a = .mem m) (h' : regionOf hm (a + n - 1) = .mem m')
    (hn : m' + 1 = m + n) : ∀ i < n, placeOf hm (a + i) = some (.mem (m + i)) := by
  intro i hi
  rw [placeOf_region]
  rcases regionOf_mem hm a m h with ⟨ha, hr⟩ | ⟨ha, ha2, ha3, hr⟩ <;> rcases regionOf_mem hm _ m' h' with ⟨hb, hr'⟩ | ⟨hb, hb2, hb3, hr'⟩
  · have := memRegion_mem _ _ _ hr; subst this
    have hp := memRegion_place hm m m' (n - 1) (by rw [show m + (n - 1) = m + n - 1 by omega]; exact hr') i (by omega)
    unfold regionOf
    rw [if_pos (by omega)]
    exact hp
  · have h1 := memRegion_mem _ _ _ hr
    have h2 := memRegion_mem _ _ _ hr'
    unfold aliasWin storeWin at *
    omega
  · have h1 := memRegion_mem _ _ _ hr
    have h2 := memRegion_mem _ _ _ hr'
    unfold aliasWin storeWin at *
    omega
  · have h1 := memRegion_mem _ _ _ hr
    have e1 : a + n - 1 - aliasWin = m + (n - 1) := by omega
    have e2 : a + i - aliasWin = m + i := by omega
    rw [e1] at hr'
    have hp := memRegion_place hm m m' (n - 1) hr' i (by omega)
    rw [regionOf_alias hm (a + i) (by omega) (by omega) (by omega), e2]; exact hp
/-- A range that begins and ends in one cluster's store lies at one stretch of it. -/
theorem regionOf_storeStretch (hm : HeatMap) (a n c o : Nat) (h : regionOf hm a = .store c o)
    (hn : o + n ≤ 0x1000000) : ∀ i < n, placeOf hm (a + i) = some (.store c (o + i)) := by
  have inv : ∀ b d p, regionOf hm b = .store d p → storeWin ≤ b ∧ b < storeWin + 64 * 0x1000000 ∧ (b - storeWin) / 0x1000000 < hm.clusters ∧
      d = hm.home ((b - storeWin) / 0x1000000) ∧ p = (b - storeWin) % 0x1000000 := by
    intro b d p hb
    unfold regionOf at hb
    split at hb
    · unfold memRegion at hb
      repeat' split at hb
      all_goals cases hb
    · split at hb
      · dsimp only at hb
        split at hb
        · cases hb; exact ⟨by omega, by omega, by assumption, rfl, rfl⟩
        · cases hb
      · dsimp only at hb
        unfold memRegion at hb
        repeat' split at hb
        all_goals cases hb
  intro i hi
  obtain ⟨h1, h2, h3, h4, h5⟩ := inv _ _ _ h
  have hd : (a + i - storeWin) / 0x1000000 = (a - storeWin) / 0x1000000 := by omega
  have hm' : (a + i - storeWin) % 0x1000000 = (a - storeWin) % 0x1000000 + i := by omega
  have : regionOf hm (a + i) = .store c (o + i) := by
    unfold regionOf
    rw [if_neg (by omega), if_pos (by omega)]
    dsimp only
    rw [hd, hm', if_pos h3, ← h4, ← h5]
  rw [placeOf_region, this]; rfl
/-- A write changes no place but those its range holds. -/
theorem leaves_write (R : Place → Prop) (sp : Space) (a : Nat) (bs : Bytes) (h : ∀ l, R l → Untouched sp.hm [(a, bs.length)] l) :
    Post (Space.Leaves R sp) (sp.write a bs) := by
  unfold Space.write
  dsimp only
  split
  · trivial
  · have hp : ∀ p : List Nat, Space.Leaves R sp { sp with poison := p } := fun p => ⟨rfl, rfl, rfl, rfl, fun l _ => by cases l <;> rfl⟩
    have hput : ∀ (t : Space) (r : Region), t.hm = sp.hm → (∀ i < bs.length, placeOf sp.hm (a + i) = r.place.map (Place.shift i)) →
        Space.Leaves R t (t.putIn r bs) := by
      intro t r _ hr
      refine leaves_putIn R t r bs (fun l hl i hi => ?_)
      rw [← hr i hi]
      exact untouched_shift (h l hl) i hi
    have hb : ∀ t : Space, t.hm = sp.hm → Space.Leaves R t (t.putBytes a bs) := fun t ht => leaves_putBytes R sp.hm a bs h t ht
    cases bs with
    | nil =>
      have hn : ∀ (t : Space) (r : Region), Space.Leaves R t (t.putIn r []) := fun t r => leaves_putIn R t r [] (fun l _ i hi => by simp at hi)
      split
      · split
        · exact (hp _).trans (hn _ _)
        · exact (hp _).trans (hb _ rfl)
      · split
        · exact (hp _).trans (hn _ _)
        · exact (hp _).trans (hb _ rfl)
      · exact (hp _).trans (hb _ rfl)
    | cons b bs =>
      split
      · rename_i m m' e1 e2
        split
        · refine (hp _).trans (hput _ _ rfl ?_)
          exact regionOf_stretch sp.hm a _ m m' (by simp) e1 e2 (by assumption)
        · exact (hp _).trans (hb _ rfl)
      · rename_i c o c' o' e1 e2
        split
        · rename_i hc
          obtain ⟨rfl, hc2⟩ := hc
          refine (hp _).trans (hput _ _ rfl ?_)
          exact regionOf_storeStretch sp.hm a _ c o e1 hc2
        · exact (hp _).trans (hb _ rfl)
      · exact (hp _).trans (hb _ rfl)

/-! Rows, and lists of row actions. -/

theorem Untouched.mono {hm : HeatMap} {rs ss : List (Nat × Nat)} {l : Place} (h : Untouched hm rs l) (hs : ∀ r ∈ ss, r ∈ rs) : Untouched hm ss l :=
  fun r hr => h r (hs r hr)
/-- A part of a range that is left alone is left alone. -/
theorem Untouched.part {hm : HeatMap} {rs : List (Nat × Nat)} {l : Place} (h : Untouched hm rs l) {a n b m : Nat} (hr : (a, n) ∈ rs)
    (h1 : a ≤ b) (h2 : b + m ≤ a + n) : Untouched hm [(b, m)] l := by
  intro r hr' i hi
  rw [List.mem_singleton] at hr'
  subst hr'
  have := h _ hr (b - a + i) (by simp at hi ⊢; omega)
  rw [show a + (b - a + i) = b + i by omega] at this
  exact this
theorem length_bytes (sp : Space) (a n : Nat) : (sp.bytes a n).length = n := by
  unfold Space.bytes Mem.get
  repeat' split
  all_goals simp
theorem length_read (sp : Space) (a n : Nat) : Post (fun bs => bs.length = n) (sp.read a n) := by
  unfold Space.read
  split
  · trivial
  · exact length_bytes sp a n
theorem Post.mono {α : Type} {P Q : α → Prop} {x : Except Nat α} (h : Post P x) (k : ∀ a, P a → Q a) : Post Q x := by
  cases x with
  | error e => trivial
  | ok a => exact k a h
theorem leaves_foldBind {α : Type} (R : Place → Prop) (sp : Space) (f : Space → α → Except Nat Space) (xs : List α)
    (hf : ∀ t a, a ∈ xs → Space.Leaves R sp t → Post (Space.Leaves R sp) (f t a)) (x : Except Nat Space) (h : Post (Space.Leaves R sp) x) :
    Post (Space.Leaves R sp) (xs.foldl (fun acc a => acc.bind (fun b => f b a)) x) := by
  induction xs generalizing x with
  | nil => exact h
  | cons a xs ih =>
    exact ih (fun t b hb => hf t b (List.mem_cons_of_mem _ hb)) _ (post_bind' _ _ _ (fun b hb => hf b a (List.mem_cons_self ..) (h.of_eq hb)))
theorem leaves_runRows {α : Type} (R : Place → Prop) (sp : Space) (f : Space → α → Except Nat Space) (xs : List α)
    (hf : ∀ t a, a ∈ xs → Space.Leaves R sp t → Post (Space.Leaves R sp) (f t a)) : Space.Leaves R sp (runRows f sp xs).sp := by
  unfold runRows
  suffices ∀ o : MovOut, Space.Leaves R sp o.sp → Space.Leaves R sp (xs.foldl (fun o x => if o.status ≠ 0 then o else match f o.sp x with
    | .ok sp' => ⟨sp', 0⟩
    | .error e => ⟨o.sp, e⟩) o).sp from this _ (Space.Leaves.refl R sp)
  induction xs with
  | nil => exact fun o h => h
  | cons a xs ih =>
    intro o ho
    refine ih (fun t b hb => hf t b (List.mem_cons_of_mem _ hb)) _ ?_
    dsimp only
    split
    · exact ho
    · split
      · exact (hf _ _ (List.mem_cons_self ..) ho).of_eq ‹_›
      · exact ho
/-- A write inside ranges that R keeps out of, in a memory that has the heat's map. -/
theorem leaves_writeAt {R : Place → Prop} {sp t : Space} (h : Space.Leaves R sp t) (a : Nat) (bs : Bytes)
    (hr : ∀ l, R l → Untouched sp.hm [(a, bs.length)] l) : Post (Space.Leaves R sp) (t.write a bs) :=
  (leaves_write R t a bs (by rw [h.hm]; exact hr)).mono (fun _ k => h.trans k)

theorem mem_rowRanges (d : Desc) (j : Nat) (h : j < d.rows) : (d.rowAddr j, d.rowLen) ∈ d.ranges := by
  unfold Desc.ranges Desc.rowRanges
  exact List.mem_append_left _ (List.mem_map.mpr ⟨j, List.mem_range.mpr h, rfl⟩)
theorem mem_scaleRange (d : Desc) : (d.scale, d.rows * d.rowScales) ∈ d.ranges := by
  unfold Desc.ranges
  exact List.mem_append_right _ (List.mem_singleton.mpr rfl)
theorem scale_part (d : Desc) (j : Nat) (h : j < d.rows) : d.scale ≤ d.scaleAddr j ∧ d.scaleAddr j + d.rowScales ≤ d.scale + d.rows * d.rowScales := by
  unfold Desc.scaleAddr
  have : (j + 1) * d.rowScales ≤ d.rows * d.rowScales := Nat.mul_le_mul_right _ h
  rw [Nat.add_mul] at this
  omega
theorem leaves_moveRow {R : Place → Prop} {sp t : Space} (h : Space.Leaves R sp t) (s d : Desc) (i j : Nat) (hl : s.rowLen = d.rowLen)
    (hsc : s.rowScales = d.rowScales) (hj : j < d.rows) (hr : ∀ l, R l → Untouched sp.hm d.ranges l) :
    Post (Space.Leaves R sp) (moveRow s d i j t) := by
  unfold moveRow
  refine post_bind _ _ _ (fun bs hb => post_bind _ _ _ (fun sc hs => post_bind _ _ _ (fun u hu => ?_)))
  have lb := (length_read _ _ _).of_eq hb
  have ls := (length_read _ _ _).of_eq hs
  have h1 := (leaves_writeAt h (d.rowAddr j) bs (fun l hl' =>
    (hr l hl').part (mem_rowRanges d j hj) (Nat.le_refl _) (by omega))).of_eq hu
  split
  · exact h1
  · have := scale_part d j hj
    exact leaves_writeAt h1 _ _ (fun l hl' => (hr l hl').part (mem_scaleRange d) this.1 (by rw [ls, hsc]; exact this.2))
theorem leaves_zeroRow {R : Place → Prop} {sp t : Space} (h : Space.Leaves R sp t) (d : Desc) (j : Nat) (hj : j < d.rows)
    (hr : ∀ l, R l → Untouched sp.hm d.ranges l) : Post (Space.Leaves R sp) (zeroRow d j t) := by
  unfold zeroRow
  refine post_bind _ _ _ (fun u hu => ?_)
  have h1 := (leaves_writeAt h (d.rowAddr j) _ (fun l hl' =>
    (hr l hl').part (mem_rowRanges d j hj) (Nat.le_refl _) (by simp))).of_eq hu
  split
  · exact h1
  · have := scale_part d j hj
    exact leaves_writeAt h1 _ _ (fun l hl' => (hr l hl').part (mem_scaleRange d) this.1 (by simpa using this.2))
theorem length_natLE (n v : Nat) : (natLE n v).length = n := by
  induction n generalizing v with
  | zero => rfl
  | succ n ih => unfold natLE; rw [List.length_cons, ih]
theorem leaves_atomicRow {R : Place → Prop} {sp t : Space} (h : Space.Leaves R sp t) (aop : Nat) (a d : Desc) (i j : Nat) (hj : j < d.rows)
    (hf : a.fmt = 0 ∨ a.fmt = 13 ∨ a.fmt = 14) (hd : a.fmt = d.fmt) (h0 : a.d0 = d.d0) (hr : ∀ l, R l → Untouched sp.hm d.ranges l) :
    Post (Space.Leaves R sp) (atomicRow aop a d i j t) := by
  unfold atomicRow
  dsimp only
  refine leaves_foldBind R sp (fun sp p => atomicAt aop (elemBits a.fmt) sp p) _ (fun u p hp hu => ?_) _ h
  rw [List.mem_mapIdx] at hp
  obtain ⟨e, he, rfl⟩ := hp
  have he' : e < d.d0 := by
    unfold Desc.codes at he
    simp at he; omega
  unfold atomicAt
  refine post_bind _ _ _ (fun old _ => ?_)
  refine leaves_writeAt hu _ _ (fun l hl => (hr l hl).part (mem_rowRanges d j hj) (by omega) ?_)
  rw [length_natLE]
  have hlen : d.rowLen = d.d0 * (elemBits a.fmt / 8) := by
    unfold Desc.rowLen
    rw [← hd]
    rcases hf with h | h | h <;> rw [h] <;>
      simp [rowBytes, elemBits, storedElems, blockSize, isMX, isUB4, ceilDiv, roundUp] <;> omega
  rw [hlen]
  have : (e + 1) * (elemBits a.fmt / 8) ≤ d.d0 * (elemBits a.fmt / 8) := Nat.mul_le_mul_right _ he'
  rw [Nat.add_mul] at this
  dsimp only
  omega

/-! Each mover command. -/

/-- The extents a rank does not use are 1 (R125). -/
theorem loadDesc_rank {hm : HeatMap} {rs : List Recipe} {st : Mem} {off : Nat} {d : Desc} (h : loadDesc hm rs st off = .ok d) (hr : d.rank = 2) :
    d.d2 = 1 ∧ d.d3 = 1 := by
  unfold loadDesc at h
  cases hp : parseDesc rs (st.num off 64) with
  | error e => rw [hp] at h; cases h
  | ok k =>
    rw [hp] at h
    cases h
    dsimp only at hr ⊢
    unfold parseDesc at hp
    dsimp only at hp
    split at hp
    · cases hp
    · split at hp
      · rename_i hc
        simp only [Except.ok.injEq] at hp
        subst hp
        dsimp only at hr ⊢
        simp only [Bool.and_eq_true, Bool.or_eq_true, decide_eq_true_eq, rsv, beq_iff_eq] at hc
        obtain ⟨⟨⟨-, h2⟩, h3⟩, -⟩ := hc
        have a2 := h2.resolve_left (by omega)
        have a3 := h3.resolve_left (by omega)
        exact ⟨by omega, by omega⟩
      · cases hp
theorem desc_rows {sp : Space} {rs : List Recipe} {off : Nat} {d : Desc} (h : sp.desc rs off = .ok d) (hr : d.rank = 2) : d.rows = d.d1 := by
  have := loadDesc_rank h hr
  unfold Desc.rows; rw [this.1, this.2]; omega
/-- A mover command changes no place but those of the ranges it stores to. -/
abbrev MovLeaves (sp : Space) (dest : List (Nat × Nat) → Prop) (r : Except Nat MovOut) : Prop :=
  Post (fun o => ∃ rs, dest rs ∧ Space.Leaves (Untouched sp.hm rs) sp o.sp) r
theorem leaves_gatherRun (rs : List Recipe) (sp : Space) (q : Nat) :
    MovLeaves sp (fun ds => ∃ d, sp.desc rs (fld q 87 64) = .ok d ∧ ds = d.ranges) (gatherRun rs sp q) := by
  unfold gatherRun
  refine post_bind _ _ _ (fun _ _ => post_bind _ _ _ (fun d hd => post_bind _ _ _ (fun a _ => post_bind _ _ _ (fun i _ =>
    post_bind _ _ _ (fun _ _ => post_bind _ _ _ (fun _ hc => ?_))))))
  refine post_bind _ _ _ (fun _ _ => post_bind _ _ _ (fun _ _ => post_bind _ _ _ (fun _ _ => ?_)))
  have hc := demand_ok hc
  simp only [Bool.and_eq_true, beq_iff_eq, Bool.or_eq_true] at hc
  obtain ⟨⟨⟨⟨⟨⟨h1, h2⟩, h3⟩, h4⟩, h5⟩, h6⟩, h7⟩ := hc
  refine ⟨d.ranges, ⟨d, hd, rfl⟩, leaves_runRows _ sp _ _ (fun t p hp ht => ?_)⟩
  rw [List.mem_mapIdx] at hp
  obtain ⟨j, hj, rfl⟩ := hp
  have hj' : j < d.rows := by
    rw [desc_rows hd h2, h7]
    unfold Space.indices Desc.ints Desc.codes at hj
    simpa using hj
  dsimp only
  split
  · exact leaves_zeroRow ht d j hj' (fun _ h => h)
  · split
    · trivial
    · refine leaves_moveRow ht a d _ j ?_ ?_ hj' (fun _ h => h)
      · unfold Desc.rowLen; rw [h5, h6]
      · unfold Desc.rowScales; rw [h5, h6]
theorem leaves_scatterRun (rs : List Recipe) (fa cm : Bool) (sp : Space) (q : Nat) :
    MovLeaves sp (fun ds => ∃ d, sp.desc rs (fld q 87 64) = .ok d ∧ ds = d.ranges) (scatterRun rs fa cm sp q) := by
  unfold scatterRun
  refine post_bind _ _ _ (fun _ _ => ?_)
  dsimp only
  refine post_bind _ _ _ (fun d hd => post_bind _ _ _ (fun a _ => post_bind _ _ _ (fun i _ =>
    post_bind _ _ _ (fun _ _ => post_bind _ _ _ (fun _ hc => post_bind _ _ _ (fun _ hx => ?_))))))
  refine post_bind _ _ _ (fun _ _ => post_bind _ _ _ (fun _ _ => post_bind _ _ _ (fun _ _ => post_bind _ _ _ (fun _ _ => ?_))))
  have hc := demand_ok hc
  have hx := demand_ok hx
  simp only [Bool.and_eq_true, beq_iff_eq, Bool.or_eq_true] at hc hx
  obtain ⟨⟨⟨⟨⟨⟨h1, h2⟩, h3⟩, h4⟩, h5⟩, h6⟩, h7⟩ := hc
  refine ⟨d.ranges, ⟨d, hd, rfl⟩, leaves_runRows _ sp _ _ (fun t p hp ht => ?_)⟩
  split
  · exact ht
  · split
    · trivial
    · have hj : p.2.toNat < d.rows := by rw [desc_rows hd h2]; omega
      split
      · refine leaves_moveRow ht a d _ _ ?_ ?_ hj (fun _ h => h)
        · unfold Desc.rowLen; rw [h5, h6]
        · unfold Desc.rowScales; rw [h5, h6]
      · rename_i h0
        refine leaves_atomicRow ht _ a d _ _ hj ?_ h5 h6 (fun _ h => h)
        rcases hx with hx | hx
        · exact absurd hx h0
        · rw [h5]
          split at hx
          · exact Or.inl (by simpa using hx)
          · exact Or.inr (by simpa using hx)
theorem leaves_plainRun (rs : List Recipe) (sp : Space) (q : Nat) :
    MovLeaves sp (fun ds => ∃ d, sp.desc rs (fld q 95 72) = .ok d ∧ ds = d.ranges) (plainRun rs sp q) := by
  unfold plainRun
  refine post_bind _ _ _ (fun _ _ => post_bind _ _ _ (fun d hd => post_bind _ _ _ (fun s _ => post_bind _ _ _ (fun _ _ =>
    post_bind _ _ _ (fun _ hc => ?_)))))
  refine post_bind _ _ _ (fun _ _ => post_bind _ _ _ (fun _ _ => post_bind _ _ _ (fun _ _ => ?_)))
  have hc := demand_ok hc
  unfold Desc.sameExt at hc
  simp only [Bool.and_eq_true, beq_iff_eq] at hc
  obtain ⟨h1, ⟨⟨h2, h3⟩, h4⟩, h5⟩ := hc
  refine ⟨d.ranges, ⟨d, hd, rfl⟩, leaves_runRows _ sp _ _ (fun t p hp ht => ?_)⟩
  refine leaves_moveRow ht s d _ _ ?_ ?_ ?_ (fun _ h => h)
  · unfold Desc.rowLen; rw [h1, h2]
  · unfold Desc.rowScales; rw [h1, h2]
  · have := List.mem_range.mp hp
    unfold Desc.rows at *
    rw [h3, h4, h5]; exact this

/-! The KV commands. -/

theorem kvSide_rows {r : KvRegion} {part : Nat} {d : Desc} (h : kvSideOk r part d = true) : d.rows = d.d1 ∧ d.rowLen = (r.part part 0).1 := by
  unfold kvSideOk at h
  simp only [Bool.and_eq_true, beq_iff_eq] at h
  obtain ⟨⟨⟨-, h1⟩, h2⟩, h3⟩ := h
  exact ⟨by unfold Desc.rows; rw [h2, h3]; omega, h1⟩
theorem leaves_kvReadRow {R : Place → Prop} {sp t : Space} (h : Space.Leaves R sp t) (r : KvRegion) (p : KvPool) (part : Nat) (d : Desc) (j pos : Nat)
    (hd : kvSideOk r part d = true) (hj : j < d.d1) (hr : ∀ l, R l → Untouched sp.hm d.rowRanges l) :
    Post (Space.Leaves R sp) (kvReadRow r p part d t j pos) := by
  unfold kvReadRow
  refine post_bind _ _ _ (fun _ _ => post_bind _ _ _ (fun e _ => post_bind _ _ _ (fun _ _ => ?_)))
  refine post_bind _ _ _ (fun bs hb => ?_)
  have hk := kvSide_rows hd
  have hlen : bs.length = d.rowLen := by
    rw [hk.2]
    split at hb
    · exact (length_read _ _ _).of_eq hb
    · cases hb; simp
  refine leaves_writeAt h _ _ (fun l hl => (hr l hl).part (a := d.rowAddr j) (n := d.rowLen) ?_ (Nat.le_refl _) (by omega))
  unfold Desc.rowRanges
  exact List.mem_map.mpr ⟨j, List.mem_range.mpr (by rw [hk.1]; exact hj), rfl⟩
theorem leaves_kvReadRun (rs : List Recipe) (sp : Space) (q : Nat) : MovLeaves sp (kvReadDest rs sp q) (kvReadRun rs sp q) := by
  unfold kvReadRun
  refine post_bind _ _ _ (fun _ _ => ?_)
  dsimp only
  refine post_bind _ _ _ (fun d hd => post_bind _ _ _ (fun r _ => post_bind _ _ _ (fun p _ => post_bind _ _ _ (fun _ hc =>
    post_bind _ _ _ (fun _ _ => ?_)))))
  have hc := demand_ok hc
  unfold kvReadDest
  by_cases h3 : fld q 237 236 = 3
  · rw [if_pos h3] at hc ⊢
    refine post_bind _ _ _ (fun k hk => post_bind _ _ _ (fun _ hx => post_bind _ _ _ (fun _ _ => ?_)))
    have hx := demand_ok hx
    simp only [Bool.and_eq_true, beq_iff_eq] at hx
    obtain ⟨⟨hx1, hx2⟩, -⟩ := hx
    refine ⟨_, ⟨d, hd, by rw [if_pos h3]; exact ⟨k, hk, rfl⟩⟩, leaves_runRows _ sp _ _ (fun t j hj ht => ?_)⟩
    have hj' := List.mem_range.mp hj
    refine post_bind _ _ _ (fun u hu => ?_)
    have h1 := (leaves_kvReadRow ht r p 0 d j _ hc hj' (fun l hl => hl.mono (fun x hx => List.mem_append_left _ hx))).of_eq hu
    exact leaves_kvReadRow h1 r p 1 k j _ hx1 (by omega) (fun l hl => hl.mono (fun x hx => List.mem_append_right _ hx))
  · rw [if_neg h3] at hc ⊢
    refine ⟨_, ⟨d, hd, by rw [if_neg h3]⟩, leaves_runRows _ sp _ _ (fun t j hj ht => ?_)⟩
    exact leaves_kvReadRow ht r p _ d j _ hc (List.mem_range.mp hj) (fun l hl => hl)

theorem fld_lt (w hi lo : Nat) : fld w hi lo < 2 ^ (hi + 1 - lo) := Nat.mod_lt _ (Nat.two_pow_pos _)
theorem kvPool_pageB {sp : Space} {r : KvRegion} {p : KvPool} (h : sp.kvPool r = .ok p) : 256 * (r.keyB + r.valB + r.scB) ≤ p.pageB := by
  have : Post (fun p : KvPool => 256 * (r.keyB + r.valB + r.scB) ≤ p.pageB) (sp.kvPool r) := by
    unfold Space.kvPool
    refine post_bind _ _ _ (fun _ _ => post_bind _ _ _ (fun w _ => ?_))
    dsimp only
    refine post_bind _ _ _ (fun _ hc => post_bind _ _ _ (fun _ _ => post_bind _ _ _ (fun _ _ => ?_)))
    have hc := demand_ok hc
    simp only [Bool.and_eq_true, decide_eq_true_eq, beq_iff_eq] at hc
    exact hc.1.1.2
  exact this.of_eq h
theorem kvRegion_addr {sp : Space} {a : Nat} {r : KvRegion} (h : sp.kvRegion a = .ok r) : r.addr = a := by
  have : Post (fun r : KvRegion => r.addr = a) (sp.kvRegion a) := by
    unfold Space.kvRegion
    refine post_bind _ _ _ (fun _ _ => post_bind _ _ _ (fun w _ => ?_))
    dsimp only
    refine post_bind _ _ _ (fun _ hc => post_bind _ _ _ (fun _ _ => rfl))
  exact this.of_eq h
theorem mem_allPages (p : KvPool) (e : Nat) : (p.pages + entryPage e * p.pageB, p.pageB) ∈ p.allPages :=
  List.mem_map.mpr ⟨entryPage e, List.mem_range.mpr (fld_lt e 23 0), rfl⟩
/-- A position's part lies within its page (R171). -/
theorem part_inside (r : KvRegion) (p : KvPool) (part slot n : Nat) (hp : 256 * (r.keyB + r.valB + r.scB) ≤ p.pageB)
    (hn : slot * (r.part part 0).1 + n ≤ 256 * (r.part part 0).1) : (r.part part slot).2 + n ≤ p.pageB := by
  rcases part with _ | _ | part <;> simp only [KvRegion.part] at hn ⊢ <;> omega
theorem leaves_kvWriteRun (rs : List Recipe) (sp : Space) (q : Nat) : MovLeaves sp (kvWriteDest sp q) (kvWriteRun rs sp q) := by
  unfold kvWriteRun
  refine post_bind _ _ _ (fun _ _ => ?_)
  dsimp only
  refine post_bind _ _ _ (fun s _ => post_bind _ _ _ (fun r hr => post_bind _ _ _ (fun p hp => post_bind _ _ _ (fun _ hc =>
    post_bind _ _ _ (fun _ _ => post_bind _ _ _ (fun _ _ => ?_))))))
  have hc := kvSide_rows (demand_ok hc)
  refine ⟨_, ⟨r, p, hr, hp, rfl⟩, leaves_runRows _ sp _ _ (fun t j _ ht => ?_)⟩
  refine post_bind _ _ _ (fun _ _ => post_bind _ _ _ (fun e _ => post_bind _ _ _ (fun _ _ => post_bind _ _ _ (fun bs hb =>
    post_bind _ _ _ (fun u hu => ?_)))))
  have hlen := (length_read _ _ _).of_eq hb
  have h1 := (leaves_writeAt ht _ bs (fun l hl => hl.part (List.mem_cons_of_mem _ (mem_allPages p e))
    (by unfold kvAddr; omega) (by
      unfold kvAddr
      have hm := Nat.mod_lt (fld q 235 216 + j) (show 0 < 256 by omega)
      have := part_inside r p (fld q 237 236) ((fld q 235 216 + j) % 256) bs.length (kvPool_pageB hp) (by
        rw [hlen, hc.2]
        have : ((fld q 235 216 + j) % 256 + 1) * (r.part (fld q 237 236) 0).1 ≤ 256 * (r.part (fld q 237 236) 0).1 := Nat.mul_le_mul_right _ hm
        rw [Nat.add_mul] at this
        omega)
      omega))).of_eq hu
  exact leaves_writeAt h1 _ _ (fun l hl => hl.part (List.mem_cons_self ..) (Nat.le_refl _) (Nat.le_of_eq (congrArg _ (length_natLE ..))))

theorem leaves_setEntry {R : Place → Prop} {sp t : Space} (h : Space.Leaves R sp t) (r : KvRegion) (p : KvPool) (a n i e : Nat) (h1 : a ≤ i)
    (h2 : i < a + n) (hr : ∀ l, R l → Untouched sp.hm (pageDest r p a n) l) : Post (Space.Leaves R sp) (t.setEntry r i e) :=
  leaves_writeAt h _ _ (fun l hl => (hr l hl).part (List.mem_cons_self ..) (by omega) (by rw [length_natLE]; omega))
theorem leaves_setDesc {R : Place → Prop} {sp t : Space} (h : Space.Leaves R sp t) (r : KvRegion) (p : KvPool) (a n page v : Nat)
    (h1 : page < 2 ^ 24) (hr : ∀ l, R l → Untouched sp.hm (pageDest r p a n) l) : Post (Space.Leaves R sp) (t.setPageDesc p page v) :=
  leaves_writeAt h _ _ (fun l hl => (hr l hl).part (List.mem_cons_of_mem _ (List.mem_cons_self ..)) (by omega) (by rw [length_natLE]; omega))
theorem leaves_unref {R : Place → Prop} {sp t : Space} (h : Space.Leaves R sp t) (r : KvRegion) (p : KvPool) (a n page : Nat)
    (h1 : page < 2 ^ 24) (hr : ∀ l, R l → Untouched sp.hm (pageDest r p a n) l) : Post (Space.Leaves R sp) (t.unref p page) := by
  unfold Space.unref
  refine post_bind _ _ _ (fun v _ => ?_)
  exact leaves_setDesc h r p a n page _ h1 hr
theorem kvPool_count {sp : Space} {r : KvRegion} {p : KvPool} (h : sp.kvPool r = .ok p) : p.count ≤ 2 ^ 24 := by
  have : Post (fun p : KvPool => p.count ≤ 2 ^ 24) (sp.kvPool r) := by
    unfold Space.kvPool
    refine post_bind _ _ _ (fun _ _ => post_bind _ _ _ (fun w _ => ?_))
    dsimp only
    refine post_bind _ _ _ (fun _ hc => post_bind _ _ _ (fun _ _ => post_bind _ _ _ (fun _ _ => ?_)))
    have hc := demand_ok hc
    simp only [Bool.and_eq_true, decide_eq_true_eq, beq_iff_eq] at hc
    show fld w 31 0 ≤ 2 ^ 24
    have := hc.1.1.1.1.1.2
    omega
  exact this.of_eq h
/-- The page that takePage takes is one of the pool's. -/
theorem leaves_takePage {R : Place → Prop} {sp t : Space} (h : Space.Leaves R sp t) (r : KvRegion) (p : KvPool) (a n owner : Nat)
    (hp : p.count ≤ 2 ^ 24) (hr : ∀ l, R l → Untouched sp.hm (pageDest r p a n) l) :
    Post (fun o => Space.Leaves R sp o.1 ∧ o.2 < 2 ^ 24) (t.takePage p owner) := by
  unfold Space.takePage
  refine post_bind _ _ _ (fun found hf => ?_)
  have hfound : ∀ i, found = some i → i < p.count := by
    have : Post (fun f : Option Nat => ∀ i, f = some i → i < p.count)
        ((List.range p.count).foldl (fun acc i => acc.bind (fun f : Option Nat => match f with
          | some j => .ok (some j)
          | none => (t.pageDesc p i).map (fun v => if pageState v = 0 && pageOwner v = owner then some i else none))) (.ok none)) := by
      have gen : ∀ (xs : List Nat) (x : Except Nat (Option Nat)), (∀ i ∈ xs, i < p.count) → Post (fun f : Option Nat => ∀ i, f = some i → i < p.count) x →
          Post (fun f : Option Nat => ∀ i, f = some i → i < p.count) (xs.foldl (fun acc i => acc.bind (fun f : Option Nat => match f with
            | some j => .ok (some j)
            | none => (t.pageDesc p i).map (fun v => if pageState v = 0 && pageOwner v = owner then some i else none))) x) := by
        intro xs
        induction xs with
        | nil => intro x _ h; exact h
        | cons i xs ih =>
          intro x hx h
          refine ih _ (fun j hj => hx j (List.mem_cons_of_mem _ hj)) (post_bind' _ _ _ (fun f hf => ?_))
          have hf' := h.of_eq hf
          cases f with
          | some j => exact hf'
          | none =>
            dsimp only
            cases t.pageDesc p i with
            | error e => trivial
            | ok v =>
              show ∀ k, _ = some k → _
              intro k hk
              have hk : (if pageState v = 0 && pageOwner v = owner then some i else none) = some k := hk
              split at hk
              · cases hk; exact hx i (List.mem_cons_self ..)
              · cases hk
      exact gen _ _ (fun i hi => List.mem_range.mp hi) (fun i hi => by cases hi)
    exact this.of_eq hf
  cases found with
  | none => trivial
  | some i =>
    have hi : i < 2 ^ 24 := Nat.lt_of_lt_of_le (hfound i rfl) hp
    dsimp only
    refine post_bind _ _ _ (fun v _ => post_bind _ _ _ (fun u hu => post_bind _ _ _ (fun w hw => ?_)))
    have h1 := (leaves_writeAt h _ _ (fun l hl => (hr l hl).part (a := p.pages + i * p.pageB) (n := p.pageB)
      (List.mem_cons_of_mem _ (List.mem_cons_of_mem _ (List.mem_map.mpr ⟨i, List.mem_range.mpr hi, rfl⟩))) (Nat.le_refl _)
      (by simp))).of_eq hu
    exact ⟨(leaves_setDesc h1 r p a n i _ hi hr).of_eq hw, hi⟩
theorem leaves_pageOut {R : Place → Prop} {sp : Space} {x : Except Nat Space} (h : Post (Space.Leaves R sp) x) : Space.Leaves R sp (pageOut sp x).sp := by
  cases x with
  | error e => exact Space.Leaves.refl R sp
  | ok t => exact h
theorem pageOp_parts {sp : Space} {q : Nat} {r : KvRegion} {p : KvPool} {a : Nat} (h : sp.pageOp q = .ok (r, p, a)) :
    sp.kvRegion (fld q 167 120) = .ok r ∧ sp.kvPool r = .ok p ∧ a = fld q 235 216 / 256 := by
  have : Post (fun o : KvRegion × KvPool × Nat => sp.kvRegion (fld q 167 120) = .ok o.1 ∧ sp.kvPool o.1 = .ok o.2.1 ∧ o.2.2 = fld q 235 216 / 256)
      (sp.pageOp q) := by
    unfold Space.pageOp
    refine post_bind _ _ _ (fun r hr => post_bind _ _ _ (fun _ _ => post_bind _ _ _ (fun p hp => ?_)))
    exact ⟨hr, hp, rfl⟩
  exact this.of_eq h
theorem leaves_allocRun (sp : Space) (q : Nat) : MovLeaves sp (pageOpDest 1 sp q) (allocRun sp q) := by
  unfold allocRun
  refine post_bind _ _ _ (fun _ hq => post_bind _ _ _ (fun o ho => ?_))
  obtain ⟨r, p, a⟩ := o
  obtain ⟨hr, hp, rfl⟩ := pageOp_parts ho
  have hq := demand_ok hq
  simp only [Bool.and_eq_true, beq_iff_eq] at hq
  dsimp only
  refine post_bind _ _ _ (fun _ _ => post_bind _ _ _ (fun e _ => post_bind _ _ _ (fun _ _ => post_bind _ _ _ (fun o ho => ?_))))
  obtain ⟨t, page⟩ := o
  have ht := (leaves_takePage (R := Untouched sp.hm (pageDest r p (fld q 235 216 / 256) 1)) (Space.Leaves.refl _ sp) r p _ 1 r.home
    (kvPool_count hp) (fun _ h => h)).of_eq ho
  refine ⟨_, ⟨r, r, p, hr, by rw [if_neg (by omega)], hp, rfl⟩, leaves_pageOut ?_⟩
  exact leaves_setEntry ht.1 r p _ 1 _ _ (Nat.le_refl _) (by omega) (fun _ h => h)
theorem leaves_cowRun (sp : Space) (q : Nat) : MovLeaves sp (pageOpDest 1 sp q) (cowRun sp q) := by
  unfold cowRun
  refine post_bind _ _ _ (fun _ hq => ?_)
  dsimp only
  refine post_bind _ _ _ (fun o ho => ?_)
  obtain ⟨r, p, a⟩ := o
  obtain ⟨hr, hp, rfl⟩ := pageOp_parts ho
  have hq := demand_ok hq
  simp only [Bool.and_eq_true, beq_iff_eq] at hq
  obtain ⟨hb, hq⟩ := hq
  have hkeep : fld q 176 168 ≤ 256 := by
    unfold copyBodyOk at hb
    rw [hq] at hb
    simp only [Bool.and_eq_true, decide_eq_true_eq] at hb
    exact hb.2.2.1.1
  dsimp only
  refine post_bind _ _ _ (fun _ _ => post_bind _ _ _ (fun e _ => post_bind _ _ _ (fun _ _ => post_bind _ _ _ (fun o ho => ?_))))
  obtain ⟨t, page⟩ := o
  have ht := (leaves_takePage (R := Untouched sp.hm (pageDest r p (fld q 235 216 / 256) 1)) (Space.Leaves.refl _ sp) r p _ 1 r.home
    (kvPool_count hp) (fun _ h => h)).of_eq ho
  refine ⟨_, ⟨r, r, p, hr, by rw [if_neg (by omega)], hp, rfl⟩, leaves_pageOut ?_⟩
  have copy : ∀ (part : Nat) (u : Space), Space.Leaves (Untouched sp.hm (pageDest r p (fld q 235 216 / 256) 1)) sp u →
      Post (Space.Leaves (Untouched sp.hm (pageDest r p (fld q 235 216 / 256) 1)) sp)
        (if fld q 176 168 * (r.part part 0).1 = 0 then .ok u else do
          let bs ← u.read (kvAddr r p e part 0) (fld q 176 168 * (r.part part 0).1)
          u.write (kvAddr r p (entryOf page true) part 0) bs) := by
    intro part u hu
    split
    · exact hu
    · refine post_bind _ _ _ (fun bs hb => ?_)
      have hlen := (length_read _ _ _).of_eq hb
      refine leaves_writeAt hu _ _ (fun l hl => hl.part (List.mem_cons_of_mem _ (List.mem_cons_of_mem _ (mem_allPages p (entryOf page true))))
        (by unfold kvAddr; omega) ?_)
      unfold kvAddr
      have := part_inside r p part 0 bs.length (kvPool_pageB hp) (by
        rw [hlen, Nat.zero_mul, Nat.zero_add]; exact Nat.mul_le_mul_right _ hkeep)
      simp only [Nat.zero_mod]
      omega
  refine post_bind _ _ _ (fun u0 h0 => post_bind _ _ _ (fun u1 h1 => post_bind _ _ _ (fun u2 h2 => post_bind _ _ _ (fun u3 h3 => ?_))))
  have k0 := (copy 0 t ht.1).of_eq h0
  have k1 := (copy 1 u0 k0).of_eq h1
  have k2 := (copy 2 u1 k1).of_eq h2
  have k3 := (leaves_setEntry k2 r p _ 1 _ _ (Nat.le_refl _) (by omega) (fun _ h => h)).of_eq h3
  exact leaves_unref k3 r p _ 1 _ (fld_lt e 23 0) (fun _ h => h)
theorem leaves_freeRun (sp : Space) (q : Nat) : MovLeaves sp (pageOpDest (fld q 251 240 + 1) sp q) (freeRun sp q) := by
  unfold freeRun
  refine post_bind _ _ _ (fun _ hq => post_bind _ _ _ (fun o ho => ?_))
  obtain ⟨r, p, a⟩ := o
  obtain ⟨hr, hp, rfl⟩ := pageOp_parts ho
  have hq := demand_ok hq
  simp only [Bool.and_eq_true, beq_iff_eq] at hq
  dsimp only
  refine post_bind _ _ _ (fun _ _ => post_bind _ _ _ (fun _ _ => post_bind _ _ _ (fun _ _ => ?_)))
  refine ⟨_, ⟨r, r, p, hr, by rw [if_neg (by omega)], hp, rfl⟩, leaves_runRows _ sp _ _ (fun t i hi ht => ?_)⟩
  obtain ⟨j, hj, rfl⟩ := List.mem_map.mp hi
  have hj := List.mem_range.mp hj
  refine post_bind _ _ _ (fun e _ => post_bind _ _ _ (fun u hu => ?_))
  have h1 : Space.Leaves (Untouched sp.hm (pageDest r p (fld q 235 216 / 256) (fld q 251 240 + 1))) sp u := by
    split at hu
    · exact (leaves_unref ht r p _ _ _ (fld_lt e 23 0) (fun _ h => h)).of_eq hu
    · cases hu; exact ht
  exact leaves_setEntry h1 r p _ _ _ _ (by omega) (by omega) (fun _ h => h)
theorem leaves_shareRun (sp : Space) (q : Nat) : MovLeaves sp (pageOpDest (fld q 251 240 + 1) sp q) (shareRun sp q) := by
  unfold shareRun
  refine post_bind _ _ _ (fun _ hq => post_bind _ _ _ (fun o ho => ?_))
  obtain ⟨r, p0, a⟩ := o
  obtain ⟨hr, -, rfl⟩ := pageOp_parts ho
  have hq := demand_ok hq
  simp only [Bool.and_eq_true, beq_iff_eq] at hq
  dsimp only
  refine post_bind _ _ _ (fun k hk => post_bind _ _ _ (fun p hp => ?_))
  refine post_bind _ _ _ (fun _ _ => post_bind _ _ _ (fun _ _ => post_bind _ _ _ (fun _ _ => ?_)))
  refine ⟨_, ⟨r, k, p, hr, by rw [if_pos hq.2]; exact hk, hp, rfl⟩, leaves_runRows _ sp _ _ (fun t i hi ht => ?_)⟩
  obtain ⟨j, hj, rfl⟩ := List.mem_map.mp hi
  have hj := List.mem_range.mp hj
  refine post_bind _ _ _ (fun e _ => post_bind _ _ _ (fun v _ => post_bind _ _ _ (fun _ _ => post_bind _ _ _ (fun u hu => ?_))))
  have h1 := (leaves_setDesc ht r p _ _ _ _ (fld_lt e 23 0) (fun _ h => h)).of_eq hu
  exact leaves_setEntry h1 r p _ _ _ _ (by omega) (by omega) (fun _ h => h)

/-! COMBINE. -/

theorem length_flatMap_natLE (n : Nat) (vs : List Nat) : (vs.flatMap (natLE n)).length = n * vs.length := by
  induction vs with
  | nil => simp
  | cons v vs ih => rw [List.flatMap_cons, List.length_append, length_natLE, ih, List.length_cons, Nat.mul_add]; omega
/-- A COMBINE changes no place but those of its destination (R241). -/
theorem leaves_combineRun (cb : Combine) (sp : Space) (base : Nat) (twin : Option Nat) (left : Bool)
    (hf : cb.d.fmt = 0 ∨ cb.d.fmt = 13 ∨ cb.d.fmt = 14) :
    Space.Leaves (Untouched sp.hm cb.d.ranges) sp (combineRun cb sp base twin left).1.sp := by
  unfold combineRun
  have gen : ∀ (rs : List Nat) (o : MovOut × Bool), (∀ r ∈ rs, r < cb.d.rows) → Space.Leaves (Untouched sp.hm cb.d.ranges) sp o.1.sp →
      Space.Leaves (Untouched sp.hm cb.d.ranges) sp (rs.foldl (fun (o : MovOut × Bool) r =>
        if o.1.status ≠ 0 then o
        else match combineRow cb o.1.sp base r left with
        | .error st => (⟨o.1.sp, st⟩, o.2)
        | .ok vs =>
          let bad := match twin with
            | some t => (match combineRow cb o.1.sp t r left with
              | .ok ws => ws != vs
              | .error _ => false)
            | none => false
          match o.1.sp.write (cb.d.rowAddr r) (vs.flatMap (natLE (elemBits cb.d.fmt / 8))) with
          | .ok sp => (⟨sp, 0⟩, o.2 || bad)
          | .error st => (⟨o.1.sp, st⟩, o.2 || bad)) o).1.sp := by
    intro rs
    induction rs with
    | nil => intro o _ h; exact h
    | cons r rs ih =>
      intro o hr ho
      refine ih _ (fun a ha => hr a (List.mem_cons_of_mem _ ha)) ?_
      show Space.Leaves _ sp (Prod.fst (if o.1.status ≠ 0 then o else _)).sp
      by_cases hst : o.1.status ≠ 0
      · rw [if_pos hst]; exact ho
      · rw [if_neg hst]
        split
        · exact ho
        · rename_i vs hv
          dsimp only
          split
          · rename_i u hu
            have hlen : vs.length = cb.d.d0 := by
              have : Post (fun vs : List Nat => vs.length = cb.d.d0) (combineRow cb o.1.sp base r left) := by
                unfold combineRow
                dsimp only
                refine post_bind _ _ _ (fun _ _ => post_bind _ _ _ (fun _ _ => ?_))
                show (List.map _ _).length = _
                simp
              exact this.of_eq hv
            have hrow : cb.d.rowLen = cb.d.d0 * (elemBits cb.d.fmt / 8) := by
              unfold Desc.rowLen
              rcases hf with h | h | h <;> rw [h] <;> simp [rowBytes, elemBits, storedElems, blockSize, isMX, isUB4, ceilDiv, roundUp] <;> omega
            refine (leaves_writeAt ho _ _ (fun l hl => hl.part (mem_rowRanges cb.d r (hr r (List.mem_cons_self ..))) (Nat.le_refl _) ?_)).of_eq hu
            exact Nat.le_of_eq (by rw [length_flatMap_natLE, hlen, hrow, Nat.mul_comm])
          · exact ho
  exact gen _ _ (fun r hr => List.mem_range.mp hr) (Space.Leaves.refl _ sp)
/-- What recvCheck answers: a tensor in one of the three formats that COMBINE takes (R241, R242). -/
theorem recvCheck_fmt {x : Site} {sp : Space} {q : Nat} {cb : Combine} (h : recvCheck x sp q = .ok (some cb)) :
    cb.d.fmt = 0 ∨ cb.d.fmt = 13 ∨ cb.d.fmt = 14 := by
  have : Post (fun o : Option Combine => ∀ cb, o = some cb → cb.d.fmt = 0 ∨ cb.d.fmt = 13 ∨ cb.d.fmt = 14) (recvCheck x sp q) := by
    unfold recvCheck
    dsimp only
    refine post_bind _ _ _ (fun _ _ => post_bind _ _ _ (fun _ _ => ?_))
    split
    · intro cb h; cases h
    · refine post_bind _ _ _ (fun d hd => post_bind _ _ _ (fun k hk => post_bind _ _ _ (fun _ hc => ?_)))
      refine post_bind _ _ _ (fun _ _ => post_bind _ _ _ (fun _ _ => post_bind _ _ _ (fun _ _ => ?_)))
      have hc := demand_ok hc
      simp only [Bool.and_eq_true, beq_iff_eq, Bool.or_eq_true] at hc
      intro cb h
      cases h
      have := hc.1.1.1.2
      rcases this with (h | h) | h
      · exact Or.inl h
      · exact Or.inr (Or.inl h)
      · exact Or.inr (Or.inr h)
  exact (this.of_eq h) cb rfl

end Sys2Proof.Machine
end

