-- ==== Sys2Proof/Laws/MoverFrame.lean ====
section
/-! SUPPORT. A mover command that ends with OK: its completion, the memory it leaves, and what stays. -/
namespace Sys2Proof.Machine

theorem site_own {s : State} {c : Fin 64} {x : Site} (h : s.site c = some x) : (s.heat x.h).clusterList[x.own]? = some c := by
  unfold State.site at h
  cases hh : s.heatOfCl c with
  | none => rw [hh] at h; cases h
  | some p =>
    rw [hh] at h
    obtain ⟨i, n⟩ := p
    dsimp only at h
    split at h
    · simp only [Option.map_eq_some_iff] at h
      obtain ⟨pr, -, rfl⟩ := h
      unfold State.heatOfCl at hh
      simp only [Option.map_eq_some_iff, Prod.mk.injEq] at hh
      obtain ⟨j, hj, rfl, rfl⟩ := hh
      have hp := List.find?_some hj
      simp only [Bool.and_eq_true] at hp
      have hm : c ∈ (s.heat j).clusterList := by
        unfold Heat.clusterList
        rw [List.mem_filter]
        exact ⟨List.mem_finRange c, hp.2⟩
      exact List.getElem?_eq_some_iff.mpr ⟨List.idxOf_lt_length_of_mem hm, List.getElem_idxOf _⟩
    · cases h
theorem startable_site {s : State} {c : Fin 64} {q : Fin 4} {x : Site} {e : QEntry} (h : s.startable c q = some (x, e)) : s.site c = some x := by
  unfold State.startable at h
  dsimp only at h
  split at h
  · split at h
    · cases h; assumption
    · cases h
  · cases h
theorem clusterList_nodup (h : Heat) : h.clusterList.Nodup := (List.nodup_finRange 64).filter _

theorem putStores_frame (s : State) (cs : List (Fin 64)) (ms : List Mem) :
    (s.putStores cs ms).ports = s.ports ∧ (s.putStores cs ms).heats = s.heats ∧ (s.putStores cs ms).com = s.com ∧ (s.putStores cs ms).now = s.now ∧
    (s.putStores cs ms).pending = s.pending ∧ (s.putStores cs ms).out = s.out ∧ (s.putStores cs ms).free = s.free := by
  induction cs generalizing s ms with
  | nil => exact ⟨rfl, rfl, rfl, rfl, rfl, rfl, rfl⟩
  | cons c cs ih =>
    cases ms with
    | nil => exact ⟨rfl, rfl, rfl, rfl, rfl, rfl, rfl⟩
    | cons m ms => exact ih _ ms
theorem putStores_cl (s : State) (cs : List (Fin 64)) (ms : List Mem) (hn : cs.Nodup) (hl : ms.length = cs.length) (d : Fin 64) :
    (s.putStores cs ms).cl d = { s.cl d with store := if d ∈ cs then ms.getD (cs.idxOf d) [] else (s.cl d).store } := by
  induction cs generalizing s ms with
  | nil => cases ms <;> rfl
  | cons c cs ih =>
    cases ms with
    | nil => cases hl
    | cons m ms =>
      have hn' := List.nodup_cons.mp hn
      show ((s.modCl c _).putStores cs ms).cl d = _
      rw [ih _ _ hn'.2 (by simpa using hl)]
      by_cases hd : d = c
      · subst hd
        rw [State.cl_modCl_same, if_neg hn'.1, if_pos (List.mem_cons_self ..)]
        simp
      · rw [State.cl_modCl_ne _ _ _ _ (Ne.symm hd)]
        by_cases hm : d ∈ cs
        · rw [if_pos hm, if_pos (List.mem_cons_of_mem _ hm)]
          rw [List.idxOf_cons, show (c == d) = false by simpa using Ne.symm hd]; rfl
        · rw [if_neg hm, if_neg (by simp [hd, hm])]
/-- What writing back a mover's memory changes. -/
structure Wrote (s u : State) (c : Fin 64) (x : Site) (sp : Space) : Prop where
  cl : ∀ d, u.cl d = { s.cl d with
    store := if d ∈ (s.heat x.h).clusterList then sp.stores.getD ((s.heat x.h).clusterList.idxOf d) [] else (s.cl d).store
    fnTab := if d = c then sp.fn else (s.cl d).fnTab }
  heat : ∀ j, u.heat j = if j = x.h then { s.heat j with mem := sp.mem, poison := sp.poison, scratch := sp.scratch, staging := sp.staging } else s.heat j
  ports : u.ports = s.ports
  com : u.com = { s.com with ctrs := u.com.ctrs, cache := u.com.cache }
  now : u.now = s.now
  pending : u.pending = s.pending
theorem modHeat_space_heat (s : State) (x : Site) (sp : Space) (j : Fin 4) :
    (s.modHeat x.h (fun h => { h with mem := sp.mem, poison := sp.poison, scratch := sp.scratch, staging := sp.staging })).heat j =
    if j = x.h then { s.heat j with mem := sp.mem, poison := sp.poison, scratch := sp.scratch, staging := sp.staging } else s.heat j := by
  rw [State.heat_modHeat]
  by_cases h : x.h = j
  · rw [if_pos h, if_pos h.symm]
  · rw [if_neg h, if_neg (Ne.symm h)]
theorem putSpace_wrote (s : State) (c : Fin 64) (x : Site) (sp : Space) (hc : (s.heat x.h).clusterList[x.own]? = some c)
    (hl : sp.stores.length = (s.heat x.h).clusterList.length) : Wrote s (s.putSpace x sp) c x sp := by
  unfold State.putSpace
  dsimp only
  rw [hc]
  dsimp only
  have hheat := modHeat_space_heat s x sp
  have hcl : ∀ d, (s.modHeat x.h (fun h => { h with mem := sp.mem, poison := sp.poison, scratch := sp.scratch, staging := sp.staging })).cl d = s.cl d :=
    fun _ => rfl
  have hp : (s.modHeat x.h (fun h => { h with mem := sp.mem, poison := sp.poison, scratch := sp.scratch, staging := sp.staging })).ports = s.ports := rfl
  have hk : (s.modHeat x.h (fun h => { h with mem := sp.mem, poison := sp.poison, scratch := sp.scratch, staging := sp.staging })).com = s.com := rfl
  have hn : (s.modHeat x.h (fun h => { h with mem := sp.mem, poison := sp.poison, scratch := sp.scratch, staging := sp.staging })).now = s.now := rfl
  have hq : (s.modHeat x.h (fun h => { h with mem := sp.mem, poison := sp.poison, scratch := sp.scratch, staging := sp.staging })).pending = s.pending := rfl
  generalize (s.modHeat x.h (fun h => { h with mem := sp.mem, poison := sp.poison, scratch := sp.scratch, staging := sp.staging })) = u at *
  have hf := putStores_frame u (s.heat x.h).clusterList sp.stores
  have hcs := putStores_cl u (s.heat x.h).clusterList sp.stores (clusterList_nodup _) hl
  generalize u.putStores (s.heat x.h).clusterList sp.stores = v at *
  refine ⟨fun d => ?_, fun j => ?_, hf.1.trans hp, ?_, hf.2.2.2.1.trans hn, hf.2.2.2.2.1.trans hq⟩
  · by_cases hd : d = c
    · subst hd
      rw [State.cl_modCl_same, hcs, hcl]; simp
    · rw [State.cl_modCl_ne _ _ _ _ (Ne.symm hd), hcs, hcl]; simp [hd]
  · rw [State.modCl_heat, ← hheat]
    show v.heats[j] = u.heats[j]
    rw [hf.2.1]
  · show v.com = { s.com with ctrs := v.com.ctrs, cache := v.com.cache }
    rw [hf.2.2.1, hk]
theorem Wrote.counts {s u v : State} {c : Fin 64} {x : Site} {sp : Space} (h : Wrote s u c x sp) (k : v.clusters = u.clusters ∧ v.heats = u.heats ∧ v.ports = u.ports ∧
    v.com = { u.com with ctrs := v.com.ctrs, cache := v.com.cache } ∧ v.now = u.now ∧ v.pending = u.pending) : Wrote s v c x sp := by
  obtain ⟨k1, k2, k3, k4, k5, k6⟩ := k
  refine ⟨fun d => ?_, fun j => ?_, k3.trans h.ports, ?_, k5.trans h.now, k6.trans h.pending⟩
  · have : v.cl d = u.cl d := by simp only [State.cl, k1]
    rw [this]; exact h.cl d
  · have : v.heat j = u.heat j := by simp only [State.heat, k2]
    rw [this]; exact h.heat j
  · rw [k4, h.com]

theorem space_start (s : State) (c : Fin 64) (q : Fin 4) (x : Site) (e : QEntry) : (s.startCommand c q x e).1.space x = s.space x := by
  have hb := start_between s c q x e
  have hh : (s.startCommand c q x e).1.heat x.h = { s.heat x.h with chans := ((s.startCommand c q x e).1.heat x.h).chans } := by
    rw [hb.heats, if_pos rfl]
    show ((s.heat x.h).takeChans x.own e.raw) = _
    rw [takeChans_only]; rfl
  have hcl : ∀ d, ((s.startCommand c q x e).1.cl d).store = (s.cl d).store ∧ ((s.startCommand c q x e).1.cl d).fnTab = (s.cl d).fnTab := by
    intro d
    by_cases hd : d = c
    · subst hd; rw [hb.cl]; exact ⟨rfl, rfl⟩
    · rw [hb.others d hd]; exact ⟨rfl, rfl⟩
  have hcom : (s.startCommand c q x e).1.com = s.com := rfl
  generalize (s.startCommand c q x e).1 = u at *
  unfold State.space
  dsimp only
  rw [hh]
  congr 1
  · unfold State.heatMap State.programTop State.mediaBase State.partnerBase State.usableTop State.capacity State.positionBytes State.reserve
    rw [hcom]; rfl
  · exact List.map_congr_left (fun d _ => (hcl d).1)
  · show (match (s.heat x.h).clusterList[x.own]? with | some c => (u.cl c).fnTab | none => []) = _
    cases (s.heat x.h).clusterList[x.own]? with
    | none => rfl
    | some d => exact (hcl d).2

theorem giveChans_chans (h k : Heat) (own raw : Nat) (hc : k.chans = h.chans) (hf : k.folds = h.folds) :
    (k.giveChans own raw).chans = (h.giveChans own raw).chans := by
  have hw : ∀ (h k : Heat) (i : Nat), k.chans = h.chans → k.folds = h.folds → k.waitChan own i = h.waitChan own i ∧ k.postChan own i = h.postChan own i := by
    intro h k i hc hf
    unfold Heat.waitChan Heat.postChan Heat.runs
    rw [hc, hf]; exact ⟨rfl, rfl⟩
  have hm : ∀ (h k : Heat) (i : Nat) (f : Chan → Chan), k.chans = h.chans → k.folds = h.folds →
      (k.modChan i f).chans = (h.modChan i f).chans ∧ (k.modChan i f).folds = (h.modChan i f).folds := by
    intro h k i f hc hf
    unfold Heat.modChan
    dsimp only
    rw [hc, hf]; exact ⟨rfl, rfl⟩
  unfold Heat.giveChans
  dsimp only
  rw [(hw h k _ hc hf).1]
  by_cases hwe : waitEn raw = true <;> by_cases hpe : postEn raw = true <;> simp only [hwe, hpe, if_true, if_false, Bool.false_eq_true]
  · cases h.waitChan own (waitId raw) with
    | none =>
      dsimp only
      rw [(hw h k _ hc hf).2]
      cases h.postChan own (postId raw) with
      | none => exact hc
      | some i => exact (hm h k i _ hc hf).1
    | some i =>
      dsimp only
      have h2 := hm h k i (fun c => { c with returned := c.returned + 1 }) hc hf
      rw [(hw _ _ _ h2.1 h2.2).2]
      cases (h.modChan i (fun c => { c with returned := c.returned + 1 })).postChan own (postId raw) with
      | none => exact h2.1
      | some j => exact (hm _ _ j _ h2.1 h2.2).1
  · cases h.waitChan own (waitId raw) with
    | none => exact hc
    | some i => exact (hm h k i _ hc hf).1
  · rw [(hw h k _ hc hf).2]
    cases h.postChan own (postId raw) with
    | none => exact hc
    | some i => exact (hm h k i _ hc hf).1
  · exact hc
theorem heat_moved {h b : Heat} {m sc : Mem} {p : List Nat} {cs : List Chan} {v : Hurdle}
    (e : h = { b with mem := m, poison := p, scratch := sc, chans := cs, hu := b.hu.heldAs v }) :
    h = { b with mem := h.mem, poison := h.poison, scratch := h.scratch, chans := h.chans, hu := b.hu.heldAs h.hu } := by
  subst e; rfl
theorem space_done (s u : State) (c : Fin 64) (q : Fin 4) (x : Site) (e : QEntry) (sp : Space) (hs : s.startable c q = some (x, e))
    (hsp : sp.hm = (s.space x).hm ∧ sp.own = x.own ∧ sp.staging = (s.heat x.h).staging ∧ sp.stores.length = (s.heat x.h).clusterList.length)
    (hw : Wrote (s.startCommand c q x e).1 u c x sp) :
    let t := (u.complete c q x (s.latch c e)).refreshHeld x.h
    CommandDone s t c q x e [] ∧ MoverFrame s t c x ∧ t.space x = sp := by
  intro t
  have hb := start_between s c q x e
  have hh : HoldOnly (u.complete c q x (s.latch c e)) t := holdOnly_refreshHeld _ x.h
  obtain ⟨r, hf, h1, h2, h3, h4, h5, h6, h7⟩ := complete_finished u c q x (s.latch c e)
  have hcom : (s.startCommand c q x e).1.com = s.com := rfl
  have hown := site_own (startable_site hs)
  revert hh hf
  generalize u.complete c q x (s.latch c e) = w
  intro hh hf
  clear_value t
  generalize (s.startCommand c q x e).1 = v at *
  have hhx : v.heat x.h = (s.heat x.h).takeChans x.own e.raw := by rw [hb.heats, if_pos rfl]; rfl
  have hcl' : (v.heat x.h).clusterList = (s.heat x.h).clusterList := by rw [hhx, takeChans_only]; rfl
  have hcls : ∀ d, u.cl d = { v.cl d with
      store := if d ∈ (s.heat x.h).clusterList then sp.stores.getD ((s.heat x.h).clusterList.idxOf d) [] else (v.cl d).store
      fnTab := if d = c then sp.fn else (v.cl d).fnTab } := by
    intro d; rw [hw.cl d, hcl']
  have hcl : t.cl c = ((((({ (s.cl c).setHead q (s.latch c e) with
      store := if c ∈ (s.heat x.h).clusterList then sp.stores.getD ((s.heat x.h).clusterList.idxOf c) [] else (s.cl c).store
      fnTab := sp.fn } : Cluster).addSplit r).popHead q).noteDone q (s.latch c e) s.now)) := by
    rw [hh.cl, hf.cl, hcls, hb.cl, hw.now, hb.now, if_pos rfl]; rfl
  have hot : ∀ d, d ≠ c → t.cl d = { s.cl d with store := if d ∈ (s.heat x.h).clusterList then sp.stores.getD ((s.heat x.h).clusterList.idxOf d) [] else (s.cl d).store } := by
    intro d hd
    rw [hh.cl, hf.others d hd, hcls, hb.others d hd, if_neg hd]
  have hheat : ∀ j, w.heat j = if j = x.h then ({ (s.heat j).takeChans x.own e.raw with
      mem := sp.mem, poison := sp.poison, scratch := sp.scratch, staging := sp.staging } : Heat).giveChans x.own e.raw else s.heat j := by
    intro j
    rw [hf.heats, hw.heat, hb.heats]
    split <;> rfl
  have hticks : u.ticks = s.ticks := by simp [State.ticks, hw.now, hb.now]
  have hgive : ∀ h : Heat, ({ h with mem := sp.mem, poison := sp.poison, scratch := sp.scratch, staging := sp.staging } : Heat).giveChans x.own e.raw =
      { h.giveChans x.own e.raw with mem := sp.mem, poison := sp.poison, scratch := sp.scratch, staging := sp.staging } := by
    intro h
    have h1 := giveChans_only ({ h with mem := sp.mem, poison := sp.poison, scratch := sp.scratch, staging := sp.staging } : Heat) x.own e.raw
    have h2 := giveChans_only h x.own e.raw
    have h3 := giveChans_chans h ({ h with mem := sp.mem, poison := sp.poison, scratch := sp.scratch, staging := sp.staging } : Heat) x.own e.raw rfl rfl
    rw [h3] at h1
    rw [h1]
    exact congrArg (fun k : Heat => ({ k with mem := sp.mem, poison := sp.poison, scratch := sp.scratch, staging := sp.staging } : Heat)) h2.symm
  have hx : t.heat x.h = { s.heat x.h with mem := sp.mem, poison := sp.poison, scratch := sp.scratch, chans := (t.heat x.h).chans, hu := (s.heat x.h).hu.heldAs (t.heat x.h).hu } ∧
      (t.heat x.h).chans = (((s.heat x.h).takeChans x.own e.raw).giveChans x.own e.raw).chans := by
    have hw2 := hh.heats x.h
    rw [hheat, if_pos rfl, hgive] at hw2
    constructor
    · rw [giveChans_only, takeChans_only, hsp.2.2.1] at hw2
      rw [hw2]; rfl
    · rw [hw2]
  refine ⟨⟨?_, ?_, ⟨r, ?_, ?_, h2, h3, h4, h5, h6.trans hticks, h7⟩, ?_, ?_⟩, ⟨?_, ?_, ?_, ?_, ?_, ?_, ?_, ?_⟩, ?_⟩
  · rw [hcl]; simp [Cluster.noteDone, Cluster.popHead, Cluster.addSplit, Cluster.setHead]
  · rw [hcl]; simp [Cluster.noteDone, Cluster.popHead, Cluster.addSplit, Cluster.setHead, State.latch]
  · rw [hcl]; exact addSplit_last _ _
  · rw [h1, hcls, hb.cl]; rfl
  · rw [hcl]; rfl
  · exact hx.2
  · intro d hd; rw [hot d hd]
  · intro d hd
    by_cases h : d = c
    · subst h; exact absurd (List.mem_of_getElem? hown) hd
    · rw [hot d h]; simp [hd]
  · rw [hcl]; rfl
  · intro j
    by_cases hj : j = x.h
    · subst hj; rw [if_pos rfl]; exact heat_moved hx.1
    · rw [if_neg hj]
      have hw2 := hh.heats j
      rw [hheat, if_neg hj] at hw2
      exact hw2
  · intro p
    rw [hh.ports]
    have : w.port p = s.port p := by simp only [State.port, hf.ports, hw.ports, hb.ports]
    rw [this]; rfl
  · rw [hh.com, hf.com, hw.com, hcom]
  · rw [hh.now, hf.now, hw.now, hb.now]
  · rw [hh.pending, hf.pending, hw.pending, hb.pending]
  · have hcomt : t.com = { s.com with ctrs := t.com.ctrs, cache := t.com.cache } := by rw [hh.com, hf.com, hw.com, hcom]
    have hc2 : (t.heat x.h).clusterList = (s.heat x.h).clusterList := by rw [hx.1]; rfl
    have hidx : (s.heat x.h).clusterList.idxOf c = x.own := by
      have := List.mem_of_getElem? hown
      obtain ⟨hlt, hget⟩ := List.getElem?_eq_some_iff.mp hown
      rw [← hget]
      exact (clusterList_nodup _).idxOf_getElem _ hlt
    unfold State.space
    dsimp only
    rw [hc2, hown]
    dsimp only
    obtain ⟨hm, own, mem, poison, scratch, staging, stores, fn⟩ := sp
    dsimp only at *
    congr 1
    · rw [hsp.1]
      unfold State.space State.heatMap State.programTop State.mediaBase State.partnerBase State.usableTop State.capacity State.positionBytes State.reserve
      dsimp only
      rw [hx.1, hcomt]; rfl
    · exact hsp.2.1.symm
    · rw [hx.1]
    · rw [hx.1]
    · rw [hx.1]
    · rw [hx.1]; exact hsp.2.2.1.symm
    · refine List.ext_getElem (by simpa using hsp.2.2.2.symm) (fun n h1 h2 => ?_)
      rw [List.getElem_map]
      have hlt : n < (s.heat x.h).clusterList.length := by simpa using h1
      have hst : ∀ d, (t.cl d).store = if d ∈ (s.heat x.h).clusterList then stores.getD ((s.heat x.h).clusterList.idxOf d) [] else (s.cl d).store := by
        intro d
        by_cases h : d = c
        · subst h; rw [hcl]; rfl
        · rw [hot d h]
      rw [hst, if_pos (List.getElem_mem _), (clusterList_nodup _).idxOf_getElem _ hlt]
      rw [List.getD_eq_getElem?_getD, List.getElem?_eq_getElem h2]; rfl
    · rw [hcl]; rfl

/-- Two states differ in counters and in what the shared cache holds at most, and in what left and the use of free values. -/
def Counted (s t : State) : Prop := t.clusters = s.clusters ∧ t.heats = s.heats ∧ t.ports = s.ports ∧
  t.com = { s.com with ctrs := t.com.ctrs, cache := t.com.cache } ∧ t.now = s.now ∧ t.pending = s.pending
theorem Counted.trans {a b c : State} (h : Counted a b) (k : Counted b c) : Counted a c :=
  ⟨k.1.trans h.1, k.2.1.trans h.2.1, k.2.2.1.trans h.2.2.1, by rw [k.2.2.2.1, h.2.2.2.1], k.2.2.2.2.1.trans h.2.2.2.2.1, k.2.2.2.2.2.trans h.2.2.2.2.2⟩
theorem counted_refl (s : State) : Counted s s := ⟨rfl, rfl, rfl, rfl, rfl, rfl⟩
theorem counted_bump (s : State) (g i x n : Nat) : Counted s (s.bump g i x n) := ⟨rfl, rfl, rfl, rfl, rfl, rfl⟩
theorem counted_useFree (s : State) : Counted s s.useFree := ⟨rfl, rfl, rfl, rfl, rfl, rfl⟩
theorem counted_setCached (s : State) (hi : Fin 4) (line v : Nat) : Counted s (s.setCached hi line v) := ⟨rfl, rfl, rfl, rfl, rfl, rfl⟩
theorem counted_ite {s a b : State} (p : Prop) [Decidable p] (h : Counted s a) (k : Counted s b) : Counted s (if p then a else b) := by
  split <;> assumption
theorem counted_foldl {α : Type} (f : State → α → State) (hf : ∀ s a, Counted s (f s a)) (xs : List α) (s : State) : Counted s (xs.foldl f s) := by
  induction xs generalizing s with
  | nil => exact counted_refl s
  | cons a xs ih => exact (hf s a).trans (ih _)
theorem counted_chanReads (s : State) (ch n : Nat) : Counted s (s.chanReads ch n) := by
  unfold State.chanReads
  exact (counted_bump s 2 ch 0 n).trans (counted_foldl (fun s _ => (s.bumpBin 2 ch 8 (Config.ticks s.free / 8)).useFree)
    (fun _ _ => ⟨rfl, rfl, rfl, rfl, rfl, rfl⟩) _ _)
theorem counted_dropLine (s : State) (hi : Fin 4) (line : Nat) : Counted s (s.dropLine hi line) :=
  Counted.trans (counted_ite _ ((counted_bump s _ _ _ _).trans (counted_setCached _ _ _ _)) (counted_refl s)) (counted_setCached _ _ _ _)
theorem counted_allocLine (s : State) (hi : Fin 4) (line : Nat) (dirty : Bool) : Counted s (s.allocLine hi line dirty) := by
  unfold State.allocLine
  dsimp only
  refine Counted.trans (Counted.trans (counted_useFree s) ?_) (counted_setCached _ _ _ _)
  split
  · exact counted_dropLine _ _ _
  · exact counted_refl _
theorem counted_wideLine (s : State) (hi : Fin 4) (hint line : Nat) (write whole : Bool) : Counted s (s.wideLine hi hint line write whole) := by
  unfold State.wideLine
  dsimp only
  have h1 : Counted s (if write then s.setCached hi line 2 else s) := counted_ite _ (counted_setCached _ _ _ _) (counted_refl s)
  have h2 : Counted s (if (write && whole) = true then s else s.lineReads hi line 8) := counted_ite _ (counted_refl s) (counted_chanReads _ _ _)
  exact counted_ite _ (counted_ite _ (h1.trans (counted_dropLine _ _ _)) h1)
    (counted_ite _ (h2.trans (counted_allocLine _ _ _ _)) (counted_ite _ (h2.trans (counted_bump _ _ _ _ _)) h2))
theorem counted_narrowGranule (s : State) (hi : Fin 4) (hint g : Nat) (write whole : Bool) : Counted s (s.narrowGranule hi hint g write whole) := by
  unfold State.narrowGranule
  dsimp only
  have h1 : Counted s (if write then s.setCached hi (g / 8) 2 else s) := counted_ite _ (counted_setCached _ _ _ _) (counted_refl s)
  have h2 : Counted s (if (write && whole) = true then s else s.lineReads hi (g / 8) 1) := counted_ite _ (counted_refl s) (counted_chanReads _ _ _)
  exact counted_ite _ (counted_ite _ (h1.trans (counted_dropLine _ _ _)) h1) (counted_ite _ (h2.trans (counted_bump _ _ _ _ _)) h2)
/-- Traffic through the cache changes counters and residency alone. -/
theorem counted_traffic (s : State) (hi : Fin 4) (hm : HeatMap) (hint : Nat) (as : List MemAccess) : Counted s (s.traffic hi hm hint as) := by
  refine counted_foldl _ (fun s a => ?_) _ _
  unfold State.access
  split
  · exact counted_ite _ (counted_foldl _ (fun s u => counted_narrowGranule s _ _ _ _ _) _ _) (counted_foldl _ (fun s u => counted_wideLine s _ _ _ _ _) _ _)
  · exact counted_ite _ (counted_foldl _ (fun s u => counted_narrowGranule s _ _ _ _ _) _ _) (counted_foldl _ (fun s u => counted_wideLine s _ _ _ _ _) _ _)
  · exact counted_refl s
theorem countAtomics_counts (s : State) (x : Site) (raw : Nat) : Counted s (s.countAtomics x raw) := by
  unfold State.countAtomics
  dsimp only
  split
  · split
    · exact counted_refl s
    · exact counted_foldl _ (fun s m => (counted_dropLine s _ _).trans (counted_bump _ _ _ _ _)) _ _
  · exact counted_refl s
theorem mover_row {s : State} {c : Fin 64} {x : Site} {e : QEntry} {o : MovOut} {dest : List (Nat × Nat) → Prop} (isRow : Nat → Bool)
    (go : State → Site → QEntry → State × Nat) (u : State) (hs : s.startable c qMover = some (x, e)) (hrow : isRow e.raw = true)
    (hl : ∃ rs, dest rs ∧ Space.Leaves (Untouched (s.space x).hm rs) (s.space x) o.sp)
    (hgo : go (s.startCommand c qMover x e).1 x (s.latch c e) = (u, 0))
    (hu : Counted ((s.startCommand c qMover x e).1.putSpace x o.sp) u) :
    ∃ t, s.runHead c qMover isRow go = .next t ∧ CommandDone s t c qMover x e [] ∧ MoverFrame s t c x ∧ t.space x = o.sp ∧
      ∃ ds, dest ds ∧ ∀ l, Untouched (s.space x).hm ds l → (t.space x).at l = (s.space x).at l := by
  obtain ⟨ds, hd, hl⟩ := hl
  have hst := start_between s c qMover x e
  have hcl : ((s.startCommand c qMover x e).1.heat x.h).clusterList = (s.heat x.h).clusterList := by
    rw [hst.heats, if_pos rfl]
    show ((s.heat x.h).takeChans x.own e.raw).clusterList = _
    rw [takeChans_only]; rfl
  have hlen : o.sp.stores.length = (s.heat x.h).clusterList.length := by
    rw [hl.stores]
    show ((s.heat x.h).clusterList.map _).length = _
    rw [List.length_map]
  have hw := (putSpace_wrote (s.startCommand c qMover x e).1 c x o.sp (by rw [hcl]; exact site_own (startable_site hs)) (by rw [hcl]; exact hlen)).counts hu
  have hm := space_done s u c qMover x e o.sp hs ⟨hl.hm, hl.own, hl.staging, hlen⟩ hw
  refine ⟨_, ?_, hm.1, hm.2.1, hm.2.2, ds, hd, fun l hh => ?_⟩
  · unfold State.runHead
    rw [hs]
    dsimp only
    rw [if_pos hrow, start_entry, hgo]
    rfl
  · rw [hm.2.2]; exact hl.same l hh
/-- A mover command that wrote what no failing granule keeps back: memory in place, counted, its traffic through the cache. -/
theorem putMover_ok (s : State) (c : Fin 64) (x : Site) (bytes : Nat) (sp : Space) (q : Nat) (o : MovOut) (h0 : o.status = 0) :
    s.putMover c x false bytes sp q (.ok o) = (((s.putSpace x o.sp).bump 1 c.val 17 bytes).moverTraffic x sp o.sp q, 0) := by
  unfold State.putMover
  simp [h0]
theorem run_mover {s : State} {c : Fin 64} {x : Site} {e : QEntry} {o : MovOut} {dest : List (Nat × Nat) → Prop} (isRow : Nat → Bool)
    (offs : Nat → List Nat) (run : State → Site → Space → Nat → Except Nat MovOut) (hs : s.startable c qMover = some (x, e))
    (hp : s.peersReach x e.raw = true)
    (hrow : isRow e.raw = true) (hrun : ∀ u : State, run u x (s.space x) e.raw = .ok o) (h0 : o.status = 0)
    (hl : ∃ rs, dest rs ∧ Space.Leaves (Untouched (s.space x).hm rs) (s.space x) o.sp) :
    ∃ t, s.runMover c false isRow offs run = .next t ∧ CommandDone s t c qMover x e [] ∧ MoverFrame s t c x ∧ t.space x = o.sp ∧
      ∃ ds, dest ds ∧ ∀ l, Untouched (s.space x).hm ds l → (t.space x).at l = (s.space x).at l := by
  unfold State.runMover State.runMoverHead
  rw [hs]
  dsimp only
  rw [if_pos hp]
  refine mover_row isRow _ _ hs hrow hl (Prod.ext rfl ?_) ?_
  · have : (s.latch c e).raw = e.raw := rfl
    rw [space_start, this, hrun, putMover_ok _ _ _ _ _ _ _ h0]
  · have : (s.latch c e).raw = e.raw := rfl
    rw [space_start, this, hrun, putMover_ok _ _ _ _ _ _ _ h0]
    exact (counted_bump _ _ _ _ _).trans (counted_traffic _ _ _ _ _)
theorem run_scatter {s : State} {c : Fin 64} {x : Site} {e : QEntry} {o : MovOut} (isAop : Nat → Bool)
    (hs : s.startable c qMover = some (x, e)) (hp : s.peersReach x e.raw = true) (hop : cmdOp e.raw = 0x21) (hrow : isAop (aopOf e.raw) = true)
    (hrun : scatterRun x.prog.recipes x.prog.floatAtomics s.cacheAtomics (s.space x) e.raw = .ok o) (h0 : o.status = 0) :
    ∃ t, s.runScatter c false isAop = .next t ∧ CommandDone s t c qMover x e [] ∧ MoverFrame s t c x ∧ t.space x = o.sp ∧
      ∃ ds, tensorDest x.prog.recipes (s.space x) (fld e.raw 87 64) ds ∧ ∀ l, Untouched (s.space x).hm ds l → (t.space x).at l = (s.space x).at l := by
  unfold State.runScatter State.runMoverHead
  rw [hs]
  dsimp only
  rw [if_pos hp]
  have h1 : (s.latch c e).raw = e.raw := rfl
  have h2 : (s.startCommand c qMover x e).1.cacheAtomics = s.cacheAtomics := rfl
  refine mover_row _ _ _ hs (by simp [hop, hrow]) ((leaves_scatterRun _ _ _ _ _).of_eq hrun) (Prod.ext rfl ?_) ?_
  · rw [space_start, h1, h2, hrun, putMover_ok _ _ _ _ _ _ _ h0]
  · rw [space_start, h1, h2, hrun, putMover_ok _ _ _ _ _ _ _ h0]
    exact ((counted_bump _ _ _ _ _).trans (counted_traffic _ _ _ _ _)).trans (counted_ite _ (countAtomics_counts _ x _) (counted_refl _))
end Sys2Proof.Machine
end

