-- ==== Sys2Proof/Laws/CoreFrame.lean ====
section
/-! SUPPORT. What the control core's rows leave alone: pacing of a block, the summary queue at rest, an instruction of a core that runs. -/
namespace Sys2Proof.Machine
/-- Only a cluster's pacing, counters and the use of free values differ. -/
structure PaceOnly (s t : State) (c : Fin 64) : Prop where
  cl : t.cl c = { s.cl c with pc := (t.cl c).pc }
  kept : (t.cl c).pc.pace = (s.cl c).pc.pace
  others : ∀ d, d ≠ c → t.cl d = s.cl d
  heats : t.heats = s.heats
  ports : t.ports = s.ports
  com : t.com = { s.com with ctrs := t.com.ctrs }
  now : t.now = s.now
  pending : t.pending = s.pending
theorem PaceOnly.refl (s : State) (c : Fin 64) : PaceOnly s s c := ⟨rfl, rfl, fun _ _ => rfl, rfl, rfl, rfl, rfl, rfl⟩
theorem PaceOnly.trans {s t u : State} {c : Fin 64} (h : PaceOnly s t c) (k : PaceOnly t u c) : PaceOnly s u c :=
  ⟨by rw [k.cl, h.cl], k.kept.trans h.kept, fun d hd => (k.others d hd).trans (h.others d hd), k.heats.trans h.heats, k.ports.trans h.ports,
    by rw [k.com, h.com], k.now.trans h.now, k.pending.trans h.pending⟩
theorem paceOnly_mod (s : State) (c : Fin 64) (f : Pacing → Pacing) (h : ∀ p, (f p).pace = p.pace) : PaceOnly s (s.modCl c (fun t => { t with pc := f t.pc })) c := by
  refine ⟨?_, ?_, fun d hd => State.cl_modCl_ne _ _ _ _ (Ne.symm hd), rfl, rfl, rfl, rfl, rfl⟩
  · rw [State.cl_modCl_same]
  · rw [State.cl_modCl_same]; exact h _
theorem paceOnly_bump (s : State) (c : Fin 64) (g i x n : Nat) : PaceOnly s (s.bump g i x n) c := ⟨rfl, rfl, fun _ _ => rfl, rfl, rfl, rfl, rfl, rfl⟩
theorem paceOnly_setPace (s : State) (c : Fin 64) (st : PaceState) (m : PaceMove) : PaceOnly s (s.setPace c st m) c :=
  (paceOnly_bump s c _ _ _ _).trans (paceOnly_mod _ c (fun p => { p with st := st, move := m, since := s.now }) (fun _ => rfl))
theorem paceOnly_applyPace (s : State) (c : Fin 64) : PaceOnly s (s.applyPace c) c := by
  unfold State.applyPace
  dsimp only
  split
  · exact PaceOnly.refl s c
  · generalize (if (s.cl c).pc.st.asleep = true then s.heldMv (s.cl c).pc else s.setpoint (s.cl c).pc) = v
    have h1 : PaceOnly s ((s.modCl c (fun t => { t with pc := { t.pc with active := v } })).setLevel 1 c.val 29 v) c :=
      (paceOnly_mod s c (fun p => { p with active := v }) (fun _ => rfl)).trans ⟨rfl, rfl, fun _ _ => rfl, rfl, rfl, rfl, rfl, rfl⟩
    generalize (if 750 ≤ v then PaceState.sprint else .stride) = st
    split
    · exact h1.trans (paceOnly_setPace _ c _ _)
    · exact h1
theorem paceOnly_grant (s : State) (c : Fin 64) : PaceOnly s (s.grantSprint c) c := by
  unfold State.grantSprint
  dsimp only
  refine PaceOnly.trans ?_ (paceOnly_bump _ c _ _ _ _)
  refine PaceOnly.trans (t := (if (decide (s.powerLimit ≤ s.com.pw.pin + 50) || s.com.pw.pause != 0 || s.com.pw.floor) = true then s else s.useFree)) ?_ (paceOnly_mod _ c (fun p => { p with ceiling := _ }) (fun _ => rfl))
  split
  · exact PaceOnly.refl s c
  · exact ⟨rfl, rfl, fun _ _ => rfl, rfl, rfl, rfl, rfl, rfl⟩
theorem paceOnly_pace (s : State) (c : Fin 64) : PaceOnly s (s.pace c) c := by
  unfold State.pace
  split
  · exact PaceOnly.refl s c
  · split
    · exact (paceOnly_grant s c).trans (paceOnly_applyPace _ c)
    · exact paceOnly_applyPace s c
theorem blockPace_frame (v : State) (c : Fin 64) (ev : Nat) (i : Fin 4) : let t := (v.blockPace c ev).refreshHeld i
    t.cl c = { v.cl c with pc := (t.cl c).pc } ∧ (t.cl c).pc.pace = fld ev 1 0 ∧ (∀ d, d ≠ c → t.cl d = v.cl d) ∧
    (∀ j, t.heat j = { v.heat j with hu := (v.heat j).hu.heldAs (t.heat j).hu }) ∧ (∀ p, t.port p = (v.port p).sentAs (t.port p)) ∧
    t.com = { v.com with ctrs := t.com.ctrs } ∧ t.now = v.now ∧ t.pending = v.pending := by
  intro t
  have h1 : PaceOnly (v.modCl c (fun t => { t with pc := { t.pc with pace := fld ev 1 0, frac := fld ev 15 8, raised := 0 } })) (v.blockPace c ev) c :=
    paceOnly_pace _ c
  have h2 : HoldOnly (v.blockPace c ev) t := holdOnly_refreshHeld _ i
  generalize v.blockPace c ev = u at h1 h2
  clear_value t
  refine ⟨?_, ?_, ?_, ?_, ?_, ?_, ?_, ?_⟩
  · rw [h2.cl, h1.cl, State.cl_modCl_same]
  · rw [h2.cl, h1.kept, State.cl_modCl_same]
  · intro d hd
    rw [h2.cl, h1.others d hd, State.cl_modCl_ne _ _ _ _ (Ne.symm hd)]
  · intro j
    have := h2.heats j
    have e : u.heat j = v.heat j := by unfold State.heat; rw [h1.heats]; rfl
    rw [e] at this; exact this
  · intro p
    have := h2.ports p
    have e : u.port p = v.port p := by unfold State.port; rw [h1.ports]; rfl
    rw [e] at this; exact this
  · rw [h2.com, h1.com]; rfl
  · rw [h2.now, h1.now]; rfl
  · rw [h2.pending, h1.pending]; rfl
theorem drainSum_idle (s : State) (c : Fin 64) (h : ∀ e, (s.cl c).queues[qVector].head? = some e → ∀ v, e.phase ≠ .summary v) : s.drainSum c = s := by
  unfold State.drainSum
  dsimp only
  split
  · rename_i x e l hx hq
    split
    · rename_i v hv
      exact absurd hv (h e (by rw [hq]; rfl) v)
    · rfl
  · rfl
theorem onCore_next {s : State} {c : Fin 64} {x : Site} {i : RvIns} {len : Nat} (go : State → Site → RvIns → Nat → State)
    (hs : s.coreSite c = some x) (hf : (s.cl c).fetch = some (i, len)) : s.onCore c go = .next ((go s x i len).refreshHeld x.h) := by
  unfold State.onCore
  rw [hs, hf]
theorem onCore_exists {s : State} {c : Fin 64} {x : Site} {ins : RvIns} {len : Nat} {go : State → Site → RvIns → Nat → State} {r : Result}
    (h : r = s.onCore c go) (hs : s.coreSite c = some x) (hf : (s.cl c).fetch = some (ins, len)) :
    r = .next ((go s x ins len).refreshHeld x.h) := h.trans (onCore_next go hs hf)
theorem coreSite_parts {s : State} {c : Fin 64} {x : Site} (h : s.coreSite c = some x) :
    s.site c = some x ∧ (s.cl c).core.running = true ∧ (s.cl c).core.restarting = false ∧ (s.cl c).frozen = false ∧ (s.cl c).retired = false := by
  unfold State.coreSite at h
  dsimp only at h
  split at h
  · rename_i hc
    simp only [Bool.and_eq_true, Bool.not_eq_true', Bool.not_eq_eq_eq_not, Bool.not_true] at hc
    exact ⟨h, hc.1.1.1.1, hc.1.1.1.2, hc.1.1.2, hc.1.2⟩
  · cases h

end Sys2Proof.Machine
end

