-- ==== Sys2Proof/Laws/EngineRows.lean ====
section
/-! SUPPORT. A CONV or a vector command that ends with OK: its completion and what stays. -/
namespace Sys2Proof.Machine

theorem core_of {s t : State} {c : Fin 64} {x : Site} (h : EngineFrame s t c x) (hs : (t.cl c).core.sums = (s.cl c).core.sums) :
    (t.cl c).core = (s.cl c).core := by
  have := congrArg Cluster.core h.own
  dsimp only at this
  rw [hs] at this; exact this
theorem startable_waiting {s : State} {c : Fin 64} {q : Fin 4} {x : Site} {e : QEntry} (h : s.startable c q = some (x, e)) :
    e.phase = .waiting := by
  unfold State.startable at h
  dsimp only at h
  split at h
  · rename_i y d _ hk
    split at h
    · cases h
      unfold Cluster.headWaiting at hk
      split at hk
      · cases hk
      · split at hk
        · cases hk; assumption
        · cases hk
    · cases h
  · cases h
theorem conv_row {s : State} {c : Fin 64} {x : Site} {e : QEntry} {o : EngOut} {lo hi : Option (Option Nat)} (f : Nat → Bool)
    (hs : s.startable c qMatrix = some (x, e)) (hop : cmdOp e.raw = 0x02) (hf : f (convMode e.raw) = true)
    (hlo : lo = haloChan (s.heat x.h) x.own e.raw false) (hhi : hi = haloChan (s.heat x.h) x.own e.raw true)
    (h1 : haloReady ((s.heat x.h).takeChans x.own e.raw) lo = true)
    (h2 : haloReady (((s.heat x.h).takeChans x.own e.raw).takeHalo [lo]) hi = true)
    (hr : convRun (s.engCtx c x) (s.cl c).store e.raw (haloSlot (s.heat x.h) lo) (haloSlot (s.heat x.h) hi) = .ok o) :
    ∃ t, s.runConv c f = .next t ∧ CommandDone s t c qMatrix x e [lo, hi] ∧
      EngineFrame s t c x ∧ (t.cl c).store = o.store ∧
      (t.cl c).core = (s.cl c).core ∧ (t.cl c).rowBuf = (s.cl c).rowBuf ∧ (t.cl c).acc = (s.cl c).acc.put o.regs := by
  have hb := start_between s c qMatrix x e
  have hx := hb.engCtx rfl
  have hst : ((s.startCommand c qMatrix x e).1.cl c).store = (s.cl c).store := by rw [hb.cl]; rfl
  have hd2 := hb.defs
  have hh : (s.startCommand c qMatrix x e).1.heat x.h = (s.heat x.h).takeChans x.own e.raw := by
    rw [hb.heats, if_pos rfl]; rfl
  have hph := startable_waiting hs
  have hraw : (s.latch c e).raw = e.raw := rfl
  have hd3 := hd2.trans (takeHalo_defs _ [lo, hi])
  have hb2 := hb.halo [lo, hi]
  have hd := engine_done s _ c qMatrix x e _ _ _ _ _ (hb2.out (fun k => { k with store := o.store, acc := k.acc.put o.regs }) s.free)
  refine ⟨_, ?_, hd.1, hd.2.1, hd.2.2.1, core_of hd.2.1 hd.2.2.2.1, hd.2.2.2.2.2, hd.2.2.2.2.1⟩
  · unfold State.runConv State.convHead
    rw [hs]
    dsimp only
    rw [if_pos (by simp [hop, hf]), if_pos (show e.phase = .waiting from hph), start_entry]
    have hp : (s.latch c e).phase = .waiting := hph
    have ht : haloTake ((s.startCommand c qMatrix x e).1.heat x.h) x.own (s.latch c e).raw 0 = ([lo, hi], true) := by
      unfold haloTake
      dsimp only
      rw [if_pos rfl, hraw, haloChan_defs hd2, haloChan_defs hd2, ← hlo, ← hhi, hh, if_pos h1, if_pos h2]
    rw [hp]
    dsimp only
    rw [ht]
    dsimp only
    rw [if_pos rfl, hraw, haloChan_defs hd2, haloChan_defs hd2, ← hlo, ← hhi]
    unfold State.convGo
    dsimp only
    have hg : [lo, hi].getD 0 none = lo := rfl
    have hg' : [lo, hi].getD 1 none = hi := rfl
    rw [hg, hg', engCtx_takeHalo, hx, State.modHeat_cl, hst, hraw, State.heat_modHeat_same, haloSlot_defs hd3, haloSlot_defs hd3, hr]
    rfl
theorem vec_row {s : State} {c : Fin 64} {x : Site} {e : QEntry} {o : VecOut} (f : Nat → Bool) (run : EngCtx → Mem → Nat → Except Nat VecOut)
    (hs : s.startable c qVector = some (x, e)) (hf : f e.raw = true) (hr : run (s.engCtx c x) (s.cl c).store e.raw = .ok o) (h0 : o.status = 0)
    (hsum : o.sum = none ∨ (s.cl c).core.sums.length < 4) :
    ∃ t, s.runVector c f run = .next t ∧ CommandDone s t c qVector x e [] ∧
      EngineFrame s t c x ∧ (t.cl c).store = o.store ∧
      (t.cl c).core.sums = (s.cl c).core.sums ++ o.sum.toList ∧ (t.cl c).acc = (s.cl c).acc := by
  have hb := start_between s c qVector x e
  have hx := hb.engCtx rfl
  have hst : ((s.startCommand c qVector x e).1.cl c).store = (s.cl c).store := by rw [hb.cl]; rfl
  have hraw : (s.latch c e).raw = e.raw := rfl
  cases hw : o.sum with
  | none =>
    have hd := engine_done s _ c qVector x e _ _ _ _ _ (hb.out (fun k => { k with store := o.store, rowBuf := .unspecified s.free }) (s.free + 1))
    refine ⟨_, ?_, hd.1, hd.2.1, hd.2.2.1, ?_, hd.2.2.2.2.1⟩
    · unfold State.runVector
      rw [hs]
      dsimp only
      rw [if_pos hf, start_entry, hx, hst, hraw, hr]
      dsimp only
      rw [if_pos h0, hw]
      rfl
    · rw [hd.2.2.2.1]; simp
  | some w =>
    have hl : (s.cl c).core.sums.length < 4 := by
      rcases hsum with h | h
      · rw [hw] at h; cases h
      · exact h
    have hd := engine_done s _ c qVector x e _ _ _ _ _ ((hb.out (fun k => { k with store := o.store, rowBuf := .unspecified s.free }) (s.free + 1)).out
      (fun k => { k with core := { k.core with sums := k.core.sums ++ [w] } }) (s.free + 1))
    refine ⟨_, ?_, hd.1, hd.2.1, hd.2.2.1, hd.2.2.2.1, hd.2.2.2.2.1⟩
    unfold State.runVector
    rw [hs]
    dsimp only
    rw [if_pos hf, start_entry, hx, hst, hraw, hr]
    dsimp only
    rw [if_pos h0, hw]
    unfold State.endVector
    dsimp only
    rw [if_pos]
    · rfl
    · have : (((s.startCommand c qVector x e).1.putVector c o).cl c).core.sums = (s.cl c).core.sums := by
        have : ((s.startCommand c qVector x e).1.putVector c o).cl c = _ := (hb.out (fun k => { k with store := o.store, rowBuf := .unspecified s.free }) (s.free + 1)).cl
        rw [this]; rfl
      rw [this]; exact hl

end Sys2Proof.Machine
end

