-- ==== Sys2Proof/Laws/FlitFrame.lean ====
section
/-! SUPPORT. What the link layer makes of a flit it accepts, and which operation of a running heat takes it in. -/
namespace Sys2Proof.Machine
theorem crcGood_eq {bs : Bytes} : crcGood bs = true ↔ leAt bs 276 4 = crc32 (bs.take 276) := by
  unfold crcGood; exact beq_iff_eq
theorem seen_live {s : State} {f : FlitRx} (h : FlitSeen s f) :
    ¬ (((s.port f.port).retired || !(s.port f.port).lanes[f.lane].up || (s.port f.port).lanes[f.lane].retired || !(s.port f.port).lanes[f.lane].lock) = true) := by
  rw [h.port, h.up, h.lane, h.lock]; decide
theorem linkRx_taken {s : State} {f : FlitRx} {hdr : Nat} {pay : Bytes} (h : FlitTaken s f hdr pay) :
    s.linkRx f = (s.flitTaken f, .taken hdr pay (s.port f.port).rx.expect) := by
  have hcrc := crcGood_eq.mp h.crc
  unfold State.linkRx
  dsimp only
  have ht := h.type
  have t1 : ¬ (hdrType hdr = 1 ∨ hdrType hdr = 2) := by clear hcrc; omega
  have t2 : ¬ 6 ≤ hdrType hdr := by clear hcrc; omega
  rw [if_neg (seen_live h.toFlitSeen), if_pos hcrc, h.header, if_neg (by simpa using t1), if_neg t2]
  rw [if_pos h.seq, h.payload, h.seq]
  rfl
theorem withFlit_taken {s : State} {f : FlitRx} {hdr : Nat} {pay : Bytes} (h : FlitTaken s f hdr pay) {want : Nat → Bytes → Bool}
    (hw : want hdr pay = true) (go : State → Nat → Bytes → Nat → State) :
    s.withFlit f want go = .next (go (s.flitTaken f) hdr pay (s.port f.port).rx.expect) := by
  unfold State.withFlit
  rw [if_pos h.size, if_neg (by simp [h.crc, h.header, h.payload, hw]), linkRx_taken h]
theorem flit_next {s : State} {f : FlitRx} {hdr : Nat} {pay : Bytes} {i : Instr} {want : Nat → Bytes → Bool} {go : State → Nat → Bytes → Nat → State} {t : State}
    (h : FlitTaken s f hdr pay) (he : exec i s = s.withFlit f want go) (hw : want hdr pay = true)
    (ht : go (s.flitTaken f) hdr pay (s.port f.port).rx.expect = t) : exec i s = .next t := by
  rw [he, withFlit_taken h hw, ht]
theorem flitTaken_heat (s : State) (f : FlitRx) (j : Fin 4) : (s.flitTaken f).heat j = s.heat j := rfl
theorem deliver_runs {s : State} {port : Fin 32} {hi : Fin 4} {p : Program} (h : PortRuns s port hi p) (hdr : Nat) (pay : Bytes) (n : Nat) :
    s.deliver port hdr pay n = (s.process hi port p hdr pay n).pump port := by
  unfold State.deliver
  have ho := h.owner
  cases hc : s.heatOfPort port with
  | none => rw [hc] at ho; cases ho
  | some x =>
    obtain ⟨a, b⟩ := x
    rw [hc] at ho
    simp only [Option.map_some, Option.some.injEq] at ho
    subst ho
    dsimp only
    rw [h.image]
    dsimp only
    rw [if_neg]
    unfold Heat.holdsFlit
    rw [h.running]
    exact Bool.false_ne_true
theorem process_ack (s : State) (hi : Fin 4) (port : Fin 32) (p : Program) (hdr : Nat) (pay : Bytes) (n : Nat) (ht : hdrType hdr = 4) :
    s.process hi port p hdr pay n = if hdrDest hdr == (s.heat hi).ownId then (s.freeBuffer port hdr).ackIn hi hdr pay else s.passOn hi port p hdr pay := by
  unfold State.process; rw [ht]; rfl
theorem process_hurdle (s : State) (hi : Fin 4) (port : Fin 32) (p : Program) (hdr : Nat) (pay : Bytes) (n : Nat) (ht : hdrType hdr = 5) :
    s.process hi port p hdr pay n = if hdrDest hdr == (s.heat hi).ownId then (s.freeBuffer port hdr).hurdleIn hi port p pay else s.passOn hi port p hdr pay := by
  unfold State.process; rw [ht]; rfl
theorem portRuns_taken {s : State} {f : FlitRx} {hi : Fin 4} {p : Program} (h : PortRuns s f.port hi p) : PortRuns (s.flitTaken f) f.port hi p :=
  ⟨h.owner, h.image, h.running⟩

end Sys2Proof.Machine
end

