-- ==== Sys2Proof/Laws/Ops.lean ====
section
/-! SUPPORT. What the shared operations of Machine/Ops.lean leave alone: time, messages and reports, the life log, retirement. -/
namespace Sys2Proof.Machine

/-- Two states agree on clusters, ports, heats, time, free values and the queue: only the module-wide part and what left may differ. -/
def SameCore (s t : State) : Prop :=
  t.clusters = s.clusters ∧ t.ports = s.ports ∧ t.heats = s.heats ∧ t.now = s.now ∧ t.free = s.free ∧ t.pending = s.pending

theorem SameCore.refl (s : State) : SameCore s s := ⟨rfl, rfl, rfl, rfl, rfl, rfl⟩
theorem SameCore.trans {s t u : State} (h : SameCore s t) (k : SameCore t u) : SameCore s u := by
  obtain ⟨a, b, c, d, e, f⟩ := h
  obtain ⟨a', b', c', d', e', f'⟩ := k
  exact ⟨a'.trans a, b'.trans b, c'.trans c, d'.trans d, e'.trans e, f'.trans f⟩
theorem SameCore.cl {s t : State} (h : SameCore s t) (c : Fin 64) : t.cl c = s.cl c := by simp [State.cl, h.1]
theorem SameCore.port {s t : State} (h : SameCore s t) (p : Fin 32) : t.port p = s.port p := by simp [State.port, h.2.1]
theorem SameCore.heat {s t : State} (h : SameCore s t) (i : Fin 4) : t.heat i = s.heat i := by simp [State.heat, h.2.2.1]
/-- A fold of operations that each keep the core keeps it. -/
theorem SameCore.foldl {α : Type} (f : State → α → State) (hf : ∀ s a, SameCore s (f s a)) (xs : List α) (s : State) :
    SameCore s (xs.foldl f s) := by
  induction xs generalizing s with
  | nil => exact SameCore.refl s
  | cons x xs ih => exact (hf s x).trans (ih (f s x))

theorem sameCore_modCom (s : State) (f : Common → Common) : SameCore s (s.modCom f) := ⟨rfl, rfl, rfl, rfl, rfl, rfl⟩
theorem sameCore_emit (s : State) (o : OutItem) : SameCore s (s.emit o) := ⟨rfl, rfl, rfl, rfl, rfl, rfl⟩
theorem sameCore_bump (s : State) (g i x n : Nat) : SameCore s (s.bump g i x n) := sameCore_modCom s _
theorem sameCore_bumpBin (s : State) (g i x b : Nat) : SameCore s (s.bumpBin g i x b) := sameCore_modCom s _
theorem sameCore_setLevel (s : State) (g i x : Nat) (v : Int) : SameCore s (s.setLevel g i x v) := sameCore_modCom s _
theorem sameCore_modMgmt (s : State) (f : Mgmt → Mgmt) : SameCore s (s.modMgmt f) := sameCore_modCom s _
theorem sameCore_modBoot (s : State) (f : Boot → Boot) : SameCore s (s.modBoot f) := sameCore_modCom s _
theorem sameCore_modPw (s : State) (f : Power → Power) : SameCore s (s.modPw f) := sameCore_modCom s _
theorem sameCore_modStore (s : State) (f : Storage → Storage) : SameCore s (s.modStore f) := sameCore_modCom s _
theorem sameCore_alert (s : State) (b : Nat) : SameCore s (s.alert b) := sameCore_modCom s _

theorem sameCore_sendMsg (s : State) (conn ty st heat seq : Nat) (body : Bytes) : SameCore s (s.sendMsg conn ty st heat seq body) := by
  unfold State.sendMsg
  split
  · exact SameCore.refl s
  · exact (sameCore_modMgmt s _).trans (sameCore_emit _ _)
/-- A report changes the ring, the sessions' counts and what has left, nothing else. -/
theorem sameCore_report (s : State) (kind heat status step : Nat) (detail : Bytes) :
    SameCore s (s.report kind heat status step detail) := by
  unfold State.report
  exact (sameCore_modMgmt s _).trans (SameCore.foldl _ (fun s (k : Session) => sameCore_sendMsg s k.conn _ _ _ _ _) _ _)
theorem sameCore_flashPut (s : State) (a : Nat) (bs : Bytes) : SameCore s (s.flashPut a bs) := sameCore_modBoot s _
theorem sameCore_flashErase (s : State) (a n : Nat) : SameCore s (s.flashErase a n) := sameCore_modBoot s _
theorem sameCore_putRecord (s : State) (w : Nat) : SameCore s (s.putRecord w) := by
  unfold State.putRecord
  dsimp only
  split
  · exact ((sameCore_flashErase s _ _).trans (sameCore_flashPut _ _ _)).trans (sameCore_modStore _ _)
  · exact (sameCore_flashPut _ _ _).trans (sameCore_modStore _ _)
theorem sameCore_journal (s : State) (kind status cls unit detail : Nat) : SameCore s (s.journal kind status cls unit detail) := by
  unfold State.journal
  dsimp only
  split
  · exact sameCore_putRecord s _
  · exact sameCore_modStore s _
theorem sameCore_putSummary (s : State) : SameCore s s.putSummary := by
  unfold State.putSummary
  dsimp only
  split
  · exact ((sameCore_flashErase s _ _).trans (sameCore_flashPut _ _ _)).trans (sameCore_modStore _ _)
  · exact SameCore.refl s
theorem sameCore_transient (s : State) : SameCore s s.transient := sameCore_modStore s _
theorem sameCore_lifeCount (s : State) (i : Nat) : SameCore s (s.lifeCount i) := sameCore_modStore s _
/-- A retirement is reported, recorded and counted, and changes no unit by itself. -/
theorem sameCore_noteRetired (s : State) (cls unit heat : Nat) : SameCore s (s.noteRetired cls unit heat) := by
  unfold State.noteRetired
  exact (((sameCore_modStore s _).trans (sameCore_report _ _ _ _ _ _)).trans (sameCore_journal _ _ _ _ _ _)).trans (sameCore_putSummary _)

/-- Time reaches at least its deadline and never goes back. -/
theorem State.reach_now (s : State) (t : Nat) : (s.reach t).now = max s.now t := by
  unfold State.reach State.histRun
  simp only
  split <;> rfl
/-- Time runs the lifetime histograms and changes nothing else of the module. -/
theorem State.reach_core (s : State) (t : Nat) : (s.reach t).clusters = s.clusters ∧ (s.reach t).ports = s.ports ∧
    (s.reach t).heats = s.heats ∧ (s.reach t).free = s.free ∧ (s.reach t).out = s.out ∧ (s.reach t).pending = s.pending := by
  unfold State.reach State.histRun
  simp only
  split <;> exact ⟨rfl, rfl, rfl, rfl, rfl, rfl⟩
theorem State.reach_cl (s : State) (t : Nat) (c : Fin 64) : (s.reach t).cl c = s.cl c := by simp [State.cl, (s.reach_core t).1]
theorem State.reach_heat (s : State) (t : Nat) (h : Fin 4) : (s.reach t).heat h = s.heat h := by simp [State.heat, (s.reach_core t).2.2.1]
theorem State.reach_port (s : State) (t : Nat) (p : Fin 32) : (s.reach t).port p = s.port p := by simp [State.port, (s.reach_core t).2.1]
/-- Of the module-wide part, time changes only the storage's histograms. -/
theorem State.reach_com (s : State) (t : Nat) : ∃ k : Storage, (s.reach t).com = { s.com with store := k } ∧
    k.drives = s.com.store.drives ∧ k.slots = s.com.store.slots ∧ k.dumping = s.com.store.dumping := by
  unfold State.reach State.histRun
  simp only
  split
  · exact ⟨s.com.store, rfl, rfl, rfl, rfl⟩
  · exact ⟨_, rfl, rfl, rfl, rfl⟩

end Sys2Proof.Machine
end

