-- ==== Sys2Proof/Laws/MgmtFrame.lean ====
section
/-! SUPPORT. What management leaves alone: how a request is taken, that a reply changes sessions only, freeing a heat, the life log at a boot. -/
namespace Sys2Proof.Machine
theorem find_map_conn (l : List Session) (conn : Nat) (f : Session → Session) (hf : ∀ k, k.conn = conn → (f k).conn = conn) (c : Nat) :
    (l.map (fun k => if k.conn == conn then f k else k)).find? (fun k => k.conn == c) =
      if c = conn then (l.find? (fun k => k.conn == c)).map f else l.find? (fun k => k.conn == c) := by
  induction l with
  | nil => by_cases h : c = conn <;> simp [h]
  | cons a l ih =>
    rw [List.map_cons, List.find?_cons, List.find?_cons, ih]
    by_cases ha : a.conn = conn
    · have hfa := hf a ha
      rw [if_pos (beq_iff_eq.mpr ha)]
      by_cases hc : c = conn
      · subst hc
        simp [ha, hfa]
      · have e1 : ((f a).conn == c) = false := by rw [hfa]; exact beq_eq_false_iff_ne.mpr (Ne.symm hc)
        have e2 : (a.conn == c) = false := by rw [ha]; exact beq_eq_false_iff_ne.mpr (Ne.symm hc)
        rw [e1, e2, if_neg hc]
    · rw [if_neg (by simpa using ha)]
      by_cases hc : c = conn
      · subst hc
        have e2 : (a.conn == c) = false := beq_eq_false_iff_ne.mpr ha
        rw [e2, if_pos rfl]
      · rw [if_neg hc, if_neg hc]
theorem session_modSession (s : State) (conn : Nat) (f : Session → Session) (hf : ∀ k, k.conn = conn → (f k).conn = conn) (c : Nat) :
    (s.modSession conn f).session c = if c = conn then (s.session c).map f else s.session c := find_map_conn _ _ _ hf _
theorem session_conn {s : State} {conn : Nat} {k : Session} (h : s.session conn = some k) : k.conn = conn := by
  have := List.find?_some h
  simpa using this
theorem took_session {s : State} {m : Msg} {k : Session} (h : s.session m.conn = some k) :
    (s.took m).session m.conn = some { k with rxSeq := k.rxSeq + 1, lease := s.now } := by
  unfold State.took
  refine (session_modSession _ _ _ ?_ _).trans ?_
  · exact fun _ h => h
  · rw [if_pos rfl, h]; rfl
theorem arrived_take {s : State} {m : Msg} {i : Instr} {k : Session} (h : Arrived s m i k) (go : State → State) : s.takeReq m i go =
    if s.serving then .next ((s.took m).serve m go)
    else if ((s.com.mgmt.queue.filter (fun q => msgConn q == some m.conn)).length < 16 : Bool) then
      .next ((s.took m).modMgmt (fun g => { g with queue := g.queue ++ [i] }))
    else .next s := by
  unfold State.takeReq
  rw [if_pos h.size, h.session]
  dsimp only
  rw [if_neg (by rw [h.framed]; decide), if_neg (by simp [h.body, h.row]), if_neg (by simp [h.attached, h.tag, h.seq])]
  rfl
theorem accepted_take {s : State} {m : Msg} {i : Instr} {k : Session} (h : Accepted s m i k) (go : State → State) :
    s.takeReq m i go = .next (go (s.took m)) := by
  rw [arrived_take h.toArrived, if_pos h.serving]
  unfold State.serve
  rw [took_session h.session]
  dsimp only
  have hst : (s.took m).com.boot.state = s.com.boot.state := rfl
  rw [if_neg (by simp [h.reserved, h.type]), if_neg (by
      rw [Bool.not_eq_true, Option.any_eq_false_iff_get]
      intro hr
      have := h.right _ (Option.some_get hr).symm
      simp [this]), if_neg (by have := h.room; omega), hst, if_neg (by simp [h.state])]
theorem accepted_next {s : State} {m : Msg} {i : Instr} {k : Session} {go : State → State} {t : State} (h : Accepted s m i k)
    (he : exec i s = s.takeReq m i go) (ht : go (s.took m) = t) : exec i s = .next t := by
  rw [he, accepted_take h, ht]
theorem finRange4 {n : Nat} {hi : Fin 4} (h : n = hi.val) : (List.finRange 4)[n]? = some hi := by
  subst h; revert hi; decide
theorem finRange64 {n : Nat} {c : Fin 64} (h : n = c.val) : (List.finRange 64)[n]? = some c := by
  subst h; rw [List.getElem?_eq_getElem (by simp)]; simp
theorem sameCore_modSession (s : State) (c : Nat) (f : Session → Session) : SameCore s (s.modSession c f) := sameCore_modMgmt s _
theorem sameCore_noteOrphan (s : State) : SameCore s s.noteOrphan := sameCore_modMgmt s _
theorem sameCore_dropSession (s : State) (c : Nat) : SameCore s (s.dropSession c) := by
  unfold State.dropSession
  refine SameCore.trans ?_ (sameCore_noteOrphan _)
  exact sameCore_modMgmt s _
theorem sameCore_closeSession (s : State) (c : Nat) : SameCore s (s.closeSession c) := by
  unfold State.closeSession
  refine SameCore.trans ?_ (sameCore_emit _ _)
  exact sameCore_dropSession s c
theorem sameCore_closeAll (s : State) : SameCore s s.closeAll := by
  unfold State.closeAll
  exact SameCore.foldl (fun s (k : Session) => s.closeSession k.conn) (fun s k => sameCore_closeSession s k.conn) _ _
theorem sameCore_flushReplies (c n : Nat) (s : State) : SameCore s (State.flushReplies c n s) := by
  induction n generalizing s with
  | zero => exact SameCore.refl s
  | succ n ih =>
    rw [State.flushReplies]
    split
    · split
      · exact ((sameCore_modSession s _ _).trans (sameCore_sendMsg _ _ _ _ _ _ _)).trans (ih _)
      · split
        · exact sameCore_closeSession s c
        · exact SameCore.refl s
      · exact SameCore.refl s
    · exact SameCore.refl s
theorem sameCore_reply (s : State) (c q h st : Nat) (b : Bytes) : SameCore s (s.reply c q h st b) := by
  unfold State.reply
  dsimp only
  split
  · exact (sameCore_modSession s _ _).trans (sameCore_flushReplies _ _ _)
  · exact sameCore_modSession s _ _
theorem sameCore_answer (s : State) (m : Msg) (st : Nat) (b : Bytes) : SameCore s (s.answer m st b) := sameCore_reply _ _ _ _ _ _
theorem sameCore_fillReply (s : State) (c q st : Nat) (b : Bytes) : SameCore s (s.fillReply c q st b) := by
  unfold State.fillReply
  dsimp only
  split
  · exact (sameCore_modSession s _ _).trans (sameCore_flushReplies _ _ _)
  · exact sameCore_modSession s _ _
theorem freeHeat_heat (s : State) (hi : Fin 4) : (s.freeHeat hi).heat hi = Heat.reset := by
  unfold State.freeHeat
  dsimp only
  show (State.setHeat _ hi Heat.reset).heat hi = _
  exact State.heat_setHeat_same _ _ _
/-- Nothing of the storage differs but the life log's places, the dump being written and what is not kept over a boot; nor do the commands waiting. -/
def StoreKept (s t : State) : Prop := t.com.store.boots = s.com.store.boots ∧ t.com.store.slots = s.com.store.slots ∧ t.pending = s.pending
theorem StoreKept.trans {s t u : State} (h : StoreKept s t) (k : StoreKept t u) : StoreKept s u := ⟨k.1.trans h.1, k.2.1.trans h.2.1, k.2.2.trans h.2.2⟩
theorem StoreKept.refl (s : State) : StoreKept s s := ⟨rfl, rfl, rfl⟩
theorem StoreKept.foldl {α : Type} (f : State → α → State) (hf : ∀ s a, StoreKept s (f s a)) (xs : List α) (s : State) : StoreKept s (xs.foldl f s) := by
  induction xs generalizing s with
  | nil => exact StoreKept.refl s
  | cons a l ih => exact (hf s a).trans (ih _)
theorem storeKept_sendMsg (s : State) (conn ty st heat seq : Nat) (body : Bytes) : StoreKept s (s.sendMsg conn ty st heat seq body) := by
  unfold State.sendMsg
  split <;> exact ⟨rfl, rfl, rfl⟩
theorem storeKept_closeSession (s : State) (c : Nat) : StoreKept s (s.closeSession c) := ⟨rfl, rfl, rfl⟩
theorem storeKept_flushReplies (c n : Nat) (s : State) : StoreKept s (State.flushReplies c n s) := by
  induction n generalizing s with
  | zero => exact StoreKept.refl s
  | succ n ih =>
    rw [State.flushReplies]
    split
    · split
      · exact (StoreKept.trans (t := s.modSession c _) ⟨rfl, rfl, rfl⟩ (storeKept_sendMsg _ _ _ _ _ _ _)).trans (ih _)
      · split
        · exact storeKept_closeSession s c
        · exact StoreKept.refl s
      · exact StoreKept.refl s
    · exact StoreKept.refl s
theorem storeKept_reply (s : State) (c q h st : Nat) (b : Bytes) : StoreKept s (s.reply c q h st b) := by
  unfold State.reply
  dsimp only
  split
  · exact StoreKept.trans (t := s.modSession c _) ⟨rfl, rfl, rfl⟩ (storeKept_flushReplies _ _ _)
  · exact ⟨rfl, rfl, rfl⟩
theorem storeKept_fillReply (s : State) (c q st : Nat) (b : Bytes) : StoreKept s (s.fillReply c q st b) := by
  unfold State.fillReply
  dsimp only
  split
  · exact StoreKept.trans (t := s.modSession c _) ⟨rfl, rfl, rfl⟩ (storeKept_flushReplies _ _ _)
  · exact ⟨rfl, rfl, rfl⟩
theorem storeKept_freeHeat (s : State) (hi : Fin 4) : StoreKept s (s.freeHeat hi) := by
  unfold State.freeHeat
  dsimp only
  generalize hv : List.foldl (fun s p => s.modPort p Port.release) (List.foldl (fun s c => s.modCl c Cluster.release) (match (s.heat hi).job.bind Job.startReq with
    | some (conn, seq) => s.fillReply conn seq eConfig []
    | none => s) (s.heat hi).clusterList) (s.heat hi).portList = v
  have h : StoreKept s v := by
    rw [← hv]
    refine (StoreKept.trans ?_ (StoreKept.foldl (fun s c => s.modCl c Cluster.release) (fun _ _ => ⟨rfl, rfl, rfl⟩) _ _)).trans (StoreKept.foldl (fun s p => s.modPort p Port.release) (fun _ _ => ⟨rfl, rfl, rfl⟩) _ _)
    split
    · exact storeKept_fillReply _ _ _ _ _
    · exact StoreKept.refl s
  refine h.trans ?_
  split <;> exact ⟨rfl, rfl, rfl⟩
theorem storeKept_putRecord (s : State) (w : Nat) : StoreKept s (s.putRecord w) := by
  unfold State.putRecord
  dsimp only
  split <;> exact ⟨rfl, rfl, rfl⟩
theorem storeKept_journal (s : State) (a b c d e : Nat) : StoreKept s (s.journal a b c d e) := by
  unfold State.journal
  dsimp only
  split
  · exact storeKept_putRecord _ _
  · exact ⟨rfl, rfl, rfl⟩
theorem storeKept_bootLog (s : State) : StoreKept s s.bootLog := by
  unfold State.bootLog
  dsimp only
  generalize hf : s.flushLog = u
  have h1 : StoreKept s u := by
    rw [← hf]
    unfold State.flushLog
    exact StoreKept.trans (t := s.modStore (fun k => { k with logWait := [] })) ⟨rfl, rfl, rfl⟩ (StoreKept.foldl State.putRecord storeKept_putRecord _ _)
  generalize hv : (if u.com.pw.tripped = true then (u.journal 2 0 0 0 0).modStore (fun k => { k with trips := k.trips + 1 }) else u) = v
  have h2 : StoreKept u v := by
    rw [← hv]
    split
    · exact (storeKept_journal u _ _ _ _ _).trans ⟨rfl, rfl, rfl⟩
    · exact StoreKept.refl u
  generalize hw : (if v.com.pw.inputFault = true then (v.journal 3 0 0 0 0).modStore (fun k => { k with faults := k.faults + 1 }) else v) = w
  have h3 : StoreKept v w := by
    rw [← hw]
    split
    · exact (storeKept_journal v _ _ _ _ _).trans ⟨rfl, rfl, rfl⟩
    · exact StoreKept.refl v
  refine ((h1.trans h2).trans h3).trans ?_
  unfold State.putSummary
  split <;> exact ⟨rfl, rfl, rfl⟩
/-- The life log at a boot leaves everything else as it was. -/
structure LogOnly (s t : State) : Prop where
  core : SameCore s t
  mgmt : t.com.mgmt = s.com.mgmt
  state : t.com.boot.state = s.com.boot.state
  config : t.com.boot.config = s.com.boot.config
  boot : t.com.boot = { s.com.boot with flash := t.com.boot.flash }
  good : t.com.pw.good = s.com.pw.good
  ctrs : t.com.ctrs = s.com.ctrs
theorem LogOnly.trans {s t u : State} (h : LogOnly s t) (k : LogOnly t u) : LogOnly s u :=
  ⟨h.core.trans k.core, k.mgmt.trans h.mgmt, k.state.trans h.state, k.config.trans h.config, by rw [k.boot, h.boot], k.good.trans h.good, k.ctrs.trans h.ctrs⟩
theorem LogOnly.refl (s : State) : LogOnly s s := ⟨SameCore.refl s, rfl, rfl, rfl, rfl, rfl, rfl⟩
theorem logOnly_putRecord (s : State) (w : Nat) : LogOnly s (s.putRecord w) := by
  refine ⟨sameCore_putRecord s w, ?_, ?_, ?_, ?_, ?_, ?_⟩ <;> (unfold State.putRecord; dsimp only; split <;> rfl)
theorem logOnly_journal (s : State) (a b c d e : Nat) : LogOnly s (s.journal a b c d e) := by
  unfold State.journal
  dsimp only
  split
  · exact logOnly_putRecord _ _
  · exact ⟨sameCore_modStore _ _, rfl, rfl, rfl, rfl, rfl, rfl⟩
theorem logOnly_modStore (s : State) (f : Storage → Storage) : LogOnly s (s.modStore f) := ⟨sameCore_modStore _ _, rfl, rfl, rfl, rfl, rfl, rfl⟩
theorem LogOnly.foldl {α : Type} (f : State → α → State) (hf : ∀ s a, LogOnly s (f s a)) (xs : List α) (s : State) : LogOnly s (xs.foldl f s) := by
  induction xs generalizing s with
  | nil => exact LogOnly.refl s
  | cons a l ih => exact (hf s a).trans (ih _)
theorem logOnly_bootLog (s : State) : LogOnly s s.bootLog := by
  unfold State.bootLog
  dsimp only
  generalize hf : s.flushLog = u
  have h1 : LogOnly s u := by
    rw [← hf]
    unfold State.flushLog
    exact (logOnly_modStore s _).trans (LogOnly.foldl State.putRecord logOnly_putRecord _ _)
  generalize hv : (if u.com.pw.tripped = true then (u.journal 2 0 0 0 0).modStore (fun k => { k with trips := k.trips + 1 }) else u) = v
  have h2 : LogOnly u v := by
    rw [← hv]
    split
    · exact (logOnly_journal u _ _ _ _ _).trans (logOnly_modStore _ _)
    · exact LogOnly.refl u
  generalize hw : (if v.com.pw.inputFault = true then (v.journal 3 0 0 0 0).modStore (fun k => { k with faults := k.faults + 1 }) else v) = w
  have h3 : LogOnly v w := by
    rw [← hw]
    split
    · exact (logOnly_journal v _ _ _ _ _).trans (logOnly_modStore _ _)
    · exact LogOnly.refl v
  refine ((h1.trans h2).trans h3).trans (LogOnly.trans (t := w.modPw (fun p => { p with tripped := false, inputFault := false })) ⟨sameCore_modPw _ _, rfl, rfl, rfl, rfl, rfl, rfl⟩ ?_)
  refine ⟨sameCore_putSummary _, ?_, ?_, ?_, ?_, ?_, ?_⟩ <;> (unfold State.putSummary; split <;> rfl)

end Sys2Proof.Machine
end

