-- ==== Sys2Proof/Laws/HurdleFrame.lean ====
section
/-! SUPPORT. What the parts of a false start keep, and a cluster after it. -/
namespace Sys2Proof.Machine
/-- What the parts of a false start before the control cores go back keep. -/
structure Calm (b d : Bool) (s u : State) : Prop where
  cl : ∀ c, (u.cl c).retired = (s.cl c).retired ∧ (u.cl c).core.snap = (s.cl c).core.snap
  heat : ∀ j, (u.heat j).blocks = (s.heat j).blocks ∧ (u.heat j).hu.count = (s.heat j).hu.count ∧ (u.heat j).hu.step = (s.heat j).hu.step ∧
    (u.heat j).hu.falseStarts = (s.heat j).hu.falseStarts ∧ (u.heat j).arrivals = (s.heat j).arrivals
  folds : b = true → ∀ j, (u.heat j).folds = (s.heat j).folds
  sent : d = true → ∀ j, (u.heat j).sent = (s.heat j).sent
variable {b d : Bool}
theorem Calm.refl (s : State) : Calm b d s s := ⟨fun _ => ⟨rfl, rfl⟩, fun _ => ⟨rfl, rfl, rfl, rfl, rfl⟩, fun _ _ => rfl, fun _ _ => rfl⟩
theorem Calm.trans {s t u : State} (h : Calm b d s t) (k : Calm b d t u) : Calm b d s u :=
  ⟨fun c => ⟨(k.cl c).1.trans (h.cl c).1, (k.cl c).2.trans (h.cl c).2⟩, fun j => ⟨(k.heat j).1.trans (h.heat j).1, (k.heat j).2.1.trans (h.heat j).2.1,
    (k.heat j).2.2.1.trans (h.heat j).2.2.1, (k.heat j).2.2.2.1.trans (h.heat j).2.2.2.1, (k.heat j).2.2.2.2.trans (h.heat j).2.2.2.2⟩,
    fun e j => (k.folds e j).trans (h.folds e j), fun e j => (k.sent e j).trans (h.sent e j)⟩
theorem calm_same {s t : State} (h : SameCore s t) : Calm b d s t :=
  ⟨fun c => by rw [h.cl]; exact ⟨rfl, rfl⟩, fun j => by rw [h.heat]; exact ⟨rfl, rfl, rfl, rfl, rfl⟩, fun _ j => by rw [h.heat], fun _ j => by rw [h.heat]⟩
theorem calm_modCl (s : State) (c : Fin 64) (f : Cluster → Cluster) (h : ∀ k, (f k).retired = k.retired ∧ (f k).core.snap = k.core.snap) : Calm b d s (s.modCl c f) := by
  refine ⟨fun d => ?_, fun _ => ⟨rfl, rfl, rfl, rfl, rfl⟩, fun _ _ => rfl, fun _ _ => rfl⟩
  by_cases hd : d = c
  · subst hd; rw [State.cl_modCl_same]; exact h _
  · rw [State.cl_modCl_ne _ _ _ _ (Ne.symm hd)]; exact ⟨rfl, rfl⟩
theorem calm_modHeat (s : State) (j : Fin 4) (f : Heat → Heat) (h : ∀ k, (f k).blocks = k.blocks ∧ (f k).hu.count = k.hu.count ∧ (f k).hu.step = k.hu.step ∧
    (f k).hu.falseStarts = k.hu.falseStarts ∧ (f k).arrivals = k.arrivals ∧ (b = true → (f k).folds = k.folds) ∧ (d = true → (f k).sent = k.sent)) : Calm b d s (s.modHeat j f) := by
  refine ⟨fun _ => ⟨rfl, rfl⟩, fun d => ?_, fun e d => ?_, fun e d => ?_⟩
  all_goals
    rw [State.heat_modHeat]
    split
    · rename_i hd; subst hd
      obtain ⟨a1, a2, a3, a4, a5, a6, a7⟩ := h (s.heat j)
      first | exact ⟨a1, a2, a3, a4, a5⟩ | exact a6 e | exact a7 e
    · first | exact ⟨rfl, rfl, rfl, rfl, rfl⟩ | rfl
theorem Calm.foldl {α : Type} (f : State → α → State) (hf : ∀ s a, Calm b d s (f s a)) (xs : List α) (s : State) : Calm b d s (xs.foldl f s) := by
  induction xs generalizing s with
  | nil => exact Calm.refl s
  | cons a l ih => exact (hf s a).trans (ih _)
theorem calm_record (s : State) (c : Fin 64) (q : Fin 4) (e : QEntry) (st : Nat) : Calm b d s (s.record c q e st) := by
  obtain ⟨r, ctrs, hr, -⟩ := record_shape s c q e st
  rw [hr]
  have : Calm b d s (s.modCl c (fun k => k.addSplit r)) := calm_modCl s c _ (fun _ => ⟨rfl, rfl⟩)
  exact ⟨fun d => this.cl d, fun j => this.heat j, fun e j => this.folds e j, fun e j => this.sent e j⟩
theorem calm_closeHold (s : State) (hi : Fin 4) : Calm b d s (s.closeHold hi) := by
  unfold State.closeHold
  split
  · exact Calm.refl s
  · refine Calm.trans ?_ (calm_same (sameCore_bump _ _ _ _ _))
    unfold State.modHu
    exact calm_modHeat s hi _ (fun _ => ⟨rfl, rfl, rfl, rfl, rfl, fun _ => rfl, fun _ => rfl⟩)
theorem calm_abandon (s : State) (c : Fin 64) : Calm b d s (s.abandonHeads c) := by
  unfold State.abandonHeads
  apply Calm.foldl
  intro s q
  generalize (s.cl c).queues[q] = l
  cases l with
  | nil => exact Calm.refl s
  | cons e l =>
    dsimp only
    cases e.phase with
    | summary _ => exact (calm_record _ _ _ _ _).trans (calm_same (sameCore_bump _ _ _ _ _))
    | _ => exact calm_record _ _ _ _ _
theorem calm_putSpace (s : State) (x : Site) (sp : Space) : Calm b d s (s.putSpace x sp) := by
  have hst : ∀ (cs : List (Fin 64)) (ms : List Mem) (u : State), Calm b d u (u.putStores cs ms) := by
    intro cs
    induction cs with
    | nil => intro ms u; exact Calm.refl u
    | cons c cs ih =>
      intro ms u
      cases ms with
      | nil => exact Calm.refl u
      | cons m ms =>
        rw [State.putStores]
        refine Calm.trans ?_ (ih ms _)
        exact calm_modCl u c _ (fun _ => ⟨rfl, rfl⟩)
  unfold State.putSpace
  dsimp only
  have h1 : Calm b d s ((s.modHeat x.h (fun h => { h with mem := sp.mem, poison := sp.poison, scratch := sp.scratch, staging := sp.staging })).putStores (s.heat x.h).clusterList sp.stores) :=
    Calm.trans (by exact calm_modHeat s x.h _ (fun _ => ⟨rfl, rfl, rfl, rfl, rfl, fun _ => rfl, fun _ => rfl⟩)) (hst _ _ _)
  split
  · exact h1.trans (calm_modCl _ _ _ (fun _ => ⟨rfl, rfl⟩))
  · exact h1
theorem calm_encodeEnd (s : State) (c : Fin 64) (x : Site) (off q : Nat) (tf : Bool) : Calm b d s (s.encodeEnd c x off q tf).1 := by
  unfold State.encodeEnd
  dsimp only
  refine Calm.trans ?_ (calm_modCl _ c _ (fun _ => ⟨rfl, rfl⟩))
  have h0 : Calm b d s s.useFree := ⟨fun _ => ⟨rfl, rfl⟩, fun _ => ⟨rfl, rfl, rfl, rfl, rfl⟩, fun _ _ => rfl, fun _ _ => rfl⟩
  exact h0.trans (calm_putSpace _ _ _)
theorem calm_dropEncodes (s : State) (c : Fin 64) (x : Site) : Calm b d s (s.dropEncodes c x) := by
  unfold State.dropEncodes
  dsimp only
  refine Calm.trans ?_ (calm_modCl _ c _ (fun _ => ⟨rfl, rfl⟩))
  refine Calm.foldl (fun s (r : EncReq) => match r.phase with
    | .running _ q => (s.encodeEnd c x r.off q false).1
    | _ => s) (fun s r => ?_) _ _
  split
  · exact calm_encodeEnd _ _ _ _ _ _
  · exact Calm.refl s
theorem calm_withdraw (s : State) (hi : Fin 4) (e : Nat) : Calm b false s (s.withdraw hi e) := by
  unfold State.withdraw
  refine Calm.trans ?_ (calm_modHeat _ hi _ (fun _ => ⟨rfl, rfl, rfl, rfl, rfl, fun _ => rfl, fun h => by cases h⟩))
  exact Calm.foldl (fun s p => s.modPort p (fun k => k.withdraw e)) (fun s p => ⟨fun _ => ⟨rfl, rfl⟩, fun _ => ⟨rfl, rfl, rfl, rfl, rfl⟩, fun _ _ => rfl, fun _ _ => rfl⟩) _ _
theorem calm_applyFolds (s : State) (hi : Fin 4) : Calm false d s (s.applyFolds hi) := by
  unfold State.applyFolds
  dsimp only
  refine Calm.foldl _ (fun s f => ?_) _ _
  refine Calm.trans ?_ (calm_same (sameCore_journal _ _ _ _ _ _))
  refine Calm.trans ?_ (calm_same (sameCore_report _ _ _ _ _ _))
  refine Calm.trans ?_ (t := List.foldl _ _ _) ⟨fun _ => ⟨rfl, rfl⟩, fun _ => ⟨rfl, rfl, rfl, rfl, rfl⟩, fun _ _ => rfl, fun _ _ => rfl⟩
  refine Calm.trans ?_ (Calm.foldl _ (fun s l => ?_) _ _)
  · exact calm_modHeat s hi _ (fun _ => ⟨rfl, rfl, rfl, rfl, rfl, (fun h => by cases h), fun _ => rfl⟩)
  · split
    · exact calm_modCl _ _ _ (fun _ => ⟨rfl, rfl⟩)
    · exact Calm.refl s
theorem Calm.clusterList {s u : State} (h : Calm b d s u) (j : Fin 4) : (u.heat j).clusterList = (s.heat j).clusterList := by
  unfold Heat.clusterList; rw [(h.heat j).1]
theorem Calm.dueFolds {s u : State} (h : Calm true d s u) (j : Fin 4) : u.dueFolds (u.heat j) = s.dueFolds (s.heat j) := by
  unfold State.dueFolds
  dsimp only
  rw [h.clusterList, h.folds rfl]
  have h1 : ∀ c, (u.cl c).retired = (s.cl c).retired := fun c => (h.cl c).1
  simp only [h1]
/-- A cluster as a false start leaves it. -/
structure Rewound (k : Cluster) (snap : Option Snapshot) (plain : Prop) : Prop where
  queues : k.queues = Vector.replicate 4 []
  halted : k.halted = none
  dmem : k.dmem = (snap.map Snapshot.dmem).getD []
  issued : k.core.issued = []
  sums : k.core.sums = []
  encs : k.core.encs = []
  core : plain → ∀ n, snap = some n → k.core.pc = n.pc ∧ k.core.regs = n.regs
theorem Rewound.of {k : Cluster} {a b : Option Snapshot} {plain : Prop} (h : Rewound k a plain) (hd : a.map Snapshot.dmem = b.map Snapshot.dmem)
    (hp : plain → a = b) : Rewound k b plain :=
  ⟨h.queues, h.halted, hd ▸ h.dmem, h.issued, h.sums, h.encs, fun p n hn => h.core p n ((hp p).trans hn)⟩
theorem rewound (k : Cluster) (fp : Option Bytes) (plain : Prop) (h : plain → fp = none) : Rewound (k.rewind fp) k.core.snap plain := by
  unfold Cluster.rewind
  dsimp only
  split
  · rename_i p o hfp
    refine ⟨rfl, rfl, rfl, rfl, rfl, rfl, fun hp => ?_⟩
    cases (h hp)
  · rename_i t hs
    exact ⟨rfl, rfl, by rw [hs], rfl, rfl, rfl, fun _ n hn => by rw [hs] at hn; cases hn; exact ⟨rfl, rfl⟩⟩
  · rename_i hs
    exact ⟨rfl, rfl, by rw [hs], rfl, rfl, rfl, fun _ n hn => by rw [hs] at hn; cases hn⟩
theorem rewindAll_heat (s : State) (hi : Fin 4) (p : Program) (new : List (Nat × Nat)) (j : Fin 4) : (s.rewindAll hi p new).heat j = s.heat j := by
  unfold State.rewindAll
  have : ∀ (l : List (Nat × Fin 64)) (u : State), (l.foldl (fun s lc => s.modCl lc.2 (fun k => if k.retired then { k with queues := Vector.replicate 4 [], core := { k.core with snap := none, running := false } }
      else k.rewind (if new.any (fun f => f.2 == lc.1) then some (p.ctrl true lc.1) else none))) u).heat j = u.heat j := by
    intro l
    induction l with
    | nil => intro u; rfl
    | cons a l ih => intro u; rw [List.foldl_cons, ih]; rfl
  exact this _ s
theorem rewindAll_cl (s : State) (hi : Fin 4) (p : Program) (new : List (Nat × Nat)) (c : Fin 64) (hc : c ∈ (s.heat hi).clusterList)
    (hr : (s.cl c).retired = false) : Rewound ((s.rewindAll hi p new).cl c) (s.cl c).core.snap (new = []) := by
  have key : ∀ (l : List (Nat × Fin 64)) (u : State), (u.cl c).retired = false →
      ((u.cl c).core.snap.map Snapshot.dmem = (s.cl c).core.snap.map Snapshot.dmem ∧ (new = [] → (u.cl c).core.snap = (s.cl c).core.snap)) →
      (c ∈ l.map Prod.snd ∨ Rewound (u.cl c) (s.cl c).core.snap (new = [])) →
      Rewound ((l.foldl (fun s lc => s.modCl lc.2 (fun k => if k.retired then { k with queues := Vector.replicate 4 [], core := { k.core with snap := none, running := false } }
        else k.rewind (if new.any (fun f => f.2 == lc.1) then some (p.ctrl true lc.1) else none))) u).cl c) (s.cl c).core.snap (new = []) := by
    intro l
    induction l with
    | nil =>
      intro u _ _ h
      rcases h with h | h
      · cases h
      · exact h
    | cons a l ih =>
      intro u h1 h2 h
      rw [List.foldl_cons]
      have hrw : ∀ (k : Cluster) (fp : Option Bytes), (k.rewind fp).retired = k.retired ∧
          (k.rewind fp).core.snap.map Snapshot.dmem = k.core.snap.map Snapshot.dmem ∧ (fp = none → (k.rewind fp).core.snap = k.core.snap) := by
        intro k fp
        unfold Cluster.rewind
        dsimp only
        split
        · rename_i o _
          exact ⟨rfl, by cases k.core.snap <;> rfl, fun h => by cases h⟩
        · exact ⟨rfl, rfl, fun _ => rfl⟩
        · exact ⟨rfl, rfl, fun _ => rfl⟩
      by_cases hca : a.2 = c
      · refine ih _ ?_ ?_ (Or.inr ?_)
        all_goals rw [hca, State.cl_modCl_same, if_neg (by rw [h1]; decide)]
        · rw [(hrw _ _).1]; exact h1
        · exact ⟨(hrw _ _).2.1.trans h2.1, fun hn => ((hrw _ _).2.2 (by rw [hn]; rfl)).trans (h2.2 hn)⟩
        · exact (rewound _ _ _ (fun h => by rw [h]; rfl)).of h2.1 h2.2
      · refine ih _ ?_ ?_ ?_
        · rw [State.cl_modCl_ne _ _ _ _ hca]; exact h1
        · rw [State.cl_modCl_ne _ _ _ _ hca]; exact h2
        · rcases h with h | h
          · rw [List.map_cons, List.mem_cons] at h
            rcases h with h | h
            · exact absurd h.symm hca
            · exact Or.inl h
          · rw [State.cl_modCl_ne _ _ _ _ hca]; exact Or.inr h
  unfold State.rewindAll
  refine key _ s hr ⟨rfl, fun _ => rfl⟩ (Or.inl ?_)
  obtain ⟨n, hn, hx⟩ := List.getElem_of_mem hc
  exact List.mem_iff_getElem.mpr ⟨n, by simpa using hn, by simp [hx]⟩

end Sys2Proof.Machine
end

