-- ==== Sys2Proof/Laws/Keep.lean ====
section
/-! SUPPORT. The invariant of Safety.lean under the elementary updates and the shared operations. -/
namespace Sys2Proof.Machine

/-! The invariant of a part written out field by field. -/

@[simp] theorem Cluster.inv_mk (store fnTab imem dmem : Mem) (rt : FwMem) (core : Core) (qs no ld ha fr ac rb re fo fs sp sq sd pc) :
    (Cluster.mk store fnTab imem dmem rt core qs no ld ha fr ac rb re fo fs sp sq sd pc).Inv ↔ store.wf = true ∧ fnTab.wf = true ∧ imem.wf = true ∧
      dmem.wf = true ∧ core.regs[0] = 0 ∧ snapOk core.snap ∧ queuesOk qs ∧ core.sums.length ≤ 4 ∧ core.issued.length ≤ 4 ∧
      core.encs.length ≤ 2 ∧ sp.length ≤ 1024 :=
  ⟨fun h => ⟨h.store, h.fnTab, h.imem, h.dmem, h.x0, h.snap, h.queues, h.sums, h.issued, h.encs, h.splits⟩,
   fun ⟨a, b, c, d, e, f, g, i, j, k, l⟩ => ⟨a, b, c, d, e, f, g, i, j, k, l⟩⟩
@[simp] theorem Heat.inv_mk (ph ad bl un me wa ch im st mem po scratch staging tok re jo li cs fo hu ar se ej ac kv pi ck) :
    (Heat.mk ph ad bl un me wa ch im st mem po scratch staging tok re jo li cs fo hu ar se ej ac kv pi ck).Inv ↔
      Mem.wf mem = true ∧ Mem.wf scratch = true ∧ Mem.wf staging = true ∧ Mem.wf tok = true :=
  ⟨fun h => ⟨h.mem, h.scratch, h.staging, h.tok⟩, fun ⟨a, b, c, d⟩ => ⟨a, b, c, d⟩⟩
@[simp] theorem Port.inv_iff (k : Port) : k.Inv ↔ k.tx.replay.length ≤ 1024 := ⟨fun h => h.replay, fun h => ⟨h⟩⟩
@[simp] theorem Common.inv_mk (mgmt : Mgmt) (boot : Boot) (ch ca me fe st) (pw : Power) (ta ec dq ct) :
    (Common.mk mgmt boot ch ca me fe st pw ta ec dq ct).Inv ↔ boot.flash.wf = true ∧ mgmt.sessions.length ≤ 4 ∧ mgmt.reports.length ≤ ringSize ∧
      pw.rail ≤ 8 :=
  ⟨fun h => ⟨h.flash, h.sessions, h.reports, h.rail⟩, fun ⟨a, b, c, d⟩ => ⟨a, b, c, d⟩⟩
@[simp] theorem State.inv_mk (no cl po he co fr ou pe) : (State.mk no cl po he co fr ou pe).Inv ↔
    (∀ c : Fin 64, cl[c].Inv) ∧ (∀ p : Fin 32, po[p].Inv) ∧ (∀ h : Fin 4, he[h].Inv) ∧ co.Inv :=
  ⟨fun h => ⟨h.cl, h.port, h.heat, h.com⟩, fun ⟨a, b, c, d⟩ => ⟨a, c, b, d⟩⟩

/-! What the invariant says of each part. -/

@[simp] theorem inv_cl {s : State} (h : s.Inv) (c : Fin 64) : (s.cl c).Inv := h.cl c
@[simp] theorem inv_heat {s : State} (h : s.Inv) (i : Fin 4) : (s.heat i).Inv := h.heat i
@[simp] theorem inv_port {s : State} (h : s.Inv) (p : Fin 32) : (s.port p).Inv := h.port p
@[simp] theorem inv_com {s : State} (h : s.Inv) : s.com.Inv := h.com
@[simp] theorem inv_store {k : Cluster} (h : k.Inv) : k.store.wf = true := h.store
@[simp] theorem inv_fnTab {k : Cluster} (h : k.Inv) : k.fnTab.wf = true := h.fnTab
@[simp] theorem inv_imem {k : Cluster} (h : k.Inv) : k.imem.wf = true := h.imem
@[simp] theorem inv_dmem {k : Cluster} (h : k.Inv) : k.dmem.wf = true := h.dmem
@[simp] theorem inv_x0 {k : Cluster} (h : k.Inv) : k.core.regs[0] = 0 := h.x0
@[simp] theorem inv_snap {k : Cluster} (h : k.Inv) : snapOk k.core.snap := h.snap
@[simp] theorem inv_queues {k : Cluster} (h : k.Inv) : queuesOk k.queues := h.queues
@[simp] theorem inv_sums {k : Cluster} (h : k.Inv) : k.core.sums.length ≤ 4 := h.sums
@[simp] theorem inv_issued {k : Cluster} (h : k.Inv) : k.core.issued.length ≤ 4 := h.issued
@[simp] theorem inv_encs {k : Cluster} (h : k.Inv) : k.core.encs.length ≤ 2 := h.encs
@[simp] theorem inv_splits {k : Cluster} (h : k.Inv) : k.splits.length ≤ 1024 := h.splits
@[simp] theorem inv_mem {k : Heat} (h : k.Inv) : k.mem.wf = true := h.mem
@[simp] theorem inv_scratch {k : Heat} (h : k.Inv) : k.scratch.wf = true := h.scratch
@[simp] theorem inv_staging {k : Heat} (h : k.Inv) : k.staging.wf = true := h.staging
@[simp] theorem inv_tok {k : Heat} (h : k.Inv) : k.tok.wf = true := h.tok
@[simp] theorem inv_replay {s : State} (h : s.Inv) (p : Fin 32) : (s.port p).tx.replay.length ≤ 1024 := (h.port p).replay
@[simp] theorem inv_flash {k : Common} (h : k.Inv) : k.boot.flash.wf = true := h.flash
@[simp] theorem inv_sessions {k : Common} (h : k.Inv) : k.mgmt.sessions.length ≤ 4 := h.sessions
@[simp] theorem inv_reports {k : Common} (h : k.Inv) : k.mgmt.reports.length ≤ ringSize := h.reports
@[simp] theorem inv_rail {k : Common} (h : k.Inv) : k.pw.rail ≤ 8 := h.rail
@[simp] theorem snapOk_none : snapOk none := fun _ h => by cases h
@[simp] theorem snapOk_some (t : Snapshot) : snapOk (some t) ↔ t.dmem.wf = true ∧ t.regs[0] = 0 :=
  ⟨fun h => h t rfl, fun h u e => by cases e; exact h⟩
@[simp] theorem queuesOk_nil : queuesOk (Vector.replicate 4 []) := fun q => by simp

/-! Elementary updates. -/

theorem Inv.ofParts {s t : State} (h : s.Inv) (hc : t.clusters = s.clusters) (hp : t.ports = s.ports) (hh : t.heats = s.heats)
    (hk : t.com.Inv) : t.Inv :=
  ⟨fun c => by simpa [State.cl, hc] using h.cl c, fun i => by simpa [State.heat, hh] using h.heat i,
    fun p => by simpa [State.port, hp] using h.port p, hk⟩
@[simp] theorem keep_setCl (s : State) (c : Fin 64) (k : Cluster) (h : s.Inv) (hk : k.Inv) : (s.setCl c k).Inv := by
  refine ⟨fun d => ?_, h.heat, h.port, h.com⟩
  rw [State.cl_setCl]; split
  · exact hk
  · exact h.cl d
@[simp] theorem keep_modCl (s : State) (c : Fin 64) (f : Cluster → Cluster) (h : s.Inv) (hf : (f (s.cl c)).Inv) : (s.modCl c f).Inv :=
  keep_setCl s c _ h hf
@[simp] theorem keep_setPort (s : State) (p : Fin 32) (k : Port) (h : s.Inv) (hk : k.Inv) : (s.setPort p k).Inv := by
  refine ⟨h.cl, h.heat, fun d => ?_, h.com⟩
  rw [State.port_setPort]; split
  · exact hk
  · exact h.port d
@[simp] theorem keep_modPort (s : State) (p : Fin 32) (f : Port → Port) (h : s.Inv) (hf : (f (s.port p)).Inv) : (s.modPort p f).Inv :=
  keep_setPort s p _ h hf
@[simp] theorem keep_setHeat (s : State) (i : Fin 4) (k : Heat) (h : s.Inv) (hk : k.Inv) : (s.setHeat i k).Inv := by
  refine ⟨h.cl, fun d => ?_, h.port, h.com⟩
  rw [State.heat_setHeat]; split
  · exact hk
  · exact h.heat d
@[simp] theorem keep_modHeat (s : State) (i : Fin 4) (f : Heat → Heat) (h : s.Inv) (hf : (f (s.heat i)).Inv) : (s.modHeat i f).Inv :=
  keep_setHeat s i _ h hf
@[simp] theorem keep_modHu (s : State) (i : Fin 4) (f : Hurdle → Hurdle) (h : s.Inv) : (s.modHu i f).Inv :=
  keep_modHeat s i _ h ⟨(h.heat i).mem, (h.heat i).scratch, (h.heat i).staging, (h.heat i).tok⟩
@[simp] theorem keep_modCom (s : State) (f : Common → Common) (h : s.Inv) (hf : (f s.com).Inv) : (s.modCom f).Inv :=
  ⟨h.cl, h.heat, h.port, hf⟩
@[simp] theorem keep_modMgmt (s : State) (f : Mgmt → Mgmt) (h : s.Inv) (h1 : (f s.com.mgmt).sessions.length ≤ 4)
    (h2 : (f s.com.mgmt).reports.length ≤ ringSize) : (s.modMgmt f).Inv :=
  keep_modCom s _ h ⟨h.com.flash, h1, h2, h.com.rail⟩
@[simp] theorem keep_modBoot (s : State) (f : Boot → Boot) (h : s.Inv) (h1 : (f s.com.boot).flash.wf = true) : (s.modBoot f).Inv :=
  keep_modCom s _ h ⟨h1, h.com.sessions, h.com.reports, h.com.rail⟩
@[simp] theorem keep_modPw (s : State) (f : Power → Power) (h : s.Inv) (h1 : (f s.com.pw).rail ≤ 8) : (s.modPw f).Inv :=
  keep_modCom s _ h ⟨h.com.flash, h.com.sessions, h.com.reports, h1⟩
@[simp] theorem keep_modStore (s : State) (f : Storage → Storage) (h : s.Inv) : (s.modStore f).Inv :=
  keep_modCom s _ h ⟨h.com.flash, h.com.sessions, h.com.reports, h.com.rail⟩
@[simp] theorem keep_modChan (s : State) (c : Fin 96) (f : MemChan → MemChan) (h : s.Inv) : (s.modChan c f).Inv :=
  keep_modCom s _ h ⟨h.com.flash, h.com.sessions, h.com.reports, h.com.rail⟩
@[simp] theorem keep_modMedia (s : State) (u : Fin 22) (f : MediaUnit → MediaUnit) (h : s.Inv) : (s.modMedia u f).Inv :=
  keep_modCom s _ h ⟨h.com.flash, h.com.sessions, h.com.reports, h.com.rail⟩
@[simp] theorem keep_modFeed (s : State) (p : Fin 2) (f : FeedPort → FeedPort) (h : s.Inv) : (s.modFeed p f).Inv :=
  keep_modCom s _ h ⟨h.com.flash, h.com.sessions, h.com.reports, h.com.rail⟩
@[simp] theorem keep_modDrive (s : State) (d : Fin 2) (f : Drive → Drive) (h : s.Inv) : (s.modDrive d f).Inv :=
  keep_modStore s _ h
@[simp] theorem keep_useFree (s : State) (h : s.Inv) : s.useFree.Inv := ⟨h.cl, h.heat, h.port, h.com⟩
@[simp] theorem keep_free (s : State) (n : Nat) (h : s.Inv) : ({ s with free := n } : State).Inv := ⟨h.cl, h.heat, h.port, h.com⟩
@[simp] theorem keep_pending (s : State) (l : List Instr) (h : s.Inv) : ({ s with pending := l } : State).Inv :=
  ⟨h.cl, h.heat, h.port, h.com⟩
@[simp] theorem keep_emit (s : State) (o : OutItem) (h : s.Inv) : (s.emit o).Inv := ⟨h.cl, h.heat, h.port, h.com⟩
@[simp] theorem keep_bump (s : State) (g i x n : Nat) (h : s.Inv) : (s.bump g i x n).Inv :=
  keep_modCom s _ h ⟨h.com.flash, h.com.sessions, h.com.reports, h.com.rail⟩
@[simp] theorem keep_bumpBin (s : State) (g i x b : Nat) (h : s.Inv) : (s.bumpBin g i x b).Inv :=
  keep_modCom s _ h ⟨h.com.flash, h.com.sessions, h.com.reports, h.com.rail⟩
@[simp] theorem keep_setLevel (s : State) (g i x : Nat) (v : Int) (h : s.Inv) : (s.setLevel g i x v).Inv :=
  keep_modCom s _ h ⟨h.com.flash, h.com.sessions, h.com.reports, h.com.rail⟩
@[simp] theorem keep_alert (s : State) (b : Nat) (h : s.Inv) : (s.alert b).Inv := keep_modPw s _ h h.com.rail
@[simp] theorem keep_reach (s : State) (t : Nat) (h : s.Inv) : (s.reach t).Inv := by
  obtain ⟨k, hk, -⟩ := s.reach_com t
  obtain ⟨hc, hp, hh, -⟩ := s.reach_core t
  exact Inv.ofParts h hc hp hh (by rw [hk]; exact ⟨h.com.flash, h.com.sessions, h.com.reports, h.com.rail⟩)
/-- An answer that is a next state meets the invariant. -/
def Keeps (r : Result) : Prop := ∀ t, r = .next t → t.Inv
@[simp] theorem keeps_next (t : State) : Keeps (.next t) ↔ t.Inv := ⟨fun h => h t rfl, fun h u e => by cases e; exact h⟩
@[simp] theorem keeps_fault (f : Fault) : Keeps (.fault f) := fun _ e => by cases e
@[simp] theorem keeps_refused (f : Refusal) : Keeps (.refused f) := fun _ e => by cases e
@[simp] theorem keeps_ite (c : Prop) {d : Decidable c} (r q : Result) (h : Keeps r) (k : Keeps q) : Keeps (if c then r else q) := by
  split <;> assumption
/-- A choice between two states that meet the invariant meets it. -/
@[simp] theorem keep_ite (c : Prop) {d : Decidable c} (s t : State) (h : s.Inv) (k : t.Inv) : (if c then s else t).Inv := by
  split <;> assumption
/-- A fold of operations that keep the invariant keeps it. -/
@[simp] theorem keep_foldl {α : Type} (f : State → α → State) (xs : List α) (hf : ∀ s a, s.Inv → (f s a).Inv) (s : State) (h : s.Inv) :
    (xs.foldl f s).Inv := by
  induction xs generalizing s with
  | nil => exact h
  | cons x xs ih => exact ih _ (hf s x h)

/-! Messages, reports and the life log. -/

@[simp] theorem keep_chanReads (s : State) (ch n : Nat) (h : s.Inv) : (s.chanReads ch n).Inv :=
  keep_foldl _ _ (fun s _ h => keep_useFree _ (keep_bumpBin s _ _ _ _ h)) _ (keep_bump _ _ _ _ _ h)
@[simp] theorem keep_modSession (s : State) (conn : Nat) (f : Session → Session) (h : s.Inv) : (s.modSession conn f).Inv :=
  keep_modMgmt s _ h (by simpa using h.com.sessions) h.com.reports
@[simp] theorem keep_sendMsg (s : State) (conn ty st heat seq : Nat) (body : Bytes) (h : s.Inv) : (s.sendMsg conn ty st heat seq body).Inv := by
  unfold State.sendMsg
  split
  · exact h
  · exact keep_emit _ _ (keep_modSession _ _ _ h)
@[simp] theorem keep_report (s : State) (kind heat status step : Nat) (detail : Bytes) (h : s.Inv) :
    (s.report kind heat status step detail).Inv := by
  unfold State.report
  refine keep_foldl _ _ (fun s (k : Session) hs => keep_sendMsg _ _ _ _ _ _ _ hs) _ (keep_modMgmt s _ h h.com.sessions ?_)
  have := h.com.reports
  have : 1 ≤ ringSize := by decide
  split <;> simp only [List.length_append, List.length_drop, List.length_singleton] <;> omega
@[simp] theorem keep_flashPut (s : State) (a : Nat) (bs : Bytes) (h : s.Inv) : (s.flashPut a bs).Inv :=
  keep_modBoot s _ h (Mem.put_wf _ _ _ h.com.flash)
@[simp] theorem keep_flashErase (s : State) (a n : Nat) (h : s.Inv) : (s.flashErase a n).Inv :=
  keep_modBoot s _ h (Mem.clear_wf _ _ _ h.com.flash)
@[simp] theorem keep_putRecord (s : State) (w : Nat) (h : s.Inv) : (s.putRecord w).Inv := by
  unfold State.putRecord; dsimp only; split <;> simp (maxDischargeDepth := 99) [h]
@[simp] theorem keep_journal (s : State) (kind status cls unit detail : Nat) (h : s.Inv) : (s.journal kind status cls unit detail).Inv := by
  unfold State.journal; dsimp only; split <;> simp (maxDischargeDepth := 99) [h]
@[simp] theorem keep_putSummary (s : State) (h : s.Inv) : s.putSummary.Inv := by
  unfold State.putSummary; dsimp only; split <;> simp (maxDischargeDepth := 99) [h]
@[simp] theorem keep_transient (s : State) (h : s.Inv) : s.transient.Inv := keep_modStore s _ h
@[simp] theorem keep_lifeCount (s : State) (i : Nat) (h : s.Inv) : (s.lifeCount i).Inv := keep_modStore s _ h
@[simp] theorem keep_noteRetired (s : State) (cls unit heat : Nat) (h : s.Inv) : (s.noteRetired cls unit heat).Inv := by
  unfold State.noteRetired; simp (maxDischargeDepth := 99) [h]

end Sys2Proof.Machine
end

