-- ==== Sys2Proof/Laws/KeepQueue.lean ====
section
/-! SUPPORT. The invariant under the engine queues, sessions, boot, and what a hurdle does to a heat. -/
namespace Sys2Proof.Machine

@[simp] theorem keep_heatChan (k : Heat) (i : Nat) (f : Chan → Chan) (h : k.Inv) : (k.modChan i f).Inv := by
  unfold Heat.modChan; simp (maxDischargeDepth := 99) [h]
@[simp] theorem keep_addSplit (k : Cluster) (r : SplitRec) (h : k.Inv) : (k.addSplit r).Inv := by
  have := h.splits
  unfold Cluster.addSplit; dsimp only
  split <;> simp (maxDischargeDepth := 99) [h] <;> omega
@[simp] theorem keep_record (s : State) (c : Fin 64) (q : Fin 4) (e : QEntry) (status : Nat) (h : s.Inv) : (s.record c q e status).Inv := by
  unfold State.record; dsimp only
  simp (maxDischargeDepth := 99) only [keep_bumpBin, keep_bump, keep_free, keep_setCl, keep_addSplit, inv_cl, h]
theorem queuesOk_set {qs : Vector (List QEntry) 4} (h : queuesOk qs) (q : Fin 4) (l : List QEntry) (hl : l.length ≤ 16) :
    queuesOk (qs.set q l) := by
  intro p
  have := h p
  simp only [Fin.getElem_fin, Vector.getElem_set] at this ⊢
  split
  · exact hl
  · exact this
@[simp] theorem queuesOk_drop {qs : Vector (List QEntry) 4} (h : queuesOk qs) (q : Fin 4) : queuesOk (qs.set q (qs[q].drop 1)) :=
  queuesOk_set h q _ (by have := h q; simp only [List.length_drop]; omega)
@[simp] theorem queuesOk_head {qs : Vector (List QEntry) 4} (h : queuesOk qs) (q : Fin 4) (e : QEntry) :
    queuesOk (qs.set q (e :: qs[q].drop 1)) :=
  queuesOk_set h q _ (by have := h q; simp only [List.length_cons, List.length_drop]; omega)
@[simp] theorem keep_popHead (k : Cluster) (q : Fin 4) (h : k.Inv) : (k.popHead q).Inv := by
  unfold Cluster.popHead
  exact ⟨h.store, h.fnTab, h.imem, h.dmem, h.x0, h.snap, queuesOk_drop h.queues q, h.sums, h.issued, h.encs, h.splits⟩
@[simp] theorem keep_setHead (k : Cluster) (q : Fin 4) (e : QEntry) (h : k.Inv) : (k.setHead q e).Inv := by
  unfold Cluster.setHead
  exact ⟨h.store, h.fnTab, h.imem, h.dmem, h.x0, h.snap, queuesOk_head h.queues q e, h.sums, h.issued, h.encs, h.splits⟩
@[simp] theorem keep_noteDone (k : Cluster) (q : Fin 4) (e : QEntry) (now : Nat) (h : k.Inv) : (k.noteDone q e now).Inv := by
  unfold Cluster.noteDone; simp (maxDischargeDepth := 99) [h]
@[simp] theorem keep_takeChans (k : Heat) (own raw : Nat) (h : k.Inv) : (k.takeChans own raw).Inv := by
  unfold Heat.takeChans; dsimp only
  repeat' split
  all_goals simp (maxDischargeDepth := 99) [h]
@[simp] theorem keep_giveChans (k : Heat) (own raw : Nat) (h : k.Inv) : (k.giveChans own raw).Inv := by
  unfold Heat.giveChans; dsimp only
  repeat' split
  all_goals simp (maxDischargeDepth := 99) [h]
@[simp] theorem keep_complete (s : State) (c : Fin 64) (q : Fin 4) (x : Site) (e : QEntry) (h : s.Inv) : (s.complete c q x e).Inv := by
  unfold State.complete; dsimp only
  simp (maxDischargeDepth := 99) only [keep_bump, keep_modCl, keep_noteDone, keep_popHead, inv_cl, keep_modHeat, keep_giveChans, inv_heat, keep_record, h]
@[simp] theorem space_inv (s : State) (x : Site) (h : s.Inv) : (s.space x).Inv := by
  unfold State.space; dsimp only
  refine ⟨by simp (maxDischargeDepth := 99) [h], by simp (maxDischargeDepth := 99) [h], by simp (maxDischargeDepth := 99) [h], ?_, ?_⟩
  · intro m hm
    simp only [List.mem_map] at hm
    obtain ⟨c, -, rfl⟩ := hm
    exact (h.cl c).store
  · split
    · exact (h.cl _).fnTab
    · rfl
@[simp] theorem keep_putStores (s : State) (cs : List (Fin 64)) (ms : List Mem) (h : s.Inv) (hm : ∀ m ∈ ms, m.wf = true) : (s.putStores cs ms).Inv := by
  induction cs generalizing s ms with
  | nil => unfold State.putStores; exact h
  | cons c cs ih =>
    cases ms with
    | nil => unfold State.putStores; exact h
    | cons m ms =>
      unfold State.putStores
      exact ih _ _ (by simp (maxDischargeDepth := 99) [h, hm m]) (fun n hn => hm n (by simp (maxDischargeDepth := 99) [hn]))
@[simp] theorem keep_putSpace (s : State) (x : Site) (sp : Space) (h : s.Inv) (hs : sp.Inv) : (s.putSpace x sp).Inv := by
  have h1 : (s.modHeat x.h (fun h => { h with mem := sp.mem, poison := sp.poison, scratch := sp.scratch, staging := sp.staging })).Inv := by
    simp (maxDischargeDepth := 99) [h, hs.mem, hs.scratch, hs.staging]
  have h2 := keep_putStores _ (s.heat x.h).clusterList sp.stores h1 hs.stores
  unfold State.putSpace; dsimp only
  split
  · simp (maxDischargeDepth := 99) [h2, hs.fn]
  · exact h2
@[simp] theorem keep_noteOrphan (s : State) (h : s.Inv) : (s.noteOrphan).Inv := by
  unfold State.noteOrphan; exact keep_modMgmt s _ h h.com.sessions h.com.reports
@[simp] theorem keep_dropSession (s : State) (conn : Nat) (h : s.Inv) : (s.dropSession conn).Inv := by
  unfold State.dropSession; refine keep_noteOrphan _ (keep_modMgmt s _ h ?_ h.com.reports)
  exact Nat.le_trans (List.length_filter_le _ _) h.com.sessions
@[simp] theorem keep_closeSession (s : State) (conn : Nat) (h : s.Inv) : (s.closeSession conn).Inv := by
  unfold State.closeSession; try dsimp only
  repeat' split
  all_goals first | exact h | simp (maxDischargeDepth := 99) [h]
@[simp] theorem keep_closeAll (s : State) (h : s.Inv) : (s.closeAll).Inv := by
  unfold State.closeAll
  exact keep_foldl _ _ (fun s k h => keep_closeSession s k.conn h) s h
@[simp] theorem keep_flushLog (s : State) (h : s.Inv) : (s.flushLog).Inv := by
  unfold State.flushLog; exact keep_foldl _ _ (fun s w h => keep_putRecord s w h) _ (keep_modStore _ _ h)
@[simp] theorem keep_catchUpLog (s : State) (h : s.Inv) : (s.catchUpLog).Inv :=
  keep_ite _ _ _ (keep_putSummary _ (keep_flushLog _ h)) (keep_flushLog _ h)
@[simp] theorem keep_bootLog (s : State) (h : s.Inv) : (s.bootLog).Inv := by
  unfold State.bootLog
  dsimp only
  refine keep_putSummary _ (keep_modPw _ _ ?_ (inv_rail (inv_com ?_)))
  all_goals (repeat' split) <;> simp (maxDischargeDepth := 99) [h]
@[simp] theorem inv_clusterReset : Cluster.reset.Inv := by
  unfold Cluster.reset Core.reset; simp
@[simp] theorem inv_heatReset : Heat.reset.Inv := by unfold Heat.reset; simp
@[simp] theorem inv_portReset : Port.reset.Inv := ⟨by decide⟩
@[simp] theorem keep_reboot (s : State) (h : s.Inv) : s.reboot.Inv := by
  unfold State.reboot; dsimp only
  refine keep_bootLog _ ?_
  rw [State.inv_mk]
  refine ⟨fun c => ?_, fun p => ?_, fun i => ?_, ⟨h.com.flash, Nat.zero_le _, Nat.zero_le _, h.com.rail⟩⟩
  · simp
  · simp [inv_portReset.replay]
  · simp
@[simp] theorem keep_railsOff (s : State) (h : s.Inv) : (s.railsOff).Inv := by
  unfold State.railsOff; dsimp only
  rw [State.inv_mk]
  refine ⟨fun c => ?_, fun p => ?_, fun i => ?_, ⟨h.com.flash, Nat.zero_le _, Nat.zero_le _, Nat.zero_le _⟩⟩
  · simp
  · simp [inv_portReset.replay]
  · simp
@[simp] theorem keep_flushReplies (conn n : Nat) (s : State) (h : s.Inv) : (State.flushReplies conn n s).Inv := by
  induction n generalizing s with
  | zero => exact h
  | succ n ih =>
    unfold State.flushReplies
    repeat' split
    all_goals simp (maxDischargeDepth := 99) [h, ih]
@[simp] theorem keep_reply (s : State) (conn seq heat status : Nat) (body : Bytes) (h : s.Inv) : (s.reply conn seq heat status body).Inv := by
  unfold State.reply; try dsimp only
  repeat' split
  all_goals first | exact h | simp (maxDischargeDepth := 99) [h]
@[simp] theorem keep_deferReply (s : State) (conn seq heat : Nat) (h : s.Inv) : (s.deferReply conn seq heat).Inv := by
  unfold State.deferReply; try dsimp only
  repeat' split
  all_goals first | exact h | simp (maxDischargeDepth := 99) [h]
@[simp] theorem keep_fillReply (s : State) (conn seq status : Nat) (body : Bytes) (h : s.Inv) : (s.fillReply conn seq status body).Inv := by
  unfold State.fillReply; try dsimp only
  repeat' split
  all_goals first | exact h | simp (maxDischargeDepth := 99) [h]
@[simp] theorem keep_stepRecords (s : State) (hi : Fin 4) (p : Program) (n : Nat) (h : s.Inv) : (s.stepRecords hi p n).Inv := by
  unfold State.stepRecords; dsimp only
  refine keep_foldl _ _ (fun s c h => ?_) _ h
  repeat' split
  all_goals simp (maxDischargeDepth := 99) [h]
@[simp] theorem keep_force (sp : Space) (a : Nat) (bs : Bytes) (h : sp.Inv) : (sp.force a bs).Inv := by
  unfold Space.force
  split
  · exact (keep_write _ _ _ h).of_eq ‹_›
  · exact h
theorem keep_spaceFold {α : Type} (f : Space → α → Space) (xs : List α) (hf : ∀ s a, s.Inv → (f s a).Inv) (s : Space) (h : s.Inv) :
    (xs.foldl f s).Inv := by
  induction xs generalizing s with
  | nil => exact h
  | cons x xs ih => exact ih _ (hf s x h)
@[simp] theorem keep_kvTail (sp : Space) (a : Nat) (h : sp.Inv) : (sp.kvTail a).Inv := by
  unfold Space.kvTail; dsimp only
  split
  · refine keep_spaceFold _ _ (fun s a h => ?_) _ h
    split <;> simp (maxDischargeDepth := 99) [h]
  · exact h
@[simp] theorem keep_kvRestore (sp : Space) (r : KvRecord) (rs : List Nat) (h : sp.Inv) : (sp.kvRestore r rs).Inv := by
  unfold Space.kvRestore
  exact keep_spaceFold _ _ (fun s a h => keep_kvTail s a h) _ (keep_spaceFold _ _ (fun s a h => keep_force s _ _ h) _ h)
@[simp] theorem keep_dropFor (pool own : Nat) (rs : List Nat) (n : Nat) (x : Space × Nat) (h : x.1.Inv) : (dropFor pool own rs n x).1.Inv := by
  induction n generalizing x with
  | zero => exact h
  | succ n ih =>
    obtain ⟨sp, k⟩ := x
    unfold dropFor; dsimp only
    repeat' split
    all_goals first | exact h | exact ih _ (by simpa using keep_force _ _ _ (keep_force _ _ _ h))
@[simp] theorem keep_kvHurdle (sp : Space) (ps rs : List Nat) (h : sp.Inv) : (sp.kvHurdle ps rs).1.Inv := by
  unfold Space.kvHurdle; dsimp only
  have h1 : (ps.foldl (fun sp a => match sp.coolPages (sp.poolAt a) with
    | .ok t => t
    | .error _ => sp) sp).Inv := by
    refine keep_spaceFold _ _ (fun s a h => ?_) _ h
    split
    · exact (keep_coolPages _ _ h).of_eq ‹_›
    · exact h
  revert h1
  generalize ps.foldl _ sp = sp1
  intro h1
  suffices ∀ x : Space × Nat, x.1.Inv → (ps.foldl (fun x a => (List.range 64).foldl
      (fun x own => dropFor a own rs (x.1.poolAt a).count x) x) x).1.Inv from this _ h1
  induction ps with
  | nil => exact fun x h => h
  | cons a ps ih =>
    intro x hx
    refine ih _ ?_
    generalize List.range 64 = l
    induction l generalizing x with
    | nil => exact hx
    | cons o l ih2 => exact ih2 _ (keep_dropFor _ _ _ _ _ hx)
@[simp] theorem fresh_regs (k : Core) : k.fresh.regs[0] = 0 := by simp [Core.fresh]
@[simp] theorem fresh_snap (k : Core) : k.fresh.snap = k.snap := rfl
@[simp] theorem fresh_sums (k : Core) : k.fresh.sums = [] := rfl
@[simp] theorem fresh_issued (k : Core) : k.fresh.issued = [] := rfl
@[simp] theorem fresh_encs (k : Core) : k.fresh.encs = [] := rfl
@[simp] theorem keep_go (k : Cluster) (now : Nat) (h : k.Inv) : (k.go now).Inv := by
  unfold Cluster.go; dsimp only
  have he : ∀ f : EncReq → Bool, (k.core.encs.filter f).length ≤ 2 := fun f => Nat.le_trans (List.length_filter_le _ _) h.encs
  split
  · have := keep_noteDone _ qLink ‹_› now (keep_popHead k qLink h)
    simp (maxDischargeDepth := 99) [h, this, he]
  · simp (maxDischargeDepth := 99) [h, he]
@[simp] theorem keep_rewind (k : Cluster) (p : Option Bytes) (h : k.Inv) : (k.rewind p).Inv := by
  have hs := h.snap
  unfold Cluster.rewind; dsimp only
  split
  · cases hk : k.core.snap with
    | none => simp (maxDischargeDepth := 99) [h, Mem.put_wf [] 0 _ rfl]
    | some t => rw [hk] at hs; simp at hs; simp (maxDischargeDepth := 99) [h, hs, Mem.put_wf [] 0 _ rfl]
  · rename_i t hk
    rw [hk] at hs; simp at hs; simp (maxDischargeDepth := 99) [h, hs, hk]
  · rename_i hk
    simp (maxDischargeDepth := 99) [h, hk]
@[simp] theorem keep_abandonHeads (s : State) (c : Fin 64) (h : s.Inv) : (s.abandonHeads c).Inv := by
  unfold State.abandonHeads
  refine keep_foldl _ _ (fun s q h => ?_) _ h
  cases (s.cl c).queues[q] with
  | nil => exact h
  | cons e l =>
    dsimp only
    cases e.phase <;> simp (maxDischargeDepth := 99) only [keep_bump, keep_record, h]
@[simp] theorem keep_clearFeeds (k : Heat) (h : k.Inv) : k.clearFeeds.Inv := by unfold Heat.clearFeeds; simp (maxDischargeDepth := 99) [h]
@[simp] theorem keep_beginPosting (k : Heat) (p : Program) (n : Nat) (h : k.Inv) : (k.beginPosting p n).Inv := by
  have := keep_clearFeeds k h
  unfold Heat.beginPosting; simp [this]
@[simp] theorem keep_releaseStep (k : Heat) (p : Program) (n : Nat) (h : k.Inv) : (k.releaseStep p n).Inv := by
  unfold Heat.releaseStep; simp (maxDischargeDepth := 99) [h]
@[simp] theorem keep_applyFolds (s : State) (hi : Fin 4) (h : s.Inv) : (s.applyFolds hi).Inv := by
  unfold State.applyFolds; dsimp only
  refine keep_foldl _ _ (fun s f h => ?_) _ h
  refine keep_journal _ _ _ _ _ _ (keep_report _ _ _ _ _ _ (keep_useFree _ (keep_foldl _ _ (fun s l h => ?_) _ (by simp (maxDischargeDepth := 99) [h]))))
  split <;> simp (maxDischargeDepth := 99) [h]
@[simp] theorem keep_chans (k : Heat) (cs : List Chan) (h : k.Inv) : ({ k with chans := cs } : Heat).Inv := by simp (maxDischargeDepth := 99) [h]
@[simp] theorem keep_startCheckpoints (s : State) (hi : Fin 4) (p : Program) (n : Nat) (h : s.Inv) : (s.startCheckpoints hi p n).Inv := by
  unfold State.startCheckpoints; try dsimp only
  repeat' split
  all_goals first | exact h | simp (maxDischargeDepth := 99) [h]
theorem keep_goMod (s : State) (c : Fin 64) (now : Nat) (h : s.Inv) : (s.modCl c (fun k => if k.retired then k else k.go now)).Inv := by
  refine keep_modCl _ _ _ h ?_
  split
  · exact h.cl c
  · exact keep_go _ _ (h.cl c)
@[simp] theorem keep_goCluster (s : State) (c : Fin 64) (h : s.Inv) : (s.goCluster c).Inv := by
  unfold State.goCluster
  refine keep_goMod _ _ _ ?_
  split <;> simp (maxDischargeDepth := 99) [h]
@[simp] theorem keep_startCluster (s : State) (c : Fin 64) (h : s.Inv) : (s.startCluster c).Inv := by
  unfold State.startCluster
  refine keep_modCl _ _ _ h ?_
  split <;> simp (maxDischargeDepth := 99) [h]
@[simp] theorem keep_countGoHold (s : State) (hi : Fin 4) (h : s.Inv) : (s.countGoHold hi).Inv := by
  unfold State.countGoHold; dsimp only
  split
  · exact keep_foldl _ _ (fun s c h => by split <;> simp [h]) s h
  · exact h
@[simp] theorem keep_finishGo (s : State) (hi : Fin 4) (p : Program) (n : Option Nat) (h : s.Inv) : (s.finishGo hi p n).Inv := by
  unfold State.finishGo; dsimp only
  have h := keep_countGoHold s hi h
  revert h
  generalize s.countGoHold hi = s
  intro h
  have h1 := keep_stepRecords s hi p (s.heat hi).hu.step h
  have h2 := keep_kvHurdle _ p.pools p.regions (space_inv _ (State.schedSite hi p) h1)
  revert h2
  generalize ((s.stepRecords hi p (s.heat hi).hu.step).space (State.schedSite hi p)).kvHurdle p.pools p.regions = d
  intro h2
  have h3 : (((s.stepRecords hi p (s.heat hi).hu.step).putSpace (State.schedSite hi p) d.1).bump 8 hi.val 20 d.2).Inv := by
    simp [h1, h2]
  have h4 := keep_modHeat _ hi (fun h => { h with kv := d.1.kvSave p.pools p.regions }) h3 (by simp (maxDischargeDepth := 99) [h1, h2])
  revert h4
  generalize ((((s.stepRecords hi p (s.heat hi).hu.step).putSpace (State.schedSite hi p) d.1).bump 8 hi.val 20 d.2).modHeat hi
    (fun h => { h with kv := d.1.kvSave p.pools p.regions })) = u
  intro h4
  have hg := keep_foldl State.goCluster (u.heat hi).clusterList (fun s c h => keep_goCluster s c h) u h4
  have hs := keep_foldl State.startCluster (u.heat hi).clusterList (fun s c h => keep_startCluster s c h) u h4
  cases n with
  | none =>
    simp only [Option.isSome_none, Bool.false_eq_true, if_false]
    exact keep_modHeat _ _ _ hs (by simp (maxDischargeDepth := 99) [hs])
  | some n =>
    simp only [Option.isSome_some, if_true]
    exact keep_startCheckpoints _ _ _ _ (keep_modHeat _ _ _ hg (by simp (maxDischargeDepth := 99) [hg]))
@[simp] theorem keep_advanceGo (s : State) (hi : Fin 4) (windowMs : Nat) (h : s.Inv) : (s.advanceGo hi windowMs).Inv := by
  unfold State.advanceGo; try dsimp only
  repeat' split
  all_goals first | exact h | simp (maxDischargeDepth := 99) [h]
@[simp] theorem keep_stopJob (s : State) (hi : Fin 4) (status reason : Nat) (h : s.Inv) : (s.stopJob hi status reason).Inv := by
  unfold State.stopJob; dsimp only
  have h1 := keep_foldl (fun s c => s.modCl c (fun k => { k with core := { k.core with running := false } })) (s.heat hi).clusterList
    (fun s c h => by simp (maxDischargeDepth := 99) [h]) s h
  split <;> simp (maxDischargeDepth := 99) [h1]
@[simp] theorem keep_encodeRun (stamp : Nat) (sp : Space) (q : Nat) (tagFail : Bool) (h : sp.Inv) : (encodeRun stamp sp q tagFail).2.2.Inv := by
  unfold encodeRun; dsimp only
  repeat' split
  all_goals simp [h]
@[simp] theorem keep_encStatus (s : State) (c : Fin 64) (off st n : Nat) (h : s.Inv) : (s.encStatus c off st n).Inv := by
  unfold State.encStatus; simp (maxDischargeDepth := 99) [h]
@[simp] theorem keep_encodeEnd (s : State) (c : Fin 64) (x : Site) (off q : Nat) (tagFail : Bool) (h : s.Inv) : (s.encodeEnd c x off q tagFail).1.Inv := by
  unfold State.encodeEnd; try dsimp only
  repeat' split
  all_goals first | exact h | simp (maxDischargeDepth := 99) [h]

end Sys2Proof.Machine
end

