-- ==== Sys2Proof/Laws/KeepHurdle.lean ====
section
/-! SUPPORT. The invariant under the link, the hurdle units and the management sessions. -/
namespace Sys2Proof.Machine

@[simp] theorem takeSlot_replay (t : Tx) (lane lanes : Nat) : (t.takeSlot lane lanes).replay = t.replay := by
  unfold Tx.takeSlot; split <;> rfl
@[simp] theorem endFrame_replay (t : Tx) : t.endFrame.replay = t.replay := by
  unfold Tx.endFrame; split <;> rfl
@[simp] theorem place_replay (p : Port) (f : Flit) (seq : Nat) : (p.place f seq).1.tx.replay = p.tx.replay := takeSlot_replay _ _ _
@[simp] theorem queue_replay (p : Port) (v : Fin 4) (fs : List Flit) : (p.queue v fs).tx.replay = p.tx.replay := rfl
theorem sendHead_replay {p : Port} {v : Fin 4} {r : Port × Nat × Bytes} (h : p.sendHead v = some r) : r.1.tx.replay.length ≤ 1024 := by
  unfold Port.sendHead at h
  split at h
  · cases h
  · split at h
    · rename_i hc
      simp at hc
      cases h
      simp
      omega
    · cases h
theorem sendNext_replay {p : Port} {r : Port × Nat × Bytes} (h : p.sendNext = some r) : r.1.tx.replay.length ≤ 1024 := by
  unfold Port.sendNext at h
  dsimp only at h
  split at h
  · rename_i q hq
    cases h
    exact sendHead_replay hq
  · simp only [Option.map_eq_some_iff] at h
    obtain ⟨x, hx, rfl⟩ := h
    obtain ⟨v, -, hv⟩ := List.exists_of_findSome?_eq_some hx
    simp only [Option.map_eq_some_iff] at hv
    obtain ⟨q, hq, rfl⟩ := hv
    have := sendHead_replay hq
    exact this
@[simp] theorem keep_sendSlot (s : State) (p : Fin 32) (r : Port × Nat × Bytes) (h : s.Inv) (hr : r.1.tx.replay.length ≤ 1024) :
    (s.sendSlot p r).Inv := by
  unfold State.sendSlot; dsimp only
  refine keep_bump _ _ _ _ _ (keep_emit _ _ (keep_setPort _ _ _ ?_ ⟨hr⟩))
  split
  · exact keep_foldl _ _ (fun s l h => keep_emit _ _ h) _ h
  · exact h
@[simp] theorem keep_pumpN (p : Fin 32) (n : Nat) (s : State) (h : s.Inv) : (State.pumpN p n s).Inv := by
  induction n generalizing s with
  | zero => exact h
  | succ n ih =>
    unfold State.pumpN
    split
    · exact h
    · rename_i k lane bytes hk
      refine ih _ (keep_sendSlot _ _ _ h ?_)
      dsimp only
      split <;> exact sendNext_replay hk
@[simp] theorem keep_idleN (p : Fin 32) (n : Nat) (s : State) (h : s.Inv) : (State.idleN p n s).Inv := by
  induction n generalizing s with
  | zero => exact h
  | succ n ih =>
    unfold State.idleN; dsimp only
    split
    · exact ih _ (keep_sendSlot _ _ _ h (by simp -implicitDefEqProofs (maxDischargeDepth := 40) [h]))
    · exact h
@[simp] theorem keep_pump (s : State) (p : Fin 32) (h : s.Inv) : (s.pump p).Inv := by
  unfold State.pump; try dsimp only
  repeat' split
  all_goals first | exact h | simp -implicitDefEqProofs (maxDischargeDepth := 40) [h]
@[simp] theorem keep_linkCtl (s : State) (p : Fin 32) (pay : Bytes) (h : s.Inv) : (s.linkCtl p pay).Inv := by
  unfold State.linkCtl; try dsimp only
  repeat' split
  all_goals first | exact h | simp -implicitDefEqProofs (maxDischargeDepth := 40) [h]
@[simp] theorem keep_offerTable (s : State) (p : Fin 32) (h : s.Inv) : (s.offerTable p).Inv := by
  unfold State.offerTable; dsimp only
  repeat' split
  all_goals simp -implicitDefEqProofs (maxDischargeDepth := 40) [h]
@[simp] theorem keep_queueBlock (s : State) (p : Fin 32) (hdr : Nat) (raw : Bytes) (check : Nat) (fails : List Nat) (framed : Bytes × Option Nat)
    (h : s.Inv) : (s.queueBlock p hdr raw check fails framed).Inv := by
  unfold State.queueBlock; dsimp only
  simp -implicitDefEqProofs (maxDischargeDepth := 40) [h]
@[simp] theorem keep_sendBlock (s : State) (p : Fin 32) (hdr : Nat) (raw : Bytes) (check cls : Nat) (h : s.Inv) : (s.sendBlock p hdr raw check cls).Inv :=
  keep_queueBlock _ _ _ _ _ _ _ h
@[simp] theorem keep_resendBlock (s : State) (p : Fin 32) (r : RawCopy) (fails : List Nat) (h : s.Inv) : (s.resendBlock p r fails).Inv :=
  keep_queueBlock _ _ _ _ _ _ _ h
@[simp] theorem keep_sendRouted (s : State) (hi : Fin 4) (type dest : Nat) (pay : Bytes) (h : s.Inv) : (s.sendRouted hi type dest pay).Inv := by
  unfold State.sendRouted; try dsimp only
  repeat' split
  all_goals first | exact h | simp -implicitDefEqProofs (maxDischargeDepth := 40) [h]
@[simp] theorem takeTrailer_replay (t : Tx) (now ack cvc n : Nat) (h : t.replay.length ≤ 1024) : (t.takeTrailer now ack cvc n).replay.length ≤ 1024 := by
  unfold Tx.takeTrailer
  simp only [List.length_drop]
  omega
@[simp] theorem keep_askReplay (s : State) (p : Fin 32) (h : s.Inv) : (s.askReplay p).Inv := by
  unfold State.askReplay; try dsimp only
  repeat' split
  all_goals first | exact h | simp -implicitDefEqProofs (maxDischargeDepth := 40) [h]
@[simp] theorem keep_stompCopy (s : State) (p : Fin 32) (bytes : Bytes) (h : s.Inv) : (s.stompCopy p bytes).Inv := by
  unfold State.stompCopy; dsimp only
  repeat' split
  all_goals first | exact h | skip
  exact keep_sendSlot _ _ _ h (by simp -implicitDefEqProofs (maxDischargeDepth := 40) [h])
@[simp] theorem keep_linkRx (s : State) (f : FlitRx) (h : s.Inv) : (s.linkRx f).1.Inv := by
  unfold State.linkRx; dsimp only
  repeat' split
  all_goals first | exact h | simp -implicitDefEqProofs (maxDischargeDepth := 40) [h]
@[simp] theorem keep_freeBuffer (s : State) (p : Fin 32) (hdr : Nat) (h : s.Inv) : (s.freeBuffer p hdr).Inv := by
  unfold State.freeBuffer; try dsimp only
  repeat' split
  all_goals first | exact h | simp -implicitDefEqProofs (maxDischargeDepth := 40) [h]
theorem keep_withFlit (s : State) (f : FlitRx) (want : Nat → Bytes → Bool) (go : State → Nat → Bytes → Nat → State) (h : s.Inv)
    (hg : ∀ t hdr pay seq, t.Inv → (go t hdr pay seq).Inv) : Keeps (s.withFlit f want go) := by
  have := keep_linkRx s f h
  unfold State.withFlit; dsimp only
  repeat' split
  all_goals simp -implicitDefEqProofs (maxDischargeDepth := 40) [h, this, hg]
@[simp] theorem keep_sendHurdle (s : State) (hi : Fin 4) (dest : Nat) (m : HMsg) (h : s.Inv) : (s.sendHurdle hi dest m).Inv := by
  unfold State.sendHurdle; try dsimp only
  repeat' split
  all_goals first | exact h | simp -implicitDefEqProofs (maxDischargeDepth := 40) [h]
@[simp] theorem keep_sendParent (s : State) (hi : Fin 4) (m : HMsg) (h : s.Inv) : (s.sendParent hi m).Inv := by
  unfold State.sendParent; try dsimp only
  repeat' split
  all_goals first | exact h | simp -implicitDefEqProofs (maxDischargeDepth := 40) [h]
@[simp] theorem keep_stale (s : State) (hi : Fin 4) (h : s.Inv) : (s.stale hi).Inv := by
  unfold State.stale; try dsimp only
  repeat' split
  all_goals first | exact h | simp -implicitDefEqProofs (maxDischargeDepth := 40) [h]
@[simp] theorem keep_closeHold (s : State) (hi : Fin 4) (h : s.Inv) : (s.closeHold hi).Inv := by
  unfold State.closeHold; try dsimp only
  repeat' split
  all_goals first | exact h | simp -implicitDefEqProofs (maxDischargeDepth := 40) [h]
@[simp] theorem keep_refreshHeld (s : State) (hi : Fin 4) (h : s.Inv) : (s.refreshHeld hi).Inv := by
  unfold State.refreshHeld; try dsimp only
  repeat' split
  all_goals first | exact h | simp -implicitDefEqProofs (maxDischargeDepth := 40) [h]
@[simp] theorem keep_startDump (s : State) (hi : Fin 4) (why : HangCause) (h : s.Inv) : (s.startDump hi why).Inv := by
  unfold State.startDump
  split
  · exact h
  · exact keep_modStore _ _ (keep_foldl _ _ (fun s c h => by simp -implicitDefEqProofs (maxDischargeDepth := 40) [h]) _ h)
@[simp] theorem keep_declareHang (s : State) (hi : Fin 4) (why : HangCause) (h : s.Inv) : (s.declareHang hi why).Inv := by
  unfold State.declareHang; try dsimp only
  repeat' split
  all_goals first | exact h | simp -implicitDefEqProofs (maxDischargeDepth := 40) [h]
@[simp] theorem keep_answerStart (s : State) (hi : Fin 4) (status : Nat) (h : s.Inv) : (s.answerStart hi status).Inv := by
  unfold State.answerStart; try dsimp only
  repeat' split
  all_goals first | exact h | simp -implicitDefEqProofs (maxDischargeDepth := 40) [h]
@[simp] theorem keep_actGo (s : State) (hi : Fin 4) (p : Program) (m : HMsg) (h : s.Inv) : (s.actGo hi p m).Inv := by
  unfold State.actGo; dsimp only
  refine keep_refreshHeld _ _ ?_
  have h1 : ((((s.closeHold hi).advanceGo hi m.windowMs).modHu hi Hurdle.newCount)).Inv := by simp -implicitDefEqProofs (maxDischargeDepth := 40) [h]
  revert h1
  generalize ((s.closeHold hi).advanceGo hi m.windowMs).modHu hi Hurdle.newCount = u
  intro h1
  have h2 : (if (s.heat hi).hu.count = 0 then (u.modHu hi (fun u => { u with pf := m.pf })).answerStart hi 0 else u).Inv := by
    split <;> simp -implicitDefEqProofs (maxDischargeDepth := 40) [h1]
  revert h2
  generalize (if (s.heat hi).hu.count = 0 then (u.modHu hi (fun u => { u with pf := m.pf })).answerStart hi 0 else u) = v
  intro h2
  repeat' split
  all_goals simp -implicitDefEqProofs (maxDischargeDepth := 40) [h2]
@[simp] theorem withdraw_replay (k : Port) (e : Nat) : (k.withdraw e).tx.replay.length = k.tx.replay.length := by
  simp -implicitDefEqProofs (maxDischargeDepth := 40) [Port.withdraw]
@[simp] theorem keep_withdraw (s : State) (hi : Fin 4) (epoch : Nat) (h : s.Inv) : (s.withdraw hi epoch).Inv := by
  unfold State.withdraw; dsimp only
  have := keep_foldl (fun s p => s.modPort p (fun k => k.withdraw epoch)) (s.heat hi).portList
    (fun s p h => keep_modPort _ _ _ h ⟨by simp -implicitDefEqProofs (maxDischargeDepth := 40) [h]⟩) s h
  simp -implicitDefEqProofs (maxDischargeDepth := 40) [this]
theorem keep_noEncs (s : State) (c : Fin 64) (h : s.Inv) : (s.modCl c (fun k => { k with core := { k.core with encs := [] } })).Inv := by
  simp -implicitDefEqProofs (maxDischargeDepth := 40) [h]
@[simp] theorem keep_dropEncodes (s : State) (c : Fin 64) (x : Site) (h : s.Inv) : (s.dropEncodes c x).Inv := by
  unfold State.dropEncodes
  refine keep_noEncs _ _ (keep_foldl _ _ (fun s r h => ?_) _ h)
  split <;> simp -implicitDefEqProofs (maxDischargeDepth := 40) [h]
@[simp] theorem keep_rewindAll (s : State) (hi : Fin 4) (p : Program) (new : List (Nat × Nat)) (h : s.Inv) : (s.rewindAll hi p new).Inv := by
  unfold State.rewindAll
  refine keep_foldl _ _ (fun s lc h => ?_) _ h
  refine keep_modCl _ _ _ h ?_
  split <;> simp -implicitDefEqProofs (maxDischargeDepth := 40) [h]
@[simp] theorem keep_actFalseStart (s : State) (hi : Fin 4) (p : Program) (m : HMsg) (h : s.Inv) : (s.actFalseStart hi p m).Inv := by
  unfold State.actFalseStart; dsimp only
  have h1 : (s.closeHold hi).Inv := by simp -implicitDefEqProofs (maxDischargeDepth := 40) [h]
  revert h1
  generalize s.closeHold hi = a
  intro h1
  have h2 : ((a.bump 8 hi.val 19 (a.waitingTags (s.heat hi).clusterList)).bump 8 hi.val (fsCounter m.reason)).Inv := by simp -implicitDefEqProofs (maxDischargeDepth := 40) [h1]
  revert h2
  generalize (a.bump 8 hi.val 19 (a.waitingTags (s.heat hi).clusterList)).bump 8 hi.val (fsCounter m.reason) = b
  intro h2
  have h3 : (if m.reason ≤ 5 then b.lifeCount (15 + m.reason) else b).Inv := by split <;> simp -implicitDefEqProofs (maxDischargeDepth := 40) [h2]
  revert h3
  generalize (if m.reason ≤ 5 then b.lifeCount (15 + m.reason) else b) = c
  intro h3
  have h4 : (((s.heat hi).clusterList.mapIdx (fun l c => (l, c))).foldl (fun s lc => (s.abandonHeads lc.2).dropEncodes lc.2 ⟨hi, lc.1, p⟩)
      (c.report 0x03 hi.val m.status (c.heat hi).hu.step (natLE 4 m.reason ++ natLE 4 (s.heat hi).hu.count))).Inv :=
    keep_foldl _ _ (fun s lc h => by simp -implicitDefEqProofs (maxDischargeDepth := 40) [h]) _ (by simp -implicitDefEqProofs (maxDischargeDepth := 40) [h3])
  revert h4
  generalize ((s.heat hi).clusterList.mapIdx (fun l c => (l, c))).foldl (fun s lc => (s.abandonHeads lc.2).dropEncodes lc.2 ⟨hi, lc.1, p⟩)
      (c.report 0x03 hi.val m.status (c.heat hi).hu.step (natLE 4 m.reason ++ natLE 4 (s.heat hi).hu.count)) = d
  intro h4
  have h5 : (d.withdraw hi ((s.heat hi).hu.count % 4)).Inv := by simp -implicitDefEqProofs (maxDischargeDepth := 40) [h4]
  revert h5
  generalize d.withdraw hi ((s.heat hi).hu.count % 4) = e
  intro h5
  refine keep_refreshHeld _ _ (keep_modHeat _ _ _ (by simp -implicitDefEqProofs (maxDischargeDepth := 40) [h5]) ?_)
  split <;> simp -implicitDefEqProofs (maxDischargeDepth := 40) [h5]
@[simp] theorem keep_act (s : State) (hi : Fin 4) (p : Program) (m : HMsg) (h : s.Inv) : (s.act hi p m).Inv := by
  unfold State.act
  split <;> simp -implicitDefEqProofs (maxDischargeDepth := 40) [h]
@[simp] theorem keep_takeDecide (s : State) (hi : Fin 4) (p : Program) (m : HMsg) (h : s.Inv) : (s.takeDecide hi p m).Inv := by
  unfold State.takeDecide; dsimp only
  have := keep_foldl (fun s (c : Child) => s.sendHurdle hi c.id m) (s.heat hi).hu.children (fun s c h => by simp -implicitDefEqProofs (maxDischargeDepth := 40) [h]) s h
  split <;> simp -implicitDefEqProofs (maxDischargeDepth := 40) [this]
@[simp] theorem keep_onDecide (s : State) (hi : Fin 4) (p : Program) (m : HMsg) (h : s.Inv) : (s.onDecide hi p m).Inv := by
  unfold State.onDecide; try dsimp only
  repeat' split
  all_goals first | exact h | simp -implicitDefEqProofs (maxDischargeDepth := 40) [h]
@[simp] theorem keep_actDeferred (hi : Fin 4) (p : Program) (n : Nat) (s : State) (h : s.Inv) : (State.actDeferred hi p n s).Inv := by
  induction n generalizing s with
  | zero => exact h
  | succ n ih =>
    unfold State.actDeferred
    split
    · exact h
    · split
      · exact h
      · refine ih _ ?_
        split <;> simp -implicitDefEqProofs (maxDischargeDepth := 40) [h]
@[simp] theorem keep_rootDecide (s : State) (hi : Fin 4) (d : Nat × Nat × Nat) (h : s.Inv) : (s.rootDecide hi d).Inv := by
  unfold State.rootDecide; try dsimp only
  repeat' split
  all_goals first | exact h | simp -implicitDefEqProofs (maxDischargeDepth := 40) [h]
@[simp] theorem keep_rootRun (hi : Fin 4) (n : Nat) (s : State) (h : s.Inv) : (State.rootRun hi n s).Inv := by
  induction n generalizing s with
  | zero => exact h
  | succ n ih =>
    unfold State.rootRun
    split
    · exact h
    · exact ih _ (by simp -implicitDefEqProofs (maxDischargeDepth := 40) [h])
@[simp] theorem keep_rootRequest (s : State) (hi : Fin 4) (r : Request) (h : s.Inv) : (s.rootRequest hi r).Inv := by
  unfold State.rootRequest; try dsimp only
  repeat' split
  all_goals first | exact h | simp -implicitDefEqProofs (maxDischargeDepth := 40) [h]
@[simp] theorem keep_request (s : State) (hi : Fin 4) (reason status : Nat) (h : s.Inv) : (s.request hi reason status).Inv := by
  unfold State.request; try dsimp only
  repeat' split
  all_goals first | exact h | simp -implicitDefEqProofs (maxDischargeDepth := 40) [h]
@[simp] theorem keep_stopAtNext (s : State) (hi : Fin 4) (h : s.Inv) : (s.stopAtNext hi).Inv := by
  unfold State.stopAtNext; try dsimp only
  repeat' split
  all_goals first | exact h | simp -implicitDefEqProofs (maxDischargeDepth := 40) [h]
@[simp] theorem keep_progress (s : State) (hi : Fin 4) (h : s.Inv) : (s.progress hi).Inv := by
  unfold State.progress; try dsimp only
  repeat' split
  all_goals first | exact h | simp -implicitDefEqProofs (maxDischargeDepth := 40) [h]
@[simp] theorem keep_resumeDecides (s : State) (hi : Fin 4) (p : Program) (h : s.Inv) : (s.resumeDecides hi p).Inv := by
  unfold State.resumeDecides; dsimp only
  have h1 := keep_actDeferred hi p (s.heat hi).hu.deferred.length s h
  exact keep_refreshHeld _ _ (keep_progress _ _ (keep_ite _ _ _ (keep_rootRun _ _ _ h1) h1))
@[simp] theorem keep_tryJoin (s : State) (hi : Fin 4) (h : s.Inv) : (s.tryJoin hi).Inv := by
  unfold State.tryJoin; try dsimp only
  repeat' split
  all_goals first | exact h | simp -implicitDefEqProofs (maxDischargeDepth := 40) [h]
@[simp] theorem keep_reroute (s : State) (hi : Fin 4) (f : Flit) (h : s.Inv) : (s.reroute hi f).Inv := by
  unfold State.reroute; try dsimp only
  repeat' split
  all_goals first | exact h | simp -implicitDefEqProofs (maxDischargeDepth := 40) [h]
@[simp] theorem keep_retirePort (s : State) (p : Fin 32) (h : s.Inv) : (s.retirePort p).Inv := by
  unfold State.retirePort; dsimp only
  have hs := keep_setPort s p { s.port p with
      retired := true
      tx := { (s.port p).tx with q := Vector.replicate 4 [], replay := [], raws := [] }
      rx := { (s.port p).rx with asm := [] } } h ⟨Nat.zero_le _⟩
  repeat' split
  · exact h
  · simp -implicitDefEqProofs (maxDischargeDepth := 40) [hs]
  · exact keep_request _ _ _ _ (keep_foldl _ _ (fun s f h => by simp -implicitDefEqProofs (maxDischargeDepth := 40) [h]) _ (by simp -implicitDefEqProofs (maxDischargeDepth := 40) [hs]))
@[simp] theorem keep_sendPlain (s : State) (conn type status reqSeq : Nat) (body : Bytes) (h : s.Inv) : (s.sendPlain conn type status reqSeq body).Inv := by
  unfold State.sendPlain; try dsimp only
  repeat' split
  all_goals first | exact h | simp -implicitDefEqProofs (maxDischargeDepth := 40) [h]
theorem keep_execTcpConnect (conn addr tcpPort : Nat) (s : State) (h : s.Inv) : Keeps (execTcpConnect conn addr tcpPort s) := by
  unfold execTcpConnect
  repeat' split
  · simp -implicitDefEqProofs (maxDischargeDepth := 40) [h]
  · simp -implicitDefEqProofs (maxDischargeDepth := 40) [h]
  · rw [keeps_next]
    refine keep_modMgmt _ _ h ?_ h.com.reports
    simp; omega
theorem keep_execTcpLoss (conn : Nat) (s : State) (h : s.Inv) : Keeps (execTcpLoss conn s) := by
  unfold execTcpLoss; try dsimp only
  repeat' split
  all_goals first | exact h | simp -implicitDefEqProofs (maxDischargeDepth := 40) [h]
@[simp] theorem keep_answerAttach (s : State) (k : Session) (m : Msg) (status : Nat) (h : s.Inv) : (s.answerAttach k m status).Inv := by
  unfold State.answerAttach; try dsimp only
  repeat' split
  all_goals first | exact h | simp -implicitDefEqProofs (maxDischargeDepth := 40) [h]
theorem keep_onAttach (s : State) (m : Msg) (ok : Nat → Bool) (go : Session → State) (h : s.Inv) (hg : ∀ k, (go k).Inv) :
    Keeps (s.onAttach m ok go) := by
  unfold State.onAttach
  repeat' split
  all_goals simp -implicitDefEqProofs (maxDischargeDepth := 40) [h, hg]
theorem keep_execAttachPhase0 (m : Msg) (s : State) (h : s.Inv) : Keeps (execAttachPhase0 m s) := by
  unfold execAttachPhase0
  refine keep_onAttach _ _ _ _ h (fun k => ?_)
  dsimp only
  repeat' split
  all_goals simp -implicitDefEqProofs (maxDischargeDepth := 40) [h]
@[simp] theorem keep_replayReports (s : State) (conn first : Nat) (h : s.Inv) : (s.replayReports conn first).Inv := by
  unfold State.replayReports; dsimp only
  refine keep_foldl _ _ (fun s b h => by simp -implicitDefEqProofs (maxDischargeDepth := 40) [h]) _ ?_
  split <;> simp -implicitDefEqProofs (maxDischargeDepth := 40) [h]
theorem keep_execAttachPhase1 (m : Msg) (sigOk decapOk : Bool) (s : State) (h : s.Inv) : Keeps (execAttachPhase1 m sigOk decapOk s) := by
  unfold execAttachPhase1
  refine keep_onAttach _ _ _ _ h (fun k => ?_)
  dsimp only
  repeat' split
  all_goals simp -implicitDefEqProofs (maxDischargeDepth := 40) [h]
@[simp] theorem keep_sessionTimeout (s : State) (conn : Nat) (phase : SessionPhase) (h : s.Inv) : Keeps (s.sessionTimeout conn phase) := by
  unfold State.sessionTimeout; try dsimp only
  repeat' split
  all_goals first | exact h | simp -implicitDefEqProofs (maxDischargeDepth := 40) [h]
theorem keep_execListenTimeout (conn : Nat) (s : State) (h : s.Inv) : Keeps (execListenTimeout conn s) := by
  unfold execListenTimeout; try dsimp only
  repeat' split
  all_goals first | exact h | simp -implicitDefEqProofs (maxDischargeDepth := 40) [h]
theorem keep_execChallengedTimeout (conn : Nat) (s : State) (h : s.Inv) : Keeps (execChallengedTimeout conn s) := by
  unfold execChallengedTimeout; try dsimp only
  repeat' split
  all_goals first | exact h | simp -implicitDefEqProofs (maxDischargeDepth := 40) [h]
theorem keep_execLeaseExpiry (conn : Nat) (s : State) (h : s.Inv) : Keeps (execLeaseExpiry conn s) := by
  unfold execLeaseExpiry; try dsimp only
  repeat' split
  all_goals first | exact h | simp -implicitDefEqProofs (maxDischargeDepth := 40) [h]
@[simp] theorem keep_orphanStops (s : State) (h : s.Inv) : (s.orphanStops).Inv := by
  unfold State.orphanStops
  refine keep_foldl _ _ (fun s i h => ?_) _ h
  split <;> simp -implicitDefEqProofs (maxDischargeDepth := 40) [h]
theorem keep_execOrphanGraceExpiry (s : State) (h : s.Inv) : Keeps (execOrphanGraceExpiry s) := by
  unfold execOrphanGraceExpiry; try dsimp only
  repeat' split
  all_goals first | exact h | simp -implicitDefEqProofs (maxDischargeDepth := 40) [h]

end Sys2Proof.Machine
end

