-- ==== Sys2Proof/Laws/KeepEngine.lean ====
section
/-! SUPPORT. The invariant under the commands of the four engine queues. -/
namespace Sys2Proof.Machine

@[simp] theorem keep_failCommand (s : State) (c : Fin 64) (q : Fin 4) (x : Site) (e : QEntry) (status : Nat) (h : s.Inv) : (s.failCommand c q x e status).Inv := by
  unfold State.failCommand; try dsimp only
  repeat' split
  all_goals first | exact h | simp -implicitDefEqProofs (maxDischargeDepth := 40) [h]
@[simp] theorem keep_endCommand (s : State) (c : Fin 64) (q : Fin 4) (x : Site) (e : QEntry) (status : Nat) (h : s.Inv) : (s.endCommand c q x e status).Inv := by
  unfold State.endCommand; try dsimp only
  repeat' split
  all_goals first | exact h | simp -implicitDefEqProofs (maxDischargeDepth := 40) [h]
@[simp] theorem keep_startCommand (s : State) (c : Fin 64) (q : Fin 4) (x : Site) (e : QEntry) (h : s.Inv) : (s.startCommand c q x e).1.Inv := by
  unfold State.startCommand; try dsimp only
  repeat' split
  all_goals first | exact h | simp -implicitDefEqProofs (maxDischargeDepth := 40) [h]
theorem keep_runHead (s : State) (c : Fin 64) (q : Fin 4) (isRow : Nat → Bool) (go : State → Site → QEntry → State × Nat) (h : s.Inv)
    (hg : ∀ t x e, t.Inv → (go t x e).1.Inv) : Keeps (s.runHead c q isRow go) := by
  unfold State.runHead; dsimp only
  repeat' split
  all_goals first | exact (keeps_next _).2 h | skip
  rw [keeps_next]
  exact keep_refreshHeld _ _ (keep_endCommand _ _ _ _ _ _ (hg _ _ _ (keep_startCommand _ _ _ _ _ h)))
theorem keep_putMatrix (s : State) (c : Fin 64) (r : Except Nat EngOut) (h : s.Inv) (hr : Post (fun o => o.store.wf = true) r) :
    (s.putMatrix c r).1.Inv := by
  unfold State.putMatrix
  split
  · have := hr.of_eq rfl
    simp -implicitDefEqProofs (maxDischargeDepth := 40) [h, this]
  · exact h
theorem matmul_wf (x : EngCtx) (st : Mem) (q : Nat) (h : st.wf = true) : Post (fun o => o.store.wf = true) (matmulRun x st q) := by
  have := matmulRun_within x st q
  revert this
  cases matmulRun x st q with
  | error e => exact fun _ => trivial
  | ok o => exact fun ⟨_, _, w⟩ => w.1 h
theorem conv_wf (x : EngCtx) (st : Mem) (q : Nat) (lo hi : Option (Nat × Nat × Nat)) (h : st.wf = true) :
    Post (fun o => o.store.wf = true) (convRun x st q lo hi) := by
  have := convRun_within x st q lo hi
  revert this
  cases convRun x st q lo hi with
  | error e => exact fun _ => trivial
  | ok o => exact fun ⟨_, _, _, _, w⟩ => w.1 h
theorem vec_wf (x : EngCtx) (st : Mem) (q : Nat) (h : st.wf = true) : Post (fun o => o.store.wf = true) (vecRun x st q) := by
  have := vecRun_within x st q
  revert this
  cases vecRun x st q with
  | error e => exact fun _ => trivial
  | ok o => exact fun ⟨_, _, w⟩ => w.1 h
theorem reduce_wf (x : EngCtx) (st : Mem) (q : Nat) (h : st.wf = true) : Post (fun o => o.store.wf = true) (reduceRun x st q) := by
  have := reduceRun_within x st q
  revert this
  cases reduceRun x st q with
  | error e => exact fun _ => trivial
  | ok o => exact fun ⟨_, _, _, _, w⟩ => w.1 h
@[simp] theorem keep_runMatmul (s : State) (c : Fin 64) (h : s.Inv) : Keeps (s.runMatmul c) := by
  unfold State.runMatmul
  exact keep_runHead _ _ _ _ _ h (fun t x e ht => keep_putMatrix _ _ _ ht (matmul_wf _ _ _ (ht.cl c).store))
@[simp] theorem keep_takeHalo (k : Heat) (l : List (Option (Option Nat))) (h : k.Inv) : (k.takeHalo l).Inv := by
  unfold Heat.takeHalo
  induction l generalizing k with
  | nil => exact h
  | cons a l ih =>
    refine ih _ ?_
    dsimp only
    split <;> simp -implicitDefEqProofs (maxDischargeDepth := 40) [h]
@[simp] theorem keep_giveHalo (k : Heat) (l : List (Option (Option Nat))) (h : k.Inv) : (k.giveHalo l).Inv := by
  unfold Heat.giveHalo
  induction l generalizing k with
  | nil => exact h
  | cons a l ih =>
    refine ih _ ?_
    dsimp only
    split <;> simp -implicitDefEqProofs (maxDischargeDepth := 40) [h]
theorem keep_convGo (s : State) (c : Fin 64) (x : Site) (e : QEntry) (l : List (Option (Option Nat))) (h : s.Inv) : (s.convGo c x e l).Inv := by
  unfold State.convGo; dsimp only
  have h2 := fun lo hi q => keep_putMatrix s c _ h (conv_wf (s.engCtx c x) _ q lo hi (h.cl c).store)
  refine keep_refreshHeld _ _ (keep_endCommand _ _ _ _ _ _ (keep_ite _ _ _ (keep_modHeat _ _ _ (h2 _ _ _) ?_) (h2 _ _ _)))
  exact keep_giveHalo _ _ ((h2 _ _ _).heat _)
@[simp] theorem keep_runConv (s : State) (c : Fin 64) (isMode : Nat → Bool) (h : s.Inv) : Keeps (s.runConv c isMode) := by
  unfold State.runConv; dsimp only
  split
  · simp -implicitDefEqProofs (maxDischargeDepth := 40) [h]
  · rename_i x e _
    have h1 : (if e.phase = .waiting then s.startCommand c qMatrix x e else (s, e)).1.Inv := by
      split
      · exact keep_startCommand s c qMatrix x e h
      · exact h
    revert h1
    generalize (if e.phase = .waiting then s.startCommand c qMatrix x e else (s, e)) = r
    intro h1
    have h2 : ∀ l, (r.1.modHeat x.h (fun h => h.takeHalo l)).Inv := fun l => keep_modHeat _ _ (fun h => h.takeHalo l) h1 (keep_takeHalo _ _ (h1.heat _))
    refine keeps_ite _ _ _ (keeps_ite _ _ _ ((keeps_next _).2 (keep_convGo _ _ _ _ _ (h2 _))) ((keeps_next _).2 ?_)) ((keeps_next _).2 h)
    exact keep_refreshHeld _ _ (keep_modCl _ _ _ (h2 _) (keep_setHead _ _ _ ((h2 _).cl c)))
theorem keep_putVector (s : State) (c : Fin 64) (o : VecOut) (h : s.Inv) (ho : o.store.wf = true) : (s.putVector c o).Inv := by
  unfold State.putVector; simp -implicitDefEqProofs (maxDischargeDepth := 40) [h, ho]
theorem keep_enterSum (s : State) (c : Fin 64) (w : Word) (h : s.Inv) (hl : (s.cl c).core.sums.length < 4) : (s.enterSum c w).Inv := by
  unfold State.enterSum
  refine keep_modCl _ _ _ h ?_
  simp -implicitDefEqProofs (maxDischargeDepth := 40) [h]
  omega
@[simp] theorem keep_endVector (s : State) (c : Fin 64) (x : Site) (e : QEntry) (sum : Option Word) (h : s.Inv) : (s.endVector c x e sum).Inv := by
  unfold State.endVector
  split
  · simp -implicitDefEqProofs (maxDischargeDepth := 40) [h]
  · split
    · exact keep_complete _ _ _ _ _ (keep_enterSum _ _ _ h ‹_›)
    · simp -implicitDefEqProofs (maxDischargeDepth := 40) [h]
theorem keep_runVector (s : State) (c : Fin 64) (isRow : Nat → Bool) (run : EngCtx → Mem → Nat → Except Nat VecOut) (h : s.Inv)
    (hr : ∀ x st q, st.wf = true → Post (fun o => o.store.wf = true) (run x st q)) : Keeps (s.runVector c isRow run) := by
  unfold State.runVector; dsimp only
  split
  · simp -implicitDefEqProofs (maxDischargeDepth := 40) [h]
  · rename_i x e _
    split
    · have h1 := keep_startCommand s c qVector x e h
      split
      · simp -implicitDefEqProofs (maxDischargeDepth := 40) [h1]
      · rename_i o ho
        have h2 := keep_putVector _ c o h1 ((hr _ _ _ (h1.cl c).store).of_eq ho)
        rw [keeps_next]
        refine keep_refreshHeld _ _ (keep_ite _ _ _ ?_ ?_)
        · exact keep_endVector _ _ _ _ _ h2
        · exact keep_failCommand _ _ _ _ _ _ h2
    · simp -implicitDefEqProofs (maxDischargeDepth := 40) [h]
@[simp] theorem keep_drainSum (s : State) (c : Fin 64) (h : s.Inv) : (s.drainSum c).Inv := by
  unfold State.drainSum; dsimp only
  split
  · split
    · split
      · rename_i hc
        simp only [Bool.and_eq_true, decide_eq_true_eq] at hc
        exact keep_refreshHeld _ _ (keep_complete _ _ _ _ _ (keep_enterSum _ _ _ h hc.1.1))
      · exact h
    · exact h
  · exact h
/-- Traffic through the cache changes only what it holds, the channels' counters and the use of free values. -/
@[simp] theorem keep_setCached (s : State) (hi : Fin 4) (l v : Nat) (h : s.Inv) : (s.setCached hi l v).Inv :=
  keep_modCom s _ h ⟨h.com.flash, h.com.sessions, h.com.reports, h.com.rail⟩
@[simp] theorem keep_dropLine (s : State) (hi : Fin 4) (l : Nat) (h : s.Inv) : (s.dropLine hi l).Inv := by
  unfold State.dropLine State.writeBack
  exact keep_setCached _ _ _ _ (keep_ite _ _ _ (keep_setCached _ _ _ _ (keep_bump _ _ _ _ _ h)) h)
theorem keep_allocLine (s : State) (hi : Fin 4) (l : Nat) (d : Bool) (h : s.Inv) : (s.allocLine hi l d).Inv := by
  unfold State.allocLine; dsimp only
  refine keep_setCached _ _ _ _ ?_
  split
  · exact keep_dropLine _ _ _ (keep_useFree _ h)
  · exact keep_useFree _ h
theorem keep_wideLine (s : State) (hi : Fin 4) (hint l : Nat) (w a : Bool) (h : s.Inv) : (s.wideLine hi hint l w a).Inv := by
  unfold State.wideLine State.lineReads State.lineWrites; dsimp only
  repeat' split
  all_goals simp -implicitDefEqProofs (maxDischargeDepth := 40) [h, keep_allocLine]
theorem keep_narrowGranule (s : State) (hi : Fin 4) (hint g : Nat) (w a : Bool) (h : s.Inv) : (s.narrowGranule hi hint g w a).Inv := by
  unfold State.narrowGranule State.lineReads State.lineWrites; dsimp only
  repeat' split
  all_goals simp -implicitDefEqProofs (maxDischargeDepth := 40) [h]
theorem keep_access (s : State) (hi : Fin 4) (hm : HeatMap) (hint : Nat) (a : MemAccess) (h : s.Inv) : (s.access hi hm hint a).Inv := by
  unfold State.access
  repeat' split
  all_goals first
    | exact h
    | exact keep_foldl _ _ (fun s u h => keep_narrowGranule _ _ _ _ _ _ h) _ h
    | exact keep_foldl _ _ (fun s u h => keep_wideLine _ _ _ _ _ _ h) _ h
theorem keep_moverTraffic (s : State) (x : Site) (sp after : Space) (q : Nat) (h : s.Inv) : (s.moverTraffic x sp after q).Inv :=
  keep_foldl _ _ (fun s a h => keep_access _ _ _ _ _ h) _ h
theorem keep_putMover (s : State) (c : Fin 64) (x : Site) (b : Bool) (n : Nat) (sp : Space) (q : Nat) (r : Except Nat MovOut) (h : s.Inv)
    (hr : MovInv r) : (s.putMover c x b n sp q r).1.Inv := by
  unfold State.putMover
  split
  · rename_i o
    have := hr.of_eq rfl
    have h1 : ((s.putSpace x o.sp).bump 1 c.val 17 (if o.status = 0 then n else 0)).Inv := keep_bump _ _ _ _ _ (keep_putSpace _ _ _ h this)
    split
    · exact h
    · exact keep_ite _ _ _ (keep_moverTraffic _ _ _ _ _ h1) h1
  · exact h
theorem keep_runMoverHead (s : State) (c : Fin 64) (isRow : Nat → Bool) (go : State → Site → QEntry → State × Nat) (h : s.Inv)
    (hg : ∀ t x e, t.Inv → (go t x e).1.Inv) : Keeps (s.runMoverHead c isRow go) := by
  unfold State.runMoverHead
  exact keeps_ite _ _ _ (keep_runHead _ _ _ _ _ h hg) ((keeps_next _).2 h)
theorem keep_runMover (s : State) (c : Fin 64) (b : Bool) (isRow : Nat → Bool) (offs : Nat → List Nat)
    (run : State → Site → Space → Nat → Except Nat MovOut) (h : s.Inv) (hr : ∀ t x sp q, sp.Inv → MovInv (run t x sp q)) :
    Keeps (s.runMover c b isRow offs run) := by
  unfold State.runMover
  exact keep_runMoverHead _ _ _ _ h (fun t x e ht => keep_putMover _ _ _ _ _ _ _ _ ht (hr _ _ _ _ (space_inv t x ht)))
@[simp] theorem keep_countAtomics (s : State) (x : Site) (raw : Nat) (h : s.Inv) : (s.countAtomics x raw).Inv := by
  unfold State.countAtomics; dsimp only
  split
  · split
    · exact h
    · exact keep_foldl _ _ (fun s a h => keep_bump _ _ _ _ _ (keep_dropLine _ _ _ h)) _ h
  · exact h
@[simp] theorem keep_runScatter (s : State) (c : Fin 64) (b : Bool) (isAop : Nat → Bool) (h : s.Inv) : Keeps (s.runScatter c b isAop) := by
  unfold State.runScatter
  refine keep_runMoverHead _ _ _ _ h (fun t x e ht => ?_)
  have := keep_putMover t c x b (tensorBytes (t.space x) x.prog.recipes (fld e.raw 111 88)) (t.space x) e.raw _ ht
    (keep_scatterRun x.prog.recipes x.prog.floatAtomics t.cacheAtomics (t.space x) e.raw (space_inv t x ht))
  dsimp only
  split <;> simp -implicitDefEqProofs (maxDischargeDepth := 40) [this]
theorem keep_execMatmul (c : Fin 64) (s : State) (h : s.Inv) : Keeps (execMatmul c s) := by
  unfold execMatmul; try dsimp only
  repeat' split
  all_goals first | exact h | simp -implicitDefEqProofs (maxDischargeDepth := 40) [h]
theorem keep_execConvFwd (c : Fin 64) (s : State) (h : s.Inv) : Keeps (execConvFwd c s) := by
  unfold execConvFwd; try dsimp only
  repeat' split
  all_goals first | exact h | simp -implicitDefEqProofs (maxDischargeDepth := 40) [h]
theorem keep_execConvDgrad (c : Fin 64) (s : State) (h : s.Inv) : Keeps (execConvDgrad c s) := by
  unfold execConvDgrad; try dsimp only
  repeat' split
  all_goals first | exact h | simp -implicitDefEqProofs (maxDischargeDepth := 40) [h]
theorem keep_execConvWgrad (c : Fin 64) (s : State) (h : s.Inv) : Keeps (execConvWgrad c s) := by
  unfold execConvWgrad; try dsimp only
  repeat' split
  all_goals first | exact h | simp -implicitDefEqProofs (maxDischargeDepth := 40) [h]
theorem keep_execMaxpool (c : Fin 64) (s : State) (h : s.Inv) : Keeps (execMaxpool c s) := by
  unfold execMaxpool; try dsimp only
  repeat' split
  all_goals first | exact h | simp -implicitDefEqProofs (maxDischargeDepth := 40) [h]
theorem keep_execAvgpool (c : Fin 64) (s : State) (h : s.Inv) : Keeps (execAvgpool c s) := by
  unfold execAvgpool; try dsimp only
  repeat' split
  all_goals first | exact h | simp -implicitDefEqProofs (maxDischargeDepth := 40) [h]
theorem keep_execVec (c : Fin 64) (s : State) (h : s.Inv) : Keeps (execVec c s) := by
  unfold execVec; exact keep_runVector _ _ _ _ h (fun _ _ _ hw => vec_wf _ _ _ hw)
@[simp] theorem keep_runReduce (s : State) (c : Fin 64) (isRop : Nat → Bool) (h : s.Inv) : Keeps (s.runReduce c isRop) := by
  unfold State.runReduce; exact keep_runVector _ _ _ _ h (fun _ _ _ hw => reduce_wf _ _ _ hw)
theorem keep_execSum (c : Fin 64) (s : State) (h : s.Inv) : Keeps (execSum c s) := by
  unfold execSum; try dsimp only
  repeat' split
  all_goals first | exact h | simp -implicitDefEqProofs (maxDischargeDepth := 40) [h]
theorem keep_execSumsq (c : Fin 64) (s : State) (h : s.Inv) : Keeps (execSumsq c s) := by
  unfold execSumsq; try dsimp only
  repeat' split
  all_goals first | exact h | simp -implicitDefEqProofs (maxDischargeDepth := 40) [h]
theorem keep_execReduceMax (c : Fin 64) (s : State) (h : s.Inv) : Keeps (execReduceMax c s) := by
  unfold execReduceMax; try dsimp only
  repeat' split
  all_goals first | exact h | simp -implicitDefEqProofs (maxDischargeDepth := 40) [h]
theorem keep_execReduceMin (c : Fin 64) (s : State) (h : s.Inv) : Keeps (execReduceMin c s) := by
  unfold execReduceMin; try dsimp only
  repeat' split
  all_goals first | exact h | simp -implicitDefEqProofs (maxDischargeDepth := 40) [h]
theorem keep_execMeanvar (c : Fin 64) (s : State) (h : s.Inv) : Keeps (execMeanvar c s) := by
  unfold execMeanvar; try dsimp only
  repeat' split
  all_goals first | exact h | simp -implicitDefEqProofs (maxDischargeDepth := 40) [h]
theorem keep_execSoftmax (c : Fin 64) (s : State) (h : s.Inv) : Keeps (execSoftmax c s) := by
  unfold execSoftmax; try dsimp only
  repeat' split
  all_goals first | exact h | simp -implicitDefEqProofs (maxDischargeDepth := 40) [h]
theorem keep_execSoftmaxBwd (c : Fin 64) (s : State) (h : s.Inv) : Keeps (execSoftmaxBwd c s) := by
  unfold execSoftmaxBwd; try dsimp only
  repeat' split
  all_goals first | exact h | simp -implicitDefEqProofs (maxDischargeDepth := 40) [h]
theorem keep_execGather (c : Fin 64) (s : State) (h : s.Inv) : Keeps (execGather c s) := by
  unfold execGather; exact keep_runMover _ _ _ _ _ _ h (fun _ _ _ _ hs => keep_gatherRun _ _ _ hs)
theorem keep_execStore (c : Fin 64) (b : Bool) (s : State) (h : s.Inv) : Keeps (execStore c b s) := by
  unfold execStore; try dsimp only
  repeat' split
  all_goals first | exact h | simp -implicitDefEqProofs (maxDischargeDepth := 40) [h]
theorem keep_execFadd (c : Fin 64) (b : Bool) (s : State) (h : s.Inv) : Keeps (execFadd c b s) := by
  unfold execFadd; try dsimp only
  repeat' split
  all_goals first | exact h | simp -implicitDefEqProofs (maxDischargeDepth := 40) [h]
theorem keep_execIadd (c : Fin 64) (b : Bool) (s : State) (h : s.Inv) : Keeps (execIadd c b s) := by
  unfold execIadd; try dsimp only
  repeat' split
  all_goals first | exact h | simp -implicitDefEqProofs (maxDischargeDepth := 40) [h]
theorem keep_execImax (c : Fin 64) (b : Bool) (s : State) (h : s.Inv) : Keeps (execImax c b s) := by
  unfold execImax; try dsimp only
  repeat' split
  all_goals first | exact h | simp -implicitDefEqProofs (maxDischargeDepth := 40) [h]
theorem keep_execImin (c : Fin 64) (b : Bool) (s : State) (h : s.Inv) : Keeps (execImin c b s) := by
  unfold execImin; try dsimp only
  repeat' split
  all_goals first | exact h | simp -implicitDefEqProofs (maxDischargeDepth := 40) [h]
theorem keep_runCopy (s : State) (c : Fin 64) (b : Bool) (isCop : Nat → Bool) (offs : Nat → List Nat) (run : List Recipe → Space → Nat → Except Nat MovOut)
    (h : s.Inv) (hr : ∀ rs sp q, sp.Inv → MovInv (run rs sp q)) : Keeps (s.runCopy c b isCop offs run) := by
  unfold State.runCopy; exact keep_runMover _ _ _ _ _ _ h (fun _ _ _ _ hs => hr _ _ _ hs)
theorem keep_execPlain (c : Fin 64) (b : Bool) (s : State) (h : s.Inv) : Keeps (execPlain c b s) := by
  unfold execPlain; exact keep_runCopy _ _ _ _ _ _ h (fun rs _ _ hs => keep_plainRun rs _ _ hs)
theorem keep_execKvRead (c : Fin 64) (s : State) (h : s.Inv) : Keeps (execKvRead c s) := by
  unfold execKvRead; exact keep_runCopy _ _ _ _ _ _ h (fun rs _ _ hs => keep_kvReadRun rs _ _ hs)
theorem keep_execKvWrite (c : Fin 64) (b : Bool) (s : State) (h : s.Inv) : Keeps (execKvWrite c b s) := by
  unfold execKvWrite; exact keep_runCopy _ _ _ _ _ _ h (fun rs _ _ hs => keep_kvWriteRun rs _ _ hs)
theorem keep_execAlloc (c : Fin 64) (b : Bool) (s : State) (h : s.Inv) : Keeps (execAlloc c b s) := by
  unfold execAlloc; exact keep_runCopy _ _ _ _ _ _ h (fun rs _ _ hs => keep_allocRun _ _ hs)
theorem keep_execShare (c : Fin 64) (b : Bool) (s : State) (h : s.Inv) : Keeps (execShare c b s) := by
  unfold execShare; exact keep_runCopy _ _ _ _ _ _ h (fun rs _ _ hs => keep_shareRun _ _ hs)
theorem keep_execCow (c : Fin 64) (b : Bool) (s : State) (h : s.Inv) : Keeps (execCow c b s) := by
  unfold execCow; exact keep_runCopy _ _ _ _ _ _ h (fun rs _ _ hs => keep_cowRun _ _ hs)
theorem keep_execFree (c : Fin 64) (b : Bool) (s : State) (h : s.Inv) : Keeps (execFree c b s) := by
  unfold execFree; exact keep_runCopy _ _ _ _ _ _ h (fun rs _ _ hs => keep_freeRun _ _ hs)
theorem keep_ckSent (s : State) (i : Fin 4) (b : List SentBlock) (h : s.Inv) : (s.modHeat i (fun h => { h with sent := h.sent ++ b })).Inv := by
  simp -implicitDefEqProofs (maxDischargeDepth := 40) [h]
theorem keep_ckEjected (s : State) (i : Fin 4) (b : List Ejected) (h : s.Inv) :
    (s.modHeat i (fun h => { h with ejected := h.ejected ++ b })).Inv := by simp -implicitDefEqProofs (maxDischargeDepth := 40) [h]
@[simp] theorem keep_launch (s : State) (c : Fin 64) (x : Site) (e : QEntry) (cls tag : Nat) (copy : Bool) (b : Nat × Bytes) (h : s.Inv) :
    (s.launch c x e cls tag copy b).Inv := by
  unfold State.launch; dsimp only
  split
  · exact keep_ckEjected _ _ _ (keep_ckSent _ _ _ h)
  · split
    · exact keep_bump _ _ _ _ _ (keep_ckSent _ _ _ h)
    · refine keep_sendBlock _ _ _ _ _ _ (keep_ite _ _ _ (keep_ckSent _ _ _ h) (keep_bump _ _ _ _ _ (keep_ckSent _ _ _ h)))
@[simp] theorem keep_settleSend (s : State) (cl : Fin 64) (ord : Nat) (h : s.Inv) : (s.settleSend cl ord).Inv := by
  unfold State.settleSend; try dsimp only
  repeat' split
  all_goals first | exact h | simp -implicitDefEqProofs (maxDischargeDepth := 40) [h]
@[simp] theorem keep_runSend (s : State) (c : Fin 64) (tagFail baton : Bool) (h : s.Inv) : Keeps (s.runSend c tagFail baton) := by
  unfold State.runSend; dsimp only
  split
  · simp -implicitDefEqProofs (maxDischargeDepth := 40) [h]
  · rename_i x e _
    split
    · have h1 := keep_startCommand s c qLink x e h
      split
      · simp -implicitDefEqProofs (maxDischargeDepth := 40) [h1]
      · rw [keeps_next]
        refine keep_refreshHeld _ _ ?_
        have h2 : ∀ d, (((s.startCommand c qLink x e).1.modCl c (fun k => k.setHead qLink d))).Inv := fun d => by simp -implicitDefEqProofs (maxDischargeDepth := 40) [h1]
        split
        · exact keep_foldl _ _ (fun s b h => keep_launch _ _ _ _ _ _ _ _ h) _ (keep_foldl _ _ (fun s b h => keep_launch _ _ _ _ _ _ _ _ h) _ (h2 _))
        · exact keep_foldl _ _ (fun s b h => keep_launch _ _ _ _ _ _ _ _ h) _ (h2 _)
    · simp -implicitDefEqProofs (maxDischargeDepth := 40) [h]
theorem keep_combineRun (cb : Combine) (sp : Space) (base : Nat) (twin : Option Nat) (left : Bool) (h : sp.Inv) :
    (combineRun cb sp base twin left).1.sp.Inv := by
  unfold combineRun
  suffices ∀ (xs : List Nat) (o : MovOut × Bool), o.1.sp.Inv → (xs.foldl (fun (o : MovOut × Bool) r =>
    if o.1.status ≠ 0 then o
    else match combineRow cb o.1.sp base r left with
    | .error st => (⟨o.1.sp, st⟩, o.2)
    | .ok vs =>
      let bad := match twin with
        | some t => (match combineRow cb o.1.sp t r left with
          | .ok ws => ws != vs
          | .error _ => false)
        | none => false
      match o.1.sp.write (cb.d.rowAddr r) (vs.flatMap (natLE (elemBits cb.d.fmt / 8))) with
      | .ok sp => (⟨sp, 0⟩, o.2 || bad)
      | .error st => (⟨o.1.sp, st⟩, o.2 || bad)) o).1.sp.Inv from this _ (⟨sp, 0⟩, false) h
  intro xs
  induction xs with
  | nil => exact fun o h => h
  | cons r xs ih =>
    intro o ho
    refine ih _ ?_
    dsimp only
    split
    · exact ho
    · split
      · exact ho
      · split
        · exact (keep_write _ _ _ ho).of_eq ‹_›
        · exact ho
@[simp] theorem keep_mismatch (s : State) (x : Site) (tag twin : Nat) (h : s.Inv) : (s.mismatch x tag twin).Inv := by
  unfold State.mismatch; dsimp only
  exact keep_request _ _ _ _ (keep_modHu _ _ _ (keep_putSummary _ (keep_journal _ _ _ _ _ _
    (keep_foldl _ _ (fun s i h => keep_report _ _ _ _ _ _ h) _ (keep_lifeCount _ _ (keep_bump _ _ _ _ _ h))))))
theorem keep_stop (s : State) (c : Fin 64) (x : Site) (e : QEntry) (st : Nat) (h : s.Inv) :
    (((s.startCommand c qLink x e).1.failCommand c qLink x (s.startCommand c qLink x e).2 st).refreshHeld x.h).Inv := by
  simp -implicitDefEqProofs (maxDischargeDepth := 40) [h]
@[simp] theorem keep_runRecv (s : State) (c : Fin 64) (tagFail : Bool) (isMode : Nat → Bool) (h : s.Inv) : Keeps (s.runRecv c tagFail isMode) := by
  unfold State.runRecv
  split
  · simp -implicitDefEqProofs (maxDischargeDepth := 40) [h]
  · rename_i x e _
    split
    · dsimp only
      split
      · rw [keeps_next]; exact keep_stop _ _ _ _ _ h
      · rename_i cb _
        refine keeps_ite _ _ _ ((keeps_next _).2 (keep_stop _ _ _ _ _ h)) (keeps_ite _ _ _ ((keeps_next _).2 h) ?_)
        have h1 := keep_startCommand s c qLink x e h
        cases cb with
        | none => simp -implicitDefEqProofs (maxDischargeDepth := 40) [h1]
        | some cb =>
          dsimp only
          refine keeps_ite _ _ _ ((keeps_next _).2 (keep_stop _ _ _ _ _ h)) ?_
          rw [keeps_next]
          refine keep_refreshHeld _ _ (keep_ite _ _ _ (keep_mismatch _ _ _ _ ?_) ?_)
          all_goals
            refine keep_endCommand _ _ _ _ _ _ (keep_ite _ _ _ (keep_bump _ _ _ _ _ ?_) ?_)
            all_goals exact keep_putSpace _ _ _ h1 (keep_combineRun _ _ _ _ _ (space_inv _ _ h1))
    · simp -implicitDefEqProofs (maxDischargeDepth := 40) [h]
theorem keep_execSend (c : Fin 64) (b : Bool) (s : State) (h : s.Inv) : Keeps (execSend c b s) := by
  unfold execSend; try dsimp only
  repeat' split
  all_goals first | exact h | simp -implicitDefEqProofs (maxDischargeDepth := 40) [h]
theorem keep_execSendBaton (c : Fin 64) (b : Bool) (s : State) (h : s.Inv) : Keeps (execSendBaton c b s) := by
  unfold execSendBaton; try dsimp only
  repeat' split
  all_goals first | exact h | simp -implicitDefEqProofs (maxDischargeDepth := 40) [h]
theorem keep_execWait (c : Fin 64) (s : State) (h : s.Inv) : Keeps (execWait c s) := by
  unfold execWait; try dsimp only
  repeat' split
  all_goals first | exact h | simp -implicitDefEqProofs (maxDischargeDepth := 40) [h]
theorem keep_execCombineLeft (c : Fin 64) (b : Bool) (s : State) (h : s.Inv) : Keeps (execCombineLeft c b s) := by
  unfold execCombineLeft; try dsimp only
  repeat' split
  all_goals first | exact h | simp -implicitDefEqProofs (maxDischargeDepth := 40) [h]
theorem keep_execCombineRight (c : Fin 64) (b : Bool) (s : State) (h : s.Inv) : Keeps (execCombineRight c b s) := by
  unfold execCombineRight; try dsimp only
  repeat' split
  all_goals first | exact h | simp -implicitDefEqProofs (maxDischargeDepth := 40) [h]
theorem keep_execHurdle (c : Fin 64) (s : State) (h : s.Inv) : Keeps (execHurdle c s) := by
  unfold execHurdle; try dsimp only
  repeat' split
  all_goals first | exact h | simp -implicitDefEqProofs (maxDischargeDepth := 40) [h]

end Sys2Proof.Machine
end

