-- ==== Sys2Proof/Laws/KeepFabric.lean ====
section
/-! SUPPORT. The invariant under admission, image loading and the rows of the fabric. -/
namespace Sys2Proof.Machine

@[simp] theorem unqueue_replay (t : Tx) (id : Nat) : (t.unqueue id).replay = t.replay := rfl
@[simp] theorem moveBlock_replay (t : Tx) (id : Nat) : (t.moveBlock id).replay = t.replay := rfl
theorem coreReset_ok : Core.reset.regs[0] = 0 ∧ Core.reset.snap = none ∧ Core.reset.sums = [] ∧ Core.reset.issued = [] ∧ Core.reset.encs = [] := by
  unfold Core.reset; simp
@[simp] theorem keep_release (k : Cluster) (h : k.Inv) : k.release.Inv := by
  obtain ⟨a, b, c, d, e⟩ := coreReset_ok
  unfold Cluster.release; simp -implicitDefEqProofs (maxDischargeDepth := 40) [h, a, b, c, d, e]
@[simp] theorem release_replay (k : Port) : k.release.tx.replay.length = k.tx.replay.length := by simp -implicitDefEqProofs (maxDischargeDepth := 40) [Port.release]
@[simp] theorem keep_chansAll (s : State) (f : Vector MemChan 96 → Vector MemChan 96) (h : s.Inv) :
    ({ s with com := { s.com with chans := f s.com.chans } } : State).Inv :=
  ⟨h.cl, h.heat, h.port, ⟨h.com.flash, h.com.sessions, h.com.reports, h.com.rail⟩⟩
theorem keep_freed (s : State) (hi : Fin 4) (f : Vector MemChan 96 → Vector MemChan 96) (h : s.Inv) :
    ((({ s with com := { s.com with chans := f s.com.chans } } : State).setHeat hi Heat.reset).noteOrphan).Inv :=
  keep_noteOrphan _ (keep_setHeat _ _ _ (keep_chansAll s f h) inv_heatReset)
@[simp] theorem keep_freeHeat (s : State) (hi : Fin 4) (h : s.Inv) : (s.freeHeat hi).Inv := by
  unfold State.freeHeat; dsimp only
  have hd : ∀ t : State, t.Inv → (if t.frozenHeat hi then t.modStore (fun k => { k with dumping := none }) else t).Inv := by
    intro t ht; split <;> simp -implicitDefEqProofs (maxDischargeDepth := 40) [ht]
  refine keep_freed _ _ _ (hd _ ?_)
  refine keep_foldl (fun s p => s.modPort p Port.release) _ (fun s p h => keep_modPort _ _ _ h ⟨by simp -implicitDefEqProofs (maxDischargeDepth := 40) [h]⟩) _ ?_
  refine keep_foldl (fun s c => s.modCl c Cluster.release) _ (fun s c h => by simp -implicitDefEqProofs (maxDischargeDepth := 40) [h]) _ ?_
  split <;> simp -implicitDefEqProofs (maxDischargeDepth := 40) [h]
@[simp] theorem keep_clear (k : Cluster) (h : k.Inv) : k.clear.Inv := by
  have := keep_release k h
  unfold Cluster.clear; simp -implicitDefEqProofs (maxDischargeDepth := 40) [this]
@[simp] theorem keep_markFolds (s : State) (hi : Fin 4) (h : s.Inv) : (s.markFolds hi).Inv := by
  unfold State.markFolds; dsimp only
  refine keep_foldl _ _ (fun s l h => ?_) _ h
  split <;> simp -implicitDefEqProofs (maxDischargeDepth := 40) [h]
@[simp] theorem keep_reportFold (s : State) (hi : Fin 4) (f : Nat × Nat) (h : s.Inv) : (s.reportFold hi f).Inv := by
  unfold State.reportFold; simp -implicitDefEqProofs (maxDischargeDepth := 40) [h]
@[simp] theorem keep_retireFailed (s : State) (c : Fin 96) (hi : Fin 4) (h : s.Inv) : (s.retireFailed c hi).Inv := by
  unfold State.retireFailed
  split <;> simp -implicitDefEqProofs (maxDischargeDepth := 40) [h]
@[simp] theorem keep_dropCache (s : State) (hi : Fin 4) (h : s.Inv) : (s.dropCache hi).Inv :=
  keep_modCom s _ h ⟨h.com.flash, h.com.sessions, h.com.reports, h.com.rail⟩
theorem keep_admitHeat (s : State) (hi : Fin 4) (a : Nat) (h : s.Inv) : Post State.Inv (s.admitHeat hi a) := by
  unfold State.admitHeat; dsimp only
  repeat' (with_reducible refine post_bind _ _ _ (fun _ _ => ?_))
  rw [post_ok]
  refine keep_foldl _ _ (fun s f h => keep_reportFold _ _ _ h) _
    (keep_markFolds _ _ (keep_foldl _ _ (fun s n h => ?_) _ (keep_foldl _ _ (fun s c h => ?_) _ (keep_dropCache _ _ ?_))))
  · split <;> simp -implicitDefEqProofs (maxDischargeDepth := 40) [h]
  · simp -implicitDefEqProofs (maxDischargeDepth := 40) [h]
  · refine keep_setHeat _ _ _ h ?_
    unfold Heat.reset; simp
@[simp] theorem putStreams_wf (p : Program) (m : Mem) (h : m.wf = true) : (p.putStreams m).wf = true := by
  unfold Program.putStreams
  generalize List.range p.clusterCount = l
  induction l generalizing m with
  | nil => exact h
  | cons a l ih => exact ih _ (Mem.put_wf _ _ _ (Mem.put_wf _ _ _ h))
@[simp] theorem keep_loadClusters (s : State) (hi : Fin 4) (p : Program) (h : s.Inv) : (s.loadClusters hi p).Inv := by
  unfold State.loadClusters; dsimp only
  refine keep_foldl _ _ (fun s lc h => ?_) _ h
  have := fun b => Mem.put_wf [] 0 b rfl
  simp -implicitDefEqProofs (maxDischargeDepth := 40) [h, this]
@[simp] theorem keep_loadAll (s : State) (hi : Fin 4) (p : Program) (h : s.Inv) : (s.loadAll hi p).Inv := by
  unfold State.loadAll; dsimp only
  have := fun b => Mem.put_wf [] 0 b rfl
  simp -implicitDefEqProofs (maxDischargeDepth := 40) [h, this]
theorem keep_chunkStart (s : State) (hi : Fin 4) (off r : Nat) (h : s.Inv) : Post State.Inv (s.chunkStart hi off r) := by
  unfold State.chunkStart
  split
  · exact keep_admitHeat _ _ _ h
  · trivial
  · split
    · exact h
    · trivial
theorem keep_refuse (s : State) (hi : Fin 4) (st : Nat) (b : Bytes) (h : s.Inv) : ((s.freeHeat hi, st, b) : State × Nat × Bytes).1.Inv := by
  simp -implicitDefEqProofs (maxDischargeDepth := 40) [h]
@[simp] theorem keep_loadChunk (s : State) (hi : Fin 4) (last : Bool) (body : Bytes) (h : s.Inv) : (s.loadChunk hi last body).1.Inv := by
  unfold State.loadChunk; dsimp only
  generalize (if leAt body 0 8 = 0 then 80 else 16) = w
  generalize List.drop _ body = data
  split
  · split <;> simp -implicitDefEqProofs (maxDischargeDepth := 40) [h]
  · have hs := keep_chunkStart s hi (leAt body 0 8) (leAt body 16 64) h
    revert hs
    generalize s.chunkStart hi (leAt body 0 8) (leAt body 16 64) = r
    intro hs
    cases r with
    | error e => simp -implicitDefEqProofs (maxDischargeDepth := 40) [h]
    | ok t =>
      have ht : t.Inv := hs
      dsimp only
      split
      · simp -implicitDefEqProofs (maxDischargeDepth := 40) [ht]
      · split <;> simp -implicitDefEqProofs (maxDischargeDepth := 40) [ht]
@[simp] theorem modLane_replay (k : Port) (l : Nat) (f : Lane → Lane) : (k.modLane l f).tx = k.tx := rfl
@[simp] theorem keep_dropLane (s : State) (p : Fin 32) (l : Nat) (h : s.Inv) : (s.dropLane p l).Inv := by
  unfold State.dropLane; try dsimp only
  first
    | (simp (maxDischargeDepth := 40) -implicitDefEqProofs [h]; done)
    | ((repeat' split) <;> first | exact h | simp -implicitDefEqProofs (maxDischargeDepth := 40) [h])
@[simp] theorem keep_checkLink (s : State) (p : Fin 32) (h : s.Inv) : (s.checkLink p).Inv := by
  unfold State.checkLink; try dsimp only
  first
    | (simp (maxDischargeDepth := 40) -implicitDefEqProofs [h]; done)
    | ((repeat' split) <;> first | exact h | simp -implicitDefEqProofs (maxDischargeDepth := 40) [h])
@[simp] theorem keep_afterDrop (s : State) (p : Fin 32) (h : s.Inv) : (s.afterDrop p).Inv :=
  keep_ite _ _ _ (keep_retirePort _ _ h) (keep_checkLink _ _ h)
@[simp] theorem keep_declareLane (s : State) (p : Fin 32) (l : Nat) (h : s.Inv) : (s.declareLane p l).Inv := by
  unfold State.declareLane; dsimp only
  have := keep_afterDrop _ p (keep_dropLane s p l h)
  exact keep_ite _ _ _ h (keep_ite _ _ _ this (keep_linkCtl _ _ _ this))
theorem keep_keepLanes (s : State) (p : Fin 32) (m : Nat) (h : s.Inv) : (s.keepLanes p m).Inv :=
  keep_afterDrop _ _ (keep_foldl _ _ (fun s l h => keep_dropLane _ _ _ h) _ h)
@[simp] theorem keep_failTraining (s : State) (p : Fin 32) (l : Nat) (h : s.Inv) : (s.failTraining p l).Inv := by
  unfold State.failTraining; try dsimp only
  first
    | (simp (maxDischargeDepth := 40) -implicitDefEqProofs [h]; done)
    | ((repeat' split) <;> first | exact h | simp -implicitDefEqProofs (maxDischargeDepth := 40) [h])
@[simp] theorem keep_retrainPort (s : State) (p : Fin 32) (h : s.Inv) : (s.retrainPort p).Inv := by
  unfold State.retrainPort; try dsimp only
  first
    | (simp (maxDischargeDepth := 40) -implicitDefEqProofs [h]; done)
    | ((repeat' split) <;> first | exact h | simp -implicitDefEqProofs (maxDischargeDepth := 40) [h])
@[simp] theorem keep_linkUp (s : State) (p : Fin 32) (h : s.Inv) : (s.linkUp p).Inv := by
  unfold State.linkUp; dsimp only
  refine keep_foldl _ _ (fun s r h => by simp -implicitDefEqProofs (maxDischargeDepth := 40) [h]) _ (keep_setPort _ _ _ h ⟨?_⟩)
  simp -implicitDefEqProofs (maxDischargeDepth := 40) [h]
theorem keep_execLaneTraining (p : Fin 32) (lane : Fin 8) (ok : Bool) (s : State) (h : s.Inv) : Keeps (execLaneTraining p lane ok s) := by
  unfold execLaneTraining; try dsimp only
  first
    | (simp (maxDischargeDepth := 40) -implicitDefEqProofs [h]; done)
    | ((repeat' split) <;> first | exact h | simp -implicitDefEqProofs (maxDischargeDepth := 40) [h])
theorem keep_execLaneFrame (p : Fin 32) (lane : Fin 8) (hdr : Bytes) (fec : Vector (Option (Fin 16)) 16) (s : State) (h : s.Inv) :
    Keeps (execLaneFrame p lane hdr fec s) := by
  unfold execLaneFrame State.countFec; try dsimp only
  first
    | (simp (maxDischargeDepth := 40) -implicitDefEqProofs [h]; done)
    | ((repeat' split) <;> first | exact h | simp -implicitDefEqProofs (maxDischargeDepth := 40) [h])
theorem keep_execPortRetrainTimeout (p : Fin 32) (s : State) (h : s.Inv) : Keeps (execPortRetrainTimeout p s) := by
  unfold execPortRetrainTimeout; try dsimp only
  first
    | (simp (maxDischargeDepth := 40) -implicitDefEqProofs [h]; done)
    | ((repeat' split) <;> first | exact h | simp -implicitDefEqProofs (maxDischargeDepth := 40) [h])
@[simp] theorem keep_resendN (p : Fin 32) (n i : Nat) (s : State) (h : s.Inv) : (State.resendN p n i s).Inv := by
  induction n generalizing s i with
  | zero => exact h
  | succ n ih =>
    unfold State.resendN; dsimp only
    split
    · exact h
    · split
      · refine ih _ _ (keep_sendSlot _ _ _ h ?_)
        simp -implicitDefEqProofs (maxDischargeDepth := 40) [h]
      · exact h
@[simp] theorem keep_chargeLane (s : State) (p : Fin 32) (i : Nat) (h : s.Inv) : (s.chargeLane p i).Inv := by
  unfold State.chargeLane; try dsimp only
  first
    | (simp (maxDischargeDepth := 40) -implicitDefEqProofs [h]; done)
    | ((repeat' split) <;> first | exact h | simp -implicitDefEqProofs (maxDischargeDepth := 40) [h])
@[simp] theorem keep_replayFrom (s : State) (p : Fin 32) (i : Nat) (h : s.Inv) : (s.replayFrom p i).Inv := by
  unfold State.replayFrom; try dsimp only
  first
    | (simp (maxDischargeDepth := 40) -implicitDefEqProofs [h]; done)
    | ((repeat' split) <;> first | exact h | simp -implicitDefEqProofs (maxDischargeDepth := 40) [h])
theorem keep_execReplay (f : FlitRx) (s : State) (h : s.Inv) : Keeps (execReplay f s) := by
  unfold execReplay; try dsimp only
  first
    | (simp (maxDischargeDepth := 40) -implicitDefEqProofs [h]; done)
    | ((repeat' split) <;> first | exact h | simp -implicitDefEqProofs (maxDischargeDepth := 40) [h])
theorem keep_execReplayTimeout (p : Fin 32) (s : State) (h : s.Inv) : Keeps (execReplayTimeout p s) := by
  unfold execReplayTimeout; try dsimp only
  first
    | (simp (maxDischargeDepth := 40) -implicitDefEqProofs [h]; done)
    | ((repeat' split) <;> first | exact h | simp -implicitDefEqProofs (maxDischargeDepth := 40) [h])
theorem keep_execIdle (f : FlitRx) (s : State) (h : s.Inv) : Keeps (execIdle f s) := by
  unfold execIdle
  exact keep_withFlit _ _ _ _ h (fun t hdr pay seq ht => ht)
@[simp] theorem keep_nackBlock (s : State) (p : Fin 32) (sub first : Nat) (last : Option Nat) (h : s.Inv) : (s.nackBlock p sub first last).Inv := by
  unfold State.nackBlock; try dsimp only
  first
    | (simp (maxDischargeDepth := 40) -implicitDefEqProofs [h]; done)
    | ((repeat' split) <;> first | exact h | simp -implicitDefEqProofs (maxDischargeDepth := 40) [h])
@[simp] theorem keep_dropForward (s : State) (a : Asm) (h : s.Inv) : (s.dropForward a).Inv := by
  unfold State.dropForward
  split
  · exact h
  · exact keep_modPort _ _ _ h ⟨(h.port _).replay⟩
@[simp] theorem keep_moveTraffic (s : State) (p : Fin 32) (gone : List Nat) (h : s.Inv) : (s.moveTraffic p gone).Inv := by
  unfold State.moveTraffic; dsimp only
  refine keep_foldl _ _ (fun s r h => ?_) _ h
  split
  · exact keep_modPort _ _ _ h ⟨(h.port _).replay⟩
  · exact keep_foldl _ _ (fun s q h => keep_modPort _ _ _ h ⟨(h.port _).replay⟩) _ (keep_modPort _ _ _ h ⟨(h.port _).replay⟩)
@[simp] theorem keep_dropSubs (s : State) (p : Fin 32) (mask : Nat) (h : s.Inv) : (s.dropSubs p mask).Inv := by
  unfold State.dropSubs; dsimp only
  have h1 := fun m1 m2 asm => keep_setPort s p { s.port p with
    tx := { (s.port p).tx with subMask := m1 }
    rx := { (s.port p).rx with subMask := m2, asm := asm } } h ⟨by simp -implicitDefEqProofs (maxDischargeDepth := 40) [h]⟩
  have h2 : ∀ (l : List Nat) (t : State), t.Inv → (l.foldl (fun s i => s.noteRetired 4 (16 * p.val + i) (s.heatNo p)) t).Inv :=
    fun l t ht => keep_foldl _ _ (fun s i h => keep_noteRetired _ _ _ _ h) _ ht
  have h3 : ∀ (l : List Asm) (t : State), t.Inv → (l.foldl (fun s a => (s.dropForward a).nackBlock p a.sub a.first none) t).Inv :=
    fun l t ht => keep_foldl _ _ (fun s a h => keep_nackBlock _ _ _ _ _ (keep_dropForward _ _ h)) _ ht
  split
  · exact keep_retirePort _ _ (h2 _ _ (h3 _ _ (keep_moveTraffic _ _ _ (h1 _ _ _))))
  · exact h2 _ _ (h3 _ _ (keep_moveTraffic _ _ _ (h1 _ _ _)))
@[simp] theorem keep_declareSub (s : State) (p : Fin 32) (sub : Nat) (h : s.Inv) : (s.declareSub p sub).Inv := by
  unfold State.declareSub; try dsimp only
  first
    | (simp (maxDischargeDepth := 40) -implicitDefEqProofs [h]; done)
    | ((repeat' split) <;> first | exact h | simp -implicitDefEqProofs (maxDischargeDepth := 40) [h])
@[simp] theorem keep_rejectBlock (s : State) (p : Fin 32) (a : Asm) (last status : Nat) (h : s.Inv) : (s.rejectBlock p a last status).Inv := by
  unfold State.rejectBlock; try dsimp only
  first
    | (simp (maxDischargeDepth := 40) -implicitDefEqProofs [h]; done)
    | ((repeat' split) <;> first | exact h | simp -implicitDefEqProofs (maxDischargeDepth := 40) [h])
@[simp] theorem keep_holdFlit (s : State) (p : Fin 32) (hdr : Nat) (pay : Bytes) (seq : Nat) (h : s.Inv) : (s.holdFlit p hdr pay seq).Inv := by
  unfold State.holdFlit; try dsimp only
  first
    | (simp (maxDischargeDepth := 40) -implicitDefEqProofs [h]; done)
    | ((repeat' split) <;> first | exact h | simp -implicitDefEqProofs (maxDischargeDepth := 40) [h])
@[simp] theorem keep_transitStart (s : State) (hi : Fin 4) (p : Fin 32) (i : Program) (hdr : Nat) (pay : Bytes) (seq : Nat) (h : s.Inv) : (s.transitStart hi p i hdr pay seq).Inv := by
  unfold State.transitStart; try dsimp only
  first
    | (simp (maxDischargeDepth := 40) -implicitDefEqProofs [h]; done)
    | ((repeat' split) <;> first | exact h | simp -implicitDefEqProofs (maxDischargeDepth := 40) [h])
@[simp] theorem keep_forwardFlit (s : State) (q : Fin 32) (id hdr : Nat) (pay : Bytes) (framed : Bytes) (h : s.Inv) : (s.forwardFlit q id hdr pay framed).Inv := by
  unfold State.forwardFlit; dsimp only
  split
  · exact h
  · refine keep_pump _ _ (keep_bump _ _ _ _ _ (keep_bump _ _ _ _ _ (keep_modPort _ _ _ h ⟨?_⟩)))
    simp -implicitDefEqProofs (maxDischargeDepth := 40) [h]
@[simp] theorem keep_blockDone (s : State) (hi : Fin 4) (p : Fin 32) (i : Program) (a : Asm) (last : Nat) (h : s.Inv) : (s.blockDone hi p i a last).Inv := by
  unfold State.blockDone; dsimp only
  refine keep_ite _ _ _ h ?_
  split
  · simp -implicitDefEqProofs (maxDischargeDepth := 40) [h]
  · refine keep_ite _ _ _ (by simp -implicitDefEqProofs (maxDischargeDepth := 40) [h]) ?_
    split <;> simp -implicitDefEqProofs (maxDischargeDepth := 40) [h]
theorem keep_asm (s : State) (p : Fin 32) (f : List Asm → List Asm) (h : s.Inv) :
    (s.modPort p (fun k => { k with rx := { k.rx with asm := f k.rx.asm } })).Inv :=
  keep_modPort _ _ _ h ⟨by simp -implicitDefEqProofs (maxDischargeDepth := 40) [h]⟩
@[simp] theorem keep_dataIn (s : State) (hi : Fin 4) (p : Fin 32) (i : Program) (hdr : Nat) (pay : Bytes) (seq : Nat) (h : s.Inv) :
    (s.dataIn hi p i hdr pay seq).Inv := by
  unfold State.dataIn; dsimp only
  have h1 := keep_freeBuffer s p hdr h
  revert h1
  generalize s.freeBuffer p hdr = t
  intro h1
  split
  · simp -implicitDefEqProofs (maxDischargeDepth := 40) [h1]
  · generalize hd : ((t.port p).rx.asm.filter (fun a => a.sub == hdrSub hdr)).foldl State.dropForward t = d
    have h2 : d.Inv := hd ▸ keep_foldl _ _ (fun s a h => keep_dropForward _ _ h) _ h1
    have h3 : (if bitAt hdr 5 = true then
        (if (hdrDest hdr == (t.heat hi).ownId) = true then
          (d.modPort p (fun k => { k with rx := { k.rx with asm := k.rx.asm.filter (fun a => a.sub != hdrSub hdr) } })).modPort p
            (fun k => { k with rx := { k.rx with asm := k.rx.asm ++ [⟨hdrSub hdr, seq, hdr, [], none⟩] } })
        else (d.modPort p (fun k => { k with rx := { k.rx with asm := k.rx.asm.filter (fun a => a.sub != hdrSub hdr) } })).transitStart hi p i hdr pay seq)
      else t).Inv :=
      keep_ite _ _ _ (keep_ite _ _ _ (keep_asm _ p (fun l => l ++ [⟨hdrSub hdr, seq, hdr, [], none⟩])
          (keep_asm d p (fun l => l.filter (fun a => a.sub != hdrSub hdr)) h2))
        (keep_transitStart _ _ _ _ _ _ _ (keep_asm d p (fun l => l.filter (fun a => a.sub != hdrSub hdr)) h2))) h1
    revert h3
    generalize (if bitAt hdr 5 = true then
        (if (hdrDest hdr == (t.heat hi).ownId) = true then
          (d.modPort p (fun k => { k with rx := { k.rx with asm := k.rx.asm.filter (fun a => a.sub != hdrSub hdr) } })).modPort p
            (fun k => { k with rx := { k.rx with asm := k.rx.asm ++ [⟨hdrSub hdr, seq, hdr, [], none⟩] } })
        else (d.modPort p (fun k => { k with rx := { k.rx with asm := k.rx.asm.filter (fun a => a.sub != hdrSub hdr) } })).transitStart hi p i hdr pay seq)
      else t) = u
    intro h3
    split
    · exact h3
    · refine keep_ite _ _ _ (keep_blockDone _ _ _ _ _ _ ?_) ?_
      · split
        · exact keep_forwardFlit _ _ _ _ _ _ (keep_modPort _ _ _ h3 ⟨by simp -implicitDefEqProofs (maxDischargeDepth := 40) [h3]⟩)
        · exact keep_modPort _ _ _ h3 ⟨by simp -implicitDefEqProofs (maxDischargeDepth := 40) [h3]⟩
      · split
        · exact keep_forwardFlit _ _ _ _ _ _ (keep_modPort _ _ _ h3 ⟨by simp -implicitDefEqProofs (maxDischargeDepth := 40) [h3]⟩)
        · exact keep_modPort _ _ _ h3 ⟨by simp -implicitDefEqProofs (maxDischargeDepth := 40) [h3]⟩
@[simp] theorem keep_passOn (s : State) (hi : Fin 4) (p : Fin 32) (i : Program) (hdr : Nat) (pay : Bytes) (h : s.Inv) : (s.passOn hi p i hdr pay).Inv := by
  unfold State.passOn; try dsimp only
  first
    | (simp (maxDischargeDepth := 40) -implicitDefEqProofs [h]; done)
    | ((repeat' split) <;> first | exact h | simp -implicitDefEqProofs (maxDischargeDepth := 40) [h])
@[simp] theorem keep_ackEntry (s : State) (hi : Fin 4) (dest e : Nat) (h : s.Inv) : (s.ackEntry hi dest e).Inv := by
  unfold State.ackEntry; try dsimp only
  first
    | (simp (maxDischargeDepth := 40) -implicitDefEqProofs [h]; done)
    | ((repeat' split) <;> first | exact h | simp -implicitDefEqProofs (maxDischargeDepth := 40) [h])
@[simp] theorem keep_ackIn (s : State) (hi : Fin 4) (hdr : Nat) (pay : Bytes) (h : s.Inv) : (s.ackIn hi hdr pay).Inv := by
  unfold State.ackIn
  exact keep_foldl _ _ (fun s i h => keep_ackEntry _ _ _ _ h) _ h
@[simp] theorem keep_flushAck (s : State) (hi : Fin 4) (dest : Nat) (h : s.Inv) : (s.flushAck hi dest).Inv := by
  unfold State.flushAck; try dsimp only
  first
    | (simp (maxDischargeDepth := 40) -implicitDefEqProofs [h]; done)
    | ((repeat' split) <;> first | exact h | simp -implicitDefEqProofs (maxDischargeDepth := 40) [h])
@[simp] theorem keep_pushAck (s : State) (hi : Fin 4) (dest e : Nat) (h : s.Inv) : (s.pushAck hi dest e).Inv := by
  unfold State.pushAck; try dsimp only
  first
    | (simp (maxDischargeDepth := 40) -implicitDefEqProofs [h]; done)
    | ((repeat' split) <;> first | exact h | simp -implicitDefEqProofs (maxDischargeDepth := 40) [h])
theorem keep_execAckFlush (hh : Fin 4) (dest : Nat) (s : State) (h : s.Inv) : Keeps (execAckFlush hh dest s) := by
  unfold execAckFlush; try dsimp only
  first
    | (simp (maxDischargeDepth := 40) -implicitDefEqProofs [h]; done)
    | ((repeat' split) <;> first | exact h | simp -implicitDefEqProofs (maxDischargeDepth := 40) [h])
@[simp] theorem keep_landBaton (s : State) (hi : Fin 4) (p : Program) (b : Ejected) (h : s.Inv) : (s.landBaton hi p b).Inv := by
  unfold State.landBaton; dsimp only
  have : ((s.heat hi).mem.put (s.partnerBase (s.heat hi) p + b.half * halfBytes p + 32 * b.off) b.bytes).wf = true := by simp -implicitDefEqProofs (maxDischargeDepth := 40) [h]
  simp -implicitDefEqProofs (maxDischargeDepth := 40) [h, this]
@[simp] theorem keep_landData (s : State) (hi : Fin 4) (p : Program) (b : Ejected) (h : s.Inv) : (s.landData hi p b).Inv := by
  unfold State.landData; dsimp only
  have := keep_putSpace s (State.schedSite hi p) _ h (keep_force (s.space (State.schedSite hi p)) (p.tagBase b.tag + 32 * b.off) b.bytes (space_inv _ _ h))
  simp -implicitDefEqProofs (maxDischargeDepth := 40) [this]
@[simp] theorem keep_land (s : State) (hi : Fin 4) (p : Program) (b : Ejected) (tagFail : Bool) (h : s.Inv) : (s.land hi p b tagFail).2.Inv := by
  unfold State.land; dsimp only
  have : ∀ x y : Nat × State, x.2.Inv → y.2.Inv → ∀ c : Prop, ∀ d : Decidable c, (@ite _ c d x y).2.Inv := by
    intro x y hx hy c d; split <;> assumption
  refine this _ _ h (this _ _ h (this _ _ h (this _ _ h ?_ _ _) _ _) _ _) _ _
  dsimp only
  split <;> simp -implicitDefEqProofs (maxDischargeDepth := 40) [h]
theorem keep_ejectedSet (s : State) (i : Fin 4) (l : List Ejected) (h : s.Inv) : (s.modHeat i (fun t => { t with ejected := l })).Inv := by
  simp -implicitDefEqProofs (maxDischargeDepth := 40) [h]
theorem keep_execLandingWrite (h : Fin 4) (tagFail : Bool) (s : State) (hs : s.Inv) : Keeps (execLandingWrite h tagFail s) := by
  unfold execLandingWrite; dsimp only
  split
  · rename_i p b rest _ _
    refine keeps_ite _ _ _ ((keeps_next _).2 hs) ?_
    rw [keeps_next]
    have := keep_land _ h p b tagFail (keep_ejectedSet s h rest hs)
    exact keep_pushAck _ _ _ _ (keep_ite _ _ _ (keep_bump _ _ _ _ _ this) this)
  · simp -implicitDefEqProofs (maxDischargeDepth := 40) [hs]
@[simp] theorem keep_onJoin (s : State) (hi : Fin 4) (p : Program) (m : HMsg) (h : s.Inv) : (s.onJoin hi p m).Inv := by
  unfold State.onJoin; try dsimp only
  first
    | (simp (maxDischargeDepth := 40) -implicitDefEqProofs [h]; done)
    | ((repeat' split) <;> first | exact h | simp -implicitDefEqProofs (maxDischargeDepth := 40) [h])
@[simp] theorem keep_onArrive (s : State) (hi : Fin 4) (m : HMsg) (h : s.Inv) : (s.onArrive hi m).Inv := by
  unfold State.onArrive; try dsimp only
  first
    | (simp (maxDischargeDepth := 40) -implicitDefEqProofs [h]; done)
    | ((repeat' split) <;> first | exact h | simp -implicitDefEqProofs (maxDischargeDepth := 40) [h])
@[simp] theorem keep_onHold (s : State) (hi : Fin 4) (m : HMsg) (h : s.Inv) : (s.onHold hi m).Inv := by
  unfold State.onHold; try dsimp only
  first
    | (simp (maxDischargeDepth := 40) -implicitDefEqProofs [h]; done)
    | ((repeat' split) <;> first | exact h | simp -implicitDefEqProofs (maxDischargeDepth := 40) [h])
@[simp] theorem keep_onRequest (s : State) (hi : Fin 4) (m : HMsg) (h : s.Inv) : (s.onRequest hi m).Inv := by
  unfold State.onRequest; try dsimp only
  first
    | (simp (maxDischargeDepth := 40) -implicitDefEqProofs [h]; done)
    | ((repeat' split) <;> first | exact h | simp -implicitDefEqProofs (maxDischargeDepth := 40) [h])
@[simp] theorem keep_onFeedQuery (s : State) (hi : Fin 4) (m : HMsg) (h : s.Inv) : (s.onFeedQuery hi m).Inv := by
  unfold State.onFeedQuery; try dsimp only
  first
    | (simp (maxDischargeDepth := 40) -implicitDefEqProofs [h]; done)
    | ((repeat' split) <;> first | exact h | simp -implicitDefEqProofs (maxDischargeDepth := 40) [h])
@[simp] theorem keep_onFeedReply (s : State) (hi : Fin 4) (p : Program) (m : HMsg) (h : s.Inv) : (s.onFeedReply hi p m).Inv := by
  unfold State.onFeedReply; try dsimp only
  first
    | (simp (maxDischargeDepth := 40) -implicitDefEqProofs [h]; done)
    | ((repeat' split) <;> first | exact h | simp -implicitDefEqProofs (maxDischargeDepth := 40) [h])
@[simp] theorem keep_hurdleIn (s : State) (hi : Fin 4) (p : Fin 32) (i : Program) (pay : Bytes) (h : s.Inv) : (s.hurdleIn hi p i pay).Inv := by
  unfold State.hurdleIn; try dsimp only
  first
    | (simp (maxDischargeDepth := 40) -implicitDefEqProofs [h]; done)
    | ((repeat' split) <;> first | exact h | simp -implicitDefEqProofs (maxDischargeDepth := 40) [h])
@[simp] theorem keep_helloIn (s : State) (hi : Fin 4) (p : Fin 32) (i : Program) (hdr : Nat) (pay : Bytes) (h : s.Inv) : (s.helloIn hi p i hdr pay).Inv := by
  unfold State.helloIn; try dsimp only
  first
    | (simp (maxDischargeDepth := 40) -implicitDefEqProofs [h]; done)
    | ((repeat' split) <;> first | exact h | simp -implicitDefEqProofs (maxDischargeDepth := 40) [h])
@[simp] theorem keep_process (s : State) (hi : Fin 4) (p : Fin 32) (i : Program) (hdr : Nat) (pay : Bytes) (seq : Nat) (h : s.Inv) : (s.process hi p i hdr pay seq).Inv := by
  unfold State.process; try dsimp only
  first
    | (simp (maxDischargeDepth := 40) -implicitDefEqProofs [h]; done)
    | ((repeat' split) <;> first | exact h | simp -implicitDefEqProofs (maxDischargeDepth := 40) [h])
@[simp] theorem keep_deliver (s : State) (p : Fin 32) (hdr : Nat) (pay : Bytes) (seq : Nat) (h : s.Inv) : (s.deliver p hdr pay seq).Inv := by
  unfold State.deliver
  have hh := keep_pump _ p (keep_holdFlit s p hdr pay seq h)
  split
  · exact hh
  · split
    · exact hh
    · exact keep_ite _ _ _ hh (keep_pump _ _ (keep_process _ _ _ _ _ _ _ h))
@[simp] theorem keep_releaseHeld (s : State) (p : Fin 32) (h : s.Inv) : (s.releaseHeld p).Inv := by
  unfold State.releaseHeld; dsimp only
  refine keep_foldl _ _ (fun s f h => by simp -implicitDefEqProofs (maxDischargeDepth := 40) [h]) _ (keep_modPort _ _ _ h ⟨by simp -implicitDefEqProofs (maxDischargeDepth := 40) [h]⟩)
theorem keep_execDataFlit (f : FlitRx) (s : State) (h : s.Inv) : Keeps (execDataFlit f s) := by
  unfold execDataFlit
  refine keep_withFlit _ _ _ _ h (fun t hdr pay seq ht => ?_)
  split <;> simp -implicitDefEqProofs (maxDischargeDepth := 40) [ht]
theorem keep_execAck (f : FlitRx) (s : State) (h : s.Inv) : Keeps (execAck f s) := by
  unfold execAck
  exact keep_withFlit _ _ _ _ h (fun t hdr pay seq ht => keep_deliver _ _ _ _ _ ht)
theorem keep_execHello (f : FlitRx) (s : State) (h : s.Inv) : Keeps (execHello f s) := by
  unfold execHello
  exact keep_withFlit _ _ _ _ h (fun t hdr pay seq ht => keep_deliver _ _ _ _ _ ht)
theorem keep_execJoin (f : FlitRx) (s : State) (h : s.Inv) : Keeps (execJoin f s) := by
  unfold execJoin
  exact keep_withFlit _ _ _ _ h (fun t hdr pay seq ht => keep_deliver _ _ _ _ _ ht)
theorem keep_execArrive (f : FlitRx) (s : State) (h : s.Inv) : Keeps (execArrive f s) := by
  unfold execArrive
  exact keep_withFlit _ _ _ _ h (fun t hdr pay seq ht => keep_deliver _ _ _ _ _ ht)
theorem keep_execHold (f : FlitRx) (s : State) (h : s.Inv) : Keeps (execHold f s) := by
  unfold execHold
  exact keep_withFlit _ _ _ _ h (fun t hdr pay seq ht => keep_deliver _ _ _ _ _ ht)
theorem keep_execRequest (f : FlitRx) (s : State) (h : s.Inv) : Keeps (execRequest f s) := by
  unfold execRequest
  exact keep_withFlit _ _ _ _ h (fun t hdr pay seq ht => keep_deliver _ _ _ _ _ ht)
theorem keep_execDecideGo (f : FlitRx) (s : State) (h : s.Inv) : Keeps (execDecideGo f s) := by
  unfold execDecideGo
  exact keep_withFlit _ _ _ _ h (fun t hdr pay seq ht => keep_deliver _ _ _ _ _ ht)
theorem keep_execDecideFalseStart (f : FlitRx) (s : State) (h : s.Inv) : Keeps (execDecideFalseStart f s) := by
  unfold execDecideFalseStart
  exact keep_withFlit _ _ _ _ h (fun t hdr pay seq ht => keep_deliver _ _ _ _ _ ht)
theorem keep_execDecideStop (f : FlitRx) (s : State) (h : s.Inv) : Keeps (execDecideStop f s) := by
  unfold execDecideStop
  exact keep_withFlit _ _ _ _ h (fun t hdr pay seq ht => keep_deliver _ _ _ _ _ ht)
theorem keep_execFeedQuery (f : FlitRx) (s : State) (h : s.Inv) : Keeps (execFeedQuery f s) := by
  unfold execFeedQuery
  exact keep_withFlit _ _ _ _ h (fun t hdr pay seq ht => keep_deliver _ _ _ _ _ ht)
theorem keep_execFeedReply (f : FlitRx) (s : State) (h : s.Inv) : Keeps (execFeedReply f s) := by
  unfold execFeedReply
  exact keep_withFlit _ _ _ _ h (fun t hdr pay seq ht => keep_deliver _ _ _ _ _ ht)
theorem keep_withCtl (s : State) (f : FlitRx) (b : Nat) (go : State → Bytes → State) (h : s.Inv) (hg : ∀ t pay, t.Inv → (go t pay).Inv) :
    Keeps (s.withCtl f b go) := by
  unfold State.withCtl
  exact keep_withFlit _ _ _ _ h (fun t hdr pay seq ht => keep_pump _ _ (hg _ _ (keep_freeBuffer _ _ _ ht)))
theorem keep_execTable (f : FlitRx) (s : State) (h : s.Inv) : Keeps (execTable f s) := by
  unfold execTable
  refine keep_withCtl _ _ _ _ h (fun t pay ht => ?_)
  dsimp only
  split <;> simp -implicitDefEqProofs (maxDischargeDepth := 40) [ht]
theorem keep_execTableInstall (p : Fin 32) (s : State) (h : s.Inv) : Keeps (execTableInstall p s) := by
  unfold execTableInstall; try dsimp only
  first
    | (simp (maxDischargeDepth := 40) -implicitDefEqProofs [h]; done)
    | ((repeat' split) <;> first | exact h | simp -implicitDefEqProofs (maxDischargeDepth := 40) [h])
theorem keep_execTableAck (f : FlitRx) (s : State) (h : s.Inv) : Keeps (execTableAck f s) := by
  unfold execTableAck
  refine keep_withCtl _ _ _ _ h (fun t pay ht => ?_)
  dsimp only
  refine keep_modPort _ _ _ ht ?_
  split <;> simp -implicitDefEqProofs (maxDischargeDepth := 40) [ht]
theorem keep_execBlockNack (f : FlitRx) (s : State) (h : s.Inv) : Keeps (execBlockNack f s) := by
  unfold execBlockNack; dsimp only
  refine keep_withCtl _ _ _ _ h (fun t pay ht => ?_)
  split
  · exact ht
  · rename_i r _
    have h1 : (t.modPort f.port (fun k => { k with tx := { k.tx.unqueue r.id with raws := k.tx.raws.filter (fun x => x.id != r.id) } })).Inv :=
      keep_modPort _ _ _ ht ⟨(ht.port _).replay⟩
    have h2 := fun c d => keep_ite (d := d) c _ _ (keep_bump _ 3 f.port.val 7 1 h1) (keep_resendBlock _ f.port r (r.fails ++ [r.sub]) h1)
    exact keep_ite _ _ _ (keep_declareSub _ _ _ (h2 _ _)) (h2 _ _)
theorem keep_execLaneRetire (f : FlitRx) (s : State) (h : s.Inv) : Keeps (execLaneRetire f s) := by
  unfold execLaneRetire
  refine keep_withCtl _ _ _ _ h (fun t pay ht => ?_)
  have := keep_keepLanes t f.port (leAt pay 1 1) ht
  exact keep_ite _ _ _ this (keep_linkCtl _ _ _ this)
theorem keep_execLaneAck (f : FlitRx) (s : State) (h : s.Inv) : Keeps (execLaneAck f s) := by
  unfold execLaneAck
  exact keep_withCtl _ _ _ _ h (fun t pay ht => keep_keepLanes _ _ _ ht)
theorem keep_execSubRetire (f : FlitRx) (s : State) (h : s.Inv) : Keeps (execSubRetire f s) := by
  unfold execSubRetire
  exact keep_withCtl _ _ _ _ h (fun t pay ht => by simp -implicitDefEqProofs (maxDischargeDepth := 40) [ht])
theorem keep_execSubAck (f : FlitRx) (s : State) (h : s.Inv) : Keeps (execSubAck f s) := by
  unfold execSubAck
  exact keep_withCtl _ _ _ _ h (fun t pay ht => by simp -implicitDefEqProofs (maxDischargeDepth := 40) [ht])
theorem keep_execArrival (hh : Fin 4) (s : State) (h : s.Inv) : Keeps (execArrival hh s) := by
  unfold execArrival; try dsimp only
  first
    | (simp (maxDischargeDepth := 40) -implicitDefEqProofs [h]; done)
    | ((repeat' split) <;> first | exact h | simp -implicitDefEqProofs (maxDischargeDepth := 40) [h])
theorem keep_execWindowExpiry (hh : Fin 4) (s : State) (h : s.Inv) : Keeps (execWindowExpiry hh s) := by
  unfold execWindowExpiry; try dsimp only
  first
    | (simp (maxDischargeDepth := 40) -implicitDefEqProofs [h]; done)
    | ((repeat' split) <;> first | exact h | simp -implicitDefEqProofs (maxDischargeDepth := 40) [h])
theorem keep_execJoinLate (hh : Fin 4) (s : State) (h : s.Inv) : Keeps (execJoinLate hh s) := by
  unfold execJoinLate; try dsimp only
  first
    | (simp (maxDischargeDepth := 40) -implicitDefEqProofs [h]; done)
    | ((repeat' split) <;> first | exact h | simp -implicitDefEqProofs (maxDischargeDepth := 40) [h])
theorem keep_execDecideTimeout (hh : Fin 4) (s : State) (h : s.Inv) : Keeps (execDecideTimeout hh s) := by
  unfold execDecideTimeout; try dsimp only
  first
    | (simp (maxDischargeDepth := 40) -implicitDefEqProofs [h]; done)
    | ((repeat' split) <;> first | exact h | simp -implicitDefEqProofs (maxDischargeDepth := 40) [h])
theorem keep_execHeldTooLong (hh : Fin 4) (s : State) (h : s.Inv) : Keeps (execHeldTooLong hh s) := by
  unfold execHeldTooLong; try dsimp only
  first
    | (simp (maxDischargeDepth := 40) -implicitDefEqProofs [h]; done)
    | ((repeat' split) <;> first | exact h | simp -implicitDefEqProofs (maxDischargeDepth := 40) [h])

end Sys2Proof.Machine
end

