-- ==== Sys2Proof/Laws/KeepMgmt.lean ====
section
/-! SUPPORT. The invariant under START and the management messages. -/
namespace Sys2Proof.Machine

@[simp] theorem keep_zeroHeat (s : State) (hi : Fin 4) (p : Program) (h : s.Inv) : (s.zeroHeat hi p).Inv := by
  unfold State.zeroHeat; try dsimp only
  exact keep_foldl _ _ (fun s c h => by simp -implicitDefEqProofs (maxDischargeDepth := 40) [h]) _ (by simp -implicitDefEqProofs (maxDischargeDepth := 40) [h])
@[simp] theorem keep_writeInit (s : State) (hi : Fin 4) (p : Program) (h : s.Inv) : (s.writeInit hi p).Inv := by
  unfold State.writeInit
  exact keep_putSpace _ _ _ h (keep_spaceFold _ _ (fun s a h => by simp -implicitDefEqProofs (maxDischargeDepth := 40) [h]) _ (by simp -implicitDefEqProofs (maxDischargeDepth := 40) [h]))
@[simp] theorem writeRecords_wf (step : Nat) (recs : List CkptRec) (bs : Bytes) (m : Mem) (h : m.wf = true) : (writeRecords step recs bs m).wf = true := by
  unfold writeRecords
  have : ∀ (l : List CkptRec) (x : Mem × Bytes), x.1.wf = true →
      (l.foldl (fun (x : Mem × Bytes) r => (x.1.put (r.addr step) (x.2.take r.len), x.2.drop (roundUp r.len 4096))) x).1.wf = true := by
    intro l
    induction l with
    | nil => exact fun x hx => hx
    | cons a l ih => exact fun x hx => ih _ (Mem.put_wf _ _ _ hx)
  exact this _ _ h
@[simp] theorem keep_countDrives (s : State) (i n : Nat) (h : s.Inv) : (s.countDrives i n).Inv := by
  unfold State.countDrives
  (repeat' split) <;> simp [h]
@[simp] theorem keep_countWrite (s : State) (n : Nat) (h : s.Inv) : (s.countWrite n).Inv := keep_countDrives s 0 n h
@[simp] theorem keep_countRead (s : State) (n : Nat) (h : s.Inv) : (s.countRead n).Inv := keep_countDrives s 1 n h
@[simp] theorem keep_readFlash (s : State) (hi : Fin 4) (p : Program) (j : Job) (step : Nat) (retained : Bool) (h : s.Inv) :
    (s.readFlash hi p j step retained).Inv := by
  unfold State.readFlash; split <;> simp [h]
@[simp] theorem keep_restoreStep (s : State) (hi : Fin 4) (p : Program) (j : Job) (step : Nat) (retained : Bool) (h : s.Inv) :
    (s.restoreStep hi p j step retained).1.Inv := by
  have h1 := keep_readFlash s hi p j step retained h
  unfold State.restoreStep; dsimp only
  split <;> simp -implicitDefEqProofs (maxDischargeDepth := 40) [h1]
@[simp] theorem keep_ready (k : Cluster) (h : k.Inv) : k.ready.Inv := by
  have := keep_release k h
  unfold Cluster.ready; simp -implicitDefEqProofs (maxDischargeDepth := 40) [this]
@[simp] theorem keep_begin (hh : Heat) (p : Program) (j : Job) (now : Nat) (h : hh.Inv) : (hh.begin p j now).Inv := by
  unfold Heat.begin; simp -implicitDefEqProofs (maxDischargeDepth := 40) [h]
@[simp] theorem keep_sendHellos (s : State) (hi : Fin 4) (first : Bool) (h : s.Inv) : (s.sendHellos hi first).Inv := by
  unfold State.sendHellos; try dsimp only
  refine keep_foldl _ _ (fun s a h => ?_) _ h
  have h1 : ∀ c : Vector Nat 4, (s.modPort a.2 (fun k => { k with tx := { k.tx with credits := c } })).Inv := fun c => by simp -implicitDefEqProofs (maxDischargeDepth := 40) [h]
  have h2 := fun (t : State) (ht : t.Inv) => keep_setPort t a.2 { t.port a.2 with helloSent := true, hello := none } ht ⟨by simp -implicitDefEqProofs (maxDischargeDepth := 40) [ht]⟩
  refine keep_ite _ _ _ (keep_linkCtl _ _ _ (h2 _ (keep_ite _ _ _ ?_ h))) (h2 _ (keep_ite _ _ _ ?_ h)) <;> simp -implicitDefEqProofs (maxDischargeDepth := 40) [h]
@[simp] theorem keep_beginHurdle (s : State) (hi : Fin 4) (p : Program) (first : Bool) (h : s.Inv) : (s.beginHurdle hi p first).Inv := by
  unfold State.beginHurdle; try dsimp only
  have h1 := keep_foldl (fun (s : State) q => s.releaseHeld q) ((s.sendHellos hi first).heat hi).portList (fun s q h => keep_releaseHeld _ _ h) _ (keep_sendHellos s hi first h)
  exact keep_ite _ _ _ h1 (keep_ite _ _ _ (keep_onFeedReply _ _ _ _ h1) (keep_sendHurdle _ _ _ _ h1))
theorem keep_launchTail (s : State) (hi : Fin 4) (p : Program) (j : Job) (st : Nat) (first : Bool) (h : s.Inv) :
    (let s := (s.heat hi).clusterList.foldl (fun s c => s.modCl c Cluster.ready) s
     let s := (s.modHeat hi (fun h => h.begin p j s.now)).noteOrphan
     let s := s.modHeat hi (fun h => { h with ck := { h.ck with k := s.heatK h } })
     if st ≠ 0 then s.stopJob hi st 0
     else if s.pairLost hi then s.stopJob hi eRetired 0
     else if s.portDown hi p then s.stopJob hi eConfig 0
     else s.beginHurdle hi p first).Inv := by
  dsimp only
  have h1 := keep_foldl (fun (s : State) c => s.modCl c Cluster.ready) (s.heat hi).clusterList (fun s c h => keep_modCl _ _ _ h (keep_ready _ (inv_cl h c))) _ h
  revert h1
  generalize (s.heat hi).clusterList.foldl (fun (s : State) c => s.modCl c Cluster.ready) s = t
  intro h1
  have h2 := keep_noteOrphan _ (keep_modHeat t hi (fun h => h.begin p j t.now) h1 (keep_begin _ _ _ _ (inv_heat h1 hi)))
  revert h2
  generalize (t.modHeat hi (fun h => h.begin p j t.now)).noteOrphan = u
  intro h2
  have h3 : (u.modHeat hi (fun h => { h with ck := { h.ck with k := u.heatK h } })).Inv := by simp -implicitDefEqProofs (maxDischargeDepth := 40) [h2]
  exact keep_ite _ _ _ (keep_stopJob _ _ _ _ h3) (keep_ite _ _ _ (keep_stopJob _ _ _ _ h3) (keep_ite _ _ _ (keep_stopJob _ _ _ _ h3) (keep_beginHurdle _ _ _ _ h3)))
@[simp] theorem keep_launchJob (s : State) (hi : Fin 4) (p : Program) (j : Job) (h : s.Inv) : (s.launchJob hi p j).Inv := by
  unfold State.launchJob
  have h1 := fun c d => keep_ite (d := d) c _ _ (keep_zeroHeat s hi p h) h
  have h2 : ∀ t : State, t.Inv → (((t.applyFolds hi).markFolds hi).loadClusters hi p).Inv :=
    fun t ht => keep_loadClusters _ _ _ (keep_markFolds _ _ (keep_applyFolds _ _ ht))
  cases j.restore with
  | none => exact keep_launchTail _ hi p j 0 _ (keep_writeInit _ _ _ (h2 _ (h1 _ _)))
  | some n => exact keep_launchTail _ hi p j _ _ (keep_restoreStep _ _ _ _ _ _ (h2 _ (h1 _ _)))
@[simp] theorem keep_startMsg (s : State) (hi : Fin 4) (req : Nat × Nat) (body : Bytes) (h : s.Inv) : (s.startMsg hi req body).1.Inv := by
  unfold State.startMsg; try dsimp only
  split
  · exact h
  · split
    · exact keep_launchJob _ _ _ _ (keep_deferReply _ _ _ _ h)
    · exact h
@[simp] theorem keep_answer (s : State) (m : Msg) (status : Nat) (body : Bytes) (h : s.Inv) : (s.answer m status body).Inv := by
  unfold State.answer; try dsimp only
  first
    | (simp (maxDischargeDepth := 40) -implicitDefEqProofs [h]; done)
    | ((repeat' split) <;> first | exact h | simp -implicitDefEqProofs (maxDischargeDepth := 40) [h])
@[simp] theorem keep_serve (s : State) (m : Msg) (go : State → State) (h : s.Inv) (hg : ∀ t, t.Inv → (go t).Inv) : (s.serve m go).Inv := by
  unfold State.serve
  split
  · exact h
  · repeat' (refine keep_ite _ _ _ (by simp -implicitDefEqProofs (maxDischargeDepth := 40) [State.answer, h]) ?_)
    exact hg _ h
theorem keep_takeReq (s : State) (m : Msg) (i : Instr) (go : State → State) (h : s.Inv) (hg : ∀ t, t.Inv → (go t).Inv) :
    Keeps (s.takeReq m i go) := by
  unfold State.takeReq
  refine keeps_ite _ _ _ ?_ (keeps_fault _)
  split
  · simp -implicitDefEqProofs (maxDischargeDepth := 40) [h]
  · have h1 : (s.modSession m.conn (fun k => { k with rxSeq := k.rxSeq + 1, lease := s.now })).Inv := by simp -implicitDefEqProofs (maxDischargeDepth := 40) [h]
    iterate 3 (refine keeps_ite _ _ _ (by simp -implicitDefEqProofs (maxDischargeDepth := 40) [h]) ?_)
    exact keeps_ite _ _ _ ((keeps_next _).2 (keep_serve _ _ _ h1 hg)) (keeps_ite _ _ _ (by simp -implicitDefEqProofs (maxDischargeDepth := 40) [h1]) (by simp -implicitDefEqProofs (maxDischargeDepth := 40) [h]))
@[simp] theorem keep_onHeat (s : State) (m : Msg) (go : Fin 4 → State) (h : s.Inv) (hg : ∀ hi, (go hi).Inv) : (s.onHeat m go).Inv := by
  unfold State.onHeat
  split
  · exact hg _
  · simp -implicitDefEqProofs (maxDischargeDepth := 40) [h]
@[simp] theorem keep_onQuery (s : State) (m : Msg) (go : State) (h : s.Inv) (hg : go.Inv) : (s.onQuery m go).Inv := by
  unfold State.onQuery
  exact keep_ite _ _ _ hg (by simp -implicitDefEqProofs (maxDischargeDepth := 40) [h])
@[simp] theorem keep_serveDetach (m : Msg) (s : State) (h : s.Inv) : (State.serveDetach m s).Inv := by
  unfold State.serveDetach; try dsimp only
  first
    | (simp (maxDischargeDepth := 40) -implicitDefEqProofs [h]; done)
    | ((repeat' split) <;> first | exact h | simp -implicitDefEqProofs (maxDischargeDepth := 40) [h])
@[simp] theorem keep_startFirmware (s : State) (b : Bytes) (h : s.Inv) : (s.startFirmware b).Inv := by
  unfold State.startFirmware; dsimp only
  have h1 := keep_modBoot s.useFree (fun k => { k with
    state := .awaitFw, readySent := false, loadedAt := s.now, fwVersion := bundleVersion b, fwDigest := bundleDigest b, fwChunks := []
    fw := Vector.ofFn (fun i => bundleSection b (i.val + 1) s.free), security := .up, secFails := 0, scheduler := .up, power := .up })
    (keep_useFree s h) h.com.flash
  refine ⟨fun c => ?_, h1.heat, h1.port, h1.com⟩
  show Cluster.Inv ((s.clusters.map (fun (k : Cluster) => { k with rt := bundleSection b 4 s.free }))[c.val])
  rw [Vector.getElem_map]
  exact (Cluster.inv_mk ..).2 ((Cluster.inv_mk ..).1 (h.cl c))
@[simp] theorem keep_serveLoadFw (m : Msg) (sigOk : Bool) (s : State) (h : s.Inv) : (State.serveLoadFw m sigOk s).Inv := by
  unfold State.serveLoadFw; try dsimp only
  have h1 : (s.modBoot (fun k => { k with fwChunks := [] })).Inv := by simp -implicitDefEqProofs (maxDischargeDepth := 40) [h]
  iterate 3 (refine keep_ite _ _ _ (keep_answer _ _ _ _ (by assumption)) ?_)
  refine keep_ite _ _ _ (by simp -implicitDefEqProofs (maxDischargeDepth := 40) [h]) ?_
  exact keep_ite _ _ _ (keep_answer _ _ _ _ h1) (by simp -implicitDefEqProofs (maxDischargeDepth := 40) [h])
@[simp] theorem keep_serveWriteConfig (m : Msg) (sigOk : Bool) (s : State) (h : s.Inv) : (State.serveWriteConfig m sigOk s).Inv := by
  unfold State.serveWriteConfig; try dsimp only
  first
    | (simp (maxDischargeDepth := 40) -implicitDefEqProofs [h]; done)
    | ((repeat' split) <;> first | exact h | simp -implicitDefEqProofs (maxDischargeDepth := 40) [h])
@[simp] theorem keep_serveResetHeat (m : Msg) (s : State) (h : s.Inv) : (State.serveResetHeat m s).Inv := by
  unfold State.serveResetHeat; try dsimp only
  first
    | (simp (maxDischargeDepth := 40) -implicitDefEqProofs [h]; done)
    | ((repeat' split) <;> first | exact h | simp -implicitDefEqProofs (maxDischargeDepth := 40) [h])
@[simp] theorem keep_serveResetModule (m : Msg) (s : State) (h : s.Inv) : (State.serveResetModule m s).Inv := by
  unfold State.serveResetModule; try dsimp only
  exact keep_reboot _ (keep_closeAll _ (keep_answer _ _ _ _ (keep_foldl _ _ (fun s a h => keep_freeHeat _ _ h) _ h)))
@[simp] theorem keep_serveLoadImage (m : Msg) (s : State) (h : s.Inv) : (State.serveLoadImage m s).Inv := by
  unfold State.serveLoadImage; try dsimp only
  exact keep_onHeat _ _ _ h (fun hi => keep_ite _ _ _ (keep_answer _ _ _ _ (keep_loadChunk _ _ _ _ h)) (keep_answer _ _ _ _ h))
@[simp] theorem keep_serveStart (m : Msg) (s : State) (h : s.Inv) : (State.serveStart m s).Inv := by
  unfold State.serveStart; try dsimp only
  refine keep_onHeat _ _ _ h (fun hi => ?_)
  have := keep_startMsg s hi (m.conn, msgSeq m) m.body h
  split <;> (rename_i e; rw [e] at this; simp -implicitDefEqProofs (maxDischargeDepth := 40) [this])
@[simp] theorem keep_serveStop (m : Msg) (s : State) (h : s.Inv) : (State.serveStop m s).Inv := by
  unfold State.serveStop; try dsimp only
  first
    | (simp (maxDischargeDepth := 40) -implicitDefEqProofs [h]; done)
    | ((repeat' split) <;> first | exact h | simp -implicitDefEqProofs (maxDischargeDepth := 40) [h])
@[simp] theorem keep_serveCheckpoint (m : Msg) (s : State) (h : s.Inv) : (State.serveCheckpoint m s).Inv := by
  unfold State.serveCheckpoint; try dsimp only
  first
    | (simp (maxDischargeDepth := 40) -implicitDefEqProofs [h]; done)
    | ((repeat' split) <;> first | exact h | simp -implicitDefEqProofs (maxDischargeDepth := 40) [h])
@[simp] theorem keep_serveRearm (m : Msg) (s : State) (h : s.Inv) : (State.serveRearm m s).Inv := by
  unfold State.serveRearm; try dsimp only
  first
    | (simp (maxDischargeDepth := 40) -implicitDefEqProofs [h]; done)
    | ((repeat' split) <;> first | exact h | simp -implicitDefEqProofs (maxDischargeDepth := 40) [h])
@[simp] theorem keep_serveStatus (m : Msg) (s : State) (h : s.Inv) : (State.serveStatus m s).Inv := by
  unfold State.serveStatus; try dsimp only
  first
    | (simp (maxDischargeDepth := 40) -implicitDefEqProofs [h]; done)
    | ((repeat' split) <;> first | exact h | simp -implicitDefEqProofs (maxDischargeDepth := 40) [h])
@[simp] theorem keep_serveInventory (m : Msg) (s : State) (h : s.Inv) : (State.serveInventory m s).Inv := by
  unfold State.serveInventory; try dsimp only
  first
    | (simp (maxDischargeDepth := 40) -implicitDefEqProofs [h]; done)
    | ((repeat' split) <;> first | exact h | simp -implicitDefEqProofs (maxDischargeDepth := 40) [h])
@[simp] theorem keep_serveAttest (m : Msg) (s : State) (h : s.Inv) : (State.serveAttest m s).Inv := by
  unfold State.serveAttest; try dsimp only
  first
    | (simp (maxDischargeDepth := 40) -implicitDefEqProofs [h]; done)
    | ((repeat' split) <;> first | exact h | simp -implicitDefEqProofs (maxDischargeDepth := 40) [h])
@[simp] theorem keep_serveSnapshot (m : Msg) (s : State) (h : s.Inv) : (State.serveSnapshot m s).Inv := by
  unfold State.serveSnapshot; try dsimp only
  first
    | (simp (maxDischargeDepth := 40) -implicitDefEqProofs [h]; done)
    | ((repeat' split) <;> first | exact h | simp -implicitDefEqProofs (maxDischargeDepth := 40) [h])
@[simp] theorem keep_serveSplits (m : Msg) (s : State) (h : s.Inv) : (State.serveSplits m s).Inv := by
  unfold State.serveSplits; try dsimp only
  first
    | (simp (maxDischargeDepth := 40) -implicitDefEqProofs [h]; done)
    | ((repeat' split) <;> first | exact h | simp -implicitDefEqProofs (maxDischargeDepth := 40) [h])
@[simp] theorem keep_serveDump (m : Msg) (s : State) (h : s.Inv) : (State.serveDump m s).Inv := by
  unfold State.serveDump; try dsimp only
  first
    | (simp (maxDischargeDepth := 40) -implicitDefEqProofs [h]; done)
    | ((repeat' split) <;> first | exact h | simp -implicitDefEqProofs (maxDischargeDepth := 40) [h])
@[simp] theorem keep_serveLifelog (m : Msg) (s : State) (h : s.Inv) : (State.serveLifelog m s).Inv := by
  unfold State.serveLifelog; try dsimp only
  first
    | (simp (maxDischargeDepth := 40) -implicitDefEqProofs [h]; done)
    | ((repeat' split) <;> first | exact h | simp -implicitDefEqProofs (maxDischargeDepth := 40) [h])
@[simp] theorem keep_serveInstr (i : Instr) (s : State) (h : s.Inv) : (State.serveInstr i s).Inv := by
  unfold State.serveInstr
  split <;> first | exact h | exact keep_serve _ _ _ h (fun t ht => by simp -implicitDefEqProofs (maxDischargeDepth := 40) [ht])
@[simp] theorem keep_serveQueue (n : Nat) (s : State) (h : s.Inv) : (State.serveQueue n s).Inv := by
  induction n generalizing s with
  | zero => exact h
  | succ n ih =>
    unfold State.serveQueue
    split
    · exact h
    · exact ih _ (keep_serveInstr _ _ (by simp -implicitDefEqProofs (maxDischargeDepth := 40) [h]))
@[simp] theorem keep_resumeLeases (s : State) (h : s.Inv) : (s.resumeLeases).Inv := by
  unfold State.resumeLeases; try dsimp only
  first
    | (simp (maxDischargeDepth := 40) -implicitDefEqProofs [h]; done)
    | ((repeat' split) <;> first | exact h | simp -implicitDefEqProofs (maxDischargeDepth := 40) [h])
theorem keep_execDetach (m : Msg) (s : State) (h : s.Inv) : Keeps (execDetach m s) := by
  unfold execDetach
  exact keep_takeReq _ _ _ _ h (fun t ht => by simp -implicitDefEqProofs (maxDischargeDepth := 40) [ht])
theorem keep_execLoadFw (m : Msg) (sigOk : Bool) (s : State) (h : s.Inv) : Keeps (execLoadFw m sigOk s) := by
  unfold execLoadFw
  exact keep_takeReq _ _ _ _ h (fun t ht => by simp -implicitDefEqProofs (maxDischargeDepth := 40) [ht])
theorem keep_execWriteConfig (m : Msg) (sigOk : Bool) (s : State) (h : s.Inv) : Keeps (execWriteConfig m sigOk s) := by
  unfold execWriteConfig
  exact keep_takeReq _ _ _ _ h (fun t ht => by simp -implicitDefEqProofs (maxDischargeDepth := 40) [ht])
theorem keep_execResetHeat (m : Msg) (s : State) (h : s.Inv) : Keeps (execResetHeat m s) := by
  unfold execResetHeat
  exact keep_takeReq _ _ _ _ h (fun t ht => by simp -implicitDefEqProofs (maxDischargeDepth := 40) [ht])
theorem keep_execResetModule (m : Msg) (s : State) (h : s.Inv) : Keeps (execResetModule m s) := by
  unfold execResetModule
  exact keep_takeReq _ _ _ _ h (fun t ht => by simp -implicitDefEqProofs (maxDischargeDepth := 40) [ht])
theorem keep_execLoadImage (m : Msg) (s : State) (h : s.Inv) : Keeps (execLoadImage m s) := by
  unfold execLoadImage
  exact keep_takeReq _ _ _ _ h (fun t ht => by simp -implicitDefEqProofs (maxDischargeDepth := 40) [ht])
theorem keep_execStart (m : Msg) (s : State) (h : s.Inv) : Keeps (execStart m s) := by
  unfold execStart
  exact keep_takeReq _ _ _ _ h (fun t ht => by simp -implicitDefEqProofs (maxDischargeDepth := 40) [ht])
theorem keep_execStopAtHurdle (m : Msg) (s : State) (h : s.Inv) : Keeps (execStopAtHurdle m s) := by
  unfold execStopAtHurdle
  exact keep_takeReq _ _ _ _ h (fun t ht => by simp -implicitDefEqProofs (maxDischargeDepth := 40) [ht])
theorem keep_execCheckpointNow (m : Msg) (s : State) (h : s.Inv) : Keeps (execCheckpointNow m s) := by
  unfold execCheckpointNow
  exact keep_takeReq _ _ _ _ h (fun t ht => by simp -implicitDefEqProofs (maxDischargeDepth := 40) [ht])
theorem keep_execRearm (m : Msg) (s : State) (h : s.Inv) : Keeps (execRearm m s) := by
  unfold execRearm
  exact keep_takeReq _ _ _ _ h (fun t ht => by simp -implicitDefEqProofs (maxDischargeDepth := 40) [ht])
theorem keep_execQueryStatus (m : Msg) (s : State) (h : s.Inv) : Keeps (execQueryStatus m s) := by
  unfold execQueryStatus
  exact keep_takeReq _ _ _ _ h (fun t ht => by simp -implicitDefEqProofs (maxDischargeDepth := 40) [ht])
theorem keep_execQueryInventory (m : Msg) (s : State) (h : s.Inv) : Keeps (execQueryInventory m s) := by
  unfold execQueryInventory
  exact keep_takeReq _ _ _ _ h (fun t ht => by simp -implicitDefEqProofs (maxDischargeDepth := 40) [ht])
theorem keep_execQueryAttest (m : Msg) (s : State) (h : s.Inv) : Keeps (execQueryAttest m s) := by
  unfold execQueryAttest
  exact keep_takeReq _ _ _ _ h (fun t ht => by simp -implicitDefEqProofs (maxDischargeDepth := 40) [ht])
theorem keep_execSnapshot (m : Msg) (s : State) (h : s.Inv) : Keeps (execSnapshot m s) := by
  unfold execSnapshot
  exact keep_takeReq _ _ _ _ h (fun t ht => by simp -implicitDefEqProofs (maxDischargeDepth := 40) [ht])
theorem keep_execSplits (m : Msg) (s : State) (h : s.Inv) : Keeps (execSplits m s) := by
  unfold execSplits
  exact keep_takeReq _ _ _ _ h (fun t ht => by simp -implicitDefEqProofs (maxDischargeDepth := 40) [ht])
theorem keep_execQueryDump (m : Msg) (s : State) (h : s.Inv) : Keeps (execQueryDump m s) := by
  unfold execQueryDump
  exact keep_takeReq _ _ _ _ h (fun t ht => by simp -implicitDefEqProofs (maxDischargeDepth := 40) [ht])
theorem keep_execReadLifelog (m : Msg) (s : State) (h : s.Inv) : Keeps (execReadLifelog m s) := by
  unfold execReadLifelog
  exact keep_takeReq _ _ _ _ h (fun t ht => by simp -implicitDefEqProofs (maxDischargeDepth := 40) [ht])

end Sys2Proof.Machine
end

