-- ==== Sys2Proof/Laws/KeepBoot.lean ====
section
/-! SUPPORT. The invariant under boot, restarts and faults. -/
namespace Sys2Proof.Machine

theorem keep_execPwrGood (s : State) (h : s.Inv) : Keeps (execPwrGood s) := by
  unfold execPwrGood; try dsimp only
  first
    | (simp (maxDischargeDepth := 40) -implicitDefEqProofs [h]; done)
    | ((repeat' split) <;> first | exact h | simp -implicitDefEqProofs (maxDischargeDepth := 40) [h])
@[simp] theorem keep_halt (s : State) (h : s.Inv) : (s.halt).Inv := by
  unfold State.halt; try dsimp only
  first
    | (simp (maxDischargeDepth := 40) -implicitDefEqProofs [h]; done)
    | ((repeat' split) <;> first | exact h | simp -implicitDefEqProofs (maxDischargeDepth := 40) [h])
theorem keep_execStrapLatch (samples : List Straps) (s : State) (h : s.Inv) : Keeps (execStrapLatch samples s) := by
  unfold execStrapLatch; try dsimp only
  first
    | (simp (maxDischargeDepth := 40) -implicitDefEqProofs [h]; done)
    | ((repeat' split) <;> first | exact h | simp -implicitDefEqProofs (maxDischargeDepth := 40) [h])
theorem keep_execFlashReadDone (readOk sigA sigB : Bool) (s : State) (h : s.Inv) : Keeps (execFlashReadDone readOk sigA sigB s) := by
  unfold execFlashReadDone; try dsimp only
  first
    | (simp (maxDischargeDepth := 40) -implicitDefEqProofs [h]; done)
    | ((repeat' split) <;> first | exact h | simp -implicitDefEqProofs (maxDischargeDepth := 40) [h])
theorem keep_execManagementPortLinkUp (s : State) (h : s.Inv) : Keeps (execManagementPortLinkUp s) := by
  unfold execManagementPortLinkUp; try dsimp only
  first
    | (simp (maxDischargeDepth := 40) -implicitDefEqProofs [h]; done)
    | ((repeat' split) <;> first | exact h | simp -implicitDefEqProofs (maxDischargeDepth := 40) [h])
theorem keep_execFeedPortLinkUp (fp : Fin 2) (s : State) (h : s.Inv) : Keeps (execFeedPortLinkUp fp s) := by
  unfold execFeedPortLinkUp; try dsimp only
  first
    | (simp (maxDischargeDepth := 40) -implicitDefEqProofs [h]; done)
    | ((repeat' split) <;> first | exact h | simp -implicitDefEqProofs (maxDischargeDepth := 40) [h])
theorem keep_execNvmeDriveReady (d : Fin 2) (s : State) (h : s.Inv) : Keeps (execNvmeDriveReady d s) := by
  unfold execNvmeDriveReady; try dsimp only
  first
    | (simp (maxDischargeDepth := 40) -implicitDefEqProofs [h]; done)
    | ((repeat' split) <;> first | exact h | simp -implicitDefEqProofs (maxDischargeDepth := 40) [h])
@[simp] theorem keep_retireDrive (s : State) (d : Fin 2) (h : s.Inv) : (s.retireDrive d).Inv := by
  unfold State.retireDrive; try dsimp only
  first
    | (simp (maxDischargeDepth := 40) -implicitDefEqProofs [h]; done)
    | ((repeat' split) <;> first | exact h | simp -implicitDefEqProofs (maxDischargeDepth := 40) [h])
theorem keep_execNvmeReadyTimeout (d : Fin 2) (s : State) (h : s.Inv) : Keeps (execNvmeReadyTimeout d s) := by
  unfold execNvmeReadyTimeout; try dsimp only
  first
    | (simp (maxDischargeDepth := 40) -implicitDefEqProofs [h]; done)
    | ((repeat' split) <;> first | exact h | simp -implicitDefEqProofs (maxDischargeDepth := 40) [h])
theorem keep_execReady (s : State) (h : s.Inv) : Keeps (execReady s) := by
  unfold execReady; try dsimp only
  first
    | (simp (maxDischargeDepth := 40) -implicitDefEqProofs [h]; done)
    | ((repeat' split) <;> first | exact h | simp -implicitDefEqProofs (maxDischargeDepth := 40) [h])
@[simp] theorem keep_setPace (s : State) (c : Fin 64) (st : PaceState) (move : PaceMove) (h : s.Inv) : (s.setPace c st move).Inv := by
  unfold State.setPace; try dsimp only
  first
    | (simp (maxDischargeDepth := 40) -implicitDefEqProofs [h]; done)
    | ((repeat' split) <;> first | exact h | simp -implicitDefEqProofs (maxDischargeDepth := 40) [h])
@[simp] theorem keep_powerGate (s : State) (c : Fin 64) (h : s.Inv) : (s.powerGate c).Inv := by
  unfold State.powerGate
  have := keep_setPace s c .rest .settled h
  exact keep_setLevel _ _ _ _ _ (keep_modCl _ _ _ this (by simp -implicitDefEqProofs (maxDischargeDepth := 40) [this]))
@[simp] theorem keep_retireCluster (s : State) (c : Fin 64) (h : s.Inv) : (s.retireCluster c).Inv := by
  unfold State.retireCluster; dsimp only
  have h1 := keep_powerGate s c h
  have h2 : ((s.powerGate c).modCl c (fun k => { k with
      retired := true, queues := Vector.replicate 4 [], core := { k.core with running := false, restarting := false } })).Inv := by
    simp -implicitDefEqProofs (maxDischargeDepth := 40) [h1]
  split
  · exact keep_noteRetired _ _ _ _ h2
  · exact keep_ite _ _ _ (keep_request _ _ _ _ (keep_noteRetired _ _ _ _ h2)) (keep_request _ _ _ _ (keep_noteRetired _ _ _ _ h2))
@[simp] theorem keep_restartCluster (s : State) (c : Fin 64) (h : s.Inv) : (s.restartCluster c).Inv := by
  unfold State.restartCluster; try dsimp only
  first
    | (simp (maxDischargeDepth := 40) -implicitDefEqProofs [h]; done)
    | ((repeat' split) <;> first | exact h | simp -implicitDefEqProofs (maxDischargeDepth := 40) [h])
@[simp] theorem keep_noteCore (s : State) (core unit heat : Nat) (h : s.Inv) : (s.noteCore core unit heat).Inv := by
  unfold State.noteCore; try dsimp only
  first
    | (simp (maxDischargeDepth := 40) -implicitDefEqProofs [h]; done)
    | ((repeat' split) <;> first | exact h | simp -implicitDefEqProofs (maxDischargeDepth := 40) [h])
@[simp] theorem keep_crashControl (s : State) (c : Fin 64) (h : s.Inv) : (s.crashControl c).Inv := by
  unfold State.crashControl; try dsimp only
  first
    | (simp (maxDischargeDepth := 40) -implicitDefEqProofs [h]; done)
    | ((repeat' split) <;> first | exact h | simp -implicitDefEqProofs (maxDischargeDepth := 40) [h])
@[simp] theorem keep_restartDone (s : State) (c : Fin 64) (h : s.Inv) : (s.restartDone c).Inv := by
  unfold State.restartDone; try dsimp only
  first
    | (simp (maxDischargeDepth := 40) -implicitDefEqProofs [h]; done)
    | ((repeat' split) <;> first | exact h | simp -implicitDefEqProofs (maxDischargeDepth := 40) [h])
@[simp] theorem keep_applyPace (s : State) (c : Fin 64) (h : s.Inv) : (s.applyPace c).Inv := by
  unfold State.applyPace; dsimp only
  generalize (if (s.cl c).pc.st.asleep = true then s.heldMv (s.cl c).pc else s.setpoint (s.cl c).pc) = v
  have h1 := keep_setLevel _ 1 c.val 29 v (keep_modCl s c (fun t => { t with pc := { t.pc with active := v } }) h (by simp -implicitDefEqProofs (maxDischargeDepth := 40) [h]))
  exact keep_ite _ _ _ h (keep_ite _ _ _ (keep_setPace _ _ _ _ h1) h1)
@[simp] theorem keep_grantSprint (s : State) (c : Fin 64) (h : s.Inv) : (s.grantSprint c).Inv := by
  unfold State.grantSprint; dsimp only
  exact keep_bump _ _ _ _ _ (keep_modCl _ _ _ (keep_ite _ _ _ h (keep_useFree _ h)) (by simp -implicitDefEqProofs (maxDischargeDepth := 40) [keep_ite, h]))
@[simp] theorem keep_pace (s : State) (c : Fin 64) (h : s.Inv) : (s.pace c).Inv := by
  unfold State.pace
  exact keep_ite _ _ _ h (keep_applyPace _ _ (keep_ite _ _ _ (keep_grantSprint _ _ h) h))
@[simp] theorem keep_blockPace (s : State) (c : Fin 64) (entry : Nat) (h : s.Inv) : (s.blockPace c entry).Inv := by
  unfold State.blockPace
  exact keep_pace _ _ (by simp -implicitDefEqProofs (maxDischargeDepth := 40) [h])
@[simp] theorem keep_applyAll (s : State) (h : s.Inv) : (s.applyAll).Inv := by
  unfold State.applyAll
  exact keep_foldl _ _ (fun s c h => keep_applyPace _ _ h) _ h
@[simp] theorem keep_beginExit (s : State) (c : Fin 64) (h : s.Inv) : (s.beginExit c).Inv := by
  unfold State.beginExit; try dsimp only
  first
    | (simp (maxDischargeDepth := 40) -implicitDefEqProofs [h]; done)
    | ((repeat' split) <;> first | exact h | simp -implicitDefEqProofs (maxDischargeDepth := 40) [h])
@[simp] theorem keep_refreshCl (s : State) (c : Fin 64) (h : s.Inv) : (s.refreshCl c).Inv := by
  unfold State.refreshCl; try dsimp only
  first
    | (simp (maxDischargeDepth := 40) -implicitDefEqProofs [h]; done)
    | ((repeat' split) <;> first | exact h | simp -implicitDefEqProofs (maxDischargeDepth := 40) [h])
theorem keep_execParityError (c : Fin 64) (s : State) (h : s.Inv) : Keeps (execParityError c s) := by
  unfold execParityError; try dsimp only
  first
    | (simp (maxDischargeDepth := 40) -implicitDefEqProofs [h]; done)
    | ((repeat' split) <;> first | exact h | simp -implicitDefEqProofs (maxDischargeDepth := 40) [h])
theorem keep_execControlCoreCrash (c : Fin 64) (s : State) (h : s.Inv) : Keeps (execControlCoreCrash c s) := by
  unfold execControlCoreCrash; try dsimp only
  first
    | (simp (maxDischargeDepth := 40) -implicitDefEqProofs [h]; done)
    | ((repeat' split) <;> first | exact h | simp -implicitDefEqProofs (maxDischargeDepth := 40) [h])
theorem keep_execSchedulerCrash (s : State) (h : s.Inv) : Keeps (execSchedulerCrash s) := by
  unfold execSchedulerCrash; try dsimp only
  first
    | (simp (maxDischargeDepth := 40) -implicitDefEqProofs [h]; done)
    | ((repeat' split) <;> first | exact h | simp -implicitDefEqProofs (maxDischargeDepth := 40) [h])
theorem keep_execPowerCoreCrash (s : State) (h : s.Inv) : Keeps (execPowerCoreCrash s) := by
  unfold execPowerCoreCrash; try dsimp only
  first
    | (simp (maxDischargeDepth := 40) -implicitDefEqProofs [h]; done)
    | ((repeat' split) <;> first | exact h | simp -implicitDefEqProofs (maxDischargeDepth := 40) [h])
theorem keep_execSecurityCoreCrash (s : State) (h : s.Inv) : Keeps (execSecurityCoreCrash s) := by
  unfold execSecurityCoreCrash; try dsimp only
  first
    | (simp (maxDischargeDepth := 40) -implicitDefEqProofs [h]; done)
    | ((repeat' split) <;> first | exact h | simp -implicitDefEqProofs (maxDischargeDepth := 40) [h])
@[simp] theorem keep_settleGo (s : State) (hi : Fin 4) (h : s.Inv) : (s.settleGo hi).Inv := by
  unfold State.settleGo; dsimp only
  split
  · exact h
  · refine keep_ite _ _ _ (keep_ite _ _ _ (keep_modHu _ _ _ h) (keep_resumeDecides _ _ _ (keep_refreshHeld _ _ (keep_finishGo _ _ _ _ h)))) h
@[simp] theorem keep_coreAnew (s : State) (i : Fin 3) (h : s.Inv) : (s.coreAnew i).Inv := by
  unfold State.coreAnew; exact keep_modBoot _ _ (keep_useFree _ h) h.com.flash
@[simp] theorem keep_schedulerBack (s : State) (h : s.Inv) : (s.schedulerBack).Inv := by
  unfold State.schedulerBack; dsimp only
  refine keep_serveQueue _ _ (keep_resumeLeases _ (keep_foldl _ _ (fun s a h => ?_) _ (by simp -implicitDefEqProofs (maxDischargeDepth := 40) [h])))
  have h1 := keep_settleGo _ a (keep_modHeat s a (fun h => { h with ck := h.ck.forget }) h (by simp -implicitDefEqProofs (maxDischargeDepth := 40) [h]))
  exact keep_ite _ _ _ (keep_request _ _ _ _ h1) h1
@[simp] theorem keep_powerBack (s : State) (h : s.Inv) : (s.powerBack).Inv := by
  unfold State.powerBack; try dsimp only
  first
    | (simp (maxDischargeDepth := 40) -implicitDefEqProofs [h]; done)
    | ((repeat' split) <;> first | exact h | simp -implicitDefEqProofs (maxDischargeDepth := 40) [h])
@[simp] theorem keep_securityBack (s : State) (ok : Bool) (h : s.Inv) : (s.securityBack ok).Inv := by
  unfold State.securityBack; try dsimp only
  first
    | (simp (maxDischargeDepth := 40) -implicitDefEqProofs [h]; done)
    | ((repeat' split) <;> first | exact h | simp -implicitDefEqProofs (maxDischargeDepth := 40) [h])
theorem keep_execCoreRestartDone (core : CoreId) (ok : Bool) (s : State) (h : s.Inv) : Keeps (execCoreRestartDone core ok s) := by
  unfold execCoreRestartDone; try dsimp only
  first
    | (simp (maxDischargeDepth := 40) -implicitDefEqProofs [h]; done)
    | ((repeat' split) <;> first | exact h | simp -implicitDefEqProofs (maxDischargeDepth := 40) [h])
theorem keep_execProgressHang (u : HangUnit) (s : State) (h : s.Inv) : Keeps (execProgressHang u s) := by
  unfold execProgressHang; try dsimp only
  first
    | (simp (maxDischargeDepth := 40) -implicitDefEqProofs [h]; done)
    | ((repeat' split) <;> first | exact h | simp -implicitDefEqProofs (maxDischargeDepth := 40) [h])
theorem keep_execIntraClusterDeadlock (c : Fin 64) (s : State) (h : s.Inv) : Keeps (execIntraClusterDeadlock c s) := by
  unfold execIntraClusterDeadlock; try dsimp only
  first
    | (simp (maxDischargeDepth := 40) -implicitDefEqProofs [h]; done)
    | ((repeat' split) <;> first | exact h | simp -implicitDefEqProofs (maxDischargeDepth := 40) [h])
theorem keep_thaw (cls : List Nat) (s : State) (h : s.Inv) : (cls.foldl (fun (s : State) c => match (List.finRange 64)[c]? with
      | some f => s.modCl f (fun k => { k with frozen := false })
      | none => s) s).Inv := by
  refine keep_foldl _ _ (fun s a h => ?_) _ h
  split <;> simp -implicitDefEqProofs (maxDischargeDepth := 40) [h]
theorem keep_execDumpWritten (s : State) (h : s.Inv) : Keeps (execDumpWritten s) := by
  unfold execDumpWritten; dsimp only
  split
  · exact (keeps_next _).2 h
  · split
    · exact (keeps_next _).2 h
    · have h1 := fun cls f => keep_bump _ 9 0 11 1 (keep_thaw cls _ (keep_modStore _ f (keep_useFree _ (keep_countWrite s (min s.dumpCapacity (4096 + Config.dumpLen s.free + 32)) h))))
      split
      · exact (keeps_next _).2 (h1 _ _)
      · exact (keeps_next _).2 (keep_ite _ _ _ (keep_settleGo _ _ (h1 _ _)) (keep_resumeDecides _ _ _ (h1 _ _)))

end Sys2Proof.Machine
end

