-- ==== Sys2Proof/Laws/KeepCkpt.lean ====
section
/-! SUPPORT. The invariant under checkpoints, JTAG, the life log and the sideband. -/
namespace Sys2Proof.Machine

@[simp] theorem keep_releaseGo (s : State) (hi : Fin 4) (h : s.Inv) : (s.releaseGo hi).Inv := by
  unfold State.releaseGo; try dsimp only
  first
    | (simp (maxDischargeDepth := 40) -implicitDefEqProofs [h]; done)
    | ((repeat' split) <;> first | exact h | simp -implicitDefEqProofs (maxDischargeDepth := 40) [h])
@[simp] theorem keep_keepDigest (s : State) (hi : Fin 4) (p : Program) (n : Nat) (h : s.Inv) : (s.keepDigest hi p n).Inv := by
  unfold State.keepDigest; try dsimp only
  first
    | (simp (maxDischargeDepth := 40) -implicitDefEqProofs [h]; done)
    | ((repeat' split) <;> first | exact h | simp -implicitDefEqProofs (maxDischargeDepth := 40) [h])
@[simp] theorem keep_writeHalf (s : State) (hi : Fin 4) (p : Program) (n : Nat) (h : s.Inv) : (s.writeHalf hi p n).Inv := by
  unfold State.writeHalf; try dsimp only
  first
    | (simp (maxDischargeDepth := 40) -implicitDefEqProofs [h]; done)
    | ((repeat' split) <;> first | exact h | simp -implicitDefEqProofs (maxDischargeDepth := 40) [h])
theorem keep_execBatonHashDone (hi : Fin 4) (s : State) (h : s.Inv) : Keeps (execBatonHashDone hi s) := by
  unfold execBatonHashDone; try dsimp only
  first
    | (simp (maxDischargeDepth := 40) -implicitDefEqProofs [h]; done)
    | ((repeat' split) <;> first | exact h | simp -implicitDefEqProofs (maxDischargeDepth := 40) [h])
@[simp] theorem keep_chargeDrive (s : State) (d : Fin 2) (h : s.Inv) : (s.chargeDrive d).Inv := by
  unfold State.chargeDrive; try dsimp only
  first
    | (simp (maxDischargeDepth := 40) -implicitDefEqProofs [h]; done)
    | ((repeat' split) <;> first | exact h | simp -implicitDefEqProofs (maxDischargeDepth := 40) [h])
@[simp] theorem keep_dropFlash (s : State) (hi : Fin 4) (h : s.Inv) : (s.dropFlash hi).Inv := by
  unfold State.dropFlash; try dsimp only
  first
    | (simp (maxDischargeDepth := 40) -implicitDefEqProofs [h]; done)
    | ((repeat' split) <;> first | exact h | simp -implicitDefEqProofs (maxDischargeDepth := 40) [h])
theorem keep_execLocalFlashWriteDone (hi : Fin 4) (r : FlashResult) (s : State) (h : s.Inv) : Keeps (execLocalFlashWriteDone hi r s) := by
  unfold execLocalFlashWriteDone; try dsimp only
  first
    | (simp (maxDischargeDepth := 40) -implicitDefEqProofs [h]; done)
    | ((repeat' split) <;> first | exact h | simp -implicitDefEqProofs (maxDischargeDepth := 40) [h])
theorem keep_execNvmeTimeout (d : Fin 2) (s : State) (h : s.Inv) : Keeps (execNvmeTimeout d s) := by
  unfold execNvmeTimeout; dsimp only
  exact keeps_ite _ _ _ ((keeps_next _).2 (keep_foldl _ _ (fun s hi h => keep_dropFlash _ _ h) _ (by simp -implicitDefEqProofs (maxDischargeDepth := 40) [h]))) ((keeps_next _).2 h)
theorem keep_execSharedStoreWriteDone (hi : Fin 4) (ok : Bool) (s : State) (h : s.Inv) : Keeps (execSharedStoreWriteDone hi ok s) := by
  unfold execSharedStoreWriteDone; try dsimp only
  first
    | (simp (maxDischargeDepth := 40) -implicitDefEqProofs [h]; done)
    | ((repeat' split) <;> first | exact h | simp -implicitDefEqProofs (maxDischargeDepth := 40) [h])
@[simp] theorem keep_modTap (s : State) (f : JtagTap → JtagTap) (h : s.Inv) : (s.modTap f).Inv := by
  unfold State.modTap; try dsimp only
  first
    | (simp (maxDischargeDepth := 40) -implicitDefEqProofs [h]; done)
    | ((repeat' split) <;> first | exact h | simp -implicitDefEqProofs (maxDischargeDepth := 40) [h])
@[simp] theorem keep_loadTap (s : State) (ir : Nat) (h : s.Inv) : (s.loadTap ir).Inv := by
  unfold State.loadTap; try dsimp only
  first
    | (simp (maxDischargeDepth := 40) -implicitDefEqProofs [h]; done)
    | ((repeat' split) <;> first | exact h | simp -implicitDefEqProofs (maxDischargeDepth := 40) [h])
@[simp] theorem keep_shiftOut (s : State) (bits : List Bool) (h : s.Inv) : (s.shiftOut bits).Inv := by
  unfold State.shiftOut; try dsimp only
  first
    | (simp (maxDischargeDepth := 40) -implicitDefEqProofs [h]; done)
    | ((repeat' split) <;> first | exact h | simp -implicitDefEqProofs (maxDischargeDepth := 40) [h])
theorem keep_execBypass (tdi : List Bool) (s : State) (h : s.Inv) : Keeps (execBypass tdi s) := by
  unfold execBypass; try dsimp only
  first
    | (simp (maxDischargeDepth := 40) -implicitDefEqProofs [h]; done)
    | ((repeat' split) <;> first | exact h | simp -implicitDefEqProofs (maxDischargeDepth := 40) [h])
theorem keep_execSamplePreload (cells : List Bool) (s : State) (h : s.Inv) : Keeps (execSamplePreload cells s) := by
  unfold execSamplePreload; try dsimp only
  first
    | (simp (maxDischargeDepth := 40) -implicitDefEqProofs [h]; done)
    | ((repeat' split) <;> first | exact h | simp -implicitDefEqProofs (maxDischargeDepth := 40) [h])
theorem keep_execExtest (s : State) (h : s.Inv) : Keeps (execExtest s) := by
  unfold execExtest; try dsimp only
  first
    | (simp (maxDischargeDepth := 40) -implicitDefEqProofs [h]; done)
    | ((repeat' split) <;> first | exact h | simp -implicitDefEqProofs (maxDischargeDepth := 40) [h])
theorem keep_execIdcode (s : State) (h : s.Inv) : Keeps (execIdcode s) := by
  unfold execIdcode; try dsimp only
  first
    | (simp (maxDischargeDepth := 40) -implicitDefEqProofs [h]; done)
    | ((repeat' split) <;> first | exact h | simp -implicitDefEqProofs (maxDischargeDepth := 40) [h])
theorem keep_execHighz (s : State) (h : s.Inv) : Keeps (execHighz s) := by
  unfold execHighz; try dsimp only
  first
    | (simp (maxDischargeDepth := 40) -implicitDefEqProofs [h]; done)
    | ((repeat' split) <;> first | exact h | simp -implicitDefEqProofs (maxDischargeDepth := 40) [h])
theorem keep_execClamp (s : State) (h : s.Inv) : Keeps (execClamp s) := by
  unfold execClamp; try dsimp only
  first
    | (simp (maxDischargeDepth := 40) -implicitDefEqProofs [h]; done)
    | ((repeat' split) <;> first | exact h | simp -implicitDefEqProofs (maxDischargeDepth := 40) [h])
theorem keep_execLifelogSummary (s : State) (h : s.Inv) : Keeps (execLifelogSummary s) := by
  unfold execLifelogSummary; try dsimp only
  first
    | (simp (maxDischargeDepth := 40) -implicitDefEqProofs [h]; done)
    | ((repeat' split) <;> first | exact h | simp -implicitDefEqProofs (maxDischargeDepth := 40) [h])
@[simp] theorem keep_smbusRead (s : State) (v : Nat) (h : s.Inv) : Keeps (s.smbusRead v) := by
  unfold State.smbusRead; try dsimp only
  first
    | (simp (maxDischargeDepth := 40) -implicitDefEqProofs [h]; done)
    | ((repeat' split) <;> first | exact h | simp -implicitDefEqProofs (maxDischargeDepth := 40) [h])
theorem keep_execState (s : State) (h : s.Inv) : Keeps (execState s) := by
  unfold execState; try dsimp only
  first
    | (simp (maxDischargeDepth := 40) -implicitDefEqProofs [h]; done)
    | ((repeat' split) <;> first | exact h | simp -implicitDefEqProofs (maxDischargeDepth := 40) [h])
theorem keep_execVin (s : State) (h : s.Inv) : Keeps (execVin s) := by
  unfold execVin; try dsimp only
  first
    | (simp (maxDischargeDepth := 40) -implicitDefEqProofs [h]; done)
    | ((repeat' split) <;> first | exact h | simp -implicitDefEqProofs (maxDischargeDepth := 40) [h])
theorem keep_execPin (s : State) (h : s.Inv) : Keeps (execPin s) := by
  unfold execPin; try dsimp only
  first
    | (simp (maxDischargeDepth := 40) -implicitDefEqProofs [h]; done)
    | ((repeat' split) <;> first | exact h | simp -implicitDefEqProofs (maxDischargeDepth := 40) [h])
theorem keep_execTjMax (s : State) (h : s.Inv) : Keeps (execTjMax s) := by
  unfold execTjMax; try dsimp only
  first
    | (simp (maxDischargeDepth := 40) -implicitDefEqProofs [h]; done)
    | ((repeat' split) <;> first | exact h | simp -implicitDefEqProofs (maxDischargeDepth := 40) [h])
theorem keep_execTBoard (s : State) (h : s.Inv) : Keeps (execTBoard s) := by
  unfold execTBoard; try dsimp only
  first
    | (simp (maxDischargeDepth := 40) -implicitDefEqProofs [h]; done)
    | ((repeat' split) <;> first | exact h | simp -implicitDefEqProofs (maxDischargeDepth := 40) [h])
theorem keep_execIdent (s : State) (h : s.Inv) : Keeps (execIdent s) := by
  unfold execIdent; try dsimp only
  first
    | (simp (maxDischargeDepth := 40) -implicitDefEqProofs [h]; done)
    | ((repeat' split) <;> first | exact h | simp -implicitDefEqProofs (maxDischargeDepth := 40) [h])
theorem keep_execAlertCause (s : State) (h : s.Inv) : Keeps (execAlertCause s) := by
  unfold execAlertCause; try dsimp only
  first
    | (simp (maxDischargeDepth := 40) -implicitDefEqProofs [h]; done)
    | ((repeat' split) <;> first | exact h | simp -implicitDefEqProofs (maxDischargeDepth := 40) [h])
theorem keep_execPart (s : State) (h : s.Inv) : Keeps (execPart s) := by
  unfold execPart; try dsimp only
  first
    | (simp (maxDischargeDepth := 40) -implicitDefEqProofs [h]; done)
    | ((repeat' split) <;> first | exact h | simp -implicitDefEqProofs (maxDischargeDepth := 40) [h])
theorem keep_execRailFail (s : State) (h : s.Inv) : Keeps (execRailFail s) := by
  unfold execRailFail; try dsimp only
  first
    | (simp (maxDischargeDepth := 40) -implicitDefEqProofs [h]; done)
    | ((repeat' split) <;> first | exact h | simp -implicitDefEqProofs (maxDischargeDepth := 40) [h])
theorem keep_execAlertResponse (s : State) (h : s.Inv) : Keeps (execAlertResponse s) := by
  unfold execAlertResponse; try dsimp only
  first
    | (simp (maxDischargeDepth := 40) -implicitDefEqProofs [h]; done)
    | ((repeat' split) <;> first | exact h | simp -implicitDefEqProofs (maxDischargeDepth := 40) [h])

end Sys2Proof.Machine
end

