-- ==== Sys2Proof/Laws/KeepCore.lean ====
section
/-! SUPPORT. The invariant under the control core and the stream fetcher. -/
namespace Sys2Proof.Machine

@[simp] theorem xw_zero (regs : Vector Word 32) (i : Nat) (v : Word) (h : regs[0] = 0) : (xw regs i v)[0] = 0 := by
  unfold xw
  split
  · exact h
  · rename_i hi
    rw [Vector.getElem_setIfInBounds]
    rw [if_neg hi]; exact h
theorem rvRun_keeps (i : RvIns) (len : Nat) (pc : Word) (regs : Vector Word 32) (dmem : Mem) (h0 : regs[0] = 0) (hm : dmem.wf = true)
    {o : Word × Vector Word 32 × Mem} (e : rvRun i len pc regs dmem = some o) : o.2.1[0] = 0 ∧ o.2.2.wf = true := by
  unfold rvRun at e
  cases i <;> simp only [Option.some.injEq, Option.map_eq_some_iff, reduceCtorEq] at e
  all_goals first
    | (subst e; exact ⟨by simp -implicitDefEqProofs (maxDischargeDepth := 40) [h0], hm⟩)
    | (obtain ⟨a, -, rfl⟩ := e; exact ⟨by simp -implicitDefEqProofs (maxDischargeDepth := 40) [h0], by simp -implicitDefEqProofs (maxDischargeDepth := 40) [hm]⟩)
@[simp] theorem keep_retire (k : Cluster) (rd : Nat) (v : Word) (len : Nat) (h : k.Inv) : (k.retire rd v len).Inv := by
  unfold Cluster.retire; simp -implicitDefEqProofs (maxDischargeDepth := 40) [h]
theorem keep_onCore (s : State) (c : Fin 64) (go : State → Site → RvIns → Nat → State) (h : s.Inv) (hg : ∀ x i n, (go s x i n).Inv) :
    Keeps (s.onCore c go) := by
  unfold State.onCore
  split
  · exact (keeps_next _).2 (keep_refreshHeld _ _ (hg _ _ _))
  · exact (keeps_next _).2 h
@[simp] theorem keep_failCluster (s : State) (c : Fin 64) (x : Site) (status : Nat) (h : s.Inv) : (s.failCluster c x status).Inv := by
  unfold State.failCluster; try dsimp only
  first
    | (simp (maxDischargeDepth := 40) -implicitDefEqProofs [h]; done)
    | ((repeat' split) <;> first | exact h | simp -implicitDefEqProofs (maxDischargeDepth := 40) [h])
theorem keep_execBlkIssue (c : Fin 64) (s : State) (h : s.Inv) : Keeps (execBlkIssue c s) := by
  unfold execBlkIssue
  refine keep_onCore _ _ _ h (fun x i n => ?_)
  split
  · dsimp only
    by_cases hst : (s.cl c).issueStalls = true
    · rw [if_pos hst]; exact h
    · rw [if_neg hst]
      split
      · simp -implicitDefEqProofs (maxDischargeDepth := 40) [h]
      · refine keep_blockPace _ _ _ (keep_modCl _ _ _ h (keep_retire _ _ _ _ ?_))
        have : ¬ 4 ≤ (s.cl c).core.issued.length := by
          intro h4; exact hst (by simp -implicitDefEqProofs (maxDischargeDepth := 40) [Cluster.issueStalls, h4])
        have h2 : (s.cl c).core.issued.length + 1 ≤ 4 := by omega
        simp -implicitDefEqProofs (maxDischargeDepth := 40) [h, h2]
  · exact h
theorem queuesOk_push {qs : Vector (List QEntry) 4} (h : queuesOk qs) (q : Fin 4) (e : QEntry) (hl : ¬ 16 ≤ qs[q].length) :
    queuesOk (qs.set q (qs[q] ++ [e])) :=
  queuesOk_set h q _ (by rw [List.length_append, List.length_singleton]; omega)
theorem keep_execStreamFetch (c : Fin 64) (s : State) (h : s.Inv) : Keeps (execStreamFetch c s) := by
  unfold execStreamFetch; dsimp only
  split
  · rename_i b rest _ hb
    split
    · simp -implicitDefEqProofs (maxDischargeDepth := 40) [h]
    · split
      · simp -implicitDefEqProofs (maxDischargeDepth := 40) [h]
      · rename_i count _ _ _ q _
        by_cases hf : ((s.cl c).halted.isSome || decide (16 ≤ (s.cl c).queues[q].length)) = true
        · rw [if_pos hf]; exact (keeps_next _).2 h
        · rw [if_neg hf]
          have hl : ¬ 16 ≤ (s.cl c).queues[q].length := by
            intro h4; exact hf (by rw [decide_eq_true h4, Bool.or_true])
          refine (keeps_next _).2 (keep_refreshHeld _ _ (keep_setCl _ _ _ h ?_))
          have h4 := inv_issued (inv_cl h c)
          rw [hb] at h4
          have h5 := queuesOk_push (inv_queues (inv_cl h c)) q
          have h6 : rest.length ≤ 4 := by simp at h4; omega
          have h7 : ∀ p : Prop, ∀ d : Decidable p, ∀ x : Issue, (@ite _ p d rest (x :: rest)).length ≤ 4 := by
            intro p d x
            rw [List.length_cons] at h4
            split
            · exact h6
            · rw [List.length_cons]; exact h4
          simp -implicitDefEqProofs (maxDischargeDepth := 40) [h, h7]
          exact h5 _ hl
  · exact (keeps_next _).2 h
theorem keep_execEncIssue (c : Fin 64) (s : State) (h : s.Inv) : Keeps (execEncIssue c s) := by
  unfold execEncIssue
  refine keep_onCore _ _ _ h (fun x i n => ?_)
  split
  · dsimp only
    by_cases h2 : 2 ≤ (s.cl c).core.encs.length
    · rw [if_pos h2]; exact h
    · rw [if_neg h2]
      refine keep_modCl _ _ _ h (keep_retire _ _ _ _ ?_)
      have h2 : (s.cl c).core.encs.length + 1 ≤ 2 := by omega
      simp -implicitDefEqProofs (maxDischargeDepth := 40) [h, h2]
  · exact h
theorem keep_execEncWait (c : Fin 64) (s : State) (h : s.Inv) : Keeps (execEncWait c s) := by
  unfold execEncWait
  refine keep_onCore _ _ _ h (fun x i n => ?_)
  split
  · split
    · simp -implicitDefEqProofs (maxDischargeDepth := 40) [h]
    · rename_i r rest hr
      have h2 := inv_encs (inv_cl h c)
      rw [hr] at h2
      have h3 : rest.length ≤ 2 := by simp at h2; omega
      split
      · exact keep_modCl _ _ _ h (keep_retire _ _ _ _ (by simp -implicitDefEqProofs (maxDischargeDepth := 40) [h, h3]))
      · exact h
  · exact h
@[simp] theorem keep_setEnc (s : State) (c : Fin 64) (i : Nat) (ph : EncPhase) (h : s.Inv) : (s.setEnc c i ph).Inv := by
  unfold State.setEnc
  refine keep_modCl _ _ _ h ?_
  simp -implicitDefEqProofs (maxDischargeDepth := 40) [h, List.length_modify]
theorem keep_execEncodeRequestStart (c : Fin 64) (s : State) (h : s.Inv) : Keeps (execEncodeRequestStart c s) := by
  unfold execEncodeRequestStart; try dsimp only
  first
    | (simp (maxDischargeDepth := 40) -implicitDefEqProofs [h]; done)
    | ((repeat' split) <;> first | exact h | simp -implicitDefEqProofs (maxDischargeDepth := 40) [h])
theorem keep_execEncodeComplete (c : Fin 64) (tagFail : Bool) (s : State) (h : s.Inv) : Keeps (execEncodeComplete c tagFail s) := by
  unfold execEncodeComplete; try dsimp only
  first
    | (simp (maxDischargeDepth := 40) -implicitDefEqProofs [h]; done)
    | ((repeat' split) <;> first | exact h | simp -implicitDefEqProofs (maxDischargeDepth := 40) [h])
theorem keep_takeSum (s : State) (c : Fin 64) (f : Cluster → Word → Cluster) (h : s.Inv) (hf : ∀ k w, k.Inv → (f k w).Inv) : (s.takeSum c f).Inv := by
  unfold State.takeSum
  split
  · exact h
  · rename_i w rest hr
    have h2 := inv_sums (inv_cl h c)
    rw [hr] at h2
    have h3 : rest.length ≤ 4 := by simp at h2; omega
    exact keep_drainSum _ _ (keep_modCl _ _ _ h (hf _ _ (by simp -implicitDefEqProofs (maxDischargeDepth := 40) [h, h3])))
theorem keep_execSumGet (c : Fin 64) (s : State) (h : s.Inv) : Keeps (execSumGet c s) := by
  unfold execSumGet
  refine keep_onCore _ _ _ h (fun x i n => ?_)
  split
  · exact keep_takeSum _ _ _ h (fun k w hk => keep_retire _ _ _ _ hk)
  · exact h
@[simp] theorem keep_runBsum (s : State) (c : Fin 64) (want : Nat) (h : s.Inv) : Keeps (s.runBsum c want) := by
  unfold State.runBsum
  refine keep_onCore _ _ _ h (fun x i n => ?_)
  split
  · exact keep_ite _ _ _ (keep_takeSum _ _ _ h (fun k w hk => by simp -implicitDefEqProofs (maxDischargeDepth := 40) [hk])) h
  · exact h
theorem keep_execBsumFlt (c : Fin 64) (s : State) (h : s.Inv) : Keeps (execBsumFlt c s) := by
  unfold execBsumFlt; try dsimp only
  first
    | (simp (maxDischargeDepth := 40) -implicitDefEqProofs [h]; done)
    | ((repeat' split) <;> first | exact h | simp -implicitDefEqProofs (maxDischargeDepth := 40) [h])
theorem keep_execBsumFge (c : Fin 64) (s : State) (h : s.Inv) : Keeps (execBsumFge c s) := by
  unfold execBsumFge; try dsimp only
  first
    | (simp (maxDischargeDepth := 40) -implicitDefEqProofs [h]; done)
    | ((repeat' split) <;> first | exact h | simp -implicitDefEqProofs (maxDischargeDepth := 40) [h])
theorem keep_execBsumFeq (c : Fin 64) (s : State) (h : s.Inv) : Keeps (execBsumFeq c s) := by
  unfold execBsumFeq; try dsimp only
  first
    | (simp (maxDischargeDepth := 40) -implicitDefEqProofs [h]; done)
    | ((repeat' split) <;> first | exact h | simp -implicitDefEqProofs (maxDischargeDepth := 40) [h])
theorem keep_execBsumFne (c : Fin 64) (s : State) (h : s.Inv) : Keeps (execBsumFne c s) := by
  unfold execBsumFne; try dsimp only
  first
    | (simp (maxDischargeDepth := 40) -implicitDefEqProofs [h]; done)
    | ((repeat' split) <;> first | exact h | simp -implicitDefEqProofs (maxDischargeDepth := 40) [h])
theorem keep_execBsumNan (c : Fin 64) (s : State) (h : s.Inv) : Keeps (execBsumNan c s) := by
  unfold execBsumNan; try dsimp only
  first
    | (simp (maxDischargeDepth := 40) -implicitDefEqProofs [h]; done)
    | ((repeat' split) <;> first | exact h | simp -implicitDefEqProofs (maxDischargeDepth := 40) [h])
theorem keep_execBsumUlt (c : Fin 64) (s : State) (h : s.Inv) : Keeps (execBsumUlt c s) := by
  unfold execBsumUlt; try dsimp only
  first
    | (simp (maxDischargeDepth := 40) -implicitDefEqProofs [h]; done)
    | ((repeat' split) <;> first | exact h | simp -implicitDefEqProofs (maxDischargeDepth := 40) [h])
theorem keep_execBsumUge (c : Fin 64) (s : State) (h : s.Inv) : Keeps (execBsumUge c s) := by
  unfold execBsumUge; try dsimp only
  first
    | (simp (maxDischargeDepth := 40) -implicitDefEqProofs [h]; done)
    | ((repeat' split) <;> first | exact h | simp -implicitDefEqProofs (maxDischargeDepth := 40) [h])
theorem keep_execControlCoreInstruction (c : Fin 64) (s : State) (h : s.Inv) : Keeps (execControlCoreInstruction c s) := by
  unfold execControlCoreInstruction
  split
  · exact (keeps_next _).2 h
  · dsimp only
    split
    · simp -implicitDefEqProofs (maxDischargeDepth := 40) [h]
    · refine keeps_ite _ _ _ ((keeps_next _).2 h) ?_
      split
      · simp -implicitDefEqProofs (maxDischargeDepth := 40) [h]
      · rename_i e
        have := rvRun_keeps _ _ _ _ _ (inv_x0 (inv_cl h c)) (inv_dmem (inv_cl h c)) e
        simp -implicitDefEqProofs (maxDischargeDepth := 40) [h, this.1, this.2]

end Sys2Proof.Machine
end

