-- ==== Sys2Proof/Laws/KeepMem.lean ====
section
/-! SUPPORT. The invariant under the memory system. -/
namespace Sys2Proof.Machine

@[simp] theorem keep_migrationReport (s : State) (hi : Fin 4) (ch : Fin 96) (h : s.Inv) : (s.migrationReport hi ch).Inv := by
  unfold State.migrationReport; try dsimp only
  first
    | (simp (maxDischargeDepth := 40) -implicitDefEqProofs [h]; done)
    | ((repeat' split) <;> first | exact h | simp -implicitDefEqProofs (maxDischargeDepth := 40) [h])
@[simp] theorem keep_retireChan (s : State) (ch : Fin 96) (h : s.Inv) : (s.retireChan ch).Inv := by
  unfold State.retireChan; try dsimp only
  first
    | (simp (maxDischargeDepth := 40) -implicitDefEqProofs [h]; done)
    | ((repeat' split) <;> first | exact h | simp -implicitDefEqProofs (maxDischargeDepth := 40) [h])
@[simp] theorem keep_chargeChan (s : State) (ch : Fin 96) (granule : Nat) (p : ReadPlan) (h : s.Inv) : (s.chargeChan ch granule p).Inv := by
  unfold State.chargeChan; dsimp only
  exact keep_modChan _ _ _ (keep_foldl _ _ (fun s x h => by simp -implicitDefEqProofs (maxDischargeDepth := 40) [h]) _ (by simp -implicitDefEqProofs (maxDischargeDepth := 40) [h]))
@[simp] theorem keep_failReader (s : State) (hi : Fin 4) (reader : Option (Fin 64 × Fin 4)) (h : s.Inv) : (s.failReader hi reader).Inv := by
  unfold State.failReader; try dsimp only
  first
    | (simp (maxDischargeDepth := 40) -implicitDefEqProofs [h]; done)
    | ((repeat' split) <;> first | exact h | simp -implicitDefEqProofs (maxDischargeDepth := 40) [h])
theorem keep_execMemReadDecode (hi : Fin 4) (granule : Nat) (reads : List GranuleRead) (reader : Option (Fin 64 × Fin 4)) (s : State) (h : s.Inv) : Keeps (execMemReadDecode hi granule reads reader s) := by
  unfold execMemReadDecode; try dsimp only
  first
    | (simp (maxDischargeDepth := 40) -implicitDefEqProofs [h]; done)
    | ((repeat' split) <;> first | exact h | simp -implicitDefEqProofs (maxDischargeDepth := 40) [h])
theorem keep_execMigrationLine (ch : Fin 96) (unreadable : List Nat) (s : State) (h : s.Inv) : Keeps (execMigrationLine ch unreadable s) := by
  unfold execMigrationLine; try dsimp only
  first
    | (simp (maxDischargeDepth := 40) -implicitDefEqProofs [h]; done)
    | ((repeat' split) <;> first | exact h | simp -implicitDefEqProofs (maxDischargeDepth := 40) [h])
theorem keep_execEccCountPoll (counts : List Nat) (s : State) (h : s.Inv) : Keeps (execEccCountPoll counts s) := by
  unfold execEccCountPoll; dsimp only
  refine keeps_ite _ _ _ ((keeps_next _).2 h) ((keeps_next _).2 (keep_foldl _ _ (fun s x h => ?_) _ ?_))
  · exact keep_ite _ _ _ (by simp -implicitDefEqProofs (maxDischargeDepth := 40) [h]) h
  · exact keep_modCom _ _ (keep_reach _ _ h) ⟨(keep_reach s _ h).com.flash, (keep_reach s _ h).com.sessions, (keep_reach s _ h).com.reports, (keep_reach s _ h).com.rail⟩
theorem keep_execDqsTracking (s : State) (h : s.Inv) : Keeps (execDqsTracking s) := by
  unfold execDqsTracking; try dsimp only
  first
    | (simp (maxDischargeDepth := 40) -implicitDefEqProofs [h]; done)
    | ((repeat' split) <;> first | exact h | simp -implicitDefEqProofs (maxDischargeDepth := 40) [h])
theorem keep_execPerBankRefresh (ch : Fin 96) (bank : Fin 16) (s : State) (h : s.Inv) : Keeps (execPerBankRefresh ch bank s) := by
  unfold execPerBankRefresh; try dsimp only
  first
    | (simp (maxDischargeDepth := 40) -implicitDefEqProofs [h]; done)
    | ((repeat' split) <;> first | exact h | simp -implicitDefEqProofs (maxDischargeDepth := 40) [h])
theorem keep_execMemTraining (ch : Fin 96) (ok : Bool) (s : State) (h : s.Inv) : Keeps (execMemTraining ch ok s) := by
  unfold execMemTraining; try dsimp only
  first
    | (simp (maxDischargeDepth := 40) -implicitDefEqProofs [h]; done)
    | ((repeat' split) <;> first | exact h | simp -implicitDefEqProofs (maxDischargeDepth := 40) [h])
theorem keep_execServiceAdmit (ch : Fin 96) (repair programWaiting : Bool) (granules : Nat) (s : State) (h : s.Inv) : Keeps (execServiceAdmit ch repair programWaiting granules s) := by
  unfold execServiceAdmit; try dsimp only
  first
    | (simp (maxDischargeDepth := 40) -implicitDefEqProofs [h]; done)
    | ((repeat' split) <;> first | exact h | simp -implicitDefEqProofs (maxDischargeDepth := 40) [h])

end Sys2Proof.Machine
end

