-- ==== Sys2Proof/Laws/KeepPower.lean ====
section
/-! SUPPORT. The invariant under pacing, power and cooling. -/
namespace Sys2Proof.Machine

theorem keep_execClusterIdle (c : Fin 64) (s : State) (h : s.Inv) : Keeps (execClusterIdle c s) := by
  unfold execClusterIdle; try dsimp only
  first
    | (simp (maxDischargeDepth := 40) -implicitDefEqProofs [h]; done)
    | ((repeat' split) <;> first | exact h | simp -implicitDefEqProofs (maxDischargeDepth := 40) [h])
theorem keep_execJogToWalk (c : Fin 64) (s : State) (h : s.Inv) : Keeps (execJogToWalk c s) := by
  unfold execJogToWalk; try dsimp only
  first
    | (simp (maxDischargeDepth := 40) -implicitDefEqProofs [h]; done)
    | ((repeat' split) <;> first | exact h | simp -implicitDefEqProofs (maxDischargeDepth := 40) [h])
theorem keep_execPacingEntryDone (c : Fin 64) (s : State) (h : s.Inv) : Keeps (execPacingEntryDone c s) := by
  unfold execPacingEntryDone; try dsimp only
  first
    | (simp (maxDischargeDepth := 40) -implicitDefEqProofs [h]; done)
    | ((repeat' split) <;> first | exact h | simp -implicitDefEqProofs (maxDischargeDepth := 40) [h])
theorem keep_execExitTimer (c : Fin 64) (s : State) (h : s.Inv) : Keeps (execExitTimer c s) := by
  unfold execExitTimer; try dsimp only
  first
    | (simp (maxDischargeDepth := 40) -implicitDefEqProofs [h]; done)
    | ((repeat' split) <;> first | exact h | simp -implicitDefEqProofs (maxDischargeDepth := 40) [h])
theorem keep_execWakeLine (c : Fin 64) (why : WakeCause) (s : State) (h : s.Inv) : Keeps (execWakeLine c why s) := by
  unfold execWakeLine; try dsimp only
  first
    | (simp (maxDischargeDepth := 40) -implicitDefEqProofs [h]; done)
    | ((repeat' split) <;> first | exact h | simp -implicitDefEqProofs (maxDischargeDepth := 40) [h])
theorem keep_execPacingExitDone (c : Fin 64) (s : State) (h : s.Inv) : Keeps (execPacingExitDone c s) := by
  unfold execPacingExitDone; try dsimp only
  first
    | (simp (maxDischargeDepth := 40) -implicitDefEqProofs [h]; done)
    | ((repeat' split) <;> first | exact h | simp -implicitDefEqProofs (maxDischargeDepth := 40) [h])
theorem keep_execPaceEvaluate (c : Fin 64) (rate75 rateNow : Nat) (s : State) (h : s.Inv) : Keeps (execPaceEvaluate c rate75 rateNow s) := by
  unfold execPaceEvaluate; try dsimp only
  first
    | (simp (maxDischargeDepth := 40) -implicitDefEqProofs [h]; done)
    | ((repeat' split) <;> first | exact h | simp -implicitDefEqProofs (maxDischargeDepth := 40) [h])
@[simp] theorem keep_powerReport (s : State) (what : Nat) (h : s.Inv) : (s.powerReport what).Inv := by
  unfold State.powerReport; try dsimp only
  first
    | (simp (maxDischargeDepth := 40) -implicitDefEqProofs [h]; done)
    | ((repeat' split) <;> first | exact h | simp -implicitDefEqProofs (maxDischargeDepth := 40) [h])
@[simp] theorem keep_setVin (s : State) (mv : Nat) (h : s.Inv) : (s.setVin mv).Inv := by
  unfold State.setVin; try dsimp only
  first
    | (simp (maxDischargeDepth := 40) -implicitDefEqProofs [h]; done)
    | ((repeat' split) <;> first | exact h | simp -implicitDefEqProofs (maxDischargeDepth := 40) [h])
theorem keep_execStandbyRailRise (s : State) (h : s.Inv) : Keeps (execStandbyRailRise s) := by
  unfold execStandbyRailRise; try dsimp only
  first
    | (simp (maxDischargeDepth := 40) -implicitDefEqProofs [h]; done)
    | ((repeat' split) <;> first | exact h | simp -implicitDefEqProofs (maxDischargeDepth := 40) [h])
theorem keep_execStandbyRailLoss (s : State) (h : s.Inv) : Keeps (execStandbyRailLoss s) := by
  unfold execStandbyRailLoss
  have h1 := keep_railsOff s h
  exact keeps_ite _ _ _ ((keeps_next _).2 (keep_modCom _ _ h1 ⟨h1.com.flash, h1.com.sessions, h1.com.reports, Nat.zero_le _⟩)) ((keeps_next _).2 h)
@[simp] theorem keep_beginRise (s : State) (h : s.Inv) : (s.beginRise).Inv := by
  unfold State.beginRise; try dsimp only
  first
    | (simp (maxDischargeDepth := 40) -implicitDefEqProofs [h]; done)
    | ((repeat' split) <;> first | exact h | simp -implicitDefEqProofs (maxDischargeDepth := 40) [h])
@[simp] theorem keep_tryRise (s : State) (h : s.Inv) : s.tryRise.Inv := by
  unfold State.tryRise; exact keep_ite _ _ _ (keep_beginRise _ h) h
theorem keep_execPwrEnRise (lowMs : Nat) (s : State) (h : s.Inv) : Keeps (execPwrEnRise lowMs s) := by
  unfold execPwrEnRise; try dsimp only
  first
    | (simp (maxDischargeDepth := 40) -implicitDefEqProofs [h]; done)
    | ((repeat' split) <;> first | exact h | simp -implicitDefEqProofs (maxDischargeDepth := 40) [h])
theorem keep_execRailStep (s : State) (h : s.Inv) : Keeps (execRailStep s) := by
  unfold execRailStep
  split
  · rename_i hc
    have : s.com.pw.rail + 1 ≤ 8 := hc.2
    simp -implicitDefEqProofs (maxDischargeDepth := 40) [h, this]
  · exact (keeps_next _).2 h
theorem keep_execRailFailure (s : State) (h : s.Inv) : Keeps (execRailFailure s) := by
  unfold execRailFailure; try dsimp only
  first
    | (simp (maxDischargeDepth := 40) -implicitDefEqProofs [h]; done)
    | ((repeat' split) <;> first | exact h | simp -implicitDefEqProofs (maxDischargeDepth := 40) [h])
theorem keep_execPwrEnFall (s : State) (h : s.Inv) : Keeps (execPwrEnFall s) := by
  unfold execPwrEnFall; try dsimp only
  first
    | (simp (maxDischargeDepth := 40) -implicitDefEqProofs [h]; done)
    | ((repeat' split) <;> first | exact h | simp -implicitDefEqProofs (maxDischargeDepth := 40) [h])
theorem keep_execBrownOut (mv : Nat) (s : State) (h : s.Inv) : Keeps (execBrownOut mv s) := by
  unfold execBrownOut; try dsimp only
  first
    | (simp (maxDischargeDepth := 40) -implicitDefEqProofs [h]; done)
    | ((repeat' split) <;> first | exact h | simp -implicitDefEqProofs (maxDischargeDepth := 40) [h])
theorem keep_execBrownOutEnd (mv : Nat) (s : State) (h : s.Inv) : Keeps (execBrownOutEnd mv s) := by
  unfold execBrownOutEnd; try dsimp only
  first
    | (simp (maxDischargeDepth := 40) -implicitDefEqProofs [h]; done)
    | ((repeat' split) <;> first | exact h | simp -implicitDefEqProofs (maxDischargeDepth := 40) [h])
@[simp] theorem keep_inputFault (s : State) (h : s.Inv) : (s.inputFault).Inv := by
  unfold State.inputFault; try dsimp only
  first
    | (simp (maxDischargeDepth := 40) -implicitDefEqProofs [h]; done)
    | ((repeat' split) <;> first | exact h | simp -implicitDefEqProofs (maxDischargeDepth := 40) [h])
theorem keep_execInputUndervoltage (mv : Nat) (s : State) (h : s.Inv) : Keeps (execInputUndervoltage mv s) := by
  unfold execInputUndervoltage; try dsimp only
  first
    | (simp (maxDischargeDepth := 40) -implicitDefEqProofs [h]; done)
    | ((repeat' split) <;> first | exact h | simp -implicitDefEqProofs (maxDischargeDepth := 40) [h])
theorem keep_execInputOvervoltage (mv : Nat) (s : State) (h : s.Inv) : Keeps (execInputOvervoltage mv s) := by
  unfold execInputOvervoltage; try dsimp only
  first
    | (simp (maxDischargeDepth := 40) -implicitDefEqProofs [h]; done)
    | ((repeat' split) <;> first | exact h | simp -implicitDefEqProofs (maxDischargeDepth := 40) [h])
theorem keep_execInputRecovery (mv : Nat) (s : State) (h : s.Inv) : Keeps (execInputRecovery mv s) := by
  unfold execInputRecovery; try dsimp only
  first
    | (simp (maxDischargeDepth := 40) -implicitDefEqProofs [h]; done)
    | ((repeat' split) <;> first | exact h | simp -implicitDefEqProofs (maxDischargeDepth := 40) [h])
theorem keep_execPowerAverage (watts mv : Nat) (s : State) (h : s.Inv) : Keeps (execPowerAverage watts mv s) := by
  unfold execPowerAverage; try dsimp only
  first
    | (simp (maxDischargeDepth := 40) -implicitDefEqProofs [h]; done)
    | ((repeat' split) <;> first | exact h | simp -implicitDefEqProofs (maxDischargeDepth := 40) [h])
theorem keep_eachPc (s : State) (f : Pacing → Pacing) (h : s.Inv) :
    ((List.finRange 64).foldl (fun s c => s.modCl c (fun k => { k with pc := f k.pc })) s).Inv :=
  keep_foldl _ _ (fun s c h => by simp -implicitDefEqProofs (maxDischargeDepth := 40) [h]) _ h
theorem keep_execShedRound (s : State) (h : s.Inv) : Keeps (execShedRound s) := by
  unfold execShedRound; dsimp only
  refine keeps_ite _ _ _ ((keeps_next _).2 h) ?_
  have h1 : ((s.reach (s.com.pw.polls.2.1 + 100 * micro)).modPw (fun p => { p with polls := (p.polls.1, (s.reach (s.com.pw.polls.2.1 + 100 * micro)).now, p.polls.2.2) })).Inv := by simp -implicitDefEqProofs (maxDischargeDepth := 40) [h]
  refine keeps_ite _ _ _ ((keeps_next _).2 (keep_applyAll _ (keep_eachPc _ _ h1))) (keeps_ite _ _ _ (keeps_ite _ _ _ ?_ ?_) ((keeps_next _).2 h1))
  · exact (keeps_next _).2 (keep_applyAll _ (keep_eachPc _ _ h1))
  · exact (keeps_next _).2 (keep_applyAll _ (keep_modPw _ _ h1 h1.com.rail))
theorem keep_execHardwareLimit (watts : Nat) (s : State) (h : s.Inv) : Keeps (execHardwareLimit watts s) := by
  unfold execHardwareLimit; try dsimp only
  first
    | (simp (maxDischargeDepth := 40) -implicitDefEqProofs [h]; done)
    | ((repeat' split) <;> first | exact h | simp -implicitDefEqProofs (maxDischargeDepth := 40) [h])
theorem keep_execHeartbeatLapse (s : State) (h : s.Inv) : Keeps (execHeartbeatLapse s) := by
  unfold execHeartbeatLapse
  exact keeps_ite _ _ _ ((keeps_next _).2 h) ((keeps_next _).2 (keep_foldl _ _ (fun s c h => by simp -implicitDefEqProofs (maxDischargeDepth := 40) [h]) _ (by simp -implicitDefEqProofs (maxDischargeDepth := 40) [h])))
@[simp] theorem keep_readJunction (s : State) (c : Fin 64) (t : Int) (h : s.Inv) : (s.readJunction c t).Inv := by
  unfold State.readJunction; try dsimp only
  first
    | (simp (maxDischargeDepth := 40) -implicitDefEqProofs [h]; done)
    | ((repeat' split) <;> first | exact h | simp -implicitDefEqProofs (maxDischargeDepth := 40) [h])
theorem keep_execSensorRead (quarterC : List Int) (boardQuarterC : Int) (s : State) (h : s.Inv) : Keeps (execSensorRead quarterC boardQuarterC s) := by
  unfold execSensorRead; dsimp only
  refine keeps_ite _ _ _ ((keeps_next _).2 h) ?_
  have h1 : ((s.reach (s.com.pw.polls.2.2.2 + 100 * micro)).modPw (fun p => { p with polls := (p.polls.1, p.polls.2.1, p.polls.2.2.1, (s.reach (s.com.pw.polls.2.2.2 + 100 * micro)).now) })).Inv := by simp -implicitDefEqProofs (maxDischargeDepth := 40) [h]
  have h2 := keep_foldl (fun (s : State) (ct : Fin 64 × Int) => s.readJunction ct.1 ct.2) ((List.finRange 64).zip quarterC) (fun s x h => keep_readJunction _ _ _ h) _ h1
  have h3 := keep_modPw _ (fun p => { p with tBoard := boardQuarterC, feedTemp := quarterC.drop 64, measured := true }) h2 h2.com.rail
  split
  · exact (keeps_next _).2 h3
  · exact (keeps_next _).2 (keep_setLevel _ _ _ _ _ h3)
theorem keep_execThermalTrip (sensor : Nat) (s : State) (h : s.Inv) : Keeps (execThermalTrip sensor s) := by
  unfold execThermalTrip; try dsimp only
  first
    | (simp (maxDischargeDepth := 40) -implicitDefEqProofs [h]; done)
    | ((repeat' split) <;> first | exact h | simp -implicitDefEqProofs (maxDischargeDepth := 40) [h])
theorem keep_execClockLoss (s : State) (h : s.Inv) : Keeps (execClockLoss s) := by
  unfold execClockLoss; try dsimp only
  first
    | (simp (maxDischargeDepth := 40) -implicitDefEqProofs [h]; done)
    | ((repeat' split) <;> first | exact h | simp -implicitDefEqProofs (maxDischargeDepth := 40) [h])
theorem keep_execClockReturn (s : State) (h : s.Inv) : Keeps (execClockReturn s) := by
  unfold execClockReturn; dsimp only
  refine keeps_ite _ _ _ ((keeps_next _).2 (keep_modMgmt _ _ ?_ ?_ ?_)) ((keeps_next _).2 h)
  all_goals
    have h1 : ([0, 1].foldl (fun (s : State) (fp : Fin 2) => s.modFeed fp (fun k => { k with
      up := false, downSince := if k.up then some s.now else k.downSince })) ((List.finRange 32).foldl (fun s p => s.modPort p (fun k => k.retrain s.now)) (s.modPw (fun p => { p with clockLost := none })))).Inv :=
      keep_foldl _ _ (fun s x h => by simp -implicitDefEqProofs (maxDischargeDepth := 40) [h]) _ (keep_foldl _ _ (fun s x h => keep_modPort _ _ _ h ⟨(inv_port h x).replay⟩) _ (by simp -implicitDefEqProofs (maxDischargeDepth := 40) [h]))
  · exact h1
  · exact h1.com.sessions
  · exact h1.com.reports
theorem keep_execClockLossTimeout (s : State) (h : s.Inv) : Keeps (execClockLossTimeout s) := by
  unfold execClockLossTimeout; try dsimp only
  first
    | (simp (maxDischargeDepth := 40) -implicitDefEqProofs [h]; done)
    | ((repeat' split) <;> first | exact h | simp -implicitDefEqProofs (maxDischargeDepth := 40) [h])

end Sys2Proof.Machine
end

