-- ==== Sys2Proof/Laws/KeepSample.lean ====
section
/-! SUPPORT. The invariant under the sample pipeline and the media units. -/
namespace Sys2Proof.Machine

@[simp] theorem keep_modPipe (s : State) (hi : Fin 4) (f : Pipeline → Pipeline) (h : s.Inv) : (s.modPipe hi f).Inv := by
  unfold State.modPipe; try dsimp only
  first
    | (simp (maxDischargeDepth := 40) -implicitDefEqProofs [h]; done)
    | ((repeat' split) <;> first | exact h | simp -implicitDefEqProofs (maxDischargeDepth := 40) [h])
@[simp] theorem keep_modSample (s : State) (hi : Fin 4) (i : Nat) (f : Sample → Sample) (h : s.Inv) : (s.modSample hi i f).Inv := by
  unfold State.modSample; try dsimp only
  first
    | (simp (maxDischargeDepth := 40) -implicitDefEqProofs [h]; done)
    | ((repeat' split) <;> first | exact h | simp -implicitDefEqProofs (maxDischargeDepth := 40) [h])
@[simp] theorem keep_putQp (s : State) (hi : Fin 4) (q : Qp) (h : s.Inv) : (s.putQp hi q).Inv := by
  unfold State.putQp; try dsimp only
  first
    | (simp (maxDischargeDepth := 40) -implicitDefEqProofs [h]; done)
    | ((repeat' split) <;> first | exact h | simp -implicitDefEqProofs (maxDischargeDepth := 40) [h])
@[simp] theorem keep_sendRead (s : State) (hi : Fin 4) (p : Program) (q : Qp) (r : Read) (h : s.Inv) : (s.sendRead hi p q r).Inv := by
  unfold State.sendRead; try dsimp only
  first
    | (simp (maxDischargeDepth := 40) -implicitDefEqProofs [h]; done)
    | ((repeat' split) <;> first | exact h | simp -implicitDefEqProofs (maxDischargeDepth := 40) [h])
@[simp] theorem keep_pumpQp (hi : Fin 4) (p : Program) (port server n : Nat) (s : State) (h : s.Inv) : (State.pumpQp hi p port server n s).Inv := by
  induction n generalizing s with
  | zero => exact h
  | succ n ih =>
    unfold State.pumpQp; dsimp only
    split
    · exact h
    · refine keep_ite _ _ _ h ?_
      split
      · exact h
      · exact ih _ (by simp -implicitDefEqProofs (maxDischargeDepth := 40) [h])
@[simp] theorem keep_addRead (s : State) (hi : Fin 4) (p : Program) (server : Nat) (r : Read) (h : s.Inv) : (s.addRead hi p server r).Inv := by
  unfold State.addRead; dsimp only
  exact keep_ite _ _ _ (by simp -implicitDefEqProofs (maxDischargeDepth := 40) [h]) (by simp -implicitDefEqProofs (maxDischargeDepth := 40) [h])
@[simp] theorem keep_moveReads (s : State) (hi : Fin 4) (p : Program) (port server : Nat) (h : s.Inv) : (s.moveReads hi p port server).Inv := by
  unfold State.moveReads; dsimp only
  exact keep_ite _ _ _ h (keep_foldl _ _ (fun s x h => keep_addRead _ _ _ _ _ h) _ (by simp -implicitDefEqProofs (maxDischargeDepth := 40) [h]))
@[simp] theorem keep_settleReads (s : State) (hi : Fin 4) (p : Program) (h : s.Inv) : (s.settleReads hi p).Inv := by
  unfold State.settleReads; dsimp only
  refine keep_foldl _ _ (fun s x h => ?_) _ h
  exact keep_ite _ _ _ (keep_pumpQp _ _ _ _ _ _ (keep_moveReads _ _ _ _ _ h)) (keep_moveReads _ _ _ _ _ h)
@[simp] theorem keep_sampleReady (s : State) (hi : Fin 4) (p : Program) (i : Nat) (h : s.Inv) : (s.sampleReady hi p i).Inv := by
  unfold State.sampleReady; try dsimp only
  first
    | (simp (maxDischargeDepth := 40) -implicitDefEqProofs [h]; done)
    | ((repeat' split) <;> first | exact h | simp -implicitDefEqProofs (maxDischargeDepth := 40) [h])
@[simp] theorem keep_clearSlots (s : State) (u : Nat) (h : s.Inv) : (s.clearSlots u).Inv := by
  unfold State.clearSlots; try dsimp only
  first
    | (simp (maxDischargeDepth := 40) -implicitDefEqProofs [h]; done)
    | ((repeat' split) <;> first | exact h | simp -implicitDefEqProofs (maxDischargeDepth := 40) [h])
@[simp] theorem keep_reject (s : State) (hi : Fin 4) (p : Program) (i reason : Nat) (h : s.Inv) : (s.reject hi p i reason).Inv := by
  unfold State.reject; dsimp only
  exact keep_sampleReady _ _ _ _ (keep_modSample _ _ _ _ (keep_bump _ _ _ _ _ (keep_foldl _ _ (fun s x h => keep_clearSlots _ _ h) _ h)))
@[simp] theorem keep_modPart (s : State) (hi : Fin 4) (i n : Nat) (f : PartSt → PartSt) (h : s.Inv) : (s.modPart hi i n f).Inv := by
  unfold State.modPart; try dsimp only
  first
    | (simp (maxDischargeDepth := 40) -implicitDefEqProofs [h]; done)
    | ((repeat' split) <;> first | exact h | simp -implicitDefEqProofs (maxDischargeDepth := 40) [h])
@[simp] theorem keep_onMedia (s : State) (u : Nat) (f : MediaUnit → MediaUnit) (h : s.Inv) : (s.onMedia u f).Inv := by
  unfold State.onMedia; split
  · exact keep_modMedia _ _ _ h
  · exact h
@[simp] theorem keep_openStill (s : State) (q : PartSt) (u : Nat) (h : s.Inv) : (s.openStill q u).Inv := by
  unfold State.openStill; exact keep_ite _ _ _ (keep_onMedia _ _ _ h) h
@[simp] theorem keep_mediaTime (s : State) (u : Nat) (h : s.Inv) : (s.mediaTime u).Inv := by
  unfold State.mediaTime
  exact keep_ite _ _ _ (keep_useFree _ (keep_useFree _ (keep_bump _ _ _ _ _ (keep_bump _ _ _ _ _ h)))) h
@[simp] theorem keep_engineWrite (s : State) (hi : Fin 4) (a : Nat) (bs : Bytes) (h : s.Inv) : (s.engineWrite hi a bs).Inv := by
  unfold State.engineWrite; simp -implicitDefEqProofs (maxDischargeDepth := 40) [h]
@[simp] theorem keep_assign (s : State) (hi : Fin 4) (h : s.Inv) : (s.assign hi).Inv := by
  unfold State.assign; dsimp only
  refine (fun (h1 : State.Inv _) => keep_ite _ _ _ (keep_request _ _ _ _ h1) h1) ?_
  refine keep_foldl _ _ (fun s x h => ?_) _ h
  split <;> simp -implicitDefEqProofs (maxDischargeDepth := 40) [h]
@[simp] theorem keep_assignAll (s : State) (h : s.Inv) : (s.assignAll).Inv := by
  unfold State.assignAll
  exact keep_foldl _ _ (fun s hi h => keep_assign _ _ h) _ h
@[simp] theorem keep_abandonUnit (s : State) (u : Nat) (failed : Bool) (h : s.Inv) : (s.abandonUnit u failed).Inv := by
  unfold State.abandonUnit; dsimp only
  exact keep_foldl _ _ (fun s hi h => by simp -implicitDefEqProofs (maxDischargeDepth := 40) [h]) _ (by simp -implicitDefEqProofs (maxDischargeDepth := 40) [h])
theorem keep_encMap (s : State) (g : EncReq → EncReq) (h : s.Inv) : ((List.finRange 64).foldl (fun (s : State) c => s.modCl c (fun k =>
      { k with core := { k.core with encs := k.core.encs.map g } })) s).Inv :=
  keep_foldl _ _ (fun s c h => by simp -implicitDefEqProofs (maxDischargeDepth := 40) [h]) _ h
@[simp] theorem keep_retireMedia (s : State) (f : Fin 22) (h : s.Inv) : (s.retireMedia f).Inv := by
  unfold State.retireMedia; dsimp only
  have h1 := keep_modMedia _ f (fun m => { m with retired := true }) (keep_abandonUnit s f.val false h)
  exact keep_ite _ _ _ h (keep_noteRetired _ _ _ _ (keep_ite _ _ _ h1 (keep_encMap _ _ h1)))
@[simp] theorem keep_chargeMedia (s : State) (f : Fin 22) (thrice : Bool) (h : s.Inv) : (s.chargeMedia f thrice).Inv := by
  unfold State.chargeMedia; dsimp only
  exact keep_ite _ _ _ (by simp -implicitDefEqProofs (maxDischargeDepth := 40) [h]) (by simp -implicitDefEqProofs (maxDischargeDepth := 40) [h])
theorem keep_execMediaWatchdog (f : Fin 22) (why : UnitFault) (s : State) (h : s.Inv) : Keeps (execMediaWatchdog f why s) := by
  unfold execMediaWatchdog; dsimp only
  have h0 : (match why with
      | .stuck => s.reach (s.now + 100 * milli)
      | .check => s).Inv := by split <;> simp -implicitDefEqProofs (maxDischargeDepth := 40) [h]
  have h1 := keep_abandonUnit _ f.val true h0
  exact keeps_ite _ _ _ ((keeps_next _).2 h) ((keeps_next _).2 (keep_assignAll _ (keep_chargeMedia _ _ _ (keep_ite _ _ _ h1 (keep_encMap _ _ h1)))))
@[simp] theorem keep_placeSample (s : State) (hi : Fin 4) (p : Program) (x : Sample) (h : s.Inv) : (s.placeSample hi p x).1.Inv := by
  unfold State.placeSample; dsimp only
  split
  · exact h
  · split
    · exact h
    · split
      · exact h
      · split
        · simp -implicitDefEqProofs (maxDischargeDepth := 40) [h]
        · split <;> simp -implicitDefEqProofs (maxDischargeDepth := 40) [h]
  · exact h
@[simp] theorem keep_writeParts (s : State) (hi : Fin 4) (p : Program) (x : Sample) (off : Nat) (h : s.Inv) : (s.writeParts hi p x off).Inv := by
  unfold State.writeParts; dsimp only
  exact keep_modSample _ _ _ _ (keep_foldl _ _ (fun s w h => keep_engineWrite _ _ _ _ h) _ h)
@[simp] theorem keep_settleSamples (s : State) (hi : Fin 4) (p : Program) (h : s.Inv) : (s.settleSamples hi p).Inv := by
  unfold State.settleSamples; dsimp only
  have h1 : ∀ (l : List Sample) (a : State × Bool), a.1.Inv →
      (l.foldl (fun (a : State × Bool) x => if a.2 then a.1.placeSample hi p x else a) a).1.Inv := by
    intro l
    induction l with
    | nil => exact fun a ha => ha
    | cons x l ih =>
      intro a ha
      rw [List.foldl_cons]
      refine ih _ ?_
      cases a.2
      · exact ha
      · exact keep_placeSample _ _ _ _ ha
  refine keep_foldl _ _ (fun s x h => ?_) _ (h1 _ _ h)
  split
  · exact keep_ite _ _ _ (by simp -implicitDefEqProofs (maxDischargeDepth := 40) [h]) h
  · exact h
@[simp] theorem keep_afterPart (s : State) (hi : Fin 4) (p : Program) (h : s.Inv) : (s.afterPart hi p).Inv := by
  unfold State.afterPart
  exact keep_refreshHeld _ _ (keep_assign _ _ (keep_settleSamples _ _ _ h))
@[simp] theorem keep_releaseRecord (s : State) (hi : Fin 4) (i : Nat) (h : s.Inv) : (s.releaseRecord hi i).Inv := by
  unfold State.releaseRecord; exact keep_modSample _ _ _ _ h
@[simp] theorem keep_chargeFirst (s : State) (q : PartSt) (h : s.Inv) : (s.chargeFirst q).Inv := by
  unfold State.chargeFirst; split
  · exact keep_chargeMedia _ _ _ h
  · exact h
@[simp] theorem keep_readSlot (s : State) (hi : Fin 4) (p : Program) (i n u bytes k : Nat) (h : s.Inv) : (s.readSlot hi p i n u bytes k).Inv := by
  unfold State.readSlot
  split
  · split
    · exact keep_modPart _ _ _ _ _ (keep_onMedia _ _ _ h)
    · exact h
  · exact h
@[simp] theorem keep_readSlots (s : State) (hi : Fin 4) (p : Program) (i n u : Nat) (q : PartSt) (h : s.Inv) : (s.readSlots hi p i n u q).Inv := by
  unfold State.readSlots
  exact keep_foldl _ _ (fun s k h => keep_readSlot _ _ _ _ _ _ _ _ h) _ h
@[simp] theorem keep_fillSlot (s : State) (hi : Fin 4) (p : Program) (u : Nat) (v : VideoPlan) (l : List Nat) (h : s.Inv) :
    (s.fillSlot hi p u v l).Inv := by
  unfold State.fillSlot; exact keep_onMedia _ _ _ (keep_engineWrite _ _ _ _ h)
@[simp] theorem keep_bitstreamError (s : State) (hi : Fin 4) (p : Program) (i n : Nat) (q : PartSt) (u : Nat) (h : s.Inv) : (s.bitstreamError hi p i n q u).Inv := by
  unfold State.bitstreamError
  exact keep_ite _ _ _ (keep_afterPart _ _ _ (keep_reject _ _ _ _ _ h)) (keep_afterPart _ _ _ (keep_modPart _ _ _ _ _ (keep_clearSlots _ _ h)))
@[simp] theorem keep_partRefused (s : State) (hi : Fin 4) (p : Program) (i n : Nat) (q : PartSt) (u reason : Nat) (h : s.Inv) : (s.partRefused hi p i n q u reason).Inv := by
  unfold State.partRefused
  exact keep_ite _ _ _ (keep_bitstreamError _ _ _ _ _ _ _ h) (keep_afterPart _ _ _ (keep_chargeFirst _ _ (keep_reject _ _ _ _ _ h)))
theorem keep_execSurvey (hi : Fin 4) (i n : Nat) (out : SurveyOut) (s : State) (h : s.Inv) : Keeps (execSurvey hi i n out s) := by
  unfold execSurvey; dsimp only
  split
  · rename_i u x _ _
    refine keeps_ite _ _ _ ((keeps_next _).2 h) ?_
    have h1 := keep_mediaTime s u h
    split
    · exact (keeps_next _).2 (keep_partRefused _ _ _ _ _ _ _ _ h1)
    · refine keeps_ite _ _ _ ((keeps_next _).2 h) ?_
      split
      · exact (keeps_next _).2 (keep_partRefused _ _ _ _ _ _ _ _ h1)
      · have h2 : ∀ t : State, t.Inv → ∀ (v : Option (List Nat)) (p : Program) (w : VideoPlan), (match v with
            | some names => t.fillSlot hi p u w names
            | none => t).Inv := by
          intro t ht v p w; cases v
          · exact ht
          · exact keep_fillSlot _ _ _ _ _ _ ht
        exact (keeps_next _).2 (keep_settleSamples _ _ _ (keep_modPart _ _ _ _ _ (keep_onMedia _ _ _ (keep_useFree _ (h2 _ (keep_onMedia _ _ _ h1) _ _ _)))))
  · exact (keeps_next _).2 h
theorem keep_execPictureDecoded (pair : Fin 8) (read : List Nat) (planes : Option Planes) (s : State) (h : s.Inv) :
    Keeps (execPictureDecoded pair read planes s) := by
  unfold execPictureDecoded; dsimp only
  refine keeps_ite _ _ _ (keeps_fault _) ?_
  split
  · exact (keeps_next _).2 h
  · rename_i hi i n _
    split
    · rename_i p q u f _ _
      have h0 := keep_mediaTime s u h
      split
      · exact (keeps_next _).2 (keep_bitstreamError _ _ _ _ _ _ _ h0)
      · have h1 := fun bytes => keep_foldl (fun s k => s.readSlot hi p i n u bytes k) read (fun s k h => keep_readSlot _ _ _ _ _ _ _ _ h) _ h0
        split
        · exact keeps_ite _ _ _ ((keeps_next _).2 (h1 _))
            ((keeps_next _).2 (keep_modPart _ _ _ _ _ (keep_useFree _ (keep_modMedia _ _ _ (keep_engineWrite _ _ _ _ (h1 _))))))
        · exact (keeps_next _).2 (keep_modMedia _ _ _ (h1 _))
        · exact (keeps_next _).2 (h1 _)
    · exact (keeps_next _).2 h
theorem keep_execPartDecoded (hi : Fin 4) (i n : Nat) (out : Decoded) (s : State) (h : s.Inv) : Keeps (execPartDecoded hi i n out s) := by
  unfold execPartDecoded; dsimp only
  refine keeps_ite _ _ _ (keeps_fault _) ?_
  split
  · rename_i p q u x _ _
    split
    · exact (keeps_next _).2 h
    · exact (keeps_next _).2 (keep_partRefused _ _ _ _ _ _ _ _ h)
    · refine (keeps_next _).2 (keep_afterPart _ _ _ (keep_releaseRecord _ _ _ (keep_modPart _ _ _ _ _ (keep_clearSlots _ _ (keep_chargeFirst _ _ ?_)))))
      exact keep_ite _ _ _ h (keep_mediaTime _ _ (keep_bump _ _ _ _ _ (keep_bump _ _ _ _ _ h)))
  · exact (keeps_next _).2 h
@[simp] theorem keep_fetchRecord (s : State) (hi : Fin 4) (p : Program) (x : Sample) (h : s.Inv) : (s.fetchRecord hi p x).Inv := by
  unfold State.fetchRecord; dsimp only
  exact keep_foldl _ _ (fun s x h => keep_addRead _ _ _ _ _ h) _ h
@[simp] theorem keep_startRecord (s : State) (hi : Fin 4) (p : Program) (h : s.Inv) : (s.startRecord hi p).Inv := by
  unfold State.startRecord; dsimp only
  split
  · exact h
  · refine keep_ite _ _ _ h ?_
    split
    · exact h
    · exact keep_fetchRecord _ _ _ _ (keep_modSample _ _ _ _ (keep_modPipe _ _ _ h))
@[simp] theorem keep_startEntry (s : State) (hi : Fin 4) (p : Program) (h : s.Inv) : (s.startEntry hi p).Inv := by
  unfold State.startEntry; dsimp only
  split
  · exact h
  · exact keep_addRead _ _ _ _ _ (keep_modPipe _ _ _ h)
theorem keep_execSampleFetch (hi : Fin 4) (s : State) (h : s.Inv) : Keeps (execSampleFetch hi s) := by
  unfold execSampleFetch
  split
  · exact keeps_ite _ _ _ ((keeps_next _).2 (keep_settleSamples _ _ _ (keep_startEntry _ _ _ (keep_startRecord _ _ _ (keep_settleReads _ _ _ h))))) ((keeps_next _).2 h)
  · exact (keeps_next _).2 h
@[simp] theorem keep_onEntry (s : State) (hi : Fin 4) (p : Program) (i : Nat) (data : Bytes) (h : s.Inv) : (s.onEntry hi p i data).Inv := by
  unfold State.onEntry; dsimp only
  split
  · simp -implicitDefEqProofs (maxDischargeDepth := 40) [h]
  · exact keep_ite _ _ _ (by simp -implicitDefEqProofs (maxDischargeDepth := 40) [h]) (by simp -implicitDefEqProofs (maxDischargeDepth := 40) [h])
@[simp] theorem keep_onRecord (s : State) (hi : Fin 4) (p : Program) (i off : Nat) (data : Bytes) (h : s.Inv) : (s.onRecord hi p i off data).Inv := by
  unfold State.onRecord; dsimp only
  have h1 : ∀ (b : Nat) (po : Nat → Bool), (s.modHeat hi (fun h => { h with mem := h.mem.put b data, poison := h.poison.filter po })).Inv := by
    intro b po; simp -implicitDefEqProofs (maxDischargeDepth := 40) [h]
  exact keep_ite _ _ _ (h1 _ _) (keep_modSample _ _ _ _ (h1 _ _))
@[simp] theorem keep_retireFeed (s : State) (fp : Fin 2) (h : s.Inv) : (s.retireFeed fp).Inv := by
  unfold State.retireFeed; dsimp only
  refine keep_ite _ _ _ h (keep_foldl _ _ (fun s x h => ?_) _ (by simp -implicitDefEqProofs (maxDischargeDepth := 40) [h]))
  split <;> simp -implicitDefEqProofs (maxDischargeDepth := 40) [h]
@[simp] theorem keep_chargeFeed (s : State) (fp : Fin 2) (thrice : Bool) (h : s.Inv) : (s.chargeFeed fp thrice).Inv := by
  unfold State.chargeFeed; dsimp only
  exact keep_ite _ _ _ h (keep_ite _ _ _ (by simp -implicitDefEqProofs (maxDischargeDepth := 40) [h]) (by simp -implicitDefEqProofs (maxDischargeDepth := 40) [h]))
@[simp] theorem keep_badFrame (s : State) (hi : Fin 4) (fp : Fin 2) (server : Nat) (f : FrameFault) (h : s.Inv) : (s.badFrame hi fp server f).Inv := by
  unfold State.badFrame; dsimp only
  have h1 := fun c d => keep_ite (d := d) c _ _ (keep_bump s 5 fp.val 4 1 h) h
  split
  · exact keep_chargeFeed _ _ _ (keep_putQp _ _ _ (h1 _ _))
  · exact keep_chargeFeed _ _ _ (h1 _ _)
theorem keep_execRdmaReadResponse (hi : Fin 4) (fp : Fin 2) (server : Fin 64) (data : Bytes) (nak : Bool) (bad : Option FrameFault) (s : State) (h : s.Inv) :
    Keeps (execRdmaReadResponse hi fp server data nak bad s) := by
  unfold execRdmaReadResponse; try dsimp only
  first
    | (simp (maxDischargeDepth := 40) -implicitDefEqProofs [h]; done)
    | ((repeat' split) <;> first | exact h | simp -implicitDefEqProofs (maxDischargeDepth := 40) [h])
theorem keep_execRecordLanded (hi : Fin 4) (i : Nat) (s : State) (h : s.Inv) : Keeps (execRecordLanded hi i s) := by
  unfold execRecordLanded; try dsimp only
  first
    | (simp (maxDischargeDepth := 40) -implicitDefEqProofs [h]; done)
    | ((repeat' split) <;> first | exact h | simp -implicitDefEqProofs (maxDischargeDepth := 40) [h])
@[simp] theorem keep_failQp (s : State) (hi : Fin 4) (p : Program) (q : Qp) (h : s.Inv) : (s.failQp hi p q).Inv := by
  unfold State.failQp
  simp -implicitDefEqProofs (maxDischargeDepth := 40) [h]
theorem keep_execAckTimeout (hi : Fin 4) (fp : Fin 2) (server : Fin 64) (s : State) (h : s.Inv) : Keeps (execAckTimeout hi fp server s) := by
  unfold execAckTimeout; try dsimp only
  first
    | (simp (maxDischargeDepth := 40) -implicitDefEqProofs [h]; done)
    | ((repeat' split) <;> first | exact h | simp -implicitDefEqProofs (maxDischargeDepth := 40) [h])
theorem keep_execNakRetry (hi : Fin 4) (fp : Fin 2) (server : Fin 64) (s : State) (h : s.Inv) : Keeps (execNakRetry hi fp server s) := by
  unfold execNakRetry; try dsimp only
  first
    | (simp (maxDischargeDepth := 40) -implicitDefEqProofs [h]; done)
    | ((repeat' split) <;> first | exact h | simp -implicitDefEqProofs (maxDischargeDepth := 40) [h])
theorem keep_execCePacket (hi : Fin 4) (fp : Fin 2) (server : Fin 64) (s : State) (h : s.Inv) : Keeps (execCePacket hi fp server s) := by
  unfold execCePacket; try dsimp only
  first
    | (simp (maxDischargeDepth := 40) -implicitDefEqProofs [h]; done)
    | ((repeat' split) <;> first | exact h | simp -implicitDefEqProofs (maxDischargeDepth := 40) [h])
theorem keep_execCnpReceived (hi : Fin 4) (fp : Fin 2) (server : Fin 64) (s : State) (h : s.Inv) : Keeps (execCnpReceived hi fp server s) := by
  unfold execCnpReceived; try dsimp only
  first
    | (simp (maxDischargeDepth := 40) -implicitDefEqProofs [h]; done)
    | ((repeat' split) <;> first | exact h | simp -implicitDefEqProofs (maxDischargeDepth := 40) [h])
theorem keep_execRateRecovery (hi : Fin 4) (fp : Fin 2) (server : Fin 64) (s : State) (h : s.Inv) : Keeps (execRateRecovery hi fp server s) := by
  unfold execRateRecovery; try dsimp only
  first
    | (simp (maxDischargeDepth := 40) -implicitDefEqProofs [h]; done)
    | ((repeat' split) <;> first | exact h | simp -implicitDefEqProofs (maxDischargeDepth := 40) [h])
theorem keep_execArpRequest (fp : Fin 2) (target : Bytes) (s : State) (h : s.Inv) : Keeps (execArpRequest fp target s) := by
  unfold execArpRequest; try dsimp only
  first
    | (simp (maxDischargeDepth := 40) -implicitDefEqProofs [h]; done)
    | ((repeat' split) <;> first | exact h | simp -implicitDefEqProofs (maxDischargeDepth := 40) [h])
theorem keep_execNeighborSolicitation (fp : Fin 2) (target : Bytes) (s : State) (h : s.Inv) : Keeps (execNeighborSolicitation fp target s) := by
  unfold execNeighborSolicitation; try dsimp only
  first
    | (simp (maxDischargeDepth := 40) -implicitDefEqProofs [h]; done)
    | ((repeat' split) <;> first | exact h | simp -implicitDefEqProofs (maxDischargeDepth := 40) [h])
theorem keep_execFeedPortLinkDown (fp : Fin 2) (s : State) (h : s.Inv) : Keeps (execFeedPortLinkDown fp s) := by
  unfold execFeedPortLinkDown; try dsimp only
  first
    | (simp (maxDischargeDepth := 40) -implicitDefEqProofs [h]; done)
    | ((repeat' split) <;> first | exact h | simp -implicitDefEqProofs (maxDischargeDepth := 40) [h])
@[simp] theorem keep_postSample (s : State) (hi : Fin 4) (k i : Nat) (h : s.Inv) : (s.postSample hi k i).Inv := by
  unfold State.postSample; dsimp only
  split
  · exact h
  · rename_i c _
    have h1 : ∀ (o : Option (Fin 64)) (a : Nat) (bs : Bytes), (match o with
      | some cl => s.modCl cl (fun t => { t with store := t.store.put a bs })
      | none => s).Inv := by
      intro o a bs; split <;> simp -implicitDefEqProofs (maxDischargeDepth := 40) [h]
    have h2' := h1
    have h3 : ∀ (u : State) (n : Nat) (f : Chan → Chan) (g : Pipeline → Pipeline), u.Inv →
        (u.modHeat hi (fun h => { h.modChan n f with pipe := g h.pipe })).Inv := by
      intro u n f g hu
      have hk := keep_heatChan (u.heat hi) n f (inv_heat hu hi)
      exact keep_modHeat _ _ _ hu ⟨hk.mem, hk.scratch, hk.staging, hk.tok⟩
    have h4 := fun o a bs => h3 _ ((List.filter (fun c => c.def_.prod.isSome) (s.heat hi).chans).length + k) (fun c => { c with posted := c.posted + 1 })
      (fun p => { p with sent := p.sent.modify k (· + 1) }) (h2' o a bs)
    exact keep_ite _ _ _ (keep_bump _ _ _ _ _ (keep_modSample _ _ _ _ (h4 _ _ _))) (h4 _ _ _)
theorem keep_execSamplePost (hi : Fin 4) (s : State) (h : s.Inv) : Keeps (execSamplePost hi s) := by
  unfold execSamplePost; try dsimp only
  first
    | (simp (maxDischargeDepth := 40) -implicitDefEqProofs [h]; done)
    | ((repeat' split) <;> first | exact h | simp -implicitDefEqProofs (maxDischargeDepth := 40) [h])

end Sys2Proof.Machine
end

