-- ==== Sys2Proof/Laws/LinkFrame.lean ====
section
/-! SUPPORT. What sending the blocks of a SEND changes. -/
namespace Sys2Proof.Machine
/-- Blocks launched from one state to another: those awaited and those landed here are appended; the rest is as sending leaves it. -/
structure Launched (s t : State) (x : Site) (sent : List SentBlock) (ejected : List Ejected) : Prop where
  clusters : t.clusters = s.clusters
  heats : ∀ j, t.heat j = if j = x.h then { s.heat j with sent := (s.heat j).sent ++ sent, ejected := (s.heat j).ejected ++ ejected, hu := (s.heat j).hu.heldAs (t.heat j).hu }
    else { s.heat j with hu := (s.heat j).hu.heldAs (t.heat j).hu }
  ports : ∀ p, t.port p = (s.port p).sentAs (t.port p)
  com : t.com = { s.com with ctrs := t.com.ctrs }
  now : t.now = s.now
  pending : t.pending = s.pending
theorem Launched.refl (s : State) (x : Site) : Launched s s x [] [] :=
  ⟨rfl, fun j => by split <;> simp [Hurdle.heldAs], fun _ => rfl, rfl, rfl, rfl⟩
theorem Launched.trans {s t u : State} {x : Site} {a b : List SentBlock} {c d : List Ejected} (h : Launched s t x a c) (k : Launched t u x b d) :
    Launched s u x (a ++ b) (c ++ d) where
  clusters := k.clusters.trans h.clusters
  heats j := by
    rw [k.heats j, h.heats j]
    by_cases hj : j = x.h
    · simp only [if_pos hj, List.append_assoc]; rfl
    · simp only [if_neg hj]; rfl
  ports p := by rw [k.ports p, h.ports p]; rfl
  com := by rw [k.com, h.com]
  now := k.now.trans h.now
  pending := k.pending.trans h.pending
theorem Launched.hold {s t : State} (h : HoldOnly s t) (x : Site) : Launched s t x [] [] where
  clusters := h.clusters
  heats j := by rw [h.heats j]; split <;> simp [Hurdle.heldAs]
  ports := h.ports
  com := h.com
  now := h.now
  pending := h.pending
theorem launch_launched (s : State) (c : Fin 64) (x : Site) (e : QEntry) (cls tag : Nat) (copy : Bool) (b : Nat × Bytes) :
    Launched s (s.launch c x e cls tag copy b) x
      [⟨c.val, e.ord, fld e.raw 99 88, tag, bitAt e.raw 134, (s.heat x.h).epoch, b.1, b.2.length / 32⟩]
      (if fld e.raw 99 88 = (s.heat x.h).ownId then
        [⟨32, (s.heat x.h).ownId, tag, bitAt e.raw 134, if bitAt e.raw 134 then (s.heat x.h).hu.step % 2 else 0, (s.heat x.h).epoch, b.1, b.2⟩] else []) := by
  have h1 : Launched s (s.modHeat x.h (fun h => { h with
    sent := h.sent ++ [⟨c.val, e.ord, fld e.raw 99 88, tag, bitAt e.raw 134, h.epoch, b.1, b.2.length / 32⟩] })) x
      [⟨c.val, e.ord, fld e.raw 99 88, tag, bitAt e.raw 134, (s.heat x.h).epoch, b.1, b.2.length / 32⟩] [] := by
    refine ⟨rfl, fun j => ?_, fun _ => rfl, rfl, rfl, rfl⟩
    rw [State.heat_modHeat]
    by_cases hj : x.h = j
    · subst hj; rw [if_pos rfl, if_pos rfl]; simp [Hurdle.heldAs]
    · rw [if_neg hj, if_neg (Ne.symm hj)]; simp [Hurdle.heldAs]
  have heq : ∀ (l : List SentBlock) (m : List Ejected) (t u : State), Launched s t x l [] → Launched t u x [] m → Launched s u x l m := by
    intro l m t u h k
    have := h.trans k
    simpa using this
  unfold State.launch
  dsimp only
  split
  · rename_i hd
    refine heq _ _ _ _ h1 ?_
    have hv := h1.heats x.h
    rw [if_pos rfl] at hv
    generalize (s.modHeat x.h _) = v at hv ⊢
    have e1 : (v.heat x.h).ownId = (s.heat x.h).ownId := by rw [hv]; rfl
    have e2 : (v.heat x.h).epoch = (s.heat x.h).epoch := by rw [hv]; rfl
    refine ⟨rfl, fun j => ?_, fun _ => rfl, rfl, rfl, rfl⟩
    rw [State.heat_modHeat]
    by_cases hj : x.h = j
    · subst hj; rw [if_pos rfl, if_pos rfl]; simp [Hurdle.heldAs, e1, e2]
    · rw [if_neg hj, if_neg (Ne.symm hj)]; rfl
  · split
    · exact heq _ _ _ _ h1 (Launched.hold (holdOnly_bump _ _ _ _ _) x)
    · refine heq _ _ _ _ h1 (Launched.hold ?_ x)
      refine HoldOnly.trans ?_ (holdOnly_sendBlock _ _ _ _ _ _)
      exact holdOnly_ite _ (HoldOnly.refl _) (holdOnly_bump _ _ _ _ _)
theorem launches_launched (s : State) (c : Fin 64) (x : Site) (e : QEntry) (cls tag : Nat) (copy : Bool) (bs : List (Nat × Bytes)) :
    Launched s (bs.foldl (fun (s : State) b => s.launch c x e cls tag copy b) s) x
      (bs.map (fun b => ⟨c.val, e.ord, fld e.raw 99 88, tag, bitAt e.raw 134, (s.heat x.h).epoch, b.1, b.2.length / 32⟩))
      (if fld e.raw 99 88 = (s.heat x.h).ownId then
        bs.map (fun b => ⟨32, (s.heat x.h).ownId, tag, bitAt e.raw 134, if bitAt e.raw 134 then (s.heat x.h).hu.step % 2 else 0, (s.heat x.h).epoch, b.1, b.2⟩) else []) := by
  induction bs generalizing s with
  | nil => simpa using Launched.refl s x
  | cons b bs ih =>
    have h1 := launch_launched s c x e cls tag copy b
    have h2 := ih (s.launch c x e cls tag copy b)
    have hx := h1.heats x.h
    rw [if_pos rfl] at hx
    have e1 : ((s.launch c x e cls tag copy b).heat x.h).epoch = (s.heat x.h).epoch := by rw [hx]; rfl
    have e2 : ((s.launch c x e cls tag copy b).heat x.h).ownId = (s.heat x.h).ownId := by rw [hx]; rfl
    have e3 : ((s.launch c x e cls tag copy b).heat x.h).hu.step = (s.heat x.h).hu.step := by rw [hx]; rfl
    rw [e1, e2, e3] at h2
    have := h1.trans h2
    rw [List.foldl_cons, List.map_cons, List.map_cons]
    by_cases hd : fld e.raw 99 88 = (s.heat x.h).ownId
    · rw [if_pos hd] at this ⊢
      rw [if_pos hd] at this
      exact this
    · rw [if_neg hd] at this ⊢
      rw [if_neg hd] at this
      exact this

end Sys2Proof.Machine
end

