-- ==== Sys2Proof/Laws/PassFrame.lean ====
section
/-! SUPPORT. Passes over clusters, pacing of one cluster, and what a report changes. -/
namespace Sys2Proof.Machine
/-- What a pass over clusters leaves: the rest of the state but the counters. -/
structure PassOnly (s t : State) : Prop where
  heats : t.heats = s.heats
  ports : t.ports = s.ports
  com : t.com = { s.com with ctrs := t.com.ctrs }
  now : t.now = s.now
  pending : t.pending = s.pending
theorem PaceOnly.passOnly {s t : State} {c : Fin 64} (h : PaceOnly s t c) : PassOnly s t := ⟨h.heats, h.ports, h.com, h.now, h.pending⟩
theorem PassOnly.trans {s t u : State} (h : PassOnly s t) (k : PassOnly t u) : PassOnly s u :=
  ⟨k.heats.trans h.heats, k.ports.trans h.ports, by rw [k.com, h.com], k.now.trans h.now, k.pending.trans h.pending⟩
/-- A pass over clusters, each step of which concerns its own cluster. -/
theorem pace_fold (f : State → Fin 64 → State) (hf : ∀ s c, PaceOnly s (f s c) c) (l : List (Fin 64)) (s : State) (hn : l.Nodup) :
    PassOnly s (l.foldl f s) ∧ (∀ c, c ∉ l → (l.foldl f s).cl c = s.cl c) ∧
    ∀ c ∈ l, ∃ u, PassOnly s u ∧ u.cl c = s.cl c ∧ (l.foldl f s).cl c = (f u c).cl c := by
  induction l generalizing s with
  | nil => exact ⟨⟨rfl, rfl, rfl, rfl, rfl⟩, fun _ _ => rfl, by simp⟩
  | cons a l ih =>
    rw [List.foldl_cons]
    simp only [List.nodup_cons] at hn
    obtain ⟨h1, h2, h3⟩ := ih (f s a) hn.2
    have ha := hf s a
    refine ⟨ha.passOnly.trans h1, ?_, ?_⟩
    · intro c hc
      simp only [List.mem_cons, not_or] at hc
      rw [h2 c hc.2, ha.others c hc.1]
    · intro c hc
      rcases List.mem_cons.mp hc with h0 | hc'
      · subst h0; exact ⟨s, ⟨rfl, rfl, rfl, rfl, rfl⟩, rfl, h2 c hn.1⟩
      · obtain ⟨u, hu, hcl, he⟩ := h3 c hc'
        have hne : c ≠ a := fun e => hn.1 (e ▸ hc')
        exact ⟨u, ha.passOnly.trans hu, hcl.trans (ha.others c hne), he⟩
/-- A cluster whose exit from an idle state may begin: it sleeps, is not already being left, and is not power-gated. -/
abbrev Cluster.mayWake (k : Cluster) : Prop := k.pc.st.asleep = true ∧ (∀ a, k.pc.move ≠ .leaving a) ∧ k.retired = false
/-- Exit begins in an idle state that is not already being left. -/
theorem beginExit_eq (s : State) (c : Fin 64) : ((s.cl c).mayWake →
      s.beginExit c = s.modCl c (fun t => { t with pc := { t.pc with move := .leaving (s.now + t.pc.st.exit), exitAt := none } })) ∧
    (¬ (s.cl c).mayWake → s.beginExit c = s) := by
  have hm : (!match (s.cl c).pc.move with | .leaving _ => true | _ => false) = true ↔ ∀ a, (s.cl c).pc.move ≠ .leaving a := by
    cases (s.cl c).pc.move <;> simp
  have hb : ((s.cl c).pc.st.asleep && (!match (s.cl c).pc.move with | .leaving _ => true | _ => false) && !(s.cl c).retired) = true ↔
      (s.cl c).mayWake := by
    rw [Bool.and_eq_true, Bool.and_eq_true, hm, Bool.not_eq_true', and_assoc]
  exact ⟨fun h => if_pos (hb.mpr h), fun h => if_neg (fun hx => h (hb.mp hx))⟩
theorem paceOnly_beginExit (s : State) (c : Fin 64) : PaceOnly s (s.beginExit c) c := by
  by_cases h : (s.cl c).mayWake
  · rw [(beginExit_eq s c).1 h]
    exact paceOnly_mod s c (fun p => { p with move := .leaving (s.now + p.st.exit), exitAt := none }) (fun _ => rfl)
  · rw [(beginExit_eq s c).2 h]; exact PaceOnly.refl s c
theorem setpoint_com {s u : State} (h : u.com = { s.com with ctrs := u.com.ctrs }) (k : Pacing) :
    u.setpoint k = s.setpoint k ∧ u.heldMv k = s.heldMv k := by
  unfold State.setpoint State.heldMv State.pacingOn State.powerSetting
  rw [h]
  exact ⟨rfl, rfl⟩
/-- The supply a pass sets for a cluster in service: that of its work, or the one it sleeps at. -/
abbrev State.supplyMv (s : State) (k : Pacing) : Nat := if k.st.asleep then s.heldMv k else s.setpoint k
theorem applyPace_pc (s : State) (c : Fin 64) (hr : (s.cl c).retired = false) : ((s.applyPace c).cl c).pc.active = s.supplyMv (s.cl c).pc ∧
    ((s.applyPace c).cl c).pc.shed = (s.cl c).pc.shed ∧ ((s.applyPace c).cl c).pc.move = (s.cl c).pc.move ∧
    ((s.applyPace c).cl c).pc.st.asleep = (s.cl c).pc.st.asleep ∧ ((s.applyPace c).cl c).pc.temp = (s.cl c).pc.temp ∧
    ((s.applyPace c).cl c).pc.noSprint = (s.cl c).pc.noSprint ∧ ((s.applyPace c).cl c).pc.cap700 = (s.cl c).pc.cap700 := by
  generalize hm : s.supplyMv (s.cl c).pc = m
  obtain ⟨v, hv⟩ : ∃ v, v = (s.modCl c (fun t => { t with pc := { t.pc with active := m } })).setLevel 1 c.val 29 m := ⟨_, rfl⟩
  have hb : (v.cl c).pc = { (s.cl c).pc with active := m } := by
    rw [hv]
    have : ∀ (u : State) (g i x : Nat) (n : Int), (u.setLevel g i x n).cl c = u.cl c := fun _ _ _ _ _ => rfl
    rw [this, State.cl_modCl_same]
  have he : s.applyPace c = if ((s.cl c).pc.st = .sprint ∨ (s.cl c).pc.st = .stride) ∧ (s.cl c).pc.st ≠ (if 750 ≤ m then PaceState.sprint else .stride)
      then v.setPace c (if 750 ≤ m then PaceState.sprint else .stride) (s.cl c).pc.move else v := by
    rw [hv, ← hm]; exact if_neg (by rw [hr]; decide)
  rw [he]
  by_cases h : ((s.cl c).pc.st = .sprint ∨ (s.cl c).pc.st = .stride) ∧ (s.cl c).pc.st ≠ (if 750 ≤ m then PaceState.sprint else .stride)
  · rw [if_pos h]
    unfold State.setPace
    dsimp only
    rw [State.cl_modCl_same, State.bump_cl]
    simp only [hb]
    refine ⟨trivial, trivial, trivial, ?_, trivial, trivial, trivial⟩
    rcases h.1 with e | e <;> rw [e] <;> split <;> rfl
  · rw [if_neg h, hb]; exact ⟨rfl, rfl, rfl, rfl, rfl, rfl, rfl⟩
theorem fin64_nodup : (List.finRange 64).Nodup := List.nodup_finRange 64
/-- Only the management part and what left differ. -/
structure MgmtOnly (s t : State) : Prop where
  core : SameCore s t
  com : t.com = { s.com with mgmt := t.com.mgmt }
theorem mgmtOnly_sendMsg (s : State) (conn ty st heat seq : Nat) (body : Bytes) : MgmtOnly s (s.sendMsg conn ty st heat seq body) := by
  refine ⟨sameCore_sendMsg _ _ _ _ _ _ _, ?_⟩
  unfold State.sendMsg
  split
  · rfl
  · rfl
theorem MgmtOnly.trans {s t u : State} (h : MgmtOnly s t) (k : MgmtOnly t u) : MgmtOnly s u := ⟨h.core.trans k.core, by rw [k.com, h.com]⟩
theorem MgmtOnly.foldl {α : Type} (f : State → α → State) (hf : ∀ s a, MgmtOnly s (f s a)) (xs : List α) (s : State) : MgmtOnly s (xs.foldl f s) := by
  induction xs generalizing s with
  | nil => exact ⟨SameCore.refl s, rfl⟩
  | cons x xs ih => exact (hf s x).trans (ih (f s x))
theorem mgmtOnly_report (s : State) (kind heat status step : Nat) (detail : Bytes) : MgmtOnly s (s.report kind heat status step detail) := by
  unfold State.report
  dsimp only
  refine MgmtOnly.trans ?_ (MgmtOnly.foldl _ (fun s (k : Session) => mgmtOnly_sendMsg s k.conn _ _ _ _ _) _ _)
  exact ⟨sameCore_modMgmt s _, rfl⟩

end Sys2Proof.Machine
end

