-- ==== Sys2Proof/Tests/Slice0.lean ====
section
/-! SUPPORT. The model's own tests. A theorem test_ill_… shows a term the well-formedness check refuses; one named wit_… shows a state and
operands that meet the hypotheses of the statement it names, one for each clause; test_… checks one step against the spec's words. -/
open Sys2Proof Sys2Proof.Machine
namespace Sys2Proof.Tests
set_option Elab.async false

/-! Small states. -/

/-- A powered module with every core running. -/
def powered : State :=
  { State.reset with com := { State.reset.com with
      pw := { State.reset.com.pw with standby := true, pwrEn := true, rail := 8, good := true }
      boot := { Boot.reset with state := .ready, flashRead := true, security := .up, scheduler := .up, power := .up, config := some (List.replicate 1344 0) } } }
/-- A job of module 0 of two. -/
def job0 : Job :=
  { seed := 0, moduleId := 1, modules := 2, restore := none, firstS := 10, mult := 2, fsLimit := 3, pf := 31, floorMs := 1, storeAddr := 0,
    storeQpn := 0, storeRkey := 0, storeBase := 0, storeStride := 0, storeInterval := 0, startReq := none }
/-- A heat that runs image p on cluster block 0, position block 0 and port block 0. -/
def heat0 (p : Program) : Heat :=
  { Heat.reset with phase := .running, blocks := (1, 1, 1), ways := 16, image := some p, live := true, job := some job0 }
/-- A module whose heat 0 runs image p, with cluster 0 as given. -/
def running (p : Program) (k : Cluster) : State := (powered.setHeat 0 (heat0 p)).setCl 0 k
/-- A recipe of kind 11 and a format (R81, R82). -/
def recipe (kind fmt : Nat) : Bytes := natLE 16 (kind + fmt * 2 ^ 8)
/-- Recipes: 0 FP32, 1 INT32, 2 INT8 mask, 3 FP32 master, 4 BF16 high half, 5 INT64. -/
def recipes0 : Bytes := natLE 16 6 ++ recipe 11 0 ++ recipe 12 13 ++ recipe 3 12 ++ recipe 0 0 ++ recipe 2 1 ++ recipe 12 14
/-- An image with those recipes and other sections. -/
def imageOf (secs : List Section) : Program := ⟨0, ⟨9, wide, recipes0⟩ :: secs⟩
/-- A descriptor of rank 2 (R125). -/
def dsc (base fmt rcp d0 d1 s1 : Nat) : Bytes :=
  natLE 64 (base + fmt * 2 ^ 48 + 2 ^ 53 + rcp * 2 ^ 64 + (d0 - 1) * 2 ^ 96 + (d1 - 1) * 2 ^ 120 + s1 * 2 ^ 192 + noDesc * 2 ^ 384)
/-- A descriptor of rank 1. -/
def dsc1 (base fmt rcp d0 : Nat) : Bytes := natLE 64 (base + fmt * 2 ^ 48 + rcp * 2 ^ 64 + (d0 - 1) * 2 ^ 96 + noDesc * 2 ^ 384)
/-- A store with byte strings at offsets. -/
def storeOf (xs : List (Nat × Bytes)) : Mem := xs.foldl (fun m p => m.put p.1 p.2) []
/-- A cluster in Sprint with a command at the head of a queue. -/
def withHead (q : Fin 4) (raw : Nat) (store : Mem) : Cluster :=
  { Cluster.reset with store := store, queues := Cluster.reset.queues.set q [⟨0, 0, 0, true, raw, .waiting, 0, 0⟩],
                       pc := { Pacing.reset with st := .sprint } }
/-- The head of a queue may start, and p holds of it. -/
def starts (s : State) (c : Fin 64) (q : Fin 4) (p : Site → QEntry → Bool) : Bool :=
  match s.startable c q with
  | some (x, e) => p x e
  | none => false
/-- A run ends without error. -/
def ran {α : Type} (r : Except Nat α) (p : α → Bool) : Bool :=
  match r with
  | .ok o => p o
  | .error _ => false
/-- The next state of a command. -/
def after (i : Instr) (s : State) : State :=
  match exec i s with
  | .next t => t
  | _ => s
/-! The block as a whole, and the engines. -/

/-- Hypotheses of StepRunsFrontCommand. -/
theorem wit_StepRunsFrontCommand : ({ State.reset with pending := [Instr.idcode, .highz] } : State).pending = [.idcode, .highz] := rfl

/-- A state of the engines' tests: descriptors of FP32 tensors of one element each at 0, 64, 128 and 192, their data from 0x1000 on; INT32 and
INT8 ones at 256 and 320. -/
def tensors : Mem := storeOf ([0, 1, 2, 3].map (fun i => (64 * i, dsc (storeWin + 0x1000 + 128 * i) 0 0 1 1 128)) ++
  [(256, dsc (storeWin + 0x2000) 13 1 1 1 128), (320, dsc (storeWin + 0x2080) 12 2 1 1 128), (384, natLE 64 1),
   (0x1000, natLE 4 0x40000000), (0x1080, natLE 4 0x40400000), (0x1100, natLE 4 0x3F800000)])
/-- A module with a command at the head of a queue of cluster 0. -/
def queued (q : Fin 4) (raw : Nat) : State := running (imageOf []) (withHead q raw tensors)
/-- MATMUL of the tensors at 0 and 64 into that at 192 (R103). -/
def matmulRaw : Nat := 0x01 + 0 * 2 ^ 64 + 64 * 2 ^ 88 + 192 * 2 ^ 112 + 2 ^ 144
/-- Hypotheses of MatmulCompletes. -/
theorem wit_MatmulCompletes : starts (queued qMatrix matmulRaw) 0 qMatrix (fun x e => cmdOp e.raw == 0x01 &&
    ran (matmulRun ((queued qMatrix matmulRaw).engCtx 0 x) ((queued qMatrix matmulRaw).cl 0).store e.raw) (fun _ => true)) = true := by decide +kernel
/-- 2 times 3 is 6 (R91). -/
theorem test_matmul : (((after (.matmul 0) (queued qMatrix matmulRaw)).cl 0).store).num 0x1180 4 = 0x40C00000 := by decide +kernel
/-- A CONV of one mode (R108, R123), its window at 384. -/
def convRaw (mode b : Nat) : Nat := 0x02 + 0 * 2 ^ 64 + b * 2 ^ 88 + 192 * 2 ^ 112 + 384 * 2 ^ 136 + mode * 2 ^ 160 + 2 ^ 168
/-- Whether the low edge's slot of a CONV is published, and the high edge's once the low one is taken. -/
def haloOf (s : State) (x : Site) (e : QEntry) : Bool × Bool :=
  let lo := haloChan (s.heat x.h) x.own e.raw false
  let h := (s.heat x.h).takeChans x.own e.raw
  (haloReady h lo, haloReady (h.takeHalo [lo]) (haloChan (s.heat x.h) x.own e.raw true))
/-- The hypotheses of ConvolutionsComplete, of one mode. -/
def convMeets (mode b : Nat) : Bool :=
  let s := queued qMatrix (convRaw mode b)
  starts s 0 qMatrix (fun x e => cmdOp e.raw == 0x02 && convMode e.raw == mode && haloOf s x e == (true, true) &&
    ran (convRun (s.engCtx 0 x) (s.cl 0).store e.raw (haloSlot (s.heat x.h) (haloChan (s.heat x.h) x.own e.raw false))
      (haloSlot (s.heat x.h) (haloChan (s.heat x.h) x.own e.raw true))) (fun _ => true))
theorem wit_ConvolutionsComplete_fwd : convMeets 0 64 = true := by decide +kernel
theorem wit_ConvolutionsComplete_dgrad : convMeets 1 64 = true := by decide +kernel
theorem wit_ConvolutionsComplete_wgrad : convMeets 2 64 = true := by decide +kernel
theorem wit_ConvolutionsComplete_maxpool : convMeets 4 256 = true := by decide +kernel
theorem wit_ConvolutionsComplete_maxpool_plain : convMeets 4 noDesc = true := by decide +kernel
theorem wit_ConvolutionsComplete_avgpool : convMeets 5 noDesc = true := by decide +kernel
/-- The low edge's slot is not published; it is, and the high edge's, of the same channel, is not. -/
theorem wit_ConvolutionsComplete_waits : ([(0, (false, false)), (1, (true, false))].all (fun r =>
    let s := (queued qMatrix (convRaw 0 64 + 3 * 2 ^ 173)).modHeat 0 (fun h => { h with
      chans := [⟨⟨some 0, 0, 0, 0, 128, 1, 0x3000⟩, r.1, r.1, 0, 0, (0, 0)⟩] })
    starts s 0 qMatrix (fun x e => cmdOp e.raw == 0x02 && convMode e.raw == 0 && haloOf s x e == r.2))) = true := by decide +kernel
/-- The hypotheses of VectorCommandsComplete, of one command. -/
def vecMeets (raw : Nat) : Bool :=
  let s := (queued qVector raw).modCl 0 (fun k => { k with fnTab := storeOf [(0, natLE 32
    (1 + 1 * 2 ^ 1 + 1 * 2 ^ 4 + 128 * 2 ^ 16 + 0xFFFF * 2 ^ 32 + 0x3F800000 * 2 ^ 96)), (512, natLE 4 0x3F800000 ++ natLE 4 0x3FB504F3 ++ natLE 4 0x40000000)] })
  starts s 0 qVector (fun x e => e.raw == raw &&
    ran ((if cmdOp e.raw = 0x10 then vecRun else reduceRun) (s.engCtx 0 x) (s.cl 0).store e.raw) (fun o => o.status == 0 && o.sum.isNone))
/-- A VEC of one PASS from the tensor at 0 into that at 192 (R131). -/
def vecRaw : Nat := 0x10 + 192 * 2 ^ 64 + noDesc * 2 ^ 112 + noDesc * 2 ^ 136
/-- A REDUCE of the tensor at 0 into that at 192 under a rop, with B and E (R142). -/
def reduceRaw (rop b e imm : Nat) : Nat := 0x11 + 192 * 2 ^ 64 + b * 2 ^ 112 + e * 2 ^ 136 + rop * 2 ^ 160 + imm * 2 ^ 224
theorem wit_VectorCommandsComplete_vec : vecMeets vecRaw = true := by decide +kernel
theorem wit_VectorCommandsComplete_sum : vecMeets (reduceRaw 0 noDesc noDesc 0) = true := by decide +kernel
theorem wit_VectorCommandsComplete_sumsq : vecMeets (reduceRaw 1 noDesc noDesc 0) = true := by decide +kernel
theorem wit_VectorCommandsComplete_max : vecMeets (reduceRaw 2 noDesc noDesc 0) = true := by decide +kernel
theorem wit_VectorCommandsComplete_min : vecMeets (reduceRaw 3 noDesc noDesc 0) = true := by decide +kernel
theorem wit_VectorCommandsComplete_meanvar : vecMeets (reduceRaw 4 noDesc 128 0) = true := by decide +kernel
theorem wit_VectorCommandsComplete_softmax : vecMeets (reduceRaw 5 noDesc noDesc 0x3F800000) = true := by decide +kernel
theorem wit_VectorCommandsComplete_softmaxBwd : vecMeets (reduceRaw 6 64 noDesc 0) = true := by decide +kernel
/-- A PASS copies (R133). -/
theorem test_vec : (((after (.vec 0) (queued qVector vecRaw)).cl 0).store).num 0x1180 4 = 0x40000000 := by decide +kernel
/-- The sum of squares of one element (R143). -/
theorem test_sumsq : (((after (.sumsq 0) (queued qVector (reduceRaw 1 noDesc noDesc 0))).cl 0).store).num 0x1180 4 = 0x40800000 := by decide +kernel
/-- The variance of one element with var_div 1 is a NaN (R146). -/
theorem test_meanvar_nan : (((after (.meanvar 0) (queued qVector (reduceRaw 4 noDesc 128 0 + 2 ^ 166))).cl 0).store).num 0x1100 4 = 0x7FC00000 := by
  decide +kernel
/-- Hypotheses of ErrorStopsCluster: a second operand of another extent (R107). -/
theorem wit_ErrorStopsCluster : (let s := queued qMatrix (matmulRaw + 2 ^ 152)
    starts s 0 qMatrix (fun x e => cmdOp e.raw == 0x01 && (s.heat x.h).isRoot == false &&
      match matmulRun (s.engCtx 0 x) (s.cl 0).store e.raw with | .error st => st == eDesc | .ok _ => false)) = true := by decide +kernel
/-- A VEC with a summary of the maximum (R150). -/
def sumRaw : Nat := vecRaw + 2 ^ 12 + 2 ^ 202
/-- The module of a VEC with a summary, n words in the summary queue. -/
def sumState (n : Nat) : State := (queued qVector sumRaw).modCl 0 (fun k => { k with core := { k.core with sums := List.replicate n 7 } })
/-- Hypotheses of SummariesWaitForRoom, first clause: four entries. -/
theorem wit_SummariesWaitForRoom_full : starts (sumState 4) 0 qVector (fun x e => cmdOp e.raw == 0x10 && ((sumState 4).cl 0).core.sums.length == 4 &&
    ran (vecRun ((sumState 4).engCtx 0 x) ((sumState 4).cl 0).store e.raw) (fun o => o.status == 0 && o.sum.isSome)) = true := by decide +kernel
/-- A control core at pc 0 of cluster 0, with the instruction words given at the start of its memory. -/
def coreOf (words : List Nat) (k : Cluster) : Cluster :=
  { k with imem := storeOf [(0, words.flatMap (natLE 4))], core := { k.core with running := true } }
/-- The control core of cluster 0 stands at these words. -/
def coreState (words : List Nat) : State := running (imageOf []) (coreOf words (withHead qMatrix matmulRaw tensors))
/-- The site of the core, and the instruction it fetches, meet p. -/
def stands (s : State) (p : Site → RvIns → Nat → Bool) : Bool :=
  match s.coreSite 0, (s.cl 0).fetch with
  | some x, some (i, n) => p x i n
  | _, _ => false
/-- sum.get x5 (R152). -/
def sumGetWord : Nat := 0x0B + 5 * 2 ^ 7
/-- Second clause: the command waits with its summary, and the oldest word is taken. -/
def sumWaits : State := (coreState [sumGetWord]).modCl 0 (fun k => { k with
  queues := k.queues.set qVector [⟨0, 0, 0, true, sumRaw, .summary 9, 0, 0⟩], core := { k.core with sums := [1, 2, 3, 4] } })
theorem wit_SummariesWaitForRoom_enter : stands sumWaits (fun _ i _ => i == .sumGet 5) = true ∧ (sumWaits.cl 0).core.sums = [1, 2, 3, 4] ∧
    ((sumWaits.cl 0).queues[qVector].head?.map QEntry.phase) = some (.summary 9) := by decide +kernel
/-- The oldest word goes to x5, the waiting one enters (R151). -/
theorem test_sumGet : (((after (.sumGet 0) sumWaits).cl 0).core.regs[5] = 1) ∧ ((after (.sumGet 0) sumWaits).cl 0).core.sums = [2, 3, 4, 9] := by
  decide +kernel
/-! The mover. -/

/-- Index tensor at 448 naming row 0; at 512 an FP32 tensor of memory, at 576 and 640 INT32 ones of store and memory; at 704 eight FP32. -/
def moverTensors : Mem := storeOf ([(0x1000, natLE 4 0x40000000), (0x2100, natLE 4 5), (0x2200, natLE 32 77)] ++
  [(0, dsc (storeWin + 0x1000) 0 0 1 1 128), (192, dsc (storeWin + 0x1180) 0 0 1 1 128), (448, dsc1 (storeWin + 0x2000) 13 1 1),
    (512, dsc 0x10000 0 0 1 1 128), (576, dsc (storeWin + 0x2100) 13 1 1 1 128), (640, dsc 0x10000 13 1 1 1 128),
    (704, dsc (storeWin + 0x2200) 0 0 8 1 128)])
/-- A KV region of 256 positions of 32 + 32 bytes at 0x100000 and a second at 0x130000, a pool of two pages at 0x110000 (R171, R173), page
descriptors from 0x120000 on, the pages in the store: page 0 LIVE and named once, page 1 FREE. Their entries are as given. -/
def kvMem (e0 e1 : Nat) : Mem := storeOf [(0x100000, natLE 64 (256 + 0x110000 * 2 ^ 64 + 32 * 2 ^ 128 + 32 * 2 ^ 144)), (0x100040, natLE 8 e0),
  (0x110000, natLE 64 (2 + 16384 * 2 ^ 32 + (storeWin + 0x400000) * 2 ^ 64 + 0x120000 * 2 ^ 112)), (0x120000, natLE 16 (1 + 2 ^ 32)),
  (0x130000, natLE 64 (256 + 0x110000 * 2 ^ 64 + 32 * 2 ^ 128 + 32 * 2 ^ 144)), (0x130040, natLE 8 e1)]
/-- A module with a mover command, float_atomics set. -/
def moving (raw e0 e1 : Nat) : State :=
  (running { imageOf [] with hdr := 2 ^ 73 } (withHead qMover raw moverTensors)).modHeat 0 (fun h => { h with mem := kvMem e0 e1 })
/-- GATHER or SCATTER: opcode, D, A, I, aop. -/
def scatterRaw (op d a aop : Nat) : Nat := op + d * 2 ^ 64 + a * 2 ^ 88 + 448 * 2 ^ 112 + aop * 2 ^ 140
/-- COPY: cop, D, S, with the first region. -/
def copyRaw (cop d s : Nat) : Nat := 0x22 + cop * 2 ^ 64 + d * 2 ^ 72 + s * 2 ^ 96 + 0x100000 * 2 ^ 120
/-- The command of a moving module may start, is this one, reaches no cluster that rests, and its run ends with OK. -/
def moves (raw e0 e1 : Nat) (run : State → Site → Space → Nat → Except Nat MovOut) : Bool :=
  let s := moving raw e0 e1
  starts s 0 qMover (fun x e => e.raw == raw && s.peersReach x e.raw && ran (run s x (s.space x) e.raw) (fun o => o.status == 0))
/-- The same, with a destination in memory, in a module that is no root: a granule's tag may fail there. -/
def movesTagged (raw e0 e1 : Nat) (run : State → Site → Space → Nat → Except Nat MovOut) : Bool :=
  let s := moving raw e0 e1
  moves raw e0 e1 run && starts s 0 qMover (fun x e => !(s.heat x.h).isRoot &&
    ran (run s x (s.space x) e.raw) (fun o => s.writesMemory x (s.space x) o.sp e.raw))
/-- SCATTER as the statement runs it. -/
def scatterOf (s : State) (x : Site) (sp : Space) (q : Nat) : Except Nat MovOut :=
  scatterRun x.prog.recipes x.prog.floatAtomics s.cacheAtomics sp q
/-- An entry that maps page 0, private. -/
def pageZero : Nat := entryOf 0 true
theorem wit_MoverCommandsComplete_gather : moves (scatterRaw 0x20 192 0 0) 0 0 (fun _ x sp q => gatherRun x.prog.recipes sp q) = true := by decide +kernel
theorem wit_MoverCommandsComplete_store : moves (scatterRaw 0x21 192 0 0) 0 0 scatterOf = true ∧ movesTagged (scatterRaw 0x21 512 0 0) 0 0 scatterOf = true := by
  decide +kernel
theorem wit_MoverCommandsComplete_fadd : movesTagged (scatterRaw 0x21 512 0 1) 0 0 scatterOf = true := by decide +kernel
theorem wit_MoverCommandsComplete_iadd : movesTagged (scatterRaw 0x21 640 576 2) 0 0 scatterOf = true := by decide +kernel
theorem wit_MoverCommandsComplete_imax : movesTagged (scatterRaw 0x21 640 576 3) 0 0 scatterOf = true := by decide +kernel
theorem wit_MoverCommandsComplete_imin : movesTagged (scatterRaw 0x21 640 576 4) 0 0 scatterOf = true := by decide +kernel
theorem wit_MoverCommandsComplete_plain : [192, 512].map (fun d => (if d = 192 then moves else movesTagged) (0x22 + d * 2 ^ 72) 0 0 (fun _ x sp q =>
    plainRun x.prog.recipes sp q)) = [true, true] := by decide +kernel
theorem wit_MoverCommandsComplete_kvRead : moves (copyRaw 1 704 0) pageZero 0 (fun _ x sp q => kvReadRun x.prog.recipes sp q) = true := by decide +kernel
theorem wit_MoverCommandsComplete_kvWrite : movesTagged (copyRaw 2 0 704) pageZero 0 (fun _ x sp q => kvWriteRun x.prog.recipes sp q) = true := by decide +kernel
theorem wit_MoverCommandsComplete_alloc : movesTagged (copyRaw 3 noDesc noDesc) 0 0 (fun _ _ sp q => allocRun sp q) = true := by decide +kernel
theorem wit_MoverCommandsComplete_share : movesTagged (copyRaw 4 noDesc noDesc + 0x130000 * 2 ^ 168) 0 pageZero (fun _ _ sp q => shareRun sp q) = true := by
  decide +kernel
theorem wit_MoverCommandsComplete_cow : movesTagged (copyRaw 5 noDesc noDesc + 2 ^ 168) pageZero 0 (fun _ _ sp q => cowRun sp q) = true := by decide +kernel
theorem wit_MoverCommandsComplete_free : movesTagged (copyRaw 6 noDesc noDesc) pageZero 0 (fun _ _ sp q => freeRun sp q) = true := by decide +kernel
/-- IADD adds 5 to a zero word of memory (R201). -/
theorem test_iadd : (((after (.iadd 0 false) (moving (scatterRaw 0x21 640 576 2) 0 0)).heat 0).mem).num 0x10000 4 = 5 := by decide +kernel
/-- KV_WRITE at position 0 leaves length 1 (R174). -/
theorem test_kvWrite : (((after (.kvWrite 0 false) (moving (copyRaw 2 0 704) pageZero 0)).heat 0).mem).num 0x100004 4 = 1 := by decide +kernel
/-- FREE of the last reference sends the page to COOLING and clears the entry (R175, R177). -/
theorem test_free : (let m := ((after (.free 0 false) (moving (copyRaw 6 noDesc noDesc) pageZero 0)).heat 0).mem
    (m.num 0x100040 8, m.num 0x120000 16)) = (0, 2 * 2 ^ 32) := by decide +kernel
/-- SHARE counts a second reference and maps the page without private (R175). -/
theorem test_share : (let m := ((after (.share 0 false) (moving (copyRaw 4 noDesc noDesc + 0x130000 * 2 ^ 168) 0 pageZero)).heat 0).mem
    (m.num 0x100040 8, m.num 0x120000 16)) = (2 ^ 24, 2 + 2 ^ 32) := by decide +kernel
/-! The link queue and the control core. -/

/-- A ROUTES section in which tag t of 3 and 4 has 32 granules from 0x40000 + 0x1000 t on (R230). -/
def routes0 : Bytes := List.replicate 240 0 ++ natLE 16 (0x43000 + 2 ^ 48 + 31 * 2 ^ 64) ++ natLE 16 (0x44000 + 2 ^ 48 + 31 * 2 ^ 64)
/-- A HURDLE_PLAN of two modules, root 0, with tag 3 checked by its twin 4 (R260). -/
def hplan0 : Bytes := natLE 64 (2 + 2 ^ 32) ++ natLE 8 (1 * 2 ^ 20) ++ natLE 56 0 ++ natLE 4 (3 + 4 * 2 ^ 12)
/-- An image of one port with both. -/
def linked : Program := { imageOf [⟨7, wide, routes0⟩, ⟨8, wide, hplan0⟩] with hdr := 2 ^ 104 }
/-- Eight FP32 elements at 704, of rank 1, and at 768 and 832 for D and the local operand. -/
def linkTensors : Mem := storeOf [(704, dsc1 (storeWin + 0x2200) 0 0 8), (768, dsc (storeWin + 0x2300) 0 0 8 1 128),
  (832, dsc (storeWin + 0x2400) 0 0 8 1 128), (0x2200, natLE 4 9), (0x2400, natLE 4 0x3F800000)]
/-- A link command in an image with routes; n bytes have landed on tag 3, and as many on its twin. -/
def linking (raw n : Nat) : State := (running linked (withHead qLink raw linkTensors)).modHeat 0 (fun h => { h with
  arrivals := if n = 0 then [] else [(3, n), (4, n)], mem := storeOf [(0x43000, natLE 4 0x40000000), (0x44000, natLE 4 0x40000000)] })
/-- SEND of the tensor at 704 to a module (R235). -/
def sendRaw (dest tag : Nat) : Nat := 0x30 + 704 * 2 ^ 64 + dest * 2 ^ 88 + tag * 2 ^ 100
/-- The hypotheses of SendsLeave. -/
def sends (raw : Nat) : Bool :=
  let s := linking raw 0
  starts s 0 qLink (fun x e => cmdOp e.raw == 0x30 && e.raw == raw && !(s.heat x.h).isRoot &&
    ran (sendSource (s.heat x.h) x (s.space x) false e.raw) (fun _ => true))
theorem wit_SendsLeave_loopback : sends (sendRaw 1 3) = true := by decide +kernel
theorem wit_SendsLeave_away : sends (sendRaw 0 3) = true := by decide +kernel
theorem wit_SendsLeave_baton : sends (sendRaw 0 0 + 2 ^ 134) = true := by decide +kernel
/-- A SEND whose blocks have left: one of them is awaited, and none is. -/
theorem wit_SendsLeave_settles : ([true, false].all (fun b =>
    let s := ((linking (sendRaw 0 3) 0).modCl 0 (fun k => { k with queues := k.queues.set qLink [⟨0, 0, 0, true, sendRaw 0 3, .sending, 0, 0⟩] })).modHeat 0
      (fun h => { h with sent := if b then [⟨0, 0, 0, 3, false, 0, 0, 1⟩] else [] })
    (s.site 0).isSome && ((s.cl 0).queues[qLink].head?).any (fun e => e.phase == .sending && (s.heat 0).awaits 0 e.ord == b))) = true := by decide +kernel
/-- RECV on tag 3 of 32 bytes in a mode (R240). -/
def recvRaw (mode : Nat) : Nat :=
  0x31 + (if mode = 0 then noDesc * 2 ^ 64 + noDesc * 2 ^ 88 else 768 * 2 ^ 64 + 832 * 2 ^ 88) + 3 * 2 ^ 112 + mode * 2 ^ 124
/-- The hypotheses of ReceivesComplete, of one mode; pf says whether the twin is sampled. -/
def receives (mode pf : Nat) : Bool :=
  let s := (linking (recvRaw mode) 32).modHu 0 (fun u => { u with pf := pf })
  starts s 0 qLink (fun x e =>
    let h := s.heat x.h
    let sp := s.space x
    let tag := fld e.raw 123 112
    let twin := h.sampled x.prog tag h.ownId
    cmdOp e.raw == 0x31 && recvMode e.raw == mode && h.landedBytes tag == recvExpect e.raw && ran (recvCheck x sp e.raw) (fun cb => match cb with
      | none => mode == 0
      | some k => mode != 0 && !h.isRoot && twin.isSome == (pf == 0) && twin.toList.all (fun t => h.landedBytes t == recvExpect e.raw) &&
          (let o := combineRun k sp (x.prog.tagBase tag) (twin.map x.prog.tagBase) (mode == 1); o.1.status == 0 && o.2 == false)))
theorem wit_ReceivesComplete_wait : receives 0 31 = true := by decide +kernel
theorem wit_ReceivesComplete_left : receives 1 31 = true := by decide +kernel
theorem wit_ReceivesComplete_right : receives 2 31 = true := by decide +kernel
theorem wit_ReceivesComplete_twin : receives 1 0 = true := by decide +kernel
/-- 1 plus 2 is 3 (R241). -/
theorem test_combine : ((after (.combineLeft 0 false) (linking (recvRaw 1) 32)).cl 0).store.num 0x2300 4 = 0x40400000 := by decide +kernel
/-- A RECV whose bytes have not landed waits (R241). -/
theorem test_recv_waits : after (.wait 0) (linking (recvRaw 0) 0) = linking (recvRaw 0) 0 := by decide +kernel
/-- Hypotheses of HurdleIsReached. -/
theorem wit_HurdleIsReached : starts (queued qLink 0x32) 0 qLink (fun _ e => cmdOp e.raw == 0x32 && ((queued qLink 0x32).cl 0).drained e &&
    rsv e.raw 255 64 && waitEn e.raw == false && postEn e.raw == false) = true := by decide +kernel

/-- csrrwi x0 of a CSR with a value, and csrrs rd of a CSR with x0 (RISC-V Zicsr). -/
def csrWrite (csr v : Nat) : Nat := csr * 2 ^ 20 + v * 2 ^ 15 + 5 * 2 ^ 12 + 0x73
/-- csrrs rd, csr, x0. -/
def csrRead (csr rd : Nat) : Nat := csr * 2 ^ 20 + 2 * 2 ^ 12 + rd * 2 ^ 7 + 0x73
/-- A core at those words, with a stream of one block of one command at address 0 (R40). -/
def streaming (words : List Nat) (raw : Nat) : State :=
  (coreState words).modHeat 0 (fun h => { h with mem := storeOf [(0, natLE 4 1 ++ natLE 4 0 ++ natLE 4 1), (32, natLE 32 raw)] })
/-- Four issued blocks. -/
def fourIssued : List Issue := [⟨0, 0, 0⟩, ⟨1, 0, 0⟩, ⟨2, 0, 0⟩, ⟨3, 0, 0⟩]
/-- Hypotheses of BlockIssues, first clause, for each ground of a stall. -/
theorem wit_BlockIssues_stall : ((([fun (k : Cluster) => { k with core := { k.core with issued := fourIssued } },
    fun k => { k with core := { k.core with hurdleOpen := true } }, fun k => { k with halted := some 1 }] : List (Cluster → Cluster))).all (fun f =>
      let s := (streaming [csrWrite 0x7C0 0] matmulRaw).modCl 0 f
      stands s (fun _ i n => i == .blkIssue 0 0 true && n == 4) && (s.cl 0).issueStalls)) = true := by decide +kernel
/-- Second clause: three blocks are issued; the block has no HURDLE, and has one. -/
theorem wit_BlockIssues : ([(matmulRaw, false), (0x32, true)].all (fun r =>
    let s := (streaming [csrWrite 0x7C0 0] r.1).modCl 0 (fun k => { k with core := { k.core with issued := fourIssued.take 3 } })
    stands s (fun x i n => i == .blkIssue 0 0 true && n == 4 && (s.cl 0).issueStalls == false &&
      ran (issueBlock (s.space x) (s.streamBase x) 0) (· == r.2)))) = true := by decide +kernel
/-- Hypotheses of StreamFetchQueuesCommand. -/
theorem wit_StreamFetchQueuesCommand : (let s := (streaming [] matmulRaw).modCl 0 (fun k => { k with core := { k.core with issued := [⟨0, 0, 0⟩] } })
    match s.coreSite 0 with
    | some x => ran (streamBlock (s.space x) (s.streamBase x) 0) (· == (0, 1)) && ran (streamCmd (s.space x) (s.streamBase x) 0) (· == matmulRaw) &&
        opQueue (cmdOp matmulRaw) == some qMatrix && (s.cl 0).halted == none && (s.cl 0).queues[qMatrix].length < 16
    | none => false) = true := by decide +kernel
/-- The fetched command stands at the end of its queue (R40). -/
theorem test_streamFetch : (let s := (streaming [] matmulRaw).modCl 0 (fun k => { k with core := { k.core with issued := [⟨0, 0, 0⟩] } })
    (((after (.streamFetch 0) s).cl 0).queues[qMatrix].getLast?.map QEntry.raw, ((after (.streamFetch 0) s).cl 0).core.issued)) = (some matmulRaw, []) := by
  decide +kernel
/-- Hypotheses of EncodeQueueKept: an enc_issue, and an enc_wait with nothing outstanding or a request complete. -/
theorem wit_EncodeQueueKept : (stands (coreState [csrWrite 0x7C1 0]) (fun _ i n => i == .encIssue 0 0 true && n == 4) &&
    [[], [(⟨0, 0, .done 3, []⟩ : EncReq)]].all (fun es =>
      let s := (coreState [csrRead 0x7C2 6]).modCl 0 (fun k => { k with core := { k.core with encs := es } })
      stands s (fun _ i n => i == .encWait 6 && n == 4) && (s.cl 0).core.encs == es)) = true := by decide +kernel
/-- enc_wait with nothing outstanding answers 0x08 at once (R324). -/
theorem test_encWait : ((after (.encWait 0) (coreState [csrRead 0x7C2 6])).cl 0).core.regs[6] = 8 := by decide +kernel
/-- A module whose heat has encode unit 20, with one request of cluster 0. -/
def encoding (ph : EncPhase) : State := ((coreState []).modCl 0 (fun k => { k with
  queues := Cluster.reset.queues, core := { k.core with encs := [⟨0xFFFFC0, 0, ph, []⟩] } })).modHeat 0 (fun h => { h with media := [20] })
/-- Hypotheses of EncodeRequestsRun, first clause, at the last offset of the store. -/
theorem wit_EncodeRequestsRun_start : (let s := encoding .queued
    (s.site 0).isSome && (s.cl 0).core.encs.findIdx? (fun r => r.phase == .queued) == some 0 && (s.cl 0).encReady 0 && !(s.cl 0).frozen &&
    !(s.cl 0).core.restarting && (s.encUnits (s.heat 0)).find? s.encFree == some 20) = true := by decide +kernel
/-- Second clause. -/
theorem wit_EncodeRequestsRun_end : (let s := encoding (.running 20 5)
    (s.site 0).isSome && (s.cl 0).core.encs.findIdx? encBusy == some 0 && ((s.cl 0).core.encs[0]?.map EncReq.phase) == some (.running 20 5)) = true := by
  decide +kernel
/-- bsum with funct3 f3 on x5, forward by 8 (R152). -/
def bsumWord (f3 : Nat) : Nat := 0x2B + f3 * 2 ^ 12 + 5 * 2 ^ 20 + 8 * 2 ^ 7
/-- Hypotheses of SummariesAreTaken for the seven bsum rows; bsum.nan has rs2 0. -/
theorem wit_SummariesAreTaken_bsum : ((List.range 7).all (fun f3 =>
    let w := bsumWord f3 - if f3 = 4 then 5 * 2 ^ 20 else 0
    let s := (coreState [w]).modCl 0 (fun k => { k with core := { k.core with sums := [1] } })
    stands s (fun _ i _ => i == .bsum f3 (if f3 = 4 then 0 else 5) 8) && (s.cl 0).core.sums == [1])) = true := by decide +kernel
/-- The first clause: no summary. -/
theorem wit_SummariesAreTaken_empty : (stands (coreState [sumGetWord]) (fun _ i n => i == .sumGet 5 && n == 4) &&
    ((coreState [sumGetWord]).cl 0).core.sums == [] && ((coreState [sumGetWord]).cl 0).queues[qVector] == []) = true := by decide +kernel
/-- 1.0 is less than 2.0, so bsum.flt branches by 8, and bsum.fge goes on by 4 (R152). -/
theorem test_bsum : ([(0, (8 : Word)), (1, 4)].all (fun r =>
    let s := (coreState [bsumWord r.1]).modCl 0 (fun k => { k with core := { k.core with sums := [0x3F800000], regs := k.core.regs.set 5 0x40000000 } })
    ((after (if r.1 = 0 then .bsumFlt 0 else .bsumFge 0) s).cl 0).core.pc == r.2)) = true := by decide +kernel
/-- Hypotheses of ControlCoreSteps: addi x1, x0, 5, and an instruction that traps (ebreak). -/
theorem wit_ControlCoreSteps : ([0x00500093, 0x00100073].map (fun w =>
    let s := coreState [w]
    stands s (fun _ i n => !i.ownRow && (rvRun i n (s.cl 0).core.pc (s.cl 0).core.regs (s.cl 0).dmem).isSome == (w == 0x00500093) && (s.cl 0).firstRestart == none))) = [true, true] := by
  decide +kernel
/-- addi writes x1 and goes on by 4. -/
theorem test_addi : (let k := ((after (.controlCoreInstruction 0) (coreState [0x00500093])).cl 0).core; (k.pc, k.regs[1])) = (4, 5) := by decide +kernel
/-! Management. -/

/-- A header and a body with their tag under the key of session0 (R386). -/
def tagged (hdr body : Bytes) : Msg := { conn := 5, hdr := hdr, body := body, tag := hmac [1] (hdr ++ body) }
/-- A request header (R386) and its body. -/
def msgOf (type heat seq last : Nat) (body : Bytes) : Msg :=
  tagged (natLE 32 (0x47534D5A + type * 2 ^ 32 + heat * 2 ^ 48 + last * 2 ^ 56 + seq * 2 ^ 64 + body.length * 2 ^ 128)) body
/-- An attached session with every right, the next number 9. -/
def session0 : Session := { Session.fresh 5 0 with phase := .attached, rights := 7, rxSeq := 9, txSeq := 3, keys := ([1], [2]) }
/-- A module in READY with one session on connection 5. -/
def managed (k : Session) (s : State) : State := s.modMgmt (fun m => { m with link := true, sessions := [k] })
/-- The tag of such a message holds under a session with that key. -/
theorem tagged_holds (hdr body : Bytes) (k : Session) (h : k.keys.1 = [1]) : tagHolds k (tagged hdr body) = true := by
  simp only [tagHolds, tagged, h, beq_self_eq_true]
/-- Whether a request arrives, where its tag holds. -/
def arrives (s : State) (m : Msg) (i : Instr) (k : Session) : Bool :=
  m.hdr.length == 32 && s.session m.conn == some k && !msgUnframed m && m.body.length == msgLen m && msgRow m i && k.phase == .attached
    && msgSeq m == k.rxSeq
/-- Whether it is served. -/
def acceptable (s : State) (m : Msg) (i : Instr) (k : Session) : Bool :=
  arrives s m i k && s.serving && msgRsvOk m && clientType (msgType m) && (typeRight (msgType m)).all (fun r => bitAt k.rights r)
    && decide (k.replies.length < 16) && stateServes s.com.boot.state m
theorem arrives_spec {s : State} {hdr body : Bytes} {i : Instr} {k : Session} (hk : k.keys.1 = [1]) (h : arrives s (tagged hdr body) i k = true) :
    Arrived s (tagged hdr body) i k := by
  unfold arrives at h
  simp only [Bool.and_eq_true, beq_iff_eq, Bool.not_eq_true'] at h
  obtain ⟨⟨⟨⟨⟨⟨a, b⟩, c⟩, d⟩, e⟩, f⟩, j⟩ := h
  exact ⟨a, b, c, d, e, f, tagged_holds hdr body k hk, j⟩
theorem acceptable_spec {s : State} {hdr body : Bytes} {i : Instr} {k : Session} (hk : k.keys.1 = [1]) (h : acceptable s (tagged hdr body) i k = true) :
    Accepted s (tagged hdr body) i k := by
  unfold acceptable at h
  simp only [Bool.and_eq_true, decide_eq_true_eq] at h
  obtain ⟨⟨⟨⟨⟨⟨a, b⟩, c⟩, d⟩, e⟩, f⟩, g⟩ := h
  exact ⟨arrives_spec hk a, b, c, d, fun r hr => by rw [hr] at e; simpa using e, f, g⟩

/-- A state of the management tests: powered, with the session, heat 0 in a phase with a small image. -/
def desk (ph : HeatPhase) : State := (managed session0 powered).setHeat 0 { heat0 (imageOf []) with phase := ph }
/-- A query of a kind with more body. -/
def queryOf (kind : Nat) (more : Bytes) : Msg := msgOf 0x30 0 9 0 (natLE 4 kind ++ more)
/-- Hypotheses of RequestsAreGated. First clause: a wrong magic, and a body beyond the limit. -/
theorem wit_RequestsAreGated_unframed : ([({ queryOf 0 [] with hdr := natLE 32 0 } : Msg), { queryOf 0 [] with hdr := natLE 32 (0x47534D5A + 1052673 * 2 ^ 128) }].map (fun m =>
    (m.hdr.length == 32 && (desk .running).session m.conn == some session0 && msgUnframed m))) = [true, true] := by decide +kernel
/-- The largest body length is framed. -/
theorem wit_RequestsAreGated_framed : msgUnframed { queryOf 0 [] with hdr := natLE 32 (0x47534D5A + 1052672 * 2 ^ 128) } = false := by decide +kernel
/-- Second: a session not attached, a bad tag, a wrong number. -/
theorem wit_RequestsAreGated_closes : ([({ session0 with phase := .listen }, queryOf 0 []), (session0, { queryOf 0 [] with tag := zeroTag }),
    (session0, msgOf 0x30 0 8 0 (natLE 4 0))].map (fun r => (let s := managed r.1 (desk .running)
      r.2.hdr.length == 32 && s.session r.2.conn == some r.1 && !msgUnframed r.2 && r.2.body.length == msgLen r.2 && msgRow r.2 (.queryStatus r.2)
        && (r.1.phase != .attached || !tagHolds r.1 r.2 || msgSeq r.2 != r.1.rxSeq)))) = [true, true, true] := by decide +kernel
/-- Third: the scheduler core down, 15 requests queued. -/
theorem wit_RequestsAreGated_waits : (let m := queryOf 0 []
    let s := ((desk .running).modBoot (fun b => { b with scheduler := .restarting })).modMgmt (fun g => { g with queue := List.replicate 15 (.queryStatus m) })
    arrives s m (.queryStatus m) session0 && !s.serving && decide ((s.com.mgmt.queue.filter (fun q => msgConn q == some m.conn)).length < 16)) = true := by decide +kernel
/-- Fourth, each status: a reserved type, a reserved header bit, a right that lacks, 16 outstanding, a state that does not serve. -/
theorem wit_RequestsAreGated_refuses : (let s := desk .running
    let rsvM : Msg := tagged (natLE 32 (0x47534D5A + 0x30 * 2 ^ 32 + 2 ^ 57 + 9 * 2 ^ 64 + 4 * 2 ^ 128)) (natLE 4 0)
    let full : Session := { session0 with replies := List.replicate 16 (8, 0, none) }
    [arrives s (msgOf 0x7F 0 9 0 []) (.queryStatus (msgOf 0x7F 0 9 0 [])) session0 && s.serving && !clientType 0x7F,
     arrives s rsvM (.queryStatus rsvM) session0 && !msgRsvOk rsvM,
     arrives (managed { session0 with rights := 6 } s) (queryOf 0 []) (.queryStatus (queryOf 0 [])) { session0 with rights := 6 },
     arrives (managed full s) (queryOf 0 []) (.queryStatus (queryOf 0 [])) full,
     arrives (s.modBoot (fun b => { b with state := .halted })) (msgOf 0x20 0 9 0 []) (.loadImage (msgOf 0x20 0 9 0 [])) session0
       && (s.modBoot (fun b => { b with state := .halted })).serving && !stateServes .halted (msgOf 0x20 0 9 0 [])]) = [true, true, true, true, true] := by decide +kernel
/-- Hypotheses of RepliesAreSent, each clause. -/
theorem wit_RepliesAreSent : ((desk .running).session 5 = some session0 ∧ session0.replies = [] ∧ session0.closing = false) ∧
    (let k : Session := { session0 with replies := [(8, 0, none)] }
     (managed k (desk .running)).session 5 = some k) := by decide +kernel
/-- Hypotheses of QueriesAnswer. -/
theorem wit_QueriesAnswer_detach : acceptable (desk .running) (msgOf 3 0 9 0 []) (.detach (msgOf 3 0 9 0 [])) session0 = true := by decide +kernel
theorem wit_QueriesAnswer_status : acceptable (desk .running) (queryOf 0 []) (.queryStatus (queryOf 0 [])) session0 = true ∧
    (queryOf 0 []).body.length = 4 ∧ (desk .running).queryOk (queryOf 0 []) = true := by decide +kernel
/-- INVENTORY of heat 0 and of every heat. -/
theorem wit_QueriesAnswer_inventory : ([0, 0xFF].all (fun h => let m := msgOf 0x30 h 9 0 (natLE 4 1)
    acceptable (desk .running) m (.queryInventory m) session0 && (desk .running).queryOk m && msgHeat m == h)) = true := by decide +kernel
theorem wit_QueriesAnswer_attest : (let m := queryOf 2 (List.replicate 44 7)
    acceptable (desk .running) m (.queryAttest m) session0 && m.body.length == 48 && (desk .running).queryOk m && (desk .running).com.boot.security == .up) = true := by
  decide +kernel
/-- SNAPSHOT of the last instance of group 1 and of group 9, and of none. -/
theorem wit_QueriesAnswer_snapshot : ([(1, 63, 1), (9, 0, 1), (1, 64, 0)].map (fun r =>
    let m := queryOf 3 (natLE 4 0 ++ natLE 2 r.1 ++ natLE 2 r.2.1 ++ natLE 2 r.2.2)
    acceptable (desk .running) m (.snapshot m) session0 && m.body.length == 14 && querySub m == 0 && leAt m.body 9 1 == 0 && (desk .running).queryOk m
      && leAt m.body 8 1 == r.1 && decide (r.2.1 + r.2.2 ≤ ctrInstances (desk .running).com.boot.order r.1)
      && decide (r.2.2 * instanceSize r.1 ≤ mib))) = [true, true, true] := by decide +kernel
theorem wit_QueriesAnswer_splits : (let m := queryOf 3 (natLE 4 1 ++ natLE 8 63 ++ natLE 8 0)
    acceptable (desk .running) m (.splits m) session0 && m.body.length == 24 && leAt m.body 9 7 == 0 && (desk .running).queryOk m
      && leAt m.body 8 1 == (63 : Fin 64).val) = true := by decide +kernel
/-- A dump's view of the idle module, and a dump of 100 bytes, read to its end. -/
def view0 : DumpView := powered.dumpView 0 .noDecide
/-- That dump. -/
def dump0 : Dump := ⟨0xFF, 0, 0, 200, 100, view0⟩
theorem wit_QueriesAnswer_dump : (let s := (desk .running).modStore (fun k => { k with dumps := [dump0] })
    let m := queryOf 3 (natLE 4 2 ++ natLE 8 0xFF ++ natLE 8 90 ++ natLE 4 10)
    acceptable s m (.queryDump m) session0 && m.body.length == 28 && leAt m.body 9 7 == 0 && s.queryOk m
      && s.com.store.dumps.find? (fun d => d.slot == leAt m.body 8 1) == some dump0 && leAt m.body 24 4 == 10 && leAt m.body 16 8 == 90) = true := by
  decide +kernel
theorem wit_QueriesAnswer_lifelog : (let m := msgOf 0x31 0 9 0 (natLE 8 (992 * 4096 - 16) ++ natLE 4 16)
    acceptable (desk .running) m (.readLifelog m) session0 && m.body.length == 12 && leAt m.body 0 8 + leAt m.body 8 4 == 992 * 4096) = true := by decide +kernel

/-- A configuration image of a generation, its settings in range and key record 0 valid (R375 to R378). -/
def configOf (gen : Nat) : Bytes :=
  natLE 64 (0x4746435A + 2 ^ 32 + 9200 * 2 ^ 48 + gen * 2 ^ 64) ++
  natLE 64 (2 * 2 ^ 4 + 2000 * 2 ^ 16 + 850 * 2 ^ 32 + 10 * 2 ^ 48 + 2 * 2 ^ 64 + 3 * 2 ^ 72 + 31 * 2 ^ 80 + 2 ^ 96 + 30 * 2 ^ 112 + 60 * 2 ^ 160) ++
  List.replicate 192 0 ++ natLE 64 (7 + 15 * 2 ^ 256) ++ List.replicate 8816 0
theorem test_configOk : configOk (configOf 1) = true := by decide +kernel
/-- A bundle of four sections of one byte at 4,096 (R380, R381), of a version, with the digest of its own bytes. -/
def bundleRest : Bytes := ((List.range 4).flatMap (fun i => natLE 32 (i + 1 + 4096 * 2 ^ 32 + 2 ^ 64))) ++ List.replicate 3841 0
/-- The whole: header, sections, signature. -/
def bundleAs (version : Nat) (digest : Bytes) : Bytes :=
  natLE 32 (0x4257465A + 2 ^ 32 + 4 * 2 ^ 56 + version * 2 ^ 64 + 11953 * 2 ^ 96) ++ digest ++ List.replicate 64 0 ++ bundleRest ++ List.replicate 7856 0
/-- Its digest right: SHA-256 of the rest, computed apart. -/
def bundle0 : Bytes := bundleAs 7 (natLE 32 0xf81c19f01294ece389e44c2c55c2176685e65280d5a0c00d5a10dde2b534c016)
/-- A module that waits for firmware, the first n bytes of a bundle received. -/
def awaiting (b : Bytes) (n : Nat) : State :=
  (desk .free).modBoot (fun k => { k with state := .awaitFw, fwChunks := b.take n })
/-- The rest of a bundle from byte n on. -/
def chunkOf (b : Bytes) (n last : Nat) : Msg := msgOf 0x10 0 9 last (natLE 8 n ++ natLE 8 0 ++ b.drop n)
/-- The hypotheses of the clauses on LOAD_FW but those on the bundle. -/
def loadsFw (b : Bytes) (n last : Nat) : Bool :=
  let s := awaiting b n
  let m := chunkOf b n last
  acceptable s m (.loadFw m true) session0 && s.heats.toList.all (fun h => h.phase == .free) && s.com.boot.security == .up && decide (16 ≤ m.body.length)
    && decide (m.body.length ≤ mib + 16) && leAt m.body 8 8 == 0 && leAt m.body 0 8 == s.com.boot.fwChunks.length
    && decide (s.com.boot.fwChunks.length + m.body.length - 16 ≤ 16777216) && msgLast m == (last == 1)
/-- Hypotheses of FirmwareAndConfigurationLoad: a chunk in the middle; the last one, of bundle0 and of 40 bytes that are no bundle. -/
theorem wit_FirmwareAndConfigurationLoad_chunk : loadsFw (List.replicate 40 1) 8 0 = true := by decide +kernel
theorem wit_FirmwareAndConfigurationLoad_last : (awaiting bundle0 11900).com.boot.fwChunks ++ (chunkOf bundle0 11900 1).body.drop 16 = bundle0 ∧
    loadsFw bundle0 11900 1 = true ∧ bundleOk bundle0 = true := by
  refine ⟨?_, by decide +kernel, by decide +kernel⟩
  show bundle0.take 11900 ++ (natLE 8 11900 ++ natLE 8 0 ++ bundle0.drop 11900).drop 16 = bundle0
  rw [List.drop_left' (by decide), List.take_append_drop]
/-- It is trusted where the fused digest of key 0 is that of its key, not revoked. -/
theorem bytesAt_middle (a m c : Bytes) (i n : Nat) (hi : a.length = i) (hn : m.length = n) : bytesAt (a ++ m ++ c) i n = m := by
  subst hi hn; simp [bytesAt]
theorem bundle0_digest : (sha256 bundleRest == bundleDigest bundle0) = true := by decide +kernel
theorem wit_FirmwareAndConfigurationLoad_trusted (hk : Config.fwKeyDigest 0 = sha256 (List.replicate 32 0)) (hr : Config.fwKeyRevoked 0 = false) :
    bundleTrusted bundle0 = true ∧ configMinFw ((awaiting bundle0 11900).com.boot.config.getD []) ≤ bundleVersion bundle0 := by
  have h1 : fld (leAt bundle0 0 8) 49 48 = 0 := by decide +kernel
  have h2 : bytesAt bundle0 64 32 = List.replicate 32 0 := by decide +kernel
  have h3 : bytesAt bundle0 128 (bundle0.length - 7856 - 128) = bundleRest :=
    bytesAt_middle _ bundleRest (List.replicate 7856 0) 128 _ (by decide +kernel) (by decide +kernel)
  refine ⟨?_, by decide +kernel⟩
  simp only [bundleTrusted, h1, h2, h3, bundle0_digest, hk, hr, beq_self_eq_true, Bool.not_false, Bool.and_self]
theorem wit_FirmwareAndConfigurationLoad_bad : (let b : Bytes := List.replicate 40 1
    loadsFw b 8 1 && !bundleOk ((awaiting b 8).com.boot.fwChunks ++ (chunkOf b 8 1).body.drop 16)) = true := by decide +kernel
/-- WRITE_CONFIG of generation 2 over none and over a running image of generation 0; the owner key is the one whose digest is fused. -/
def writes : Msg := msgOf 0x11 0 9 0 (configOf 2)
theorem wit_FirmwareAndConfigurationLoad_config (hk : Config.ownerDigest = sha256 (List.replicate 32 0)) :
    acceptable (desk .free) writes (.writeConfig writes true) session0 = true ∧ (desk .free).com.boot.security = .up ∧ configOk writes.body = true ∧
    ownerKeyOk writes.body = true ∧ ∀ c, (desk .free).com.boot.config = some c → configGen c < configGen writes.body := by
  have h : configOwner writes.body = List.replicate 32 0 := by decide +kernel
  refine ⟨by decide +kernel, by decide +kernel, by decide +kernel, ?_, ?_⟩
  · simp only [ownerKeyOk, h, hk, beq_self_eq_true]
  · intro c hc
    have e : (desk .free).com.boot.config = some (List.replicate 1344 0) := rfl
    rw [e] at hc
    cases hc
    decide +kernel
/-- Hypotheses of ResetsTakeEffect: heat 3, and the module. -/
theorem wit_ResetsTakeEffect : (let m := msgOf 0x12 3 9 0 [0]
    acceptable (desk .running) m (.resetHeat m) session0 && m.body.length != 0 && leAt m.body 0 1 == 0 && msgHeat m == (3 : Fin 4).val) = true ∧
    (let m := msgOf 0x12 0xFF 9 0 [1]
    acceptable (desk .running) m (.resetModule m) session0) = true := by decide +kernel
/-- The smallest admission record: a block of each kind but ports, 4 ways (R396). -/
def adm0 : Nat := 1 + 2 ^ 4 + 2 ^ 16 + 2 ^ 20 + 16 * 2 ^ 24 + 2 ^ 35 + 2 ^ 40 + 2 ^ 56 + 2 ^ 64 + 4 * 2 ^ 78
/-- The desk with four heats allowed by the layout strap. -/
def openDesk (ph : HeatPhase) : State := (desk ph).modBoot (fun b => { b with straps := some { memMode := 0, memDens := 0, feedId := 0, slotId := 0, heatLayout := 3 } })
/-- A chunk of LOAD_IMAGE for heat 0: offset, admission record, bytes. -/
def chunk (off adm last : Nat) (data : Bytes) : Msg :=
  msgOf 0x20 0 9 last (natLE 8 off ++ natLE 8 0 ++ (if off = 0 then natLE 64 adm else []) ++ data)
/-- The hypotheses on the chunk. -/
def chunkMeets (s : State) (m : Msg) : Bool := acceptable s m (.loadImage m) session0 && leAt m.body 8 8 == 0 && msgHeat m == (0 : Fin 4).val &&
  decide ((m.body.drop (if leAt m.body 0 8 = 0 then 80 else 16)).length ≤ mib)
/-- Hypotheses of JobsAreControlled: LOAD_IMAGE of a first chunk that is admitted, one that is not (no cluster block), one that follows. -/
theorem wit_JobsAreControlled_first : ([0, 1].all (fun last => let m := chunk 0 adm0 last [1, 2, 3]
    chunkMeets (openDesk .free) m && ((openDesk .free).heat 0).phase == .free && leAt m.body 0 8 == 0 && decide (80 ≤ m.body.length) && msgLast m == (last == 1) &&
      ran (((openDesk .free).took m).admitHeat 0 (leAt m.body 16 64)) (fun _ => true))) = true := by decide +kernel
theorem wit_JobsAreControlled_refused : (let m := chunk 0 (adm0 - 1) 0 []
    chunkMeets (openDesk .free) m && ((openDesk .free).heat 0).phase == .free && leAt m.body 0 8 == 0 && decide (80 ≤ m.body.length) && !msgLast m &&
      match ((openDesk .free).took m).admitHeat 0 (leAt m.body 16 64) with | .ok _ => false | .error st => st == eConfig) = true := by decide +kernel
theorem wit_JobsAreControlled_next : ([0, 1].all (fun last => let m := chunk 3 0 last []
    let s := (openDesk .loading).modHeat 0 (fun h => { h with chunks := [1, 2, 3] })
    chunkMeets s m && (s.heat 0).phase == .loading && leAt m.body 0 8 == (s.heat 0).chunks.length && m.body.length == 16 && msgLast m == (last == 1))) = true := by
  decide +kernel
/-- START of module 1 of two. -/
def startMsg0 : Msg := msgOf 0x21 0 9 0 (natLE 128 (2 ^ 64 + 2 * 2 ^ 76 + 2 ^ 90 + 10 * 2 ^ 192 + 2 * 2 ^ 208 + 3 * 2 ^ 216 + 31 * 2 ^ 224 + 2 ^ 240))
/-- The desk with an image of two modules and a server. -/
def linkedDesk (ph : HeatPhase) : State :=
  (openDesk ph).modHeat 0 (fun h => { h with image := some { linked with secs := ⟨0x0B, wide, natLE 64 (2 ^ 8)⟩ :: linked.secs } })
theorem wit_JobsAreControlled_start : ([HeatPhase.loaded, .stopped].all (fun ph => let s := linkedDesk ph
    acceptable s startMsg0 (.start startMsg0) session0 && (s.heat 0).phase == ph && match (s.heat 0).image with
      | some p => startOk p s.com.boot.settings startMsg0.body
      | none => false)) = true := by decide +kernel
theorem wit_JobsAreControlled_stop : (let s := linkedDesk .running
    let m := msgOf 0x22 0 9 0 []
    let n := msgOf 0x23 0 9 0 (natLE 8 1 ++ [3])
    acceptable s m (.stopAtHurdle m) session0 && acceptable s n (.checkpointNow n) session0 && (s.heat 0).phase == .running && n.body.length == 9 &&
      rsv (leAt n.body 8 1) 7 2 && decide ((s.heat 0).hu.step < leAt n.body 0 8)) = true := by decide +kernel
theorem wit_JobsAreControlled_rearm : (let s := linkedDesk .running
    let m := msgOf 0x24 0 9 0 [1, 0]
    acceptable s m (.rearm m) session0 && (s.heat 0).phase == .running && m.body.length == 2 && leAt m.body 0 1 == 1 &&
      decide (leAt m.body 1 1 < ((s.heat 0).image.map Program.serverCount).getD 0)) = true := by decide +kernel

/-- Hypotheses of SessionsAreKept: connections with three and four sessions. -/
theorem wit_SessionsAreKept_connect : ([3, 4].all (fun n =>
    let s := powered.modMgmt (fun m => { m with link := true, sessions := List.replicate n session0 })
    s.com.mgmt.link && s.session 6 == none && s.com.mgmt.sessions.length == n && s.com.boot.endpoint.2 == (0, 0) && s.com.boot.endpoint.2 != (0, 4920))) =
    true := by decide +kernel
/-- A session of each phase. -/
theorem wit_SessionsAreKept_phases : ([SessionPhase.listen, .challenged, .attached].all (fun ph =>
    let s := managed { session0 with phase := ph } powered
    s.session 5 == some { session0 with phase := ph } && s.serving)) = true := by decide +kernel
/-- ATTACH of phase 0 by key record 0. -/
def attach0 : Msg := { msgOf 1 0xFF 0 0 (natLE 16 0 ++ List.replicate 32 0 ++ natLE 32 7) with tag := zeroTag }
/-- ATTACH of phase 1. -/
def attach1 : Msg := { msgOf 1 0xFF 1 0 (natLE 16 1 ++ List.replicate 8944 0) with tag := zeroTag }
/-- Their tag is zero; one that is not, is not. -/
theorem wit_SessionsAreKept_tags : attach0.tag = zeroTag ∧ attach1.tag = zeroTag ∧ ({ attach0 with tag := [] } : Msg).tag ≠ zeroTag :=
  ⟨rfl, rfl, by decide⟩
/-- A session before it is attached. -/
def fresh (ph : SessionPhase) : Session := { Session.fresh 5 0 with phase := ph, rights := 7 }
/-- A module whose configuration is valid, with that session. -/
def configured (ph : SessionPhase) : State := managed (fresh ph) (powered.modBoot (fun b => { b with config := some ((configOf 1).take 1344) }))
theorem wit_SessionsAreKept_attach : ([(attach0, SessionPhase.listen, 80), (attach1, .challenged, 8960)].all (fun r =>
    let s := configured r.2.1
    let m := r.1
    s.session 5 == some (fresh r.2.1) && m.conn == 5 && m.hdr.length == 32 && !msgUnframed m && m.body.length == msgLen m && msgType m == 1 && msgRsvOk m
      && s.com.boot.security == .up && m.body.length == r.2.2)) = true ∧
    leAt attach0.body 0 4 = 0 ∧ (configured .listen).attachRights (leAt attach0.body 4 4) (bytesAt attach0.body 48 32) = some 7 ∧
    leAt attach1.body 0 4 = 1 ∧ leAt attach1.body 4 12 = 0 := by decide +kernel
/-- An orphaned module whose grace has begun. -/
theorem wit_SessionsAreKept_orphan : (let s := ((configured .listen).modMgmt (fun m => { m with orphanSince := some 3, sessions := [] })).setHeat 0 (heat0 (imageOf []))
    let t := s.modBoot (fun b => { b with config := some (List.replicate 64 0 ++ natLE 64 (60 * 2 ^ 128)) })
    t.com.mgmt.orphanSince == some 3 && t.orphaned && t.com.boot.setting 159 128 == 60 && t.com.boot.scheduler == .up) = true := by decide +kernel
/-! The fabric. Flits are built with the module's own transmitter's layout (R218, R219). -/

/-- A port with lane 0 trained and in lock. -/
def port0 : Port :=
  { Port.reset with
    lanes := Port.reset.lanes.set 0 { Lane.reset with up := true, lock := true }
    tx := { Tx.reset with mask := 1, credits := #v[8, 8, 8, 32] } }
/-- A module whose heat 0 runs the linked image as module own, with port 0 up. -/
def fabricOf (own : Nat) (ph : HeatPhase) : State :=
  ((powered.setHeat 0 { heat0 linked with phase := ph, job := some { job0 with moduleId := own } }).setPort 0 port0)
/-- A flit on lane 0 of port 0. -/
def flitOf (hdr : Nat) (pay : Bytes) (seq : Nat) : FlitRx := { port := 0, lane := 0, bytes := flitBytes hdr pay seq 4095 0 0 }
/-- Its CRC replaced. -/
def spoil (f : FlitRx) (crc : Nat → Nat) : FlitRx := { f with bytes := f.bytes.take 276 ++ natLE 4 (crc (crc32 (f.bytes.take 276))) }
/-- Whether a flit is seen. -/
def seen (s : State) (f : FlitRx) : Bool := f.bytes.length == 280 && !(s.port f.port).retired && (s.port f.port).lanes[f.lane].up &&
  !(s.port f.port).lanes[f.lane].retired && (s.port f.port).lanes[f.lane].lock
/-- Whether it is accepted. -/
def taken (s : State) (f : FlitRx) (hdr : Nat) (pay : Bytes) : Bool := seen s f && crcGood f.bytes && leAt f.bytes 0 16 == hdr && bytesAt f.bytes 16 256 == pay &&
  (hdrType hdr == 0 || (decide (3 ≤ hdrType hdr) && decide (hdrType hdr ≤ 5))) && fld (leAt f.bytes 272 8) 11 0 == (s.port f.port).rx.expect
/-- Whether heat 0 runs on port 0 with an image. -/
def portRuns (s : State) (p : Program) : Bool := (s.heatOfPort 0).map Prod.fst == some 0 && (s.heat 0).image == some p && (s.heat 0).phase == .running
/-- Hypotheses of FlitsAreReceived, first clause: a wrong CRC and a stomped one, at the lane in lock and at one that is not. -/
theorem wit_FlitsAreReceived_crc : ([(fun c => (c + 1) % 2 ^ 32, false), (fun c => 2 ^ 32 - 1 - c, true)].all (fun r =>
    let f := spoil (flitOf (ctlHdr 4 0 1 0) [] 0) r.1
    f.bytes.length == 280 && (flitRows f).contains (.ack f) && leAt f.bytes 276 4 != crc32 (f.bytes.take 276) &&
      (leAt f.bytes 276 4 + crc32 (f.bytes.take 276) == 2 ^ 32 - 1) == r.2)) = true := by decide +kernel
/-- An IDLE; a REPLAY that names a sent flit; an ACK of a wrong number. -/
theorem wit_FlitsAreReceived_idle : (let f := flitOf 1 [] 0
    (flitRows f).contains (.ack f) && seen (fabricOf 1 .running) f && crcGood f.bytes && hdrType (leAt f.bytes 0 16) == 1) = true := by decide +kernel
theorem wit_FlitsAreReceived_replay : (let s := (fabricOf 1 .running).modPort 0 (fun k => { k with tx := { k.tx with seq := 8, replay := [⟨7, ⟨3, [], none⟩, 0, [], true⟩] } })
    let f := flitOf 2 (natLE 2 7) 0
    seen s f && crcGood f.bytes && hdrType (leAt f.bytes 0 16) == 2 &&
      (((s.trailerTaken f).pump 0).port 0).tx.replay.findIdx? (fun e => e.seq == leAt (bytesAt f.bytes 16 256) 0 2 % 4096) == some 0) = true := by decide +kernel
theorem wit_FlitsAreReceived_order : (let s := fabricOf 1 .running
    let f := flitOf (ctlHdr 4 1 0 0) [] 1
    seen s f && crcGood f.bytes && hdrType (leAt f.bytes 0 16) == 4 && portRuns s linked && fld (leAt f.bytes 272 8) 11 0 != (s.port 0).rx.expect) = true := by
  decide +kernel
/-- The hypotheses of RoutedFlitsAreTakenIn, of a flit; own says whether it is for this module. -/
def routed (hdr : Nat) (pay : Bytes) (own : Bool) : Bool :=
  let s := fabricOf 1 .running
  taken s (flitOf hdr pay 0) hdr (bytesAt pay 0 256) && portRuns s linked && (hdrDest hdr == (s.heat 0).ownId) == own
/-- A ZERO block of one granule for module 1, on tag 3, in one flit (R243). -/
def zeroHdr : Nat := setFld (setFld (setFld (dataHdr 0 false 1 0 3 0 false 0 0) 44 36 8) 5 5 1) 6 6 1
/-- Its frame. -/
def zeroPay : Bytes := bytesAt (rawBlock (List.replicate 32 0) (crc32c (List.replicate 32 0))) 0 256
theorem wit_RoutedFlitsAreTakenIn : [routed zeroHdr zeroPay true, routed (ctlHdr 4 1 0 0) (List.replicate 256 0) true, routed (ctlHdr 4 0 1 0) (List.replicate 256 0) false,
    routed (ctlHdr 3 0 0 0) (bytesAt [1] 0 256) false] = [true, true, true, true] := by decide +kernel
theorem wit_RoutedFlitsAreTakenIn_block : hdrType zeroHdr = 0 ∧ bitAt zeroHdr 5 = true ∧ bitAt zeroHdr 6 = true ∧
    (match decodeFramed (port0.rx.tables.toList) (zeroPay.take (hdrLen zeroHdr)) with | .ok r => r == (List.replicate 32 0, 3) | .error _ => false) = true := by
  decide +kernel
/-- A port of no heat. -/
theorem wit_RoutedFlitsAreTakenIn_held : (let s := powered.setPort 0 port0
    s.heatOfPort 0 == none && taken s (flitOf zeroHdr zeroPay 0) zeroHdr zeroPay && taken s (flitOf (ctlHdr 4 1 0 0) zeroPay 0) (ctlHdr 4 1 0 0) zeroPay) = true := by
  decide +kernel
/-- The block waits to land (R238). -/
theorem test_zeroBlock : ((after (.dataFlit (flitOf zeroHdr zeroPay 0)) (fabricOf 1 .running)).heat 0).ejected = [⟨0, 0, 3, false, 0, 0, 0, List.replicate 32 0⟩] := by
  decide +kernel
/-- A LINK_CTL message is accepted, and p holds of the port. -/
def ctlMeets (s : State) (pay : Bytes) (p : Port → Bool) : Bool :=
  taken s (flitOf (ctlHdr 3 0 0 0) pay 0) (ctlHdr 3 0 0 0) (bytesAt pay 0 256) && hdrType (ctlHdr 3 0 0 0) == 3 && p (s.port 0)
/-- Hypotheses of LinkMessagesAct: TABLE of the last slot, TABLE_ACK, BLOCK_NACK at the second and third failure, LANE_RETIRE and LANE_ACK that
leave a lane and none, SUB_RETIRE and SUB_ACK. -/
theorem wit_LinkMessagesAct : (let s := fabricOf 1 .running
    let out := s.modPort 0 (fun k => { k with tx := { k.tx with tableOut := some 2 } })
    let raw := fun (fs : List Nat) => s.modPort 0 (fun k => { k with tx := { k.tx with raws := [⟨0, zeroHdr, [], 0, 4, some 9, some 9, none, fs⟩] } })
    [ctlMeets s [2, 3, 1] (fun _ => true), ctlMeets out [3, 2] (fun k => k.tx.tableOut == some 2),
     ctlMeets (raw []) [4, 4, 9, 0] (fun k => (k.tx.raws.find? (fun r => r.sub == 4 && r.first == some 9)).isSome),
     ctlMeets (raw [4, 4]) [4, 4, 9, 0] (fun k => (k.tx.raws.find? (fun r => r.sub == 4 && r.first == some 9)).isSome),
     ctlMeets s [5, 1] (fun k => k.lanesUp == [0]), ctlMeets s [5, 0] (fun _ => true), ctlMeets s [6, 1] (fun _ => true),
     ctlMeets s [7, 0, 0, 0] (fun _ => true), ctlMeets s [8, 0, 1, 0] (fun _ => true)]) = List.replicate 9 true := by decide +kernel

/-- A good lane frame header of a lane (R217). -/
def frame0 (lane : Nat) : Bytes :=
  let b := natLE 8 (lane + 2 ^ 16 + 5 * 2 ^ 32)
  (List.range 64).map (fun k => BitVec.ofNat 8 (0x5A + 0x3B * k)) ++ b ++ natLE 4 (crc32c b) ++ List.replicate 124 0
/-- Hypotheses of LanesAndLinksAct: a lane to train. -/
theorem wit_LanesAndLinksAct_train : (let s := powered.setPort 0 Port.reset
    !(s.port 0).retired && !(s.port 0).lanes[7].retired && !(s.port 0).lanes[7].up && s.com.boot.flashRead) = true := by decide +kernel
/-- A header of lane 0 on lane 0, one of lane 1 there, and one whose mask differs from another lane's at the same count; a bad one. -/
theorem wit_LanesAndLinksAct_frame : (let s := fabricOf 1 .running
    let two := s.modPort 0 (fun k => { k with lanes := k.lanes.set 1 { Lane.reset with up := true, count := some 5, mask := 3 } })
    let wrong := fun (s : State) (h : Bytes) => leAt h 64 1 != 0 || (s.port 0).lanes.toList.any (fun o => o.up && o.count == some (leAt h 68 4) && o.mask != leAt h 66 1)
    [(s, frame0 0, true, false), (s, frame0 1, true, true), (two, frame0 0, true, true), (s, List.replicate 200 0, false, true)].map (fun r =>
      r.2.1.length == 200 && !(r.1.port 0).lanes[0].retired && (r.1.port 0).lanes[0].up && frameGood r.2.1 == r.2.2.1 && (!r.2.2.1 || wrong r.1 r.2.1 == r.2.2.2)))
    = [true, true, true, true] := by decide +kernel
/-- A table to install, a replay, a link that is down. -/
theorem wit_LanesAndLinksAct_rest : (let p := { port0 with
      rx := { port0.rx with pend := [(3, ⟨1, []⟩)], asm := [⟨0, 0, 0, natLE 8 (1 + 2 * 4), none⟩] }
      tx := { port0.tx with replay := [⟨7, ⟨3, [], none⟩, 0, [], true⟩] } }
    !p.retired && p.rx.pend == [(3, ⟨1, []⟩)] && p.rx.asm.all (fun a => fld (leAt a.bytes 0 8) 3 2 != 3) && !p.tx.replay.isEmpty && p.canSend &&
      !({ Port.reset with downSince := some 3 } : Port).anyLane) = true := by decide +kernel
/-- The third good frame in succession gives lock (R217). -/
theorem test_lock : ((([0, 1, 2].foldl (fun (s : State) _ => after (.laneFrame 0 0 (frame0 0) (Vector.replicate 16 (some 0))) s)
    ((fabricOf 1 .running).modPort 0 (fun k => { k with lanes := k.lanes.set 0 { Lane.reset with up := true } }))).port 0).lanes[0]).lock = true := by
  decide +kernel
/-- Hypotheses of BlocksLand, of a block: its tag, epoch, offset and bytes decide its status; each check's edge. -/
theorem wit_BlocksLand : (let e := fun (ep tag off : Nat) (bt : Bool) => (⟨0, 0, tag, bt, 0, ep, off, List.replicate 32 0⟩ : Ejected)
    [(e 0 3 31 false, 0), (e 1 3 0 false, 0), (e 2 3 0 false, eLate), (e 0 5 0 false, eDesc), (e 0 3 32 false, eLimit), (e 0 0 (2 ^ 21) true, eLimit)].map (fun r =>
      let h : Heat := { (fabricOf 1 .running).heat 0 with ejected := [r.1], acks := [⟨0, [], 5⟩] }
      let b := r.1
      let units := b.bytes.length / 32
      h.image == some linked && h.ejected == [b] && ((fabricOf 1 .running).setHeat 0 h).landReach 0 linked b && (h.acks.find? (fun g => g.dest == 0)).isSome &&
        ((if 2 ≤ (b.epoch + 4 - h.epoch) % 4 then eLate else if !b.baton && !linked.tagValid b.tag then eDesc
          else if (if b.baton then decide (halfBytes linked < 32 * (b.off + units)) else decide (linked.tagUnits b.tag < b.off + units)) then eLimit else 0 : Nat)) == r.2))
    = List.replicate 6 true := by decide +kernel
/-! Hurdles. -/

/-- A child, not joined. -/
def child1 : Child := ⟨1, none, none, 0, false, 0⟩
/-- A module at hurdle count n, with its child where it is the root. -/
def hurdling (own n : Nat) : State :=
  (fabricOf own .running).modHu 0 (fun u => { u with count := n, children := if own = 0 then [child1] else [] })
/-- A message from the other module is accepted as HurdleMessagesAct has it, and p holds of message and hurdle unit. -/
def hearsIn (s : State) (own : Nat) (m : HMsg) (p : HMsg → Hurdle → Bool) : Bool :=
  let hdr := ctlHdr 5 own (1 - own) 0
  let pay := bytesAt m.bytes 0 256
  taken s (flitOf hdr pay 0) hdr pay && portRuns s linked && hdrType hdr == 5 && hdrDest hdr == (s.heat 0).ownId && p (parseHMsg pay) (s.heat 0).hu
/-- The same at a hurdle count. -/
def hears (own n : Nat) (m : HMsg) (p : HMsg → Hurdle → Bool) : Bool := hearsIn (hurdling own n) own m p
/-- A message of a kind from the other module. -/
def hmsg (own msg count : Nat) : HMsg := { msg := msg, origin := 1 - own, count := count, step := 4 }
/-- Hypotheses of HurdleMessagesAct, in the order of its clauses; ARRIVE and HOLD at the count and beyond; a JOIN of an earlier count. -/
theorem wit_HurdleMessagesAct : [hears 0 0 (hmsg 0 1 0) (fun m u => m.msg == 1 && m.count == u.count && (u.child m.origin).any (fun c => c.joined.isNone)),
    hears 0 2 (hmsg 0 2 2) (fun m u => m.msg == 2 && decide (u.count ≤ m.count)), hears 0 2 (hmsg 0 3 3) (fun m u => m.msg == 3 && decide (u.count ≤ m.count)),
    hears 0 2 { hmsg 0 4 2 with reason := 2 } (fun m _ => m.msg == 4 && ((hurdling 0 2).heat 0).isRoot),
    hears 1 2 { hmsg 1 5 2 with decision := 0 } (fun m u => m.msg == 5 && m.decision == 0 && m.count == u.count && u.deferred == [] && !(hurdling 1 2).decideWaits 0),
    hears 1 2 { hmsg 1 5 2 with decision := 1 } (fun m u => m.msg == 5 && m.decision == 1 && m.count == u.count && u.deferred == [] && !(hurdling 1 2).decideWaits 0),
    hears 1 2 { hmsg 1 5 2 with decision := 2 } (fun m u => m.msg == 5 && m.decision == 2 && m.count == u.count && u.deferred == [] && !(hurdling 1 2).decideWaits 0),
    hears 1 2 (hmsg 1 6 0) (fun m _ => m.msg == 6),
    hears 1 0 (hmsg 1 7 0) (fun m u => m.msg == 7 && u.count == 0 && u.feed == none && m.origin == linked.partner ((hurdling 1 0).heat 0).ownId),
    hears 0 2 (hmsg 0 1 1) (fun m u => m.msg == 1 && decide (m.count < u.count))] = List.replicate 10 true := by decide +kernel
/-- A DECIDE of each kind while an earlier GO is held: of the pending count, and of the one after it where that one waits too. -/
theorem wit_HurdleMessagesAct_waits : ([0, 1, 2].all (fun d => [0, 1].all (fun n =>
    let s := (hurdling 1 2).modHu 0 (fun u => { u with goHeld := true, deferred := List.replicate n [] })
    hearsIn s 1 { hmsg 1 5 (2 + n) with decision := d } (fun m u => m.msg == 5 && m.decision == d && m.count == u.count + u.deferred.length && s.decideWaits 0)))) =
    true := by decide +kernel
/-- GO of the pending count advances it, and the step (R264). -/
theorem test_go : (let u := ((after (.decideGo (flitOf (ctlHdr 5 1 0 0) (bytesAt { hmsg 1 5 2 with decision := 0 }.bytes 0 256) 0)) (hurdling 1 2)).heat 0).hu
    (u.count, u.step)) = (3, 1) := by decide +kernel
/-- FALSE_START advances the count alone (R269). -/
theorem test_falseStart : (let u := ((after (.decideFalseStart (flitOf (ctlHdr 5 1 0 0) (bytesAt { hmsg 1 5 2 with decision := 1 }.bytes 0 256) 0)) (hurdling 1 2)).heat 0).hu
    (u.count, u.step, u.falseStarts)) = (3, 0, 1) := by decide +kernel
/-- Hypotheses of HurdleTimersAct: every cluster at its HURDLE; a root with nothing held; one at the start hurdle; an ARRIVE without its DECIDE;
a hold. -/
theorem wit_HurdleTimersAct : (let at_ := (List.finRange 64).foldl (fun (s : State) c => s.modCl c (fun k => { k with
      queues := k.queues.set qLink [⟨0, 0, 0, true, 0x32, .arrived, 0, 0⟩] })) (hurdling 1 2)
    ((at_.heat 0).phase == .running && (at_.heat 0).live && (at_.heat 0).hu.count != 0 && !(at_.heat 0).hu.arrived && !at_.decideWaits 0 && at_.allArrived 0) &&
    [(hurdling 0 2, false), (hurdling 0 0, true)].all (fun r => (r.1.heat 0).phase == .running && (r.1.heat 0).isRoot && ((r.1.heat 0).hu.count == 0) == r.2 &&
      (r.1.heat 0).hu.heldSince == none && (r.1.heat 0).hu.deferred == []) &&
    (let t := (hurdling 1 2).modHu 0 (fun u => { u with arriveAt := some 5, heldSince := some 6 })
     (t.heat 0).phase == .running && (t.heat 0).hu.arriveAt == some 5 && !(t.heat 0).hu.hung && (t.heat 0).hu.deferred == [] && (t.heat 0).hu.heldSince == some 6)) = true := by decide +kernel
/-- Hypotheses of FalseStartRestores: a cluster at work with its snapshot, and no fold that takes effect. -/
theorem wit_FalseStartRestores : (let s := (hurdling 1 2).modCl 15 (fun k => { k with core := { k.core with snap := some ⟨8, Vector.replicate 32 0, []⟩ } })
    (s.heat 0).clusterList.contains 15 && !(s.cl 15).retired && (s.dueFolds (s.heat 0)).isEmpty && (s.cl 15).core.snap.isSome) = true := by decide +kernel
/-- A fold that takes effect: the even cluster of the last pair has retired, its mate has a snapshot. -/
theorem wit_FalseStartRestores_fold : (let s := ((hurdling 1 2).modCl 14 (fun k => { k with retired := true })).modCl 15 (fun k => { k with
      core := { k.core with snap := some ⟨8, Vector.replicate 32 0, []⟩ } })
    s.dueFolds (s.heat 0) == [(14, 15)] && (s.heat 0).clusterList[15]? == some 15 && !(s.cl 15).retired && (s.cl 15).core.snap.isSome) = true := by decide +kernel
/-! Numbers, canonical order, the memory system. -/

/-- Hypotheses of NumbersKeepTheirFormats: the largest code of each format; a NaN and a finite word. -/
theorem wit_NumbersKeepTheirFormats : ([fp32, bf16, fp16, e4m3, e5m2, e3m2, e2m3, e2m1].all (fun f => decide (2 ^ f.width - 1 < 2 ^ f.width))) = true ∧
    (v32 0x7F800001).isNan = true ∧ (v32 0x7F7FFFFF).isFin = true ∧ (v32 0xFF800000).isNan = false := by decide +kernel
/-- Hypotheses of ConversionsRoundToNearest: 1 lies in every format's range, 2 to the 200 beyond it; code 0 is another finite code. -/
theorem wit_ConversionsRoundToNearest : ([fp32, bf16, fp16, e4m3, e5m2, e3m2, e2m3, e2m1].all (fun f =>
    decide (f.magCode 1 0 ≤ f.maxCode) && decide (f.maxCode < f.magCode 1 200) && f.magCode 1 0 != 0)) = true := by decide +kernel
/-- Hypotheses of SegmentStackIsTree and ReduceSetIsTree. -/
theorem wit_SegmentStackIsTree : ([some 1, none, some 3] : List (Option Nat)).length < 2 ^ 64 := by decide
theorem wit_ReduceSetIsTree : ([some 1, none, some 3] : List (Option Nat)).length ≤ 2 ^ 32 := by decide
/-- The tree of three operands joins the first two (R55). -/
theorem test_tree : canonTree (fun a b : Nat => 10 * a + b) [some 1, some 2, some 3] = some 123 := by decide +kernel
/-- Hypotheses of TwoByteErrorsAreCorrected. -/
theorem wit_TwoByteErrorsAreCorrected : (List.replicate 32 (7 : Byte)).length = 32 ∧ 2 ^ 40 - 1 < 2 ^ 40 := by decide

/-- A module whose heat 0 holds three positions, of an order. -/
def memoryOf (order : Nat) : State :=
  ((powered.setHeat 0 { heat0 (imageOf []) with blocks := (1, 1, 1) }).modBoot (fun b => { b with order := order, config := some (List.replicate 64 0 ++ natLE 64 (2 * 2 ^ 4)) }))
/-- The stored bytes of a granule of sevens at granule 0. -/
def stored0 : Bytes := let s := memoryOf 1
  List.replicate 32 7 ++ rsEncode (s.codeAddr (s.placeOf (s.heat 0) 0).1 (s.placeOf (s.heat 0) 0).2 0) (List.replicate 32 7)
/-- Data of the reads. -/
def data7 : Bytes := List.replicate 32 7
/-- Hypotheses of ReadsAreDecoded: what the reads of granule 0 come to. -/
def readsTo (order : Nat) (reads : List GranuleRead) (p : List ReadResult → Option ReadPlan → Bool) : Bool :=
  let s := memoryOf order
  let at_ := s.placeOf (s.heat 0) 0
  let rs := reads.map (decodeRead (order == 3) (s.codeAddr at_.1 at_.2 0))
  !reads.isEmpty && reads.all (fun r => r.wf && readForm (s.com.boot.order == 3) r) && (s.heat 0).phase != .free && decide (32 * 0 < s.capacity (s.heat 0))
    && decide (at_.1 < 96) && (planRead rs).isSome && p rs (planRead rs)
/-- On an LPDDR6 module: clean; one byte wrong, then clean. -/
theorem wit_ReadsAreDecoded_lpddr : readsTo 1 [.word stored0] (fun rs _ => rs == [.clean data7]) = true ∧
    readsTo 1 [.word (stored0.set 3 9), .word stored0] (fun rs _ => rs == [.corrected data7, .clean data7]) = true := by decide +kernel
/-- On a GDDR7 module: a correction, rewritten, its read-back clean and not; uncorrectable, then clean; four times uncorrectable. -/
theorem wit_ReadsAreDecoded_gddr : readsTo 3 [.crcError data7, .crcError data7, .word data7] (fun rs p => rs == [.corrected data7, .corrected data7, .clean data7] &&
      p.any (fun p => p.rewrite && p.failed == 0)) = true ∧
    readsTo 3 [.crcError data7, .deviceUncorrectable, .crcError data7] (fun rs p => rs == [.corrected data7, .bad, .corrected data7] && p.any (fun p => p.failed == 1)) = true ∧
    readsTo 3 [.deviceUncorrectable, .word data7] (fun rs p => rs == [.bad, .clean data7] && p.any (fun p => p.retries == 1)) = true ∧
    readsTo 3 (List.replicate 4 .deviceUncorrectable) (fun rs p => rs == [.bad, .bad, .bad, .bad] && p.any (fun p => p.data == none)) = true := by decide +kernel
/-- The data read is the granule's (R196). -/
theorem test_read : ((after (.memReadDecode 0 0 [.crcError data7, .word data7] none) (memoryOf 3)).heat 0).mem.num 0 2 = 0x0707 := by decide +kernel
/-- Hypotheses of MemoryEventsAct: power is good; a channel to train at its first and third attempt. -/
theorem wit_MemoryEventsAct_train : ([0, 2].all (fun n => let s := (memoryOf 1).modChan 95 (fun k => { k with attempts := n })
    s.com.pw.good && s.com.boot.flashRead && s.com.boot.state != .recovery && s.com.boot.state != .halted && !(s.com.chans[(95 : Fin 96)]).up &&
      !(s.com.chans[(95 : Fin 96)]).retired && decide (95 < 12 * s.positionChans))) = true := by decide +kernel
/-- A position of the heat, and its first channel. -/
theorem wit_MemoryEventsAct_service : (memoryOf 1).heatOfPos ((9 : Fin 96).val / (memoryOf 1).positionChans) = some 0 ∧
    (8 : Fin 96).val = (9 : Fin 96).val / (memoryOf 1).positionChans * (memoryOf 1).positionChans := by decide +kernel
/-- A channel of the heat that has retired and is migrating; its first line and its last. -/
theorem wit_MemoryEventsAct_migrate : (let s := ((memoryOf 1).modChan 9 (fun k => { k with retired := true, moving := true })).modHeat 0 (fun h => { h with retired := [9] })
    let h := s.heat 0
    let before := (s.heatStages h).takeWhile (fun t => t.c != s.chanName h 9)
    s.heatOfPos ((9 : Fin 96).val / s.positionChans) == some 0 && (s.com.chans[(9 : Fin 96)]).moving &&
      ((s.heatStages h)[before.length]?).any (fun t => decide (0 + 1 < t.count))) = true := by decide +kernel
/-! The sample pipeline and the media engines. -/

/-- A SAMPLE_PLAN header: one server, one recipe, a claim ratio of 100, a record region and a sample region of 1 MiB (R277); server 0 on both
ports (R278). -/
def plan0 : Bytes := natLE 128 (2 ^ 8 + 2 ^ 15 + 1000 * 2 ^ 128 + 100 * 2 ^ 176 + 0x200000 * 2 ^ 224 + 0x100000 * 2 ^ 272 + 0x400000 * 2 ^ 320 + 0x100000 * 2 ^ 368) ++
  natLE 64 (3 * 2 ^ 176)
/-- The linked image with it. -/
def piped : Program := { linked with secs := ⟨0x0B, wide, plan0⟩ :: linked.secs }
/-- A running heat 0 with a pipeline; both feed ports up. -/
def pipeState (f : Pipeline → Pipeline) : State :=
  ((((powered.setHeat 0 { heat0 piped with pipe := f Pipeline.reset }).modFeed 0 (fun k => { k with up := true })).modFeed 1 (fun k => { k with up := true })))
/-- A read of a queue pair, sent at time 3. -/
def read0 (what : Fetch) (len : Nat) : Read := { newRead what 0x1000 5 len with sentAt := some 3, psn := 1 }
/-- A pipeline whose pair of port 1 and server 63 has a held read and then that one. -/
def reading (r : Read) : State := pipeState (fun p => { p with qps := [{ freshQp 1 63 0 with reads := [{ r with sentAt := none, nakAt := some 4 }, r], cnpOut := some 0, cnpIn := some 0 }] })
/-- The hypotheses on the heat. -/
def pipes (s : State) : Bool := (s.heat 0).phase == .running && (s.heat 0).image == some piped
/-- Hypotheses of SamplesAreFetched: an entry's answer and a record's, the first with its data short of nothing. -/
theorem wit_SamplesAreFetched_answers : ([Fetch.entry 7, .record 7 0].all (fun w => let s := reading (read0 w 64)
    pipes s && (s.com.feed[(1 : Fin 2)]).up && ((s.heat 0).qp (1 : Fin 2).val (63 : Fin 64).val).oldest == some (1, read0 w 64) && (List.replicate 64 (0 : Byte)).length == (read0 w 64).len)) = true := by
  decide +kernel
/-- A fetch, and a frame that fails on a port with no read outstanding. -/
theorem wit_SamplesAreFetched_idle : (let s := pipeState id
    pipes s && !s.frozenHeat 0 && (s.com.feed[(1 : Fin 2)]).up && ((s.heat 0).qp (1 : Fin 2).val (63 : Fin 64).val).oldest == none) = true := by decide +kernel
/-- A record of one text part of 4 bytes (R281), and one that is malformed. -/
def record0 : Bytes := natLE 32 (0x3152535A + 2 ^ 32) ++ natLE 16 (48 + 4 * 2 ^ 32 + 0x30 * 2 ^ 64) ++ [97, 98, 99, 100]
/-- Sample 7, landed, whose table entry gives a check. -/
def landed (bs : Bytes) (check fails : Nat) : State :=
  ((pipeState (fun p => { p with samples := [⟨7, .landed, check * 2 ^ 160, some (256, bs.length), false, none, [], none, fails, false⟩] })).modHeat 0
    (fun h => { h with mem := storeOf [(0x200100, bs)], tok := storeOf [(0, [1])] }))
/-- What the landed record of sample 7 comes to. -/
def lands (bs : Bytes) (check fails : Nat) (p : Bool → Except Nat (List PartSt) → Bool) : Bool :=
  let s := landed bs check fails
  !s.frozenHeat 0 && pipes s && ((s.heat 0).sample 7).any (fun x => x.phase == .landed && x.record_ == some (256, bs.length) && x.checkFails == fails &&
    (let b := (s.heat 0).mem.get (piped.recordRegion.1 + 256) bs.length
     p (crc32c b == fld x.entry 191 160) (parseRecord piped (s.heat 0).tok (piped.aug (fld x.entry 15 8)) b)))
theorem wit_SamplesAreFetched_records : lands record0 (crc32c record0) 0 (fun c r => c && ran r (fun ps => ps.length == 1)) = true ∧
    lands [1, 2, 3] (crc32c [1, 2, 3]) 0 (fun c r => c && !ran r (fun _ => true)) = true ∧ lands record0 0 1 (fun c _ => !c) = true ∧ lands record0 0 2 (fun c _ => !c) = true := by
  decide +kernel
/-- A record rejected at its third failed check leaves a sample that is ready, with reason RECORD (R294, R295). -/
theorem test_recordRejected : (((after (.recordLanded 0 7) (landed record0 0 2)).heat 0).sample 7).map (fun x => (x.phase, x.reject)) = some (.ready, some 5) := by decide +kernel
/-- Hypotheses of QueuePairsKeepTime: a read sent again six times and seven; a held one; a CNP 50 µs ago and less. -/
theorem wit_QueuePairsKeepTime : ([6, 7].all (fun n => let s := reading { read0 (.entry 7) 64 with tries := n }
    pipes s && ((s.heat 0).qp 1 63).oldest == some (1, { read0 (.entry 7) 64 with tries := n }))) = true ∧
    (let s := reading (read0 (.entry 7) 64)
     let q := (s.heat 0).qp 1 63
     q.reads.find? (fun r => r.nakAt.isSome) = some { read0 (.entry 7) 64 with sentAt := none, nakAt := some 4 } ∧ q.cnpOut = some 0 ∧ q.cnpIn = some 0 ∧
     s.now < 0 + 50 * micro ∧ 0 + 50 * micro ≤ ({ s with now := 50 * micro } : State).now) := by decide +kernel
/-- Hypotheses of RateStaysInRange, at both ends of the range. -/
theorem wit_RateStaysInRange : ([1024, 65536].all (fun r => let s := pipeState (fun p => { p with qps := [{ freshQp 1 63 0 with rate := r, cnpIn := some 0 }] })
    ((s.heat 0).qp 1 63).rate == r && [Instr.cnpReceived 0 1 63, .rateRecovery 0 1 63].all (fun i => match exec i s with | .next t => t != s | _ => false))) = true := by decide +kernel
/-- A module whose feed port 1 has an IPv4 address, and an IPv6 one. -/
def addressed (a : Nat) : State :=
  (powered.modBoot (fun b => { b with config := some (List.replicate 256 0 ++ natLE 64 (0x0A0B0C0D0E0F + a * 2 ^ 64)) })).modFeed 1 (fun k => { k with up := true })
/-- Hypotheses of FeedPortsAnswer. -/
theorem wit_FeedPortsAnswer : ([(0xFFFF * 2 ^ 32 + 0xC0A80001, ([0xC0, 0xA8, 0, 1] : Bytes)), (2 ^ 127 + 1, 0x80 :: (List.replicate 14 0 ++ [1]))].all (fun r => let s := addressed r.1
    (s.com.boot.portRecord 1).any (fun p => fld p 191 64 == r.1 && (fld p 191 64 == 0xFFFF * 2 ^ 32 + beNat r.2 || r.2.length != 4) && (fld p 191 64 == beNat r.2 || r.2.length != 16))
      && (s.com.feed[(1 : Fin 2)]).up && !(s.com.feed[(1 : Fin 2)]).retired)) = true := by decide +kernel
/-- A port that is already down. -/
theorem wit_FeedPortsAnswer_down : (let s := powered.modFeed 0 (fun k => { k with downSince := some 0 })
    !(s.com.feed[(0 : Fin 2)]).retired && (s.com.feed[(0 : Fin 2)]).downSince.isSome) = true := by decide +kernel
/-- A feed channel of cluster 0, its ring of two entries at 0x100, and sample 7 ready (R286, R287). -/
def posting : State :=
  (pipeState (fun p => { p with posting := true, order := [7], sent := [0], samples := [⟨7, .ready, 0, none, true, none, [], none, 0, false⟩] })).modHeat 0 (fun h => { h with
    chans := [⟨⟨none, 0, 0, 0, 256, 2, 0x100⟩, 0, 0, 0, 0, (0, 0)⟩] })
/-- Hypotheses of SamplesArePosted. -/
theorem wit_SamplesArePosted : (let u := posting.settleSamples 0 piped
    pipes posting && (u.heat 0).pipe.posting && !u.frozenHeat 0 && u.nextPost 0 == some (0, 7) &&
      ((u.heat 0).chans[((u.heat 0).chans.filter (fun c => c.def_.prod.isSome)).length + 0]?).any (fun c => ((u.heat 0).clusterList[(u.heat 0).runs c.def_.cons]?).isSome)) = true := by
  decide +kernel

/-- A part of a codec on a unit, its survey done or not. -/
def part0 (codec u : Nat) (survey : Option VideoPlan) : PartSt := ⟨codec, 0, 48, 4, .onUnit u, survey, [], none, []⟩
/-- Sample 7 with that part. -/
def onUnit (codec u : Nat) (survey : Option VideoPlan) : State :=
  (pipeState (fun p => { p with samples := [⟨7, .decoding, 0, some (256, 64), false, none, [part0 codec u survey], none, 0, false⟩] })).modHeat 0 (fun h => { h with
    mem := storeOf [(0x200130, [97, 98, 99, 100])], tok := storeOf [(0, [1])], media := [0, 8, 16] })
/-- An AV1 sequence header of w columns and 20 rows, and a picture that needs no reference. -/
def av1 (w : Nat) : SeqHdr := ⟨w, 20, 8, .c420, .av1 0 false, none, false⟩
/-- Its kind and its metadata as given. -/
def pic0 (k : PicKind) (metas : List (Nat × Bytes)) : VideoPic := ⟨0, k, true, [0], 0, none, metas, none, [], [3, 5], [0], []⟩
/-- What the survey of the part makes of one picture. -/
def surveys (w : Nat) (v : VideoPic) : Except Nat Surveyed :=
  surveyPart 0x10 piped.claimRatio 4 (piped.aug (fld 0 15 8)) (draw ((onUnit 0x10 0 none).heat 0).seed 7 4 0) [av1 w] [v]
/-- Hypotheses of MediaEnginesAct: a video part before its survey; a key frame, a start whose references a fill slot stands for (R318, R319), a
picture beyond the claim, one that is no start point. -/
theorem wit_MediaEnginesAct_survey : (onUnit 0x10 0 none).partOn 0 7 0 = some (piped, part0 0x10 0 none, 0) ∧ codecVideo 0x10 = true ∧
    (part0 0x10 0 none).survey = none ∧ (((onUnit 0x10 0 none).heat 0).sample 7).isSome = true ∧ seqCodec (av1 20) = 0x10 ∧
    ran (surveys 20 (pic0 .key [])) (fun v => v.fill == none) = true ∧
    ran (surveys 20 (pic0 .other [(24, [0x5A, 0x47, 1, 1])])) (fun v => v.fill == some [3, 5]) = true ∧
    ([surveys 21 (pic0 .key []), surveys 20 (pic0 .other [])].map (fun r => match r with
      | .error e => e
      | .ok _ => 0)) = [1, 3] := by decide +kernel
/-- A JPEG whose claim is too large, and a text that decodes. -/
theorem wit_MediaEnginesAct_part : (let s := onUnit 1 8 none
    let o := Decoded.jpeg ⟨0, 8, 21, 20, false, none, [⟨1, 1, 3, []⟩], true⟩
    s.partOn 0 7 0 == some (piped, part0 1 8 none, 8) && o.wf && ((s.heat 0).sample 7).any (fun x => match partResult (s.heat 0) piped x (part0 1 8 none) [97, 98, 99, 100] o with
      | some (.error r) => r == 1
      | _ => false)) = true ∧
    (let s := onUnit 0x30 22 none
    s.partOn 0 7 0 == some (piped, part0 0x30 22 none, 22) && Decoded.wf .text && ((s.heat 0).sample 7).any (fun x =>
      match partResult (s.heat 0) piped x (part0 0x30 22 none) ((s.heat 0).mem.get (piped.recordRegion.1 + (x.record_.getD (0, 0)).1 + 48) 4) .text with
      | some (.ok _) => true
      | _ => false)) = true := by decide +kernel
/-- The plan of one grey picture. -/
def plan1 : VideoPlan := ⟨1, 20, 20, 8, 1, [0], [⟨true, [0], 20, 20, 8, .grey, false, [0], []⟩]⟩
/-- A surveyed part on pair 0, with a picture under reconstruction there and without. -/
theorem wit_MediaEnginesAct_picture : ([none, some 0].all (fun k =>
    let s := (onUnit 0x10 0 (some plan1)).modMedia 0 (fun m => { m with slots := List.replicate 3 ⟨false, [], false, none⟩, current := k })
    let w : Planes := ⟨20, 20, 8, List.replicate 400 0, [], []⟩
    s.partOn 0 7 0 == some (piped, part0 0x10 0 (some plan1), 0) && s.pairPart 0 == some (0, 7, 0) && w.wf &&
      plan1.todo.all (fun x => x.w == w.w && x.h == w.h && x.depth == w.depth && x.form == .grey) &&
      ((([1].foldl (fun s j => s.readSlot 0 piped 7 0 0 (slotBytes 20 20 8) j) (s.mediaTime 0)).com.media[(0 : Fin 22)]).current == k))) = true := by decide +kernel
/-- The picture is in its slot, held for augmentation (R317). -/
theorem test_picture : (let s := (onUnit 0x10 0 (some plan1)).modMedia 0 (fun m => { m with slots := List.replicate 3 ⟨false, [], false, none⟩, current := some 1 })
    let t := after (.pictureDecoded 0 [] (some ⟨20, 20, 8, List.replicate 400 7, [], []⟩)) s
    (((t.com.media[(0 : Fin 22)]).slots[1]?).map (fun x => (x.cur, x.refs, x.out_)), (t.heat 0).mem.num (s.slotAddr 0 piped 0 1 4096) 2)) =
    (some (false, [0], true), 0x0707) := by decide +kernel
/-- Hypotheses of StalledUnitsStartAgain: a part on unit 8, and an encode request on unit 20. -/
theorem wit_StalledUnitsStartAgain : ((onUnit 1 8 none).com.media[(8 : Fin 22)]).retired = false ∧ (onUnit 1 8 none).com.store.dumping = none ∧
    ((List.finRange 4).flatMap (fun hi => ((onUnit 1 8 none).heat hi).pipe.samples)).flatMap (fun x => x.parts.filter (fun q => q.phase == .onUnit (8 : Fin 22).val)) ≠ [] ∧
    (((encoding (.running 20 5)).com.media[(20 : Fin 22)]).retired = false ∧ (encoding (.running 20 5)).com.store.dumping = none ∧
     ((encoding (.running 20 5)).clusters.toList.flatMap (fun k => k.core.encs)).length = 1) := by decide +kernel
/-! Power, pacing, boot and faults. -/

/-- A module whose power has these fields; nothing else is up. -/
def wired (f : Power → Power) : State := State.reset.modPw f
/-- Hypotheses of RailsFollowInput, clause by clause, at its edges: the input rail rises and falls, PWR_EN rises, a step before the last and a
failure, a fall, each limit of the input, and a recovery at both ends of its range. -/
theorem wit_RailsFollowInput : (let p := fun (f : Power → Power) => (wired f).com.pw
    !(p id).standby && [0, 99, 100].all (fun low => let q := p (fun p => { p with standby := true, railFail := 3 })
      q.standby && !q.pwrEn && (decide (low < 100) || low == 100)) &&
    (let q := p (fun p => { p with standby := true, pwrEn := true, rising := true, rail := 7 })
     q.rising && decide (q.rail < 8) && !q.good && q.pwrEn && q.standby && !q.brownOut && !q.inputFault && !q.switchOpen && decide (44999 < 45000) && decide (41999 < 42000)
       && decide (60000 < 60001)) &&
    (let q := p (fun p => { p with standby := true, pwrEn := true, brownOut := true, inputFault := true })
     q.brownOut && q.standby && q.inputFault && q.pwrEn && !q.rising && !q.good && decide (46000 ≤ 46000) && decide (58000 ≤ 58000))) = true := by decide +kernel
/-- Hypotheses of EnvelopeIsHeld: at the limit less 50 W, beyond it, and at 100 W below; the lapse of a core that is down. -/
theorem wit_EnvelopeIsHeld : (let s := powered.modBoot (fun b => { b with config := some (List.replicate 64 0 ++ natLE 64 (2000 * 2 ^ 16)) })
    s.com.pw.standby && s.com.pw.good && s.com.boot.power == .up && s.powerLimit == 2000 && s.hardOver 2101 && !s.hardOver 2100 &&
    (let t := s.modPw (fun p => { p with overLim := true })
     t.com.pw.overLim && (s.modPw (fun p => { p with underSince := some 0 })).com.pw.underSince == some 0) &&
    ([1950, 1951, 1900, 1901].map (fun w => (decide (s.powerLimit < w + 50), decide (w + 100 ≤ s.powerLimit)))) == [(false, false), (true, false), (false, true), (false, false)] &&
    (let u := s.modBoot (fun b => { b with power := .restarting })
     u.com.pw.good && u.com.boot.power != .up && !u.com.pw.floor)) = true := by decide +kernel
/-- Hypotheses of SetpointsStayInRange: with the floor and without, pacing off and on; a cap; each ground that bars Sprint. -/
theorem wit_SetpointsStayInRange : (let f := powered.modPw (fun p => { p with floor := true })
    let c := (powered.modPw (fun p => { p with capMv := 750 })).modBoot (fun b => { b with config := none })
    f.com.pw.floor && !powered.com.pw.floor && !powered.pacingOn && c.com.pw.capMv == 750 && !c.com.pw.floor && c.pacingOn &&
      ({ Pacing.reset with cap700 := true, ceiling := 850 } : Pacing).cap700 && Pacing.reset.pace != 0 &&
      (powered.modPw (fun p => { p with pause := 1 })).com.pw.pause != 0 && decide (powered.powerLimit ≤ powered.com.pw.pin + 50)) = true := by decide +kernel
/-- Hypotheses of TemperatureAndClockAct: readings at the thresholds (92, 95 and 100 °C), a trip, a lost clock. -/
theorem wit_TemperatureAndClockAct : (powered.com.pw.standby && powered.com.pw.good && powered.com.boot.power == .up && !(powered.cl 0).retired && powered.com.pw.clockLost == none &&
    decide ((0 : Fin 64).val < ([380, 368, 400] : List Int).length) &&
    (let t := powered.modPw (fun p => { p with clockLost := some 5 })
     t.com.pw.clockLost == some 5 && t.com.pw.good)) = true := by decide +kernel
/-- At 95 °C Sprint ends, at 92 °C it may come again (R368). -/
theorem test_noSprint : (let t := after (.sensorRead [380] 0) powered
    ((t.cl 0).pc.noSprint, ((after (.sensorRead [367] 0) t).cl 0).pc.noSprint)) = (true, false) := by decide +kernel
/-- A cluster that is stalled in sum.get with nothing queued, awake, with pacing on; its last command gave a gap, or none did. -/
def stalled (g : Option Nat) : State :=
  ((coreState [sumGetWord]).modBoot (fun b => { b with config := some (List.replicate 64 0 ++ natLE 64 (2 ^ 13)) })).modCl 0 (fun k => { k with
    queues := Cluster.reset.queues, lastDone := match g with
      | some n => k.lastDone.set 0 (some ⟨0, n, 0, 0, false, 0⟩)
      | none => k.lastDone })
/-- A cluster's pacing replaced. -/
def paced (f : Pacing → Pacing) : State := (stalled none).modCl 0 (fun k => { k with pc := f k.pc })
/-- Hypotheses of PacingStatesAct: idle with no gap, and with gaps of 159.9 and 160 µs (R357, R360); the timers and the wake. -/
theorem wit_PacingStatesAct_idle : ([(none, PaceState.jog), (some 15999, .walk), (some 16000, .rest), (some 853, .jog), (some 854, .walk)].map (fun r => let s := stalled r.1
    let k := (s.cl 0).pc
    !k.st.asleep && k.move == .settled && s.com.boot.power == .up && !s.com.pw.floor && s.isIdle 0 && s.pacingOn && selectIdle (s.gapOf 0) == r.2)) =
    [true, true, true, true, true] := by decide +kernel
theorem wit_PacingStatesAct_rest : (let j := paced (fun k => { k with st := .jog, idleSince := some 0, exitAt := some 9 })
    let k := (j.cl 0).pc
    k.idleSince == some 0 && k.st == .jog && k.move == .settled && k.gap == none && j.pacingOn && k.exitAt == some 9 && !(j.cl 0).retired && k.st.asleep &&
      j.com.pw.good && ((paced (fun k => { k with st := .rest, move := .entering 5 })).cl 0).pc.move == .entering 5 &&
      ((paced (fun k => { k with st := .rest, move := .leaving 5 })).cl 0).pc.move == .leaving 5) = true := by decide +kernel
/-- Rest loses the accumulators (R357). -/
theorem test_rest : (((after (.pacingEntryDone 0) (paced (fun k => { k with st := .rest, move := .entering 5 }))).cl 0).acc != ⟨[], none⟩) = true := by decide +kernel

/-- A module at its eighth rail; then one that boots, with straps or without. -/
def booting (f : Boot → Boot) : State := { powered with com := { powered.com with boot := f Boot.reset } }
/-- Straps that name mode 0. -/
def straps0 : Straps := { memMode := 0, memDens := 0, feedId := 3, slotId := 0x15, heatLayout := 0 }
/-- Hypotheses of BootRuns: PWR_GOOD; straps that agree, and that do not before 100 ms and after; the flash read; links, drives, READY. -/
theorem wit_BootRuns : (let s := wired (fun p => { p with rail := 8 })
    let b := booting id
    let r := booting (fun b => { b with straps := some straps0 })
    let d := powered.modBoot (fun b => { b with state := .awaitFw })
    let e : State := { d with com := { d.com with chans := d.com.chans.map (fun (k : MemChan) => { k with up := true }) } }
    s.com.pw.rail == 8 && !s.com.pw.good && (List.replicate 7 straps0).length == 7 && b.com.pw.good && b.com.boot.straps == none && !b.com.boot.strapFail &&
      !b.com.boot.flashRead && r.com.pw.good && !r.com.boot.flashRead && r.com.boot.straps.isSome && !r.com.boot.strapFail && powered.com.boot.flashRead &&
      !(powered.com.feed[(1 : Fin 2)]).retired && !(powered.com.store.drives[(1 : Fin 2)]).retired && !(powered.com.store.drives[(1 : Fin 2)]).ready &&
      e.com.boot.state == .awaitFw && e.com.boot.scheduler == .up && !e.com.boot.readySent && e.trained) = true := by decide +kernel
theorem wit_BootRuns_straps : (∃ y ∈ List.replicate 7 straps0 ++ [{ straps0 with feedId := 4 }], y ≠ straps0) ∧ ∀ y ∈ List.replicate 7 straps0, y = straps0 := by decide
/-- Reading what was just programmed. -/
theorem flashGet_flashPut (s : State) (a : Nat) (bs : Bytes) : (s.flashPut a bs).flashGet a bs.length = bs := by
  apply List.ext_getElem
  · simp [State.flashGet, Mem.get]
  · intro i h1 h2
    have e : ((s.com.boot.flash).put a (bs.map (fun x => x ^^^ 0xFF))).read (a + i) = bs[i] ^^^ 0xFF := by
      rw [Mem.read_put_in _ _ _ _ (by omega) (by simpa using h2)]
      simp [List.getD_eq_getElem?_getD, h2]
    have : (s.flashPut a bs).com.boot.flash = (s.com.boot.flash).put a (bs.map (fun x => x ^^^ 0xFF)) := rfl
    simp only [State.flashGet, Mem.get, this, List.getElem_map, List.getElem_range, e, BitVec.xor_assoc, BitVec.xor_self, BitVec.xor_zero]
/-- A module that boots with a valid image in one slot or the other, where the owner key is the one whose digest is fused. -/
theorem wit_BootRuns_slots (hk : Config.ownerDigest = sha256 (List.replicate 32 0)) : ∀ base ∈ [0, 0x10000],
    configValid (((booting (fun b => { b with straps := some straps0 })).flashPut base (configOf 1)).flashGet base configSize) true = true ∧
    configValid (((booting (fun b => { b with straps := some straps0 })).flashPut base (configOf 1)).flashGet base configSize) false = false := by
  intro base _
  have hl : configSize = (configOf 1).length := by decide +kernel
  have h : configOwner (configOf 1) = List.replicate 32 0 := by decide +kernel
  rw [hl, flashGet_flashPut]
  simp [configValid, test_configOk, ownerKeyOk, h, hk]
/-- Hypotheses of CoresRestart: a cluster at work and one that restarts; each core up and restarting. -/
theorem wit_CoresRestart : (let s := running (imageOf []) Cluster.reset
    let r := s.modCl 0 (fun k => { k with core := { k.core with restarting := true } })
    let b := fun (f : Boot → Boot) => (powered.modBoot f).com.boot
    !(s.cl 0).retired && !(s.cl 0).core.restarting && (r.cl 0).core.restarting && r.com.boot.scheduler == .up && r.heatOfCl 0 == some (0, 0) && (r.heat 0).image == some (imageOf []) &&
      s.com.boot.power == .up && s.com.boot.security == .up && (b (fun b => { b with scheduler := .restarting })).scheduler == .restarting &&
      (b (fun b => { b with power := .restarting })).power == .restarting && (b (fun b => { b with security := .restarting, secFails := 2 })).secFails == 2 &&
      (s.heat 0).live && (s.heat 0).phase == .running && s.heatOfPort 0 == some (0, 0) && !(s.port 0).retired) = true := by decide +kernel
/-- A control core stalled in blk_issue while an encode completion waits, and while a summary does. -/
theorem wit_CoresRestart_deadlock : (let enc := (streaming [csrWrite 0x7C0 0] matmulRaw).modCl 0 (fun k => { k with core := { k.core with hurdleOpen := true, encs := [⟨0, 0, .done 0, []⟩] } })
    let sm := (streaming [csrWrite 0x7C0 0] matmulRaw).modCl 0 (fun k => { k with
      queues := k.queues.set qVector [⟨0, 0, 0, true, vecRaw, .summary 9, 0, 0⟩], core := { k.core with issued := fourIssued, sums := [1, 2, 3, 4] } })
    [enc, sm].all (fun s => s.heatOfCl 0 == some (0, 0) && (s.cl 0).core.running && (s.cl 0).halted == none && (s.cl 0).issueStalls && (s.cl 0).completionStuck &&
      (match (s.cl 0).fetch with | some (.blkIssue _ _ _, _) => true | _ => false))) = true := by decide +kernel

/-- A running heat with its drives and feed ports up, and checkpoint state as given. -/
def keeping (f : Ckpt → Ckpt) : State :=
  let s := powered.setHeat 0 { heat0 linked with ck := f Ckpt.reset }
  { s with com := { s.com with store := { s.com.store with drives := s.com.store.drives.map (fun (d : Drive) => { d with ready := true }) } } }
/-- Hypotheses of CheckpointsAreKept. -/
theorem wit_CheckpointsAreKept : (let s := (keeping (fun k => { k with hashing := [3], flash := some ⟨3, 0, 0⟩, store := some ⟨3, 1, 0⟩ })).modFeed 1 (fun k => { k with up := true })
    let d := s.modStore (fun k => { k with dumping := some view0 })
    (s.heat 0).image == some linked && (s.heat 0).ck.hashing == [3] && (s.heat 0).phase != .free && (s.heat 0).job.isSome && (s.heat 0).ck.flash.isSome &&
      s.headDrive == some 0 && !s.frozenHeat 0 && (s.heat 0).ck.store.isSome && s.storePort == some 1 && s.driveLive 1 && s.com.pw.good && s.com.boot.security == .up &&
      d.com.store.dumping == some view0 && view0.heat == (0 : Fin 4).val && (keeping id).storePort == none) = true := by decide +kernel
/-- Hypotheses of SmbusAnswers: straps latched, with a cause and without; none latched. -/
theorem wit_SmbusAnswers : (let s := (powered.modBoot (fun b => { b with straps := some straps0 })).modPw (fun p => { p with alert := 3 })
    s.com.pw.standby && s.com.boot.straps == some straps0 && s.com.pw.alert != 0 && powered.com.boot.straps == none && powered.com.pw.alert == 0) = true := by decide +kernel
/-- IDENT and the Alert Response Address of SLOT_ID 0x15, FEED_ID 3 (R435, R436). -/
theorem test_ident : (let s := (powered.modBoot (fun b => { b with straps := some straps0 })).modPw (fun p => { p with alert := 3 })
    ((after .ident s).out, (after .alertResponse s).out)) = ([.smbus 0x1503], [.smbus 0xCA]) := by decide +kernel
/-- Hypotheses of TapShifts: before PWR_GOOD and after. -/
theorem wit_TapShifts : ((wired (fun p => { p with standby := true })).com.pw.good, powered.com.pw.good, (wired (fun p => { p with standby := true })).com.pw.standby) = (false, true, true) := by
  decide +kernel
/-- IDCODE shifts out 0x35A4E9E7, bit 0 first (R437). -/
theorem test_idcode : (after .idcode powered).out = [.tdo ((List.range 32).map (fun i => bitAt 0x35A4E9E7 i))] := by decide +kernel
/-- Hypotheses of IdleAndPowerUpFromReset. -/
theorem wit_IdleAndPowerUpFromReset : State.reset.pending = [] := rfl
/-! The invariant, and commands that are not well formed. -/

/-- Hypotheses of StepKeepsInvariant: a module on its standby rail, with a command that has a next state. -/
theorem wit_StepKeepsInvariant : (∃ s : State, s.com.pw.standby = true ∧ s.Inv ∧ ∃ t, step s = .next t) := by
  refine ⟨{ wired (fun p => { p with standby := true }) with pending := [.idcode] }, rfl, ⟨fun c => ?_, fun h => ?_, fun p => ?_, ?_⟩, _, rfl⟩
  · have e : ({ wired (fun p => { p with standby := true }) with pending := [.idcode] } : State).cl c = Cluster.reset := by
      simp [State.cl, wired, State.modPw, State.modCom, State.reset]
    rw [e]
    exact ⟨rfl, rfl, rfl, rfl, by decide +kernel, (fun t h => by cases h), (fun q => by simp [Cluster.reset]), by decide, by decide, by decide, by decide⟩
  · have e : ({ wired (fun p => { p with standby := true }) with pending := [.idcode] } : State).heat h = Heat.reset := by
      simp [State.heat, wired, State.modPw, State.modCom, State.reset]
    rw [e]
    exact ⟨rfl, rfl, rfl, rfl⟩
  · have e : ({ wired (fun p => { p with standby := true }) with pending := [.idcode] } : State).port p = Port.reset := by
      simp [State.port, wired, State.modPw, State.modCom, State.reset]
    rw [e]
    exact ⟨by decide⟩
  · exact ⟨rfl, by decide, by decide, by decide⟩
/-- Hypotheses of WellFormedCommandsComplete. -/
theorem wit_WellFormedCommandsComplete : Instr.idcode.wf = true ∧ (Instr.strapLatch []).wf = false := by decide
/-- A command answers the fault of an ill-formed operand. -/
def refusesOperand (i : Instr) : Bool := !i.wf && match exec i powered with
  | .fault .illFormed => true
  | _ => false
/-- A header of 31 bytes (R386). -/
theorem test_ill_message : refusesOperand (.detach { conn := 5, hdr := List.replicate 31 0, body := [], tag := List.replicate 32 0 }) = true := by decide +kernel
/-- A flit of 279 bytes (R218). -/
theorem test_ill_flit : refusesOperand (.idle { port := 0, lane := 0, bytes := List.replicate 279 0 }) = true := by decide +kernel
/-- A frame header of 199 bytes (R217). -/
theorem test_ill_frame : refusesOperand (.laneFrame 0 0 (List.replicate 199 0) (Vector.replicate 16 none)) = true := by decide +kernel
/-- No read at all, and reads of 35 and 31 bytes (R195, R196). -/
theorem test_ill_reads : refusesOperand (.memReadDecode 0 0 [] none) = true ∧ refusesOperand (.memReadDecode 0 0 [.word (List.replicate 35 0)] none) = true ∧
    refusesOperand (.memReadDecode 0 0 [.crcError (List.replicate 31 0)] none) = true := by decide +kernel
/-- A JPEG without columns, one whose component has no sampling factor, and a FLAC code beyond its bits (R320, R323). -/
theorem test_ill_part : [Decoded.jpeg ⟨0, 8, 0, 2, false, none, [], true⟩, .jpeg ⟨0, 8, 2, 2, false, none, [⟨1, 0, 1, []⟩], true⟩,
    .audio ⟨48000, 1, 1, .flac 8 true true [[128]]⟩].all (fun d => refusesOperand (.partDecoded 0 0 0 d)) = true := by decide +kernel
/-- Planes with a luma code missing, and with one beyond the depth (R313). -/
theorem test_ill_planes : [(⟨2, 2, 8, [0, 0, 0], [], []⟩ : Planes), ⟨1, 1, 8, [256], [], []⟩].all (fun w => refusesOperand (.pictureDecoded 0 [] (some w))) = true := by
  decide +kernel
/-- Seven samples of the straps (R433). -/
theorem test_ill_straps : refusesOperand (.strapLatch (List.replicate 7 straps0)) = true := by decide +kernel
/-- Addresses of 5 and 15 bytes (R274). -/
theorem test_ill_addresses : refusesOperand (.arpRequest 0 (List.replicate 5 0)) = true ∧ refusesOperand (.neighborSolicitation 0 (List.replicate 15 0)) = true := by decide +kernel
/-- No row of the table gives bits: no word spells a command. -/
theorem test_decode : decodeTableWord 32 0x13 = none := by decide

end Sys2Proof.Tests
end

section
/-! SUPPORT. Boot (R5, R353, R370 to R374, R433): the state it begins with, the straps, the flash read, links, drives and READY. -/
namespace Sys2Proof.Machine

/-! PWR_GOOD. -/

/-- A reboot begins in BOOT with the security and power cores up; of boot only the flash and the order code stay (R370). -/
theorem State.reboot_boot (s : State) :
    s.reboot.com.boot = { Boot.reset with flash := s.reboot.com.boot.flash, order := s.com.boot.order, security := .up, power := .up } :=
  (logOnly_bootLog _).boot
/-- Every cluster, heat and port is at its reset value after a reboot (R370). -/
theorem State.reboot_units (s : State) :
    (∀ c, s.reboot.cl c = Cluster.reset) ∧ (∀ h, s.reboot.heat h = Heat.reset) ∧ (∀ p, s.reboot.port p = Port.reset) := by
  have hlog : SameCore _ s.reboot := (logOnly_bootLog _).core
  refine ⟨fun c => (hlog.cl c).trans ?_, fun h => (hlog.heat h).trans ?_, fun p => (hlog.port p).trans ?_⟩
  · simp [State.cl]
  · simp [State.heat]
  · simp [State.port]
/-- Time starts again at a reboot, and the commands that wait stay (R406). -/
theorem State.reboot_now_pending (s : State) : s.reboot.now = 0 ∧ s.reboot.pending = s.pending := by
  obtain ⟨-, -, -, hnow, -, hpending⟩ : SameCore _ s.reboot := (logOnly_bootLog _).core
  exact ⟨hnow, hpending⟩
/-- Sessions, reports and counters are gone after a reboot (R400, R407). -/
theorem State.reboot_mgmt_ctrs (s : State) : s.reboot.com.mgmt = Mgmt.reset ∧ s.reboot.com.ctrs = [] :=
  ⟨(logOnly_bootLog _).mgmt, (logOnly_bootLog _).ctrs⟩

/-- PWR_GOOD after the last rail reboots the module (R353, R434). -/
theorem exec_pwrGood_rises (s : State) (hrail : s.com.pw.rail = 8) (hlow : s.com.pw.good = false) :
    exec .pwrGood s = .next (s.reboot.modPw (fun p => { p with good := true, rising := false })) :=
  if_pos ⟨hrail, by simp [hlow]⟩

/-! Straps. -/

/-- Eight samples, with the straps still open: they are latched where they agree, and where they do not the deadline decides (R433). -/
theorem exec_strapLatch_open (s : State) (x : Straps) (rest : List Straps) (hlen : rest.length = 7) (hgood : s.com.pw.good = true)
    (hstraps : s.com.boot.straps = none) (hfail : s.com.boot.strapFail = false) (hread : s.com.boot.flashRead = false) :
    let u := s.reach (s.now + 800 * micro)
    exec (.strapLatch (x :: rest)) s =
      if rest.all (· == x) then .next (u.modBoot (fun b => { b with straps := some x, order := strapOrder x }))
      else if 100 * milli ≤ u.now then .next (u.modBoot (fun b => { b with strapFail := true })).halt
      else .next u := by
  have hopen : (!s.com.pw.good || s.com.boot.straps.isSome || s.com.boot.strapFail || s.com.boot.flashRead) = false := by
    simp [hgood, hstraps, hfail, hread]
  exact (if_pos (by simp [hlen])).trans (if_neg (by simp [hopen]))

/-! The flash read. -/

/-- Time leaves the boot part alone. -/
theorem State.reach_boot (s : State) (t : Nat) : (s.reach t).com.boot = s.com.boot := by
  obtain ⟨store, hcom, -⟩ := s.reach_com t
  rw [hcom]

/-- The image in a slot: A at 0, B at 64 KiB (R373). -/
def State.slotImage (u : State) (slot : Nat) : Bytes := if slot = 0 then u.flashGet 0 configSize else u.flashGet 0x10000 configSize
/-- What the flash read makes of the slot it selects: recovery without one; else the slot's image is the configuration, and its mode against
the straps gives AWAIT_FW or HALTED (R371, R374). -/
def State.bootFrom (u : State) : Option Nat → State
  | none => (u.modBoot (fun k => { k with flashRead := true, state := .recovery, slot := 0xFF, config := none })).alert 5
  | some slot =>
    let v := u.modBoot (fun b => { b with flashRead := true, slot := slot, config := some ((u.slotImage slot).take 1344) })
    if u.com.boot.strapFail then v
    else if (u.com.boot.straps.map Straps.memMode).getD 0 ≠ v.com.boot.setting 0 0 then v.halt
    else v.modBoot (fun b => { b with state := .awaitFw })

/-- The slot the read selects; where the flash did not answer, neither image counts as valid (R374). -/
def State.bootPick (u : State) (readOk sigA sigB : Bool) : Option Nat :=
  let a := u.flashGet 0 configSize
  let b := u.flashGet 0x10000 configSize
  selectSlot a b (readOk && configValid a sigA) (readOk && configValid b sigB)

/-- Where the flash did not answer, neither image counts and none is selected. -/
theorem selectSlot_readOk (readOk : Bool) (a b : Bytes) (va vb : Bool) :
    (if readOk then selectSlot a b va vb else none) = selectSlot a b (readOk && va) (readOk && vb) := by
  cases readOk <;> rfl

/-- The one flash read, once the straps are latched or given up (R370 to R374). -/
theorem exec_flashReadDone_once (readOk sigA sigB : Bool) (s : State) (hgood : s.com.pw.good = true) (hread : s.com.boot.flashRead = false)
    (hstraps : s.com.boot.straps.isSome = true ∨ s.com.boot.strapFail = true) :
    let u := s.reach (66 * milli)
    exec (.flashReadDone readOk sigA sigB) s = .next (u.bootFrom (u.bootPick readOk sigA sigB)) := by
  intro u
  have hdue : ¬ (!s.com.pw.good || s.com.boot.flashRead || (s.com.boot.straps.isNone && !s.com.boot.strapFail)) = true := by
    rw [hgood, hread, ← Option.not_isSome]
    rcases hstraps with h | h <;> simp [h]
  have hb : u.com.boot = s.com.boot := s.reach_boot _
  refine (if_neg hdue).trans ?_
  rw [State.bootPick, ← selectSlot_readOk]
  dsimp only
  split
  · next h => rw [h]; rfl
  · next slot h =>
    rw [h]
    simp only [State.bootFrom, hb, apply_ite Host.Outcome.next]
    rfl

/-- Slot A is selected where it is valid and B is not, or not newer (R374). -/
theorem selectSlot_a {a b : Bytes} {va vb : Bool} (hva : va = true) (h : vb = false ∨ configGen b ≤ configGen a) :
    selectSlot a b va vb = some 0 := by
  subst hva
  cases vb with
  | false => rfl
  | true =>
    have hle : configGen b ≤ configGen a := by simpa using h
    exact if_neg (by omega)
/-- Slot B is selected where it is valid and A is not, or is older (R374). -/
theorem selectSlot_b {a b : Bytes} {va vb : Bool} (hvb : vb = true) (h : va = false ∨ configGen a < configGen b) :
    selectSlot a b va vb = some 1 := by
  subst hvb
  cases va with
  | false => rfl
  | true =>
    have hlt : configGen a < configGen b := by simpa using h
    exact if_pos hlt
/-- A valid image is enough to leave recovery (R374). -/
theorem selectSlot_some {a b : Bytes} {va vb : Bool} (h : va = true ∨ vb = true) : ∃ slot, selectSlot a b va vb = some slot := by
  rcases Nat.lt_or_ge (configGen a) (configGen b) with hlt | hle
  · cases vb with
    | true => exact ⟨1, selectSlot_b rfl (.inr hlt)⟩
    | false => exact ⟨0, selectSlot_a (by simpa using h) (.inl rfl)⟩
  · cases va with
    | true => exact ⟨0, selectSlot_a rfl (.inr hle)⟩
    | false => exact ⟨1, selectSlot_b (by simpa using h) (.inl rfl)⟩

/-- The read is done once, writes no flash and touches no cluster, heat or port (R373). -/
theorem State.bootFrom_frame (u : State) (pick : Option Nat) :
    (u.bootFrom pick).com.boot.flashRead = true ∧ (u.bootFrom pick).com.boot.flash = u.com.boot.flash ∧ SameCore u (u.bootFrom pick) := by
  cases pick with
  | none => exact ⟨rfl, rfl, SameCore.refl u⟩
  | some slot =>
    simp only [State.bootFrom]
    split
    · exact ⟨rfl, rfl, SameCore.refl u⟩
    · split <;> exact ⟨rfl, rfl, SameCore.refl u⟩

/-- A bit that has been set is set. -/
theorem bitAt_or_two_pow (w i : Nat) : bitAt (w ||| 2 ^ i) i = true := by
  have hbit : (w ||| 2 ^ i).testBit i = true := by simp [Nat.testBit_or]
  rw [Nat.testBit_eq_decide_div_mod_eq, decide_eq_true_eq, ← Nat.shiftRight_eq_div_pow] at hbit
  exact beq_iff_eq.mpr hbit

/-- Without a valid image the module is in recovery, and ALERT_CAUSE bit 5 says so (R371, R436). -/
theorem State.bootFrom_none (u : State) : (u.bootFrom none).com.boot.state = .recovery ∧ (u.bootFrom none).com.boot.config = none ∧
    bitAt (u.bootFrom none).com.pw.alert 5 = true :=
  ⟨rfl, rfl, bitAt_or_two_pow _ 5⟩
/-- The selected slot is in use and its first 1,344 bytes are the running configuration (R374). -/
theorem State.bootFrom_some (u : State) (slot : Nat) : (u.bootFrom (some slot)).com.boot.slot = slot ∧
    (u.bootFrom (some slot)).com.boot.config = some ((u.slotImage slot).take 1344) := by
  simp only [State.bootFrom]
  split
  · exact ⟨rfl, rfl⟩
  · split <;> exact ⟨rfl, rfl⟩
/-- The module waits for firmware where the configured memory mode is the straps', and halts where it is not (R371). -/
theorem State.bootFrom_state (u : State) (slot : Nat) (x : Straps) (hfail : u.com.boot.strapFail = false) (hx : u.com.boot.straps = some x) :
    (u.bootFrom (some slot)).com.boot.state =
      if x.memMode = (u.bootFrom (some slot)).com.boot.setting 0 0 then .awaitFw else .halted := by
  simp only [State.bootFrom, hfail, hx, Option.map_some, Option.getD_some, Bool.false_eq_true, if_false]
  split
  · next hne => exact (if_neg hne).symm
  · next heq => exact (if_pos (not_not.mp heq)).symm

/-! Links, drives and READY. -/

/-- Once the flash is read, the management port's link comes up (R370, R372). -/
theorem exec_managementPortLinkUp_read (s : State) (hread : s.com.boot.flashRead = true) :
    exec .managementPortLinkUp s = .next (s.modMgmt (fun m => { m with link := true })) := if_pos hread
/-- Once the flash is read, the link of a feed port that is not retired comes up (R275, R370). -/
theorem exec_feedPortLinkUp_read (s : State) (fp : Fin 2) (hread : s.com.boot.flashRead = true) (h : (s.com.feed[fp]).retired = false) :
    exec (.feedPortLinkUp fp) s = .next (s.modFeed fp (fun k => { k with up := true, downSince := none })) :=
  if_pos (by rw [hread, h]; rfl)
/-- Once the flash is read, a drive that is not retired becomes ready (R370). -/
theorem exec_nvmeDriveReady_read (s : State) (d : Fin 2) (hread : s.com.boot.flashRead = true)
    (h : (s.com.store.drives[d]).retired = false) : exec (.nvmeDriveReady d) s = .next (s.modDrive d (fun k => { k with ready := true })) :=
  if_pos (by rw [hread, h]; rfl)
/-- A drive that is not ready at 2 s retires (R371). -/
theorem exec_nvmeReadyTimeout_late (s : State) (d : Fin 2) (hread : s.com.boot.flashRead = true)
    (h : (s.com.store.drives[d]).ready = false) : exec (.nvmeReadyTimeout d) s = .next ((s.reach (2 * second)).retireDrive d) :=
  if_pos (by rw [hread, h]; rfl)
/-- READY is reported once firmware runs and training has ended (R370, R393). -/
theorem exec_ready_trained (s : State) (hstate : s.com.boot.state = .awaitFw) (hsched : s.com.boot.scheduler = .up)
    (hsent : s.com.boot.readySent = false) (htrained : s.trained = true) :
    exec .ready s = .next (((s.reach (s.com.boot.loadedAt + 60 * milli)).modBoot (fun b => { b with state := .ready, readySent := true })).report
      0x01 0xFF 0 0 (natLE 4 s.com.boot.fwVersion)) :=
  if_pos ⟨hstate, hsched, by simp [hsent], htrained⟩

/-! The obligation. -/

/-- Settles O55: one lemma for each step of the boot sequence. -/
theorem bootRuns : Obligations.BootRuns := by
  unfold Obligations.BootRuns
  intro s
  refine ⟨fun hrail hlow => ?good, ?straps, ?flash, fun hread => ?links, exec_ready_trained s⟩
  case good =>
    obtain ⟨hcl, hheat, hport⟩ := s.reboot_units
    obtain ⟨hnow, hpending⟩ := s.reboot_now_pending
    obtain ⟨hmgmt, hctrs⟩ := s.reboot_mgmt_ctrs
    have hboot := s.reboot_boot
    exact ⟨_, exec_pwrGood_rises s hrail hlow, rfl, hnow, congrArg Boot.security hboot, congrArg Boot.power hboot, congrArg Boot.scheduler hboot,
      congrArg Boot.straps hboot, congrArg Boot.state hboot, hcl, hheat, hport, hmgmt, hctrs, hpending⟩
  case straps =>
    intro x rest hlen hgood hstraps hfail hread u
    rw [exec_strapLatch_open s x rest hlen hgood hstraps hfail hread]
    constructor
    · intro hagree
      exact if_pos (by simpa using hagree)
    · rintro ⟨y, hy, hne⟩
      have hdiffer : ¬ rest.all (· == x) = true := fun hall => hne (by simpa using List.all_eq_true.mp hall y hy)
      rw [if_neg hdiffer]
      by_cases hlate : 100 * milli ≤ u.now
      · rw [if_pos hlate, if_neg (Nat.not_lt.mpr hlate)]
      · rw [if_neg hlate, if_pos (Nat.lt_of_not_le hlate)]
  case flash =>
    intro readOk sigA sigB hgood hread hstraps u a b va vb
    have hboot : u.com.boot = s.com.boot := s.reach_boot _
    obtain ⟨hclusters, hports, hheats, -⟩ := s.reach_core (66 * milli)
    obtain ⟨hdone, hflash, hcl, hpo, hhe, hnow, -⟩ := u.bootFrom_frame (u.bootPick readOk sigA sigB)
    refine ⟨_, exec_flashReadDone_once readOk sigA sigB s hgood hread hstraps, hdone, hflash.trans (congrArg _ hboot), hnow,
      hcl.trans hclusters, hhe.trans hheats, hpo.trans hports, ?none, ?slotA, ?slotB, ?state⟩
    case none =>
      intro hva hvb
      have hpick : u.bootPick readOk sigA sigB = none := show selectSlot a b va vb = none by rw [hva, hvb]; rfl
      rw [hpick]
      exact u.bootFrom_none
    case slotA =>
      intro hva h
      have hpick : u.bootPick readOk sigA sigB = some 0 := selectSlot_a hva h
      rw [hpick]
      exact u.bootFrom_some 0
    case slotB =>
      intro hvb h
      have hpick : u.bootPick readOk sigA sigB = some 1 := selectSlot_b hvb h
      rw [hpick]
      exact u.bootFrom_some 1
    case state =>
      intro hvalid hfail x hx
      obtain ⟨slot, hpick⟩ : ∃ slot, u.bootPick readOk sigA sigB = some slot := selectSlot_some hvalid
      rw [hpick]
      exact u.bootFrom_state slot x (by rw [hboot, hfail]) (by rw [hboot, hx])
  case links =>
    exact ⟨exec_managementPortLinkUp_read s hread, fun fp => exec_feedPortLinkUp_read s fp hread,
      fun d => exec_nvmeDriveReady_read s d hread, fun d => exec_nvmeReadyTimeout_late s d hread⟩

end Sys2Proof.Machine
end

section
/-! SUPPORT. Landing and its acknowledgement (R28, R238, R239): the status the checks give a block, and the rows that land and acknowledge. -/
namespace Sys2Proof.Machine

/-- The status that the checks give a block at a heat of an epoch, in order: epoch, tag, extent, memory (R238, R239). -/
def Ejected.landStatus (b : Ejected) (epoch : Nat) (p : Program) (tagFail : Bool) : Nat :=
  let units := b.bytes.length / 32
  if 2 ≤ (b.epoch + 4 - epoch) % 4 then eLate
  else if b.baton = false ∧ p.tagValid b.tag = false then eDesc
  else if (if b.baton then halfBytes p < 32 * (b.off + units) else p.tagUnits b.tag < b.off + units) then eLimit
  else if tagFail then eCheck else 0

/-- A landing gives the block its status, and writes where that is OK and only there (R238). -/
theorem State.land_eq (s : State) (hi : Fin 4) (p : Program) (b : Ejected) (tagFail : Bool) :
    s.land hi p b tagFail = (b.landStatus (s.heat hi).epoch p tagFail,
      if b.landStatus (s.heat hi).epoch p tagFail ≠ 0 then s else if b.baton then s.landBaton hi p b else s.landData hi p b) := by
  unfold State.land Ejected.landStatus
  by_cases hlate : 2 ≤ (b.epoch + 4 - (s.heat hi).epoch) % 4
  · simp [hlate, eLate]
  by_cases htag : b.baton = false ∧ p.tagValid b.tag = false
  · simp [hlate, htag, eDesc]
  have htag' : (!b.baton && !p.tagValid b.tag) = false := by simpa using htag
  by_cases hextent : if b.baton then halfBytes p < 32 * (b.off + b.bytes.length / 32) else p.tagUnits b.tag < b.off + b.bytes.length / 32
  · simp [hlate, htag, htag', hextent, eLimit]
  · cases tagFail with
    | true => simp [hlate, htag, htag', hextent, eCheck]
    | false => simp [hlate, htag, htag', hextent]

/-- Taking a block off the queue of decoded blocks leaves the epoch it is checked against. -/
theorem State.epoch_eject (s : State) (h : Fin 4) (rest : List Ejected) :
    ((s.modHeat h (fun t => { t with ejected := rest })).heat h).epoch = (s.heat h).epoch := by
  rw [State.heat_modHeat_same]; rfl

/-- The oldest decoded block lands where its cluster accepts transfers, and is acknowledged with its status (R28, R238). -/
theorem exec_landingWrite_lands {s v : State} {h : Fin 4} {p : Program} {b : Ejected} {rest : List Ejected} {tagFail : Bool} {status : Nat}
    (himage : (s.heat h).image = some p) (hejected : (s.heat h).ejected = b :: rest) (hreach : s.landReach h p b = true)
    (hland : (s.modHeat h (fun t => { t with ejected := rest })).land h p b tagFail = (status, v)) :
    exec (.landingWrite h tagFail) s = .next ((if status = eLate ∧ b.port < 32 then v.bump 3 b.port 11 else v).pushAck h b.src
      (b.tag + b.epoch * 2 ^ 12 + status * 2 ^ 14 + b.off * 2 ^ 22 + (b.bytes.length / 32 - 1) * 2 ^ 44)) := by
  change execLandingWrite h tagFail s = _
  simp [execLandingWrite, himage, hejected, hreach, hland]

/-- The acknowledgements that wait for a module leave 64 stages after the first of them (R238, log 19). -/
theorem exec_ackFlush_waiting {s : State} {h : Fin 4} {dest : Nat} {g : AckGroup}
    (hwait : (s.heat h).acks.find? (fun g => g.dest == dest) = some g) :
    exec (.ackFlush h dest) s = .next ((s.reach (g.since + 400)).flushAck h dest) := by
  change execAckFlush h dest s = _
  simp only [execAckFlush, hwait]

/-- Settles O31: the block leaves the queue, which leaves the epoch it is checked against, and lands as `State.land_eq` says. -/
theorem blocksLand : Obligations.BlocksLand := by
  unfold Obligations.BlocksLand
  intro s h p b rest tagFail himage hejected hreach
  have hland := (s.modHeat h (fun t => { t with ejected := rest })).land_eq h p b tagFail
  rw [State.epoch_eject] at hland
  exact ⟨exec_landingWrite_lands himage hejected hreach hland, fun _ _ hwait => exec_ackFlush_waiting hwait⟩

end Sys2Proof.Machine
end

section
/-! SUPPORT. Canonical order (R55, R58): the trees of Tree.lean as aligned subtrees over one numbering of the leaves; the segment stack (R98)
and the leaf stack (R144) give the same subtree. -/
namespace Sys2Proof.Machine

section
variable {α : Type} (f : α → α → α)

/-! Aligned subtrees. -/

/-- Leaf i of a set, an empty leaf beyond its end (R55). -/
def leafAt (xs : List (Option α)) (i : Nat) : Option α := xs[i]?.join

/-- The subtree of R55 of height n at index i: it joins the leaves 2^n · i to 2^n · (i + 1) − 1 of g. -/
def subtree (g : Nat → Option α) : Nat → Nat → Option α
  | 0, i => g i
  | n + 1, i => combineO f (subtree g n (2 * i)) (subtree g n (2 * i + 1))

@[simp] theorem combineO_none (a : Option α) : combineO f a none = a := by cases a <;> rfl

@[simp] theorem leafAt_cons_zero (x : Option α) (xs : List (Option α)) : leafAt (x :: xs) 0 = x := rfl
@[simp] theorem leafAt_cons_succ (x : Option α) (xs : List (Option α)) (i : Nat) : leafAt (x :: xs) (i + 1) = leafAt xs i := rfl
theorem leafAt_eq_none {xs : List (Option α)} {i : Nat} (h : xs.length ≤ i) : leafAt xs i = none := by
  simp [leafAt, List.getElem?_eq_none h]
theorem leafAt_take {xs : List (Option α)} {n i : Nat} (h : i < n) : leafAt (xs.take n) i = leafAt xs i := by
  simp [leafAt, List.getElem?_take_of_lt h]
theorem leafAt_drop (xs : List (Option α)) (n i : Nat) : leafAt (xs.drop n) i = leafAt xs (n + i) := by
  simp [leafAt]
/-- Padding with empty entries changes no leaf (R55). -/
theorem leafAt_append_none (xs : List (Option α)) (k : Nat) : leafAt (xs ++ List.replicate k none) = leafAt xs := by
  funext i
  by_cases h : i < xs.length
  · simp [leafAt, List.getElem?_append_left h]
  · have hle : xs.length ≤ i := Nat.le_of_not_lt h
    rw [leafAt_eq_none hle]
    rw [leafAt, List.getElem?_append_right hle, List.getElem?_replicate]
    split <;> rfl

/-- A tree over aligned subtrees is an aligned subtree (R58). -/
theorem subtree_subtree (g : Nat → Option α) (m n i : Nat) : subtree f (subtree f g m) n i = subtree f g (m + n) i := by
  induction n generalizing i with
  | zero => rfl
  | succ n ih => exact congrArg₂ (combineO f) (ih _) (ih _)

/-- A subtree depends on its own leaves only. -/
theorem subtree_congr {g h : Nat → Option α} {n a b : Nat} (hleaf : ∀ j < 2 ^ n, g (2 ^ n * a + j) = h (2 ^ n * b + j)) :
    subtree f g n a = subtree f h n b := by
  induction n generalizing a b with
  | zero => simpa [subtree] using hleaf 0
  | succ n ih =>
    have left : subtree f g n (2 * a) = subtree f h n (2 * b) := ih fun j hj => by
      have := hleaf j (by omega)
      rwa [pow_succ, mul_assoc, mul_assoc] at this
    have right : subtree f g n (2 * a + 1) = subtree f h n (2 * b + 1) := ih fun j hj => by
      have := hleaf (2 ^ n + j) (by omega)
      convert this using 2 <;> ring
    exact congrArg₂ (combineO f) left right

/-- A subtree whose leaves are all empty is empty (R55). -/
theorem subtree_eq_none {g : Nat → Option α} {n i : Nat} (h : ∀ j, 2 ^ n * i ≤ j → g j = none) : subtree f g n i = none := by
  induction n generalizing i with
  | zero => exact h i (by simp)
  | succ n ih =>
    have left : subtree f g n (2 * i) = none := ih fun j hj => h j (by rwa [pow_succ, mul_assoc])
    have right : subtree f g n (2 * i + 1) = none := ih fun j hj => h j (by
      rw [pow_succ, mul_assoc]
      exact (Nat.mul_le_mul_left _ (Nat.le_succ _)).trans hj)
    exact congrArg₂ (combineO f) left right

/-- Levels above the one that covers every leaf pass the tree through (R55). -/
theorem subtree_mono {g : Nat → Option α} {n m : Nat} (h : ∀ j, 2 ^ n ≤ j → g j = none) (hnm : n ≤ m) :
    subtree f g m 0 = subtree f g n 0 := by
  induction m, hnm using Nat.le_induction with
  | base => rfl
  | succ m hnm ih =>
    have right : subtree f g m 1 = none := subtree_eq_none f fun j hj => h j (by
      have := Nat.pow_le_pow_right (n := 2) (by omega) hnm
      omega)
    calc subtree f g (m + 1) 0 = combineO f (subtree f g m 0) (subtree f g m 1) := rfl
      _ = subtree f g n 0 := by rw [right, combineO_none, ih]

/-- Any two heights that cover a set give the same tree. -/
theorem subtree_height {xs : List (Option α)} {n m : Nat} (hn : xs.length ≤ 2 ^ n) (hm : xs.length ≤ 2 ^ m) :
    subtree f (leafAt xs) n 0 = subtree f (leafAt xs) m 0 :=
  have covers {k : Nat} (hk : xs.length ≤ 2 ^ k) (j : Nat) (hj : 2 ^ k ≤ j) : leafAt xs j = none := leafAt_eq_none (hk.trans hj)
  (subtree_mono f (covers hn) (Nat.le_max_left n m)).symm.trans (subtree_mono f (covers hm) (Nat.le_max_right n m))

/-! The padded trees. -/

/-- A level of pairing gives the subtrees of height 1 (R55). -/
theorem leafAt_pairUp (xs : List (Option α)) : leafAt (pairUp f xs) = subtree f (leafAt xs) 1 := by
  funext i
  induction xs using pairUp.induct generalizing i with
  | case1 a b rest ih =>
    cases i with
    | zero => rfl
    | succ i => exact ih i
  | case2 a =>
    cases i with
    | zero => exact (combineO_none f a).symm
    | succ i => rfl
  | case3 => rfl

/-- n levels of pairing give the subtrees of height n (R55). -/
theorem leafAt_treeLevels (n : Nat) (xs : List (Option α)) : leafAt (treeLevels f n xs) = subtree f (leafAt xs) n := by
  induction n generalizing xs with
  | zero => rfl
  | succ n ih =>
    funext i
    rw [treeLevels, ih, leafAt_pairUp, subtree_subtree, Nat.add_comm]

/-- The tree of n levels over a set, padded or not, is the first subtree of height n (R55). -/
theorem head_treeLevels (n k : Nat) (xs : List (Option α)) :
    ((treeLevels f n (xs ++ List.replicate k none)).head?).join = subtree f (leafAt xs) n 0 := by
  rw [← leafAt_append_none xs k, ← leafAt_treeLevels, leafAt, List.head?_eq_getElem?]

/-- The padded length is a power of two not below the length (R55). -/
theorem le_two_pow_log2_pow2Ceil (n : Nat) : n ≤ 2 ^ (pow2Ceil n).log2 := by
  unfold pow2Ceil
  split
  · simpa
  · rw [Nat.log2_two_pow]
    have := Nat.lt_log2_self (n := n - 1)
    omega

/-- The canonical tree is the first subtree of any height that covers the set (R55). -/
theorem canonTree_eq_subtree {xs : List (Option α)} {n : Nat} (hn : xs.length ≤ 2 ^ n) :
    canonTree f xs = subtree f (leafAt xs) n 0 :=
  (head_treeLevels f _ _ xs).trans (subtree_height f (le_two_pow_log2_pow2Ceil _) hn)

/-! The segment stack (R98). -/

/-- The stack after j segments: the complete subtrees that the bits of j stand for, the smallest on top (R98). -/
def closedStack (g : Nat → Option α) (j : Nat) : List (Option α) :=
  if j = 0 then []
  else if j % 2 = 1 then g (j - 1) :: closedStack (subtree f g 1) (j / 2)
  else closedStack (subtree f g 1) (j / 2)
termination_by j

theorem closedStack_zero (g : Nat → Option α) : closedStack f g 0 = [] := by
  rw [closedStack, if_pos rfl]
theorem closedStack_even (g : Nat → Option α) (k : Nat) : closedStack f g (2 * k) = closedStack f (subtree f g 1) k := by
  cases k with
  | zero => rw [closedStack_zero, closedStack_zero]
  | succ k =>
    rw [closedStack, if_neg (by omega), if_neg (by omega), Nat.mul_div_cancel_left _ (by omega)]
theorem closedStack_odd (g : Nat → Option α) (k : Nat) :
    closedStack f g (2 * k + 1) = g (2 * k) :: closedStack f (subtree f g 1) k := by
  rw [closedStack, if_neg (by omega), if_pos (by omega), show (2 * k + 1) / 2 = k by omega, Nat.add_sub_cancel]

theorem ctz_odd (m k : Nat) : ctz (m + 1) (2 * k + 1) = 0 := by
  rw [ctz, if_pos (by simp)]
theorem ctz_even (m k : Nat) : ctz (m + 1) (2 * k) = ctz m k + 1 := by
  rw [ctz, if_neg (by simp), Nat.mul_div_cancel_left _ (by omega), Nat.add_comm]

/-- Closing segment j carries into the stack as adding 1 carries into the bits of j (R98). -/
theorem closeSeg_closedStack (m : Nat) (g : Nat → Option α) (j : Nat) (hj : j + 1 < 2 ^ m) :
    closeSeg f (ctz m (j + 1)) (closedStack f g j) (g j) = closedStack f g (j + 1) := by
  induction m generalizing g j with
  | zero => omega
  | succ m ih =>
    obtain ⟨k, rfl | rfl⟩ := Nat.even_or_odd' j
    · rw [ctz_odd, closedStack_even, closedStack_odd, closeSeg]
    · have hnext : 2 * k + 1 + 1 = 2 * (k + 1) := by ring
      rw [hnext, ctz_even, closedStack_odd, closedStack_even, closeSeg]
      exact ih (subtree f g 1) k (by omega)

/-- The segments from j on leave the stack of all of them (R98). -/
theorem segRun_closedStack (g : Nat → Option α) (ys : List (Option α)) (j : Nat) (hlen : j + ys.length < 2 ^ 64)
    (hleaf : ∀ i (hi : i < ys.length), ys[i] = g (j + i)) : segRun f j (closedStack f g j) ys = closedStack f g (j + ys.length) := by
  induction ys generalizing j with
  | nil => rfl
  | cons y ys ih =>
    rw [List.length_cons] at hlen
    have hy : y = g j := hleaf 0 (Nat.succ_pos _)
    have hys : ∀ i (hi : i < ys.length), ys[i] = g (j + 1 + i) := fun i hi => by
      rw [Nat.add_assoc, Nat.add_comm 1]
      exact hleaf (i + 1) (Nat.succ_lt_succ hi)
    rw [segRun, hy, closeSeg_closedStack f 64 g j (by omega), ih (j + 1) (by omega) hys, List.length_cons, Nat.add_assoc, Nat.add_comm 1]

/-- The flush of a stack joins its entries below an empty one (R98). -/
theorem segFlush_eq_foldl (stk : List (Option α)) : segFlush f stk = stk.foldl (fun acc below => combineO f below acc) none := by
  cases stk with
  | nil => rfl
  | cons top rest => rw [segFlush, List.foldl_cons, combineO_none]

/-- Joining the stack of j segments below a last leaf j completes the tree (R98). -/
theorem foldl_closedStack {g : Nat → Option α} {n j : Nat} (hj : j < 2 ^ n) (hlast : ∀ i, j < i → g i = none) :
    (closedStack f g j).foldl (fun acc below => combineO f below acc) (g j) = subtree f g n 0 := by
  induction n generalizing g j with
  | zero =>
    obtain rfl : j = 0 := by omega
    rw [closedStack_zero]; rfl
  | succ n ih =>
    have hpairs : ∀ k, j ≤ 2 * k + 1 → ∀ i, k < i → subtree f g 1 i = none := fun k hk i hi =>
      subtree_eq_none f fun l hl => hlast l (by omega)
    have htree : subtree f (subtree f g 1) n 0 = subtree f g (n + 1) 0 := by rw [subtree_subtree, Nat.add_comm]
    obtain ⟨k, rfl | rfl⟩ := Nat.even_or_odd' j
    · have hlone : g (2 * k) = subtree f g 1 k := by
        simp only [subtree, hlast (2 * k + 1) (by omega), combineO_none]
      rw [closedStack_even, hlone, ih (by omega) (hpairs k (by omega)), htree]
    · rw [closedStack_odd, List.foldl_cons]
      exact (ih (by omega) (hpairs k (by omega))).trans htree

/-- The segment stack gives the first subtree of any height that covers the set (R98). -/
theorem segStack_eq_subtree {xs : List (Option α)} {n : Nat} (hlen : xs.length < 2 ^ 64) (hn : xs.length ≤ 2 ^ n) :
    segStack f xs = subtree f (leafAt xs) n 0 := by
  have hrun : segRun f 0 [] xs = closedStack f (leafAt xs) xs.length := by
    have := segRun_closedStack f (leafAt xs) xs 0 (by omega) fun i hi => by simp [leafAt, hi]
    rwa [closedStack_zero, Nat.zero_add] at this
  have hend : leafAt xs xs.length = none := leafAt_eq_none le_rfl
  have hcover : xs.length < 2 ^ (n + 1) := hn.trans_lt (Nat.pow_lt_pow_succ (by omega))
  calc segStack f xs = (closedStack f (leafAt xs) xs.length).foldl (fun acc below => combineO f below acc) (leafAt xs xs.length) := by
        rw [segStack, hrun, segFlush_eq_foldl, hend]
    _ = subtree f (leafAt xs) (n + 1) 0 := foldl_closedStack f hcover fun i hi => leafAt_eq_none hi.le
    _ = subtree f (leafAt xs) n 0 := subtree_height f hcover.le hn

/-! The leaves of 256 (R144). -/

/-- A reduction leaf is the first subtree of height 8 (R144). -/
theorem leafTree_eq_subtree (xs : List (Option α)) : leafTree f xs = subtree f (leafAt xs) 8 0 := head_treeLevels f 8 _ xs

theorem length_leaves256_le (k : Nat) (xs : List (Option α)) : (leaves256 k xs).length ≤ k := by
  induction k generalizing xs with
  | zero => rfl
  | succ k ih =>
    rw [leaves256]
    split
    · exact Nat.zero_le _
    · exact Nat.succ_le_succ (ih _)

/-- Leaf i of the vector engine is the aligned subtree of height 8 at index i (R58, R144). -/
theorem leafAt_leaves256 {k : Nat} {xs : List (Option α)} (hk : xs.length ≤ 256 * k) :
    leafAt ((leaves256 k xs).map (leafTree f)) = subtree f (leafAt xs) 8 := by
  funext i
  induction k generalizing xs i with
  | zero => exact (subtree_eq_none f fun j _ => leafAt_eq_none (by omega)).symm
  | succ k ih =>
    cases xs with
    | nil => exact (subtree_eq_none f fun j _ => leafAt_eq_none (Nat.zero_le j)).symm
    | cons x xs =>
      rw [leaves256, if_neg (by simp), List.map_cons]
      cases i with
      | zero =>
        rw [leafAt_cons_zero, leafTree_eq_subtree]
        exact subtree_congr f fun j hj => leafAt_take (by omega)
      | succ i =>
        rw [leafAt_cons_succ, ih (by rw [List.length_drop]; omega)]
        refine subtree_congr f fun j _ => (leafAt_drop _ _ _).trans (congrArg _ ?_)
        ring

end

/-- Settles O39: each leaf of 256 is an aligned subtree of height 8, and the leaf stack is the tree over the leaves. -/
theorem reduceSetIsTree : Obligations.ReduceSetIsTree := by
  unfold Obligations.ReduceSetIsTree
  intro α f xs hlen
  have hcount := length_leaves256_le (xs.length / 256 + 1) xs
  calc reduceSet f xs = subtree f (leafAt ((leaves256 (xs.length / 256 + 1) xs).map (leafTree f))) 25 0 :=
        segStack_eq_subtree f (by rw [List.length_map]; omega) (by rw [List.length_map]; omega)
    _ = subtree f (subtree f (leafAt xs) 8) 25 0 := by rw [leafAt_leaves256 f (by omega)]
    _ = subtree f (leafAt xs) 33 0 := subtree_subtree f _ 8 25 0
    _ = canonTree f xs := (canonTree_eq_subtree f (by omega)).symm

end Sys2Proof.Machine
end

section
/-! SUPPORT. The control core's block_issue and the stream fetcher (R40, R44, R257). -/
namespace Sys2Proof.Machine

/-! blk_issue. -/

/-- A block joins the issued ones and the core goes on; hurdle says whether it ends in a HURDLE (R40, R257). -/
def Cluster.issue (k : Cluster) (rd len b : Nat) (hurdle : Bool) : Cluster :=
  { k with core := { k.core with
    issued := k.core.issued ++ [⟨k.core.issueCount, b, 0⟩], issueCount := k.core.issueCount + 1, hurdleOpen := hurdle
    pc := k.core.pc + BitVec.ofNat 32 len, regs := xw k.core.regs rd 0 } }

section
variable {s : State} {c : Fin 64} {x : Site} {rd src len : Nat} {isImm : Bool}

/-- A write of blk_issue that stalls leaves the core at it (R40, R44, R257). -/
theorem exec_blkIssue_stalls (hsite : s.coreSite c = some x) (hfetch : (s.cl c).fetch = some (.blkIssue rd src isImm, len))
    (hstall : (s.cl c).issueStalls = true) : exec (.blkIssue c) s = .next (s.refreshHeld x.h) := by
  change execBlkIssue c s = _
  rw [execBlkIssue, onCore_next _ hsite hfetch]
  simp only [hstall, if_true]

/-- A write of blk_issue whose block the stream holds issues it, at the block's pace (R40, R361). -/
theorem exec_blkIssue_issues {hurdle : Bool} (hsite : s.coreSite c = some x)
    (hfetch : (s.cl c).fetch = some (.blkIssue rd src isImm, len)) (hgoes : (s.cl c).issueStalls = false)
    (hblock : issueBlock (s.space x) (s.streamBase x) ((s.cl c).csrValue src isImm) = .ok hurdle) :
    exec (.blkIssue c) s = .next (((s.modCl c (fun k => k.issue rd len ((s.cl c).csrValue src isImm) hurdle)).blockPace c
      (s.eventOf x ((s.cl c).csrValue src isImm))).refreshHeld x.h) := by
  change execBlkIssue c s = _
  rw [execBlkIssue, onCore_next _ hsite hfetch]
  simp only [hgoes, hblock, Bool.false_eq_true, if_false]
  rfl

end

/-- Settles O13: a stall leaves only the held flag's update; a block that issues joins the issued ones, and its pace touches only the
cluster's pacing (`blockPace_frame`). -/
theorem blockIssues : Obligations.BlockIssues := by
  unfold Obligations.BlockIssues
  intro s c x rd src len isImm hsite hfetch k
  refine ⟨fun hstall => ⟨_, exec_blkIssue_stalls hsite hfetch hstall, holdOnly_refreshHeld s x.h⟩, fun hurdle hgoes hblock => ?_⟩
  refine ⟨_, exec_blkIssue_issues hsite hfetch hgoes hblock, ?_⟩
  obtain ⟨hown, hpace, hothers, hframe⟩ := blockPace_frame (s.modCl c (fun t => t.issue rd len (k.csrValue src isImm) hurdle)) c
    (s.eventOf x (k.csrValue src isImm)) x.h
  rw [State.cl_modCl_same] at hown
  exact ⟨hown, hpace, fun d hd => (hothers d hd).trans (State.cl_modCl_ne _ _ _ _ hd.symm), hframe⟩

/-! The stream fetcher. -/

/-- Command raw of the oldest issued block b of count commands joins queue q; the block leaves with its last one (R40). -/
def Cluster.enqueue (k : Cluster) (q : Fin 4) (b : Issue) (rest : List Issue) (count raw : Nat) : Cluster :=
  { k with
    queues := k.queues.set q (k.queues[q] ++ [⟨k.nextOrd, b.iss, b.blk, b.next + 1 == count, raw, .waiting, 0, 0⟩]), nextOrd := k.nextOrd + 1
    core := { k.core with issued := if b.next + 1 = count then rest else { b with next := b.next + 1 } :: rest } }

/-- The fetcher queues the next command of the oldest issued block where its engine's queue has room (R40). -/
theorem exec_streamFetch_queues {s : State} {c : Fin 64} {x : Site} {b : Issue} {rest : List Issue} {first count raw : Nat} {q : Fin 4}
    (hsite : s.coreSite c = some x) (hissued : (s.cl c).core.issued = b :: rest)
    (hblock : streamBlock (s.space x) (s.streamBase x) b.blk = .ok (first, count))
    (hcmd : streamCmd (s.space x) (s.streamBase x) (first + b.next) = .ok raw) (hqueue : opQueue (cmdOp raw) = some q)
    (hgoes : (s.cl c).halted = none) (hroom : (s.cl c).queues[q].length < 16) :
    exec (.streamFetch c) s = .next ((s.modCl c (fun k => k.enqueue q b rest count raw)).refreshHeld x.h) := by
  have hopen : ((s.cl c).halted.isSome || decide (16 ≤ (s.cl c).queues[q].length)) = false := by
    rw [hgoes, decide_eq_false (Nat.not_le.mpr hroom)]; rfl
  change execStreamFetch c s = _
  simp only [execStreamFetch, hsite, hissued, hblock, hcmd, bind, Except.bind, hqueue, hopen, Bool.false_eq_true, if_false, beq_iff_eq]
  rfl

/-- Settles O14: the command joins its queue, and only the held flag's update follows. -/
theorem streamFetchQueuesCommand : Obligations.StreamFetchQueuesCommand := by
  unfold Obligations.StreamFetchQueuesCommand
  intro s c x b rest first count raw q hsite hissued hblock hcmd hqueue hgoes hroom
  exact ⟨_, exec_streamFetch_queues hsite hissued hblock hcmd hqueue hgoes hroom, holdOnly_refreshHeld _ x.h⟩

end Sys2Proof.Machine
end

section
/-! SUPPORT. Number formats (R63 to R65, R74, R75, R78): the value of a magnitude code, rounding on an increasing scale of values, and the
codes that conversions write. -/
namespace Sys2Proof.Machine

/-! Rounding on a scale. -/

/-- On the increasing scale U, a is the last point not above x, and c is a or a + 1, whichever is nearer to x, at a tie the even one (R74). -/
structure RoundsAt (U : ℕ → ℚ) (x : ℚ) (a c : ℕ) : Prop where
  lower : U a ≤ x
  upper : x < U (a + 1)
  code : c = if U a + U (a + 1) < 2 * x ∨ (U a + U (a + 1) = 2 * x ∧ a % 2 = 1) then a + 1 else a

/-- A point of the scale rounds to itself. -/
theorem RoundsAt.self {U : ℕ → ℚ} (hU : StrictMono U) (a : ℕ) : RoundsAt U (U a) a a := by
  have hstep : U a < U (a + 1) := hU a.lt_succ_self
  refine ⟨le_rfl, hstep, (if_neg ?_).symm⟩
  rintro (h | ⟨h, -⟩) <;> linarith

/-- A point of the scale rounds to nothing but itself. -/
theorem RoundsAt.eq_of_self {U : ℕ → ℚ} (hU : StrictMono U) {k a c : ℕ} (h : RoundsAt U (U k) a c) : c = k := by
  have hak : a = k := le_antisymm (hU.le_iff_le.mp h.lower) (Nat.lt_succ_iff.mp (hU.lt_iff_lt.mp h.upper))
  subst hak
  rw [h.code, ← (RoundsAt.self hU a).code]

/-- Rounding commutes with a change of unit. -/
theorem RoundsAt.scale {U : ℕ → ℚ} {x s : ℚ} {a c : ℕ} (h : RoundsAt U x a c) (hs : 0 < s) :
    RoundsAt (fun n => U n * s) (x * s) a c := by
  refine ⟨mul_le_mul_of_nonneg_right h.lower hs.le, mul_lt_mul_of_pos_right h.upper hs, ?_⟩
  simpa only [← add_mul, ← mul_assoc, mul_lt_mul_iff_left₀ hs, mul_left_inj' hs.ne'] using h.code

/-- Rounding depends on the two neighbours and the parity only, so it carries over to a scale that holds them an even number of points on. -/
theorem RoundsAt.shift {U V : ℕ → ℚ} {x : ℚ} {t n b : ℕ} (h : RoundsAt U x t n) (hb : Even b) (hlo : V (b + t) = U t)
    (hhi : V (b + (t + 1)) = U (t + 1)) : RoundsAt V x (b + t) (b + n) := by
  have hpar : (b + t) % 2 = t % 2 := by rw [Nat.add_mod, Nat.even_iff.mp hb, Nat.zero_add, Nat.mod_mod]
  refine ⟨hlo ▸ h.lower, hhi ▸ h.upper, ?_⟩
  rw [Nat.add_assoc b t 1, hlo, hhi, hpar, h.code, apply_ite (b + ·)]

/-- The rounded point is nearer than any other; at a tie it is the even one (R74). -/
theorem RoundsAt.nearest {U : ℕ → ℚ} {x : ℚ} {a c : ℕ} (hU : StrictMono U) (h : RoundsAt U x a c) {k : ℕ} (hk : k ≠ c) :
    |U c - x| < |U k - x| ∨ (|U c - x| = |U k - x| ∧ c % 2 = 0) := by
  obtain ⟨hlo, hhi, hc⟩ := h
  suffices hnear : |U c - x| < |U k - x| ∨ (|U c - x| ≤ |U k - x| ∧ c % 2 = 0) by
    rcases hnear with hlt | ⟨hle, heven⟩
    · exact .inl hlt
    · exact hle.lt_or_eq.imp_right (⟨·, heven⟩)
  have hside : (k ≤ a ∧ U k ≤ U a ∧ |U k - x| = x - U k) ∨ (a + 1 ≤ k ∧ U (a + 1) ≤ U k ∧ |U k - x| = U k - x) := by
    rcases Nat.lt_or_ge a k with hak | hka
    · have hle := hU.monotone hak
      exact .inr ⟨hak, hle, abs_of_nonneg (by linarith)⟩
    · have hle := hU.monotone hka
      exact .inl ⟨hka, hle, by rw [abs_sub_comm, abs_of_nonneg (by linarith)]⟩
  split at hc
  · next hup =>
    subst hc
    rw [abs_of_nonneg (by linarith : 0 ≤ U (a + 1) - x)]
    rcases hside with ⟨-, hle, hdist⟩ | ⟨hak, -, hdist⟩
    · rcases hup with hgt | ⟨htie, hodd⟩
      · exact .inl (by linarith)
      · exact .inr ⟨by linarith, by omega⟩
    · have hlt : U (a + 1) < U k := hU (by omega)
      exact .inl (by linarith)
  · next hdown =>
    subst hc
    rw [not_or, not_lt, not_and] at hdown
    obtain ⟨hmid, hodd⟩ := hdown
    rw [abs_sub_comm, abs_of_nonneg (by linarith : 0 ≤ x - U c)]
    rcases hside with ⟨hkc, -, hdist⟩ | ⟨-, hle, hdist⟩
    · have hlt : U k < U c := hU (by omega)
      exact .inl (by linarith)
    · rcases hmid.lt_or_eq with hgt | htie
      · exact .inl (by linarith)
      · have heven := hodd htie.symm
        exact .inr ⟨by linarith, by omega⟩

/-! The rounding of the model. -/

/-- A shift right rounds to nearest even in units of 2 to the shift (R74). -/
theorem roundsAt_shiftRight (m sh : ℕ) :
    RoundsAt (fun n => (n : ℚ) * 2 ^ (sh + 1)) m (m >>> (sh + 1))
      (if m % 2 ^ (sh + 1) > 2 ^ sh || (m % 2 ^ (sh + 1) == 2 ^ sh && m >>> (sh + 1) % 2 == 1) then m >>> (sh + 1) + 1
        else m >>> (sh + 1)) := by
  have hdiv : m >>> (sh + 1) * 2 ^ (sh + 1) + m % 2 ^ (sh + 1) = m := by
    rw [Nat.shiftRight_eq_div_pow, Nat.mul_comm]; exact Nat.div_add_mod m _
  have hmod : m % 2 ^ (sh + 1) < 2 ^ (sh + 1) := Nat.mod_lt _ (by positivity)
  have hpow : (2 : ℕ) ^ (sh + 1) = 2 * 2 ^ sh := pow_succ' 2 sh
  generalize m >>> (sh + 1) = t at hdiv ⊢
  generalize m % 2 ^ (sh + 1) = r at hdiv hmod ⊢
  have hsum : (t : ℚ) * 2 ^ (sh + 1) + ((t + 1 : ℕ) : ℚ) * 2 ^ (sh + 1) = ((2 * (t * 2 ^ (sh + 1)) + 2 * 2 ^ sh : ℕ) : ℚ) := by
    push_cast; ring
  refine ⟨?_, ?_, ?_⟩
  · exact_mod_cast (by omega : t * 2 ^ (sh + 1) ≤ m)
  · exact_mod_cast (by rw [Nat.succ_mul]; omega : m < (t + 1) * 2 ^ (sh + 1))
  · have hgt : (t : ℚ) * 2 ^ (sh + 1) + ((t + 1 : ℕ) : ℚ) * 2 ^ (sh + 1) < 2 * m ↔ r > 2 ^ sh := by
      rw [hsum]
      exact_mod_cast (by omega : 2 * (t * 2 ^ (sh + 1)) + 2 * 2 ^ sh < 2 * m ↔ r > 2 ^ sh)
    have htie : (t : ℚ) * 2 ^ (sh + 1) + ((t + 1 : ℕ) : ℚ) * 2 ^ (sh + 1) = 2 * m ↔ r = 2 ^ sh := by
      rw [hsum]
      exact_mod_cast (by omega : 2 * (t * 2 ^ (sh + 1)) + 2 * 2 ^ sh = 2 * m ↔ r = 2 ^ sh)
    simp only [hgt, htie, Bool.or_eq_true, Bool.and_eq_true, decide_eq_true_eq, beq_iff_eq]

/-- rneUnits rounds m times 2 to the e on the scale of the multiples of 2 to the q (R74). -/
theorem rneUnits_roundsAt (m : ℕ) (e q : ℤ) :
    ∃ t, RoundsAt (fun n => (n : ℚ) * 2 ^ q) ((m : ℚ) * 2 ^ e) t (rneUnits m e q) := by
  have hunit (p : ℤ) : (0 : ℚ) < 2 ^ p := zpow_pos two_pos p
  rcases le_or_gt q e with hqe | heq
  · obtain ⟨d, rfl⟩ := Int.le.dest hqe
    have hval : (m : ℚ) * 2 ^ (q + (d : ℤ)) = ((m <<< d : ℕ) : ℚ) * 2 ^ q := by
      rw [Nat.shiftLeft_eq, zpow_add₀ two_ne_zero, zpow_natCast]; push_cast; ring
    have hcode : rneUnits m (q + d) q = m <<< d := by rw [rneUnits, if_pos hqe, add_sub_cancel_left, Int.toNat_natCast]
    rw [hval, hcode]
    exact ⟨_, (RoundsAt.self Nat.strictMono_cast _).scale (hunit q)⟩
  · obtain ⟨sh, rfl⟩ : ∃ sh : ℕ, q = e + (sh + 1 : ℕ) := ⟨(q - e).toNat - 1, by omega⟩
    have hscale : (fun n : ℕ => (n : ℚ) * 2 ^ (e + (sh + 1 : ℕ))) = fun n : ℕ => (n : ℚ) * 2 ^ (sh + 1) * 2 ^ e := by
      funext n; rw [zpow_add₀ two_ne_zero, zpow_natCast]; ring
    rw [hscale, rneUnits, if_neg (not_le.mpr heq), add_sub_cancel_left, Int.toNat_natCast]
    exact ⟨_, (roundsAt_shiftRight m sh).scale (hunit e)⟩

/-! Magnitude codes and their values. -/

/-- The exponent of code k's step, in steps of the format's smallest: its exponent field less one, and 0 for a subnormal (R63). -/
def Fmt.stepExp (f : Fmt) (k : ℕ) : ℕ := k / 2 ^ f.mb - 1

/-- The mantissa of code k with the leading one of a normal value, in units of its step (R63). -/
def Fmt.significand (f : Fmt) (k : ℕ) : ℕ := k - f.stepExp k * 2 ^ f.mb

/-- The value of magnitude code k, as the fields of R63 give it with no limit on the exponent. -/
def Fmt.magVal (f : Fmt) (k : ℕ) : ℚ := (f.significand k : ℚ) * 2 ^ (f.emin + f.stepExp k)

section
variable (f : Fmt)

/-- Code t of binade d has that binade's step: a normal value has its leading one, and only the binade of the subnormals holds less (R63). -/
theorem Fmt.stepExp_binade {d t : ℕ} (hd : d = 0 ∨ 2 ^ f.mb ≤ t) (ht : t < 2 * 2 ^ f.mb) : f.stepExp (d * 2 ^ f.mb + t) = d := by
  rw [stepExp, Nat.add_comm, Nat.add_mul_div_right _ _ (Nat.two_pow_pos _)]
  rcases hd with rfl | hle
  · have : t / 2 ^ f.mb < 2 := Nat.div_lt_of_lt_mul (by omega)
    omega
  · rw [Nat.div_eq_of_lt_le (k := 1) (by omega) (by omega), Nat.add_sub_cancel_left]

theorem Fmt.significand_binade {d t : ℕ} (hd : d = 0 ∨ 2 ^ f.mb ≤ t) (ht : t < 2 * 2 ^ f.mb) :
    f.significand (d * 2 ^ f.mb + t) = t := by
  rw [significand, f.stepExp_binade hd ht, Nat.add_sub_cancel_left]

/-- The codes of binade d run through the multiples of its step, up to and with the first code of the next binade (R63). -/
theorem Fmt.magVal_binade {d t : ℕ} (hd : d = 0 ∨ 2 ^ f.mb ≤ t) (ht : t ≤ 2 * 2 ^ f.mb) :
    f.magVal (d * 2 ^ f.mb + t) = (t : ℚ) * 2 ^ (f.emin + d) := by
  have hp : 0 < 2 ^ f.mb := Nat.two_pow_pos _
  rcases ht.lt_or_eq with hlt | rfl
  · rw [magVal, f.significand_binade hd hlt, f.stepExp_binade hd hlt]
  · have hnext : d * 2 ^ f.mb + 2 * 2 ^ f.mb = (d + 1) * 2 ^ f.mb + 2 ^ f.mb := by ring
    rw [hnext, magVal, f.significand_binade (.inr le_rfl) (by omega), f.stepExp_binade (.inr le_rfl) (by omega), Nat.cast_succ,
      ← add_assoc, zpow_add_one₀ two_ne_zero]
    push_cast
    ring

/-- Every code lies in one of the binades (R63). -/
theorem Fmt.exists_binade (k : ℕ) : ∃ d t, k = d * 2 ^ f.mb + t ∧ (d = 0 ∨ 2 ^ f.mb ≤ t) ∧ t < 2 * 2 ^ f.mb := by
  have hk := Nat.div_add_mod' k (2 ^ f.mb)
  have hmod := Nat.mod_lt k (Nat.two_pow_pos f.mb)
  rcases h : k / 2 ^ f.mb with _ | d
  · exact ⟨0, k, by omega, .inl rfl, by rw [h] at hk; omega⟩
  · exact ⟨d, 2 ^ f.mb + k % 2 ^ f.mb, by rw [h, Nat.add_mul] at hk; omega, .inr (by omega), by omega⟩

theorem Fmt.magVal_strictMono : StrictMono f.magVal := by
  refine strictMono_nat_of_lt_succ fun k => ?_
  obtain ⟨d, t, rfl, hd, ht⟩ := f.exists_binade k
  rw [f.magVal_binade hd ht.le, Nat.add_assoc, f.magVal_binade (by omega) (by omega)]
  exact mul_lt_mul_of_pos_right (by exact_mod_cast t.lt_succ_self) (zpow_pos two_pos _)

@[simp] theorem Fmt.magVal_zero : f.magVal 0 = 0 := by simp [magVal, significand]

/-- In units that keep the leading bit of m and at most mb bits below it, the floor has at most mb + 1 bits, and exactly so many where all mb are
kept. -/
theorem RoundsAt.floor_bounds {m t n mb : ℕ} {e q : ℤ} (h : RoundsAt (fun n => (n : ℚ) * 2 ^ q) ((m : ℚ) * 2 ^ e) t n) (hm : m ≠ 0)
    (hq : e + (m.log2 : ℤ) - mb ≤ q) : t < 2 * 2 ^ mb ∧ (q = e + (m.log2 : ℤ) - mb → 2 ^ mb ≤ t) := by
  obtain ⟨hlo, hhi, -⟩ := h
  have hbits : (m : ℚ) < 2 ^ ((m.log2 : ℤ) + 1) := by exact_mod_cast Nat.lt_log2_self
  have hlead : (2 : ℚ) ^ (m.log2 : ℤ) ≤ m := by exact_mod_cast Nat.log2_self_le hm
  have hunit (p : ℤ) : (0 : ℚ) < 2 ^ p := zpow_pos two_pos p
  refine ⟨?_, fun heq => Nat.lt_succ_iff.mp ?_⟩
  · have : (t : ℚ) * 2 ^ q < ((2 * 2 ^ mb : ℕ) : ℚ) * 2 ^ q := calc
      (t : ℚ) * 2 ^ q ≤ m * 2 ^ e := hlo
      _ < 2 ^ ((m.log2 : ℤ) + 1) * 2 ^ e := mul_lt_mul_of_pos_right hbits (hunit e)
      _ = 2 ^ ((m.log2 : ℤ) + 1 + e) := (zpow_add₀ two_ne_zero _ _).symm
      _ ≤ 2 ^ ((mb : ℤ) + 1 + q) := zpow_le_zpow_right₀ one_le_two (by omega)
      _ = ((2 * 2 ^ mb : ℕ) : ℚ) * 2 ^ q := by
        rw [zpow_add₀ two_ne_zero, zpow_add₀ two_ne_zero, zpow_natCast, zpow_one]; push_cast; ring
    exact_mod_cast lt_of_mul_lt_mul_right this (hunit q).le
  · have : ((2 ^ mb : ℕ) : ℚ) * 2 ^ q < ((t + 1 : ℕ) : ℚ) * 2 ^ q := calc
      ((2 ^ mb : ℕ) : ℚ) * 2 ^ q = 2 ^ ((m.log2 : ℤ) + e) := by
        rw [heq, Nat.cast_pow, Nat.cast_ofNat, ← zpow_natCast, ← zpow_add₀ two_ne_zero]; congr 1; omega
      _ = 2 ^ (m.log2 : ℤ) * 2 ^ e := zpow_add₀ two_ne_zero _ _
      _ ≤ m * 2 ^ e := mul_le_mul_of_nonneg_right hlead (hunit e).le
      _ < ((t + 1 : ℕ) : ℚ) * 2 ^ q := hhi
    exact_mod_cast lt_of_mul_lt_mul_right this (hunit q).le

/-- magCode rounds to nearest even among the values of all codes (R63, R74). -/
theorem Fmt.magCode_roundsAt (hmb : 1 ≤ f.mb) (m : ℕ) (e : ℤ) : ∃ a, RoundsAt f.magVal ((m : ℚ) * 2 ^ e) a (f.magCode m e) := by
  rcases eq_or_ne m 0 with rfl | hm
  · exact ⟨0, by simpa [Fmt.magCode] using RoundsAt.self f.magVal_strictMono 0⟩
  · obtain ⟨d, hq⟩ : ∃ d : ℕ, max (e + (m.log2 : ℤ) - f.mb) f.emin = f.emin + d :=
      (Int.le.dest (le_max_right _ _)).imp fun _ => Eq.symm
    obtain ⟨t, ht⟩ := rneUnits_roundsAt m e (f.emin + d)
    obtain ⟨htop, hlead⟩ := ht.floor_bounds (mb := f.mb) hm (by omega)
    have hd : d = 0 ∨ 2 ^ f.mb ≤ t := by
      rcases Nat.eq_zero_or_pos d with h0 | hpos
      · exact .inl h0
      · exact .inr (hlead (by omega))
    have heven : Even (d * 2 ^ f.mb) := (Nat.even_pow.mpr ⟨even_two, by omega⟩).mul_left d
    have hcode : f.magCode m e = d * 2 ^ f.mb + rneUnits m e (f.emin + d) := by
      simp only [Fmt.magCode, if_neg hm, hq, add_sub_cancel_left, Int.toNat_natCast]
    rw [hcode]
    exact ⟨_, ht.shift heven (f.magVal_binade hd htop.le) (f.magVal_binade (by omega) (by omega))⟩

/-- A value that some code stands for is given that code (R74). -/
theorem Fmt.magCode_eq (hmb : 1 ≤ f.mb) {m : ℕ} {e : ℤ} {k : ℕ} (hval : (m : ℚ) * 2 ^ e = f.magVal k) : f.magCode m e = k := by
  obtain ⟨a, ha⟩ := f.magCode_roundsAt hmb m e
  rw [hval] at ha
  exact ha.eq_of_self f.magVal_strictMono

end

/-! Reading and writing codes. -/

/-- A code of the format: a magnitude code with its sign bit above (R63). -/
def Fmt.signed (f : Fmt) (neg : Bool) (k : ℕ) : ℕ := (if neg then 2 ^ (f.eb + f.mb) else 0) + k

/-- The code of a finite value beyond the range (R75). -/
def Fmt.overCode (f : Fmt) : ℕ := if f.overInf then f.infCode.getD f.maxCode else f.maxCode

/-- What R63 says of each format's layout: it has mantissa bits, its largest finite code lies below the sign bit, and an infinity beyond
that code. -/
def Fmt.LaidOut (f : Fmt) : Prop :=
  1 ≤ f.mb ∧ f.maxCode < 2 ^ (f.eb + f.mb) ∧ ∀ i ∈ f.infCode, f.maxCode < i

/-- The format's finite values are values of FP32: no more mantissa bits, no smaller step, and the largest below 2 to the 128 (R63). -/
def Fmt.InFp32 (f : Fmt) : Prop :=
  f.mb ≤ 23 ∧ fp32.emin ≤ f.emin ∧ f.emin + f.stepExp f.maxCode + f.mb + 1 ≤ 128

theorem laidOut_of_mem : ∀ f ∈ [fp32, bf16, fp16, e4m3, e5m2, e3m2, e2m3, e2m1], f.LaidOut := by
  simp only [Fmt.LaidOut]; decide

theorem inFp32_of_mem : ∀ f ∈ [fp32, bf16, fp16, e4m3, e5m2, e3m2, e2m3, e2m1], f.InFp32 := by
  simp only [Fmt.InFp32]; decide

section
variable (f : Fmt)

theorem Fmt.enc_fin (neg : Bool) (m : ℕ) (e : ℤ) :
    f.enc (.fin neg m e) = f.signed neg (if f.magCode m e ≤ f.maxCode then f.magCode m e else f.overCode) := rfl

theorem Fmt.enc_inf {i : ℕ} (hinf : f.infCode = some i) (neg : Bool) : f.enc (.inf neg) = f.signed neg i := by
  simp only [Fmt.enc, hinf, Fmt.signed]

/-- Every code of the format is a magnitude code with a sign (R63). -/
theorem Fmt.exists_signed {code : ℕ} (hcode : code < 2 ^ f.width) : ∃ neg k, k < 2 ^ (f.eb + f.mb) ∧ code = f.signed neg k := by
  have hwidth : 2 ^ f.width = 2 * 2 ^ (f.eb + f.mb) := by rw [Fmt.width, Nat.add_assoc, Nat.pow_add, Nat.pow_one]
  rcases lt_or_ge code (2 ^ (f.eb + f.mb)) with hlt | hge
  · exact ⟨false, code, hlt, by simp [Fmt.signed]⟩
  · exact ⟨true, code - 2 ^ (f.eb + f.mb), by omega, by simp only [Fmt.signed, if_true]; omega⟩

theorem Fmt.bitAt_signed (neg : Bool) {k : ℕ} (hk : k < 2 ^ (f.eb + f.mb)) : bitAt (f.signed neg k) (f.eb + f.mb) = neg := by
  have hp := Nat.two_pow_pos (f.eb + f.mb)
  cases neg
  · simp [bitAt, Fmt.signed, Nat.shiftRight_eq_div_pow, Nat.div_eq_of_lt hk]
  · simp [bitAt, Fmt.signed, Nat.shiftRight_eq_div_pow, Nat.add_div_left, hp, Nat.div_eq_of_lt hk]

theorem Fmt.signed_mod (neg : Bool) {k : ℕ} (hk : k < 2 ^ (f.eb + f.mb)) : f.signed neg k % 2 ^ (f.eb + f.mb) = k := by
  cases neg <;> simp [Fmt.signed, Nat.mod_eq_of_lt hk]

/-- A code at or below the largest finite one reads as its significand times its step (R63). -/
theorem Fmt.dec_fin (hf : f.LaidOut) (neg : Bool) {k : ℕ} (hk : k ≤ f.maxCode) :
    f.dec (f.signed neg k) = .fin neg (f.significand k) (f.emin + f.stepExp k) := by
  obtain ⟨-, hmax, hinf⟩ := hf
  have hlt : k < 2 ^ (f.eb + f.mb) := by omega
  have hnoinf : ¬ some k = f.infCode := fun h => (hinf k h.symm).not_ge hk
  have hsplit := Nat.div_add_mod' k (2 ^ f.mb)
  simp only [Fmt.dec, f.bitAt_signed neg hlt, f.signed_mod neg hlt, if_neg hnoinf, if_neg (not_lt.mpr hk), gt_iff_lt,
    Nat.shiftRight_eq_div_pow, Fmt.significand, Fmt.stepExp]
  rcases h : k / 2 ^ f.mb with _ | d
  · rw [h] at hsplit
    simp only [if_true, Nat.zero_sub, FV.fin.injEq, true_and]
    omega
  · rw [h, Nat.add_mul] at hsplit
    simp only [Nat.add_sub_cancel, Nat.succ_ne_zero, if_false, FV.fin.injEq, true_and]
    omega

/-- The infinity's code reads as an infinity, and every other code beyond the largest finite one as a NaN (R63). -/
theorem Fmt.dec_special (neg : Bool) {k : ℕ} (hlt : k < 2 ^ (f.eb + f.mb)) (hk : f.maxCode < k) :
    f.dec (f.signed neg k) = if f.infCode = some k then .inf neg else .nan := by
  simp only [Fmt.dec, f.bitAt_signed neg hlt, f.signed_mod neg hlt, gt_iff_lt, if_pos hk, @eq_comm _ (some k)]

end

/-- Settles O37: a conversion rounds on the scale of the format's values (`magCode_roundsAt`), and the nearest point of the scale is the code
written; beyond the range the overflow code is. -/
theorem conversionsRoundToNearest : Obligations.ConversionsRoundToNearest := by
  unfold Obligations.ConversionsRoundToNearest
  intro f hf m e c val x sign
  have hlay := laidOut_of_mem f hf
  have hval : ∀ k ≤ f.maxCode, val k = f.magVal k := fun k hk => by
    have hdec := f.dec_fin hlay false hk
    rw [Fmt.signed, if_neg Bool.false_ne_true, Nat.zero_add] at hdec
    simp only [val, hdec]
    rfl
  have henc (neg : Bool) : f.enc (.fin neg m e) = (if neg then sign else 0) + if c ≤ f.maxCode then c else f.overCode := f.enc_fin neg m e
  refine ⟨fun hc => ⟨by simp [henc, hc], by simp [henc, hc], fun k hk hne => ?_⟩, fun hc => ?_⟩
  · obtain ⟨a, ha⟩ := f.magCode_roundsAt hlay.1 m e
    rw [hval c hc, hval k hk]
    exact ha.nearest f.magVal_strictMono hne
  · have hmost : ∀ g ∈ [fp32, bf16, fp16, e4m3, e5m2, e3m2, e2m3, e2m1], g.overCode =
        if g = fp32 then 0x7F800000 else if g = bf16 then 0x7F80 else if g = fp16 then 0x7C00 else g.maxCode := by decide
    simp [henc, hc.not_ge, hmost f hf]

/-! Codes through FP32. -/

/-- A value whose mantissa fits the format's significand, in whole steps, has a code (R63). -/
theorem Fmt.exists_magVal_eq (f : Fmt) {m : ℕ} (d : ℕ) (hm : m < 2 * 2 ^ f.mb) : ∃ k, f.magVal k = (m : ℚ) * 2 ^ (f.emin + d) := by
  induction d generalizing m with
  | zero => exact ⟨_, f.magVal_binade (.inl rfl) hm.le⟩
  | succ d ih =>
    rcases le_or_gt (2 ^ f.mb) m with hnormal | hsmall
    · exact ⟨_, f.magVal_binade (.inr hnormal) hm.le⟩
    · obtain ⟨k, hk⟩ := ih (m := 2 * m) (by omega)
      refine ⟨k, hk.trans ?_⟩
      rw [Nat.cast_succ, ← add_assoc, zpow_add_one₀ two_ne_zero]
      push_cast
      ring

theorem Fmt.significand_lt (f : Fmt) (k : ℕ) : f.significand k < 2 * 2 ^ f.mb := by
  obtain ⟨d, t, rfl, hd, ht⟩ := f.exists_binade k
  rwa [f.significand_binade hd ht]

/-- A code of FP32 whose value is below 2 to the 128 is finite (R63). -/
theorem fp32_le_maxCode {k : ℕ} (hk : fp32.magVal k < 2 ^ (128 : ℤ)) : k ≤ fp32.maxCode := by
  have hinf : fp32.magVal 0x7F800000 = 2 ^ (128 : ℤ) := by
    have := fp32.magVal_binade (d := 254) (t := 2 ^ 23) (.inr le_rfl) (by decide)
    rw [show (0x7F800000 : ℕ) = 254 * 2 ^ fp32.mb + 2 ^ 23 from rfl, this, Nat.cast_pow, Nat.cast_ofNat, ← zpow_natCast,
      ← zpow_add₀ two_ne_zero]
    rfl
  exact Nat.lt_succ_iff.mp (fp32.magVal_strictMono.lt_iff_lt.mp (hinf ▸ hk))

/-- Every finite value of the format is the value of a finite code of FP32 (R63, R75). -/
theorem Fmt.exists_fp32_code {f : Fmt} (hfit : f.InFp32) {k : ℕ} (hk : k ≤ f.maxCode) :
    ∃ j ≤ fp32.maxCode, fp32.magVal j = f.magVal k := by
  obtain ⟨hmb, hstep, htop⟩ := hfit
  have hsig := f.significand_lt k
  have hpow : 2 ^ f.mb ≤ 2 ^ fp32.mb := Nat.pow_le_pow_right two_pos hmb
  have hexp : f.stepExp k ≤ f.stepExp f.maxCode := Nat.sub_le_sub_right (Nat.div_le_div_right hk) 1
  obtain ⟨d, hd⟩ := Int.le.dest hstep
  obtain ⟨j, hj⟩ := fp32.exists_magVal_eq (d + f.stepExp k) (by omega : f.significand k < 2 * 2 ^ fp32.mb)
  have hval : fp32.magVal j = f.magVal k := by rw [hj, Nat.cast_add, ← add_assoc, hd, magVal]
  refine ⟨j, fp32_le_maxCode ?_, hval⟩
  calc fp32.magVal j = (f.significand k : ℚ) * 2 ^ (f.emin + f.stepExp k) := hval
    _ < ((2 * 2 ^ f.mb : ℕ) : ℚ) * 2 ^ (f.emin + f.stepExp k) :=
      mul_lt_mul_of_pos_right (by exact_mod_cast hsig) (zpow_pos two_pos _)
    _ = 2 ^ ((f.mb : ℤ) + 1 + (f.emin + f.stepExp k)) := by
      rw [zpow_add₀ two_ne_zero ((f.mb : ℤ) + 1), zpow_add_one₀ two_ne_zero, zpow_natCast]; push_cast; ring
    _ ≤ 2 ^ (128 : ℤ) := zpow_le_zpow_right₀ one_le_two (by omega)

theorem r32_nan : r32 .nan = 0x7FC00000#32 := rfl

/-- FP32 reads an infinity back as it was written (R63). -/
theorem v32_r32_inf (neg : Bool) : v32 (r32 (.inf neg)) = .inf neg := by cases neg <;> decide

/-- FP32 reads back the value of a finite code as it was written (R63). -/
theorem v32_r32_fin (neg : Bool) {m : ℕ} {e : ℤ} {j : ℕ} (hj : j ≤ fp32.maxCode) (hval : (m : ℚ) * 2 ^ e = fp32.magVal j) :
    v32 (r32 (.fin neg m e)) = .fin neg (fp32.significand j) (fp32.emin + fp32.stepExp j) := by
  have hlay := laidOut_of_mem fp32 (by decide)
  have hbits : fp32.signed neg j < 2 ^ 32 := by
    have : fp32.maxCode < 2 ^ 31 := hlay.2.1
    have : fp32.signed neg j ≤ 2 ^ 31 + j := Nat.add_le_add_right (by cases neg <;> decide) j
    omega
  rw [v32, r32, fp32.enc_fin, fp32.magCode_eq hlay.1 hval, if_pos hj, BitVec.toNat_ofNat, Nat.mod_eq_of_lt hbits,
    fp32.dec_fin hlay neg hj]

/-- A value that a finite code stands for is written as that code (R74, R75). -/
theorem Fmt.enc_eq_signed {f : Fmt} (hf : f.LaidOut) (neg : Bool) {m : ℕ} {e : ℤ} {k : ℕ} (hk : k ≤ f.maxCode)
    (hval : (m : ℚ) * 2 ^ e = f.magVal k) : f.enc (.fin neg m e) = f.signed neg k := by
  rw [f.enc_fin, f.magCode_eq hf.1 hval, if_pos hk]

/-- A finite code, read and written again directly or through FP32, is itself (R63, R75). -/
theorem Fmt.finite_roundtrip {f : Fmt} (hf : f.LaidOut) (hfit : f.InFp32) (neg : Bool) {k : ℕ} (hk : k ≤ f.maxCode) :
    f.enc (f.dec (f.signed neg k)) = f.signed neg k ∧ f.enc (v32 (r32 (f.dec (f.signed neg k)))) = f.signed neg k := by
  obtain ⟨j, hj, hval⟩ := exists_fp32_code hfit hk
  rw [f.dec_fin hf neg hk, v32_r32_fin neg hj hval.symm]
  exact ⟨enc_eq_signed hf neg hk rfl, enc_eq_signed hf neg hk hval⟩

/-- A special code, read and written again directly or through FP32, is itself or, where it is a NaN, the canonical NaN (R63, R64, R75). -/
theorem Fmt.special_roundtrip {f : Fmt} (neg : Bool) {k : ℕ} (hlt : k < 2 ^ (f.eb + f.mb)) (hk : f.maxCode < k) :
    let same := if (f.dec (f.signed neg k)).isNan then f.nanCode else f.signed neg k
    f.enc (f.dec (f.signed neg k)) = same ∧ f.enc (v32 (r32 (f.dec (f.signed neg k)))) = same := by
  rw [f.dec_special neg hlt hk]
  split
  · next hinf => rw [v32_r32_inf, f.enc_inf hinf]; exact ⟨rfl, rfl⟩
  · have hnan : v32 (r32 .nan) = .nan := by decide
    rw [hnan]
    exact ⟨rfl, rfl⟩

/-! NaNs, zeros and the high half. -/

theorem FV.eq_nan_of_isNan {v : FV} (h : v.isNan = true) : v = .nan := by
  cases v with
  | nan => rfl
  | inf s => cases h
  | fin s m e => cases h

theorem FV.add_nan_right (v : FV) : v.add .nan = .nan := by cases v <;> rfl
theorem FV.mul_nan_right (v : FV) : v.mul .nan = .nan := by cases v <;> rfl
theorem FV.div_nan_right (v : FV) : v.div .nan = .nan := by cases v <;> rfl

/-- An operation with a NaN gives a NaN, whichever operand it is (R64). -/
theorem FV.arith_of_isNan {a b : FV} (h : a.isNan = true ∨ b.isNan = true) :
    a.add b = .nan ∧ a.add b.neg = .nan ∧ a.mul b = .nan ∧ a.div b = .nan ∧ a.max2 b = .nan ∧ a.min2 b = .nan := by
  rcases h with ha | hb
  · rw [eq_nan_of_isNan ha]
    exact ⟨rfl, rfl, rfl, rfl, rfl, rfl⟩
  · rw [eq_nan_of_isNan hb]
    exact ⟨add_nan_right a, add_nan_right a, mul_nan_right a, div_nan_right a, if_pos (Bool.or_true _), if_pos (Bool.or_true _)⟩

/-- x − x is +0 (R65). -/
theorem FV.add_neg_self (s : Bool) (m : ℕ) (e : ℤ) : (FV.fin s m e).add (FV.fin s m e).neg = .fin false 0 0 := by
  by_cases hm : m = 0
  · cases s <;> simp [FV.add, FV.neg, hm]
  · cases s <;> simp [FV.add, FV.neg, hm, sint]

theorem highHalf_append (w : Word) (h : (v32 w).isNan = false) : highHalf w ++ w.extractLsb' 0 16 = w := by
  rw [highHalf, h, if_neg Bool.false_ne_true, BitVec.extractLsb'_append_extractLsb'_eq_extractLsb' (by rfl)]
  exact BitVec.extractLsb'_eq_self

/-- Settles O36: codes come back by `finite_roundtrip` and `special_roundtrip`; a NaN reaches every operation's result. -/
theorem numbersKeepTheirFormats : Obligations.NumbersKeepTheirFormats := by
  unfold Obligations.NumbersKeepTheirFormats
  refine ⟨fun f hf code hcode => ?_, fun a b hnan => ?_, fun a hfin => ?_, by decide, fun w => ⟨fun h => if_pos h, highHalf_append w⟩⟩
  · obtain ⟨neg, k, hlt, rfl⟩ := f.exists_signed hcode
    rcases le_or_gt k f.maxCode with hk | hk
    · have hnan : (f.dec (f.signed neg k)).isNan = false := by rw [f.dec_fin (laidOut_of_mem f hf) neg hk]; rfl
      rw [hnan]
      exact f.finite_roundtrip (laidOut_of_mem f hf) (inFp32_of_mem f hf) neg hk
    · exact f.special_roundtrip neg hlt hk
  · obtain ⟨hadd, hsub, hmul, hdiv, hmax, hmin⟩ := FV.arith_of_isNan hnan
    rw [add32, sub32, mul32, div32, hadd, hsub, hmul, hdiv, hmax, hmin, r32_nan]
    exact ⟨rfl, rfl, rfl, rfl, rfl, rfl⟩
  · cases hv : v32 a with
    | fin s m e => rw [sub32, hv, FV.add_neg_self]; rfl
    | nan => rw [hv] at hfin; cases hfin
    | inf s => rw [hv] at hfin; cases hfin

end Sys2Proof.Machine
end

section
/-! SUPPORT. The matrix array: a MATMUL that runs without error (R41, R95, R103, R412), and the segment stack's tree (R98). -/
namespace Sys2Proof.Machine

/-! The head of a queue. -/

/-- A command that may start and is the row's runs between its start latch and its end (R41, R411). -/
theorem State.runHead_startable {s : State} {c : Fin 64} {q : Fin 4} {x : Site} {e : QEntry} {isRow : Nat → Bool}
    (go : State → Site → QEntry → State × Nat) (hs : s.startable c q = some (x, e)) (hrow : isRow e.raw = true) :
    s.runHead c q isRow go =
      let r := go (s.startCommand c q x e).1 x (s.latch c e)
      .next ((r.1.endCommand c q x (s.latch c e) r.2).refreshHeld x.h) := by
  simp only [State.runHead, hs, hrow, if_true]
  rfl

/-! MATMUL. -/

section
variable {s : State} {c : Fin 64} {x : Site} {e : QEntry} {o : EngOut}

/-- A started MATMUL reads what it would have read before its start: the start changes neither the store nor the engine's inputs (R41). -/
theorem matmulRun_started (hrun : matmulRun (s.engCtx c x) (s.cl c).store e.raw = .ok o) :
    let u := (s.startCommand c qMatrix x e).1
    matmulRun (u.engCtx c x) (u.cl c).store (s.latch c e).raw = .ok o := by
  intro u
  have hstart := start_between s c qMatrix x e
  have hstore : (u.cl c).store = (s.cl c).store := by rw [hstart.cl]; rfl
  rw [hstart.engCtx rfl, hstore]
  exact hrun

/-- A MATMUL that runs without error puts its output in place and completes (R95, R103). -/
theorem exec_matmul_completes (hs : s.startable c qMatrix = some (x, e)) (hop : cmdOp e.raw = 0x01)
    (hrun : matmulRun (s.engCtx c x) (s.cl c).store e.raw = .ok o) :
    exec (.matmul c) s = .next
      ((((s.startCommand c qMatrix x e).1.putMatrix c (.ok o)).1.complete c qMatrix x (s.latch c e)).refreshHeld x.h) := by
  change s.runMatmul c = _
  rw [State.runMatmul, State.runHead_startable _ hs (by rw [hop]; rfl), matmulRun_started hrun]
  rfl

/-- The output of a matrix command, put in place between its start and its completion (R95). -/
theorem putMatrix_between (s : State) (c : Fin 64) (x : Site) (e : QEntry) (o : EngOut) :
    Between s ((s.startCommand c qMatrix x e).1.putMatrix c (.ok o)).1 c qMatrix x e []
      (((s.cl c).setHead qMatrix (s.latch c e)).engineOut o.store ((s.cl c).acc.put o.regs) (s.cl c).rowBuf (s.cl c).core.sums) :=
  (start_between s c qMatrix x e).out (fun k => { k with store := o.store, acc := k.acc.put o.regs }) s.free

/-- MATMUL leaves every byte of the store outside its output tensor (R103). -/
theorem matmulRun_read_outside {y : EngCtx} {st : Mem} {raw : Nat} {d : Desc} {a : Nat} (hrun : matmulRun y st raw = .ok o)
    (hd : loadDesc y.hm y.recipes st (fld raw 135 112) = .ok d) (ha : Outside d.ranges (y.lo + a)) : o.store.read a = st.read a := by
  obtain ⟨out, hout, -, hread⟩ := (matmulRun_within y st raw).of_eq hrun
  obtain rfl : out = d := Except.ok.inj (hout.symm.trans hd)
  exact hread a ha

end

/-- Settles O5: the run's output is put in place between start and completion (`engine_done`), and lies in the output tensor. -/
theorem matmulCompletes : Obligations.MatmulCompletes := by
  unfold Obligations.MatmulCompletes
  intro s c x e o hs hop hrun
  obtain ⟨hdone, hframe, hstore, hsums, hacc, hrow⟩ := engine_done s _ c qMatrix x e _ _ _ _ _ (putMatrix_between s c x e o)
  refine ⟨_, exec_matmul_completes hs hop hrun, hdone, hframe, hstore, hacc, core_of hframe hsums, hrow, fun d hd a ha => ?_⟩
  rw [hstore]
  exact matmulRun_read_outside hrun hd ha

/-! The segment stack. -/

/-- Settles O38: the stack and the canonical tree are both the first subtree of a height that covers the segments. -/
theorem segmentStackIsTree : Obligations.SegmentStackIsTree := by
  unfold Obligations.SegmentStackIsTree
  intro α f xs hlen
  exact (segStack_eq_subtree f hlen hlen.le).trans (canonTree_eq_subtree f hlen.le).symm

end Sys2Proof.Machine
end

section
/-! SUPPORT. CONV (R108, R118, R119, R122): the row that meets a mode, the halo slots a start takes, the wait for a slot, what a run leaves. -/
namespace Sys2Proof.Machine

section
variable {s : State} {c : Fin 64} {x : Site} {e : QEntry}

/-- The row of a CONV's mode runs it: its mode is one of that row's (R108, R118, R123). -/
theorem exec_conv_row {mode : Nat} {i : Instr} (s : State)
    (hrow : (mode, i) ∈ [(0, .convFwd c), (1, .convDgrad c), (2, .convWgrad c), (4, .maxpool c), (5, .avgpool c)]) :
    ∃ isMode : Nat → Bool, isMode mode = true ∧ exec i s = s.runConv c isMode := by
  simp only [List.mem_cons, Prod.mk.injEq, List.not_mem_nil, or_false] at hrow
  obtain ⟨rfl, rfl⟩ | ⟨rfl, rfl⟩ | ⟨rfl, rfl⟩ | ⟨rfl, rfl⟩ | ⟨rfl, rfl⟩ := hrow
  · exact ⟨fun m => m == 0 || m == 3 || 6 ≤ m, by decide, rfl⟩
  · exact ⟨(· == 1), by decide, rfl⟩
  · exact ⟨(· == 2), by decide, rfl⟩
  · exact ⟨(· == 4), by decide, rfl⟩
  · exact ⟨(· == 5), by decide, rfl⟩

/-! The halo slots (R122). -/

/-- The slots a CONV takes as it starts in a heat, where the low edge's slot is not published: none. -/
theorem haloTake_eq_nil {h g : Heat} {own raw : Nat} (hdefs : SameDefs h g) (hlo : haloReady g (haloChan h own raw false) = false) :
    haloTake g own raw 0 = ([], false) := by
  simp [haloTake, haloChan_defs hdefs, hlo]

/-- Where the low edge's slot is published and the high edge's is not: the low edge's. -/
theorem haloTake_eq_low {h g : Heat} {own raw : Nat} (hdefs : SameDefs h g) (hlo : haloReady g (haloChan h own raw false) = true)
    (hhi : haloReady (g.takeHalo [haloChan h own raw false]) (haloChan h own raw true) = false) :
    haloTake g own raw 0 = ([haloChan h own raw false], false) := by
  simp [haloTake, haloChan_defs hdefs, hlo, hhi]

/-- Only the last entry put at the head of a queue stays. -/
theorem Cluster.setHead_setHead (k : Cluster) (q : Fin 4) (d e : QEntry) : (k.setHead q d).setHead q e = k.setHead q e := by
  simp [Cluster.setHead]

/-- A started CONV that has taken some halo slots and stays at the head of its queue until the next is published. -/
def State.convWaiting (s : State) (c : Fin 64) (x : Site) (e : QEntry) (took : List (Option (Option Nat))) : State :=
  (((s.startCommand c qMatrix x e).1.modHeat x.h (fun h => h.takeHalo took)).modCl c
    (fun k => k.setHead qMatrix { s.latch c e with phase := .halo took.length })).refreshHeld x.h

/-- A CONV that may start and does not get all its halo slots starts, takes those it gets, and waits. -/
theorem State.runConv_eq_convWaiting {isMode : Nat → Bool} {took : List (Option (Option Nat))} (hs : s.startable c qMatrix = some (x, e))
    (hop : cmdOp e.raw = 0x02) (hmode : isMode (convMode e.raw) = true)
    (htake : haloTake ((s.heat x.h).takeChans x.own e.raw) x.own e.raw 0 = (took, false)) :
    s.runConv c isMode = .next (s.convWaiting c x e took) := by
  have hwaiting : e.phase = .waiting := startable_waiting hs
  have hlatched : (s.latch c e).phase = .waiting := hwaiting
  have hheat : (s.startCommand c qMatrix x e).1.heat x.h = (s.heat x.h).takeChans x.own e.raw :=
    State.heat_modHeat_same s x.h (fun h => h.takeChans x.own e.raw)
  have hstarted : haloTake ((s.startCommand c qMatrix x e).1.heat x.h) x.own (s.latch c e).raw 0 = (took, false) := by
    rw [hheat]; exact htake
  simp [State.runConv, State.convHead, State.convWaiting, hs, hop, hmode, hwaiting, start_entry, hlatched, hstarted]

/-- The waiting command is in its cluster's queue, and its slots are taken; no other cluster changes. -/
theorem convWaiting_effect (s : State) (c : Fin 64) (x : Site) (e : QEntry) (took : List (Option (Option Nat))) :
    let t := s.convWaiting c x e took
    t.cl c = (s.cl c).setHead qMatrix { s.latch c e with phase := .halo took.length } ∧
      (t.heat x.h).chans = (((s.heat x.h).takeChans x.own e.raw).takeHalo took).chans ∧ ∀ d, d ≠ c → t.cl d = s.cl d := by
  intro t
  have hstart := start_between s c qMatrix x e
  have hhold := holdOnly_refreshHeld (((s.startCommand c qMatrix x e).1.modHeat x.h (fun h => h.takeHalo took)).modCl c
    (fun k => k.setHead qMatrix { s.latch c e with phase := .halo took.length })) x.h
  refine ⟨?_, ?_, fun d hd => ?_⟩
  · exact (hhold.cl c).trans (by rw [State.cl_modCl_same, State.modHeat_cl, hstart.cl, Cluster.setHead_setHead])
  · exact (congrArg Heat.chans (hhold.heats x.h)).trans (by rw [State.modCl_heat, State.heat_modHeat_same, hstart.heats, if_pos rfl]; rfl)
  · exact (hhold.cl d).trans (by rw [State.cl_modCl_ne _ _ _ _ hd.symm, State.modHeat_cl, hstart.others d hd])

/-! What a run leaves. -/

/-- CONV leaves every byte of the store outside its output tensor and, in mode MAXPOOL, the index tensor B (R119). -/
theorem convRun_read_outside {y : EngCtx} {st : Mem} {raw : Nat} {lo hi : Option (Nat × Nat × Nat)} {o : EngOut} {d : Desc}
    {b : List (Nat × Nat)} {a : Nat} (hrun : convRun y st raw lo hi = .ok o) (hd : loadDesc y.hm y.recipes st (fld raw 135 112) = .ok d)
    (hb : convMode raw = 4 → ∀ k, loadDesc y.hm y.recipes st (fld raw 111 88) = .ok k → b = k.ranges)
    (ha : Outside (d.ranges ++ b) (y.lo + a)) : o.store.read a = st.read a := by
  obtain ⟨out, idx, hout, hidx, -, hread⟩ := (convRun_within y st raw lo hi).of_eq hrun
  obtain rfl : out = d := Except.ok.inj (hout.symm.trans hd)
  refine hread a (fun r hr => ha r ?_)
  obtain rfl | ⟨hmax, k, hk, rfl⟩ := hidx
  · exact List.mem_append_left _ (by simpa using hr)
  · rwa [hb hmax k hk]

end

/-- Settles O6: `conv_row` runs a CONV with both slots; without one it is `State.convWaiting` with the slots `haloTake` gave it. -/
theorem convolutionsComplete : Obligations.ConvolutionsComplete := by
  unfold Obligations.ConvolutionsComplete
  intro s c x e i hs hop hrow lo hi h waits
  obtain ⟨isMode, hmode, hexec⟩ := exec_conv_row s hrow
  have hdefs : SameDefs (s.heat x.h) h := takeChans_defs _ _ _
  have hwait : ∀ took, haloTake h x.own e.raw 0 = (took, false) → waits took := fun took htake =>
    ⟨_, hexec.trans (State.runConv_eq_convWaiting hs hop hmode htake), convWaiting_effect s c x e took⟩
  refine ⟨fun o hlo hhi hrun => ?_, fun hlo => hwait [] (haloTake_eq_nil hdefs hlo),
    fun hlo hhi => hwait [lo] (haloTake_eq_low hdefs hlo hhi)⟩
  obtain ⟨t, ht, hdone, hframe, hstore, hcore, hbuf, hacc⟩ := conv_row isMode hs hop hmode rfl rfl hlo hhi hrun
  refine ⟨t, hexec.trans ht, hdone, hframe, hstore, hacc, hcore, hbuf, fun d b hd hb a ha => ?_⟩
  rw [hstore]
  exact convRun_read_outside hrun hd hb ha

end Sys2Proof.Machine
end

section
/-! SUPPORT. The vector engine (R127 to R153): the rows of its commands, where a run writes, a full summary queue, and the instructions that
take summaries. -/
namespace Sys2Proof.Machine

/-! The rows. -/

/-- The row of a REDUCE's op runs it (R142). -/
theorem exec_reduce_row {op rop : Nat} {c : Fin 64} {i : Instr} (s : State)
    (hrow : (op, rop, i) ∈ [(0x11, 0, .sum c), (0x11, 1, .sumsq c), (0x11, 2, .reduceMax c), (0x11, 3, .reduceMin c),
      (0x11, 4, .meanvar c), (0x11, 5, .softmax c), (0x11, 6, .softmaxBwd c)]) :
    op = 0x11 ∧ ∃ isRop : Nat → Bool, isRop rop = true ∧ exec i s = s.runReduce c isRop := by
  simp only [List.mem_cons, Prod.mk.injEq, List.not_mem_nil, or_false] at hrow
  obtain ⟨rfl, rfl, rfl⟩ | ⟨rfl, rfl, rfl⟩ | ⟨rfl, rfl, rfl⟩ | ⟨rfl, rfl, rfl⟩ | ⟨rfl, rfl, rfl⟩ | ⟨rfl, rfl, rfl⟩ | ⟨rfl, rfl, rfl⟩ := hrow
  · exact ⟨rfl, fun r => r == 0 || 7 ≤ r, by decide, rfl⟩
  · exact ⟨rfl, (· == 1), by decide, rfl⟩
  · exact ⟨rfl, (· == 2), by decide, rfl⟩
  · exact ⟨rfl, (· == 3), by decide, rfl⟩
  · exact ⟨rfl, (· == 4), by decide, rfl⟩
  · exact ⟨rfl, (· == 5), by decide, rfl⟩
  · exact ⟨rfl, (· == 6), by decide, rfl⟩

/-- A VEC or a REDUCE is met by a row that runs its command (R131, R142). -/
theorem exec_vector_row {c : Fin 64} {e : QEntry} {i : Instr} (s : State)
    (hrow : (cmdOp e.raw, reduceOp e.raw, i) ∈ [(0x11, 0, .sum c), (0x11, 1, .sumsq c), (0x11, 2, .reduceMax c), (0x11, 3, .reduceMin c),
      (0x11, 4, .meanvar c), (0x11, 5, .softmax c), (0x11, 6, .softmaxBwd c)] ∨ (cmdOp e.raw = 0x10 ∧ i = .vec c)) :
    ∃ isRow : Nat → Bool, isRow e.raw = true ∧
      exec i s = s.runVector c isRow (if cmdOp e.raw = 0x10 then vecRun else reduceRun) := by
  obtain hreduce | ⟨hop, rfl⟩ := hrow
  · obtain ⟨hop, isRop, hrop, hexec⟩ := exec_reduce_row s hreduce
    exact ⟨fun raw => cmdOp raw == 0x11 && isRop (reduceOp raw), by simp [hop, hrop], by rw [hexec, hop]; rfl⟩
  · exact ⟨fun raw => cmdOp raw == 0x10, by simp [hop], by rw [hop]; rfl⟩

/-! Where a run writes. -/

section
variable {y : EngCtx} {st : Mem} {raw a : Nat} {o : VecOut} {d : Desc}

/-- VEC leaves every byte of the store outside its destination (R131). -/
theorem vecRun_read_outside (hrun : vecRun y st raw = .ok o) (hd : loadDesc y.hm y.recipes st (fld raw 87 64) = .ok d)
    (ha : Outside d.ranges (y.lo + a)) : o.store.read a = st.read a := by
  obtain ⟨out, hout, -, hread⟩ := (vecRun_within y st raw).of_eq hrun
  obtain rfl : out = d := Except.ok.inj (hout.symm.trans hd)
  exact hread a ha

/-- REDUCE leaves every byte of the store outside its destination and, in MEANVAR, the second output (R142, R145). -/
theorem reduceRun_read_outside {b : List (Nat × Nat)} (hrun : reduceRun y st raw = .ok o)
    (hd : loadDesc y.hm y.recipes st (fld raw 87 64) = .ok d)
    (hb : reduceOp raw = 4 → ∀ k, loadDesc y.hm y.recipes st (fld raw 159 136) = .ok k → b = k.ranges)
    (ha : Outside (d.ranges ++ b) (y.lo + a)) : o.store.read a = st.read a := by
  obtain ⟨out, second, hout, hsecond, -, hread⟩ := (reduceRun_within y st raw).of_eq hrun
  obtain rfl : out = d := Except.ok.inj (hout.symm.trans hd)
  refine hread a (fun r hr => ha r ?_)
  obtain rfl | ⟨hmeanvar, k, hk, rfl⟩ := hsecond
  · exact List.mem_append_left _ (by simpa using hr)
  · rwa [hb hmeanvar k hk]

end

/-- Settles O7: `vec_row` runs and completes the command on its row, and a run writes its outputs alone. -/
theorem vectorCommandsComplete : Obligations.VectorCommandsComplete := by
  unfold Obligations.VectorCommandsComplete
  intro s c x e o i hs hrow hrun hstatus hroom
  obtain ⟨isRow, hmeets, hexec⟩ := exec_vector_row s hrow
  obtain ⟨t, ht, hdone, hframe, hstore, hsums, hacc⟩ := vec_row isRow _ hs hmeets hrun hstatus hroom
  refine ⟨t, hexec.trans ht, hdone, hframe, hstore, hsums, hacc, fun d b hd hb a ha => ?_⟩
  rw [hstore]
  obtain hreduce | ⟨hop, -⟩ := hrow
  · obtain ⟨hop, -⟩ := exec_reduce_row s hreduce
    rw [if_neg (by rw [hop]; decide)] at hrun
    exact reduceRun_read_outside hrun hd (hb hop) ha
  · rw [if_pos hop] at hrun
    exact vecRun_read_outside hrun hd (fun r hr => ha r (List.mem_append_left b hr))

/-! A full summary queue (R151). -/

section
variable {s : State} {c : Fin 64} {x : Site} {e : QEntry}

/-- The command that waits at the head of a queue is its head. -/
theorem Cluster.head?_of_headWaiting {k : Cluster} {q : Fin 4} (hwait : k.headWaiting q = some e) : k.queues[q].head? = some e := by
  unfold Cluster.headWaiting at hwait
  split at hwait
  · cases hwait
  · next d rest hqueue =>
    split at hwait
    · cases hwait; rw [hqueue]; rfl
    · cases hwait

/-- A command that may start is the head of its queue (R40, R41). -/
theorem startable_head {q : Fin 4} (hs : s.startable c q = some (x, e)) : (s.cl c).queues[q].head? = some e := by
  unfold State.startable at hs
  dsimp only at hs
  split at hs
  · next hwait =>
    split at hs
    · cases hs; exact Cluster.head?_of_headWaiting hwait
    · cases hs
  · cases hs

/-- Replacing the head of a queue that has one keeps the queue's length. -/
theorem Cluster.length_setHead {k : Cluster} {q : Fin 4} {d : QEntry} (hd : k.queues[q].head? = some d) (e : QEntry) :
    (k.setHead q e).queues[q].length = k.queues[q].length := by
  obtain ⟨rest, hqueue⟩ := List.head?_eq_some_iff.mp hd
  simp [Cluster.setHead, hqueue]

/-- The entry put at the head of a queue is its head. -/
theorem Cluster.head?_setHead (k : Cluster) (q : Fin 4) (e : QEntry) : (k.setHead q e).queues[q].head? = some e := by
  simp [Cluster.setHead]

/-- A vector command that may start and whose run ends with status OK has its output put in place, and ends (R131, R142). -/
theorem State.runVector_startable {isRow : Nat → Bool} {run : EngCtx → Mem → Nat → Except Nat VecOut} {o : VecOut}
    (hs : s.startable c qVector = some (x, e)) (hrow : isRow e.raw = true) (hrun : run (s.engCtx c x) (s.cl c).store e.raw = .ok o)
    (hstatus : o.status = 0) :
    s.runVector c isRow run =
      .next ((((s.startCommand c qVector x e).1.putVector c o).endVector c x (s.latch c e) o.sum).refreshHeld x.h) := by
  have hstart := start_between s c qVector x e
  have hstore : ((s.startCommand c qVector x e).1.cl c).store = (s.cl c).store := by rw [hstart.cl]; rfl
  have hstarted : run ((s.startCommand c qVector x e).1.engCtx c x) ((s.startCommand c qVector x e).1.cl c).store (s.latch c e).raw = .ok o := by
    rw [hstart.engCtx rfl, hstore]; exact hrun
  simp only [State.runVector, hs, hrow, if_true, start_entry, hstarted, hstatus]

/-- A command whose summary meets four entries stays at the head of its queue with it (R151). -/
theorem State.endVector_full (hfull : 4 ≤ (s.cl c).core.sums.length) (w : Word) :
    s.endVector c x e (some w) = s.modCl c (fun k => k.setHead qVector { e with phase := .summary w }) := by
  simp only [State.endVector, Nat.not_lt.mpr hfull, if_false]

/-- A vector command whose summary meets four entries has written its result, and holds its summary at the head of its queue (R151). -/
theorem State.runVector_waits {isRow : Nat → Bool} {run : EngCtx → Mem → Nat → Except Nat VecOut} {o : VecOut} {w : Word}
    (hs : s.startable c qVector = some (x, e)) (hrow : isRow e.raw = true) (hrun : run (s.engCtx c x) (s.cl c).store e.raw = .ok o)
    (hstatus : o.status = 0) (hsum : o.sum = some w) (hfull : 4 ≤ (s.cl c).core.sums.length) :
    ∃ t, s.runVector c isRow run = .next t ∧ t.cl c = ((s.cl c).setHead qVector { s.latch c e with phase := .summary w }).engineOut
      o.store (s.cl c).acc (.unspecified s.free) (s.cl c).core.sums := by
  have hput : ((s.startCommand c qVector x e).1.putVector c o).cl c =
      ((s.cl c).setHead qVector (s.latch c e)).engineOut o.store (s.cl c).acc (.unspecified s.free) (s.cl c).core.sums :=
    ((start_between s c qVector x e).out (fun k => { k with store := o.store, rowBuf := .unspecified s.free }) (s.free + 1)).cl
  refine ⟨_, State.runVector_startable hs hrow hrun hstatus, ?_⟩
  rw [(holdOnly_refreshHeld _ x.h).cl c, hsum, State.endVector_full (by rw [hput]; exact hfull), State.cl_modCl_same, hput]
  exact congrArg (fun k : Cluster => k.engineOut o.store (s.cl c).acc (.unspecified s.free) (s.cl c).core.sums)
    (Cluster.setHead_setHead (s.cl c) qVector (s.latch c e) _)

/-- A waiting summary enters the queue once an entry is free, and its command completes (R151). -/
theorem State.drainSum_enters {v : Word} (hsite : s.site c = some x) (hhead : (s.cl c).queues[qVector].head? = some e)
    (hphase : e.phase = .summary v) (hroom : (s.cl c).core.sums.length < 4) (hfrozen : (s.cl c).frozen = false)
    (hrestart : (s.cl c).core.restarting = false) :
    s.drainSum c = ((s.enterSum c v).complete c qVector x e).refreshHeld x.h := by
  obtain ⟨rest, hqueue⟩ := List.head?_eq_some_iff.mp hhead
  simp [State.drainSum, hsite, hqueue, hphase, hroom, hfrozen, hrestart]

/-- The completion of a command whose summary has entered, as its cluster and the others see it (R41, R151). -/
theorem enterSum_complete_cl (s : State) (c : Fin 64) (x : Site) (e : QEntry) (v : Word) :
    let t := ((s.enterSum c v).complete c qVector x e).refreshHeld x.h
    (∃ r : SplitRec, t.cl c = ((((s.enterSum c v).cl c).addSplit r).popHead qVector).noteDone qVector e s.now ∧
      r.cmdId = fld e.raw 47 32 ∧ r.status = 0) ∧ ∀ d, d ≠ c → t.cl d = s.cl d := by
  intro t
  have hhold := holdOnly_refreshHeld ((s.enterSum c v).complete c qVector x e) x.h
  obtain ⟨r, hfinished, -, hid, -, -, -, -, hstatus⟩ := complete_finished (s.enterSum c v) c qVector x e
  refine ⟨⟨r, (hhold.cl c).trans hfinished.cl, hid, hstatus⟩, fun d hd => ?_⟩
  exact ((hhold.cl d).trans (hfinished.others d hd)).trans (State.cl_modCl_ne _ _ _ _ hd.symm)

end

/-! The instructions that take a summary (R151, R152). -/

/-- The control core goes on with the summary it has taken, as next says. -/
def Cluster.takeWord (next : Word → Core → Core) (k : Cluster) (w : Word) : Cluster := { k with core := next w k.core }
/-- sum.get goes on with the word in rd (R152). -/
def Core.getSum (rd len : Nat) (w : Word) (k : Core) : Core := { k with pc := k.pc + BitVec.ofNat 32 len, regs := xw k.regs rd w }

section
variable {s : State} {c : Fin 64} {x : Site} {len : Nat}

/-- The row of a bsum's funct3 runs it (R152). -/
theorem exec_bsum_row {f3 : Nat} {i : Instr} (s : State)
    (hrow : (f3, i) ∈ [(0, Instr.bsumFlt c), (1, .bsumFge c), (2, .bsumFeq c), (3, .bsumFne c), (4, .bsumNan c), (5, .bsumUlt c),
      (6, .bsumUge c)]) : exec i s = s.runBsum c f3 := by
  simp only [List.mem_cons, Prod.mk.injEq, List.not_mem_nil, or_false] at hrow
  obtain ⟨rfl, rfl⟩ | ⟨rfl, rfl⟩ | ⟨rfl, rfl⟩ | ⟨rfl, rfl⟩ | ⟨rfl, rfl⟩ | ⟨rfl, rfl⟩ | ⟨rfl, rfl⟩ := hrow <;> rfl

/-- sum.get takes a summary into rd (R152). -/
theorem exec_sumGet {rd : Nat} (hsite : s.coreSite c = some x) (hfetch : (s.cl c).fetch = some (.sumGet rd, len)) :
    exec (.sumGet c) s = .next ((s.takeSum c (Cluster.takeWord (Core.getSum rd len))).refreshHeld x.h) := by
  change execSumGet c s = _
  rw [execSumGet, onCore_next _ hsite hfetch]
  rfl

/-- A bsum takes a summary and branches on its comparison with x[rs2] (R152). -/
theorem runBsum_taken {f3 rs2 : Nat} {off : Word} (hsite : s.coreSite c = some x) (hfetch : (s.cl c).fetch = some (.bsum f3 rs2 off, len)) :
    s.runBsum c f3 = .next ((s.takeSum c (Cluster.takeWord (fun w k =>
      { k with pc := k.pc + if bsumCond f3 w (xr k.regs rs2) then off else BitVec.ofNat 32 len }))).refreshHeld x.h) := by
  rw [State.runBsum, onCore_next _ hsite hfetch]
  simp only [if_true]
  rfl

/-- On an empty summary queue nothing is taken (R151). -/
theorem State.takeSum_nil (hempty : (s.cl c).core.sums = []) (f : Cluster → Word → Cluster) : s.takeSum c f = s := by
  simp only [State.takeSum, hempty]

/-- The oldest summary is taken, and one that waits may then enter (R151). -/
theorem State.takeSum_cons {w : Word} {rest : List Word} (hsums : (s.cl c).core.sums = w :: rest) (f : Cluster → Word → Cluster) :
    s.takeSum c f = (s.modCl c (fun k => f { k with core := { k.core with sums := rest } } w)).drainSum c := by
  simp only [State.takeSum, hsums]

/-- Where a vector command waits to enter its summary, taking the oldest makes room: its summary enters and it completes (R151). -/
theorem State.takeSum_enters {next : Word → Core → Core} {e : QEntry} {w v : Word} {rest : List Word} (hsite : s.site c = some x)
    (hsums : (s.cl c).core.sums = w :: rest) (hhead : (s.cl c).queues[qVector].head? = some e) (hphase : e.phase = .summary v)
    (hroom : (next w { (s.cl c).core with sums := rest }).sums.length < 4) (hfrozen : (s.cl c).frozen = false)
    (hrestart : (next w { (s.cl c).core with sums := rest }).restarting = false) :
    let t := s.takeSum c (Cluster.takeWord next)
    let core := next w { (s.cl c).core with sums := rest }
    (∃ r : SplitRec, t.cl c = ((({ s.cl c with core := { core with sums := core.sums ++ [v] } } : Cluster).addSplit r).popHead
        qVector).noteDone qVector e s.now ∧ r.cmdId = fld e.raw 47 32 ∧ r.status = 0) ∧ ∀ d, d ≠ c → t.cl d = s.cl d := by
  intro t core
  let u := s.modCl c (fun k => ({ k with core := { k.core with sums := rest } } : Cluster).takeWord next w)
  have hown : u.cl c = { s.cl c with core := core } := State.cl_modCl_same _ _ _
  have ht : t = ((u.enterSum c v).complete c qVector x e).refreshHeld x.h := (State.takeSum_cons hsums _).trans
    (State.drainSum_enters hsite (by rw [hown]; exact hhead) hphase (by rw [hown]; exact hroom) (by rw [hown]; exact hfrozen)
      (by rw [hown]; exact hrestart))
  obtain ⟨⟨r, hdone, hid, hstatus⟩, hothers⟩ := enterSum_complete_cl u c x e v
  rw [ht]
  refine ⟨⟨r, hdone.trans ?_, hid, hstatus⟩, fun d hd => (hothers d hd).trans (State.cl_modCl_ne _ _ _ _ hd.symm)⟩
  rw [State.enterSum, State.cl_modCl_same, hown]
  rfl

end

/-- Settles O17: each row is `State.takeSum` with its own way on, and no command waits to enter (`drainSum_idle`). -/
theorem summariesAreTaken : Obligations.SummariesAreTaken := by
  unfold Obligations.SummariesAreTaken
  intro s c x i len next hsite hins
  have hexec : exec i s = .next ((s.takeSum c (Cluster.takeWord next)).refreshHeld x.h) := by
    obtain ⟨rd, hfetch, rfl, rfl⟩ | ⟨f3, rs2, off, hfetch, hrow, rfl⟩ := hins
    · exact exec_sumGet hsite hfetch
    · exact (exec_bsum_row s hrow).trans (runBsum_taken hsite hfetch)
  refine ⟨fun hempty => ⟨_, hexec, ?_⟩, fun w rest hsums hidle => ⟨_, hexec, ?_⟩⟩
  · rw [State.takeSum_nil hempty]
    exact holdOnly_refreshHeld s x.h
  · rw [State.takeSum_cons hsums, drainSum_idle _ c (by rw [State.cl_modCl_same]; exact hidle)]
    exact holdOnly_refreshHeld _ x.h

/-- Settles O18: a full queue keeps the command at its head (`State.runVector_waits`); the word taken makes room for its summary, and
it completes (`State.takeSum_enters`). -/
theorem summariesWaitForRoom : Obligations.SummariesWaitForRoom := by
  unfold Obligations.SummariesWaitForRoom
  refine ⟨fun s c x e o w hs hop hrun hstatus hsum hfull => ?_, fun s c x rd len w v rest e hsite hfetch hsums hroom hhead hphase => ?_⟩
  · obtain ⟨t, ht, hown⟩ := State.runVector_waits (isRow := fun raw => cmdOp raw == 0x10) hs (by simp [hop]) hrun hstatus hsum hfull
    refine ⟨t, { s.latch c e with phase := .summary w }, ht, ?_⟩
    rw [hown]
    exact ⟨rfl, rfl, Cluster.head?_setHead _ _ _, rfl, rfl, Cluster.length_setHead (startable_head hs) _, rfl⟩
  · obtain ⟨hplace, -, hrestart, hfrozen, -⟩ := coreSite_parts hsite
    obtain ⟨⟨r, hown, hid, hstatus⟩, hothers⟩ := State.takeSum_enters (next := Core.getSum rd len) hplace hsums hhead hphase hroom hfrozen
      hrestart
    have hhold := holdOnly_refreshHeld (s.takeSum c (Cluster.takeWord (Core.getSum rd len))) x.h
    refine ⟨_, r, exec_sumGet hsite hfetch, ?_⟩
    rw [hhold.cl c, hown]
    exact ⟨rfl, rfl, rfl, addSplit_last _ _, hid, hstatus, fun d hd => (hhold.cl d).trans (hothers d hd)⟩

end Sys2Proof.Machine
end

section
/-! The controller code (R195): bytes as elements of a field of characteristic 2 in which the code's polynomial has a root, its syndromes as values
of polynomials there, and what decoding makes of at most two wrong bytes. -/
namespace Sys2Proof.Machine

theorem gfX_lt {a : ℕ} (ha : a < 256) : gfX a < 256 := by
  have hhigh : ∀ b : Fin 128, gfX (128 + b) < 256 := by decide +kernel
  by_cases h : a < 128
  · rw [gfX, if_pos h]
    omega
  · have := hhigh ⟨a - 128, by omega⟩
    rwa [show 128 + (a - 128) = a by omega] at this
theorem xor_lt_byte {a b : ℕ} (ha : a < 256) (hb : b < 256) : a ^^^ b < 256 := Nat.xor_lt_two_pow (n := 8) ha hb
theorem ne_xor_of_ne_zero (a : ℕ) {b : ℕ} (hb : b ≠ 0) : a ≠ a ^^^ b := fun h =>
  hb (Nat.xor_right_inj.mp (h.symm.trans (Nat.xor_zero _).symm))
theorem gfMulN_lt (n : ℕ) {a : ℕ} (b : ℕ) (ha : a < 256) : gfMulN n a b < 256 := by
  induction n generalizing a b with
  | zero => exact Nat.succ_pos _
  | succ n ih => exact xor_lt_byte (by split <;> omega) (ih _ (gfX_lt ha))
theorem gfMul_lt {a : ℕ} (b : ℕ) (ha : a < 256) : gfMul a b < 256 := gfMulN_lt 8 b ha
theorem gfPow_lt (n : ℕ) : gfPow n < 256 := by
  induction n with
  | zero => decide
  | succ n ih => exact gfX_lt ih
theorem gfInv_lt {a : ℕ} (ha : a < 256) : gfInv a < 256 := by
  have hsq {b : ℕ} (hb : b < 256) : gfMul b b < 256 := gfMul_lt b hb
  exact gfMul_lt _ (gfMul_lt _ (gfMul_lt _ (hsq ha)))
/-- Inversion is right for each of the 255 nonzero bytes. -/
theorem gfMul_gfInv {a : ℕ} (ha : a < 256) (h0 : a ≠ 0) : gfMul a (gfInv a) = 1 := by
  have hall : ∀ b : Fin 256, b.val ≠ 0 → gfMul b (gfInv b) = 1 := by decide +kernel
  exact hall ⟨a, ha⟩ h0
theorem gfPow_ne_one {d : ℕ} (hd : d < 42) (h0 : d ≠ 0) : gfPow d ≠ 1 := by
  have hall : ∀ e : Fin 42, e.val ≠ 0 → gfPow e ≠ 1 := by decide +kernel
  exact hall ⟨d, hd⟩ h0

/-! Bytes as field elements. -/

section
variable {K : Type*} [Field K] {β : K}

/-- The element that a byte stands for: its bits are the coefficients of the powers of β. -/
def gfVal {K : Type*} [Field K] (β : K) (a : ℕ) : K := Nat.ofDigits β (Nat.digits 2 a)

@[simp] theorem gfVal_zero : gfVal β 0 = 0 := by simp [gfVal, Nat.ofDigits]
@[simp] theorem gfVal_one : gfVal β 1 = 1 := by simp [gfVal, Nat.ofDigits]
theorem gfVal_eq_step (a : ℕ) : gfVal β a = (a % 2 : ℕ) + β * gfVal β (a / 2) := by
  rcases Nat.eq_zero_or_pos a with rfl | ha
  · simp
  · rw [gfVal, Nat.digits_def' (by omega) ha]
    rfl
theorem gfVal_two_mul (a : ℕ) : gfVal β (2 * a) = β * gfVal β a := by
  rw [gfVal_eq_step]
  simp
variable [CharP K 2]

/-- Sums in the field are exclusive ors. -/
@[simp] theorem gfVal_xor (a b : ℕ) : gfVal β (a ^^^ b) = gfVal β a + gfVal β b := by
  induction a using Nat.strong_induction_on generalizing b with
  | _ a ih =>
    rcases Nat.eq_zero_or_pos a with rfl | ha
    · simp
    · have hbit : (((a ^^^ b) % 2 : ℕ) : K) = (a % 2 : ℕ) + (b % 2 : ℕ) := by
        rw [Nat.xor_mod_two_eq, ← Nat.cast_add, CharP.cast_eq_iff_mod_eq K 2]
        omega
      rw [gfVal_eq_step, Nat.xor_div_two, ih (a / 2) (by omega), hbit, gfVal_eq_step a, gfVal_eq_step b]
      ring

section
variable (hβ : β ^ 8 = β ^ 4 + β ^ 3 + β ^ 2 + 1)
include hβ

/-- The code's polynomial (R195) vanishes at β. -/
theorem gfVal_polynomial : gfVal β 0x11D = 0 := by
  have hval : gfVal β 0x11D = 1 + β ^ 2 + β ^ 3 + β ^ 4 + β ^ 8 := by
    simp [gfVal, Nat.ofDigits]
    ring
  linear_combination hval + hβ + (β ^ 4 + β ^ 3 + β ^ 2 + 1) * CharTwo.two_eq_zero (R := K)
theorem gfVal_gfX (a : ℕ) : gfVal β (gfX a) = β * gfVal β a := by
  unfold gfX
  split
  · exact gfVal_two_mul a
  · rw [gfVal_xor, gfVal_two_mul, gfVal_polynomial hβ, add_zero]
theorem gfVal_gfMulN (n a b : ℕ) (hb : b < 2 ^ n) : gfVal β (gfMulN n a b) = gfVal β a * gfVal β b := by
  induction n generalizing a b with
  | zero =>
    obtain rfl : b = 0 := by omega
    simp [gfMulN]
  | succ n ih =>
    rw [gfMulN, gfVal_xor, ih _ _ (by omega), gfVal_gfX hβ, gfVal_eq_step b]
    rcases Nat.mod_two_eq_zero_or_one b with h | h <;> simp [h] <;> ring
theorem gfVal_gfMul (a : ℕ) {b : ℕ} (hb : b < 256) : gfVal β (gfMul a b) = gfVal β a * gfVal β b := gfVal_gfMulN hβ 8 a b hb
theorem gfVal_gfPow (n : ℕ) : gfVal β (gfPow n) = β ^ n := by
  induction n with
  | zero => simp [gfPow]
  | succ n ih => rw [gfPow, gfVal_gfX hβ, ih, pow_succ']
theorem gfVal_mul_gfInv {a : ℕ} (ha : a < 256) (h0 : a ≠ 0) : gfVal β a * gfVal β (gfInv a) = 1 := by
  rw [← gfVal_gfMul hβ a (gfInv_lt ha), gfMul_gfInv ha h0, gfVal_one]
theorem gfVal_eq_zero {a : ℕ} (ha : a < 256) (h : gfVal β a = 0) : a = 0 := by
  by_contra h0
  simpa [h] using gfVal_mul_gfInv hβ ha h0
theorem gfVal_inj {a b : ℕ} (ha : a < 256) (hb : b < 256) (h : gfVal β a = gfVal β b) : a = b :=
  Nat.xor_eq_zero_iff.mp (gfVal_eq_zero hβ (xor_lt_byte ha hb) (by rw [gfVal_xor, h, CharTwo.add_self_eq_zero]))
/-- The 42 places of a word have different powers of β. -/
theorem pow_inj_of_lt {a b : ℕ} (ha : a < 42) (hb : b < 42) (h : β ^ a = β ^ b) : a = b := by
  wlog hab : a ≤ b generalizing a b
  · exact (this hb ha h.symm (by omega)).symm
  have hne : β ≠ 0 := by
    rintro rfl
    simp at hβ
  have hone : β ^ (b - a) = 1 := by
    rw [pow_sub₀ β hne hab, h, mul_inv_cancel₀ (pow_ne_zero b hne)]
  by_contra hne'
  exact gfPow_ne_one (d := b - a) (by omega) (by omega)
    (gfVal_inj hβ (gfPow_lt _) (by decide) (by rw [gfVal_gfPow hβ, hone, gfVal_one]))
/-- The value at x of the polynomial whose coefficients a word's bytes are, highest degree first. -/
def gfEval {K : Type*} [Field K] (β x : K) (word : List ℕ) : K := word.foldl (fun h b => h * x + gfVal β b) 0

omit hβ [CharP K 2] in
theorem gfEval_append_singleton (x : K) (word : List ℕ) (b : ℕ) : gfEval β x (word ++ [b]) = gfEval β x word * x + gfVal β b := by
  simp [gfEval]
omit hβ [CharP K 2] in
theorem gfEval_eq_sum (x : K) (word : List ℕ) :
    gfEval β x word = ∑ m ∈ Finset.range word.length, gfVal β (word.getD m 0) * x ^ (word.length - 1 - m) := by
  induction word using List.reverseRecOn with
  | nil => rfl
  | append_singleton word b ih =>
    rw [gfEval_append_singleton, ih, List.length_append, List.length_singleton, Finset.sum_range_succ, Finset.sum_mul]
    congr 1
    · refine Finset.sum_congr rfl (fun m hm => ?_)
      have hm := Finset.mem_range.mp hm
      rw [List.getD_append _ _ _ _ hm, mul_assoc, ← pow_succ, show word.length - 1 - m + 1 = word.length + 1 - 1 - m by omega]
    · simp
/-- A syndrome is a value of the word (R195). -/
theorem gfVal_rsSyn (k : ℕ) (word : List ℕ) : gfVal β (rsSyn k word) = gfEval β (β ^ k) word := by
  have hstep (a b : ℕ) : gfVal β (gfMul a (gfPow k) ^^^ b) = gfVal β a * β ^ k + gfVal β b := by
    rw [gfVal_xor, gfVal_gfMul hβ a (gfPow_lt k), gfVal_gfPow hβ]
  unfold gfEval rsSyn
  rw [← gfVal_zero (β := β), List.foldl_hom (gfVal β) (fun a b => (hstep a b).symm)]

end
end

/-! Words of the code. -/

/-- The bytes of a granule with its address: 6 address bytes, 32 data bytes and 4 check bytes. -/
structure IsWord (w : List ℕ) : Prop where
  length : w.length = 42
  byte : ∀ b ∈ w, b < 256

theorem IsWord.getD_lt {w : List ℕ} (hw : IsWord w) (m : ℕ) : w.getD m 0 < 256 := by
  rcases Nat.lt_or_ge m w.length with h | h
  · rw [List.getD_eq_getElem _ _ h]
    exact hw.byte _ (List.getElem_mem h)
  · rw [List.getD_eq_default _ _ h]
    decide
theorem IsWord.ext {u v : List ℕ} (hu : IsWord u) (hv : IsWord v) (h : ∀ m, u.getD m 0 = v.getD m 0) : u = v := by
  refine List.ext_getElem (hu.length.trans hv.length.symm) (fun m h1 h2 => ?_)
  rw [← List.getD_eq_getElem _ 0 h1, ← List.getD_eq_getElem _ 0 h2, h m]
theorem rsSyn_lt {w : List ℕ} (hw : ∀ b ∈ w, b < 256) (k : ℕ) : rsSyn k w < 256 := by
  unfold rsSyn
  refine List.foldlRecOn (motive := fun a => a < 256) w _ (by decide) (fun a ha b hb => ?_)
  exact xor_lt_byte (gfMul_lt _ ha) (hw b hb)
theorem rsOk_iff (w : List ℕ) : rsOk w = true ↔ ∀ k < 4, rsSyn k w = 0 := by
  unfold rsOk
  simp only [List.all_cons, List.all_nil, Bool.and_true, Bool.and_eq_true, beq_iff_eq]
  constructor
  · rintro ⟨h0, h1, h2, h3⟩ k hk
    interval_cases k <;> assumption
  · exact fun h => ⟨h 0 (by decide), h 1 (by decide), h 2 (by decide), h 3 (by decide)⟩
/-- A field that holds a root of the code's polynomial exists. -/
theorem exists_gf_root : ∃ β : AlgebraicClosure (ZMod 2), β ^ 8 = β ^ 4 + β ^ 3 + β ^ 2 + 1 := by
  have hdeg : (Polynomial.X ^ 8 - (Polynomial.X ^ 4 + Polynomial.X ^ 3 + Polynomial.X ^ 2 + 1) :
      Polynomial (AlgebraicClosure (ZMod 2))).degree = 8 := by compute_degree!
  obtain ⟨β, hroot⟩ := IsAlgClosed.exists_root _ (hdeg.trans_ne (by decide))
  exact ⟨β, sub_eq_zero.mp (by simpa [Polynomial.IsRoot] using hroot)⟩
/-- Power sums over no more elements than there are sums vanish only where every coefficient does. -/
theorem eq_zero_of_power_sums {K : Type*} [Field K] {T : Finset ℕ} {x v : ℕ → K} (hx : Set.InjOn x T)
    (h : ∀ k < T.card, ∑ m ∈ T, v m * x m ^ k = 0) : ∀ m ∈ T, v m = 0 := by
  have hinj : Function.Injective (fun i : Fin T.card => x (T.equivFin.symm i)) := fun i j hij =>
    T.equivFin.symm.injective (Subtype.ext (hx (T.equivFin.symm i).2 (T.equivFin.symm j).2 hij))
  have hzero := Matrix.eq_zero_of_forall_pow_sum_mul_pow_eq_zero (v := fun i : Fin T.card => v (T.equivFin.symm i)) hinj (fun k => by
    rw [T.equivFin.symm.sum_comp (fun m : T => v m * x m ^ k.val), Finset.sum_coe_sort T (fun m => v m * x m ^ k.val), h k k.2])
  intro m hm
  simpa using congrFun hzero (T.equivFin ⟨m, hm⟩)

/-- The syndromes of a word are those of its difference from a code word. -/
theorem gfVal_rsSyn_error {K : Type*} [Field K] [CharP K 2] {β : K} (hβ : β ^ 8 = β ^ 4 + β ^ 3 + β ^ 2 + 1) {w r : List ℕ} (hw : IsWord w)
    (hr : IsWord r) (hok : rsOk w = true) {T : Finset ℕ} (hT : ∀ m ∈ T, m < 42)
    (hsame : ∀ m, m ∉ T → r.getD m 0 = w.getD m 0) {k : ℕ} (hk : k < 4) :
    gfVal β (rsSyn k r) = ∑ m ∈ T, gfVal β (r.getD m 0 ^^^ w.getD m 0) * (β ^ (41 - m)) ^ k := by
  have hzero : gfVal β (rsSyn k w) = 0 := by rw [(rsOk_iff w).mp hok k hk, gfVal_zero]
  rw [← add_zero (gfVal β (rsSyn k r)), ← hzero, gfVal_rsSyn hβ, gfVal_rsSyn hβ, gfEval_eq_sum, gfEval_eq_sum, hw.length, hr.length,
    ← Finset.sum_add_distrib]
  symm
  refine Finset.sum_subset_zero_on_sdiff (fun m hm => Finset.mem_range.mpr (hT m hm)) (fun m hm => ?_) (fun m _ => ?_)
  · rw [hsame m (Finset.mem_sdiff.mp hm).2]
    exact CharTwo.add_self_eq_zero _
  · rw [gfVal_xor, add_mul, ← pow_mul, ← pow_mul, Nat.mul_comm k]
/-- Two code words that differ in four places at most are one (R195): the code's distance is five. -/
theorem eq_of_rsOk {u v : List ℕ} (hu : IsWord u) (hv : IsWord v) (hou : rsOk u = true) (hov : rsOk v = true) {T : Finset ℕ}
    (hcard : T.card ≤ 4) (hT : ∀ m ∈ T, m < 42) (hsame : ∀ m, m ∉ T → u.getD m 0 = v.getD m 0) : u = v := by
  obtain ⟨β, hβ⟩ := exists_gf_root
  have hdiff : ∀ m ∈ T, gfVal β (u.getD m 0 ^^^ v.getD m 0) = 0 := by
    refine eq_zero_of_power_sums (x := fun m => β ^ (41 - m)) (fun a ha b hb hab => ?_) (fun k hk => ?_)
    · have := hT a ha
      have := hT b hb
      have := pow_inj_of_lt hβ (a := 41 - a) (b := 41 - b) (by omega) (by omega) hab
      omega
    · rw [← gfVal_rsSyn_error hβ hv hu hov hT hsame (by omega), (rsOk_iff u).mp hou k (by omega), gfVal_zero]
  refine hu.ext hv (fun m => ?_)
  by_cases hm : m ∈ T
  · exact Nat.xor_eq_zero_iff.mp (gfVal_eq_zero hβ (xor_lt_byte (hu.getD_lt m) (hv.getD_lt m)) (hdiff m hm))
  · exact hsame m hm

/-! Decoding. -/

/-- The positions at which a word differs from another. -/
def wrongAt (w r : List ℕ) : Finset ℕ := (Finset.range 42).filter (fun m => r.getD m 0 ≠ w.getD m 0)

theorem getD_xorAt (xs : List ℕ) {i : ℕ} (v m : ℕ) (hi : i < xs.length) :
    (xorAt xs i v).getD m 0 = if m = i then xs.getD i 0 ^^^ v else xs.getD m 0 := by
  rw [xorAt, List.getD_eq_getElem?_getD, List.getElem?_set]
  by_cases h : m = i
  · subst h
    simp [hi]
  · rw [if_neg (Ne.symm h), if_neg h, List.getD_eq_getElem?_getD]
theorem IsWord.xorAt {r : List ℕ} (hr : IsWord r) (i : ℕ) {v : ℕ} (hv : v < 256) : IsWord (xorAt r i v) where
  length := by simp [Machine.xorAt, hr.length]
  byte b hb := by
    rcases List.mem_or_eq_of_mem_set hb with h | rfl
    · exact hr.byte b h
    · exact xor_lt_byte (hr.getD_lt i) hv

section
variable {w r : List ℕ} (hw : IsWord w) (hr : IsWord r) (hok : rsOk w = true)

theorem lt_of_mem_wrongAt {m : ℕ} (h : m ∈ wrongAt w r) : m < 42 := Finset.mem_range.mp (Finset.mem_filter.mp h).1

include hw hr
theorem mem_wrongAt {m : ℕ} : m ∈ wrongAt w r ↔ r.getD m 0 ≠ w.getD m 0 := by
  simp only [wrongAt, Finset.mem_filter, Finset.mem_range, and_iff_right_iff_imp]
  intro hne
  by_contra hm
  exact hne (by rw [List.getD_eq_default _ _ (by rw [hr.length]; omega), List.getD_eq_default _ _ (by rw [hw.length]; omega)])
theorem getD_eq_of_notMem_wrongAt {m : ℕ} (h : m ∉ wrongAt w r) : r.getD m 0 = w.getD m 0 := by
  simpa using (mem_wrongAt hw hr).not.mp h
theorem wrongAt_eq_empty : wrongAt w r = ∅ ↔ r = w := by
  refine ⟨fun h => hr.ext hw (fun m => getD_eq_of_notMem_wrongAt hw hr (by simp [h])), ?_⟩
  rintro rfl
  exact Finset.eq_empty_of_forall_notMem (fun m hm => (mem_wrongAt hw hr).mp hm rfl)

include hok
/-- A code word within two places of a word that is within two of another is that other. -/
theorem eq_of_corrects {t : List ℕ} (ht : IsWord t) (hot : rsOk t = true) (hcard : (wrongAt w r).card ≤ 2) {T : Finset ℕ} (hT : T.card ≤ 2)
    (hlt : ∀ m ∈ T, m < 42) (hsame : ∀ m, m ∉ T → t.getD m 0 = r.getD m 0) : t = w := by
  refine eq_of_rsOk ht hw hot hok (T := T ∪ wrongAt w r) ((Finset.card_union_le _ _).trans (by omega)) (fun m hm => ?_) (fun m hm => ?_)
  · rcases Finset.mem_union.mp hm with h | h
    · exact hlt m h
    · exact lt_of_mem_wrongAt h
  · rw [Finset.mem_union, not_or] at hm
    rw [hsame m hm.1, getD_eq_of_notMem_wrongAt hw hr hm.2]
/-- One wrong byte: its place and nothing else is corrected. -/
theorem rsTry1_eq (hcard : (wrongAt w r).card ≤ 2) {p : ℕ} (hp : p < 42) : rsTry1 r p = if wrongAt w r = {p} then some w else none := by
  have hsyn := rsSyn_lt hr.byte 0
  have hget (m : ℕ) := getD_xorAt r (rsSyn 0 r) m (i := p) (by rw [hr.length]; exact hp)
  by_cases hD : wrongAt w r = {p}
  · obtain ⟨β, hβ⟩ := exists_gf_root
    have hval : rsSyn 0 r = r.getD p 0 ^^^ w.getD p 0 := by
      refine gfVal_inj hβ hsyn (xor_lt_byte (hr.getD_lt p) (hw.getD_lt p)) ?_
      rw [gfVal_rsSyn_error hβ hw hr hok (fun m => lt_of_mem_wrongAt) (fun m => getD_eq_of_notMem_wrongAt hw hr) (by decide), hD]
      simp
    have hne : rsSyn 0 r ≠ 0 := by
      rw [hval, Ne, Nat.xor_eq_zero_iff]
      exact (mem_wrongAt hw hr).mp (by rw [hD]; exact Finset.mem_singleton_self p)
    have hfix : xorAt r p (rsSyn 0 r) = w := by
      refine (hr.xorAt p hsyn).ext hw (fun m => ?_)
      rw [hget]
      split
      · subst m
        rw [hval, Nat.xor_xor_cancel_left]
      · exact getD_eq_of_notMem_wrongAt hw hr (by rw [hD]; simpa)
    simp [rsTry1, hfix, hne, hok, hD]
  · rw [if_neg hD, rsTry1, if_neg]
    simp only [Bool.and_eq_true, bne_iff_ne, not_and]
    intro hne hfixed
    have hw' : xorAt r p (rsSyn 0 r) = w := eq_of_corrects hw hr hok (hr.xorAt p hsyn) hfixed hcard (T := {p}) (by simp) (by simpa)
      (fun m hm => by rw [hget, if_neg (by simpa using hm)])
    refine hD (Finset.ext (fun m => ?_))
    rw [mem_wrongAt hw hr, ← hw', hget, Finset.mem_singleton]
    split
    · subst m
      simpa using ne_xor_of_ne_zero _ hne
    · simpa
omit hok hw in
/-- A second byte corrected beside a first. -/
theorem getD_xorAt_xorAt {p q : ℕ} (hpq : p < q) (hq : q < 42) (v u m : ℕ) : (xorAt (xorAt r p v) q u).getD m 0 =
    if m = q then r.getD q 0 ^^^ u else if m = p then r.getD p 0 ^^^ v else r.getD m 0 := by
  have hlen := hr.length
  rw [getD_xorAt _ _ _ (by simp [xorAt]; omega), getD_xorAt _ _ _ (by omega), getD_xorAt _ _ _ (by omega),
    if_neg (show ¬q = p by omega)]
/-- Two wrong bytes are the solution of the first two syndromes. -/
theorem rsTry2_values {p q : ℕ} (hpq : p < q) (hD : wrongAt w r = {p, q}) :
    gfMul (rsSyn 1 r ^^^ gfMul (rsSyn 0 r) (gfPow (41 - p))) (gfInv (gfPow (41 - p) ^^^ gfPow (41 - q))) = r.getD q 0 ^^^ w.getD q 0 ∧
    rsSyn 0 r ^^^ (r.getD q 0 ^^^ w.getD q 0) = r.getD p 0 ^^^ w.getD p 0 := by
  obtain ⟨β, hβ⟩ := exists_gf_root
  have hq : q < 42 := lt_of_mem_wrongAt (w := w) (r := r) (by simp [hD])
  have hsyn (k : ℕ) := rsSyn_lt hr.byte k
  have hbyte (m : ℕ) : r.getD m 0 ^^^ w.getD m 0 < 256 := xor_lt_byte (hr.getD_lt m) (hw.getD_lt m)
  have hsum {k : ℕ} (hk : k < 4) := gfVal_rsSyn_error hβ hw hr hok (T := {p, q}) (fun m hm => lt_of_mem_wrongAt (hD ▸ hm))
    (fun m hm => getD_eq_of_notMem_wrongAt hw hr (hD ▸ hm)) hk
  have h0 := hsum (k := 0) (by decide)
  have h1 := hsum (k := 1) (by decide)
  rw [Finset.sum_pair (by omega)] at h0 h1
  have hpow : gfPow (41 - p) ^^^ gfPow (41 - q) ≠ 0 := by
    rw [Ne, Nat.xor_eq_zero_iff]
    intro heq
    have := pow_inj_of_lt hβ (a := 41 - p) (b := 41 - q) (by omega) (by omega) (by rw [← gfVal_gfPow hβ, heq, gfVal_gfPow hβ])
    omega
  have hlt := xor_lt_byte (gfPow_lt (41 - p)) (gfPow_lt (41 - q))
  have hinv := gfVal_mul_gfInv hβ hlt hpow
  have htwo := CharTwo.two_eq_zero (R := AlgebraicClosure (ZMod 2))
  constructor
  · refine gfVal_inj hβ (gfMul_lt _ (xor_lt_byte (hsyn 1) (gfMul_lt _ (hsyn 0)))) (hbyte q) ?_
    rw [gfVal_gfMul hβ _ (gfInv_lt hlt), gfVal_xor, gfVal_gfMul hβ _ (gfPow_lt _), h0, h1, gfVal_gfPow hβ]
    rw [gfVal_xor, gfVal_gfPow hβ, gfVal_gfPow hβ] at hinv
    linear_combination gfVal β (r.getD q 0 ^^^ w.getD q 0) * hinv + gfVal β (r.getD p 0 ^^^ w.getD p 0) * β ^ (41 - p) *
      gfVal β (gfInv (gfPow (41 - p) ^^^ gfPow (41 - q))) * htwo
  · refine gfVal_inj hβ (xor_lt_byte (hsyn 0) (hbyte q)) (hbyte p) ?_
    rw [gfVal_xor, h0]
    linear_combination gfVal β (r.getD q 0 ^^^ w.getD q 0) * htwo
/-- Two wrong bytes: their places and no others are corrected. -/
theorem rsTry2_eq (hcard : (wrongAt w r).card ≤ 2) {p q : ℕ} (hpq : p < q) (hq : q < 42) :
    rsTry2 r p q = if wrongAt w r = {p, q} then some w else none := by
  have hget := getD_xorAt_xorAt hr hpq hq
  have hn : r.length - 1 = 41 := by rw [hr.length]
  by_cases hD : wrongAt w r = {p, q}
  · obtain ⟨hsecond, hfirst⟩ := rsTry2_values hw hr hok hpq hD
    have hfix : xorAt (xorAt r p (r.getD p 0 ^^^ w.getD p 0)) q (r.getD q 0 ^^^ w.getD q 0) = w := by
      have hbyte (m : ℕ) : r.getD m 0 ^^^ w.getD m 0 < 256 := xor_lt_byte (hr.getD_lt m) (hw.getD_lt m)
      refine ((hr.xorAt p (hbyte p)).xorAt q (hbyte q)).ext hw (fun m => ?_)
      rw [hget, Nat.xor_xor_cancel_left, Nat.xor_xor_cancel_left]
      split
      · subst m
        rfl
      · split
        · subst m
          rfl
        · exact getD_eq_of_notMem_wrongAt hw hr (by simp [*])
    have hne {m : ℕ} (hm : m ∈ ({p, q} : Finset ℕ)) : (r.getD m 0 ^^^ w.getD m 0 != 0) = true := by
      rw [bne_iff_ne, Ne, Nat.xor_eq_zero_iff]
      exact (mem_wrongAt hw hr).mp (hD ▸ hm)
    simp only [rsTry2, hn, hsecond, hfirst, hfix, hok, hD, hne (m := p) (by simp), hne (m := q) (by simp), Bool.and_self, if_true]
  · rw [if_neg hD]
    simp only [rsTry2, hn]
    have hv : gfMul (rsSyn 1 r ^^^ gfMul (rsSyn 0 r) (gfPow (41 - p))) (gfInv (gfPow (41 - p) ^^^ gfPow (41 - q))) < 256 :=
      gfMul_lt _ (xor_lt_byte (rsSyn_lt hr.byte 1) (gfMul_lt _ (rsSyn_lt hr.byte 0)))
    have hu := xor_lt_byte (rsSyn_lt hr.byte 0) hv
    revert hv hu
    generalize gfMul (rsSyn 1 r ^^^ _) _ = v
    generalize rsSyn 0 r ^^^ v = u
    intro hv hu
    rw [if_neg]
    simp only [Bool.and_eq_true, bne_iff_ne]
    rintro ⟨⟨hu0, hv0⟩, hfixed⟩
    have hw' : xorAt (xorAt r p u) q v = w := eq_of_corrects hw hr hok ((hr.xorAt p hu).xorAt q hv) hfixed hcard (T := {p, q})
      (Finset.card_le_two) (fun m hm => by rw [Finset.mem_insert, Finset.mem_singleton] at hm; omega) (fun m hm => by
        rw [Finset.mem_insert, Finset.mem_singleton, not_or] at hm
        rw [hget, if_neg hm.2, if_neg hm.1])
    refine hD (Finset.ext (fun m => ?_))
    rw [mem_wrongAt hw hr, ← hw', hget, Finset.mem_insert, Finset.mem_singleton]
    split
    · subst m
      simpa using ne_xor_of_ne_zero _ hv0
    · split
      · subst m
        simpa using ne_xor_of_ne_zero _ hu0
      · simp [*]
end

/-- One place of a list gives what the whole list does. -/
theorem flatMap_eq_of_single {α : Type*} {l : List ℕ} (hl : l.Nodup) {p : ℕ} (hp : p ∈ l) {f : ℕ → List α}
    (h : ∀ i ∈ l, i ≠ p → f i = []) : l.flatMap f = f p := by
  obtain ⟨a, b, rfl⟩ := List.append_of_mem hp
  have hdisj := List.nodup_middle.mp hl
  have hnil {m : ℕ} (hm : m ∈ a ++ b) : f m = [] :=
    h m (by simp only [List.mem_append, List.mem_cons] at hm ⊢; tauto) (fun e => (List.nodup_cons.mp hdisj).1 (e ▸ hm))
  rw [List.flatMap_append, List.flatMap_cons, List.flatMap_eq_nil_iff.mpr (fun m hm => hnil (List.mem_append_left _ hm)),
    List.flatMap_eq_nil_iff.mpr (fun m hm => hnil (List.mem_append_right _ hm)), List.nil_append, List.append_nil]

theorem filterMap_eq_of_single {α : Type*} {l : List ℕ} (hl : l.Nodup) {p : ℕ} (hp : p ∈ l) {f : ℕ → Option α} {x : α}
    (hx : f p = some x) (h : ∀ i ∈ l, i ≠ p → f i = none) : l.filterMap f = [x] := by
  rw [List.filterMap_eq_flatMap_toList, flatMap_eq_of_single hl hp (fun i hi hip => by rw [h i hi hip]; rfl), hx]
  rfl
/-- The two places of a pair, in order, are the only ones of their pair. -/
theorem pair_eq_iff {p q i j : ℕ} (hpq : p < q) (hij : i < j) : ({p, q} : Finset ℕ) = {i, j} ↔ i = p ∧ j = q := by
  refine ⟨fun h => ?_, by rintro ⟨rfl, rfl⟩; rfl⟩
  have hp : p = i ∨ p = j := by simpa using (h ▸ Finset.mem_insert_self p {q} : p ∈ ({i, j} : Finset ℕ))
  have hq : q = i ∨ q = j := by simpa using (h ▸ (by simp) : q ∈ ({i, j} : Finset ℕ))
  omega

theorem exists_lt_pair {D : Finset ℕ} (h : D.card = 2) : ∃ p q, p < q ∧ D = {p, q} := by
  obtain ⟨p, q, hne, rfl⟩ := Finset.card_eq_two.mp h
  rcases Nat.lt_or_gt_of_ne hne with hlt | hlt
  · exact ⟨p, q, hlt, rfl⟩
  · exact ⟨q, p, hlt, Finset.pair_comm p q⟩

section
variable {w r : List ℕ}

theorem filterMap_rsTry1_of_single {p : ℕ} (hp : p < 42) (htry : ∀ i < 42, rsTry1 r i = if ({p} : Finset ℕ) = {i} then some w else none) :
    (List.range 42).filterMap (fun i => (rsTry1 r i).map (fun w => ([i], w))) = [([p], w)] := by
  refine filterMap_eq_of_single List.nodup_range (List.mem_range.mpr hp) ?_ (fun i hi hip => ?_)
  · rw [htry p hp, if_pos rfl]
    rfl
  · rw [htry i (List.mem_range.mp hi), if_neg (by simpa using Ne.symm hip)]
    rfl
theorem filterMap_rsTry1_of_pair {p q : ℕ} (hpq : p < q) (htry : ∀ i < 42, rsTry1 r i = if ({p, q} : Finset ℕ) = {i} then some w else none) :
    (List.range 42).filterMap (fun i => (rsTry1 r i).map (fun w => ([i], w))) = [] := by
  refine List.filterMap_eq_nil_iff.mpr (fun i hi => ?_)
  rw [htry i (List.mem_range.mp hi), if_neg]
  · rfl
  · intro h
    have hcard := congrArg Finset.card h
    rw [Finset.card_pair hpq.ne, Finset.card_singleton] at hcard
    omega
theorem flatMap_rsTry2_of_pair {p q : ℕ} (hpq : p < q) (hq : q < 42)
    (htry : ∀ i j, i < j → j < 42 → rsTry2 r i j = if ({p, q} : Finset ℕ) = {i, j} then some w else none) :
    (List.range 42).flatMap (fun i => ((List.range 42).filter (i < ·)).filterMap (fun j => (rsTry2 r i j).map (fun w => ([i, j], w)))) =
      [([p, q], w)] := by
  have hmem {i j : ℕ} (hj : j ∈ (List.range 42).filter (i < ·)) : i < j ∧ j < 42 := by simpa [and_comm] using hj
  have hother {i j : ℕ} (hj : j ∈ (List.range 42).filter (i < ·)) (hne : ¬(i = p ∧ j = q)) :
      (rsTry2 r i j).map (fun w => ([i, j], w)) = none := by
    obtain ⟨hij, hj42⟩ := hmem hj
    rw [htry i j hij hj42, if_neg (by rwa [pair_eq_iff hpq hij])]
    rfl
  rw [flatMap_eq_of_single List.nodup_range (List.mem_range.mpr (by omega : p < 42))]
  · refine filterMap_eq_of_single (List.nodup_range.filter _) (p := q) (by simp [hq, hpq]) ?_ (fun j hj hjq => hother hj (by tauto))
    rw [htry p q hpq hq, if_pos rfl]
    rfl
  · exact fun i _ hip => List.filterMap_eq_nil_iff.mpr (fun j hj => hother hj (by tauto))
end

section
variable {addr : List ℕ} {stored got : Bytes}

/-- Up to two wrong stored bytes are set right (R195). -/
theorem rsDecode_eq (hw : IsWord (addr ++ stored.map BitVec.toNat)) (hr : IsWord (addr ++ got.map BitVec.toNat))
    (hok : rsOk (addr ++ stored.map BitVec.toNat) = true)
    (hcard : (wrongAt (addr ++ stored.map BitVec.toNat) (addr ++ got.map BitVec.toNat)).card ≤ 2) :
    rsDecode addr got = if got = stored then .clean else .corrected stored := by
  have hiff : addr ++ got.map BitVec.toNat = addr ++ stored.map BitVec.toNat ↔ got = stored := by
    rw [List.append_cancel_left_eq, List.map_inj_right (fun _ _ => BitVec.eq_of_toNat_eq)]
  have hback : stored.map (BitVec.ofNat 8 ∘ BitVec.toNat) = stored := by simp [Function.comp_def]
  have hstored {m : ℕ} (hm : m ∈ wrongAt (addr ++ stored.map BitVec.toNat) (addr ++ got.map BitVec.toNat)) : ¬ m < addr.length := by
    intro hlt
    exact (mem_wrongAt hw hr).mp hm (by rw [List.getD_append _ _ _ _ hlt, List.getD_append _ _ _ _ hlt])
  by_cases hor : rsOk (addr ++ got.map BitVec.toNat) = true
  · have hgot := hiff.mp (eq_of_corrects hw hr hok hr hor hcard (T := ∅) (by simp) (by simp) (by simp))
    rw [if_pos hgot, rsDecode, if_pos hor]
  have hne : got ≠ stored := fun h => hor (hiff.mpr h ▸ hok)
  have hsome : (wrongAt (addr ++ stored.map BitVec.toNat) (addr ++ got.map BitVec.toNat)).card ≠ 0 := by
    rw [Ne, Finset.card_eq_zero, wrongAt_eq_empty hw hr]
    exact fun h => hne (hiff.mp h)
  have htry1 : ∀ i < 42, _ := fun i => rsTry1_eq hw hr hok hcard (p := i)
  have htry2 : ∀ i j, i < j → j < 42 → _ := fun i j => rsTry2_eq hw hr hok hcard (p := i) (q := j)
  have hlt {m : ℕ} (hm : m ∈ wrongAt (addr ++ stored.map BitVec.toNat) (addr ++ got.map BitVec.toNat)) : m < 42 := lt_of_mem_wrongAt hm
  rw [if_neg hne, rsDecode, if_neg hor, hr.length]
  generalize wrongAt (addr ++ stored.map BitVec.toNat) (addr ++ got.map BitVec.toNat) = D at hcard hsome htry1 htry2 hlt hstored
  rcases (show D.card = 1 ∨ D.card = 2 by omega) with h1 | h2
  · obtain ⟨p, rfl⟩ := Finset.card_eq_one.mp h1
    simp [filterMap_rsTry1_of_single (hlt (Finset.mem_singleton_self p)) htry1, hback, hstored (Finset.mem_singleton_self p)]
  · obtain ⟨p, q, hpq, rfl⟩ := exists_lt_pair h2
    dsimp only
    rw [filterMap_rsTry1_of_pair hpq htry1, List.isEmpty_nil, if_pos rfl, flatMap_rsTry2_of_pair hpq (hlt (by simp)) htry2]
    simp [hback, hstored (m := p) (by simp), hstored (m := q) (by simp)]
end

/-! Encoding. -/

theorem rsGen_eq : rsGen = [15, 54, 120, 64] := by decide +kernel
/-- The generator's roots are the first four powers of α (R195). -/
theorem rsSyn_generator : ∀ k < 4, rsSyn k [1, 15, 54, 120, 64] = 0 := by decide +kernel
/-- The check bytes complete a message to a code word (R195). -/
theorem rsCheck_spec {msg : List ℕ} (hmsg : ∀ b ∈ msg, b < 256) : ∃ a b c d, rsCheck msg = [a, b, c, d] ∧
    (∀ e ∈ [a, b, c, d], e < 256) ∧ rsOk (msg ++ [a, b, c, d]) = true := by
  simp only [rsOk_iff]
  obtain ⟨β, hβ⟩ := exists_gf_root
  induction msg using List.reverseRecOn with
  | nil => exact ⟨0, 0, 0, 0, rfl, by simp, by decide +kernel⟩
  | append_singleton msg x ih =>
    obtain ⟨a, b, c, d, hcheck, hbyte, hsyn⟩ := ih (fun e he => hmsg e (List.mem_append_left _ he))
    have hx := hmsg x (by simp)
    simp only [List.forall_mem_cons, List.not_mem_nil, false_imp_iff, implies_true, and_true] at hbyte
    obtain ⟨ha, hb, hc, hd⟩ := hbyte
    have hf := xor_lt_byte ha hx
    have hbytes : ∀ e ∈ [b ^^^ gfMul (a ^^^ x) 15, c ^^^ gfMul (a ^^^ x) 54, d ^^^ gfMul (a ^^^ x) 120, 0 ^^^ gfMul (a ^^^ x) 64], e < 256 := by
      simp only [List.forall_mem_cons, List.not_mem_nil, false_imp_iff, implies_true, and_true]
      exact ⟨xor_lt_byte hb (gfMul_lt _ hf), xor_lt_byte hc (gfMul_lt _ hf), xor_lt_byte hd (gfMul_lt _ hf),
        xor_lt_byte (by decide) (gfMul_lt _ hf)⟩
    refine ⟨_, _, _, _, ?_, hbytes, fun k hk => ?_⟩
    · rw [rsCheck, List.foldl_append, ← rsCheck, hcheck]
      simp [rsStep, rsGen_eq]
    · refine gfVal_eq_zero hβ (rsSyn_lt (fun e he => (List.mem_append.mp he).elim (hmsg e) (hbytes e)) k) ?_
      have hgen := congrArg (gfVal β) (rsSyn_generator k hk)
      have hold := congrArg (gfVal β) (hsyn k hk)
      rw [gfVal_rsSyn hβ] at hgen hold ⊢
      have hmul (n : ℕ) (hn : n < 256) := gfVal_gfMul hβ (a ^^^ x) hn
      simp only [gfEval, List.foldl_append, List.foldl_cons, List.foldl_nil, gfVal_zero, gfVal_one, gfVal_xor, zero_add, zero_mul,
        hmul 15 (by decide), hmul 54 (by decide), hmul 120 (by decide), hmul 64 (by decide)] at hgen hold ⊢
      linear_combination β ^ k * hold + (gfVal β a + gfVal β x) * hgen -
        gfVal β a * (β ^ k) ^ 4 * CharTwo.two_eq_zero (R := AlgebraicClosure (ZMod 2))
theorem length_rsAddr (position channel subch goff : ℕ) : (rsAddr position channel subch goff).length = 6 := by
  simp [rsAddr, natLE]
theorem rsAddr_lt (position channel subch goff : ℕ) : ∀ b ∈ rsAddr position channel subch goff, b < 256 := by
  intro b hb
  simp only [rsAddr, List.mem_reverse, List.mem_map] at hb
  obtain ⟨v, -, rfl⟩ := hb
  exact v.isLt

/-- Settles O40: the stored bytes complete a code word (`rsCheck_spec`), from which two changed bytes differ in two places at most. -/
theorem twoByteErrorsAreCorrected : Obligations.TwoByteErrorsAreCorrected := by
  unfold Obligations.TwoByteErrorsAreCorrected
  intro position channel subch goff data i j a b hlen _ addr word got
  have haddr : addr.length = 6 := length_rsAddr ..
  have hbyte (bs : Bytes) : ∀ e ∈ addr ++ bs.map BitVec.toNat, e < 256 := by
    intro e he
    rcases List.mem_append.mp he with h | h
    · exact rsAddr_lt _ _ _ _ e h
    · obtain ⟨v, -, rfl⟩ := List.mem_map.mp h
      exact v.isLt
  obtain ⟨c0, c1, c2, c3, hcheck, hlt, hok⟩ := rsCheck_spec (hbyte data)
  have hstored : addr ++ word.map BitVec.toNat = addr ++ data.map BitVec.toNat ++ [c0, c1, c2, c3] := by
    simp only [List.forall_mem_cons, List.not_mem_nil, false_imp_iff, implies_true, and_true] at hlt
    simp [word, rsEncode, hcheck, Nat.mod_eq_of_lt, hlt]
  have hword : word.length = 36 := by simp [word, rsEncode, hcheck, hlen]
  have hw : IsWord (addr ++ word.map BitVec.toNat) := ⟨by simp [haddr, hword], hbyte word⟩
  have hr : IsWord (addr ++ got.map BitVec.toNat) := ⟨by simp [haddr, got, hword], hbyte got⟩
  refine rsDecode_eq hw hr (hstored ▸ hok) ((Finset.card_le_card (t := {6 + i.val, 6 + j.val}) (fun m hm => ?_)).trans Finset.card_le_two)
  rw [mem_wrongAt hw hr] at hm
  by_contra hne
  simp only [Finset.mem_insert, Finset.mem_singleton, not_or] at hne
  refine hm ?_
  rcases Nat.lt_or_ge m 6 with h | h
  · rw [List.getD_append _ _ _ _ (by omega), List.getD_append _ _ _ _ (by omega)]
  · rw [List.getD_append_right _ _ _ _ (by omega), List.getD_append_right _ _ _ _ (by omega), List.getD_eq_getElem?_getD,
      List.getD_eq_getElem?_getD, List.getElem?_map, List.getElem?_map, List.getElem?_set_ne (by omega), List.getElem?_set_ne (by omega)]

end Sys2Proof.Machine
end

section
/-! The mover's commands (R209 to R213, R175, R181): each row completes as its run says (`run_mover`, `run_scatter`), or ends with E_CHECK where the
tag of a granule it writes fails (R197). -/
namespace Sys2Proof.Machine

section
variable {s : State} {c : Fin 64} {x : Site} {e : QEntry} {o : MovOut}

/-- A failing command stops its cluster and changes no memory before its REQUEST (R44, R263). -/
theorem failCommand_eq_request (s : State) (c : Fin 64) (q : Fin 4) (x : Site) (e : QEntry) (status : Nat) :
    ∃ u : State, s.failCommand c q x e status = u.request x.h 6 status ∧ (u.cl c).halted = some status ∧ (∀ j, u.heat j = s.heat j) ∧
      ∀ d, (u.cl d).store = (s.cl d).store := by
  obtain ⟨r, ctrs, hrecord, -⟩ := record_shape s c q e status
  have hcl (d : Fin 64) : (s.record c q e status).cl d = (s.setCl c ((s.cl c).addSplit r)).cl d := by rw [hrecord]; rfl
  refine ⟨_, rfl, ?_, fun j => ?_, fun d => ?_⟩
  · rw [State.cl_modCl_same]
  · rw [State.modCl_heat, hrecord]
    rfl
  · by_cases hd : d = c
    · subst hd
      rw [State.cl_modCl_same, hcl, State.cl_setCl_same]
      rfl
    · rw [State.cl_modCl_ne _ _ _ _ (Ne.symm hd), hcl, State.cl_setCl_ne _ _ _ _ (Ne.symm hd)]
/-- A failing command of a module that is not the root stops its cluster, and every memory stays as it was (R44). -/
theorem failCommand_effect (s : State) (c : Fin 64) (q : Fin 4) (x : Site) (e : QEntry) (status : Nat) (hroot : (s.heat x.h).isRoot = false) :
    let t := (s.failCommand c q x e status).refreshHeld x.h
    (t.cl c).halted = some status ∧ (t.heat x.h).mem = (s.heat x.h).mem ∧ ∀ d, (t.cl d).store = (s.cl d).store := by
  obtain ⟨u, hu, hhalt, hheat, hstore⟩ := failCommand_eq_request s c q x e status
  have hhold := (holdOnly_request u x.h 6 status ((hheat x.h).symm ▸ hroot)).trans (holdOnly_refreshHeld _ x.h)
  rw [hu]
  exact ⟨by rw [hhold.cl, hhalt], by rw [hhold.heats, hheat], fun d => by rw [hhold.cl, hstore]⟩
/-- A row whose effect is an error alone ends its command with that error and writes nothing (R44). -/
theorem State.runHead_fails {q : Fin 4} {isRow : Nat → Bool} {go : State → Site → QEntry → State × Nat} {status : Nat}
    (hs : s.startable c q = some (x, e)) (hrow : isRow e.raw = true) (hstatus : status ≠ 0)
    (hgo : go (s.startCommand c q x e).1 x (s.latch c e) = ((s.startCommand c q x e).1, status)) (hroot : (s.heat x.h).isRoot = false) :
    ∃ t, s.runHead c q isRow go = .next t ∧ (t.cl c).halted = some status ∧ (t.heat x.h).mem = (s.heat x.h).mem ∧
      ∀ d, (t.cl d).store = (s.cl d).store := by
  have hstart := start_between s c q x e
  have hheat : (s.startCommand c q x e).1.heat x.h = { s.heat x.h with chans := ((s.startCommand c q x e).1.heat x.h).chans } := by
    rw [hstart.heats, if_pos rfl]
    exact takeChans_only ..
  obtain ⟨hhalt, hmem, hstore⟩ := failCommand_effect (s.startCommand c q x e).1 c q x (s.latch c e) status (by rw [hheat]; exact hroot)
  refine ⟨_, State.runHead_startable go hs hrow, ?_⟩
  rw [hgo]
  simp only [State.endCommand, if_neg hstatus]
  refine ⟨hhalt, hmem.trans (by rw [hheat]), fun d => (hstore d).trans ?_⟩
  by_cases hd : d = c
  · subst hd
    rw [hstart.cl]
    rfl
  · rw [hstart.others d hd]

/-- A failing tag keeps back everything a command that writes to memory would write (R197). -/
theorem putMover_tagFails (h0 : o.status = 0) {sp : Space} {q : Nat} (hw : s.writesMemory x sp o.sp q = true) (bytes : Nat) :
    s.putMover c x true bytes sp q (.ok o) = (s, eCheck) := by
  simp [State.putMover, h0, hw]
/-- A mover command whose head may start and whose peers accept transfers runs (R28). -/
theorem State.runMoverHead_reached (hs : s.startable c qMover = some (x, e)) (hp : s.peersReach x e.raw = true) (isRow : Nat → Bool)
    (go : State → Site → QEntry → State × Nat) : s.runMoverHead c isRow go = s.runHead c qMover isRow go := by
  simp [State.runMoverHead, hs, hp]
/-- The error half of a row of the mover: its command ends with E_CHECK (R197, R213). -/
theorem run_mover_tagFails {isRow : Nat → Bool} {offs : Nat → List Nat} {run : State → Site → Space → Nat → Except Nat MovOut}
    (hs : s.startable c qMover = some (x, e)) (hp : s.peersReach x e.raw = true) (hrow : isRow e.raw = true)
    (hrun : ∀ u : State, run u x (s.space x) e.raw = .ok o) (h0 : o.status = 0) (hw : s.writesMemory x (s.space x) o.sp e.raw = true)
    (hroot : (s.heat x.h).isRoot = false) :
    ∃ t, s.runMover c true isRow offs run = .next t ∧ (t.cl c).halted = some eCheck ∧ (t.heat x.h).mem = (s.heat x.h).mem ∧
      ∀ d, (t.cl d).store = (s.cl d).store := by
  rw [State.runMover, State.runMoverHead_reached hs hp]
  refine State.runHead_fails hs hrow (by decide) ?_ hroot
  have hw : (s.startCommand c qMover x e).1.writesMemory x (s.space x) o.sp e.raw = true := hw
  dsimp only
  rw [space_start, show (s.latch c e).raw = e.raw from rfl, hrun, putMover_tagFails h0 hw]
theorem run_scatter_tagFails {isAop : Nat → Bool} (hs : s.startable c qMover = some (x, e)) (hp : s.peersReach x e.raw = true)
    (hop : cmdOp e.raw = 0x21) (hrow : isAop (aopOf e.raw) = true)
    (hrun : scatterRun x.prog.recipes x.prog.floatAtomics s.cacheAtomics (s.space x) e.raw = .ok o) (h0 : o.status = 0)
    (hw : s.writesMemory x (s.space x) o.sp e.raw = true) (hroot : (s.heat x.h).isRoot = false) :
    ∃ t, s.runScatter c true isAop = .next t ∧ (t.cl c).halted = some eCheck ∧ (t.heat x.h).mem = (s.heat x.h).mem ∧
      ∀ d, (t.cl d).store = (s.cl d).store := by
  rw [State.runScatter, State.runMoverHead_reached hs hp]
  refine State.runHead_fails hs (by simp [hop, hrow]) (by decide) ?_ hroot
  have hw : (s.startCommand c qMover x e).1.writesMemory x (s.space x) o.sp e.raw = true := hw
  dsimp only
  rw [space_start, show (s.latch c e).raw = e.raw from rfl, show (s.startCommand c qMover x e).1.cacheAtomics = s.cacheAtomics from rfl, hrun,
    putMover_tagFails h0 hw]
  rfl

/-- What a mover row of cluster c comes to where it runs without error, and where the tag of a granule it writes fails. -/
def MoverRow (s : State) (c : Fin 64) (x : Site) (e : QEntry) (o : MovOut) (dest : List (Nat × Nat) → Prop) (run : Bool → Result) : Prop :=
  (∃ t, run false = .next t ∧ CommandDone s t c qMover x e [] ∧ MoverFrame s t c x ∧ t.space x = o.sp ∧
    ∃ ds, dest ds ∧ ∀ l, Untouched (s.space x).hm ds l → (t.space x).at l = (s.space x).at l) ∧
  (s.writesMemory x (s.space x) o.sp e.raw = true → (s.heat x.h).isRoot = false → ∃ t, run true = .next t ∧ (t.cl c).halted = some eCheck ∧
    (t.heat x.h).mem = (s.heat x.h).mem ∧ ∀ d, (t.cl d).store = (s.cl d).store)
theorem scatter_row {isAop : Nat → Bool} {n : Nat} (hs : s.startable c qMover = some (x, e)) (hp : s.peersReach x e.raw = true)
    (h0 : o.status = 0) (hop : cmdOp e.raw = 0x21)
    (hrun : scatterRun x.prog.recipes x.prog.floatAtomics s.cacheAtomics (s.space x) e.raw = .ok o) (haop : aopOf e.raw = n)
    (hrow : isAop n = true) :
    MoverRow s c x e o (tensorDest x.prog.recipes (s.space x) (fld e.raw 87 64)) (fun tagFail => s.runScatter c tagFail isAop) :=
  ⟨run_scatter isAop hs hp hop (haop ▸ hrow) hrun h0, run_scatter_tagFails hs hp hop (haop ▸ hrow) hrun h0⟩
theorem copy_row {isCop : Nat → Bool} {n : Nat} {offs : Nat → List Nat} {run : List Recipe → Space → Nat → Except Nat MovOut}
    {dest : List (Nat × Nat) → Prop} (hs : s.startable c qMover = some (x, e)) (hp : s.peersReach x e.raw = true) (h0 : o.status = 0)
    (hop : cmdOp e.raw = 0x22) (hcop : copOf e.raw = n) (hrun : run x.prog.recipes (s.space x) e.raw = .ok o) (hrow : isCop n = true)
    (hleaves : MovLeaves (s.space x) dest (run x.prog.recipes (s.space x) e.raw)) :
    MoverRow s c x e o dest (fun tagFail => s.runCopy c tagFail isCop offs run) := by
  have hrow : (cmdOp e.raw == 0x22 && isCop (copOf e.raw)) = true := by simp [hop, hcop, hrow]
  unfold MoverRow State.runCopy
  exact ⟨run_mover _ _ _ hs hp hrow (fun _ => hrun) h0 (hleaves.of_eq hrun), run_mover_tagFails hs hp hrow (fun _ => hrun) h0⟩
theorem gather_row (hs : s.startable c qMover = some (x, e)) (hp : s.peersReach x e.raw = true) (h0 : o.status = 0) (hop : cmdOp e.raw = 0x20)
    (hrun : gatherRun x.prog.recipes (s.space x) e.raw = .ok o) :
    ∃ t, execGather c s = .next t ∧ CommandDone s t c qMover x e [] ∧ MoverFrame s t c x ∧ t.space x = o.sp ∧
      ∃ ds, tensorDest x.prog.recipes (s.space x) (fld e.raw 87 64) ds ∧
        ∀ l, Untouched (s.space x).hm ds l → (t.space x).at l = (s.space x).at l :=
  run_mover (fun raw => cmdOp raw == 0x20) (fun raw => [fld raw 87 64]) (fun _ x sp raw => gatherRun x.prog.recipes sp raw) hs hp
    (by simp [hop]) (fun _ => hrun) h0 ((leaves_gatherRun ..).of_eq hrun)
end

/-- Settles O9: every row is `run_mover` or `run_scatter` with the places its run stores to, and their tag failures. -/
theorem moverCommandsComplete : Obligations.MoverCommandsComplete := by
  unfold Obligations.MoverCommandsComplete
  intro s c x e o hs hp h0 sp rs q completes tagFails
  refine ⟨fun hop hrun => ?_, fun hop hrun => ?_, fun hop => ?_⟩
  · exact gather_row hs hp h0 hop hrun
  · have scatter {isAop : Nat → Bool} {n : Nat} := scatter_row (isAop := isAop) (n := n) hs hp h0 hop hrun
    exact ⟨fun h => scatter h (isAop := fun a => a == 0 || 5 ≤ a) rfl, fun h => scatter h (isAop := (· == 1)) rfl,
      fun h => scatter h (isAop := (· == 2)) rfl, fun h => scatter h (isAop := (· == 3)) rfl, fun h => scatter h (isAop := (· == 4)) rfl⟩
  · have copy {isCop : Nat → Bool} {n : Nat} {offs : Nat → List Nat} {run : List Recipe → Space → Nat → Except Nat MovOut}
      {dest : List (Nat × Nat) → Prop} := copy_row (isCop := isCop) (n := n) (offs := offs) (run := run) (dest := dest) hs hp h0 hop
    exact ⟨fun h hrun => (copy h hrun rfl (leaves_plainRun ..) : MoverRow s c x e o (tensorDest rs sp _) (fun b => execPlain c b s)),
      fun h hrun => (copy h hrun rfl (leaves_kvReadRun ..) : MoverRow s c x e o _ (fun b => s.runCopy c b (· == 1)
        (fun raw => [fld raw 95 72] ++ if fld raw 237 236 = 3 then [fld raw 119 96] else []) kvReadRun)).1,
      fun h hrun => (copy h hrun rfl (leaves_kvWriteRun ..) : MoverRow s c x e o _ (fun b => execKvWrite c b s)),
      fun h hrun => (copy h hrun rfl (leaves_allocRun ..) : MoverRow s c x e o _ (fun b => execAlloc c b s)),
      fun h hrun => (copy h hrun rfl (leaves_shareRun ..) : MoverRow s c x e o _ (fun b => execShare c b s)),
      fun h hrun => (copy h hrun rfl (leaves_cowRun ..) : MoverRow s c x e o _ (fun b => execCow c b s)),
      fun h hrun => (copy h hrun rfl (leaves_freeRun ..) : MoverRow s c x e o _ (fun b => execFree c b s))⟩

end Sys2Proof.Machine
end

section
/-! Reads of the memory system (R196): what the results of a granule's reads lead to, and what a read does. -/
namespace Sys2Proof.Machine

/-- What a plan leaves: the data it returns in the granule, or an error for the reader (R196). -/
def State.readInto (s : State) (hi : Fin 4) (granule : Nat) (reader : Option (Fin 64 × Fin 4)) (p : ReadPlan) : State :=
  match p.data with
  | some d => s.modHeat hi (fun h => { h with
      mem := h.mem.put (32 * granule) d
      poison := if p.rewrite then h.poison.filter (· != granule) else h.poison })
  | none => s.failReader hi reader

/-- A granule that is read is planned for, charged and put in place, and a faulty channel retires (R196). -/
theorem exec_memReadDecode {s : State} {hi : Fin 4} {granule : Nat} {reads : List GranuleRead} {ch : Fin 96} {off : Nat} {p : ReadPlan}
    (reader : Option (Fin 64 × Fin 4)) (hne : reads ≠ []) (hreads : ∀ r ∈ reads, r.wf = true ∧ readForm (s.com.boot.order == 3) r = true)
    (hphase : (s.heat hi).phase ≠ .free) (hcap : 32 * granule < s.capacity (s.heat hi))
    (hplace : s.placeOf (s.heat hi) (granule / 8) = (ch.val, off))
    (hplan : planRead (reads.map (decodeRead (s.com.boot.order == 3) (s.codeAddr ch.val off (granule % 8)))) = some p) :
    let key := 8 * off + granule % 8
    let v := (s.chargeChan ch key p).readInto hi granule reader p
    exec (.memReadDecode hi granule reads reader) s = .next (if v.chanFaulty ch key p then v.retireChan ch else v) := by
  have hwf : reads.all GranuleRead.wf = true := List.all_eq_true.mpr (fun r hr => (hreads r hr).1)
  have hform : reads.all (readForm (s.com.boot.order == 3)) = true := List.all_eq_true.mpr (fun r hr => (hreads r hr).2)
  have hch : (List.finRange 96)[ch.val]? = some ch := by simp
  show execMemReadDecode hi granule reads reader s = _
  unfold execMemReadDecode
  rw [if_neg (by simp [hwf, hne])]
  simp only [hplace, hch]
  rw [if_neg (by simp [hphase, hcap, hform])]
  simp only [hplan]
  rfl

section
variable {rs : List ReadResult} {p : ReadPlan}

/-- Nothing is returned exactly after four uncorrectable reads, three of them re-reads (R196). -/
theorem planRead_no_data (h : planRead rs = some p) :
    (p.data = none ↔ rs.take 4 = [.bad, .bad, .bad, .bad]) ∧ (p.data = none → p.retries = 3) := by
  unfold planRead at h
  split at h <;> cases h <;> simp
theorem planRead_clean {d : Bytes} (h : planRead rs = some p) (hd : rs.head? = some (.clean d)) : p = ⟨some d, false, [.clean d], 0, 0⟩ := by
  obtain ⟨l, rfl⟩ := List.head?_eq_some_iff.mp hd
  exact (Option.some_injective _ h).symm
theorem planRead_corrected_clean {d e : Bytes} {l : List ReadResult} (h : planRead (.corrected d :: .clean e :: l) = some p) :
    p = ⟨some e, false, [.corrected d, .clean e], 1, 0⟩ :=
  (Option.some_injective _ h).symm
/-- Data corrected twice is rewritten and read back; a read-back that is not clean is a failed retry (R196). -/
theorem planRead_rewrites {d : Bytes} {r t : ReadResult} {l : List ReadResult} (h : planRead (.corrected d :: r :: t :: l) = some p)
    (hr : ∀ e, r ≠ .clean e) : p.data = some d ∧ p.rewrite = true ∧ (p.failed = 0 ↔ ∃ e, t = .clean e) ∧ p.retries = 1 + p.failed := by
  cases r with
  | clean e => exact absurd rfl (hr e)
  | corrected _ | bad => cases t <;> cases h <;> simp
theorem planRead_bad {l : List ReadResult} (h : planRead (.bad :: l) = some p) : p.rewrite = false ∧ p.failed = 0 := by
  unfold planRead at h
  split at h <;> cases h <;> simp_all
end

/-- Settles O41: the row is `exec_memReadDecode`, and the rest says what `planRead` makes of the results. -/
theorem readsAreDecoded : Obligations.ReadsAreDecoded := by
  unfold Obligations.ReadsAreDecoded
  intro s hi granule reads reader ch off rs p hne hreads hphase hcap hplace hrs hplan key u v
  have hv : v = u.readInto hi granule reader p := rfl
  obtain ⟨hnone, hretries⟩ := planRead_no_data hplan
  refine ⟨?_, hnone, fun h => ⟨hretries h, by simp [State.chanFaulty, h]⟩, fun d hd => planRead_clean hplan hd, fun d e l hl => ?_,
    fun d r t l hl hr => ?_, fun l hl => ?_⟩
  · rw [hv]
    exact exec_memReadDecode reader hne hreads hphase hcap hplace (hrs ▸ hplan)
  · exact planRead_corrected_clean (hl ▸ hplan)
  · exact planRead_rewrites (hl ▸ hplan) hr
  · exact planRead_bad (hl ▸ hplan)

end Sys2Proof.Machine
end

section
/-! The memory system's own events (R188, R190, R194, R198, R203, R204), and where a heat's granules lie in its devices (R190). -/
namespace Sys2Proof.Machine

/-! Polling the devices' counts (R194). -/

/-- One channel's device is read. -/
def State.pollChan (s : State) (cv : Fin 96 × Nat) : State :=
  if (s.com.chans[cv.1]).up then
    (s.bump 2 cv.1.val 2 (cv.2 - (s.com.chans[cv.1]).onDie)).modChan cv.1 (fun k => { k with onDie := cv.2 })
  else s
theorem State.pollChan_ne (s : State) (cv : Fin 96 × Nat) {k : Fin 96} (h : k ≠ cv.1) : (s.pollChan cv).com.chans[k] = s.com.chans[k] := by
  unfold State.pollChan
  split
  · exact Vector.getElem_set_ne cv.1.isLt k.isLt (fun e => h (Fin.ext e.symm))
  · rfl
theorem State.pollChan_same (s : State) (k : Fin 96) (v : Nat) : (s.pollChan (k, v)).com.chans[k] =
    { s.com.chans[k] with onDie := if (s.com.chans[k]).up then v else (s.com.chans[k]).onDie } := by
  unfold State.pollChan
  by_cases hup : (s.com.chans[k]).up = true
  · rw [if_pos hup, if_pos hup]
    exact Vector.getElem_set_self k.isLt
  · rw [if_neg hup]
    simp only [if_neg hup]
theorem pollChans_frame (l : List (Fin 96 × Nat)) (s : State) : ∃ chans ctrs,
    l.foldl State.pollChan s = { s with com := { s.com with chans := chans, ctrs := ctrs } } := by
  induction l generalizing s with
  | nil => exact ⟨s.com.chans, s.com.ctrs, rfl⟩
  | cons cv l ih =>
    obtain ⟨chans, ctrs, h⟩ := ih (s.pollChan cv)
    refine ⟨chans, ctrs, h.trans ?_⟩
    unfold State.pollChan
    split <;> rfl
theorem pollChans_notMem {l : List (Fin 96 × Nat)} {k : Fin 96} (h : k ∉ l.map Prod.fst) (s : State) :
    (l.foldl State.pollChan s).com.chans[k] = s.com.chans[k] := by
  induction l generalizing s with
  | nil => rfl
  | cons cv l ih =>
    simp only [List.map_cons, List.mem_cons, not_or] at h
    rw [List.foldl_cons, ih h.2, State.pollChan_ne _ _ h.1]
theorem pollChans_mem {l : List (Fin 96 × Nat)} (hl : (l.map Prod.fst).Nodup) {k : Fin 96} {v : Nat} (h : (k, v) ∈ l) (s : State) :
    (l.foldl State.pollChan s).com.chans[k] =
      { s.com.chans[k] with onDie := if (s.com.chans[k]).up then v else (s.com.chans[k]).onDie } := by
  induction l generalizing s with
  | nil => cases h
  | cons cv l ih =>
    obtain ⟨hnot, hl⟩ := List.nodup_cons.mp hl
    rw [List.foldl_cons]
    rcases List.mem_cons.mp h with rfl | h
    · rw [pollChans_notMem hnot, State.pollChan_same]
    · have hne : k ≠ cv.1 := fun e => hnot (e ▸ List.mem_map_of_mem (f := Prod.fst) h)
      rw [ih hl h, State.pollChan_ne _ _ hne]
theorem map_fst_zip_eq_take {α γ : Type*} (l : List α) (m : List γ) : (l.zip m).map Prod.fst = l.take m.length := by
  induction l generalizing m with
  | nil => simp
  | cons a l ih => cases m <;> simp [ih]
/-- Each channel that is up takes the count read for it; a channel for which none was read keeps its own. -/
theorem pollAll_chan (s : State) (counts : List Nat) (k : Fin 96) :
    (((List.finRange 96).zip counts).foldl State.pollChan s).com.chans[k] = { s.com.chans[k] with
      onDie := if (s.com.chans[k]).up then counts.getD k.val (s.com.chans[k]).onDie else (s.com.chans[k]).onDie } := by
  by_cases hk : k.val < counts.length
  · have hmem : (k, counts[k.val]) ∈ (List.finRange 96).zip counts := by
      refine List.mem_iff_getElem.mpr ⟨k.val, by simp [hk], ?_⟩
      simp
    have hnodup : (((List.finRange 96).zip counts).map Prod.fst).Nodup := by
      rw [map_fst_zip_eq_take]
      exact (List.nodup_finRange 96).sublist (List.take_sublist _ _)
    rw [pollChans_mem hnodup hmem, List.getD_eq_getElem _ _ hk]
  · have hnot : k ∉ ((List.finRange 96).zip counts).map Prod.fst := by
      rw [map_fst_zip_eq_take]
      intro h
      obtain ⟨i, hi, rfl⟩ := List.mem_take_iff_getElem.mp h
      simp at hk
      omega
    rw [pollChans_notMem hnot, List.getD_eq_default _ _ (Nat.le_of_not_lt hk), ite_self]
/-- The poll lets time pass and takes each channel's count (R194). -/
theorem exec_eccCountPoll (s : State) (counts : List Nat) (hgood : s.com.pw.good = true) :
    ∃ t, exec (.eccCountPoll counts) s = .next t ∧ t.now = max s.now (s.com.eccAt + second) ∧
      (∀ k : Fin 96, t.com.chans[k] = { s.com.chans[k] with
        onDie := if (s.com.chans[k]).up then counts.getD k.val (s.com.chans[k]).onDie else (s.com.chans[k]).onDie }) ∧
      t.com = { s.com with eccAt := t.now, chans := t.com.chans, ctrs := t.com.ctrs, store := t.com.store } ∧
      t.heats = s.heats ∧ t.clusters = s.clusters ∧ t.ports = s.ports ∧ t.pending = s.pending ∧ t.free = s.free ∧ t.out = s.out := by
  let u := (s.reach (s.com.eccAt + second)).modCom (fun k => { k with eccAt := max s.now (s.com.eccAt + second) })
  have hexec : exec (.eccCountPoll counts) s = .next (((List.finRange 96).zip counts).foldl State.pollChan u) := by
    show execEccCountPoll counts s = _
    unfold execEccCountPoll
    rw [if_neg (by simp [hgood])]
    rfl
  obtain ⟨store, hstore, -⟩ := s.reach_com (s.com.eccAt + second)
  obtain ⟨hclusters, hports, hheats, hfree, hout, hpending⟩ := s.reach_core (s.com.eccAt + second)
  have hcom : u.com = { s.com with eccAt := max s.now (s.com.eccAt + second), store := store } := by
    show ({ (s.reach (s.com.eccAt + second)).com with eccAt := max s.now (s.com.eccAt + second) } : Common) = _
    rw [hstore]
  have hchan := pollAll_chan u counts
  obtain ⟨chans, ctrs, hframe⟩ := pollChans_frame ((List.finRange 96).zip counts) u
  refine ⟨_, hexec, ?_⟩
  rw [hframe] at hchan ⊢
  refine ⟨s.reach_now _, fun k => ?_, ?_, hheats, hclusters, hports, hpending, hfree, hout⟩
  · rw [hchan k, hcom]
  · show { u.com with chans := chans, ctrs := ctrs } = _
    rw [hcom, show u.now = max s.now (s.com.eccAt + second) from s.reach_now _]

/-! Tracking, training, regulators (R188, R198). -/

/-- Tracking lets time pass and nothing else (R188). -/
theorem exec_dqsTracking (s : State) (hgood : s.com.pw.good = true) :
    ∃ t, exec .dqsTracking s = .next t ∧ t.now = max s.now (s.com.dqsAt + 64 * milli) ∧
      t.com = { s.com with dqsAt := t.now, store := t.com.store } ∧ t.heats = s.heats ∧ t.clusters = s.clusters ∧ t.ports = s.ports ∧
      t.pending = s.pending ∧ t.free = s.free ∧ t.out = s.out := by
  let u := (s.reach (s.com.dqsAt + 64 * milli)).modCom (fun k => { k with dqsAt := max s.now (s.com.dqsAt + 64 * milli) })
  have hexec : exec .dqsTracking s = .next u := by
    show execDqsTracking s = _
    unfold execDqsTracking
    rw [if_neg (by simp [hgood])]
  obtain ⟨store, hstore, -⟩ := s.reach_com (s.com.dqsAt + 64 * milli)
  obtain ⟨hclusters, hports, hheats, hfree, hout, hpending⟩ := s.reach_core (s.com.dqsAt + 64 * milli)
  have hnow : u.now = max s.now (s.com.dqsAt + 64 * milli) := s.reach_now _
  refine ⟨u, hexec, hnow, ?_, hheats, hclusters, hports, hpending, hfree, hout⟩
  have hcom : u.com = { s.com with dqsAt := max s.now (s.com.dqsAt + 64 * milli), store := store } := by
    show ({ (s.reach (s.com.dqsAt + 64 * milli)).com with dqsAt := max s.now (s.com.dqsAt + 64 * milli) } : Common) = _
    rw [hstore]
  rw [hcom, hnow]
/-- A training that may run brings its channel up, or counts an attempt of which the third retires it (R188). -/
theorem exec_memTraining (s : State) (ch : Fin 96) (hread : s.com.boot.flashRead = true) (hrec : s.com.boot.state ≠ .recovery)
    (hhalt : s.com.boot.state ≠ .halted) (hup : (s.com.chans[ch]).up = false) (hret : (s.com.chans[ch]).retired = false)
    (hch : ch.val < 12 * s.positionChans) :
    let u := s.modChan ch (fun k => { k with attempts := k.attempts + 1 })
    exec (.memTraining ch true) s = .next (s.modChan ch (fun k => { k with up := true, attempts := 0 })) ∧
    exec (.memTraining ch false) s = .next (if (s.com.chans[ch]).attempts < 2 then u else u.retireChan ch) := by
  have hgo (ok : Bool) : exec (.memTraining ch ok) s = if ok then .next (s.modChan ch (fun k => { k with up := true, attempts := 0 })) else
      .next (if 3 ≤ (s.com.chans[ch]).attempts + 1 then (s.modChan ch (fun k => { k with attempts := k.attempts + 1 })).retireChan ch
        else s.modChan ch (fun k => { k with attempts := k.attempts + 1 })) := by
    show execMemTraining ch ok s = _
    unfold execMemTraining
    dsimp only
    rw [if_neg (by simpa [hread, hrec, hhalt, hch] using ⟨hup, hret⟩)]
  refine ⟨hgo true, (hgo false).trans ?_⟩
  by_cases h : (s.com.chans[ch]).attempts < 2
  · rw [if_pos h, if_neg (by decide), if_neg (by omega)]
  · rw [if_neg h, if_neg (by decide), if_pos (by omega)]
/-- A regulator refills its bucket and takes a request's tokens, or lends what it has while no program waits (R198). -/
theorem exec_serviceAdmit (s : State) (ch : Fin 96) {hi : Fin 4} {first : Fin 96} (repair waiting : Bool) (granules : Nat)
    (hpos : s.heatOfPos (ch.val / s.positionChans) = some hi) (hfirst : first.val = ch.val / s.positionChans * s.positionChans) :
    let a := (s.heat hi).adm
    let k := s.com.chans[first]
    let old := if repair then k.repair else k.service
    let tokens := min (bucketDepth (if repair then fld a 77 75 else fld a 74 72))
      (old.1 + (s.now - old.2) * (s.payloadRate * (if repair then fld a 70 64 else fld a 62 56)))
    let cost := 32 * granules * 30000
    let left := (if cost ≤ tokens then tokens - cost else if bitAt a 55 = true ∧ waiting = false then 0 else tokens, s.now)
    exec (.serviceAdmit ch repair waiting granules) s = .next (s.modChan first (fun k =>
      if repair then { k with repair := left } else { k with service := left })) := by
  intro a k old tokens cost left
  have hget : (List.finRange 96)[ch.val / s.positionChans * s.positionChans]? = some first := by
    rw [← hfirst]
    simp
  show execServiceAdmit ch repair waiting granules s = _
  unfold execServiceAdmit
  rw [hpos, hget]
  have hleft : ((if cost ≤ tokens then some (tokens - cost)
      else if (bitAt a 55 && !waiting) = true then some 0 else none).getD tokens, s.now) = left := by
    simp only [left]
    by_cases h : cost ≤ tokens
    · simp [h]
    · by_cases hb : bitAt a 55 = true ∧ waiting = false
      · simp [h, hb]
      · rw [if_neg h, if_neg h, if_neg hb, if_neg (by simpa using hb)]
        rfl
  rw [← hleft]
  rfl

/-! Migration (R203, R204). -/

/-- All 8 granules of a line are poisoned (R204). -/
def Heat.poisonLine (h : Heat) (line : Nat) : Heat :=
  { h with poison := h.poison ++ ((List.range 8).map (fun i => 8 * line + i)).filter (fun g => !h.poison.contains g) }
/-- One line moves: it is taken from its home slice or read from its channel, is written to its target, and the pointer goes on (R204). -/
def State.moveLine (s : State) (hi : Fin 4) (ch : Fin 96) (line target count : Nat) (unreadable : List Nat) : State :=
  let dirty := s.cached hi line == 2
  let u := (s.chanReads ch.val (if dirty then 0 else 8)).bump 2 target 1 8
  let u := if dirty then u.setCached hi line 1 else u
  let u := if !dirty && (List.range 8).any unreadable.contains then u.modHeat hi (fun h => h.poisonLine line) else u
  let done := count ≤ (s.com.chans[ch]).pointer + 1
  let u := u.modChan ch (fun k => { k with pointer := k.pointer + 1, moving := !done, up := if done then false else k.up })
  if done then u.migrationReport hi ch else u
theorem State.moveLine_eq (s : State) (hi : Fin 4) (ch : Fin 96) (line target count : Nat) (unreadable : List Nat) :
    let dirty := s.cached hi line = 2
    let u := (s.chanReads ch.val (if dirty then 0 else 8)).bump 2 target 1 8
    let v := if dirty then u.setCached hi line 1
      else if (∃ g ∈ List.range 8, g ∈ unreadable) then u.modHeat hi (fun h => h.poisonLine line) else u
    s.moveLine hi ch line target count unreadable = if (s.com.chans[ch]).pointer + 1 < count
      then v.modChan ch (fun k => { k with pointer := k.pointer + 1, moving := true })
      else (v.modChan ch (fun k => { k with pointer := k.pointer + 1, moving := false, up := false })).migrationReport hi ch := by
  intro dirty u v
  have hany : (List.range 8).any unreadable.contains = true ↔ ∃ g ∈ List.range 8, g ∈ unreadable := by
    simp only [List.any_eq_true, List.contains_iff_mem]
  have hv : (if (!(s.cached hi line == 2) && (List.range 8).any unreadable.contains) = true then
      (if (s.cached hi line == 2) = true then u.setCached hi line 1 else u).modHeat hi (fun h => h.poisonLine line)
      else if (s.cached hi line == 2) = true then u.setCached hi line 1 else u) = v := by
    by_cases hd : s.cached hi line = 2
    · simp [v, dirty, hd]
    · simp only [v, dirty, beq_iff_eq, if_neg hd, Bool.and_eq_true, Bool.not_eq_true', beq_eq_false_iff_ne, hany, ne_eq, hd, not_false_eq_true,
        true_and, if_false]
  have hu : (s.chanReads ch.val (if (s.cached hi line == 2) = true then 0 else 8)).bump 2 target 1 8 = u := by
    simp only [u, dirty, beq_iff_eq]
  unfold State.moveLine
  dsimp only
  rw [hu, hv]
  by_cases hdone : count ≤ (s.com.chans[ch]).pointer + 1
  · rw [if_pos hdone, if_neg (Nat.not_lt.mpr hdone)]
    simp only [hdone, if_true, decide_true, Bool.not_true]
  · rw [if_neg hdone, if_pos (Nat.lt_of_not_le hdone)]
    simp only [hdone, if_false, decide_false, Bool.not_false]
/-- The line at a moving channel's pointer moves to the free line of its stage (R203, R204). -/
theorem exec_migrationLine (s : State) (ch : Fin 96) {hi : Fin 4} {t : Stage} (unreadable : List Nat)
    (hpos : s.heatOfPos (ch.val / s.positionChans) = some hi) (hmoving : (s.com.chans[ch]).moving = true) :
    let h := s.heat hi
    let k := s.com.chans[ch]
    let before := (s.heatStages h).takeWhile (fun t => t.c != s.chanName h ch.val)
    (s.heatStages h)[before.length]? = some t →
    let line := heldLine h.positionList.length s.chanLog before.reverse (t.c, k.pointer)
    let place := homeOf h.positionList.length s.chanLog (freeLine h.positionList.length s.chanLog t.dead t.from_ k.pointer)
    exec (.migrationLine ch unreadable) s = .next (s.moveLine hi ch line (s.chanNumber h (place.1, place.2.1)) t.count unreadable) := by
  intro h k before hstage line place
  show execMigrationLine ch unreadable s = _
  unfold execMigrationLine
  rw [hpos]
  dsimp only
  rw [hstage]
  dsimp only
  rw [if_neg (show ¬(!k.moving) = true by simp only [k, hmoving]; decide)]
  rfl

/-! The interleave (R190). -/

theorem chanFold_congr {w r q : Nat} (h : r / 2 ^ w = q / 2 ^ w) : chanFold w r = chanFold w q := by
  have hfld (hi : Nat) {lo : Nat} (hlo : w ≤ lo) : fld r hi lo = fld q hi lo := by
    have hshift (n : Nat) : n >>> lo = n / 2 ^ w / 2 ^ (lo - w) := by
      rw [Nat.shiftRight_eq_div_pow, Nat.div_div_eq_div_mul, ← pow_add, Nat.add_sub_cancel' hlo]
    rw [fld, fld, hshift, hshift, h]
  unfold chanFold
  rw [hfld _ (Nat.le_refl w), hfld _ (by omega), hfld _ (by omega)]
/-- Every line of a heat has a home of its own (R190). -/
theorem homeOf_inj {P w a b : Nat} (hw : 0 < w) (h : homeOf P w a = homeOf P w b) : a = b := by
  simp only [homeOf, Prod.mk.injEq] at h
  obtain ⟨hmod, hchan, hoff⟩ := h
  have hlow : a / P % 2 ^ w = b / P % 2 ^ w := by
    rw [chanFold_congr hoff, Nat.xor_left_inj] at hchan
    simpa [fld, Nat.sub_add_cancel hw] using hchan
  have hdiv : a / P = b / P := by rw [← Nat.div_add_mod (a / P) (2 ^ w), ← Nat.div_add_mod (b / P) (2 ^ w), hoff, hlow]
  rw [← Nat.div_add_mod a P, ← Nat.div_add_mod b P, hdiv, hmod]
/-- Bank, column and row name a line of a channel (R190). -/
theorem offset_inj {o p : Nat} (hbank : fld o 3 0 ^^^ fld o 11 8 = fld p 3 0 ^^^ fld p 11 8) (hcol : fld o 7 4 = fld p 7 4)
    (hrow : o / 256 = p / 256) : o = p := by
  simp only [fld, Nat.shiftRight_eq_div_pow, Nat.reduceAdd, Nat.reduceSub, Nat.reducePow, Nat.div_one] at hbank hcol
  rw [hrow, Nat.xor_left_inj] at hbank
  omega
/-- No two granules have one place in the devices (R190). -/
theorem devicePlace_inj {P w x y : Nat} (hw : w = 2 ∨ w = 3) (h : devicePlace P w x = devicePlace P w y) : x / 32 = y / 32 := by
  simp only [devicePlace, DevicePlace.mk.injEq] at h
  obtain ⟨hpos, hch, hbank, hcol, hrow, hsub, hburst⟩ := h
  have hline : x / 256 = y / 256 := homeOf_inj (P := P) (w := w) (by omega) (Prod.ext hpos (Prod.ext hch (offset_inj hbank hcol hrow)))
  have hgran : fld x 7 5 = fld y 7 5 := by
    rcases hw with rfl | rfl
    · exact hburst
    · simp only [if_true] at hsub hburst
      omega
  simp only [fld, Nat.shiftRight_eq_div_pow, Nat.reduceAdd, Nat.reduceSub, Nat.reducePow] at hgran
  omega

/-- Settles O42: one lemma for each event, and `devicePlace_inj`. -/
theorem memoryEventsAct : Obligations.MemoryEventsAct := by
  unfold Obligations.MemoryEventsAct
  exact fun s ch => ⟨exec_eccCountPoll s, exec_dqsTracking s, fun _ => rfl, exec_memTraining s ch,
    fun hi first repair waiting granules hpos hfirst => exec_serviceAdmit s ch repair waiting granules hpos hfirst,
    fun hi t unreadable hpos hmoving hstage =>
      (exec_migrationLine s ch unreadable hpos hmoving hstage).trans (congrArg Host.Outcome.next (s.moveLine_eq ..)),
    fun P w x y _ hw h => devicePlace_inj hw h⟩

end Sys2Proof.Machine
end

section
/-! Flits at the link layer (R219, R223, R224, R233, R251): what each sequenced row, an IDLE and a REPLAY come to there. -/
namespace Sys2Proof.Machine

section
variable {s : State} {f : FlitRx}

/-- Every sequenced row goes through the link layer first (R219). -/
theorem exec_flitRow {i : Instr} (s : State) (hrow : i ∈ flitRows f) : ∃ want go, exec i s = s.withFlit f want go := by
  simp only [flitRows, List.mem_cons, List.not_mem_nil, or_false] at hrow
  rcases hrow with rfl | rfl | rfl | rfl | rfl | rfl | rfl | rfl | rfl | rfl | rfl | rfl | rfl | rfl | rfl | rfl | rfl | rfl | rfl
  all_goals
    simp only [exec, execTable, execTableAck, execBlockNack, execLaneRetire, execLaneAck, execSubRetire, execSubAck, State.withCtl]
    exact ⟨_, _, rfl⟩

/-- The link layer's drop of a flit with a wrong CRC: nothing on a port or lane out of use; else the copy leaving cut-through is stomped, and a
replay asked for where the flit is not stomped itself (R219, R224, R233). -/
def State.dropFlit (s : State) (f : FlitRx) : State :=
  let k := s.port f.port
  let v := if k.rx.dropping then s else s.stompCopy f.port f.bytes
  if k.retired ∨ k.lanes[f.lane].up = false ∨ k.lanes[f.lane].retired ∨ k.lanes[f.lane].lock = false then s
  else if leAt f.bytes 276 4 + crc32 (f.bytes.take 276) = 2 ^ 32 - 1 then v else v.askReplay f.port

theorem linkRx_wrongCrc (hcrc : crcGood f.bytes = false) : s.linkRx f = (s.dropFlit f, .none) := by
  have hcrc : leAt f.bytes 276 4 ≠ crc32 (f.bytes.take 276) := fun h => by rw [crcGood_eq.mpr h] at hcrc; cases hcrc
  unfold State.linkRx State.dropFlit
  simp only [if_neg hcrc, Bool.or_eq_true, Bool.not_eq_true', or_assoc]
  split <;> rfl
theorem withFlit_wrongCrc (hsize : f.bytes.length = 280) (hcrc : crcGood f.bytes = false) (want : Nat → Bytes → Bool)
    (go : State → Nat → Bytes → Nat → State) : s.withFlit f want go = .next (s.dropFlit f) := by
  simp [State.withFlit, hsize, hcrc, linkRx_wrongCrc]

/-- An IDLE or REPLAY leaves its trailer, and has no number to check (R220, R224). -/
theorem linkRx_unsequenced (hseen : FlitSeen s f) (hcrc : crcGood f.bytes = true)
    (htype : hdrType (leAt f.bytes 0 16) = 1 ∨ hdrType (leAt f.bytes 0 16) = 2) :
    s.linkRx f = ((s.trailerTaken f).pump f.port, .loose (leAt f.bytes 0 16) (bytesAt f.bytes 16 256)) := by
  unfold State.linkRx
  dsimp only
  rw [if_neg (seen_live hseen), if_pos (crcGood_eq.mp hcrc), if_pos (by simpa using htype)]
  rfl
/-- A sequenced flit with another number than the expected leaves its trailer and is asked for again (R224). -/
theorem linkRx_wrongNumber (hseen : FlitSeen s f) (hcrc : crcGood f.bytes = true)
    (htype : hdrType (leAt f.bytes 0 16) = 0 ∨ (3 ≤ hdrType (leAt f.bytes 0 16) ∧ hdrType (leAt f.bytes 0 16) ≤ 5))
    (hseq : fld (leAt f.bytes 272 8) 11 0 ≠ (s.port f.port).rx.expect) :
    s.linkRx f = ((s.trailerTaken f).askReplay f.port, .none) := by
  unfold State.linkRx
  dsimp only
  generalize hdrType (leAt f.bytes 0 16) = ty at htype ⊢
  have hseqd : ¬ (decide (ty = 1) || decide (ty = 2)) = true := by simp only [Bool.or_eq_true, decide_eq_true_eq]; omega
  rw [if_neg (seen_live hseen), if_pos (crcGood_eq.mp hcrc), if_neg hseqd, if_neg (by omega), if_neg hseq]
  rfl

/-- An IDLE is its trailer (R220, R223). -/
theorem exec_idle_seen (hseen : FlitSeen s f) (hcrc : crcGood f.bytes = true) (htype : hdrType (leAt f.bytes 0 16) = 1) :
    exec (.idle f) s = .next ((s.trailerTaken f).pump f.port) := by
  change s.withFlit f (fun hdr _ => hdrType hdr == 1) (fun s _ _ _ => s) = _
  simp [State.withFlit, hseen.size, hcrc, htype, linkRx_unsequenced hseen hcrc (.inl htype)]
/-- A REPLAY resends from the number it names (R224). -/
theorem exec_replay_seen {n : Nat} (hseen : FlitSeen s f) (hcrc : crcGood f.bytes = true) (htype : hdrType (leAt f.bytes 0 16) = 2)
    (hfind : (((s.trailerTaken f).pump f.port).port f.port).tx.replay.findIdx?
      (fun e => e.seq == leAt (bytesAt f.bytes 16 256) 0 2 % 4096) = some n) :
    exec (.replay f) s = .next (((s.trailerTaken f).pump f.port).replayFrom f.port n) := by
  change execReplay f s = _
  simp [execReplay, hseen.size, hcrc, htype, linkRx_unsequenced hseen hcrc (.inr htype), hfind]
/-- An ACK with another number than the expected is asked for again (R224). -/
theorem exec_ack_wrongNumber (hseen : FlitSeen s f) (hcrc : crcGood f.bytes = true) (htype : hdrType (leAt f.bytes 0 16) = 4)
    (hseq : fld (leAt f.bytes 272 8) 11 0 ≠ (s.port f.port).rx.expect) :
    exec (.ack f) s = .next ((s.trailerTaken f).askReplay f.port) := by
  change s.withFlit f (fun hdr _ => hdrType hdr == 4) (fun s hdr pay seq => s.deliver f.port hdr pay seq) = _
  simp [State.withFlit, hseen.size, hcrc, htype, linkRx_wrongNumber hseen hcrc (by omega) hseq]

end

/-- Settles O27: a wrong CRC ends every row in `State.dropFlit`; IDLE, REPLAY and a wrong number each have their own lemma. -/
theorem flitsAreReceived : Obligations.FlitsAreReceived := by
  unfold Obligations.FlitsAreReceived
  intro s f i hrow hsize crc want v
  refine ⟨fun hcrc => ?_, fun hseen hgood htype => exec_idle_seen hseen hgood htype,
    fun hseen hgood htype n hfind => exec_replay_seen hseen hgood htype hfind, fun _ _ hseen hgood htype _ hack hseq => ?_⟩
  · obtain ⟨w, go, hexec⟩ := exec_flitRow s hrow
    rw [hexec]
    exact withFlit_wrongCrc hsize (by simpa [crcGood] using hcrc) w go
  · rw [hack]
    exact exec_ack_wrongNumber hseen hgood htype hseq

end Sys2Proof.Machine
end

section
/-! Routed flits (R218, R229, R232, R233, R238, R243): what a running heat makes of one that the link layer accepts, and a block of one flit. -/
namespace Sys2Proof.Machine

section
variable {s : State} {f : FlitRx} {hdr : Nat} {pay : Bytes}

theorem flitTaken_tables (s : State) (f : FlitRx) : ((s.flitTaken f).port f.port).rx.tables = (s.port f.port).rx.tables := by
  simp [State.flitTaken, State.trailerTaken]
/-- A DATA flit that the link layer accepts is delivered (R218). -/
theorem exec_dataFlit_taken (h : FlitTaken s f hdr pay) (htype : hdrType hdr = 0) :
    exec (.dataFlit f) s = .next ((s.flitTaken f).deliver f.port hdr pay (s.port f.port).rx.expect) :=
  flit_next h (show execDataFlit f s = _ from rfl) (by simp [isData, htype]) (if_neg (by simp [htype]))
/-- So is an ACK (R238). -/
theorem exec_ack_taken (h : FlitTaken s f hdr pay) (htype : hdrType hdr = 4) :
    exec (.ack f) s = .next ((s.flitTaken f).deliver f.port hdr pay (s.port f.port).rx.expect) :=
  flit_next h (show execAck f s = _ from rfl) (by simp [htype]) rfl
/-- So is a HELLO (R229). -/
theorem exec_hello_taken (h : FlitTaken s f hdr pay) (htype : hdrType hdr = 3) (hmsg : leAt pay 0 1 = 1) :
    exec (.hello f) s = .next ((s.flitTaken f).deliver f.port hdr pay (s.port f.port).rx.expect) :=
  flit_next h (show execHello f s = _ from rfl) (by simp [isCtl, htype, hmsg]) rfl

theorem process_data (s : State) (hi : Fin 4) (port : Fin 32) (p : Program) (pay : Bytes) (n : Nat) (htype : hdrType hdr = 0) :
    s.process hi port p hdr pay n = s.dataIn hi port p hdr pay n := by
  unfold State.process; rw [htype]; rfl
theorem process_hello (s : State) (hi : Fin 4) (port : Fin 32) (p : Program) (pay : Bytes) (n : Nat) (htype : hdrType hdr = 3) :
    s.process hi port p hdr pay n = s.helloIn hi port p hdr pay := by
  unfold State.process; rw [htype]; rfl
/-- A flit for a port that no heat owns is held with its credit (R229). -/
theorem deliver_unowned {port : Fin 32} (howner : s.heatOfPort port = none) (hdr : Nat) (pay : Bytes) (n : Nat) :
    s.deliver port hdr pay n = (s.holdFlit port hdr pay n).pump port := by
  unfold State.deliver; rw [howner]

end

/-! A block of one flit (R233, R243). -/

/-- Ending a forwarding touches transmitters alone. -/
theorem dropForward_heat (s : State) (a : Asm) (j : Fin 4) : (s.dropForward a).heat j = s.heat j := by
  unfold State.dropForward; split <;> rfl
theorem dropForward_rx (s : State) (a : Asm) (p : Fin 32) : ((s.dropForward a).port p).rx = (s.port p).rx := by
  unfold State.dropForward
  split
  · rfl
  · rw [State.port_modPort]
    split <;> rfl
theorem dropForwards_heat (as : List Asm) (s : State) (j : Fin 4) : (as.foldl State.dropForward s).heat j = s.heat j := by
  induction as generalizing s with
  | nil => rfl
  | cons a as ih => rw [List.foldl_cons, ih, dropForward_heat]
theorem dropForwards_rx (as : List Asm) (s : State) (p : Fin 32) : ((as.foldl State.dropForward s).port p).rx = (s.port p).rx := by
  induction as generalizing s with
  | nil => rfl
  | cons a as ih => rw [List.foldl_cons, ih, dropForward_rx]

/-- The only assembly of a sub-stream is the one begun after the others were dropped (R247). -/
theorem find?_begun (as : List Asm) (a : Asm) :
    ((as.filter (fun b => b.sub != a.sub)) ++ [a]).find? (fun b => b.sub == a.sub) = some a := by
  have hnone : (as.filter (fun b => b.sub != a.sub)).find? (fun b => b.sub == a.sub) = none := by
    simp [List.find?_eq_none]
  simp [List.find?_append, hnone]

/-- A whole block for this module whose frame decodes waits to land (R238, R243). -/
theorem blockDone_own {u : State} {hi : Fin 4} {p : Fin 32} {a : Asm} {raw : Bytes} {coding : Nat} (i : Program) (last : Nat)
    (hown : hdrDest a.hdr = (u.heat hi).ownId) (hfwd : a.fwd = none)
    (hdec : decodeFramed (u.port p).rx.tables.toList a.bytes = .ok (raw, coding)) :
    ((u.blockDone hi p i a last).heat hi).ejected = (u.heat hi).ejected ++ [⟨p.val, hdrSrc a.hdr, fld a.hdr 56 45, bitAt a.hdr 59,
      fld a.hdr 88 88, hdrEpoch a.hdr, hdrOff a.hdr, raw⟩] := by
  simp [State.blockDone, hown, hfwd, hdec]

/-- The first flit of a block for this module drops what its sub-stream had under assembly and begins the block (R243, R247). -/
def State.beginBlock (s : State) (p : Fin 32) (hdr seq : Nat) : State :=
  let dropped := ((s.port p).rx.asm.filter (fun a => a.sub == hdrSub hdr)).foldl State.dropForward s
  (dropped.modPort p (fun k => { k with rx := { k.rx with asm := k.rx.asm.filter (fun a => a.sub != hdrSub hdr) } })).modPort p
    (fun k => { k with rx := { k.rx with asm := k.rx.asm ++ [⟨hdrSub hdr, seq, hdr, [], none⟩] } })
theorem beginBlock_heat (s : State) (p : Fin 32) (hdr seq : Nat) (j : Fin 4) : (s.beginBlock p hdr seq).heat j = s.heat j :=
  dropForwards_heat _ s j
theorem beginBlock_tables (s : State) (p : Fin 32) (hdr seq : Nat) :
    ((s.beginBlock p hdr seq).port p).rx.tables = (s.port p).rx.tables := by
  simp [State.beginBlock, dropForwards_rx]
theorem beginBlock_find? (s : State) (p : Fin 32) (hdr seq : Nat) :
    ((s.beginBlock p hdr seq).port p).rx.asm.find? (fun a => a.sub == hdrSub hdr) = some ⟨hdrSub hdr, seq, hdr, [], none⟩ := by
  simp only [State.beginBlock, State.port_modPort_same, dropForwards_rx]
  exact find?_begun _ ⟨hdrSub hdr, seq, hdr, [], none⟩

/-- A block of one flit for this module is begun and whole at once (R233, R243). -/
theorem dataIn_oneFlit {s : State} {hi : Fin 4} {hdr : Nat} (p : Fin 32) (i : Program) (pay : Bytes) (seq : Nat)
    (hown : hdrDest hdr = (s.heat hi).ownId) (hfirst : bitAt hdr 5 = true) (hlast : bitAt hdr 6 = true) :
    s.dataIn hi p i hdr pay seq = (((s.freeBuffer p hdr).beginBlock p hdr seq).modPort p
      (fun k => { k with rx := { k.rx with asm := k.rx.asm.filter (fun a => a.sub != hdrSub hdr) } })).blockDone hi p i
        ⟨hdrSub hdr, seq, hdr, pay.take (hdrLen hdr), none⟩ seq := by
  have hbegin := beginBlock_find? (s.freeBuffer p hdr) p hdr seq
  have hdest : (hdrDest hdr == ((s.freeBuffer p hdr).heat hi).ownId) = true := beq_iff_eq.mpr hown
  unfold State.beginBlock at hbegin ⊢
  unfold State.dataIn
  simp only [hdest, hfirst, hlast, Bool.not_true, Bool.false_and, Bool.false_eq_true, if_false, if_true]
  rw [hbegin]
  rfl
/-- Where its frame decodes it waits to land with the bytes it carried (R238, R243). -/
theorem dataIn_oneFlit_ejected {s : State} {hi : Fin 4} {p : Fin 32} {hdr : Nat} {pay raw : Bytes} {coding : Nat} (i : Program) (seq : Nat)
    (hown : hdrDest hdr = (s.heat hi).ownId) (hfirst : bitAt hdr 5 = true) (hlast : bitAt hdr 6 = true)
    (hdec : decodeFramed (s.port p).rx.tables.toList (pay.take (hdrLen hdr)) = .ok (raw, coding)) :
    ((s.dataIn hi p i hdr pay seq).heat hi).ejected = (s.heat hi).ejected ++ [⟨p.val, hdrSrc hdr, fld hdr 56 45, bitAt hdr 59,
      fld hdr 88 88, hdrEpoch hdr, hdrOff hdr, raw⟩] := by
  have hheat : ((s.freeBuffer p hdr).beginBlock p hdr seq).heat hi = s.heat hi := beginBlock_heat ..
  have htables : (((s.freeBuffer p hdr).beginBlock p hdr seq).port p).rx.tables = (s.port p).rx.tables := by
    rw [beginBlock_tables, State.freeBuffer, State.port_modPort_same]
  rw [dataIn_oneFlit p i pay seq hown hfirst hlast, blockDone_own (raw := raw) (coding := coding) i seq _ rfl]
  · rw [State.modPort_heat, hheat]
  · rw [State.port_modPort_same, htables, hdec]
  · rw [State.modPort_heat, hheat, hown]

/-- Settles O28: an accepted flit is delivered, and `State.process` gives it to its own operation; a block of one flit is `dataIn_oneFlit_ejected`. -/
theorem routedFlitsAreTakenIn : Obligations.RoutedFlitsAreTakenIn := by
  unfold Obligations.RoutedFlitsAreTakenIn
  intro s f hdr pay hi p h u n own
  refine ⟨fun hruns => ?_, fun howner i hrow => ?_⟩
  · have hdeliver := deliver_runs (portRuns_taken hruns) hdr pay n
    refine ⟨fun htype => ?_, fun htype hown => ?_, fun htype hother => ?_, fun htype hmsg => ?_, fun htype hown hfirst hlast raw coding hdec => ?_⟩
    · rw [exec_dataFlit_taken h htype, hdeliver, process_data _ _ _ _ _ _ htype]
    · rw [exec_ack_taken h htype, hdeliver, process_ack _ _ _ _ _ _ _ htype, flitTaken_heat, if_pos (by simpa using hown)]
    · rw [exec_ack_taken h htype, hdeliver, process_ack _ _ _ _ _ _ _ htype, flitTaken_heat, if_neg (by simpa using hother)]
    · rw [exec_hello_taken h htype hmsg, hdeliver, process_hello _ _ _ _ _ _ htype]
    · rw [← flitTaken_tables] at hdec
      have hejected := dataIn_oneFlit_ejected (s := u) p n hown hfirst hlast hdec
      rwa [flitTaken_heat] at hejected
  · have hheld := deliver_unowned (s := s.flitTaken f) howner hdr pay n
    simp only [List.mem_cons, Prod.mk.injEq, List.not_mem_nil, or_false] at hrow
    obtain ⟨htype, rfl⟩ | ⟨htype, rfl⟩ := hrow
    · rw [exec_dataFlit_taken h htype, hheld]
    · rw [exec_ack_taken h htype, hheld]

end Sys2Proof.Machine
end

section
/-! Lanes and links (R215 to R217, R224, R226, R227, R248): training, lane frames, code tables, replay and the timers of a port. -/
namespace Sys2Proof.Machine

/-- Changing a lane by its number sets it in the vector. -/
theorem Port.modLane_eq (k : Port) (lane : Fin 8) (f : Lane → Lane) :
    k.modLane lane.val f = { k with lanes := k.lanes.set lane (f k.lanes[lane]) } := by
  have hget : k.lanes.toList.getD lane.val Lane.reset = k.lanes[lane] := by simp [List.getD_eq_getElem?_getD]
  rw [Port.modLane, hget]
  congr 1
  ext i hi
  simp [Vector.getElem_set, Vector.getElem_setIfInBounds]

section
variable {s : State} {p : Fin 32} {lane : Fin 8}

/-- A lane that is trained joins the mask at a frame boundary, unlocked and with its counts cleared (R215, R226). -/
def State.joinLane (s : State) (p : Fin 32) (lane : Fin 8) : State :=
  s.modPort p (fun k => { (k.modLane lane.val (fun x => { x with
      up := true, attempts := 0, lock := false, good := 0, bad := 0, count := none, retrain := false })) with
    tx := { k.tx.endFrame with mask := if bitAt k.tx.mask lane.val then k.tx.mask else k.tx.mask + 2 ^ lane.val } })

/-- A lane of a live port that is down and not retired trains once the flash is read (R215). -/
theorem lane_trains (hport : (s.port p).retired = false) (hlane : (s.port p).lanes[lane].retired = false)
    (hdown : (s.port p).lanes[lane].up = false) (hread : s.com.boot.flashRead = true) :
    ¬ ((s.port p).retired || (s.port p).lanes[lane].retired || (s.port p).lanes[lane].up || !s.com.boot.flashRead) = true := by
  rw [hport, hlane, hdown, hread]; decide

section
variable (hport : (s.port p).retired = false) (hlane : (s.port p).lanes[lane].retired = false)
  (hdown : (s.port p).lanes[lane].up = false) (hread : s.com.boot.flashRead = true)
include hport hlane hdown hread

/-- The first lane to train brings the link up (R215, R226). -/
theorem exec_laneTraining_joins : exec (.laneTraining p lane true) s = .next ((
      let u := (s.bump 4 (8 * p.val + lane.val) 3).joinLane p lane
      if (s.port p).anyLane then u else u.linkUp p).pump p) := by
  change execLaneTraining p lane true s = _
  refine (if_neg (lane_trains hport hlane hdown hread)).trans ?_
  unfold State.joinLane
  cases (s.port p).anyLane <;> simp only [Bool.not_true, Bool.not_false, if_true, Bool.false_eq_true, if_false] <;> rfl
/-- A training that fails counts, and may retire the lane (R216). -/
theorem exec_laneTraining_fails :
    exec (.laneTraining p lane false) s = .next ((s.bump 4 (8 * p.val + lane.val) 3).failTraining p lane.val) := by
  change execLaneTraining p lane false s = _
  exact if_neg (lane_trains hport hlane hdown hread)

end

/-! Lane frames (R215, R217). -/

/-- A lane's number in a header is not its own, or its mask is not that of the other lanes at its count (R217). -/
def Port.wrongHeader (k : Port) (lane : Fin 8) (hdr : Bytes) : Prop :=
  leAt hdr 64 1 ≠ lane.val ∨
    k.lanes.toList.any (fun o => o.up && o.count == some (leAt hdr 68 4) && o.mask != leAt hdr 66 1) = true
/-- A lane that has met a right header: one more toward lock (R217). -/
def Lane.metGood (l : Lane) (hdr : Bytes) : Lane :=
  { l with good := min 3 (l.good + 1), bad := 0, lock := l.lock || 2 ≤ l.good, count := some (leAt hdr 68 4), mask := leAt hdr 66 1 }
/-- A lane that has met a bad header: the third in succession drops the lock, and the lane is down (R217, R227). -/
def Lane.metBad (l : Lane) : Lane :=
  let drops := l.lock && 2 ≤ l.bad
  { l with good := 0, bad := min 3 (l.bad + 1), lock := l.lock && !drops, up := !drops }

theorem lane_in_use (hport : (s.port p).retired = false) (hlane : (s.port p).lanes[lane].retired = false)
    (hup : (s.port p).lanes[lane].up = true) :
    ¬ ((s.port p).retired || (s.port p).lanes[lane].retired || !(s.port p).lanes[lane].up) = true := by
  rw [hport, hlane, hup]; decide

section
variable {hdr : Bytes} {fec : Vector (Option (Fin 16)) 16} (hport : (s.port p).retired = false) (hsize : hdr.length = 200)
  (hlane : (s.port p).lanes[lane].retired = false) (hup : (s.port p).lanes[lane].up = true)
include hport hsize hlane hup

theorem exec_laneFrame_wrong (hgood : frameGood hdr = true) (hwrong : (s.port p).wrongHeader lane hdr) :
    exec (.laneFrame p lane hdr fec) s = .next ((s.countFec p lane fec).failTraining p lane.val) := by
  change execLaneFrame p lane hdr fec s = _
  exact (if_pos hsize).trans ((if_neg (lane_in_use hport hlane hup)).trans ((if_pos hgood).trans (if_pos hwrong)))
theorem exec_laneFrame_right (hgood : frameGood hdr = true) (hright : ¬ (s.port p).wrongHeader lane hdr) :
    exec (.laneFrame p lane hdr fec) s = .next ((s.countFec p lane fec).setPort p { s.port p with
      lanes := (s.port p).lanes.set lane ((s.port p).lanes[lane].metGood hdr) }) := by
  rw [← Port.modLane_eq _ _ (fun l => l.metGood hdr)]
  change execLaneFrame p lane hdr fec s = _
  exact (if_pos hsize).trans ((if_neg (lane_in_use hport hlane hup)).trans ((if_pos hgood).trans (if_neg hright)))
theorem exec_laneFrame_bad (hbad : frameGood hdr = false) :
    exec (.laneFrame p lane hdr fec) s = .next (((s.countFec p lane fec).setPort p { s.port p with
      lanes := (s.port p).lanes.set lane (s.port p).lanes[lane].metBad }).checkLink p) := by
  change execLaneFrame p lane hdr fec s = _
  refine (if_pos hsize).trans ((if_neg (lane_in_use hport hlane hup)).trans ((if_neg (by rw [hbad]; decide)).trans ?_))
  dsimp only
  rw [Port.modLane_eq]
  rfl

end

/-! Code tables, replay and the retraining time-out. -/

/-- The oldest table is installed and acknowledged once no coded block of its generation is under assembly (R248). -/
theorem exec_tableInstall_ready {g : Nat} {t : CodeTable} {rest : List (Nat × CodeTable)} (hport : (s.port p).retired = false)
    (hpend : (s.port p).rx.pend = (g, t) :: rest) (hidle : ∀ a ∈ (s.port p).rx.asm,
      fld (leAt a.bytes 0 8) 1 0 = 1 ∨ fld (leAt a.bytes 0 8) 1 0 = 2 → fld (leAt a.bytes 0 8) 3 2 ≠ g) :
    exec (.tableInstall p) s = .next ((s.setPort p { s.port p with rx := { (s.port p).rx with
      pend := rest, tables := (s.port p).rx.tables.setIfInBounds g (some t) } }).linkCtl p [3, BitVec.ofNat 8 g]) := by
  have hready : ((s.port p).retired || (s.port p).rx.asm.any (fun a =>
      (fld (leAt a.bytes 0 8) 1 0 == 1 || fld (leAt a.bytes 0 8) 1 0 == 2) && fld (leAt a.bytes 0 8) 3 2 == g)) = false := by
    simpa [hport] using hidle
  change execTableInstall p s = _
  rw [execTableInstall]
  simp only [hpend, hready, Bool.false_eq_true, if_false]
/-- An acknowledgement that stays away for 2 us makes the port resend from the oldest flit (R224). -/
theorem exec_replayTimeout_due (hreplay : (s.port p).tx.replay ≠ []) (hsend : (s.port p).canSend = true) :
    exec (.replayTimeout p) s = .next ((s.reach ((s.port p).tx.ackAt + 2 * micro)).replayFrom p 0) :=
  if_neg (by simp [hreplay, hsend])
/-- A link that stays down for a second retires its port (R227). -/
theorem exec_portRetrainTimeout_down {t : Nat} (hport : (s.port p).retired = false) (hdown : (s.port p).downSince = some t)
    (hany : (s.port p).anyLane = false) : exec (.portRetrainTimeout p) s = .next ((s.reach (t + second)).retirePort p) := by
  change execPortRetrainTimeout p s = _
  rw [execPortRetrainTimeout]
  simp only [hdown, hport, hany, Bool.or_self, Bool.false_eq_true, if_false]

end

/-- Settles O30: one lemma for each event of a lane or a link. -/
theorem lanesAndLinksAct : Obligations.LanesAndLinksAct := by
  unfold Obligations.LanesAndLinksAct
  intro s p lane hport k l counted joined
  refine ⟨fun hlane hdown hread => ⟨?_, ?_⟩, fun hdr fec hsize hlane hup => ⟨?_, ?_, ?_⟩,
    fun g t rest hpend hidle => exec_tableInstall_ready hport hpend hidle, exec_replayTimeout_due,
    fun t hdown hany => exec_portRetrainTimeout_down hport hdown hany⟩
  · exact exec_laneTraining_joins hport hlane hdown hread
  · exact exec_laneTraining_fails hport hlane hdown hread
  · exact exec_laneFrame_wrong hport hsize hlane hup
  · intro hgood hright
    refine ⟨_, exec_laneFrame_right hport hsize hlane hup hgood hright, ?_⟩
    rw [State.port_setPort_same]
    exact ⟨rfl, rfl, rfl⟩
  · exact exec_laneFrame_bad hport hsize hlane hup

end Sys2Proof.Machine
end

section
/-! The lanes of ports: no hurdle operation changes one, so a lane that has been dropped stays retired through what the retirement of its port
sets off (R226, R227). -/
namespace Sys2Proof.Machine

/-- The lanes of each port. -/
def State.lanes (s : State) (p : Fin 32) : Vector Lane 8 := (s.port p).lanes

theorem lanes_of_ports {s t : State} (h : t.ports = s.ports) : t.lanes = s.lanes := by
  funext p; simp only [State.lanes, State.port, h]
theorem SameCore.lanes {s t : State} (h : SameCore s t) : t.lanes = s.lanes := lanes_of_ports h.2.1
theorem HoldOnly.lanes {s t : State} (h : HoldOnly s t) : t.lanes = s.lanes := by
  funext p; rw [State.lanes, h.ports]; rfl
theorem lanes_ite {c : Prop} [Decidable c] {a b s : State} (ha : a.lanes = s.lanes) (hb : b.lanes = s.lanes) :
    (if c then a else b).lanes = s.lanes := by
  split
  · exact ha
  · exact hb
/-- A pass each step of which keeps the lanes keeps them. -/
@[simp] theorem lanes_foldl {α : Type} (f : State → α → State) (hf : ∀ s a, (f s a).lanes = s.lanes) (xs : List α) (s : State) :
    (xs.foldl f s).lanes = s.lanes := by
  induction xs generalizing s with
  | nil => rfl
  | cons a xs ih => rw [List.foldl_cons, ih, hf]

/-! The shared operations. -/

theorem lanes_setPort {s : State} {p : Fin 32} {k : Port} (h : k.lanes = (s.port p).lanes) : (s.setPort p k).lanes = s.lanes := by
  funext q
  rw [State.lanes, State.port_setPort]
  split
  · next hq => rw [h, hq]; rfl
  · rfl
@[simp] theorem lanes_modCl (s : State) (c : Fin 64) (f : Cluster → Cluster) : (s.modCl c f).lanes = s.lanes := rfl
@[simp] theorem lanes_modHeat (s : State) (j : Fin 4) (f : Heat → Heat) : (s.modHeat j f).lanes = s.lanes := rfl
@[simp] theorem lanes_modHu (s : State) (j : Fin 4) (f : Hurdle → Hurdle) : (s.modHu j f).lanes = s.lanes := rfl
@[simp] theorem lanes_bump (s : State) (g i x n : Nat) : (s.bump g i x n).lanes = s.lanes := rfl
@[simp] theorem lanes_bumpBin (s : State) (g i x b : Nat) : (s.bumpBin g i x b).lanes = s.lanes := rfl
@[simp] theorem lanes_useFree (s : State) : s.useFree.lanes = s.lanes := rfl
@[simp] theorem lanes_report (s : State) (kind heat status step : Nat) (detail : Bytes) :
    (s.report kind heat status step detail).lanes = s.lanes := (sameCore_report ..).lanes
@[simp] theorem lanes_journal (s : State) (kind status cls unit detail : Nat) : (s.journal kind status cls unit detail).lanes = s.lanes :=
  (sameCore_journal ..).lanes
@[simp] theorem lanes_noteRetired (s : State) (cls unit heat : Nat) : (s.noteRetired cls unit heat).lanes = s.lanes :=
  (sameCore_noteRetired ..).lanes
@[simp] theorem lanes_fillReply (s : State) (conn seq status : Nat) (body : Bytes) : (s.fillReply conn seq status body).lanes = s.lanes :=
  (sameCore_fillReply ..).lanes
@[simp] theorem lanes_pump (s : State) (p : Fin 32) : (s.pump p).lanes = s.lanes := (holdOnly_pump ..).lanes
@[simp] theorem lanes_sendHurdle (s : State) (hi : Fin 4) (dest : Nat) (m : HMsg) : (s.sendHurdle hi dest m).lanes = s.lanes :=
  (holdOnly_sendRouted ..).lanes
@[simp] theorem lanes_closeHold (s : State) (hi : Fin 4) : (s.closeHold hi).lanes = s.lanes := (holdOnly_closeHold ..).lanes
@[simp] theorem lanes_refreshHeld (s : State) (hi : Fin 4) : (s.refreshHeld hi).lanes = s.lanes := (holdOnly_refreshHeld ..).lanes
@[simp] theorem lanes_record (s : State) (c : Fin 64) (q : Fin 4) (e : QEntry) (st : Nat) : (s.record c q e st).lanes = s.lanes := by
  obtain ⟨r, ctrs, hrecord, -⟩ := record_shape s c q e st
  rw [hrecord]; rfl
@[simp] theorem lanes_putSpace (s : State) (x : Site) (sp : Space) : (s.putSpace x sp).lanes = s.lanes := by
  have hstores (u : State) (cs : List (Fin 64)) (ms : List Mem) : (u.putStores cs ms).lanes = u.lanes :=
    lanes_of_ports (putStores_frame u cs ms).1
  unfold State.putSpace
  dsimp only
  split
  · rw [lanes_modCl, hstores, lanes_modHeat]
  · rw [hstores, lanes_modHeat]
@[simp] theorem lanes_stepRecords (s : State) (hi : Fin 4) (p : Program) (n : Nat) : (s.stepRecords hi p n).lanes = s.lanes := by
  refine lanes_foldl _ (fun u c => ?_) _ s
  dsimp only
  split
  · rfl
  · split <;> rfl

/-! GO (R264). -/

@[simp] theorem lanes_answerStart (s : State) (hi : Fin 4) (status : Nat) : (s.answerStart hi status).lanes = s.lanes := by
  unfold State.answerStart; split <;> simp
@[simp] theorem lanes_advanceGo (s : State) (hi : Fin 4) (w : Nat) : (s.advanceGo hi w).lanes = s.lanes := by
  simp [State.advanceGo, apply_ite State.lanes]
@[simp] theorem lanes_countGoHold (s : State) (hi : Fin 4) : (s.countGoHold hi).lanes = s.lanes := by
  simp [State.countGoHold, apply_ite State.lanes]
@[simp] theorem lanes_goCluster (s : State) (c : Fin 64) : (s.goCluster c).lanes = s.lanes := by
  unfold State.goCluster
  rw [lanes_modCl]
  split <;> simp
@[simp] theorem lanes_startCluster (s : State) (c : Fin 64) : (s.startCluster c).lanes = s.lanes := rfl
@[simp] theorem lanes_startCheckpoints (s : State) (hi : Fin 4) (p : Program) (n : Nat) : (s.startCheckpoints hi p n).lanes = s.lanes := by
  unfold State.startCheckpoints
  dsimp only
  split
  · rfl
  · split <;> rfl
@[simp] theorem lanes_finishGo (s : State) (hi : Fin 4) (p : Program) (n : Option Nat) : (s.finishGo hi p n).lanes = s.lanes := by
  have hclusters (u : State) (cs : List (Fin 64)) :
      (if n.isSome then cs.foldl State.goCluster u else cs.foldl State.startCluster u).lanes = u.lanes :=
    lanes_ite (lanes_foldl State.goCluster lanes_goCluster cs u) (lanes_foldl State.startCluster lanes_startCluster cs u)
  have hbefore (u : State) : (u.stepRecords hi p (u.heat hi).hu.step).lanes = u.lanes := lanes_stepRecords ..
  unfold State.finishGo
  dsimp only
  split
  · rw [lanes_startCheckpoints, lanes_modHeat, hclusters, lanes_modHeat, lanes_bump, lanes_putSpace, hbefore, lanes_countGoHold]
  · rw [lanes_modHeat, hclusters, lanes_modHeat, lanes_bump, lanes_putSpace, hbefore, lanes_countGoHold]
@[simp] theorem lanes_actGo (s : State) (hi : Fin 4) (p : Program) (m : HMsg) : (s.actGo hi p m).lanes = s.lanes := by
  simp [State.actGo, apply_ite State.lanes]

/-! FALSE_START (R269) and STOP. -/

@[simp] theorem lanes_abandonHeads (s : State) (c : Fin 64) : (s.abandonHeads c).lanes = s.lanes := by
  unfold State.abandonHeads
  refine lanes_foldl _ (fun u q => ?_) _ s
  generalize (u.cl c).queues[q] = l
  cases l with
  | nil => rfl
  | cons e l =>
    dsimp only
    cases e.phase with
    | summary _ => rw [lanes_bump, lanes_record]
    | _ => exact lanes_record ..
@[simp] theorem lanes_encodeEnd (s : State) (c : Fin 64) (x : Site) (off q : Nat) (tagFail : Bool) :
    (s.encodeEnd c x off q tagFail).1.lanes = s.lanes := by
  unfold State.encodeEnd
  dsimp only
  rw [State.encStatus, lanes_modCl, lanes_putSpace, lanes_useFree]
@[simp] theorem lanes_dropEncodes (s : State) (c : Fin 64) (x : Site) : (s.dropEncodes c x).lanes = s.lanes := by
  unfold State.dropEncodes
  rw [lanes_modCl]
  refine lanes_foldl _ (fun u r => ?_) _ s
  split <;> simp
@[simp] theorem lanes_withdraw (s : State) (hi : Fin 4) (epoch : Nat) : (s.withdraw hi epoch).lanes = s.lanes := by
  unfold State.withdraw
  rw [lanes_modHeat]
  exact lanes_foldl (fun s p => s.modPort p (fun k => k.withdraw epoch)) (fun u p => lanes_setPort rfl) _ s
@[simp] theorem lanes_reportFold (s : State) (hi : Fin 4) (f : Nat × Nat) : (s.reportFold hi f).lanes = s.lanes := by
  unfold State.reportFold
  rw [lanes_journal, lanes_report, lanes_useFree]
@[simp] theorem lanes_applyFolds (s : State) (hi : Fin 4) : (s.applyFolds hi).lanes = s.lanes := by
  refine lanes_foldl _ (fun u f => ?_) _ s
  rw [lanes_reportFold]
  refine (lanes_foldl _ (fun v l => ?_) _ _).trans (lanes_modHeat ..)
  split <;> rfl
@[simp] theorem lanes_rewindAll (s : State) (hi : Fin 4) (p : Program) (new : List (Nat × Nat)) : (s.rewindAll hi p new).lanes = s.lanes := by
  unfold State.rewindAll
  refine lanes_foldl _ (fun u lc => ?_) _ s
  exact lanes_modCl ..
@[simp] theorem lanes_actFalseStart (s : State) (hi : Fin 4) (p : Program) (m : HMsg) : (s.actFalseStart hi p m).lanes = s.lanes := by
  have hend (u : State) (cs : List (Nat × Fin 64)) :
      (cs.foldl (fun u lc => (u.abandonHeads lc.2).dropEncodes lc.2 ⟨hi, lc.1, p⟩) u).lanes = u.lanes :=
    lanes_foldl _ (fun u lc => by rw [lanes_dropEncodes, lanes_abandonHeads]) cs u
  have hrecords (u : State) : (if u.com.boot.scheduler = .up then u.stepRecords hi p (u.heat hi).hu.step else u).lanes = u.lanes :=
    lanes_ite (lanes_stepRecords ..) rfl
  have hlife (u : State) : (if m.reason ≤ 5 then u.lifeCount (15 + m.reason) else u).lanes = u.lanes := lanes_ite rfl rfl
  unfold State.actFalseStart
  dsimp only
  rw [lanes_refreshHeld, lanes_modHeat, hrecords, lanes_rewindAll, lanes_applyFolds, lanes_putSpace, lanes_withdraw, hend, lanes_report,
    hlife, lanes_bump, lanes_bump, lanes_closeHold]
@[simp] theorem lanes_stopJob (s : State) (hi : Fin 4) (status reason : Nat) : (s.stopJob hi status reason).lanes = s.lanes := by
  have hcores (cs : List (Fin 64)) :
      (cs.foldl (fun u c => u.modCl c (fun k => { k with core := { k.core with running := false } })) s).lanes = s.lanes := by
    refine lanes_foldl _ (fun u c => ?_) cs s
    exact lanes_modCl ..
  unfold State.stopJob
  dsimp only
  split
  · rw [lanes_fillReply, lanes_report, lanes_modHeat, hcores]
  · rw [lanes_report, lanes_modHeat, hcores]

/-! A REQUEST (R262, R264). -/

@[simp] theorem lanes_act (s : State) (hi : Fin 4) (p : Program) (m : HMsg) : (s.act hi p m).lanes = s.lanes := by
  unfold State.act; split <;> simp
@[simp] theorem lanes_takeDecide (s : State) (hi : Fin 4) (p : Program) (m : HMsg) : (s.takeDecide hi p m).lanes = s.lanes := by
  simp [State.takeDecide, apply_ite State.lanes]
@[simp] theorem lanes_rootDecide (s : State) (hi : Fin 4) (d : Nat × Nat × Nat) : (s.rootDecide hi d).lanes = s.lanes := by
  unfold State.rootDecide
  dsimp only
  split <;> simp [apply_ite State.lanes]
@[simp] theorem lanes_rootRun (hi : Fin 4) (n : Nat) (s : State) : (State.rootRun hi n s).lanes = s.lanes := by
  induction n generalizing s with
  | zero => rfl
  | succ n ih =>
    unfold State.rootRun
    split
    · rfl
    · rw [ih, lanes_rootDecide]
@[simp] theorem lanes_rootRequest (s : State) (hi : Fin 4) (r : Request) : (s.rootRequest hi r).lanes = s.lanes := by
  simp [State.rootRequest, State.stale, apply_ite State.lanes]
@[simp] theorem lanes_request (s : State) (hi : Fin 4) (reason status : Nat) : (s.request hi reason status).lanes = s.lanes := by
  unfold State.request
  dsimp only
  split
  · rfl
  · split
    · simp
    · split <;> simp

/-! Retirement of a port (R227). -/

@[simp] theorem lanes_reroute (s : State) (hi : Fin 4) (f : Flit) : (s.reroute hi f).lanes = s.lanes := by
  unfold State.reroute
  dsimp only
  split
  · rw [lanes_pump]; exact lanes_setPort rfl
  · rfl
theorem lanes_retirePort (s : State) (p : Fin 32) : (s.retirePort p).lanes = s.lanes := by
  unfold State.retirePort
  dsimp only
  split
  · rfl
  · split <;> simp [lanes_setPort]
theorem lanes_afterDrop (s : State) (p : Fin 32) : (s.afterDrop p).lanes = s.lanes := by
  unfold State.afterDrop State.checkLink
  split
  · exact lanes_retirePort s p
  · dsimp only
    split
    · rfl
    · exact lanes_setPort rfl

end Sys2Proof.Machine
end


section
/-! Link messages (R220, R226, R245, R248 to R250): each leaves the buffer and has its effect on the port that took it; and a lane that a mask
leaves out is retired there (R226). -/
namespace Sys2Proof.Machine

/-! Power is untouched by the record of a retirement (R330, R331). -/

theorem pw_putRecord (s : State) (w : Nat) : (s.putRecord w).com.pw = s.com.pw := by
  unfold State.putRecord
  dsimp only
  split <;> rfl
theorem pw_journal (s : State) (kind status cls unit detail : Nat) : (s.journal kind status cls unit detail).com.pw = s.com.pw := by
  unfold State.journal
  dsimp only
  split
  · exact pw_putRecord ..
  · rfl
theorem pw_putSummary (s : State) : s.putSummary.com.pw = s.com.pw := by
  unfold State.putSummary
  dsimp only
  split <;> rfl
theorem pw_report (s : State) (kind heat status step : Nat) (detail : Bytes) : (s.report kind heat status step detail).com.pw = s.com.pw := by
  rw [(mgmtOnly_report s kind heat status step detail).com]
theorem pw_noteRetired (s : State) (cls unit heat : Nat) : (s.noteRetired cls unit heat).com.pw = s.com.pw := by
  unfold State.noteRetired
  dsimp only
  rw [pw_putSummary, pw_journal, pw_report]
  rfl

/-! Lanes that a mask leaves out (R226). -/

section
variable (s : State) (p : Fin 32)

theorem clockLost_dropLane (l : Nat) : (s.dropLane p l).clockLost = s.clockLost := by
  unfold State.dropLane
  dsimp only
  split
  · rfl
  · unfold State.clockLost; rw [pw_noteRetired]; rfl
/-- A lane that has left its port for good. -/
def Lane.dropped (x : Lane) : Lane := { x with retired := true, up := false, lock := false }
/-- While the reference clock runs, dropping a lane retires it, once. -/
theorem lanes_dropLane (l : Fin 8) (hclock : s.clockLost = false) :
    (s.dropLane p l.val).lanes p = if (s.lanes p)[l].retired then s.lanes p else (s.lanes p).set l (s.lanes p)[l].dropped := by
  have hlane : (s.port p).lane l.val = (s.lanes p)[l] := by simp [Port.lane, State.lanes, List.getD_eq_getElem?_getD]
  unfold State.dropLane
  dsimp only
  rw [hlane, hclock, Bool.or_false, apply_ite State.lanes, ite_apply, lanes_noteRetired, Port.modLane_eq]
  refine if_congr Iff.rfl rfl ?_
  rw [State.lanes, State.port_setPort, if_pos rfl]
  rfl
theorem dropLane_retired (l m : Fin 8) (hclock : s.clockLost = false) (h : m = l ∨ (s.lanes p)[m].retired = true) :
    ((s.dropLane p l.val).lanes p)[m].retired = true := by
  rw [lanes_dropLane s p l hclock]
  generalize s.lanes p = ls at h ⊢
  by_cases hlm : m = l
  · subst hlm
    by_cases hm : ls[m].retired = true
    · rwa [if_pos hm]
    · rw [if_neg hm]; simp [Lane.dropped]
  · have hne : l.val ≠ m.val := fun h => hlm (Fin.ext h.symm)
    have hm := h.resolve_left hlm
    split
    · exact hm
    · simpa [Vector.getElem_set, hne] using hm
/-- So of a list of lanes, each dropped lane is retired and stays so. -/
theorem lanes_dropLanes (ls : List (Fin 8)) (hclock : s.clockLost = false) (l : Fin 8)
    (hl : l ∈ ls ∨ ((s.lanes p)[l]).retired = true) :
    ((ls.foldl (fun (u : State) m => u.dropLane p m.val) s).lanes p)[l].retired = true := by
  induction ls generalizing s with
  | nil => simpa using hl
  | cons m ls ih =>
    refine ih (s.dropLane p m.val) (by rw [clockLost_dropLane, hclock]) ?_
    rw [List.mem_cons, or_assoc, or_left_comm] at hl
    exact hl.imp_right (dropLane_retired s p m l hclock)
/-- Every lane a mask leaves out is retired (R226). -/
theorem keepLanes_retires (mask : Nat) (hclock : s.clockLost = false) (l : Fin 8) (hout : bitAt mask l.val = false) :
    ((s.keepLanes p mask).port p).lanes[l].retired = true := by
  have hgone : (List.range 8).filter (fun l => !bitAt mask l) = ((List.finRange 8).filter (fun l : Fin 8 => !bitAt mask l.val)).map Fin.val := by
    rw [← List.map_coe_finRange_eq_range, List.filter_map]; rfl
  have hkept := lanes_dropLanes s p ((List.finRange 8).filter (fun l : Fin 8 => !bitAt mask l.val)) hclock l (.inl (by simp [hout]))
  change ((s.keepLanes p mask).lanes p)[l].retired = true
  rw [State.keepLanes, lanes_afterDrop, hgone, List.foldl_map]
  exact hkept

end

/-! Link messages (R220). -/

section
variable {s : State} {f : FlitRx} {hdr : Nat} {pay : Bytes} (h : FlitTaken s f hdr pay)
include h

/-- A link message leaves the buffer and acts on its port, which sends what came due (R223). -/
theorem withCtl_taken (htype : hdrType hdr = 3) {b : Nat} (hmsg : leAt pay 0 1 = b) (go : State → Bytes → State) :
    s.withCtl f b go = .next ((go ((s.flitTaken f).freeBuffer f.port hdr) pay).pump f.port) :=
  withFlit_taken h (by simp [isCtl, htype, hmsg]) _
/-- A LANE_RETIRE is answered on the lanes that both ends keep (R226). -/
theorem exec_laneRetire_taken (htype : hdrType hdr = 3) (hmsg : leAt pay 0 1 = 5) :
    let fewer := ((s.flitTaken f).freeBuffer f.port hdr).keepLanes f.port (leAt pay 1 1)
    exec (.laneRetire f) s = .next ((if (fewer.port f.port).retired then fewer
      else fewer.linkCtl f.port [6, BitVec.ofNat 8 (fewer.port f.port).keptMask]).pump f.port) := by
  change execLaneRetire f s = _
  unfold execLaneRetire
  rw [withCtl_taken h htype hmsg]
theorem exec_laneAck_taken (htype : hdrType hdr = 3) (hmsg : leAt pay 0 1 = 6) :
    exec (.laneAck f) s = .next ((((s.flitTaken f).freeBuffer f.port hdr).keepLanes f.port (leAt pay 1 1)).pump f.port) := by
  change execLaneAck f s = _
  unfold execLaneAck
  rw [withCtl_taken h htype hmsg]
theorem exec_subRetire_taken (htype : hdrType hdr = 3) (hmsg : leAt pay 0 1 = 7) :
    exec (.subRetire f) s = .next (((((s.flitTaken f).freeBuffer f.port hdr).linkCtl f.port ([8, 0] ++ bytesAt pay 2 2)).dropSubs f.port
      (leAt pay 2 2)).pump f.port) := by
  change execSubRetire f s = _
  unfold execSubRetire
  rw [withCtl_taken h htype hmsg]
theorem exec_subAck_taken (htype : hdrType hdr = 3) (hmsg : leAt pay 0 1 = 8) :
    exec (.subAck f) s = .next ((((s.flitTaken f).freeBuffer f.port hdr).dropSubs f.port (leAt pay 2 2)).pump f.port) := by
  change execSubAck f s = _
  unfold execSubAck
  rw [withCtl_taken h htype hmsg]
/-- A TABLE for one of the four generations waits for the blocks before it (R245, R248). -/
theorem exec_table_taken (htype : hdrType hdr = 3) (hmsg : leAt pay 0 1 = 2) (hslot : leAt pay 1 1 < 4) :
    let lens := (List.range 256).map (fun v => if v % 2 = 0 then fld (leAt pay (16 + v / 2) 1) 3 0 else fld (leAt pay (16 + v / 2) 1) 7 4)
    exec (.table f) s = .next ((((s.flitTaken f).freeBuffer f.port hdr).modPort f.port (fun k =>
      { k with rx := { k.rx with pend := k.rx.pend ++ [(leAt pay 1 1, ⟨leAt pay 2 1, lens⟩)] } })).pump f.port) := by
  change execTable f s = _
  unfold execTable
  rw [withCtl_taken h htype hmsg]
  dsimp only
  rw [if_pos hslot]
/-- A TABLE_ACK for the table that was offered puts it in use (R248). -/
theorem exec_tableAck_taken (htype : hdrType hdr = 3) (hmsg : leAt pay 0 1 = 3)
    (hout : (((s.flitTaken f).freeBuffer f.port hdr).port f.port).tx.tableOut = some (leAt pay 1 1)) :
    exec (.tableAck f) s = .next ((((s.flitTaken f).freeBuffer f.port hdr).modPort f.port (fun k => { k with tx := { k.tx with
      tableOut := none
      tables := k.tx.tables.setIfInBounds (leAt pay 1 1) ((k.tx.tables.toList.getD (leAt pay 1 1) none).map (fun t => (t.1, true))) } })).pump
        f.port) := by
  change execTableAck f s = _
  unfold execTableAck
  rw [withCtl_taken h htype hmsg]
  generalize (s.flitTaken f).freeBuffer f.port hdr = u at hout ⊢
  dsimp only [State.modPort]
  rw [if_pos hout]
/-- The raw copy that a BLOCK_NACK names is taken out and goes again RAW, until its third failure; a sub-stream that failed it three times is
declared faulty (R249, R250). -/
theorem exec_blockNack_taken (htype : hdrType hdr = 3) (hmsg : leAt pay 0 1 = 4) {r : RawCopy}
    (hraw : (s.port f.port).tx.raws.find? (fun r => r.sub == leAt pay 1 1 && r.first == some (leAt pay 2 2 % 4096)) = some r) :
    let v := ((s.flitTaken f).freeBuffer f.port hdr).modPort f.port (fun k =>
      { k with tx := { k.tx with
        q := k.tx.q.map (fun fs => fs.filter (fun f => f.blk != some r.id)), raws := k.tx.raws.filter (fun x => x.id != r.id) } })
    let w := if 2 ≤ r.fails.length then v.bump 3 f.port.val 7
      else v.queueBlock f.port r.hdr r.raw r.check (r.fails ++ [r.sub]) (plainBlock r.raw r.check, none)
    exec (.blockNack f) s = .next ((if 2 ≤ (r.fails.filter (· == r.sub)).length then w.declareSub f.port r.sub else w).pump f.port) := by
  change execBlockNack f s = _
  unfold execBlockNack
  dsimp only
  rw [h.payload, hraw, withCtl_taken h htype hmsg]
  simp [List.filter_append, Tx.unqueue, State.resendBlock]

end

theorem clockLost_freeBuffer (s : State) (p : Fin 32) (hdr : Nat) : (s.freeBuffer p hdr).clockLost = s.clockLost := by
  unfold State.freeBuffer; rfl
theorem clockLost_flitTaken (s : State) (f : FlitRx) : (s.flitTaken f).clockLost = s.clockLost := rfl

/-- Settles O29: a link message that is accepted acts on the state its flit leaves (`withCtl_taken`), and a lane once dropped is not
brought back by what the retirement of its port sets off (`lanes_afterDrop`). -/
theorem linkMessagesAct : Obligations.LinkMessagesAct := by
  intro s f hdr pay h htype
  have hclockLost : ((s.flitTaken f).freeBuffer f.port hdr).clockLost = s.clockLost :=
    (clockLost_freeBuffer ..).trans (clockLost_flitTaken ..)
  exact ⟨exec_table_taken h htype, exec_tableAck_taken h htype, fun hmsg r hraw => exec_blockNack_taken h htype hmsg hraw,
    exec_laneRetire_taken h htype, exec_laneAck_taken h htype,
    fun l hout hclock => keepLanes_retires _ f.port _ (hclockLost.trans hclock) l hout,
    exec_subRetire_taken h htype, exec_subAck_taken h htype⟩

end Sys2Proof.Machine
end

section
/-! Sends (R235 to R237, R239, R242, R271): a SEND whose source is good launches its blocks and stays at the head of its queue until each is
acknowledged; one whose source fails a tag launches none. -/
namespace Sys2Proof.Machine

/-! Its source (R236, R242). -/

theorem exists_of_bind_ok {ε α β : Type} {m : Except ε α} {f : α → Except ε β} {b : β} (h : (m >>= f) = .ok b) :
    ∃ a, m = .ok a ∧ f a = .ok b := by
  cases m with
  | error => cases h
  | ok a => exact ⟨a, rfl, h⟩

/-- The tags of a source are the last that is checked: a source that is good with them right ends with E_CHECK with one wrong (R242). -/
theorem sendSource_tagFail {h : Heat} {x : Site} {sp : Space} {q : Nat} {r : Desc × Bytes} (hsrc : sendSource h x sp false q = .ok r) :
    sendSource h x sp true q = .error eCheck := by
  have hlast {α : Type} (m : Except Nat α) (f g : α → Except Nat (Desc × Bytes)) (hf : (m >>= f) = .ok r)
      (hg : ∀ a, f a = .ok r → g a = .error eCheck) : (m >>= g) = .error eCheck := by
    obtain ⟨a, hm, ha⟩ := exists_of_bind_ok hf
    rw [hm]; exact hg a ha
  unfold sendSource at hsrc ⊢
  dsimp only at hsrc ⊢
  refine hlast _ _ _ hsrc fun _ hsrc => hlast _ _ _ hsrc fun _ hsrc => hlast _ _ _ hsrc fun d hsrc => ?_
  refine hlast _ _ _ hsrc fun _ hsrc => hlast _ _ _ hsrc fun _ hsrc => hlast _ _ _ hsrc fun _ hsrc => ?_
  refine hlast _ _ _ hsrc fun _ hsrc => hlast _ _ _ hsrc fun _ hsrc => hlast _ _ _ hsrc fun _ hsrc => hlast _ _ _ hsrc fun _ _ => ?_
  rfl

/-! Its start (R41, R237). -/

section
variable {s : State} {c : Fin 64} {x : Site} {e : QEntry} (hs : s.startable c qLink = some (x, e)) (hop : cmdOp e.raw = 0x30)

/-- The heat of a command that starts has changed its channels alone. -/
theorem heat_start (s : State) (c : Fin 64) (q : Fin 4) (x : Site) (e : QEntry) :
    (s.startCommand c q x e).1.heat x.h = { s.heat x.h with chans := ((s.heat x.h).takeChans x.own e.raw).chans } := by
  rw [(start_between s c q x e).heats, if_pos rfl]
  exact takeChans_only ..
theorem sendSource_start (s : State) (c : Fin 64) (x : Site) (e : QEntry) (sp : Space) (tagFail : Bool) (q : Nat) :
    sendSource ((s.startCommand c qLink x e).1.heat x.h) x sp tagFail q = sendSource (s.heat x.h) x sp tagFail q := by
  rw [heat_start]; rfl
/-- A command that fails leaves what its heat awaits and what waits to land there. -/
theorem failCommand_blocks (s : State) (c : Fin 64) (q : Fin 4) (x : Site) (e : QEntry) (status : Nat) (hroot : (s.heat x.h).isRoot = false) :
    let t := (s.failCommand c q x e status).refreshHeld x.h
    (t.cl c).halted = some status ∧ (t.heat x.h).sent = (s.heat x.h).sent ∧ (t.heat x.h).ejected = (s.heat x.h).ejected := by
  obtain ⟨u, hu, hhalt, hheat, -⟩ := failCommand_eq_request s c q x e status
  have hhold := (holdOnly_request u x.h 6 status ((hheat x.h).symm ▸ hroot)).trans (holdOnly_refreshHeld _ x.h)
  rw [hu]
  exact ⟨by rw [hhold.cl, hhalt], by rw [hhold.heats, hheat], by rw [hhold.heats, hheat]⟩

include hs hop

/-- A SEND with a tag wrong in its source ends with E_CHECK before a block leaves (R242). -/
theorem State.runSend_tagFails {r : Desc × Bytes} (hsrc : sendSource (s.heat x.h) x (s.space x) false e.raw = .ok r)
    (hroot : (s.heat x.h).isRoot = false) :
    ∃ t, s.runSend c true (bitAt e.raw 134) = .next t ∧ (t.cl c).halted = some eCheck ∧ (t.heat x.h).sent = (s.heat x.h).sent ∧
      (t.heat x.h).ejected = (s.heat x.h).ejected := by
  have hfails : sendSource ((s.startCommand c qLink x e).1.heat x.h) x ((s.startCommand c qLink x e).1.space x) true (s.latch c e).raw =
      .error eCheck := by
    rw [sendSource_start, space_start]; exact sendSource_tagFail hsrc
  obtain ⟨hhalt, hsent, hejected⟩ := failCommand_blocks (s.startCommand c qLink x e).1 c qLink x (s.latch c e) eCheck
    (by rw [heat_start]; exact hroot)
  rw [heat_start] at hsent hejected
  refine ⟨_, ?_, hhalt, hsent, hejected⟩
  simp only [State.runSend, hs, hop, beq_self_eq_true, Bool.and_self, if_true, start_entry, hfails]
end

/-! Its blocks (R237, R239, R271, R272). -/

/-- The state of a SEND that has started: it stays at the head of its queue for its acknowledgements (R237). -/
def State.sending (s : State) (c : Fin 64) (x : Site) (e : QEntry) : State :=
  (s.startCommand c qLink x e).1.modCl c (fun k => k.setHead qLink { s.latch c e with phase := .sending })
/-- What a heat awaits of the blocks of a SEND, each with its tag. -/
def sentBlocks (h : Heat) (c : Fin 64) (e : QEntry) (blocks : List (Nat × Nat × Bytes)) : List SentBlock :=
  blocks.map (fun b => ⟨c.val, e.ord, fld e.raw 99 88, b.1, bitAt e.raw 134, h.epoch, b.2.1, b.2.2.length / 32⟩)
/-- What waits to land here of the blocks of a SEND, each with its tag: all of them where it is to this module. -/
def selfBlocks (h : Heat) (e : QEntry) (blocks : List (Nat × Nat × Bytes)) : List Ejected :=
  if fld e.raw 99 88 = h.ownId then
    blocks.map (fun b => ⟨32, h.ownId, b.1, bitAt e.raw 134, if bitAt e.raw 134 then h.hu.step % 2 else 0, h.epoch, b.2.1, b.2.2⟩)
  else []

theorem sentBlocks_append (h : Heat) (c : Fin 64) (e : QEntry) (as bs : List (Nat × Nat × Bytes)) :
    sentBlocks h c e (as ++ bs) = sentBlocks h c e as ++ sentBlocks h c e bs := List.map_append
theorem selfBlocks_append (h : Heat) (e : QEntry) (as bs : List (Nat × Nat × Bytes)) :
    selfBlocks h e (as ++ bs) = selfBlocks h e as ++ selfBlocks h e bs := by
  unfold selfBlocks
  split
  · exact List.map_append
  · rfl

section
variable {s t : State} {c : Fin 64} {x : Site} {e : QEntry}

theorem Launched.blocks {a : List SentBlock} {b : List Ejected} (h : Launched s t x a b) (c : Fin 64) (e : QEntry) :
    sentBlocks (t.heat x.h) c e = sentBlocks (s.heat x.h) c e ∧ selfBlocks (t.heat x.h) e = selfBlocks (s.heat x.h) e := by
  rw [h.heats, if_pos rfl]
  exact ⟨rfl, rfl⟩
theorem Launched.andHold {u : State} {a : List SentBlock} {b : List Ejected} (h : Launched s t x a b) (k : HoldOnly t u) :
    Launched s u x a b := by
  simpa using h.trans (Launched.hold k x)
theorem latch_raw (s : State) (c : Fin 64) (e : QEntry) : (s.latch c e).raw = e.raw := rfl
/-- The blocks of one tag. -/
theorem launches_tag (s : State) (c : Fin 64) (x : Site) (e : QEntry) (cls tag : Nat) (copy : Bool) (bs : List (Nat × Bytes)) :
    Launched s (bs.foldl (fun s b => s.launch c x e cls tag copy b) s) x (sentBlocks (s.heat x.h) c e (bs.map (fun b => (tag, b))))
      (selfBlocks (s.heat x.h) e (bs.map (fun b => (tag, b)))) := by
  rw [sentBlocks, selfBlocks, List.map_map, List.map_map]
  exact launches_launched s c x e cls tag copy bs
/-- The blocks of a tag and their second copies to its twin (R271). -/
theorem launches_twin (s : State) (c : Fin 64) (x : Site) (e : QEntry) (cls tag twin : Nat) (bs : List (Nat × Bytes)) :
    let blocks := [tag, twin].flatMap (fun t => bs.map (fun b => (t, b)))
    Launched s (bs.foldl (fun s b => s.launch c x e cls twin true b) (bs.foldl (fun s b => s.launch c x e cls tag false b) s)) x
      (sentBlocks (s.heat x.h) c e blocks) (selfBlocks (s.heat x.h) e blocks) := by
  have hfirst := launches_tag s c x e cls tag false bs
  have hsecond := launches_tag (bs.foldl (fun s b => s.launch c x e cls tag false b) s) c x e cls twin true bs
  obtain ⟨hsent, hself⟩ := hfirst.blocks c e
  rw [hsent, hself] at hsecond
  have hboth := hfirst.trans hsecond
  rw [← selfBlocks_append, ← sentBlocks_append] at hboth
  simpa only [List.flatMap_cons, List.flatMap_nil, List.append_nil] using hboth

variable (hs : s.startable c qLink = some (x, e)) (hop : cmdOp e.raw = 0x30)

theorem sending_cl (s : State) (c : Fin 64) (x : Site) (e : QEntry) :
    (s.sending c x e).cl c = (s.cl c).setHead qLink { s.latch c e with phase := .sending } := by
  rw [State.sending, State.cl_modCl_same, (start_between s c qLink x e).cl, Cluster.setHead_setHead]
theorem sending_others (s : State) {c d : Fin 64} (x : Site) (e : QEntry) (hd : d ≠ c) : (s.sending c x e).cl d = s.cl d := by
  rw [State.sending, State.cl_modCl_ne _ _ _ _ hd.symm, (start_between s c qLink x e).others d hd]
theorem sending_heat (s : State) (c : Fin 64) (x : Site) (e : QEntry) (j : Fin 4) :
    (s.sending c x e).heat j = { s.heat j with
      chans := if j = x.h then ((s.heat x.h).takeChans x.own e.raw).chans else (s.heat j).chans } := by
  by_cases hj : j = x.h
  · subst hj; rw [if_pos rfl]; exact heat_start s c qLink x e
  · rw [if_neg hj]
    exact ((start_between s c qLink x e).heats j).trans (if_neg hj)

include hs hop

/-- A SEND with a good source launches its blocks, and their second copies (R237, R271). -/
theorem State.runSend_launches {d : Desc} {bs : Bytes} (hsrc : sendSource (s.heat x.h) x (s.space x) false e.raw = .ok (d, bs)) :
    let copies : List Nat := if bitAt e.raw 134 then [] else ((s.heat x.h).sampled x.prog (fld e.raw 111 100) (fld e.raw 99 88)).toList
    let blocks := (fld e.raw 111 100 :: copies).flatMap (fun t => (sendBlocks (fld e.raw 133 112) bs).map (fun b => (t, b)))
    ∃ t, s.runSend c false (bitAt e.raw 134) = .next t ∧
      Launched (s.sending c x e) t x (sentBlocks (s.heat x.h) c e blocks) (selfBlocks (s.heat x.h) e blocks) := by
  intro copies blocks
  have hgood : sendSource ((s.startCommand c qLink x e).1.heat x.h) x ((s.startCommand c qLink x e).1.space x) false e.raw =
      .ok (d, bs) := by
    rw [sendSource_start, space_start]; exact hsrc
  have hheat : (s.sending c x e).heat x.h = { s.heat x.h with chans := ((s.heat x.h).takeChans x.own e.raw).chans } :=
    (sending_heat s c x e x.h).trans (by rw [if_pos rfl])
  have hsampled : ((s.startCommand c qLink x e).1.heat x.h).sampled = (s.heat x.h).sampled := by rw [heat_start]; rfl
  have hsent : sentBlocks (s.heat x.h) c e = sentBlocks ((s.sending c x e).heat x.h) c e := by rw [hheat]; rfl
  have hself : selfBlocks (s.heat x.h) e = selfBlocks ((s.sending c x e).heat x.h) e := by rw [hheat]; rfl
  have hcopies : copies = (if bitAt e.raw 134 then none
      else (s.heat x.h).sampled x.prog (fld e.raw 111 100) (fld e.raw 99 88)).toList := by
    rw [apply_ite Option.toList]; rfl
  unfold State.runSend
  simp only [hs, hop, beq_self_eq_true, Bool.and_self, if_true, start_entry, hgood, hsampled, latch_raw, hsent, hself, blocks, hcopies]
  generalize (if bitAt e.raw 134 then none else (s.heat x.h).sampled x.prog (fld e.raw 111 100) (fld e.raw 99 88)) = twin
  refine ⟨_, rfl, ?_⟩
  have hhold (u : State) : HoldOnly u (u.refreshHeld x.h) := holdOnly_refreshHeld u x.h
  cases twin with
  | none =>
    rw [Option.toList_none, List.flatMap_singleton]
    exact (launches_tag (s.sending c x e) c x (s.latch c e) _ _ false _).andHold (hhold _)
  | some t => exact (launches_twin (s.sending c x e) c x (s.latch c e) _ _ t _).andHold (hhold _)

end

/-! Its end (R237). -/

/-- A SEND of which a block is not acknowledged waits on. -/
theorem settleSend_awaits {s : State} {c : Fin 64} {x : Site} {e : QEntry} {rest : List QEntry} (hsite : s.site c = some x)
    (hqueue : (s.cl c).queues[qLink] = e :: rest) (hawaits : (s.heat x.h).awaits c.val e.ord = true) : s.settleSend c e.ord = s := by
  unfold State.settleSend
  rw [hsite, hqueue]
  dsimp only
  rw [if_neg (by simp [hawaits])]
/-- A SEND of which every block is acknowledged completes. -/
theorem settleSend_completes {s : State} {c : Fin 64} {x : Site} {e : QEntry} {rest : List QEntry} (hsite : s.site c = some x)
    (hqueue : (s.cl c).queues[qLink] = e :: rest) (hsending : e.phase = .sending) (hawaits : (s.heat x.h).awaits c.val e.ord = false) :
    s.settleSend c e.ord = (s.complete c qLink x e).refreshHeld x.h := by
  unfold State.settleSend
  rw [hsite, hqueue]
  dsimp only
  rw [if_pos (by simp [hawaits, hsending])]
/-- The completion of a SEND takes it off its queue and puts its record in the ring. -/
theorem settleSend_done {s : State} {c : Fin 64} {x : Site} {e : QEntry} {rest : List QEntry} (hqueue : (s.cl c).queues[qLink] = e :: rest) :
    let t := (s.complete c qLink x e).refreshHeld x.h
    (t.cl c).queues = (s.cl c).queues.set qLink rest ∧ (t.cl c).store = (s.cl c).store ∧ (∀ d, d ≠ c → t.cl d = s.cl d) ∧
      ∃ r, (t.cl c).splits.getLast? = some r ∧ r.cmdId = fld e.raw 47 32 ∧ r.opcode = cmdOp e.raw ∧ r.startT = e.startT ∧
        r.endT = s.ticks ∧ r.status = 0 := by
  obtain ⟨r, hdone, -, hid, hop, -, hstart, hend, hstatus⟩ := complete_finished s c qLink x e
  intro t
  have hhold : HoldOnly (s.complete c qLink x e) t := holdOnly_refreshHeld _ x.h
  have hcl : t.cl c = (((s.cl c).addSplit r).popHead qLink).noteDone qLink e s.now := (hhold.cl c).trans hdone.cl
  refine ⟨?_, by rw [hcl]; rfl, fun d hd => (hhold.cl d).trans (hdone.others d hd), r, ?_, hid, hop, hstart, hend, hstatus⟩
  · rw [hcl]
    change (s.cl c).queues.set qLink ((s.cl c).queues[qLink].drop 1) = _
    rw [hqueue]; rfl
  · rw [hcl]; exact addSplit_last ..

/-- What a SEND that leaves changes, told of the state before it (R237). -/
theorem sending_leaves {s t : State} {c : Fin 64} {x : Site} {e : QEntry} {sent : List SentBlock} {ejected : List Ejected}
    (h : Launched (s.sending c x e) t x sent ejected) :
    (t.heat x.h).sent = (s.heat x.h).sent ++ sent ∧ (t.heat x.h).ejected = (s.heat x.h).ejected ++ ejected ∧
      t.cl c = (s.cl c).setHead qLink { s.latch c e with phase := .sending } ∧ (∀ k, k ≠ c → t.cl k = s.cl k) ∧
      (∀ j, t.heat j = { s.heat j with
        sent := (t.heat j).sent, ejected := (t.heat j).ejected, hu := (s.heat j).hu.heldAs (t.heat j).hu
        chans := if j = x.h then ((s.heat x.h).takeChans x.own e.raw).chans else (s.heat j).chans }) ∧
      (∀ j, j ≠ x.h → (t.heat j).sent = (s.heat j).sent ∧ (t.heat j).ejected = (s.heat j).ejected) ∧
      (∀ p, t.port p = (s.port p).sentAs (t.port p)) ∧ t.com = { s.com with ctrs := t.com.ctrs } ∧ t.now = s.now ∧ t.pending = s.pending := by
  have hcl (d : Fin 64) : t.cl d = (s.sending c x e).cl d := by simp only [State.cl, h.clusters]
  have hown := h.heats x.h
  rw [if_pos rfl, sending_heat] at hown
  refine ⟨by rw [hown], by rw [hown], (hcl c).trans (sending_cl s c x e), fun d hd => (hcl d).trans (sending_others s x e hd),
    fun j => ?_, fun j hj => ?_, h.ports, h.com, h.now, h.pending⟩
  · have hj := h.heats j
    rw [sending_heat] at hj
    by_cases hx : j = x.h
    · subst hx
      rw [if_pos rfl, if_pos rfl] at hj
      rw [if_pos rfl, hj]; rfl
    · rw [if_neg hx, if_neg hx] at hj
      rw [if_neg hx, hj]; rfl
  · have hother := h.heats j
    rw [if_neg hj, sending_heat] at hother
    rw [hother]
    exact ⟨rfl, rfl⟩

/-- Settles O10: a SEND launches its blocks after its start (`State.runSend_launches`), and its completion is that of any command. -/
theorem sendsLeave : Obligations.SendsLeave := by
  refine ⟨fun s c x e d bs hs hop => ?_, fun s c x e rest hsite hqueue hsending => ⟨settleSend_awaits hsite hqueue, fun hawaits => ?_⟩⟩
  · intro h q dest tag hsrc copies blocks leaves tagFails
    obtain ⟨t, hrun, hlaunched⟩ := State.runSend_launches hs hop hsrc
    have hleaves {i : Instr} (hi : exec i s = s.runSend c false (bitAt e.raw 134)) : leaves i :=
      ⟨t, hi.trans hrun, sending_leaves hlaunched⟩
    have htag {i : Instr} (hi : exec i s = s.runSend c true (bitAt e.raw 134)) : tagFails i := fun hroot =>
      hi ▸ State.runSend_tagFails hs hop hsrc hroot
    refine ⟨fun hkind => ?_, fun hkind => ?_⟩
    · exact ⟨hleaves (by rw [hkind]; rfl), htag (by rw [hkind]; rfl)⟩
    · exact ⟨hleaves (by rw [hkind]; rfl), htag (by rw [hkind]; rfl)⟩
  · intro t
    rw [show t = _ from settleSend_completes hsite hqueue hsending hawaits]
    exact settleSend_done hqueue

end Sys2Proof.Machine
end

section
/-! Receives (R240 to R242, R271, R272): once the bytes of a RECV have landed, WAIT completes and a COMBINE writes its destination, or ends with
E_CHECK and writes nothing. -/
namespace Sys2Proof.Machine

section
variable {s : State} {c : Fin 64} {x : Site} {e : QEntry} {isMode : Nat → Bool}

/-- A count that has landed in full is neither too many bytes nor too few (R241). -/
theorem landed_all {counts : List Nat} {want : Nat} (h : ∀ n ∈ counts, n = want) :
    counts.any (want < ·) = false ∧ counts.any (· != want) = false := by
  simp only [List.any_eq_false, decide_eq_true_eq, bne_iff_ne, ne_eq, not_not, not_lt]
  exact ⟨fun n hn => (h n hn).le, h⟩
/-- A command that fails once started stops its cluster, and memory is as before its start (R44). -/
theorem failCommand_started (s : State) (c : Fin 64) (q : Fin 4) (x : Site) (e : QEntry) (status : Nat) (hroot : (s.heat x.h).isRoot = false) :
    let t := ((s.startCommand c q x e).1.failCommand c q x (s.latch c e) status).refreshHeld x.h
    (t.cl c).halted = some status ∧ (t.heat x.h).mem = (s.heat x.h).mem ∧ ∀ d, (t.cl d).store = (s.cl d).store := by
  have hstart := start_between s c q x e
  obtain ⟨hhalt, hmem, hstore⟩ := failCommand_effect (s.startCommand c q x e).1 c q x (s.latch c e) status (by rw [heat_start]; exact hroot)
  refine ⟨hhalt, hmem.trans (by rw [heat_start]), fun d => (hstore d).trans ?_⟩
  by_cases hd : d = c
  · subst hd
    rw [hstart.cl]
    rfl
  · rw [hstart.others d hd]

variable (hs : s.startable c qLink = some (x, e)) (hop : cmdOp e.raw = 0x31) (hmode : isMode (recvMode e.raw) = true)
  (hlanded : (s.heat x.h).landedBytes (fld e.raw 123 112) = recvExpect e.raw)
include hs hop hmode hlanded

/-- A WAIT of which every byte has landed completes, and changes nothing (R241). -/
theorem State.runRecv_wait (hcheck : recvCheck x (s.space x) e.raw = .ok none) :
    s.runRecv c false isMode = .next (((s.startCommand c qLink x e).1.complete c qLink x (s.latch c e)).refreshHeld x.h) := by
  simp [State.runRecv, hs, hop, hmode, hcheck, hlanded, start_entry]

section
variable {cb : Combine} (hcheck : recvCheck x (s.space x) e.raw = .ok (some cb))
  (htwin : ∀ t, (s.heat x.h).sampled x.prog (fld e.raw 123 112) (s.heat x.h).ownId = some t →
    (s.heat x.h).landedBytes t = recvExpect e.raw)
include hcheck htwin

/-- A COMBINE with a wrong tag ends with E_CHECK (R242). -/
theorem State.runRecv_tagFails : s.runRecv c true isMode =
    .next (((s.startCommand c qLink x e).1.failCommand c qLink x (s.latch c e) eCheck).refreshHeld x.h) := by
  obtain ⟨hmany, hfew⟩ := landed_all (counts := (s.heat x.h).landedBytes (fld e.raw 123 112) ::
    (((s.heat x.h).sampled x.prog (fld e.raw 123 112) (s.heat x.h).ownId).map (s.heat x.h).landedBytes).toList) (want := recvExpect e.raw)
    (by simpa [hlanded] using htwin)
  simp [State.runRecv, hs, hop, hmode, hcheck, hmany, hfew, start_entry]
/-- A COMBINE whose rows all combine, with no mismatch, writes them and completes (R241). -/
theorem State.runRecv_combines
    (hstatus : (combineRun cb (s.space x) (x.prog.tagBase (fld e.raw 123 112))
      (((s.heat x.h).sampled x.prog (fld e.raw 123 112) (s.heat x.h).ownId).map x.prog.tagBase) (recvMode e.raw == 1)).1.status = 0)
    (hsame : (combineRun cb (s.space x) (x.prog.tagBase (fld e.raw 123 112))
      (((s.heat x.h).sampled x.prog (fld e.raw 123 112) (s.heat x.h).ownId).map x.prog.tagBase) (recvMode e.raw == 1)).2 = false) :
    let twin := (s.heat x.h).sampled x.prog (fld e.raw 123 112) (s.heat x.h).ownId
    let o := combineRun cb (s.space x) (x.prog.tagBase (fld e.raw 123 112)) (twin.map x.prog.tagBase) (recvMode e.raw == 1)
    let u := (s.startCommand c qLink x e).1.putSpace x o.1.sp
    s.runRecv c false isMode =
      .next (((if twin.isSome then u.bump 8 x.h.val 16 else u).complete c qLink x (s.latch c e)).refreshHeld x.h) := by
  obtain ⟨hmany, hfew⟩ := landed_all (counts := (s.heat x.h).landedBytes (fld e.raw 123 112) ::
    (((s.heat x.h).sampled x.prog (fld e.raw 123 112) (s.heat x.h).ownId).map (s.heat x.h).landedBytes).toList) (want := recvExpect e.raw)
    (by simpa [hlanded] using htwin)
  simp [State.runRecv, hs, hop, hmode, hcheck, hmany, hfew, start_entry, space_start, latch_raw, hstatus, hsame, State.endCommand]

end

end

/-- A COMBINE that has written its destination and completed has changed no place outside it (R241). -/
theorem combine_done {s : State} {c : Fin 64} {x : Site} {e : QEntry} {cb : Combine} {u : State} {o : MovOut}
    (hs : s.startable c qLink = some (x, e)) (hleaves : Space.Leaves (Untouched (s.space x).hm cb.d.ranges) (s.space x) o.sp)
    (hu : Counted ((s.startCommand c qLink x e).1.putSpace x o.sp) u) :
    let t := (u.complete c qLink x (s.latch c e)).refreshHeld x.h
    CommandDone s t c qLink x e [] ∧ MoverFrame s t c x ∧ t.space x = o.sp ∧
      ∀ l, Untouched (s.space x).hm cb.d.ranges l → (t.space x).at l = (s.space x).at l := by
  have hclusters : ((s.startCommand c qLink x e).1.heat x.h).clusterList = (s.heat x.h).clusterList := by rw [heat_start]; rfl
  have hlen : o.sp.stores.length = (s.heat x.h).clusterList.length := hleaves.stores.trans (List.length_map ..)
  have hwrote := (putSpace_wrote (s.startCommand c qLink x e).1 c x o.sp (hclusters ▸ site_own (startable_site hs))
    (hclusters ▸ hlen)).counts hu
  obtain ⟨hdone, hframe, hspace⟩ := space_done s u c qLink x e o.sp hs ⟨hleaves.hm, hleaves.own, hleaves.staging, hlen⟩ hwrote
  exact ⟨hdone, hframe, hspace, fun l hl => by rw [hspace]; exact hleaves.same l hl⟩
/-- A WAIT that has completed has changed nothing of its cluster but its queue and ring (R241). -/
theorem wait_done (s : State) (c : Fin 64) (x : Site) (e : QEntry) :
    let t := ((s.startCommand c qLink x e).1.complete c qLink x (s.latch c e)).refreshHeld x.h
    CommandDone s t c qLink x e [] ∧ EngineFrame s t c x ∧ (t.cl c).store = (s.cl c).store ∧ (t.cl c).core = (s.cl c).core ∧
      (t.cl c).acc = (s.cl c).acc ∧ (t.cl c).rowBuf = (s.cl c).rowBuf := by
  obtain ⟨hdone, hframe, hstore, hsums, hacc, hrow⟩ := engine_done s (s.startCommand c qLink x e).1 c qLink x e (s.cl c).store (s.cl c).acc
    (s.cl c).rowBuf (s.cl c).core.sums [] (start_between s c qLink x e)
  exact ⟨hdone, hframe, hstore, core_of hframe hsums, hacc, hrow⟩

/-- Settles O11: a WAIT completes as an engine that wrote nothing does (`wait_done`), a COMBINE as one that wrote its destination
(`combine_done`). -/
theorem receivesComplete : Obligations.ReceivesComplete := by
  intro s c x e hs hop h q tag sp hlanded
  have hwaits (hwait : recvMode q = 0) (hcheck : recvCheck x sp q = .ok none) := State.runRecv_wait (isMode := fun m => m == 0 || m == 3)
    hs hop (by rw [hwait]; rfl) hlanded hcheck
  refine ⟨fun hwait hcheck => ⟨_, hwaits hwait hcheck, wait_done s c x e⟩, fun cb hcheck => ?_⟩
  intro twin htwin combines tagFails
  have hcombines {i : Instr} {left : Bool} {isMode : Nat → Bool} (hi : exec i s = s.runRecv c false isMode)
      (hmode : isMode (recvMode q) = true) (hleft : (recvMode q == 1) = left) : combines i left := by
    intro hstatus hsame
    subst hleft
    refine ⟨_, hi.trans (State.runRecv_combines hs hop hmode hlanded hcheck htwin hstatus hsame), combine_done hs ?_ ?_⟩
    · exact leaves_combineRun cb sp _ _ _ (recvCheck_fmt hcheck)
    · exact counted_ite _ (counted_bump ..) (counted_refl _)
  have htag {i : Instr} {isMode : Nat → Bool} (hi : exec i s = s.runRecv c true isMode) (hmode : isMode (recvMode q) = true) :
      tagFails i := fun hroot =>
    ⟨_, hi.trans (State.runRecv_tagFails hs hop hmode hlanded hcheck htwin), failCommand_started s c qLink x _ eCheck hroot⟩
  refine ⟨fun hmode => ?_, fun hmode => ?_⟩
  · exact ⟨hcombines (isMode := (· == 1)) rfl (by rw [hmode]; rfl) (by rw [hmode]; rfl), htag (isMode := (· == 1)) rfl (by rw [hmode]; rfl)⟩
  · exact ⟨hcombines (isMode := (· == 2)) rfl (by rw [hmode]; rfl) (by rw [hmode]; rfl), htag (isMode := (· == 2)) rfl (by rw [hmode]; rfl)⟩

end Sys2Proof.Machine
end

section
/-! The invariant (R40, R151, R224, R258, R324, R353, R383, R385, R393, R412): every command keeps it, and so does the tick of an empty queue. -/
namespace Sys2Proof.Machine

/-- Every command keeps the invariant: one lemma for each row of Dispatch. -/
theorem keep_exec (i : Instr) (s : State) (h : s.Inv) : Keeps (exec i s) :=
  match i with
  | .matmul c => keep_execMatmul c s h
  | .convFwd c => keep_execConvFwd c s h
  | .convDgrad c => keep_execConvDgrad c s h
  | .convWgrad c => keep_execConvWgrad c s h
  | .maxpool c => keep_execMaxpool c s h
  | .avgpool c => keep_execAvgpool c s h
  | .vec c => keep_execVec c s h
  | .sum c => keep_execSum c s h
  | .sumsq c => keep_execSumsq c s h
  | .reduceMax c => keep_execReduceMax c s h
  | .reduceMin c => keep_execReduceMin c s h
  | .meanvar c => keep_execMeanvar c s h
  | .softmax c => keep_execSoftmax c s h
  | .softmaxBwd c => keep_execSoftmaxBwd c s h
  | .gather c => keep_execGather c s h
  | .store c tagFail => keep_execStore c tagFail s h
  | .fadd c tagFail => keep_execFadd c tagFail s h
  | .iadd c tagFail => keep_execIadd c tagFail s h
  | .imax c tagFail => keep_execImax c tagFail s h
  | .imin c tagFail => keep_execImin c tagFail s h
  | .plain c tagFail => keep_execPlain c tagFail s h
  | .kvRead c => keep_execKvRead c s h
  | .kvWrite c tagFail => keep_execKvWrite c tagFail s h
  | .alloc c tagFail => keep_execAlloc c tagFail s h
  | .share c tagFail => keep_execShare c tagFail s h
  | .cow c tagFail => keep_execCow c tagFail s h
  | .free c tagFail => keep_execFree c tagFail s h
  | .send c tagFail => keep_execSend c tagFail s h
  | .sendBaton c tagFail => keep_execSendBaton c tagFail s h
  | .wait c => keep_execWait c s h
  | .combineLeft c tagFail => keep_execCombineLeft c tagFail s h
  | .combineRight c tagFail => keep_execCombineRight c tagFail s h
  | .hurdle c => keep_execHurdle c s h
  | .blkIssue c => keep_execBlkIssue c s h
  | .streamFetch c => keep_execStreamFetch c s h
  | .encIssue c => keep_execEncIssue c s h
  | .encWait c => keep_execEncWait c s h
  | .encodeRequestStart c => keep_execEncodeRequestStart c s h
  | .encodeComplete c tagFail => keep_execEncodeComplete c tagFail s h
  | .sumGet c => keep_execSumGet c s h
  | .bsumFlt c => keep_execBsumFlt c s h
  | .bsumFge c => keep_execBsumFge c s h
  | .bsumFeq c => keep_execBsumFeq c s h
  | .bsumFne c => keep_execBsumFne c s h
  | .bsumNan c => keep_execBsumNan c s h
  | .bsumUlt c => keep_execBsumUlt c s h
  | .bsumUge c => keep_execBsumUge c s h
  | .tcpConnect conn addr tcpPort => keep_execTcpConnect conn addr tcpPort s h
  | .tcpLoss conn => keep_execTcpLoss conn s h
  | .attachPhase0 m => keep_execAttachPhase0 m s h
  | .attachPhase1 m sigOk decapOk => keep_execAttachPhase1 m sigOk decapOk s h
  | .listenTimeout conn => keep_execListenTimeout conn s h
  | .challengedTimeout conn => keep_execChallengedTimeout conn s h
  | .leaseExpiry conn => keep_execLeaseExpiry conn s h
  | .orphanGraceExpiry => keep_execOrphanGraceExpiry s h
  | .detach m => keep_execDetach m s h
  | .loadFw m sigOk => keep_execLoadFw m sigOk s h
  | .writeConfig m sigOk => keep_execWriteConfig m sigOk s h
  | .resetHeat m => keep_execResetHeat m s h
  | .resetModule m => keep_execResetModule m s h
  | .loadImage m => keep_execLoadImage m s h
  | .start m => keep_execStart m s h
  | .stopAtHurdle m => keep_execStopAtHurdle m s h
  | .checkpointNow m => keep_execCheckpointNow m s h
  | .rearm m => keep_execRearm m s h
  | .queryStatus m => keep_execQueryStatus m s h
  | .queryInventory m => keep_execQueryInventory m s h
  | .queryAttest m => keep_execQueryAttest m s h
  | .snapshot m => keep_execSnapshot m s h
  | .splits m => keep_execSplits m s h
  | .queryDump m => keep_execQueryDump m s h
  | .readLifelog m => keep_execReadLifelog m s h
  | .join f => keep_execJoin f s h
  | .arrive f => keep_execArrive f s h
  | .hold f => keep_execHold f s h
  | .request f => keep_execRequest f s h
  | .decideGo f => keep_execDecideGo f s h
  | .decideFalseStart f => keep_execDecideFalseStart f s h
  | .decideStop f => keep_execDecideStop f s h
  | .feedQuery f => keep_execFeedQuery f s h
  | .feedReply f => keep_execFeedReply f s h
  | .arrival hi => keep_execArrival hi s h
  | .windowExpiry hi => keep_execWindowExpiry hi s h
  | .joinLate hi => keep_execJoinLate hi s h
  | .decideTimeout hi => keep_execDecideTimeout hi s h
  | .heldTooLong hi => keep_execHeldTooLong hi s h
  | .laneFrame p lane hdr fec => keep_execLaneFrame p lane hdr fec s h
  | .dataFlit f => keep_execDataFlit f s h
  | .idle f => keep_execIdle f s h
  | .replay f => keep_execReplay f s h
  | .replayTimeout p => keep_execReplayTimeout p s h
  | .ack f => keep_execAck f s h
  | .ackFlush hi dest => keep_execAckFlush hi dest s h
  | .landingWrite hi tagFail => keep_execLandingWrite hi tagFail s h
  | .hello f => keep_execHello f s h
  | .table f => keep_execTable f s h
  | .tableInstall p => keep_execTableInstall p s h
  | .tableAck f => keep_execTableAck f s h
  | .blockNack f => keep_execBlockNack f s h
  | .laneRetire f => keep_execLaneRetire f s h
  | .laneAck f => keep_execLaneAck f s h
  | .subRetire f => keep_execSubRetire f s h
  | .subAck f => keep_execSubAck f s h
  | .portRetrainTimeout p => keep_execPortRetrainTimeout p s h
  | .laneTraining p lane ok => keep_execLaneTraining p lane ok s h
  | .memReadDecode hi granule reads reader => keep_execMemReadDecode hi granule reads reader s h
  | .migrationLine ch unreadable => keep_execMigrationLine ch unreadable s h
  | .eccCountPoll counts => keep_execEccCountPoll counts s h
  | .dqsTracking => keep_execDqsTracking s h
  | .memTraining ch ok => keep_execMemTraining ch ok s h
  | .serviceAdmit ch repair programWaiting granules => keep_execServiceAdmit ch repair programWaiting granules s h
  | .sampleFetch hi => keep_execSampleFetch hi s h
  | .rdmaReadResponse hi fp server data nak bad => keep_execRdmaReadResponse hi fp server data nak bad s h
  | .recordLanded hi sample => keep_execRecordLanded hi sample s h
  | .ackTimeout hi fp server => keep_execAckTimeout hi fp server s h
  | .nakRetry hi fp server => keep_execNakRetry hi fp server s h
  | .cePacket hi fp server => keep_execCePacket hi fp server s h
  | .cnpReceived hi fp server => keep_execCnpReceived hi fp server s h
  | .rateRecovery hi fp server => keep_execRateRecovery hi fp server s h
  | .arpRequest fp target => keep_execArpRequest fp target s h
  | .neighborSolicitation fp target => keep_execNeighborSolicitation fp target s h
  | .feedPortLinkDown fp => keep_execFeedPortLinkDown fp s h
  | .partDecoded hi sample partNo out => keep_execPartDecoded hi sample partNo out s h
  | .samplePost hi => keep_execSamplePost hi s h
  | .survey hi sample partNo out => keep_execSurvey hi sample partNo out s h
  | .pictureDecoded pair read planes => keep_execPictureDecoded pair read planes s h
  | .mediaWatchdog unitNo why => keep_execMediaWatchdog unitNo why s h
  | .pwrEnRise lowMs => keep_execPwrEnRise lowMs s h
  | .railStep => keep_execRailStep s h
  | .railFailure => keep_execRailFailure s h
  | .pwrEnFall => keep_execPwrEnFall s h
  | .brownOut mv => keep_execBrownOut mv s h
  | .brownOutEnd mv => keep_execBrownOutEnd mv s h
  | .inputUndervoltage mv => keep_execInputUndervoltage mv s h
  | .inputOvervoltage mv => keep_execInputOvervoltage mv s h
  | .inputRecovery mv => keep_execInputRecovery mv s h
  | .powerAverage watts mv => keep_execPowerAverage watts mv s h
  | .shedRound => keep_execShedRound s h
  | .hardwareLimit watts => keep_execHardwareLimit watts s h
  | .heartbeatLapse => keep_execHeartbeatLapse s h
  | .sensorRead quarterC boardQuarterC => keep_execSensorRead quarterC boardQuarterC s h
  | .thermalTrip sensor => keep_execThermalTrip sensor s h
  | .clockLoss => keep_execClockLoss s h
  | .clockReturn => keep_execClockReturn s h
  | .clockLossTimeout => keep_execClockLossTimeout s h
  | .clusterIdle c => keep_execClusterIdle c s h
  | .paceEvaluate c rate75 rateNow => keep_execPaceEvaluate c rate75 rateNow s h
  | .jogToWalk c => keep_execJogToWalk c s h
  | .pacingEntryDone c => keep_execPacingEntryDone c s h
  | .exitTimer c => keep_execExitTimer c s h
  | .wakeLine c why => keep_execWakeLine c why s h
  | .pacingExitDone c => keep_execPacingExitDone c s h
  | .pwrGood => keep_execPwrGood s h
  | .strapLatch samples => keep_execStrapLatch samples s h
  | .flashReadDone readOk sigA sigB => keep_execFlashReadDone readOk sigA sigB s h
  | .nvmeReadyTimeout d => keep_execNvmeReadyTimeout d s h
  | .ready => keep_execReady s h
  | .parityError c => keep_execParityError c s h
  | .controlCoreCrash c => keep_execControlCoreCrash c s h
  | .schedulerCrash => keep_execSchedulerCrash s h
  | .powerCoreCrash => keep_execPowerCoreCrash s h
  | .securityCoreCrash => keep_execSecurityCoreCrash s h
  | .coreRestartDone core ok => keep_execCoreRestartDone core ok s h
  | .batonHashDone hi => keep_execBatonHashDone hi s h
  | .localFlashWriteDone hi result => keep_execLocalFlashWriteDone hi result s h
  | .sharedStoreWriteDone hi ok => keep_execSharedStoreWriteDone hi ok s h
  | .nvmeTimeout d => keep_execNvmeTimeout d s h
  | .lifelogSummary => keep_execLifelogSummary s h
  | .progressHang u => keep_execProgressHang u s h
  | .intraClusterDeadlock c => keep_execIntraClusterDeadlock c s h
  | .dumpWritten => keep_execDumpWritten s h
  | .state => keep_execState s h
  | .vin => keep_execVin s h
  | .pin => keep_execPin s h
  | .tjMax => keep_execTjMax s h
  | .tBoard => keep_execTBoard s h
  | .ident => keep_execIdent s h
  | .alertCause => keep_execAlertCause s h
  | .part => keep_execPart s h
  | .railFail => keep_execRailFail s h
  | .alertResponse => keep_execAlertResponse s h
  | .bypass tdi => keep_execBypass tdi s h
  | .samplePreload cells => keep_execSamplePreload cells s h
  | .extest => keep_execExtest s h
  | .idcode => keep_execIdcode s h
  | .highz => keep_execHighz s h
  | .clamp => keep_execClamp s h
  | .standbyRailRise => keep_execStandbyRailRise s h
  | .standbyRailLoss => keep_execStandbyRailLoss s h
  | .managementPortLinkUp => keep_execManagementPortLinkUp s h
  | .feedPortLinkUp fp => keep_execFeedPortLinkUp fp s h
  | .nvmeDriveReady d => keep_execNvmeDriveReady d s h
  | .controlCoreInstruction c => keep_execControlCoreInstruction c s h
  | .perBankRefresh ch bank => keep_execPerBankRefresh ch bank s h

/-- Settles O3: a step is a tick of time or the command in front, run on the state without it. -/
theorem stepKeepsInvariant : Obligations.StepKeepsInvariant := by
  intro s t hs hstep
  unfold step at hstep
  split at hstep
  · cases hstep
    exact keep_reach s _ hs
  · rename_i c rest _
    exact keep_exec c _ (keep_pending s rest hs) t hstep

end Sys2Proof.Machine
end

section
/-! FALSE_START (R258, R269, R335): the module is quiet (`State.quieted`), control cores go back (`rewindAll_cl_eq`), and a new attempt begins
(`FalseStarted`). -/
namespace Sys2Proof.Machine

/-! The attempt ends (R269 steps 1 to 4). -/

/-- A module in a false start before folds take effect: the attempt's commands, encode requests and blocks are gone, its KV record restored. -/
def State.quieted (s : State) (hi : Fin 4) (p : Program) (m : HMsg) : State :=
  let count := (s.heat hi).hu.count
  let cs := (s.heat hi).clusterList
  let s := s.closeHold hi
  let s := (s.bump 8 hi.val 19 (s.waitingTags cs)).bump 8 hi.val (fsCounter m.reason)
  let s := if m.reason ≤ 5 then s.lifeCount (15 + m.reason) else s
  let s := s.report 0x03 hi.val m.status (s.heat hi).hu.step (natLE 4 m.reason ++ natLE 4 count)
  let s := (cs.mapIdx (fun l c => (l, c))).foldl (fun s lc => (s.abandonHeads lc.2).dropEncodes lc.2 ⟨hi, lc.1, p⟩) s
  let s := s.withdraw hi (count % 4)
  let x := State.schedSite hi p
  s.putSpace x ((s.space x).kvRestore (s.heat hi).kv p.regions)

/-- No block of a withdrawn epoch is awaited (R269). -/
theorem withdraw_epoch {s : State} {hi : Fin 4} {e : Nat} {b : SentBlock} (h : b ∈ ((s.withdraw hi e).heat hi).sent) : b.epoch ≠ e := by
  unfold State.withdraw at h
  rw [State.heat_modHeat_same] at h
  simpa using (List.mem_filter.mp h).2

/-- What is left of a heat in a false start before folds take effect. -/
theorem quieted_calm (s : State) (hi : Fin 4) (p : Program) (m : HMsg) :
    Calm true false s (s.quieted hi p m) ∧ ∀ b ∈ ((s.quieted hi p m).heat hi).sent, b.epoch ≠ (s.heat hi).hu.count % 4 := by
  have hcounted (u : State) : Calm true false u ((u.bump 8 hi.val 19 (u.waitingTags (s.heat hi).clusterList)).bump 8 hi.val (fsCounter m.reason)) :=
    calm_same ((sameCore_bump ..).trans (sameCore_bump ..))
  have hlife (u : State) : Calm true false u (if m.reason ≤ 5 then u.lifeCount (15 + m.reason) else u) := by
    split
    · exact calm_same (sameCore_lifeCount ..)
    · exact Calm.refl u
  have hhead (u : State) (lc : Nat × Fin 64) : Calm true false u ((u.abandonHeads lc.2).dropEncodes lc.2 ⟨hi, lc.1, p⟩) :=
    (calm_abandon u lc.2).trans (calm_dropEncodes (u.abandonHeads lc.2) lc.2 ⟨hi, lc.1, p⟩)
  have hheads (l : List (Nat × Fin 64)) (u : State) :
      Calm true false u (l.foldl (fun s lc => (s.abandonHeads lc.2).dropEncodes lc.2 ⟨hi, lc.1, p⟩) u) :=
    Calm.foldl (fun s (lc : Nat × Fin 64) => (s.abandonHeads lc.2).dropEncodes lc.2 ⟨hi, lc.1, p⟩) hhead l u
  unfold State.quieted
  refine ⟨?_, fun b hb => ?_⟩
  · exact ((((((calm_closeHold s hi).trans (hcounted _)).trans (hlife _)).trans (calm_same (sameCore_report ..))).trans (hheads _ _)).trans
      (calm_withdraw ..)).trans (calm_putSpace ..)
  · rw [(calm_putSpace (b := true) (d := true) ..).sent rfl] at hb
    exact withdraw_epoch hb

/-! Control cores go back (R258, R269, R335). -/

/-- A list of clusters each changed by its number. -/
theorem foldl_modCl_of_not_mem (g : Nat → Cluster → Cluster) {l : List (Nat × Fin 64)} {c : Fin 64} (h : c ∉ l.map Prod.snd) (s : State) :
    (l.foldl (fun s lc => s.modCl lc.2 (g lc.1)) s).cl c = s.cl c := by
  induction l generalizing s with
  | nil => rfl
  | cons a l ih =>
    rw [List.map_cons, List.mem_cons, not_or] at h
    obtain ⟨hne, hl⟩ := h
    rw [List.foldl_cons, ih hl, State.cl_modCl_ne _ _ _ _ (Ne.symm hne)]
/-- One that stands there once is changed once. -/
theorem foldl_modCl_of_mem (g : Nat → Cluster → Cluster) {l : List (Nat × Fin 64)} {n : Nat} {c : Fin 64} (hnodup : (l.map Prod.snd).Nodup)
    (h : (n, c) ∈ l) (s : State) : (l.foldl (fun s lc => s.modCl lc.2 (g lc.1)) s).cl c = g n (s.cl c) := by
  induction l generalizing s with
  | nil => cases h
  | cons a l ih =>
    rw [List.map_cons, List.nodup_cons] at hnodup
    obtain ⟨hnot, hnodup⟩ := hnodup
    rw [List.foldl_cons]
    rcases List.mem_cons.mp h with rfl | hl
    · rw [foldl_modCl_of_not_mem g hnot, State.cl_modCl_same]
    · have hne : a.2 ≠ c := fun he => hnot (he ▸ List.mem_map_of_mem (f := Prod.snd) hl)
      rw [ih hnodup hl, State.cl_modCl_ne _ _ _ _ hne]

/-- A logical cluster that is not retired goes back, with its fold's program where it survives one (R258, R335). -/
theorem rewindAll_cl_eq {s : State} {hi : Fin 4} {c : Fin 64} {l : Nat} (p : Program) (new : List (Nat × Nat))
    (hc : (s.heat hi).clusterList[l]? = some c) (hr : (s.cl c).retired = false) :
    (s.rewindAll hi p new).cl c = (s.cl c).rewind (if new.any (fun f => f.2 == l) then some (p.ctrl true l) else none) := by
  have hmap : ((s.heat hi).clusterList.mapIdx (fun l c => (l, c))).map Prod.snd = (s.heat hi).clusterList := by
    exact List.ext_getElem (by simp) (by simp)
  unfold State.rewindAll
  refine (foldl_modCl_of_mem (fun l k => if k.retired then
    { k with queues := Vector.replicate 4 [], core := { k.core with snap := none, running := false } }
    else k.rewind (if new.any (fun f => f.2 == l) then some (p.ctrl true l) else none)) (n := l) ?_ ?_ s).trans ?_
  · rw [hmap]; exact clusterList_nodup _
  · obtain ⟨hlt, hget⟩ := List.getElem?_eq_some_iff.mp hc
    exact List.mem_mapIdx.mpr ⟨l, hlt, by rw [hget]⟩
  · rw [if_neg (by rw [hr]; decide)]
/-- The survivor of a fold starts its own program at address 0 with registers zero, its snapshot from then on (R335). -/
theorem rewind_fold (k : Cluster) (prog : Bytes) :
    (k.rewind (some prog)).core.pc = 0 ∧ (k.rewind (some prog)).core.regs = Vector.replicate 32 0 ∧
      (k.rewind (some prog)).core.snap = k.core.snap.map (fun t => { t with pc := 0, regs := Vector.replicate 32 0 }) :=
  ⟨rfl, rfl, rfl⟩

/-! The new attempt. -/

/-- Only stores differ. -/
structure StoresOnly (s t : State) : Prop where
  heat : ∀ j, t.heat j = s.heat j
  cl : ∀ c, t.cl c = { s.cl c with store := (t.cl c).store }
theorem StoresOnly.refl (s : State) : StoresOnly s s := ⟨fun _ => rfl, fun _ => rfl⟩
theorem StoresOnly.trans {s t u : State} (h : StoresOnly s t) (k : StoresOnly t u) : StoresOnly s u :=
  ⟨fun j => (k.heat j).trans (h.heat j), fun c => by rw [k.cl c, h.cl c]⟩
theorem storesOnly_modCl (s : State) (c : Fin 64) (f : Cluster → Mem) : StoresOnly s (s.modCl c (fun k => { k with store := f k })) := by
  refine ⟨fun _ => rfl, fun d => ?_⟩
  rw [State.cl_modCl]
  split
  · rename_i h; subst h; rfl
  · rfl
/-- Step records are written to stores (R160). -/
theorem storesOnly_stepRecords (s : State) (hi : Fin 4) (p : Program) (n : Nat) : StoresOnly s (s.stepRecords hi p n) := by
  unfold State.stepRecords
  dsimp only
  generalize List.range _ = l
  suffices ∀ u, StoresOnly u (l.foldl _ u) from this s
  induction l with
  | nil => exact StoresOnly.refl
  | cons a l ih =>
    intro u
    refine StoresOnly.trans ?_ (ih _)
    dsimp only
    split
    · exact StoresOnly.refl u
    · split
      · exact storesOnly_modCl u _ (fun k => k.store.put _ _)
      · exact StoresOnly.refl u

/-- A heat begins another attempt of its step: the count is the next, the step stays (R269). -/
def Heat.nextAttempt (h : Heat) (p : Program) (windowMs count now : Nat) : Heat :=
  let h := { h with
    chans := h.chans.map Chan.rewind
    arrivals := h.arrivals.filter (fun a => a.1 / 4096 % 2 != count % 2)
    hu := { h.hu with
      count := count + 1, arrived := false, sentArrive := false, arriveAt := none, hung := false, windowMs := windowMs
      decideMs := windowMs, decideAt := now, heldTime := 0, heldHangs := 0, falseStarts := h.hu.falseStarts + 1 }.newCount }
  h.beginPosting p h.hu.step
/-- A module whose attempt has ended goes back to its snapshots, with the folds that are due, and writes its step records (R269 steps 5 and 6). -/
def State.goneBack (s : State) (hi : Fin 4) (p : Program) : State :=
  let s := (s.applyFolds hi).rewindAll hi p (s.dueFolds (s.heat hi))
  if s.com.boot.scheduler = .up then s.stepRecords hi p (s.heat hi).hu.step else s

/-- A false start in three parts: the attempt ends, control cores go back, the next attempt begins. -/
theorem actFalseStart_eq (s : State) (hi : Fin 4) (p : Program) (m : HMsg) :
    s.actFalseStart hi p m = (((s.quieted hi p m).goneBack hi p).modHeat hi
      (fun h => h.nextAttempt p m.windowMs (s.heat hi).hu.count ((s.quieted hi p m).goneBack hi p).now)).refreshHeld hi := by
  unfold State.actFalseStart State.goneBack State.quieted Heat.nextAttempt
  dsimp only

/-- The records written after the cores are back are in stores. -/
theorem goneBack_stores (s : State) (hi : Fin 4) (p : Program) :
    StoresOnly ((s.applyFolds hi).rewindAll hi p (s.dueFolds (s.heat hi))) (s.goneBack hi p) := by
  unfold State.goneBack
  dsimp only
  split
  · exact storesOnly_stepRecords ..
  · exact StoresOnly.refl _
theorem goneBack_heat (s : State) (hi : Fin 4) (p : Program) : (s.goneBack hi p).heat hi = (s.applyFolds hi).heat hi := by
  rw [(goneBack_stores s hi p).heat, rewindAll_heat]
/-- A cluster that is not retired is back at its snapshot, or at the start of its fold's program, but for its step record. -/
theorem goneBack_cl {s : State} {hi : Fin 4} {c : Fin 64} {l : Nat} (p : Program) (hc : (s.heat hi).clusterList[l]? = some c)
    (hr : (s.cl c).retired = false) : ∃ (k : Cluster) (store : Mem), k.core.snap = (s.cl c).core.snap ∧
      (s.goneBack hi p).cl c =
        { k.rewind (if (s.dueFolds (s.heat hi)).any (fun f => f.2 == l) then some (p.ctrl true l) else none) with store := store } := by
  have hfolds : Calm false true s (s.applyFolds hi) := calm_applyFolds s hi
  obtain ⟨hretired, hsnap⟩ := hfolds.cl c
  rw [← hfolds.clusterList] at hc
  rw [hr] at hretired
  refine ⟨(s.applyFolds hi).cl c, ((s.goneBack hi p).cl c).store, hsnap, ?_⟩
  rw [(goneBack_stores s hi p).cl c, rewindAll_cl_eq p _ hc hretired]

/-! The whole. -/

/-- The heat after a false start. -/
theorem actFalseStart_heat (s : State) (hi : Fin 4) (p : Program) (m : HMsg) : ∃ now v,
    (s.actFalseStart hi p m).heat hi =
      let h := (((s.quieted hi p m).applyFolds hi).heat hi).nextAttempt p m.windowMs (s.heat hi).hu.count now
      { h with hu := h.hu.heldAs v } := by
  have hhold := holdOnly_refreshHeld (((s.quieted hi p m).goneBack hi p).modHeat hi
    (fun h => h.nextAttempt p m.windowMs (s.heat hi).hu.count ((s.quieted hi p m).goneBack hi p).now)) hi
  rw [← actFalseStart_eq] at hhold
  have hheat := hhold.heats hi
  rw [State.heat_modHeat_same, goneBack_heat] at hheat
  exact ⟨_, _, hheat⟩
/-- What its next attempt begins from: the step and its failed attempts are those before, and no block of the withdrawn epoch is awaited. -/
theorem folded_heat (s : State) (hi : Fin 4) (p : Program) (m : HMsg) :
    let g := ((s.quieted hi p m).applyFolds hi).heat hi
    g.hu.step = (s.heat hi).hu.step ∧ g.hu.falseStarts = (s.heat hi).hu.falseStarts ∧ ∀ b ∈ g.sent, b.epoch ≠ (s.heat hi).hu.count % 4 := by
  obtain ⟨hcalm, hsent⟩ := quieted_calm s hi p m
  have hfolds : Calm false true (s.quieted hi p m) ((s.quieted hi p m).applyFolds hi) := calm_applyFolds _ hi
  obtain ⟨-, -, hstep, hstarts, -⟩ := hcalm.heat hi
  obtain ⟨-, -, hstep', hstarts', -⟩ := hfolds.heat hi
  exact ⟨hstep'.trans hstep, hstarts'.trans hstarts, by rw [hfolds.sent rfl]; exact hsent⟩
/-- A cluster after a false start. -/
theorem actFalseStart_cl {s : State} {hi : Fin 4} {c : Fin 64} {l : Nat} (p : Program) (m : HMsg)
    (hc : (s.heat hi).clusterList[l]? = some c) (hr : (s.cl c).retired = false) :
    ∃ (k : Cluster) (store : Mem), k.core.snap = (s.cl c).core.snap ∧ (s.actFalseStart hi p m).cl c =
      { k.rewind (if (s.dueFolds (s.heat hi)).any (fun f => f.2 == l) then some (p.ctrl true l) else none) with store := store } := by
  obtain ⟨hcalm, -⟩ := quieted_calm s hi p m
  obtain ⟨hretired, hsnap⟩ := hcalm.cl c
  rw [← hcalm.clusterList] at hc
  rw [hr] at hretired
  obtain ⟨k, store, hk, hcl⟩ := goneBack_cl p hc hretired
  rw [hcalm.dueFolds] at hcl
  refine ⟨k, store, hk.trans hsnap, ?_⟩
  rw [actFalseStart_eq, (holdOnly_refreshHeld _ hi).cl, State.modHeat_cl, hcl]

/-- Settles O35: the heat is that of `Heat.nextAttempt` on a heat that is calm but for its folds; a cluster is one that `Cluster.rewind` left. -/
theorem falseStartRestores : Obligations.FalseStartRestores := by
  intro s hi p m t
  obtain ⟨hstep, hstarts, hsent⟩ := folded_heat s hi p m
  obtain ⟨now, v, hheat⟩ := actFalseStart_heat s hi p m
  generalize ((s.quieted hi p m).applyFolds hi).heat hi = g at hheat hstep hstarts hsent
  refine ⟨?_, ?_, ?_, ?_, fun a ha => ?_, fun b hb => ?_, fun c hc hr => ?_⟩
  · rw [hheat]; rfl
  · rw [hheat]; exact hstep
  · rw [hheat, ← hstarts]; rfl
  · rw [hheat]; rfl
  · rw [hheat] at ha
    simpa using (List.mem_filter.mp ha).2
  · rw [hheat] at hb
    exact hsent b hb
  · obtain ⟨l, hl⟩ := List.mem_iff_getElem?.mp hc
    obtain ⟨k, store, hsnap, hcl⟩ := actFalseStart_cl p m hl hr
    have hback := rewound k (if (s.dueFolds (s.heat hi)).any (fun f => f.2 == l) then some (p.ctrl true l) else none)
      (s.dueFolds (s.heat hi) = []) (fun hnone => by rw [hnone]; rfl)
    rw [hsnap] at hback
    obtain ⟨hqueues, hhalted, hdmem, hissued, hsums, hencs, hcore⟩ := hback
    refine ⟨?_, ?_, ?_, ?_, ?_, ?_, fun hnone n hn => ?_, fun f hf hsurvivor => ?_⟩
    · rw [hcl]; exact hqueues
    · rw [hcl]; exact hhalted
    · rw [hcl]; exact hdmem
    · rw [hcl]; exact hissued
    · rw [hcl]; exact hsums
    · rw [hcl]; exact hencs
    · rw [hcl]; exact hcore hnone n hn
    · obtain ⟨k, store, hsnap, hcl⟩ := actFalseStart_cl p m hsurvivor hr
      rw [if_pos (List.any_eq_true.mpr ⟨f, hf, beq_self_eq_true f.2⟩)] at hcl
      obtain ⟨hpc, hregs, hsnap'⟩ := rewind_fold k (p.ctrl true f.2)
      rw [hcl]
      exact ⟨hpc, hregs, fun n hn => by rw [hsnap', hsnap, hn]; rfl⟩

end Sys2Proof.Machine
end

section
/-! Arrival at a hurdle and its timers (R257, R259, R264 to R268, R324, R418). -/
namespace Sys2Proof.Machine

/-! HURDLE (R257). -/

/-- A command that names no channel takes none (R41). -/
theorem takeChans_none (h : Heat) (own : Nat) {raw : Nat} (hwait : waitEn raw = false) (hpost : postEn raw = false) :
    h.takeChans own raw = h := by
  simp [Heat.takeChans, hwait, hpost]
/-- The start of a command that names no channel only latches it. -/
theorem startCommand_none (s : State) (c : Fin 64) (q : Fin 4) (x : Site) {e : QEntry} (hwait : waitEn e.raw = false)
    (hpost : postEn e.raw = false) : HoldOnly (s.modCl c (fun k => k.setHead q (s.latch c e))) (s.startCommand c q x e).1 where
  clusters := rfl
  heats j := by
    rw [(start_between s c q x e).heats j, takeChans_none _ _ hwait hpost]
    split <;> rfl
  ports _ := rfl
  com := rfl
  now := rfl
  pending := rfl
/-- Changing a cluster keeps what two states agree on. -/
theorem HoldOnly.modCl {s t : State} (h : HoldOnly s t) (c : Fin 64) (f : Cluster → Cluster) : HoldOnly (s.modCl c f) (t.modCl c f) where
  clusters := by simp only [State.modCl, State.setCl, State.cl, h.clusters]
  heats := h.heats
  ports := h.ports
  com := h.com
  now := h.now
  pending := h.pending
theorem modCl_modCl (s : State) (c : Fin 64) (f g : Cluster → Cluster) : (s.modCl c f).modCl c g = s.modCl c (fun k => g (f k)) := by
  simp [State.modCl, State.setCl, State.cl]

/-- Settles O12: the command starts, which takes no channel, and its head is marked as arrived. -/
theorem hurdleIsReached : Obligations.HurdleIsReached := by
  intro s c x e hstart hop hdrained hrsv hwait hpost
  have hreach := (startCommand_none s c qLink x hwait hpost).modCl c
    (fun k => k.setHead qLink { s.latch c e with phase := .arrived })
  rw [modCl_modCl] at hreach
  simp only [Cluster.setHead_setHead] at hreach
  refine ⟨_, ?_, hreach.trans (holdOnly_refreshHeld _ x.h)⟩
  change execHurdle c s = _
  simp [execHurdle, hstart, hop, hdrained, start_entry, latch_raw, hrsv, hwait, hpost]

/-! The timers (R264 to R268, R418). -/

/-- Settles O33: each row's guard holds, and what it does stands in the row. -/
theorem hurdleTimersAct : Obligations.HurdleTimersAct := by
  intro s h hrun t u
  refine ⟨fun hlive hcount harrived hwaits hall => ?_, fun hroot hcount hheld hdeferred => ?_, fun hroot hcount hdeferred => ?_,
    fun a harrive hhung hdeferred => ?_, fun a hheld => ?_⟩
  · exact if_pos ⟨hrun, hlive, hcount, by simpa using harrived, by simpa using hwaits, hall⟩
  · exact if_pos ⟨hrun, hroot, hcount, hheld, hdeferred⟩
  · exact if_pos ⟨hrun, hroot, hcount, hdeferred⟩
  · change execDecideTimeout h s = _
    unfold execDecideTimeout
    dsimp only
    rw [harrive]
    exact if_pos ⟨hrun, by simpa using hhung, hdeferred⟩
  · change execHeldTooLong h s = _
    unfold execHeldTooLong
    dsimp only
    rw [hheld]
    exact if_pos hrun

end Sys2Proof.Machine
end

section
/-! Hurdle messages at their destination (R262 to R269, R337, R346): one that a running heat takes in comes to the hurdle unit, where each kind has
an operation of its own. -/
namespace Sys2Proof.Machine

/-! Sending changes nothing a hurdle unit decides by. -/

theorem holdOnly_sendHurdle (s : State) (hi : Fin 4) (dest : Nat) (m : HMsg) : HoldOnly s (s.sendHurdle hi dest m) := by
  unfold State.sendHurdle
  exact holdOnly_sendRouted ..
/-- A DECIDE goes to every child (R262). -/
theorem holdOnly_forward (s : State) (hi : Fin 4) (m : HMsg) (cs : List Child) :
    HoldOnly s (cs.foldl (fun s c => s.sendHurdle hi c.id m) s) :=
  HoldOnly.foldl (fun s (c : Child) => s.sendHurdle hi c.id m) cs (fun s c => holdOnly_sendHurdle s hi c.id m) s
/-- Whether a DECIDE waits hangs on a dump and on an earlier GO (R346, R419). -/
theorem HoldOnly.decideWaits {s t : State} (h : HoldOnly s t) (hi : Fin 4) : t.decideWaits hi = s.decideWaits hi := by
  unfold State.decideWaits State.frozenHeat
  rw [h.com, h.heats hi]
  rfl

/-! The operation of each message. -/

section
variable {u : State} {hi : Fin 4} {p : Program} {m : HMsg}

/-- JOIN, ARRIVE and HOLD of an earlier count are discarded and counted (R264). -/
theorem onJoin_stale (hcount : m.count < (u.heat hi).hu.count) : u.onJoin hi p m = u.bump 8 hi.val 18 := if_pos (Or.inr hcount.ne)
theorem onArrive_stale (hcount : m.count < (u.heat hi).hu.count) : u.onArrive hi m = u.bump 8 hi.val 18 := if_pos (Or.inr hcount)
theorem onHold_stale (hcount : m.count < (u.heat hi).hu.count) : u.onHold hi m = u.bump 8 hi.val 18 := if_pos (Or.inr hcount)

variable (hrun : (u.heat hi).phase = .running)
include hrun

/-- The first JOIN of a child is noted, with JOIN_MISMATCH for another image (R267). -/
theorem onJoin_first {c : Child} (hcount : m.count = (u.heat hi).hu.count) (hchild : (u.heat hi).hu.child m.origin = some c)
    (hfirst : c.joined = none) :
    u.onJoin hi p m = (u.modHu hi (fun x => x.modChild m.origin (fun c => { c with
      joined := some (if m.digest ≠ leNat (p.digest.take 8) then 0x0A else m.reason), mods := m.arrived }))).tryJoin hi := by
  simp [State.onJoin, hrun, hcount, hchild, hfirst]
theorem onArrive_current (hcount : (u.heat hi).hu.count ≤ m.count) :
    u.onArrive hi m = (u.modHu hi (fun x => x.modChild m.origin (fun c => { c with
      arrived := some m.count, mods := m.arrived }))).progress hi := by
  simp [State.onArrive, hrun, hcount.not_gt]
theorem onHold_current (hcount : (u.heat hi).hu.count ≤ m.count) :
    u.onHold hi m = (u.modHu hi (fun x => x.modChild m.origin (fun c => { c with held := m.held, heldAt := m.count }))).refreshHeld hi := by
  simp [State.onHold, hrun, hcount.not_gt]
theorem onRequest_root (hroot : (u.heat hi).isRoot = true) :
    u.onRequest hi m = u.rootRequest hi ⟨m.count, m.reason, m.status, m.origin⟩ := by
  simp [State.onRequest, hrun, hroot]
/-- The partner's FEED_ID is compared with this module's own (R267). -/
theorem onFeedReply_partner (hcount : (u.heat hi).hu.count = 0) (hfeed : (u.heat hi).hu.feed = none)
    (horigin : m.origin = p.partner (u.heat hi).ownId) :
    u.onFeedReply hi p m = (u.modHu hi (fun x => { x with
      feed := some (if m.feed = u.feedId ∧ p.forceSameFeed = false then 9 else 0) })).tryJoin hi := by
  simp [State.onFeedReply, hrun, hcount, hfeed, horigin]
/-- A DECIDE of the next count goes to the children, and is acted on, or kept while an earlier one is not carried out (R264, R346). -/
theorem onDecide_next (hcount : m.count = (u.heat hi).hu.count + (u.heat hi).hu.deferred.length) :
    let forward := (u.heat hi).hu.children.foldl (fun s c => s.sendHurdle hi c.id m) u
    u.onDecide hi p m = if u.decideWaits hi then forward.modHu hi (fun x => { x with deferred := x.deferred ++ [m.bytes] })
      else forward.act hi p m := by
  intro forward
  have hwaits : forward.decideWaits hi = u.decideWaits hi := (holdOnly_forward u hi m _).decideWaits hi
  simp only [State.onDecide, Hurdle.nextDecide, hrun, hcount, ne_eq, not_true_eq_false, or_self, if_false, State.takeDecide]
  rw [← hwaits]

end

section
variable {u : State} {hi : Fin 4} {port : Fin 32} {p : Program} {pay : Bytes}

/-- The hurdle unit gives each kind of message to its operation (R262). -/
theorem hurdleIn_join (hmsg : (parseHMsg pay).msg = 1) : u.hurdleIn hi port p pay = u.onJoin hi p (parseHMsg pay) := by
  simp only [State.hurdleIn, hmsg]
theorem hurdleIn_arrive (hmsg : (parseHMsg pay).msg = 2) : u.hurdleIn hi port p pay = u.onArrive hi (parseHMsg pay) := by
  simp only [State.hurdleIn, hmsg]
theorem hurdleIn_hold (hmsg : (parseHMsg pay).msg = 3) : u.hurdleIn hi port p pay = u.onHold hi (parseHMsg pay) := by
  simp only [State.hurdleIn, hmsg]
theorem hurdleIn_request (hmsg : (parseHMsg pay).msg = 4) : u.hurdleIn hi port p pay = u.onRequest hi (parseHMsg pay) := by
  simp only [State.hurdleIn, hmsg]
theorem hurdleIn_decide (hmsg : (parseHMsg pay).msg = 5) (hres : (parseHMsg pay).decision ≠ 3) :
    u.hurdleIn hi port p pay = u.onDecide hi p (parseHMsg pay) := by
  simp only [State.hurdleIn, hmsg, if_neg hres]
theorem hurdleIn_feedQuery (hmsg : (parseHMsg pay).msg = 6) : u.hurdleIn hi port p pay = u.onFeedQuery hi (parseHMsg pay) := by
  simp only [State.hurdleIn, hmsg]
theorem hurdleIn_feedReply (hmsg : (parseHMsg pay).msg = 7) : u.hurdleIn hi port p pay = u.onFeedReply hi p (parseHMsg pay) := by
  simp only [State.hurdleIn, hmsg]

end

/-! The rows. -/

/-- The low byte of a little-endian number is the first of its bytes (R10). -/
theorem fld_leAt_low (bs : Bytes) (n : Nat) : fld (leAt bs 0 (n + 1)) 7 0 = leAt bs 0 1 := by
  have hbyte (b : Byte) (v : Nat) : (b.toNat + 256 * v) % 256 = b.toNat := by
    rw [Nat.add_mul_mod_self_left, Nat.mod_eq_of_lt b.isLt]
  cases bs <;> simp [fld, leAt, bytesAt, leNat, List.replicate_succ, hbyte]
/-- The kind of a hurdle message is the first byte of its payload (R261). -/
theorem parseHMsg_msg (pay : Bytes) : (parseHMsg pay).msg = leAt pay 0 1 := fld_leAt_low pay 39

section
variable {s : State} {f : FlitRx} {hdr : Nat} {pay : Bytes} {hi : Fin 4} {p : Program} {i : Instr} (htype : hdrType hdr = 5)
include htype

theorem isHurdle_of {n : Nat} (hmsg : (parseHMsg pay).msg = n) : isHurdle n hdr pay = true := by
  simp [isHurdle, htype, ← parseHMsg_msg, hmsg]

variable (h : FlitTaken s f hdr pay) (hruns : PortRuns s f.port hi p) (hown : hdrDest hdr = (s.heat hi).ownId)
include h hruns hown

/-- A hurdle message of a row reaches the hurdle unit of the heat that runs (R218, R262). -/
theorem exec_hurdle_taken {want : Nat → Bytes → Bool}
    (hexec : exec i s = s.withFlit f want (fun s hdr pay seq => s.deliver f.port hdr pay seq)) (hwant : want hdr pay = true) :
    exec i s = .next ((((s.flitTaken f).freeBuffer f.port hdr).hurdleIn hi f.port p pay).pump f.port) := by
  refine flit_next h hexec hwant ?_
  rw [deliver_runs (portRuns_taken hruns), process_hurdle _ _ _ _ _ _ _ htype, flitTaken_heat, if_pos (beq_iff_eq.mpr hown)]
/-- The row of a DECIDE leads to the same operation whatever is decided (R264). -/
theorem exec_decide_taken (hmsg : (parseHMsg pay).msg = 5)
    (hrow : ((parseHMsg pay).decision, i) ∈ [(0, Instr.decideGo f), (1, .decideFalseStart f), (2, .decideStop f)]) :
    exec i s = .next ((((s.flitTaken f).freeBuffer f.port hdr).onDecide hi p (parseHMsg pay)).pump f.port) := by
  have hwant {d : Nat} (hd : (parseHMsg pay).decision = d) : isDecide d hdr pay = true := by
    simp [isDecide, isHurdle_of htype hmsg, hd]
  simp only [List.mem_cons, Prod.mk.injEq, List.not_mem_nil, or_false] at hrow
  obtain ⟨hd, rfl⟩ | ⟨hd, rfl⟩ | ⟨hd, rfl⟩ := hrow
  · rw [exec_hurdle_taken (want := isDecide 0) htype h hruns hown rfl (hwant hd), hurdleIn_decide hmsg (by omega)]
  · rw [exec_hurdle_taken (want := isDecide 1) htype h hruns hown rfl (hwant hd), hurdleIn_decide hmsg (by omega)]
  · rw [exec_hurdle_taken (want := isDecide 2) htype h hruns hown rfl (hwant hd), hurdleIn_decide hmsg (by omega)]

end

/-- Settles O32: every row leads to the hurdle unit (`exec_hurdle_taken`), where the message has the operation of its kind. -/
theorem hurdleMessagesAct : Obligations.HurdleMessagesAct := by
  intro s f hdr pay hi p h hruns htype hown m hu u forward decided
  have hrun : (u.heat hi).phase = .running := hruns.running
  have hrow {i : Instr} {n : Nat} {t : State} (hexec : exec i s = s.withFlit f (isHurdle n) (fun s hdr pay seq => s.deliver f.port hdr pay seq))
      (hmsg : m.msg = n) (ht : u.hurdleIn hi f.port p pay = t) : exec i s = .next (t.pump f.port) := by
    rw [exec_hurdle_taken htype h hruns hown hexec (isHurdle_of htype hmsg)]
    exact congrArg (fun v => Host.Outcome.next (State.pump v f.port)) ht
  have hdecide {i : Instr} (hmsg : m.msg = 5) (hd : (m.decision, i) ∈ [(0, Instr.decideGo f), (1, .decideFalseStart f), (2, .decideStop f)])
      (hcount : m.count = hu.count + hu.deferred.length) : exec i s = .next ((if s.decideWaits hi then
        forward.modHu hi (fun x => { x with deferred := x.deferred ++ [m.bytes] }) else forward.act hi p m).pump f.port) := by
    rw [exec_decide_taken htype h hruns hown hmsg hd]
    exact congrArg (fun v => Host.Outcome.next (State.pump v f.port)) (onDecide_next hrun hcount)
  have hact {i : Instr} (hmsg : m.msg = 5) (hd : (m.decision, i) ∈ [(0, Instr.decideGo f), (1, .decideFalseStart f), (2, .decideStop f)]) :
      decided → exec i s = .next ((forward.act hi p m).pump f.port) := by
    rintro ⟨hcount, hnone, hwaits⟩
    rw [hdecide hmsg hd (by rw [hcount, hnone]; rfl), hwaits]; rfl
  refine ⟨fun hmsg hcount c hchild hfirst => ?_, fun hmsg hcount => ?_, fun hmsg hcount => ?_, fun hmsg hroot => ?_, fun hmsg hd hdecided => ?_,
    fun hmsg hd hdecided => ?_, fun hmsg hd hdecided => ?_, fun hmsg => ?_, fun hmsg hcount hfeed horigin => ?_,
    fun i hd hmsg hcount hwaits => ?_, fun i hmsg hcount => ?_⟩
  · exact hrow (n := 1) rfl hmsg ((hurdleIn_join hmsg).trans (onJoin_first hrun hcount hchild hfirst))
  · exact hrow (n := 2) rfl hmsg ((hurdleIn_arrive hmsg).trans (onArrive_current hrun hcount))
  · exact hrow (n := 3) rfl hmsg ((hurdleIn_hold hmsg).trans (onHold_current hrun hcount))
  · exact hrow (n := 4) rfl hmsg ((hurdleIn_request hmsg).trans (onRequest_root hrun hroot))
  · rw [hact (i := .decideGo f) hmsg (by simp [hd]) hdecided, State.act, hd]; rfl
  · rw [hact (i := .decideFalseStart f) hmsg (by simp [hd]) hdecided, State.act, hd]; rfl
  · rw [hact (i := .decideStop f) hmsg (by simp [hd]) hdecided, State.act, hd]; rfl
  · exact hrow (n := 6) rfl hmsg (hurdleIn_feedQuery hmsg)
  · exact hrow (n := 7) rfl hmsg ((hurdleIn_feedReply hmsg).trans (onFeedReply_partner hrun hcount hfeed horigin))
  · rw [hdecide hmsg hd hcount, hwaits]; rfl
  · simp only [List.mem_cons, Prod.mk.injEq, List.not_mem_nil, or_false] at hmsg
    obtain ⟨hmsg, rfl⟩ | ⟨hmsg, rfl⟩ | ⟨hmsg, rfl⟩ := hmsg
    · exact hrow (n := 1) rfl hmsg ((hurdleIn_join hmsg).trans (onJoin_stale hcount))
    · exact hrow (n := 2) rfl hmsg ((hurdleIn_arrive hmsg).trans (onArrive_stale hcount))
    · exact hrow (n := 3) rfl hmsg ((hurdleIn_hold hmsg).trans (onHold_stale hcount))

end Sys2Proof.Machine
end

section
/-! Heats and jobs by request (R263, R275, R347, R395 to R400): the operation of each request, where its fields are in range. -/
namespace Sys2Proof.Machine

theorem onHeat_of {m : Msg} {hi : Fin 4} (hheat : msgHeat m = hi.val) (s : State) (go : Fin 4 → State) : s.onHeat m go = go hi := by
  simp only [State.onHeat, finRange4 hheat]

/-! LOAD_IMAGE (R395 to R397). -/

/-- A heat that holds an image in part, or whole with its last chunk: it is validated, and loads or is freed (R38, R396). -/
def State.chunkEnd (v : State) (m : Msg) (hi : Fin 4) (img : Bytes) : State :=
  if msgLast m then
    match v.validate (v.heat hi) img with
    | none => (v.loadAll hi (parseImage img)).answer m 0 (natLE 4 noSection ++ natLE 8 0)
    | some (st, sec, at_) => (v.freeHeat hi).answer m st (natLE 4 sec ++ natLE 8 at_)
  else v.answer m 0 []
/-- The bytes of a chunk before its data (R396). -/
def chunkHead (body : Bytes) : Nat := if leAt body 0 8 = 0 then 80 else 16

section
variable {t : State} {m : Msg} {hi : Fin 4} (hheat : msgHeat m = hi.val)
  (hfit : ¬ (m.body.length < chunkHead m.body ∨ mib < (m.body.drop (chunkHead m.body)).length ∨ leAt m.body 8 8 ≠ 0))
  (hphase : (t.heat hi).phase = .free ∨ (t.heat hi).phase = .loading)
include hheat hfit hphase

/-- A chunk that follows what the heat holds joins it (R396). -/
theorem serveLoadImage_ok {u : State} (hstart : t.chunkStart hi (leAt m.body 0 8) (leAt m.body 16 64) = .ok u) :
    let img := (u.heat hi).chunks ++ m.body.drop (chunkHead m.body)
    t.serveLoadImage m = (u.modHeat hi (fun h => { h with chunks := img })).chunkEnd m hi img := by
  unfold chunkHead at hfit ⊢
  unfold State.serveLoadImage State.chunkEnd
  rw [onHeat_of hheat, if_pos hphase]
  unfold State.loadChunk
  dsimp only
  rw [if_neg hfit, hstart]
  cases msgLast m
  · rfl
  · simp only [Bool.not_true, Bool.false_eq_true, if_false, if_true]
    generalize State.validate _ _ _ = verdict
    cases verdict <;> rfl
/-- One that does not frees the heat, with the status it gives (R396). -/
theorem serveLoadImage_error {st : Nat} (hstart : t.chunkStart hi (leAt m.body 0 8) (leAt m.body 16 64) = .error st)
    (hlast : msgLast m = false) : t.serveLoadImage m = (t.freeHeat hi).answer m st [] := by
  unfold chunkHead at hfit
  unfold State.serveLoadImage
  rw [onHeat_of hheat, if_pos hphase]
  unfold State.loadChunk
  dsimp only
  rw [if_neg hfit, hstart, hlast]
  rfl

end

/-- The first chunk of a FREE heat is admitted for its record (R397). -/
theorem chunkStart_free {t : State} {hi : Fin 4} {off : Nat} (hphase : (t.heat hi).phase = .free) (hoff : off = 0) (record : Nat) :
    t.chunkStart hi off record = t.admitHeat hi record := by
  subst hoff
  unfold State.chunkStart
  rw [hphase]
  rfl
/-- A later chunk goes on where the last one ended (R396). -/
theorem chunkStart_loading {t : State} {hi : Fin 4} {off : Nat} (hphase : (t.heat hi).phase = .loading)
    (hoff : off = (t.heat hi).chunks.length) (hzero : off ≠ 0) (record : Nat) : t.chunkStart hi off record = .ok t := by
  unfold State.chunkStart
  rw [hphase]
  exact if_pos ⟨hoff, hzero⟩

/-! The other requests (R263, R275, R347, R399, R400). -/

section
variable {t : State} {m : Msg} {hi : Fin 4} (hheat : msgHeat m = hi.val)
include hheat

/-- A START that is accepted has its reply later (R399). -/
theorem serveStart_ok {p : Program} (himage : (t.heat hi).image = some p) (hphase : (t.heat hi).phase = .loaded ∨ (t.heat hi).phase = .stopped)
    (hbody : startOk p t.com.boot.settings m.body = true) :
    t.serveStart m = (t.deferReply m.conn (msgSeq m) hi.val).launchJob hi p
      (jobOf t.com.boot.settings (leAt m.body 0 128) (m.conn, msgSeq m)) := by
  unfold State.serveStart State.startMsg
  rw [onHeat_of hheat]
  simp only [himage, if_pos (And.intro hphase hbody)]
theorem serveStop_running (hrun : (t.heat hi).phase = .running) : t.serveStop m = (t.stopAtNext hi).answer m 0 [] := by
  unfold State.serveStop
  rw [onHeat_of hheat, if_pos hrun]
theorem serveCheckpoint_ahead (hrun : (t.heat hi).phase = .running) (hsize : 9 ≤ m.body.length) (hrsv : rsv (leAt m.body 8 1) 7 2 = true)
    (hahead : (t.heat hi).hu.step < leAt m.body 0 8) :
    t.serveCheckpoint m = (t.modHeat hi (fun h => { h with ck := { h.ck with
      extra := h.ck.extra ++ [(leAt m.body 0 8, bitAt (leAt m.body 8 1) 0, bitAt (leAt m.body 8 1) 1)] } })).answer m 0 [] := by
  unfold State.serveCheckpoint
  rw [onHeat_of hheat]
  dsimp only
  rw [if_neg (by simp [hrun, hsize.not_gt, hrsv]), if_neg hahead.not_ge]
theorem serveRearm_inRange (hrun : (t.heat hi).phase = .running) (hsize : 2 ≤ m.body.length) (hport : leAt m.body 0 1 < 2)
    (hserver : leAt m.body 1 1 < ((t.heat hi).image.map Program.serverCount).getD 0) :
    t.serveRearm m = (t.modHeat hi (fun h => { h with pipe := { h.pipe with qps := h.pipe.qps.map (fun q =>
      if q.port = leAt m.body 0 1 ∧ q.server = leAt m.body 1 1 then { q with err := false } else q) } })).answer m 0 [] := by
  unfold State.serveRearm
  rw [onHeat_of hheat]
  dsimp only
  rw [if_neg (by simp only [hrun, ne_eq, not_true_eq_false, false_or]; omega)]

end

/-- Settles O25: a request that is accepted is served (`accepted_next`), each by its own lemma. -/
theorem jobsAreControlled : Obligations.JobsAreControlled := by
  intro s m k hi hheat t h
  refine ⟨fun ha hrsv => ?_, fun ha p himage hphase hbody => ?_, fun ha hrun => ?_, fun ha hrun hsize hrsv hahead => ?_,
    fun ha hrun hsize hport hserver => ?_⟩
  · intro off data ends hdata
    have hserved {v : State} (hv : t.serveLoadImage m = v) : exec (.loadImage m) s = .next v :=
      accepted_next (go := State.serveLoadImage m) ha rfl hv
    have hfit (hsize : chunkHead m.body ≤ m.body.length) :
        ¬ (m.body.length < chunkHead m.body ∨ mib < (m.body.drop (chunkHead m.body)).length ∨ leAt m.body 8 8 ≠ 0) := by
      have : (m.body.drop (chunkHead m.body)).length ≤ mib := hdata
      omega
    have hends {u : State} (hsize : chunkHead m.body ≤ m.body.length) (hphase : (t.heat hi).phase = .free ∨ (t.heat hi).phase = .loading)
        (hstart : t.chunkStart hi off (leAt m.body 16 64) = .ok u) : ends u := by
      have hserve := serveLoadImage_ok hheat (hfit hsize) hphase hstart
      exact And.intro (fun hlast => hserved (hserve.trans (if_neg (by simp [hlast])))) (fun hlast => hserved (hserve.trans (if_pos hlast)))
    refine ⟨fun hfree hoff hsize u hadmit => ?_, fun hfree hoff hsize st hrefused hlast => ?_, fun hloading hnext hoff hsize => ?_⟩
    · have hhead : chunkHead m.body = 80 := if_pos hoff
      exact hends (hhead ▸ hsize) (.inl hfree) ((chunkStart_free (t := t) hfree hoff _).trans hadmit)
    · have hhead : chunkHead m.body = 80 := if_pos hoff
      have hstart := (chunkStart_free (t := t) hfree hoff _).trans hrefused
      exact hserved (serveLoadImage_error (t := t) hheat (hfit (hhead ▸ hsize)) (.inl hfree) hstart hlast)
    · have hhead : chunkHead m.body = 16 := if_neg hoff
      exact hends (hhead ▸ hsize) (.inr hloading) (chunkStart_loading (t := t) hloading hnext hoff _)
  · exact accepted_next (go := State.serveStart m) ha rfl (serveStart_ok hheat himage hphase hbody)
  · exact accepted_next (go := State.serveStop m) ha rfl (serveStop_running hheat hrun)
  · exact accepted_next (go := State.serveCheckpoint m) ha rfl (serveCheckpoint_ahead hheat hrun hsize hrsv hahead)
  · exact accepted_next (go := State.serveRearm m) ha rfl (serveRearm_inRange hheat hrun hsize hport hserver)

end Sys2Proof.Machine
end

section
/-! Samples posted (R265, R286 to R288): where a descriptor goes and what the channel counts. -/
namespace Sys2Proof.Machine

/-- A sample that is marked once every channel has it leaves clusters and channels as they were. -/
theorem markSample_cl (t : State) (hi : Fin 4) (i g j n m : Nat) (f : Sample → Sample) (b : Prop) [Decidable b] (c : Fin 64) :
    (if b then (t.modSample hi i f).bump g j n m else t).cl c = t.cl c := by
  split <;> rfl
theorem markSample_chans (t : State) (hi : Fin 4) (i g j n m : Nat) (f : Sample → Sample) (b : Prop) [Decidable b] :
    ((if b then (t.modSample hi i f).bump g j n m else t).heat hi).chans = (t.heat hi).chans := by
  split
  · rw [State.bump_heat, State.modSample, State.modPipe, State.heat_modHeat_same]
  · rfl

section
variable {s : State} {hi : Fin 4} {k : Nat} {c : Chan} (i : Nat)
  (hchan : (s.heat hi).chans[((s.heat hi).chans.filter (fun c => c.def_.prod.isSome)).length + k]? = some c)
include hchan

/-- The consumer's memory takes the descriptor, without its ready bit, in the slot after the last one posted (R286, R288). -/
theorem postSample_store {cl : Fin 64} (hcl : (s.heat hi).clusterList[(s.heat hi).runs c.def_.cons]? = some cl) :
    let w := leNat ((s.heat hi).staging.get ((s.heat hi).descOffset i) 256)
    ((s.postSample hi k i).cl cl).store = (s.cl cl).store.put (c.def_.buffer + 256 * (c.posted % c.def_.slots))
      (natLE 256 (if bitAt w 104 then w - 2 ^ 104 else w)) := by
  unfold State.postSample
  simp only [hchan, hcl]
  rw [markSample_cl, State.modHeat_cl, State.cl_modCl_same]
/-- The channel has one more entry (R286). -/
theorem postSample_posted : ((s.postSample hi k i).heat hi).chans[((s.heat hi).chans.filter (fun c => c.def_.prod.isSome)).length + k]? =
    some { c with posted := c.posted + 1 } := by
  unfold State.postSample
  simp only [hchan]
  rw [markSample_chans, State.heat_modHeat_same]
  cases (s.heat hi).clusterList[(s.heat hi).runs c.def_.cons]? <;> simp [Heat.modChan, hchan]

end

/-- Settles O47: the row posts what comes next; its descriptor and its channel are as the two lemmas say. -/
theorem samplesArePosted : Obligations.SamplesArePosted := by
  intro s hi p hrun himage u hposting hfrozen k i hnext
  refine ⟨?_, fun c cl hchan hcl => ⟨postSample_store i hchan hcl, postSample_posted i hchan⟩⟩
  change execSamplePost hi s = _
  have hpipe : s.pipeOf hi = some p := by simp [State.pipeOf, hrun, himage]
  unfold execSamplePost
  rw [hpipe]
  simp only [show s.settleSamples hi p = u from rfl, hposting, hfrozen, hnext, Bool.not_true, Bool.or_self, Bool.false_eq_true, if_false]

end Sys2Proof.Machine
end

section
/-! Queue pairs and feed ports (R274 to R276): the pair that is read back after a change, and the rows of a pair's timers and of a port. -/
namespace Sys2Proof.Machine

/-! Access to a heat's pipeline. -/

theorem pipeOf_running {s : State} {hi : Fin 4} {p : Program} (hrun : (s.heat hi).phase = .running) (himage : (s.heat hi).image = some p) :
    s.pipeOf hi = some p := (if_pos hrun).trans himage

/-- Whether a pair has given numbers. -/
def Qp.hasNumbers (port server : Nat) (q : Qp) : Bool := q.port == port && q.server == server
theorem Qp.hasNumbers_iff {port server : Nat} {q : Qp} : Qp.hasNumbers port server q = true ↔ (q.port, q.server) = (port, server) := by
  simp [Qp.hasNumbers]
theorem Heat.qp_eq (h : Heat) (port server : Nat) : h.qp port server = (h.pipe.qps.find? (Qp.hasNumbers port server)).getD
    (freshQp port server ((h.image.map (fun p => fld (p.server server) 175 152)).getD 0)) := rfl
theorem State.putQp_heat (s : State) (hi : Fin 4) (q : Qp) : (s.putQp hi q).heat hi = { s.heat hi with
    pipe := { (s.heat hi).pipe with qps := (s.heat hi).pipe.qps.filter (fun x => !Qp.hasNumbers q.port q.server x) ++ [q] } } :=
  State.heat_modHeat_same ..
/-- A pair has the numbers it is asked for by. -/
theorem Heat.qp_numbers (h : Heat) (port server : Nat) : ((h.qp port server).port, (h.qp port server).server) = (port, server) := by
  rw [Heat.qp_eq]
  cases hfind : h.pipe.qps.find? (Qp.hasNumbers port server) with
  | none => rfl
  | some q => exact Qp.hasNumbers_iff.mp (List.find?_some hfind)
/-- A pair that was put is read back. -/
theorem State.qp_putQp_same (s : State) (hi : Fin 4) {q : Qp} {port server : Nat} (h : (q.port, q.server) = (port, server)) :
    ((s.putQp hi q).heat hi).qp port server = q := by
  obtain ⟨rfl, rfl⟩ := Prod.mk.inj h
  have hgone : ((s.heat hi).pipe.qps.filter (fun x => !Qp.hasNumbers q.port q.server x)).find? (Qp.hasNumbers q.port q.server) = none :=
    List.find?_eq_none.mpr fun x hx => by simpa using (List.mem_filter.mp hx).2
  have hown : Qp.hasNumbers q.port q.server q = true := Qp.hasNumbers_iff.mpr rfl
  rw [Heat.qp_eq, State.putQp_heat, List.find?_append, hgone, List.find?_cons_of_pos hown]
  rfl
/-- The others are untouched. -/
theorem State.qp_putQp_ne (s : State) (hi : Fin 4) {q : Qp} {port server : Nat} (h : (port, server) ≠ (q.port, q.server)) :
    ((s.putQp hi q).heat hi).qp port server = (s.heat hi).qp port server := by
  have hkept : (fun x => !Qp.hasNumbers q.port q.server x && Qp.hasNumbers port server x) = Qp.hasNumbers port server := by
    funext x
    cases hx : Qp.hasNumbers port server x with
    | false => exact Bool.and_false _
    | true =>
      have hother : Qp.hasNumbers q.port q.server x = false := by
        rwa [← Bool.not_eq_true, Qp.hasNumbers_iff, Qp.hasNumbers_iff.mp hx]
      rw [hother]
      rfl
  have hown : Qp.hasNumbers port server q = false := by
    rw [← Bool.not_eq_true, Qp.hasNumbers_iff]
    exact h.symm
  simp [Heat.qp_eq, State.putQp_heat, List.find?_append, List.find?_filter, hkept, hown]
theorem State.putQp_heat_congr {s u : State} (h : ∀ j, u.heat j = s.heat j) (hi : Fin 4) (q : Qp) (j : Fin 4) :
    (u.putQp hi q).heat j = (s.putQp hi q).heat j := by
  simp only [State.putQp, State.modPipe, State.heat_modHeat, h]

/-! The rows of a queue pair (R275, R276). -/

section
variable {s : State} {hi : Fin 4} {p : Program} {fp : Fin 2} {server : Fin 64} (hpipe : s.pipeOf hi = some p)
include hpipe

/-- The oldest read goes out again with a retry more (R275). -/
theorem exec_ackTimeout_resends {n : Nat} {r : Read} {t : Nat} (hold : ((s.heat hi).qp fp.val server.val).oldest = some (n, r))
    (hsent : r.sentAt = some t) (htries : r.tries < 7) :
    let q := (s.heat hi).qp fp.val server.val
    let u := s.reach (t + 67 * milli)
    let r := { r with tries := r.tries + 1, sentAt := some u.now }
    exec (.ackTimeout hi fp server) s =
      .next (((u.transient.bump 5 fp.val 3).putQp hi { q with reads := q.reads.set n r }).sendRead hi p q r) := by
  change execAckTimeout hi fp server s = _
  unfold execAckTimeout
  simp only [hpipe, hold, hsent, Option.getD_some, if_neg htries.not_ge]
/-- The pair fails (R275). -/
theorem exec_ackTimeout_fails {n : Nat} {r : Read} {t : Nat} (hold : ((s.heat hi).qp fp.val server.val).oldest = some (n, r))
    (hsent : r.sentAt = some t) (htries : 7 ≤ r.tries) :
    exec (.ackTimeout hi fp server) s = .next ((s.reach (t + 67 * milli)).failQp hi p ((s.heat hi).qp fp.val server.val)) := by
  change execAckTimeout hi fp server s = _
  unfold execAckTimeout
  simp only [hpipe, hold, hsent, Option.getD_some, if_pos htries]
/-- The reads that one NAK holds go out again (R275). -/
theorem exec_nakRetry_held {r : Read} {t : Nat}
    (hheld : ((s.heat hi).qp fp.val server.val).reads.find? (fun r => r.nakAt.isSome) = some r) (hnak : r.nakAt = some t) :
    let q := (s.heat hi).qp fp.val server.val
    exec (.nakRetry hi fp server) s = .next (State.pumpQp hi p fp.val server.val 16 ((s.reach (t + second)).putQp hi { q with
      reads := q.reads.map (fun x => if x.nakAt = some t then { x with nakAt := none } else x) })) := by
  change execNakRetry hi fp server s = _
  unfold execNakRetry
  simp only [hpipe, hheld, hnak, Option.getD_some]
/-- A marked packet has its CNP, where the last one is 50 µs old (R276). -/
theorem exec_cePacket_answers (hdue : ∀ t, ((s.heat hi).qp fp.val server.val).cnpOut = some t → t + 50 * micro ≤ s.now) :
    let q := (s.heat hi).qp fp.val server.val
    exec (.cePacket hi fp server) s =
      .next (((s.putQp hi { q with cnpOut := some s.now }).emit (cnpPacket (s.qpHdr hi p q q.psn))).bump 5 fp.val 5) := by
  change execCePacket hi fp server s = _
  unfold execCePacket
  simp only [hpipe]
  refine if_neg ?_
  cases hout : ((s.heat hi).qp fp.val server.val).cnpOut with
  | none => simp
  | some t => simpa using hdue t hout
/-- It has none before that (R276). -/
theorem exec_cePacket_silent {t : Nat} (hout : ((s.heat hi).qp fp.val server.val).cnpOut = some t) (hnow : s.now < t + 50 * micro) :
    exec (.cePacket hi fp server) s = .next s := by
  change execCePacket hi fp server s = _
  unfold execCePacket
  simp only [hpipe, hout, Option.map_some, Option.getD_some, decide_eq_true hnow, if_true]
/-- A CNP halves the rate (R276). -/
theorem exec_cnpReceived_halves :
    let q := (s.heat hi).qp fp.val server.val
    exec (.cnpReceived hi fp server) s =
      .next ((s.putQp hi { q with rate := max 1024 (q.rate / 2), cnpIn := some s.now }).bump 5 fp.val 6) :=
  if_neg (by simp [hpipe])
/-- 100 µs without a CNP raise it (R276). -/
theorem exec_rateRecovery_raises {t : Nat} (hin : ((s.heat hi).qp fp.val server.val).cnpIn = some t) :
    let q := (s.heat hi).qp fp.val server.val
    let u := s.reach (t + 100 * micro)
    exec (.rateRecovery hi fp server) s = .next (u.putQp hi { q with
      rate := min 65536 (q.rate + 4096), cnpIn := if q.rate + 4096 < 65536 then some u.now else none }) := by
  change execRateRecovery hi fp server s = _
  unfold execRateRecovery
  simp only [hpipe, hin, ← Nat.not_lt, ite_not]

end

/-- Settles O44: each clause is the row's own lemma. -/
theorem queuePairsKeepTime : Obligations.QueuePairsKeepTime := by
  intro s hi p fp server hrun himage q
  have hpipe := pipeOf_running hrun himage
  refine ⟨fun n r t hold hsent => ⟨fun htries => exec_ackTimeout_resends hpipe hold hsent (by simpa using htries),
      fun htries => exec_ackTimeout_fails hpipe hold hsent (Nat.le_of_lt_succ htries)⟩,
    fun r t hheld hnak => exec_nakRetry_held hpipe hheld hnak, exec_cePacket_answers hpipe,
    fun t hout hnow => exec_cePacket_silent hpipe hout hnow, exec_cnpReceived_halves hpipe, fun t hin => exec_rateRecovery_raises hpipe hin⟩

/-! The rate (R276). -/

theorem exec_cnpReceived_idle {s : State} {hi : Fin 4} {fp : Fin 2} {server : Fin 64} (hpipe : s.pipeOf hi = none) :
    exec (.cnpReceived hi fp server) s = .next s := if_pos (by rw [hpipe]; rfl)
/-- A pair that had no CNP, or whose heat does not run, does not recover. -/
theorem exec_rateRecovery_idle {s : State} {hi : Fin 4} {fp : Fin 2} {server : Fin 64}
    (hidle : ¬ ((s.pipeOf hi).isSome ∧ ((s.heat hi).qp fp.val server.val).cnpIn.isSome)) :
    exec (.rateRecovery hi fp server) s = .next s := by
  change execRateRecovery hi fp server s = _
  unfold execRateRecovery
  dsimp only
  split
  case h_1 hpipe hin => exact absurd ⟨by rw [hpipe]; rfl, by rw [hin]; rfl⟩ hidle
  case h_2 => rfl

/-- A CNP and a recovery change one pair of the heat, if any, and keep its rate in range. -/
theorem rateRow_puts {s t : State} {hi : Fin 4} {fp : Fin 2} {server : Fin 64} {i : Instr}
    (hrow : i ∈ [Instr.cnpReceived hi fp server, .rateRecovery hi fp server]) (hexec : exec i s = .next t) :
    let q := (s.heat hi).qp fp.val server.val
    t = s ∨ ∃ rate cnpIn, (∀ j, t.heat j = (s.putQp hi { q with rate := rate, cnpIn := cnpIn }).heat j) ∧ t.clusters = s.clusters ∧
      (1024 ≤ q.rate → 1024 ≤ rate) ∧ (q.rate ≤ 65536 → rate ≤ 65536) := by
  intro q
  simp only [List.mem_cons, List.not_mem_nil, or_false] at hrow
  obtain rfl | rfl := hrow
  · cases hpipe : s.pipeOf hi with
    | none => exact .inl (Host.Outcome.next.inj ((exec_cnpReceived_idle hpipe).symm.trans hexec)).symm
    | some p =>
      obtain rfl := Host.Outcome.next.inj ((exec_cnpReceived_halves hpipe).symm.trans hexec)
      exact .inr ⟨_, _, fun j => rfl, rfl, fun _ => le_max_left .., fun h => max_le (by decide) ((Nat.div_le_self ..).trans h)⟩
  · by_cases hdue : (s.pipeOf hi).isSome ∧ q.cnpIn.isSome
    · obtain ⟨⟨p, hpipe⟩, t', hin⟩ := hdue.imp Option.isSome_iff_exists.mp Option.isSome_iff_exists.mp
      obtain rfl := Host.Outcome.next.inj ((exec_rateRecovery_raises hpipe hin).symm.trans hexec)
      exact .inr ⟨_, _, State.putQp_heat_congr (s.reach_heat _) hi _, (s.reach_core _).1,
        fun h => le_min (by decide) (h.trans (Nat.le_add_right ..)), fun _ => min_le_left ..⟩
    · exact .inl (Host.Outcome.next.inj ((exec_rateRecovery_idle hdue).symm.trans hexec)).symm

/-- Settles O45: a row changes at most one pair's rate (`rateRow_puts`), which is then read back; the others are not touched. -/
theorem rateStaysInRange : Obligations.RateStaysInRange := by
  intro s t hi fp server i hrow q hlow hhigh hexec
  obtain rfl | ⟨rate, cnpIn, hheat, hclusters, hmin, hmax⟩ := rateRow_puts hrow hexec
  · exact ⟨hlow, hhigh, fun _ _ _ => rfl, fun _ _ => rfl, rfl, rfl⟩
  · have hnumbers : (q.port, q.server) = (fp.val, server.val) := (s.heat hi).qp_numbers ..
    have hsame : (t.heat hi).qp fp.val server.val = { q with rate := rate, cnpIn := cnpIn } := by
      rw [hheat]
      exact s.qp_putQp_same hi hnumbers
    refine ⟨by rw [hsame]; exact hmin hlow, by rw [hsame]; exact hmax hhigh, fun port k hne => ?_, fun j hj => ?_, ?_, hclusters⟩
    · rw [hheat]
      exact s.qp_putQp_ne hi (fun h => hne (h.trans hnumbers))
    · rw [hheat]
      exact State.heat_modHeat_ne _ _ _ _ hj.symm
    · rw [hheat, State.putQp_heat]

/-! The rows of a feed port (R274, R275). -/

section
variable {s : State} {fp : Fin 2} {r : Nat} {target : Bytes} (hrecord : s.com.boot.portRecord fp = some r) (hup : (s.com.feed[fp]).up = true)
include hrecord hup

/-- A request for the port's IPv4 address is answered (R274). -/
theorem exec_arpRequest_answers (hlen : target.length = 4) (hown : fld r 191 64 = 0xFFFF * 2 ^ 32 + beNat target) :
    exec (.arpRequest fp target) s = .next (s.emit (.arpReply fp.val target (natBE 6 (fld r 47 0)))) := by
  change execArpRequest fp target s = _
  unfold execArpRequest
  simp only [if_pos hlen, hrecord, hup, Bool.true_and, if_pos (beq_iff_eq.mpr hown)]
/-- A solicitation for its IPv6 address is answered (R274). -/
theorem exec_neighborSolicitation_answers (hlen : target.length = 16) (hown : fld r 191 64 = beNat target) :
    exec (.neighborSolicitation fp target) s = .next (s.emit (.neighbourAdvert fp.val target (natBE 6 (fld r 47 0)))) := by
  change execNeighborSolicitation fp target s = _
  unfold execNeighborSolicitation
  simp only [if_pos hlen, hrecord, hup, Bool.true_and, if_pos (beq_iff_eq.mpr hown)]

end

/-- A port that goes down, or is down, retires a second after it went (R275). -/
theorem exec_feedPortLinkDown_retires {s : State} {fp : Fin 2} (hlive : (s.com.feed[fp]).retired = false)
    (hlink : (s.com.feed[fp]).up = true ∨ (s.com.feed[fp]).downSince.isSome) :
    let t := (s.com.feed[fp]).downSince.getD s.now
    exec (.feedPortLinkDown fp) s =
      .next (((s.modFeed fp (fun k => { k with up := false, downSince := some t })).reach (t + second)).retireFeed fp) :=
  if_neg (by
    rw [hlive, ← Option.not_isSome]
    rcases hlink with h | h <;> rw [h] <;> simp)

/-- Settles O46: each clause is the row's own lemma. -/
theorem feedPortsAnswer : Obligations.FeedPortsAnswer :=
  fun _ _ => ⟨fun _ _ hrecord hup => ⟨exec_arpRequest_answers hrecord hup, exec_neighborSolicitation_answers hrecord hup⟩,
    exec_feedPortLinkDown_retires⟩

end Sys2Proof.Machine
end

section
/-! Fetching (R275, R279 to R284, R295, R331): what a pipeline fetches, a frame that a port cannot use, an answer to the oldest read of a pair, a
record that has landed. -/
namespace Sys2Proof.Machine

/-- A running heat that nothing freezes fetches, and its samples settle (R275, R283, R284). -/
theorem exec_sampleFetch_running {s : State} {hi : Fin 4} {p : Program} (hrun : (s.heat hi).phase = .running)
    (himage : (s.heat hi).image = some p) (hfrozen : s.frozenHeat hi = false) :
    exec (.sampleFetch hi) s = .next ((((s.settleReads hi p).startRecord hi p).startEntry hi p).settleSamples hi p) := by
  change execSampleFetch hi s = _
  unfold execSampleFetch
  rw [himage]
  exact if_pos ⟨hrun, by rw [hfrozen]; rfl⟩

/-! Frames that a port cannot use (R275, R331). -/

/-- A frame with a fault is counted where its ICRC fails (R409). -/
def State.countFault (s : State) (fp : Fin 2) (f : FrameFault) : State := if f = .icrc then s.bump 5 fp.val 4 else s
theorem pipeOf_countFault (s : State) (hi : Fin 4) (fp : Fin 2) (f : FrameFault) : (s.countFault fp f).pipeOf hi = s.pipeOf hi := by
  cases f <;> rfl
/-- With no read outstanding the port alone is charged. -/
theorem badFrame_idle {s : State} {hi : Fin 4} {fp : Fin 2} {server : Nat} (hnone : ((s.heat hi).qp fp.val server).oldest = none) (f : FrameFault) :
    s.badFrame hi fp server f = (s.countFault fp f).chargeFeed fp false := by
  unfold State.badFrame
  simp only [hnone, Option.bind_fun_none]
  rfl
/-- The oldest read has lost an answer, and a third one lost retires the port. -/
theorem badFrame_oldest {s : State} {hi : Fin 4} {p : Program} {fp : Fin 2} {server n : Nat} {r : Read} (hpipe : s.pipeOf hi = some p)
    (hold : ((s.heat hi).qp fp.val server).oldest = some (n, r)) (f : FrameFault) :
    let q := (s.heat hi).qp fp.val server
    s.badFrame hi fp server f =
      ((s.countFault fp f).putQp hi { q with reads := q.reads.set n { r with lost := r.lost + 1 } }).chargeFeed fp (2 ≤ r.lost) := by
  have hcount : (if f = .icrc then s.bump 5 fp.val 4 else s).pipeOf hi = some p := (pipeOf_countFault s hi fp f).trans hpipe
  unfold State.badFrame
  simp only [hcount, hold, Option.bind_some, Nat.succ_le_succ_iff]
  rfl

/-- An answer takes a read off its pair, which goes on (R275). -/
def State.takeAnswer (s : State) (hi : Fin 4) (p : Program) (fp : Fin 2) (server n : Nat) (data : Bytes) : State :=
  let q := (s.heat hi).qp fp.val server
  State.pumpQp hi p fp.val server 16 ((s.putQp hi { q with reads := q.reads.eraseIdx n }).bump 5 fp.val 0 data.length)

section
variable {s : State} {hi : Fin 4} {fp : Fin 2} {server : Fin 64} {data : Bytes} {nak : Bool} (hup : (s.com.feed[fp]).up = true)
include hup

theorem exec_rdmaReadResponse_bad {f : FrameFault} {v : State} (hbad : s.badFrame hi fp server.val f = v) :
    exec (.rdmaReadResponse hi fp server data nak (some f)) s = .next v :=
  (if_neg (by rw [hup]; decide)).trans (congrArg Host.Outcome.next hbad)

/-! Answers (R274, R275, R280, R283). -/

variable {p : Program} {n : Nat} {r : Read} (hpipe : s.pipeOf hi = some p) (hold : ((s.heat hi).qp fp.val server.val).oldest = some (n, r))
include hpipe hold

/-- A remote access error holds the read (R275). -/
theorem exec_rdmaReadResponse_nak :
    let q := (s.heat hi).qp fp.val server.val
    exec (.rdmaReadResponse hi fp server data true none) s = .next (State.pumpQp hi p fp.val server.val 16
      ((s.putQp hi { q with reads := q.reads.set n { r with sentAt := none, nakAt := some s.now } }).bump 5 fp.val 7)) := by
  change execRdmaReadResponse hi fp server data true none s = _
  unfold execRdmaReadResponse
  simp only [hup, hpipe, hold, Bool.not_true, Bool.false_eq_true, if_false, if_true]
/-- Data of an entry reaches its sample (R280). -/
theorem exec_rdmaReadResponse_entry (hlen : data.length = r.len) {k : Nat} (hwhat : r.what = .entry k) :
    exec (.rdmaReadResponse hi fp server data false none) s = .next (((s.takeAnswer hi p fp server.val n data).onEntry hi p k data).afterPart hi p) := by
  change execRdmaReadResponse hi fp server data false none s = _
  unfold execRdmaReadResponse
  simp only [hup, hpipe, hold, hwhat, if_neg (not_not_intro hlen), Bool.not_true, Bool.false_eq_true, if_false]
  rfl
/-- Data of a record reaches its sample (R283). -/
theorem exec_rdmaReadResponse_record (hlen : data.length = r.len) {k off : Nat} (hwhat : r.what = .record k off) :
    exec (.rdmaReadResponse hi fp server data false none) s = .next ((s.takeAnswer hi p fp server.val n data).onRecord hi p k off data) := by
  change execRdmaReadResponse hi fp server data false none s = _
  unfold execRdmaReadResponse
  simp only [hup, hpipe, hold, hwhat, if_neg (not_not_intro hlen), Bool.not_true, Bool.false_eq_true, if_false]
  rfl

end

/-! A record that has landed (R281, R282, R295). -/

section
variable {s : State} {hi : Fin 4} {p : Program} {i off len : Nat} {x : Sample} (hpipe : s.pipeOf hi = some p)
  (hsample : (s.heat hi).sample i = some x) (hphase : x.phase = .landed) (hrecord : x.record_ = some (off, len)) (hfrozen : s.frozenHeat hi = false)
include hpipe hsample hphase hrecord hfrozen

/-- A whole record that is malformed is rejected (R281, R282). -/
theorem exec_recordLanded_malformed {r : Nat} (hcrc : crc32c ((s.heat hi).mem.get (p.recordRegion.1 + off) len) = fld x.entry 191 160)
    (hparse : parseRecord p (s.heat hi).tok (p.aug (fld x.entry 15 8)) ((s.heat hi).mem.get (p.recordRegion.1 + off) len) = .error r) :
    exec (.recordLanded hi i) s = .next ((s.reject hi p i r).afterPart hi p) := by
  change execRecordLanded hi i s = _
  unfold execRecordLanded
  simp only [hpipe, hsample, hphase, hrecord, hfrozen, hcrc, hparse, Bool.false_eq_true, if_false, if_true]
/-- Its parts go to decode (R281). -/
theorem exec_recordLanded_parts {ps : List PartSt} (hcrc : crc32c ((s.heat hi).mem.get (p.recordRegion.1 + off) len) = fld x.entry 191 160)
    (hparse : parseRecord p (s.heat hi).tok (p.aug (fld x.entry 15 8)) ((s.heat hi).mem.get (p.recordRegion.1 + off) len) = .ok ps) :
    exec (.recordLanded hi i) s = .next ((s.modSample hi i (fun x => { x with phase := .decoding, parts := ps })).assign hi) := by
  change execRecordLanded hi i s = _
  unfold execRecordLanded
  simp only [hpipe, hsample, hphase, hrecord, hfrozen, hcrc, hparse, Bool.false_eq_true, if_false, if_true]
/-- The third failed check rejects it (R295). -/
theorem exec_recordLanded_thirdFailure (hcrc : crc32c ((s.heat hi).mem.get (p.recordRegion.1 + off) len) ≠ fld x.entry 191 160)
    (hfails : 2 ≤ x.checkFails) : exec (.recordLanded hi i) s = .next ((s.reject hi p i 5).afterPart hi p) := by
  change execRecordLanded hi i s = _
  unfold execRecordLanded
  simp only [hpipe, hsample, hphase, hrecord, hfrozen, hcrc, Bool.false_eq_true, if_false, if_pos (Nat.succ_le_succ hfails)]
/-- An earlier one has it fetched again (R295). -/
theorem exec_recordLanded_again (hcrc : crc32c ((s.heat hi).mem.get (p.recordRegion.1 + off) len) ≠ fld x.entry 191 160)
    (hfails : x.checkFails < 2) : exec (.recordLanded hi i) s = .next ((s.transient.modSample hi i (fun x => { x with
      phase := .record, checkFails := x.checkFails + 1 })).fetchRecord hi p x) := by
  change execRecordLanded hi i s = _
  unfold execRecordLanded
  simp only [hpipe, hsample, hphase, hrecord, hfrozen, hcrc, Bool.false_eq_true, if_false, if_neg (Nat.succ_lt_succ hfails).not_ge]

end

/-- Settles O43: each clause is a row's own lemma; a frame that fails comes to `badFrame_idle` or `badFrame_oldest`. -/
theorem samplesAreFetched : Obligations.SamplesAreFetched := by
  intro s hi p hrun himage
  have hpipe := pipeOf_running hrun himage
  refine ⟨exec_sampleFetch_running hrun himage, fun fp server data nak hup hnone => ?_, fun fp server data nak n r hup => ?_,
    fun i x off len hsample hphase hrecord hfrozen => ?_⟩
  · exact ⟨exec_rdmaReadResponse_bad hup (badFrame_idle hnone .icrc), exec_rdmaReadResponse_bad hup (badFrame_idle hnone .fec)⟩
  · intro q hold i lost held taken
    refine ⟨exec_rdmaReadResponse_bad hup (badFrame_oldest hpipe hold .icrc), exec_rdmaReadResponse_bad hup (badFrame_oldest hpipe hold .fec), ?_, ?_⟩
    · rintro rfl
      exact exec_rdmaReadResponse_nak hup hpipe hold
    · rintro rfl hlen
      exact ⟨fun k hentry => exec_rdmaReadResponse_entry hup hpipe hold hlen hentry,
        fun k off hrecord => exec_rdmaReadResponse_record hup hpipe hold hlen hrecord⟩
  · exact ⟨fun hcrc r hparse => exec_recordLanded_malformed hpipe hsample hphase hrecord hfrozen hcrc hparse,
      fun hcrc ps hparse => exec_recordLanded_parts hpipe hsample hphase hrecord hfrozen hcrc hparse,
      exec_recordLanded_thirdFailure hpipe hsample hphase hrecord hfrozen, exec_recordLanded_again hpipe hsample hphase hrecord hfrozen⟩

end Sys2Proof.Machine
end

section
/-! Media engines (R287, R293, R294, R313 to R318, R327, R328): a survey and what it lays out, a picture that goes into its slot or waits for one, a part
that its decoder finishes or refuses. -/
namespace Sys2Proof.Machine

/-! Access. -/

theorem Heat.sample_idx {h : Heat} {i : Nat} {x : Sample} (hsample : h.sample i = some x) : x.idx = i :=
  beq_iff_eq.mp (List.find?_some (p := fun y : Sample => y.idx == i) hsample)
theorem mediaTime_heat (s : State) (u : Nat) (j : Fin 4) : (s.mediaTime u).heat j = s.heat j := by
  unfold State.mediaTime
  split <;> rfl
theorem finRange22 {n : Nat} {k : Fin 22} (h : k.val = n) : (List.finRange 22)[n]? = some k := by
  subst h; revert k; decide
theorem onMedia_of {k : Fin 22} {u : Nat} (h : k.val = u) (s : State) (f : MediaUnit → MediaUnit) : s.onMedia u f = s.modMedia k f := by
  rw [State.onMedia, finRange22 h]

/-! The survey (R293, R314 to R318). -/

theorem headers_agree {seqs : List SeqHdr} {codec : Nat} (hseqs : seqs ≠ []) (hcodec : ∀ h ∈ seqs, seqCodec h = codec) :
    (seqs.isEmpty || seqs.any (fun h => seqCodec h != codec)) = false := by
  simpa [hseqs] using hcodec
/-- The pool of a pair is laid out, every slot free (R316). -/
def State.layPool (s : State) (k : Fin 22) (v : VideoPlan) : State :=
  s.modMedia k (fun m => { m with slots := List.replicate (slotCount v.w v.h v.depth) ⟨false, [], false, none⟩, current := none, residual := some s.free })
/-- The fill slot of a start that asks for one (R318). -/
def State.fillStart (s : State) (hi : Fin 4) (p : Program) (u : Nat) (v : Surveyed) : State :=
  match v.fill with
  | some names => s.fillSlot hi p u v.plan names
  | none => s

section
variable {s : State} {hi : Fin 4} {i n u : Nat} {p : Program} {q : PartSt} {x : Sample} (hpart : s.partOn hi i n = some (p, q, u))
  (hsample : (s.heat hi).sample i = some x)
include hpart hsample

section
variable (hvideo : codecVideo q.codec = true) (hnone : q.survey = none)
include hvideo hnone

theorem exec_survey_corrupt : exec (.survey hi i n .corrupt) s = .next ((s.mediaTime u).partRefused hi p i n q u 3) := by
  change execSurvey hi i n .corrupt s = _
  unfold execSurvey
  simp only [hpart, hsample, hvideo, hnone, Option.isSome_none, Bool.not_true, Bool.or_self, Bool.false_eq_true, if_false]

variable {seqs : List SeqHdr} {pics : List VideoPic} (hseqs : seqs ≠ []) (hcodec : ∀ h ∈ seqs, seqCodec h = q.codec)
include hseqs hcodec

/-- A part beyond the limits is refused for the reason the survey gives (R293, R314, R315). -/
theorem exec_survey_refused {r : Nat}
    (hgot : surveyPart q.codec p.claimRatio q.len (p.aug (fld x.entry 15 8)) (draw (s.heat hi).seed i 4 0) seqs pics = .error r) :
    exec (.survey hi i n (.stream seqs pics)) s = .next ((s.mediaTime u).partRefused hi p i n q u r) := by
  change execSurvey hi i n (.stream seqs pics) s = _
  unfold execSurvey
  simp only [hpart, hsample, hvideo, hnone, headers_agree hseqs hcodec, mediaTime_heat, Heat.sample_idx hsample, hgot,
    Option.isSome_none, Bool.not_true, Bool.or_self, Bool.false_eq_true, if_false]
/-- Within them its pool is laid out, and the first picture that is needed takes a slot (R314, R316 to R318). -/
theorem exec_survey_lays {v : Surveyed} {k : Fin 22} (hunit : k.val = u)
    (hgot : surveyPart q.codec p.claimRatio q.len (p.aug (fld x.entry 15 8)) (draw (s.heat hi).seed i 4 0) seqs pics = .ok v) :
    exec (.survey hi i n (.stream seqs pics)) s = .next (((((((s.mediaTime u).layPool k v.plan).fillStart hi p u v).useFree).modMedia k
      (fun m => (m.advance v.plan.todo).1)).modPart hi i n (fun q => { q with survey := some { v.plan with
        todo := v.plan.todo.drop (v.plan.todo.takeWhile (fun x => !x.needed)).length } })).settleSamples hi p) := by
  change execSurvey hi i n (.stream seqs pics) s = _
  unfold execSurvey
  simp only [hpart, hsample, hvideo, hnone, headers_agree hseqs hcodec, mediaTime_heat, Heat.sample_idx hsample, hgot,
    onMedia_of hunit, Option.isSome_none, Bool.not_true, Bool.or_self, Bool.false_eq_true, if_false]
  rfl

end

/-! A part that ends (R287, R293, R294, R317, R327, R328). -/

/-- The part as the augmentation units leave it, which read the slots still held for them (R317). -/
def State.readPart (s : State) (hi : Fin 4) (p : Program) (i n u : Nat) (q : PartSt) : PartSt :=
  (((if codecVideo q.codec ∨ q.codec = 3 then s.readSlots hi p i n u q else s).heat hi).part i n).getD q
/-- What a decoder makes of a part. -/
def State.partOutcome (s : State) (hi : Fin 4) (p : Program) (i n u : Nat) (q : PartSt) (x : Sample) (out : Decoded) : Option (Except Nat (Nat × Bytes)) :=
  partResult (s.heat hi) p x (s.readPart hi p i n u q) ((s.heat hi).mem.get (p.recordRegion.1 + (x.record_.getD (0, 0)).1 + q.off) q.len) out

variable {out : Decoded} (hwf : out.wf = true)
include hwf

theorem exec_partDecoded_refused {r : Nat} (hout : s.partOutcome hi p i n u q x out = some (.error r)) :
    exec (.partDecoded hi i n out) s = .next (s.partRefused hi p i n q u r) := by
  unfold State.partOutcome State.readPart at hout
  change execPartDecoded hi i n out s = _
  unfold execPartDecoded
  simp only [hwf, hpart, hsample, Bool.or_eq_true, decide_eq_true_eq, hout, Bool.not_true, Bool.false_eq_true, if_false]
/-- A part that is done keeps its record and bytes, its unit is free, and an error that did not repeat is charged (R287, R327, R328). -/
theorem exec_partDecoded_done {rec : Nat} {bs : Bytes} (hout : s.partOutcome hi p i n u q x out = some (.ok (rec, bs))) :
    let v := (if u = 22 then s else ((s.bump 6 u 0).bump 6 u 4 (decodedElems (s.readPart hi p i n u q) out)).mediaTime u).chargeFirst q
    exec (.partDecoded hi i n out) s = .next
      ((((v.clearSlots u).modPart hi i n (fun q => { q with phase := .done rec bs, got := [] })).releaseRecord hi i).afterPart hi p) := by
  unfold State.partOutcome State.readPart at hout
  unfold State.readPart
  change execPartDecoded hi i n out s = _
  unfold execPartDecoded
  simp only [hwf, hpart, hsample, Bool.or_eq_true, decide_eq_true_eq, hout, Bool.not_true, Bool.false_eq_true, if_false]

end

/-! Pictures (R313, R317). -/

/-- The state in which a picture of a pair completes: the augmentation units have read the slots listed (R317). -/
def State.slotsRead (s : State) (hi : Fin 4) (p : Program) (i n u : Nat) (v : VideoPlan) (read : List Nat) : State :=
  read.foldl (fun (s : State) j => s.readSlot hi p i n u (slotBytes v.w v.h v.depth) j) (s.mediaTime u)

section
variable {s : State} {pair : Fin 8} {k : Fin 22} {read : List Nat} {hi : Fin 4} {i n : Nat} {p : Program} {q : PartSt}
  (hat : s.pairPart pair.val = some (hi, i, n)) (hpart : s.partOn hi i n = some (p, q, pair.val)) (hunit : k.val = pair.val)
include hat hpart hunit

theorem exec_pictureDecoded_error : exec (.pictureDecoded pair read none) s = .next ((s.mediaTime pair.val).bitstreamError hi p i n q pair.val) := by
  change execPictureDecoded pair read none s = _
  unfold execPictureDecoded
  simp only [hat, hpart, finRange22 hunit, Option.all_none, Bool.not_true, Bool.false_eq_true, if_false]

variable {w : Planes} {v : VideoPlan} {pic : PlanPic} {rest : List PlanPic} (hwf : w.wf = true) (hplan : q.survey = some v) (htodo : v.todo = pic :: rest)
include hwf hplan htodo

/-- The picture goes into its slot, and the pool moves on to the next one that is needed (R314, R317). -/
theorem exec_pictureDecoded_places (hw : pic.w = w.w) (hh : pic.h = w.h) (hdepth : pic.depth = w.depth) (hgrey : pic.form = .grey ↔ w.cb = [])
    {c : Nat} (hslot : ((s.slotsRead hi p i n pair.val v read).com.media[k]).current = some c) :
    let r := s.slotsRead hi p i n pair.val v read
    let a := r.engineWrite hi (r.slotAddr hi p pair.val c (slotBytes v.w v.h v.depth)) (planesBytes w)
    let d := a.modMedia k (fun m => { ((m.finish c pic).advance rest).1 with residual := some a.free })
    exec (.pictureDecoded pair read (some w)) s = .next (d.useFree.modPart hi i n (fun q => { q with survey := q.survey.map (fun v =>
      { v with todo := rest.drop (rest.takeWhile (fun x => !x.needed)).length }) })) := by
  have hfits : ¬ (pic.w ≠ w.w ∨ pic.h ≠ w.h ∨ pic.depth ≠ w.depth ∨ (pic.form = .grey) ≠ (w.cb.isEmpty = true)) := by
    simp [hw, hh, hdepth, hgrey]
  unfold State.slotsRead at hslot ⊢
  change execPictureDecoded pair read (some w) s = _
  unfold execPictureDecoded
  simp only [hat, hpart, finRange22 hunit, Option.all_some, hwf, hplan, htodo, hslot, if_neg hfits, Bool.not_true, Bool.false_eq_true, if_false]
/-- Without a slot it waits for one (R317). -/
theorem exec_pictureDecoded_waits (hslot : ((s.slotsRead hi p i n pair.val v read).com.media[k]).current = none) :
    exec (.pictureDecoded pair read (some w)) s = .next ((s.slotsRead hi p i n pair.val v read).modMedia k MediaUnit.takeSlot) := by
  unfold State.slotsRead at hslot ⊢
  change execPictureDecoded pair read (some w) s = _
  unfold execPictureDecoded
  simp only [hat, hpart, finRange22 hunit, Option.all_some, hwf, hplan, htodo, hslot, Bool.not_true, Bool.false_eq_true, if_false]

end

/-- Settles O48: each clause is a row's own lemma. -/
theorem mediaEnginesAct : Obligations.MediaEnginesAct := by
  intro s hi i n p q u x hpart hsample t
  refine ⟨fun hvideo hnone => ⟨exec_survey_corrupt hpart hsample hvideo hnone, fun seqs pics hseqs hcodec => ?_⟩, fun out hwf => ?_,
    fun pair k read v pic rest hpair hunit hplan htodo hat => ?_⟩
  · refine ⟨fun r hgot => exec_survey_refused hpart hsample hvideo hnone hseqs hcodec hgot, fun v hgot k hunit => ?_⟩
    exact exec_survey_lays hpart hsample hvideo hnone hseqs hcodec hunit hgot
  · exact ⟨fun r hout => exec_partDecoded_refused hpart hsample hwf hout, fun rec bs hout => exec_partDecoded_done hpart hsample hwf hout⟩
  · subst hpair
    refine ⟨exec_pictureDecoded_error hat hpart hunit, fun w hwf hw hh hdepth hgrey => ⟨fun c hslot => ?_, fun hslot => ?_⟩⟩
    · exact exec_pictureDecoded_places hat hpart hunit hwf hplan htodo hw hh hdepth hgrey hslot
    · exact exec_pictureDecoded_waits hat hpart hunit hwf hplan htodo hslot

end Sys2Proof.Machine
end

section
/-! The block as a whole (R353, R370, R406): a step, the state after reset, and the way from there to PWR_GOOD. -/
namespace Sys2Proof.Machine

/-- Settles O1: a step looks at the front of the queue alone. -/
theorem stepRunsFrontCommand : Obligations.StepRunsFrontCommand := by
  intro s c rest hpending
  rw [step, hpending]

/-! Reset. -/

theorem Cluster.inv_reset : Cluster.reset.Inv := by
  constructor
  case queues => exact queuesOk_nil
  case snap => exact snapOk_none
  all_goals decide
theorem Heat.inv_reset : Heat.reset.Inv := by
  constructor <;> decide
theorem Port.inv_reset : Port.reset.Inv := ⟨by decide⟩
theorem Common.inv_reset : Common.reset.Inv := by
  constructor <;> decide

theorem State.reset_cl (c : Fin 64) : State.reset.cl c = Cluster.reset := by simp [State.cl, State.reset]
theorem State.reset_heat (h : Fin 4) : State.reset.heat h = Heat.reset := by simp [State.heat, State.reset]
theorem State.reset_port (p : Fin 32) : State.reset.port p = Port.reset := by simp [State.port, State.reset]

/-- Settles O2: every part is at its own reset value, which meets its part of the invariant. -/
theorem resetMeetsInvariant : Obligations.ResetMeetsInvariant :=
  ⟨fun c => by rw [State.reset_cl]; exact Cluster.inv_reset, fun h => by rw [State.reset_heat]; exact Heat.inv_reset,
    fun p => by rw [State.reset_port]; exact Port.inv_reset, Common.inv_reset⟩

end Sys2Proof.Machine
end

section
/-! Power input and rails (R352 to R355, R434): what each row does where its condition stands, and what is left with the rails off. -/
namespace Sys2Proof.Machine

section
variable {s : State} {mv : Nat}

/-! The standby rail (R352, R434). -/

theorem exec_standbyRailRise_low (hlow : s.com.pw.standby = false) :
    exec .standbyRailRise s = .next (s.modPw (fun p => { p with standby := true, measured := false })) :=
  if_neg (by simp [hlow])
theorem exec_standbyRailLoss_high (hhigh : s.com.pw.standby = true) :
    exec .standbyRailLoss s = .next (s.railsOff.modCom (fun k => { k with
      pw := { Power.reset with pwrEn := s.com.pw.pwrEn }, tap := JtagTap.reset })) :=
  if_pos hhigh

/-! Power-up and power-down (R353, R354). -/

/-- PWR_EN begins the rails where nothing holds them (R353, R355). -/
theorem exec_pwrEnRise_standby (lowMs : Nat) (hhigh : s.com.pw.standby = true) (hlow : s.com.pw.pwrEn = false) :
    let p := s.com.pw
    let on := s.modPw (fun p => { p with pwrEn := true, needCycle := p.railFail != 0 && lowMs < 100 })
    exec (.pwrEnRise lowMs) s = .next (if p.inputFault = false ∧ p.vinBad = none ∧ (p.railFail = 0 ∨ 100 ≤ lowMs) ∧ p.rising = false ∧ p.good = false
      then on.beginRise else on) := by
  intro p on
  have hrow : exec (.pwrEnRise lowMs) s = .next on.tryRise := if_neg (by simp [hhigh, hlow])
  have hcycle : (!on.com.pw.needCycle) = decide (p.railFail = 0 ∨ 100 ≤ lowMs) := by
    rw [Bool.eq_iff_iff]
    simp [on, p]
  have hhonoured : (on.com.pw.standby && on.com.pw.pwrEn && !on.com.pw.rising && !on.com.pw.good && !on.com.pw.needCycle && !on.com.pw.inputFault &&
      on.com.pw.vinBad.isNone) = true ↔
      (p.inputFault = false ∧ p.vinBad = none ∧ (p.railFail = 0 ∨ 100 ≤ lowMs) ∧ p.rising = false ∧ p.good = false) := by
    rw [hcycle]
    simp only [on, p, State.modPw_com, hhigh, Bool.and_eq_true, Bool.not_eq_true', Option.isNone_iff_eq_none, decide_eq_true_eq]
    tauto
  rw [hrow, State.tryRise]
  exact congrArg _ (if_congr hhonoured rfl rfl)
/-- The step of the feed die's rail, the fourth, starts the security and the power core (R353). -/
theorem exec_railStep_rising (hrising : s.com.pw.rising = true) (hrail : s.com.pw.rail < 8) :
    let next := s.modPw (fun p => { p with rail := p.rail + 1 })
    exec .railStep s = .next (if s.com.pw.rail = 3 then next.modBoot (fun b => { b with security := .up, power := .up }) else next) := by
  intro next
  have hrow : exec .railStep s = .next (if next.com.pw.rail = 4 then next.modBoot (fun b => { b with security := .up, power := .up }) else next) :=
    if_pos ⟨hrising, hrail⟩
  have hfourth : next.com.pw.rail = 4 ↔ s.com.pw.rail = 3 := by simp [next]
  exact hrow.trans (congrArg _ (if_congr hfourth rfl rfl))
theorem exec_railFailure_rising (hrising : s.com.pw.rising = true) (hlow : s.com.pw.good = false) :
    exec .railFailure s = .next ((s.railsOff.modPw (fun q => { q with railFail := min 8 (s.com.pw.rail + 1), needCycle := true })).alert 0) :=
  if_pos ⟨hrising, by simp [hlow]⟩
theorem exec_pwrEnFall_high (hhigh : s.com.pw.pwrEn = true) :
    exec .pwrEnFall s = .next (s.railsOff.modPw (fun p => { p with pwrEn := false, needCycle := p.railFail != 0 })) :=
  if_pos hhigh

/-! Input faults and brown-out (R355). -/

theorem exec_brownOut_first (hhigh : s.com.pw.standby = true) (hmv : mv < 45000) (hfirst : s.com.pw.brownOut = false) :
    let t := ((s.setVin mv).modPw (fun p => { p with brownOut := true })).alert 1
    exec (.brownOut mv) s = .next (if s.com.pw.good then ((t.bump 9 0 4).powerReport 0).journal 4 0 0 0 0 else t) := by
  intro t
  have hrow : exec (.brownOut mv) s = if t.com.pw.good then .next (((t.bump 9 0 4).powerReport 0).journal 4 0 0 0 0) else .next t :=
    if_pos ⟨hhigh, hmv, by simp [hfirst]⟩
  exact hrow.trans (apply_ite Host.Outcome.next _ _ _).symm
theorem exec_brownOutEnd_inRange (hbrown : s.com.pw.brownOut = true) (hmv : 46000 ≤ mv) :
    exec (.brownOutEnd mv) s = .next ((s.setVin mv).modPw (fun p => { p with brownOut := false })).tryRise :=
  if_pos ⟨hbrown, hmv⟩
theorem exec_inputUndervoltage_acts (hhigh : s.com.pw.standby = true) (hmv : mv < 42000)
    (hnew : s.com.pw.inputFault = false ∨ s.com.pw.rising = true ∨ s.com.pw.good = true) :
    exec (.inputUndervoltage mv) s = .next (s.inputFault.setVin mv) :=
  if_pos ⟨hhigh, hmv, by simpa using hnew⟩
theorem exec_inputOvervoltage_acts (hhigh : s.com.pw.standby = true) (hmv : 60000 < mv)
    (hnew : s.com.pw.switchOpen = false ∨ s.com.pw.rising = true ∨ s.com.pw.good = true) :
    exec (.inputOvervoltage mv) s = .next ((s.inputFault.modPw (fun p => { p with switchOpen := true })).setVin mv) :=
  if_pos ⟨hhigh, hmv, by simpa using hnew⟩
/-- After 100 ms in range the rails begin, unless PWR_EN must be low first (R353, R355). -/
theorem exec_inputRecovery_inRange (hhigh : s.com.pw.standby = true) (hen : s.com.pw.pwrEn = true) (hrising : s.com.pw.rising = false)
    (hlow : s.com.pw.good = false) (hfrom : 46000 ≤ mv) (hto : mv ≤ 58000) :
    let t := (s.setVin mv).modPw (fun p => { p with brownOut := false, switchOpen := false, vinBad := none })
    exec (.inputRecovery mv) s = .next (if s.com.pw.needCycle then t else t.beginRise) := by
  intro t
  have hrow : exec (.inputRecovery mv) s = if s.com.pw.needCycle then .next t else .next t.beginRise :=
    if_pos ⟨hhigh, hen, by simp [hrising], by simp [hlow], hfrom, hto⟩
  exact hrow.trans (apply_ite Host.Outcome.next _ _ _).symm

end

/-! The rails off (R354, R434). -/

theorem State.railsOff_cl (s : State) (c : Fin 64) : s.railsOff.cl c = Cluster.reset := by simp [State.cl, State.railsOff]
theorem State.railsOff_heat (s : State) (h : Fin 4) : s.railsOff.heat h = Heat.reset := by simp [State.heat, State.railsOff]
theorem State.railsOff_port (s : State) (p : Fin 32) : s.railsOff.port p = Port.reset := by simp [State.port, State.railsOff]

/-- Settles O50: each clause is the row's own lemma. -/
theorem railsFollowInput : Obligations.RailsFollowInput := by
  intro s mv lowMs p on next seen
  refine ⟨exec_standbyRailRise_low, exec_standbyRailLoss_high, exec_pwrEnRise_standby lowMs, exec_railStep_rising, exec_railFailure_rising,
    exec_pwrEnFall_high, exec_brownOut_first, exec_brownOutEnd_inRange, exec_inputUndervoltage_acts, exec_inputOvervoltage_acts,
    exec_inputRecovery_inRange, ?_⟩
  rintro t rfl
  exact ⟨rfl, rfl, rfl, rfl, rfl, rfl, s.railsOff_cl, s.railsOff_heat, s.railsOff_port, rfl⟩

/-! From reset to PWR_GOOD, and idle (R352, R353, R370, R406). -/

/-- The module with every rail in regulation, before PWR_GOOD: the security and power cores have left reset (R353). -/
def State.railsUp : State :=
  { State.reset with com := { Common.reset with
      boot := { Boot.reset with security := .up, power := .up }
      pw := { Power.reset with standby := true, pwrEn := true, rail := 8, rising := true } } }

theorem runAll_append (s : State) (cs ds : List Instr) : s.runAll (cs ++ ds) = (s.runAll cs).bind (fun t => t.runAll ds) := by
  induction cs generalizing s with
  | nil => rfl
  | cons c cs ih =>
    simp only [List.cons_append, State.runAll]
    cases exec c s with
    | next t => exact ih t
    | fault f => rfl
    | refused r => rfl
/-- The input, PWR_EN and the eight steps bring every rail up (R352, R353). -/
theorem runAll_railsUp : State.reset.runAll ([.standbyRailRise, .pwrEnRise 0] ++ List.replicate 8 .railStep) = some State.railsUp := rfl

/-- An idle step is one tick, which the lifetime histograms alone see besides the clock (R406, R415). -/
theorem step_idle {s : State} (hpending : s.pending = []) : ∃ t, step s = .next t ∧ t.now = s.now + 64 ∧ t.clusters = s.clusters ∧ t.ports = s.ports ∧
    t.heats = s.heats ∧ t.free = s.free ∧ t.out = s.out ∧ t.pending = [] ∧ t.com = { s.com with store := t.com.store } := by
  obtain ⟨hcl, hport, hheat, hfree, hout, hpend⟩ := s.reach_core (s.now + 64)
  obtain ⟨store, hcom, -⟩ := s.reach_com (s.now + 64)
  have hnow : (s.reach (s.now + 64)).now = s.now + 64 := by rw [State.reach_now]; omega
  exact ⟨s.reach (s.now + 64), by rw [step, hpending]; rfl, hnow, hcl, hport, hheat, hfree, hout, hpend.trans hpending, by rw [hcom]⟩

/-- Settles O60: the idle step is a tick; the rails come up one by one (`runAll_railsUp`), and PWR_GOOD reboots what they left. -/
theorem idleAndPowerUpFromReset : Obligations.IdleAndPowerUpFromReset := by
  refine ⟨fun s hpending => step_idle hpending, ?_, rfl, rfl, rfl⟩
  obtain ⟨hcl, hheat, -⟩ := State.railsUp.reboot_units
  have hboot := State.railsUp.reboot_boot
  refine ⟨State.railsUp.reboot.modPw (fun p => { p with good := true, rising := false }), ?_, rfl, State.railsUp.reboot_now_pending.1,
    congrArg Boot.security hboot, congrArg Boot.power hboot, congrArg Boot.scheduler hboot, fun c => ?_, fun h => ?_⟩
  · rw [runAll_append, runAll_railsUp, Option.bind_some, State.runAll, exec_pwrGood_rises _ rfl rfl]
    rfl
  · rw [State.modPw_cl, hcl]
    exact ⟨rfl, rfl⟩
  · rw [State.modPw_heat, hheat]
    rfl

end Sys2Proof.Machine
end

section
/-! The contacts of the standby rail: SMBus words (R435, R436) and the JTAG TAP (R434, R437). -/
namespace Sys2Proof.Machine

/-! SMBus. -/

section
variable {s : State} (hhigh : s.com.pw.standby = true)
include hhigh

/-- A word read on the standby rail leaves the module, and changes nothing else (R435). -/
theorem smbusRead_standby (v : Nat) : s.smbusRead v = .next { s with out := s.out ++ [OutItem.smbus v] } := if_pos hhigh
theorem smbusRead_useFree (v : Nat) : s.useFree.smbusRead v = .next { s with out := s.out ++ [OutItem.smbus v], free := s.free + 1 } := if_pos hhigh

omit hhigh in
/-- STATE is the sum of its flags, bit by bit (R435). -/
theorem smbusState_eq (s : State) : let p := s.com.pw
    s.smbusState = (if p.good then 1 else 0) + (if p.alert ≠ 0 then 2 else 0) + (if p.tripped then 4 else 0) + (if p.inputFault then 8 else 0)
      + (if p.brownOut then 16 else 0) + (if s.com.boot.state = .halted ∨ s.com.boot.state = .recovery then 32 else 0)
      + (if p.clockLost.isSome then 64 else 0) := by
  simp [State.smbusState, State.alertLow, State.stopped, State.clockLost, bitIf] <;> rfl
/-- IDENT before the straps are latched: whatever the pins say, within the fields of FEED_ID and SLOT_ID (R435). -/
theorem exec_ident_unlatched (hstraps : s.com.boot.straps = none) : ∃ v, v < 2 ^ 16 ∧ v % 256 < 16 ∧
    exec .ident s = .next { s with out := s.out ++ [OutItem.smbus v], free := s.free + 1 } := by
  refine ⟨(Config.freeByte s.free 0).toNat % 16 + (Config.freeByte s.free 1).toNat * 256, ?_, ?_, ?_⟩
  · have := (Config.freeByte s.free 1).isLt
    omega
  · omega
  · change execIdent s = _
    rw [execIdent, hstraps]
    exact smbusRead_useFree hhigh _
theorem exec_ident_latched {x : Straps} (hstraps : s.com.boot.straps = some x) :
    exec .ident s = .next { s with out := s.out ++ [OutItem.smbus (x.feedId % 16 + x.slotId % 256 * 256)] } := by
  change execIdent s = _
  rw [execIdent, hstraps]
  exact smbusRead_standby hhigh _
/-- A module that holds ALERT_N low answers the Alert Response Address with its own (R436). -/
theorem exec_alertResponse_low {x : Straps} (hstraps : s.com.boot.straps = some x) (halert : s.com.pw.alert ≠ 0) :
    exec .alertResponse s = .next { s with out := s.out ++ [OutItem.smbus (2 * (0x60 + x.slotId % 8))] } := by
  have hlow : s.alertLow = true := by simpa [State.alertLow] using halert
  change execAlertResponse s = _
  rw [execAlertResponse, hstraps, if_pos hlow]
  exact smbusRead_standby hhigh _
omit hhigh in
theorem exec_alertResponse_high (halert : s.com.pw.alert = 0) : exec .alertResponse s = .next s :=
  if_neg (by simp [State.alertLow, halert])

end

/-- Settles O58: a command is a word read, IDENT and the Alert Response Address after a look at the straps. -/
theorem smbusAnswers : Obligations.SmbusAnswers := by
  intro s hhigh p word seen
  refine ⟨?_, smbusRead_standby hhigh _, smbusRead_standby hhigh _, smbusRead_standby hhigh _, smbusRead_standby hhigh _,
    fun x hx => ⟨exec_ident_latched hhigh hx, exec_alertResponse_low hhigh hx⟩, if_pos hhigh, smbusRead_standby hhigh _, smbusRead_standby hhigh _,
    exec_ident_unlatched hhigh, exec_alertResponse_high⟩
  exact (smbusRead_standby hhigh _).trans (by rw [smbusState_eq])

/-! JTAG. -/

/-- What an instruction of the TAP leaves: its code is loaded, only the TAP changes, and before PWR_GOOD nothing leaves (R434, R437). -/
structure TapOnly (ir : Nat) (s t : State) : Prop where
  /-- the instruction register -/
  ir : t.com.tap.ir = ir
  /-- heats -/
  heats : t.heats = s.heats
  /-- clusters -/
  clusters : t.clusters = s.clusters
  /-- ports -/
  ports : t.ports = s.ports
  /-- time -/
  now : t.now = s.now
  /-- the queue of commands -/
  pending : t.pending = s.pending
  /-- the module-wide part -/
  com : t.com = { s.com with tap := t.com.tap }
  /-- TDO is high-Z before PWR_GOOD -/
  quiet : s.com.pw.good = false → t.out = s.out

section
variable {s : State}

theorem loadTap_tapOnly (hhigh : s.com.pw.standby = true) (ir : Nat) : TapOnly ir s (s.loadTap ir) := by
  rw [State.loadTap, if_pos hhigh]
  exact ⟨rfl, rfl, rfl, rfl, rfl, rfl, rfl, fun _ => rfl⟩
theorem TapOnly.modTap {ir : Nat} {t : State} (h : TapOnly ir s t) {f : JtagTap → JtagTap} (hf : ∀ k, (f k).ir = k.ir) :
    TapOnly ir s (t.modTap f) :=
  ⟨(hf _).trans h.ir, h.heats, h.clusters, h.ports, h.now, h.pending, by
    have hcom := h.com
    simp only [State.modTap, State.modCom_com]
    rw [hcom], h.quiet⟩
theorem TapOnly.useFree {ir : Nat} {t : State} (h : TapOnly ir s t) : TapOnly ir s t.useFree :=
  ⟨h.ir, h.heats, h.clusters, h.ports, h.now, h.pending, h.com, h.quiet⟩
theorem TapOnly.good {ir : Nat} {t : State} (h : TapOnly ir s t) : t.com.pw.good = s.com.pw.good := by rw [h.com]
theorem TapOnly.shiftOut {ir : Nat} {t : State} (h : TapOnly ir s t) (bits : List Bool) : TapOnly ir s (t.shiftOut bits) := by
  rw [State.shiftOut, h.good]
  split
  · next hgood => exact ⟨h.ir, h.heats, h.clusters, h.ports, h.now, h.pending, h.com, fun hlow => by rw [hgood] at hlow; cases hlow⟩
  · exact h
/-- From PWR_GOOD on the bits leave on TDO (R434). -/
theorem TapOnly.shiftOut_out {ir : Nat} {t : State} (h : TapOnly ir s t) (bits : List Bool) (hout : t.out = s.out) (hgood : s.com.pw.good = true) :
    (t.shiftOut bits).out = s.out ++ [.tdo bits] := by
  rw [State.shiftOut, h.good, if_pos hgood, State.emit_out, hout]
theorem TapOnly.shiftOut_tap {t : State} (bits : List Bool) : (t.shiftOut bits).com.tap = t.com.tap := by
  unfold State.shiftOut
  split <;> rfl
theorem loadTap_out (ir : Nat) : (s.loadTap ir).out = s.out := by
  unfold State.loadTap
  split <;> rfl

/-- An instruction that can hold the pins holds them before any heat is admitted, in AWAIT_FW, RECOVERY or HALTED (R437). -/
theorem TapOnly.pinsTaken_iff {ir : Nat} {t : State} (h : TapOnly ir s t) (hir : ir = 2 ∨ ir = 4 ∨ ir = 5) :
    t.pinsTaken = true ↔ (s.com.boot.state = .awaitFw ∨ s.com.boot.state = .recovery ∨ s.com.boot.state = .halted) ∧
      ∀ i, (s.heat i).phase = .free := by
  have hboot : t.com.boot = s.com.boot := by rw [h.com]
  have hfree : t.heats.toList.all (fun x => x.phase == .free) = true ↔ ∀ i, (s.heat i).phase = .free := by
    rw [h.heats]
    simp [State.heat, Fin.forall_iff]
  have htaken : (ir == 2 || ir == 4 || ir == 5) = true := by simpa [or_assoc] using hir
  simp only [State.pinsTaken, h.ir, htaken, hboot, Bool.and_eq_true, Bool.or_eq_true, beq_iff_eq, hfree, true_and, or_assoc]
/-- EXTEST, HIGHZ and CLAMP load their instruction and shift nothing (R437). -/
theorem loadTap_pins (hhigh : s.com.pw.standby = true) {ir : Nat} (hir : ir = 2 ∨ ir = 4 ∨ ir = 5) :
    TapOnly ir s (s.loadTap ir) ∧ (s.loadTap ir).out = s.out ∧ ((s.loadTap ir).pinsTaken = true ↔
      (s.com.boot.state = .awaitFw ∨ s.com.boot.state = .recovery ∨ s.com.boot.state = .halted) ∧ ∀ i, (s.heat i).phase = .free) :=
  ⟨loadTap_tapOnly hhigh ir, loadTap_out ir, (loadTap_tapOnly hhigh ir).pinsTaken_iff hir⟩

end

theorem TapOnly.conj {ir : Nat} {s t : State} (h : TapOnly ir s t) : t.com.tap.ir = ir ∧ t.heats = s.heats ∧ t.clusters = s.clusters ∧
    t.ports = s.ports ∧ t.now = s.now ∧ t.pending = s.pending ∧ t.com = { s.com with tap := t.com.tap } ∧ (s.com.pw.good = false → t.out = s.out) :=
  ⟨h.ir, h.heats, h.clusters, h.ports, h.now, h.pending, h.com, h.quiet⟩

/-- Settles O59: each instruction is loaded, works on its register and shifts out; what it leaves is `TapOnly`. -/
theorem tapShifts : Obligations.TapShifts := by
  intro s hhigh put
  have hload : ∀ ir, TapOnly ir s (s.loadTap ir) := loadTap_tapOnly hhigh
  refine ⟨fun tdi => ?bypass, fun cells => ?sample, ?idcode, fun ir i hi => ?pins⟩
  case bypass =>
    have h := (hload 0).modTap (f := fun t => { t with bypass := tdi.getLastD false }) (fun _ => rfl)
    exact ⟨_, if_pos hhigh, (h.shiftOut _).conj, congrArg JtagTap.bypass (TapOnly.shiftOut_tap _), h.shiftOut_out _ (loadTap_out 0)⟩
  case sample =>
    have h := ((hload 1).modTap (f := fun t => { t with cells := cells }) (fun _ => rfl)).useFree
    exact ⟨_, _, if_pos hhigh, (h.shiftOut _).conj, congrArg JtagTap.cells (TapOnly.shiftOut_tap _), by simp, h.shiftOut_out _ (loadTap_out 1)⟩
  case idcode => exact ⟨_, rfl, ((hload 3).shiftOut _).conj, (hload 3).shiftOut_out _ (loadTap_out 3)⟩
  case pins =>
    simp only [List.mem_cons, Prod.mk.injEq, List.not_mem_nil, or_false] at hi
    obtain ⟨rfl, rfl⟩ | ⟨rfl, rfl⟩ | ⟨rfl, rfl⟩ := hi
    · have h := loadTap_pins hhigh (ir := 2) (by simp)
      exact ⟨_, rfl, h.1.conj, h.2⟩
    · have h := loadTap_pins hhigh (ir := 4) (by simp)
      exact ⟨_, rfl, h.1.conj, h.2⟩
    · have h := loadTap_pins hhigh (ir := 5) (by simp)
      exact ⟨_, rfl, h.1.conj, h.2⟩

end Sys2Proof.Machine
end

section
/-! The control core (R324, R337, R443, R444): the queue of encode requests, and every instruction without a row of its own. -/
namespace Sys2Proof.Machine

/-! Encode requests (R324). -/

section
variable {s : State} {c : Fin 64} {x : Site} {rd len : Nat} (hcore : s.coreSite c = some x)
include hcore

/-- A write of enc_issue queues its request, unless two are outstanding (R324). -/
theorem exec_encIssue_next {src : Nat} {isImm : Bool} (hfetch : (s.cl c).fetch = some (.encIssue rd src isImm, len)) :
    ∃ t, exec (.encIssue c) s = .next t ∧
      HoldOnly (if 2 ≤ (s.cl c).core.encs.length then s else s.modCl c (fun k => { k with core := { k.core with
        encs := k.core.encs ++ [⟨(s.cl c).csrValue src isImm, k.core.issueCount, .queued, []⟩], pc := k.core.pc + BitVec.ofNat 32 len
        regs := xw k.core.regs rd 0 } })) t := by
  change ∃ t, execEncIssue c s = .next t ∧ _
  unfold execEncIssue
  exact ⟨_, onCore_next _ hcore hfetch, holdOnly_refreshHeld _ x.h⟩
/-- With none outstanding enc_wait answers E_DESC at once (R324). -/
theorem exec_encWait_none (hfetch : (s.cl c).fetch = some (.encWait rd, len)) (hencs : (s.cl c).core.encs = []) :
    ∃ t, exec (.encWait c) s = .next t ∧
      HoldOnly (s.modCl c (fun k => { k with core := { k.core with pc := k.core.pc + BitVec.ofNat 32 len, regs := xw k.core.regs rd 8 } })) t := by
  change ∃ t, execEncWait c s = .next t ∧ _
  unfold execEncWait
  refine ⟨_, onCore_next _ hcore hfetch, ?_⟩
  simp only [hencs]
  exact holdOnly_refreshHeld _ x.h
/-- Otherwise it answers the oldest request's status once that is complete, and stalls until then (R324). -/
theorem exec_encWait_oldest (hfetch : (s.cl c).fetch = some (.encWait rd, len)) {r : EncReq} {rest : List EncReq}
    (hencs : (s.cl c).core.encs = r :: rest) :
    ∃ t, exec (.encWait c) s = .next t ∧ HoldOnly (match r.phase with
      | .done st => s.modCl c (fun k => { k with core := { k.core with
        encs := rest, pc := k.core.pc + BitVec.ofNat 32 len, regs := xw k.core.regs rd (BitVec.ofNat 32 st) } })
      | _ => s) t := by
  change ∃ t, execEncWait c s = .next t ∧ _
  unfold execEncWait
  refine ⟨_, onCore_next _ hcore hfetch, ?_⟩
  simp only [hencs]
  cases r.phase <;> exact holdOnly_refreshHeld _ x.h

end

/-- Settles O15: each row is a step of the control core that only brings the held flag up to date afterwards. -/
theorem encodeQueueKept : Obligations.EncodeQueueKept := by
  intro s c x rd src len isImm hcore k
  exact ⟨exec_encIssue_next hcore, exec_encWait_none hcore, fun _ _ hfetch => exec_encWait_oldest hcore hfetch⟩

/-! Every other instruction (R443, R444). -/

/-- An instruction writes one register at most. -/
theorem rvRun_regs {i : RvIns} {len : Nat} {pc pc' : Word} {regs regs' : Vector Word 32} {dmem dmem' : Mem}
    (hrun : rvRun i len pc regs dmem = some (pc', regs', dmem')) : regs' = regs ∨ ∃ rd v, regs' = xw regs rd v := by
  unfold rvRun at hrun
  cases i with
  | load f3 rd rs1 imm =>
    obtain ⟨o, -, hwrite⟩ := Option.map_eq_some_iff.mp hrun
    cases hwrite
    exact .inr ⟨_, _, rfl⟩
  | store f3 rs1 rs2 imm =>
    obtain ⟨o, -, hwrite⟩ := Option.map_eq_some_iff.mp hrun
    cases hwrite
    exact .inl rfl
  | branch | fence => cases hrun; exact .inl rfl
  | lui | auipc | jal | jalr | opImm | op | mulDiv => cases hrun; exact .inr ⟨_, _, rfl⟩
  | _ => cases hrun
theorem rvRun_x0 {i : RvIns} {len : Nat} {pc pc' : Word} {regs regs' : Vector Word 32} {dmem dmem' : Mem}
    (hrun : rvRun i len pc regs dmem = some (pc', regs', dmem')) (hx0 : regs[0] = 0) : regs'[0] = 0 := by
  obtain rfl | ⟨rd, v, rfl⟩ := rvRun_regs hrun
  · exact hx0
  · exact xw_zero _ _ _ hx0

theorem sameCore_noteCore (s : State) (core unit heat : Nat) : SameCore s (s.noteCore core unit heat) :=
  ((sameCore_bump s _ _ _ _).trans (sameCore_report _ _ _ _ _ _)).trans (sameCore_journal _ _ _ _ _ _)
/-- A first restart stops the core of its cluster and empties its queues, and touches nothing else of any cluster (R333, R337). -/
theorem restartCluster_first {s : State} {c : Fin 64} (hlive : (s.cl c).retired = false) (hup : (s.cl c).core.restarting = false)
    (hfirst : (s.cl c).firstRestart = none) : ∃ step, s.restartCluster c = (s.bump 1 c.val 25).modCl c (fun k => { k with
      queues := Vector.replicate 4 [], firstRestart := some step
      core := { k.core with running := false, restarting := true, issued := [], sums := [] } }) := by
  unfold State.restartCluster
  simp only [hlive, hup, hfirst, Bool.or_self, Bool.false_eq_true, if_false, Option.map_none, Option.getD_none]
  exact ⟨_, rfl⟩

section
variable {s : State} {c : Fin 64} {x : Site} {i : RvIns} {len : Nat} (hcore : s.coreSite c = some x)
  (hfetch : (s.cl c).fetch = some (i, len)) (hown : i.ownRow = false)
include hcore hfetch hown

theorem exec_controlCoreInstruction_runs {pc : Word} {regs : Vector Word 32} {dmem : Mem}
    (hrun : rvRun i len (s.cl c).core.pc (s.cl c).core.regs (s.cl c).dmem = some (pc, regs, dmem)) :
    exec (.controlCoreInstruction c) s =
      .next (s.modCl c (fun k => { k with dmem := dmem, core := { k.core with pc := pc, regs := regs } })) := by
  change execControlCoreInstruction c s = _
  simp only [execControlCoreInstruction, hcore, hfetch, hown, hrun, Bool.false_eq_true, if_false]
theorem exec_controlCoreInstruction_traps (hrun : rvRun i len (s.cl c).core.pc (s.cl c).core.regs (s.cl c).dmem = none) :
    exec (.controlCoreInstruction c) s = .next ((s.crashControl c).refreshHeld x.h) := by
  change execControlCoreInstruction c s = _
  simp only [execControlCoreInstruction, hcore, hfetch, hown, hrun, Bool.false_eq_true, if_false]

end

/-- Settles O19: an instruction that runs writes one register at most; one that traps is a crash, and the first restart follows. -/
theorem controlCoreSteps : Obligations.ControlCoreSteps := by
  intro s c x i len hcore hfetch hown
  refine ⟨fun pc regs dmem hrun => ⟨exec_controlCoreInstruction_runs hcore hfetch hown hrun, rvRun_x0 hrun⟩, fun htrap hfirst => ?_⟩
  obtain ⟨-, -, hup, -, hlive⟩ := coreSite_parts hcore
  let u := s.noteCore 0 c.val (((s.heatOfCl c).map (fun h => h.1.val)).getD 0xFF)
  have hu : ∀ d, u.cl d = s.cl d := (sameCore_noteCore s _ _ _).cl
  have hcrash : s.crashControl c = u.restartCluster c := if_neg (by simp [hlive, hup])
  obtain ⟨step, hrestart⟩ := restartCluster_first (s := u) (c := c) (by rw [hu]; exact hlive) (by rw [hu]; exact hup) (by rw [hu]; exact hfirst)
  have hcl : ∀ d, ((s.crashControl c).refreshHeld x.h).cl d = (u.restartCluster c).cl d := by
    rw [hcrash]
    exact (holdOnly_refreshHeld _ x.h).cl
  refine ⟨_, exec_controlCoreInstruction_traps hcore hfetch hown htrap, ?_⟩
  simp only [hcl, hrestart, State.cl_modCl_same, State.bump_cl, hu, true_and]
  exact fun d hd => (State.cl_modCl_ne _ _ _ _ (Ne.symm hd)).trans (hu d)

end Sys2Proof.Machine
end

section
/-! Setpoints and the envelope (R356, R357, R361, R364 to R369): the range of a setpoint, supplies set cluster by cluster, and the rows of the
envelope. -/
namespace Sys2Proof.Machine

/-! The range of a setpoint. -/

/-- The supply a pace asks for before any cap (R361). -/
def Pacing.wanted (k : Pacing) : Nat :=
  match k.pace with
  | 0 => k.ceiling
  | 2 => min 850 (strideMv k.frac k.rate75 + k.raised)
  | _ => 750
/-- It under the caps of the envelope and of a temperature (R365, R368). -/
def State.capped (s : State) (k : Pacing) : Nat :=
  let v := min k.wanted s.com.pw.capMv
  let v := if k.noSprint then min v 750 else v
  if k.cap700 then min v 700 else v

theorem Pacing.wanted_le_850 {k : Pacing} (hceiling : k.ceiling ≤ 850) : k.wanted ≤ 850 := by
  unfold Pacing.wanted
  split
  · exact hceiling
  · exact Nat.min_le_left _ _
  · omega
/-- Any pace but Sprint and STRIDE asks for 0.75 V. -/
theorem Pacing.wanted_eq_750 {k : Pacing} (hpace : k.pace ≠ 0 ∧ k.pace ≠ 2) : k.wanted = 750 := by
  unfold Pacing.wanted
  split
  · next h => exact absurd h hpace.1
  · next h => exact absurd h hpace.2
  · rfl

theorem State.capped_le_wanted (s : State) (k : Pacing) : s.capped k ≤ k.wanted := by
  unfold State.capped
  dsimp only
  split <;> split <;> omega
theorem State.capped_le_capMv (s : State) (k : Pacing) : s.capped k ≤ s.com.pw.capMv := by
  unfold State.capped
  dsimp only
  split <;> split <;> omega
theorem State.capped_le_750 (s : State) {k : Pacing} (hbarred : k.noSprint = true) : s.capped k ≤ 750 := by
  simp only [State.capped, hbarred, if_true]
  split <;> omega
theorem State.capped_le_700 (s : State) {k : Pacing} (hcap : k.cap700 = true) : s.capped k ≤ 700 := by
  simp only [State.capped, hcap, if_true]
  omega

section
variable {s : State} {k : Pacing}

/-- Under the hardware floor, and with pacing off, every setpoint is 0.75 V (R367, R369). -/
theorem setpoint_held (h : s.com.pw.floor = true ∨ s.pacingOn = false) : s.setpoint k = 750 := if_pos (by simpa using h)
/-- Otherwise shedding takes its steps off what the caps leave, down to 0.55 V (R365). -/
theorem setpoint_paced (hfloor : s.com.pw.floor = false) (hon : s.pacingOn = true) : s.setpoint k = max 550 (s.capped k - k.shed) :=
  if_neg (by simp [hfloor, hon])
theorem setpoint_le {n : Nat} (hfloor : s.com.pw.floor = false) (hon : s.pacingOn = true) (hn : 550 ≤ n) (hcap : s.capped k ≤ n) :
    s.setpoint k ≤ n := by
  rw [setpoint_paced hfloor hon]
  omega
/-- What bars Sprint bars a setpoint above 0.75 V (R365, R368). -/
theorem setpoint_le_750 (hfloor : s.com.pw.floor = false) (hon : s.pacingOn = true)
    (hbarred : s.com.pw.capMv ≤ 750 ∨ k.noSprint = true ∨ (k.pace ≠ 0 ∧ k.pace ≠ 2)) : s.setpoint k ≤ 750 := by
  refine setpoint_le hfloor hon (by omega) ?_
  obtain hcap | hsprint | hpace := hbarred
  · exact (s.capped_le_capMv k).trans hcap
  · exact s.capped_le_750 hsprint
  · exact (s.capped_le_wanted k).trans (Pacing.wanted_eq_750 hpace).le
/-- A sleeping cluster is held at its last setpoint, under the caps that lower every cluster or this one (R357). -/
theorem heldMv_le (hfloor : s.com.pw.floor = false) (hon : s.pacingOn = true) :
    s.heldMv k ≤ k.active ∧ (k.cap700 = true → s.heldMv k ≤ 700) ∧ s.heldMv k ≤ s.com.pw.capMv := by
  have hheld : s.heldMv k = if k.cap700 then min (min k.active s.com.pw.capMv) 700 else min k.active s.com.pw.capMv := by
    simp [State.heldMv, hfloor, hon]
  rw [hheld]
  split
  · omega
  · next hcap => exact ⟨by omega, fun h => absurd h hcap, by omega⟩

end

/-- A grant is 0.75 V where the limit is reached or the hardware acts, else it keeps to 0.85 V and to the configured bound (R365 to R367). -/
theorem grantSprint_ceiling (s : State) (c : Fin 64) : ((s.grantSprint c).cl c).pc.ceiling =
    if s.powerLimit ≤ s.com.pw.pin + 50 ∨ s.com.pw.pause ≠ 0 ∨ s.com.pw.floor = true then 750
    else max 750 (min (min (s.powerSetting 41 32 850) 850) (Config.sprintGrant s.free) / 10 * 10) := by
  simp only [State.grantSprint, State.bump_cl, State.cl_modCl_same]
  refine if_congr ?_ rfl rfl
  simp [or_assoc]

/-- Settles O52: the caps bound what a pace asks for, and shedding only lowers it. -/
theorem setpointsStayInRange : Obligations.SetpointsStayInRange := by
  intro s c k
  refine ⟨setpoint_held, fun hfloor hon => ⟨?_, ?_, ?_, setpoint_le_750 hfloor hon, heldMv_le hfloor hon⟩, ?_⟩
  · rw [setpoint_paced hfloor hon]
    exact Nat.le_max_left _ _
  · exact fun hceiling => setpoint_le hfloor hon (by omega) ((s.capped_le_wanted k).trans (Pacing.wanted_le_850 hceiling))
  · exact fun hcap => setpoint_le hfloor hon (by omega) (s.capped_le_700 hcap)
  · rintro v rfl
    rw [grantSprint_ceiling]
    split
    · omega
    · next htight => exact ⟨by omega, by omega, by omega, fun h => absurd (by tauto) htight⟩

/-! Supplies set cluster by cluster (R365). -/

/-- A pass over all clusters changes of a cluster only its pacing, and that as its own turn does: on a state in which the cluster, and the
module-wide part but counters, are as before. -/
theorem pass_cl {f : State → Fin 64 → State} (hf : ∀ s c, PaceOnly s (f s c) c) (s : State) (c : Fin 64) : ∃ u, PassOnly s u ∧ u.cl c = s.cl c ∧
    ((List.finRange 64).foldl f s).cl c = (f u c).cl c ∧ (((List.finRange 64).foldl f s).cl c).store = (s.cl c).store := by
  obtain ⟨u, hu, hcl, hturn⟩ := (pace_fold f hf (List.finRange 64) s fin64_nodup).2.2 c (List.mem_finRange c)
  exact ⟨u, hu, hcl, hturn, by rw [hturn, (hf u c).cl, hcl]⟩
theorem pass_only {f : State → Fin 64 → State} (hf : ∀ s c, PaceOnly s (f s c) c) (s : State) : PassOnly s ((List.finRange 64).foldl f s) :=
  (pace_fold f hf (List.finRange 64) s fin64_nodup).1
theorem PassOnly.pw {s t : State} (h : PassOnly s t) : t.com.pw = s.com.pw := by rw [h.com]
theorem PassOnly.supplyMv {s t : State} (h : PassOnly s t) (k : Pacing) : t.supplyMv k = s.supplyMv k := by
  obtain ⟨hset, hheld⟩ := setpoint_com h.com k
  simp only [State.supplyMv, hset, hheld]

theorem powerLimit_congr {s t : State} (hboot : t.com.boot = s.com.boot) (hbrown : t.com.pw.brownOut = s.com.pw.brownOut) :
    t.powerLimit = s.powerLimit := by
  unfold State.powerLimit State.limitW State.powerSetting
  rw [hboot, hbrown]
theorem hardOver_congr {s t : State} (hboot : t.com.boot = s.com.boot) (hbrown : t.com.pw.brownOut = s.com.pw.brownOut) (watts : Nat) :
    t.hardOver watts = s.hardOver watts := by
  unfold State.hardOver State.limitW State.powerSetting
  rw [hboot, hbrown]
theorem pacingOn_congr {s t : State} (hboot : t.com.boot = s.com.boot) : t.pacingOn = s.pacingOn := by
  simp only [State.pacingOn, State.powerSetting, hboot]

/-- Under the floor every supply is 0.75 V (R367). -/
theorem supplyMv_floor {s : State} (k : Pacing) (hfloor : s.com.pw.floor = true) : s.supplyMv k = 750 := by
  unfold State.supplyMv
  split
  · exact if_pos hfloor
  · exact setpoint_held (.inl hfloor)
/-- Under the cap of shedding no cluster is above 0.75 V, but a sleeping one with pacing off (R365). -/
theorem supplyMv_le_750 {s : State} {k : Pacing} (hcap : s.com.pw.capMv = 750) (h : s.pacingOn = true ∨ k.st.asleep = false) :
    s.supplyMv k ≤ 750 := by
  cases hfloor : s.com.pw.floor with
  | true => exact (supplyMv_floor k hfloor).le
  | false =>
    cases hon : s.pacingOn with
    | true =>
      unfold State.supplyMv
      split
      · exact hcap ▸ (heldMv_le hfloor hon).2.2
      · exact setpoint_le_750 hfloor hon (.inl hcap.le)
    | false =>
      have hasleep : k.st.asleep = false := h.resolve_left (by simp [hon])
      simp [State.supplyMv, hasleep, setpoint_held (.inr hon)]

/-- Setting supplies leaves what the envelope has taken off. -/
theorem applyPace_shed (s : State) (c : Fin 64) : ((s.applyPace c).cl c).pc.shed = (s.cl c).pc.shed := by
  cases hlive : (s.cl c).retired with
  | true => rw [State.applyPace, if_pos hlive]
  | false => exact (applyPace_pc s c hlive).2.1
theorem applyAll_passOnly (s : State) : PassOnly s s.applyAll := pass_only paceOnly_applyPace s
/-- Every cluster in service gets its supply. -/
theorem applyAll_active {s : State} {c : Fin 64} (hlive : (s.cl c).retired = false) :
    (s.applyAll.cl c).pc.active = s.supplyMv (s.cl c).pc := by
  obtain ⟨u, hu, hcl, hturn, -⟩ := pass_cl paceOnly_applyPace s c
  rw [State.applyAll, hturn, (applyPace_pc u c (by rw [hcl]; exact hlive)).1, hcl, hu.supplyMv]
theorem applyAll_shed_store (s : State) (c : Fin 64) :
    (s.applyAll.cl c).pc.shed = (s.cl c).pc.shed ∧ (s.applyAll.cl c).store = (s.cl c).store := by
  obtain ⟨u, -, hcl, hturn, hstore⟩ := pass_cl paceOnly_applyPace s c
  exact ⟨by rw [State.applyAll, hturn, applyPace_shed, hcl], hstore⟩

theorem State.reach_pw (s : State) (t : Nat) : (s.reach t).com.pw = s.com.pw := by
  obtain ⟨store, hcom, -⟩ := s.reach_com t
  rw [hcom]
/-- What the envelope's rows leave: heats, ports and the queue of commands. -/
theorem State.reach_rest (s : State) (t : Nat) :
    (s.reach t).heats = s.heats ∧ (s.reach t).ports = s.ports ∧ (s.reach t).pending = s.pending ∧ (s.reach t).clusters = s.clusters := by
  obtain ⟨hcl, hport, hheat, -, -, hpend⟩ := s.reach_core t
  exact ⟨hheat, hport, hpend, hcl⟩

/-! The average (R355, R364, R365). -/

/-- The average as the monitor takes it: time, voltage, power, energy and histograms (R355, R409, R415). -/
def State.average (r : State) (watts mv : Nat) : State :=
  let e := r.com.pw.energyUj + 10 * watts
  let v := ((r.modPw (fun p => { p with polls := (r.now, p.polls.2) })).setVin mv).modPw (fun p => { p with pin := watts, energyUj := e % 1000 })
  (((v.bump 9 0 0 (e / 1000)).setLevel 9 0 1 watts).bumpBin 9 0 13 (watts / 125)).modStore (fun k => { k with
    watts := (k.watts.1 + watts, k.watts.2 + 1) })
/-- It held against the limit less 50 W (R364, R365). -/
def State.heldToLimit (s : State) (watts : Nat) : State :=
  s.modPw (fun p => { p with
    overLim := s.powerLimit < watts + 50, capMv := if s.powerLimit < watts + 50 then 750 else p.capMv
    underSince := if watts + 100 ≤ s.powerLimit then some (p.underSince.getD s.now) else none })

theorem average_core (r : State) (watts mv : Nat) : SameCore r (r.average watts mv) := by
  simp [SameCore, State.average, State.setVin]
theorem average_boot (r : State) (watts mv : Nat) : (r.average watts mv).com.boot = r.com.boot := by
  simp [State.average, State.setVin]
theorem average_pw (r : State) (watts mv : Nat) : ∃ uj bad, (r.average watts mv).com.pw = { r.com.pw with
    polls := (r.now, r.com.pw.polls.2), vin := mv, measured := true, vinBad := bad, pin := watts, energyUj := uj } := by
  simp only [State.average, State.setVin, State.modStore_com, State.bumpBin_com, State.setLevel_com, State.bump_com, State.modPw_com,
    State.modPw_now]
  exact ⟨_, _, rfl⟩
theorem tryRise_core (s : State) : SameCore s s.tryRise := by
  unfold State.tryRise
  dsimp only
  split
  · exact sameCore_modPw s _
  · exact SameCore.refl s
theorem tryRise_pw (s : State) : ∃ a b c d, s.tryRise.com.pw = { s.com.pw with rising := a, rail := b, railFail := c, needCycle := d } := by
  unfold State.tryRise
  dsimp only
  split <;> exact ⟨_, _, _, _, rfl⟩

theorem exec_powerAverage_standby {s : State} (watts mv : Nat) (hhigh : s.com.pw.standby = true) :
    let v := (s.reach (s.com.pw.polls.1 + 10 * micro)).average watts mv
    exec (.powerAverage watts mv) s = if !v.com.pw.good || v.com.boot.power != .up then .next v.tryRise
      else .next (if v.powerLimit < watts + 50 then (v.heldToLimit watts).applyAll else v.heldToLimit watts) :=
  if_neg (by simp [hhigh])

/-- A state whose units, and queue of commands, are another's. -/
def SameUnits (s t : State) : Prop := t.heats = s.heats ∧ t.ports = s.ports ∧ t.pending = s.pending
theorem SameUnits.trans {s t u : State} (h : SameUnits s t) (k : SameUnits t u) : SameUnits s u :=
  ⟨k.1.trans h.1, k.2.1.trans h.2.1, k.2.2.trans h.2.2⟩
theorem PassOnly.units {s t : State} (h : PassOnly s t) : SameUnits s t := ⟨h.heats, h.ports, h.pending⟩
theorem SameCore.units {s t : State} (h : SameCore s t) : SameUnits s t := by
  obtain ⟨-, hport, hheat, -, -, hpend⟩ := h
  exact ⟨hheat, hport, hpend⟩
theorem SameCore.now {s t : State} (h : SameCore s t) : t.now = s.now := by
  obtain ⟨-, -, -, hnow, -⟩ := h
  exact hnow
theorem reach_units (s : State) (t : Nat) : SameUnits s (s.reach t) := by
  obtain ⟨hheat, hport, hpend, -⟩ := s.reach_rest t
  exact ⟨hheat, hport, hpend⟩

/-- While the rails or the power core are off, the average is only measured (R365). -/
theorem powerAverage_measures {s : State} (watts mv : Nat) (hhigh : s.com.pw.standby = true)
    (hoff : ¬ (s.com.pw.good = true ∧ s.com.boot.power = .up)) : ∃ t, exec (.powerAverage watts mv) s = .next t ∧ t.com.pw.pin = watts ∧
      t.com.pw.vin = mv ∧ t.com.pw.polls.1 = t.now ∧ SameUnits s t := by
  have hrow := exec_powerAverage_standby watts mv hhigh
  have hunits := reach_units s (s.com.pw.polls.1 + 10 * micro)
  have hpw := s.reach_pw (s.com.pw.polls.1 + 10 * micro)
  have hboot := s.reach_boot (s.com.pw.polls.1 + 10 * micro)
  generalize s.reach (s.com.pw.polls.1 + 10 * micro) = r at hrow hunits hpw hboot
  have hcore := average_core r watts mv
  obtain ⟨uj, bad, hvpw⟩ := average_pw r watts mv
  have hvboot := (average_boot r watts mv).trans hboot
  dsimp only at hrow
  rw [if_pos (by rw [hvpw, hvboot, hpw]; simpa [or_iff_not_imp_left] using hoff)] at hrow
  obtain ⟨a, b, c, d, htpw⟩ := tryRise_pw (r.average watts mv)
  have hnow := (tryRise_core (r.average watts mv)).now.trans hcore.now
  refine ⟨_, hrow, ?_, ?_, ?_, (hunits.trans hcore.units).trans (tryRise_core _).units⟩ <;> rw [htpw, hvpw]
  exact hnow.symm
/-- With them on it is held against the limit, and above the limit less 50 W every Sprint ends (R364, R365). -/
theorem powerAverage_limits {s : State} (watts mv : Nat) (hhigh : s.com.pw.standby = true) (hgood : s.com.pw.good = true)
    (hup : s.com.boot.power = .up) : ∃ t, exec (.powerAverage watts mv) s = .next t ∧ t.com.pw.pin = watts ∧ t.com.pw.vin = mv ∧
      t.com.pw.polls.1 = t.now ∧ SameUnits s t ∧ (t.com.pw.overLim = true ↔ s.powerLimit < watts + 50) ∧
      t.com.pw.capMv = (if s.powerLimit < watts + 50 then 750 else s.com.pw.capMv) ∧
      (s.powerLimit < watts + 50 → ∀ c, (s.cl c).retired = false → s.pacingOn = true ∨ (s.cl c).pc.st.asleep = false → (t.cl c).pc.active ≤ 750) ∧
      t.com.pw.underSince = if watts + 100 ≤ s.powerLimit then some (s.com.pw.underSince.getD t.now) else none := by
  have hrow := exec_powerAverage_standby watts mv hhigh
  have hunits := reach_units s (s.com.pw.polls.1 + 10 * micro)
  have hcl := s.reach_cl (s.com.pw.polls.1 + 10 * micro)
  have hpw := s.reach_pw (s.com.pw.polls.1 + 10 * micro)
  have hboot := s.reach_boot (s.com.pw.polls.1 + 10 * micro)
  generalize s.reach (s.com.pw.polls.1 + 10 * micro) = r at hrow hunits hcl hpw hboot
  have hcore := average_core r watts mv
  obtain ⟨uj, bad, hvpw⟩ := average_pw r watts mv
  have hvboot := (average_boot r watts mv).trans hboot
  rw [hpw] at hvpw
  dsimp only at hrow
  rw [if_neg (by rw [hvpw, hvboot, hup]; simp [hgood])] at hrow
  generalize r.average watts mv = v at hrow hcore hvpw hvboot
  have hlimit : v.powerLimit = s.powerLimit := powerLimit_congr hvboot (by rw [hvpw])
  have hon : v.pacingOn = s.pacingOn := pacingOn_congr hvboot
  let w := v.heldToLimit watts
  have hwpw : w.com.pw = { v.com.pw with
      overLim := s.powerLimit < watts + 50, capMv := if s.powerLimit < watts + 50 then 750 else v.com.pw.capMv
      underSince := if watts + 100 ≤ s.powerLimit then some (v.com.pw.underSince.getD v.now) else none } := by
    simp only [w, State.heldToLimit, State.modPw_com, hlimit]
  have hpass : PassOnly w (if v.powerLimit < watts + 50 then w.applyAll else w) := by
    split
    · exact applyAll_passOnly w
    · exact ⟨rfl, rfl, rfl, rfl, rfl⟩
  have hnow : (if v.powerLimit < watts + 50 then w.applyAll else w).now = v.now := hpass.now
  refine ⟨_, hrow, ?_, ?_, ?_, (hunits.trans hcore.units).trans hpass.units, ?_, ?_, fun habove c hlive hwork => ?_, ?_⟩
  · rw [hpass.pw, hwpw, hvpw]
  · rw [hpass.pw, hwpw, hvpw]
  · rw [hpass.pw, hnow, hwpw, hvpw]
    exact hcore.now.symm
  · rw [hpass.pw, hwpw]
    exact decide_eq_true_iff
  · rw [hpass.pw, hwpw, hvpw]
  · have hwcl : w.cl c = s.cl c := (hcore.cl c).trans (hcl c)
    rw [hlimit, if_pos habove, applyAll_active (by rw [hwcl]; exact hlive), hwcl]
    exact supplyMv_le_750 (by rw [hwpw]; exact if_pos habove) (hwork.imp_left hon.trans)
  · rw [hpass.pw, hnow, hwpw, hvpw]

/-! Shedding and restoring (R365). -/

/-- The pacing of every cluster changed. -/
def State.eachPacing (s : State) (f : Pacing → Pacing) : State :=
  (List.finRange 64).foldl (fun s c => s.modCl c (fun k => { k with pc := f k.pc })) s

theorem eachPacing_pass {f : Pacing → Pacing} (hf : ∀ p, (f p).pace = p.pace) (s : State) : PassOnly s (s.eachPacing f) ∧
    ∀ c, ((s.eachPacing f).cl c).pc = f (s.cl c).pc ∧ ((s.eachPacing f).cl c).store = (s.cl c).store := by
  have hone : ∀ (s : State) c, PaceOnly s (s.modCl c (fun k => { k with pc := f k.pc })) c := fun s c => paceOnly_mod s c f hf
  refine ⟨pass_only hone s, fun c => ?_⟩
  obtain ⟨u, -, hcl, hturn, hstore⟩ := pass_cl hone s c
  exact ⟨by rw [State.eachPacing, hturn, State.cl_modCl_same, hcl], hstore⟩
theorem shedOne_pace (k : Pacing) : (shedOne k).pace = k.pace := by
  unfold shedOne
  split <;> rfl
theorem shedOne_shed (k : Pacing) : (shedOne k).shed = if k.st.asleep = false ∧ 550 < k.active then k.shed + 10 else k.shed := by
  simp only [shedOne, Bool.and_eq_true, Bool.not_eq_true', decide_eq_true_eq]
  split <;> rfl

/-- A round sets its time, and then what every cluster has lost or the cap (R365). -/
theorem exec_shedRound_up {s : State} (hgood : s.com.pw.good = true) (hup : s.com.boot.power = .up) :
    let r := s.reach (s.com.pw.polls.2.1 + 100 * micro)
    let v := r.modPw (fun p => { p with polls := (p.polls.1, r.now, p.polls.2.2) })
    exec .shedRound s = if v.com.pw.overLim then .next (v.eachPacing shedOne).applyAll
      else if (v.com.pw.underSince.map (fun t => decide (t + milli ≤ v.now))).getD false then
        if v.clusters.toList.any (fun k => k.pc.shed != 0) then .next (v.eachPacing restoreOne).applyAll
        else .next (v.modPw (fun p => { p with capMv := min 850 (p.capMv + 10) })).applyAll
      else .next v :=
  if_neg (by simp [hgood, hup])

/-- What every round leaves, with its clusters' pacing and the cap left to say. -/
structure Rounded (s t : State) : Prop where
  /-- time -/
  now : t.now = max s.now (s.com.pw.polls.2.1 + 100 * micro)
  /-- units -/
  units : SameUnits s t
  /-- stores -/
  store : ∀ c, (t.cl c).store = (s.cl c).store

theorem applyAll_pass_rounded {s v w : State} (h : Rounded s v) (hnow : w.now = v.now) (hunits : SameUnits v w)
    (hstore : ∀ c, (w.cl c).store = (v.cl c).store) : Rounded s w.applyAll :=
  have hpass := applyAll_passOnly w
  ⟨hpass.now.trans (hnow.trans h.now), (h.units.trans hunits).trans hpass.units,
    fun c => (applyAll_shed_store w c).2.trans ((hstore c).trans (h.store c))⟩

theorem shedRound_rounds {s : State} (hgood : s.com.pw.good = true) (hup : s.com.boot.power = .up) : ∃ t, exec .shedRound s = .next t ∧
    Rounded s t ∧
    (∀ c, let k := (s.cl c).pc
      (s.com.pw.overLim = true → (t.cl c).pc.shed = if k.st.asleep = false ∧ 550 < k.active then k.shed + 10 else k.shed) ∧
      (s.com.pw.overLim = false → ∀ u, s.com.pw.underSince = some u → u + milli ≤ t.now → (t.cl c).pc.shed = k.shed - 10)) ∧
    (s.com.pw.overLim = false → (∀ c, (s.cl c).pc.shed = 0) → ∀ u, s.com.pw.underSince = some u → u + milli ≤ t.now →
      t.com.pw.capMv = min 850 (s.com.pw.capMv + 10)) := by
  have hrow := exec_shedRound_up hgood hup
  have hunits := reach_units s (s.com.pw.polls.2.1 + 100 * micro)
  have hcl := s.reach_cl (s.com.pw.polls.2.1 + 100 * micro)
  have hpw := s.reach_pw (s.com.pw.polls.2.1 + 100 * micro)
  have hnow := s.reach_now (s.com.pw.polls.2.1 + 100 * micro)
  generalize s.reach (s.com.pw.polls.2.1 + 100 * micro) = r at hrow hunits hcl hpw hnow
  dsimp only at hrow
  generalize hv : r.modPw (fun p => { p with polls := (p.polls.1, r.now, p.polls.2.2) }) = v at hrow
  have hvcl : ∀ c, v.cl c = s.cl c := by rw [← hv]; exact hcl
  have hvpw : v.com.pw = { s.com.pw with polls := (s.com.pw.polls.1, r.now, s.com.pw.polls.2.2) } := by rw [← hv, State.modPw_com, hpw]
  have hround : Rounded s v := by
    rw [← hv]
    exact ⟨hnow, hunits, fun c => congrArg Cluster.store (hcl c)⟩
  have hover : v.com.pw.overLim = s.com.pw.overLim := by rw [hvpw]
  have hunder : v.com.pw.underSince = s.com.pw.underSince := by rw [hvpw]
  rw [hover, hunder] at hrow
  cases hlim : s.com.pw.overLim with
  | true =>
    rw [hlim, if_pos rfl] at hrow
    obtain ⟨hpass, hpc⟩ := eachPacing_pass shedOne_pace v
    refine ⟨_, hrow, applyAll_pass_rounded hround hpass.now hpass.units (fun c => (hpc c).2), fun c => ⟨fun _ => ?_, nofun⟩, nofun⟩
    rw [(applyAll_shed_store _ c).1, (hpc c).1, shedOne_shed, hvcl]
  | false =>
    rw [hlim, if_neg (by simp)] at hrow
    by_cases hdue : ((s.com.pw.underSince.map (fun t => decide (t + milli ≤ v.now))).getD false) = true
    · rw [if_pos hdue] at hrow
      by_cases hshed : v.clusters.toList.any (fun k => k.pc.shed != 0) = true
      · rw [if_pos hshed] at hrow
        obtain ⟨hpass, hpc⟩ := eachPacing_pass (f := restoreOne) (fun _ => rfl) v
        refine ⟨_, hrow, applyAll_pass_rounded hround hpass.now hpass.units (fun c => (hpc c).2),
          fun c => ⟨nofun, fun _ u _ _ => ?_⟩, fun _ hnone => ?_⟩
        · rw [(applyAll_shed_store _ c).1, (hpc c).1, hvcl]
          rfl
        · obtain ⟨k, hk, hne⟩ := List.any_eq_true.mp hshed
          obtain ⟨i, hi, rfl⟩ := List.mem_iff_getElem.mp hk
          have hzero := hnone ⟨i, by simpa using hi⟩
          rw [← hvcl] at hzero
          simp only [bne_iff_ne, ne_eq] at hne
          exact absurd hzero hne
      · rw [if_neg hshed] at hrow
        have hzero : ∀ c, (s.cl c).pc.shed = 0 := by
          intro c
          by_contra hne
          refine hshed (List.any_eq_true.mpr ⟨v.cl c, by simp [State.cl], ?_⟩)
          rw [hvcl]
          exact bne_iff_ne.mpr hne
        have hpass := applyAll_passOnly (v.modPw (fun p => { p with capMv := min 850 (p.capMv + 10) }))
        refine ⟨_, hrow, applyAll_pass_rounded hround rfl ⟨rfl, rfl, rfl⟩ (fun _ => rfl),
          fun c => ⟨nofun, fun _ u _ _ => ?_⟩, fun _ _ _ _ _ => ?_⟩
        · rw [(applyAll_shed_store _ c).1, State.modPw_cl, hvcl, hzero]
        · rw [hpass.pw, State.modPw_com, hvpw]
    · rw [if_neg hdue] at hrow
      have hearly : ∀ u, s.com.pw.underSince = some u → ¬ u + milli ≤ v.now := by
        intro u hu h
        rw [hu] at hdue
        simp [h] at hdue
      exact ⟨_, hrow, hround, fun c => ⟨nofun, fun _ u hu h => absurd h (hearly u hu)⟩, fun _ _ u hu h => absurd h (hearly u hu)⟩

/-! The hardware limit and the hardware floor (R366, R367). -/

/-- Counting and reporting leave every unit, the power part and boot (R366, R393, R409). -/
structure Noted (s t : State) : Prop where
  /-- units -/
  core : SameCore s t
  /-- power -/
  pw : t.com.pw = s.com.pw
  /-- boot -/
  boot : t.com.boot = s.com.boot
theorem Noted.trans {s t u : State} (h : Noted s t) (k : Noted t u) : Noted s u := ⟨h.core.trans k.core, k.pw.trans h.pw, k.boot.trans h.boot⟩
theorem noted_bump (s : State) (g i x n : Nat) : Noted s (s.bump g i x n) := ⟨sameCore_bump s g i x n, rfl, rfl⟩
theorem noted_powerReport (s : State) (what : Nat) : Noted s (s.powerReport what) :=
  have h := mgmtOnly_report s 0x09 0xFF 0 0 (natLE 1 what)
  have hcom : (s.powerReport what).com = { s.com with mgmt := (s.powerReport what).com.mgmt } := h.com
  ⟨h.core, by rw [hcom], by rw [hcom]⟩
theorem noted_ite {c : Prop} [Decidable c] {s t : State} (h : Noted s t) : Noted s (if c then t else s) := by
  split
  · exact h
  · exact ⟨SameCore.refl s, rfl, rfl⟩

theorem exec_hardwareLimit_good {s : State} (watts : Nat) (hgood : s.com.pw.good = true) :
    let r := s.reach (s.com.pw.polls.2.2.1 + 20 * micro)
    let v := r.modPw (fun p => { p with polls := (p.polls.1, p.polls.2.1, r.now, p.polls.2.2.2) })
    let w := if v.com.pw.pause ≠ 0 then v.bump 9 0 3 3125 else v
    exec (.hardwareLimit watts) s = if w.hardOver watts then
        .next ((if v.com.pw.pause = 0 then w.powerReport 2 else w).modPw (fun p => { p with
          pause := min 6 (p.pause + 1), pauseAt := (if v.com.pw.pause = 0 then w.powerReport 2 else w).now }))
      else if v.com.pw.pause ≠ 0 ∧ watts < w.powerLimit ∧ v.com.pw.pauseAt + 100 * micro ≤ w.now then
        .next (w.modPw (fun p => { p with pause := p.pause - 1, pauseAt := w.now }))
      else .next w :=
  if_neg (by simp [hgood])
/-- Above the threshold the pause grows by an eighth, up to six; below the limit it shrinks by one, each 100 µs (R366). -/
theorem hardwareLimit_pauses {s : State} (watts : Nat) (hgood : s.com.pw.good = true) : ∃ t, exec (.hardwareLimit watts) s = .next t ∧
    t.now = max s.now (s.com.pw.polls.2.2.1 + 20 * micro) ∧ (s.hardOver watts = true → t.com.pw.pause = min 6 (s.com.pw.pause + 1)) ∧
    (s.hardOver watts = false → t.com.pw.pause =
      if watts < s.powerLimit ∧ s.com.pw.pauseAt + 100 * micro ≤ t.now then s.com.pw.pause - 1 else s.com.pw.pause) ∧
    t.clusters = s.clusters ∧ SameUnits s t := by
  have hrow := exec_hardwareLimit_good watts hgood
  have hunits := reach_units s (s.com.pw.polls.2.2.1 + 20 * micro)
  obtain ⟨-, -, -, hcl⟩ := s.reach_rest (s.com.pw.polls.2.2.1 + 20 * micro)
  have hpw := s.reach_pw (s.com.pw.polls.2.2.1 + 20 * micro)
  have hboot := s.reach_boot (s.com.pw.polls.2.2.1 + 20 * micro)
  have hnow := s.reach_now (s.com.pw.polls.2.2.1 + 20 * micro)
  generalize s.reach (s.com.pw.polls.2.2.1 + 20 * micro) = r at hrow hunits hcl hpw hboot hnow
  dsimp only at hrow
  generalize hv : r.modPw (fun p => { p with polls := (p.polls.1, p.polls.2.1, r.now, p.polls.2.2.2) }) = v at hrow
  have hvcore : SameCore r v := by rw [← hv]; exact sameCore_modPw r _
  have hvpw : v.com.pw = { s.com.pw with polls := (s.com.pw.polls.1, s.com.pw.polls.2.1, r.now, s.com.pw.polls.2.2.2) } := by
    rw [← hv, State.modPw_com, hpw]
  have hvboot : v.com.boot = s.com.boot := by rw [← hv, State.modPw_com, hboot]
  have hw : Noted v (if v.com.pw.pause ≠ 0 then v.bump 9 0 3 3125 else v) := noted_ite (noted_bump v _ _ _ _)
  generalize (if v.com.pw.pause ≠ 0 then v.bump 9 0 3 3125 else v) = w at hrow hw
  have hx : Noted w (if v.com.pw.pause = 0 then w.powerReport 2 else w) := noted_ite (noted_powerReport w 2)
  generalize (if v.com.pw.pause = 0 then w.powerReport 2 else w) = x at hrow hx
  have hwnow : w.now = max s.now (s.com.pw.polls.2.2.1 + 20 * micro) := (hvcore.trans hw.core).now.trans hnow
  have hpause : w.com.pw.pause = s.com.pw.pause := by rw [hw.pw, hvpw]
  have hpauseAt : v.com.pw.pauseAt = s.com.pw.pauseAt := by rw [hvpw]
  have hwclusters : w.clusters = s.clusters := (hvcore.trans hw.core).1.trans hcl
  have hwunits : SameUnits s w := hunits.trans (hvcore.trans hw.core).units
  have hbrown : w.com.pw.brownOut = s.com.pw.brownOut := by rw [hw.pw, hvpw]
  rw [hardOver_congr (hw.boot.trans hvboot) hbrown, powerLimit_congr (hw.boot.trans hvboot) hbrown, ← hw.pw, hpause, hw.pw, hpauseAt] at hrow
  cases hover : s.hardOver watts with
  | true =>
    rw [hover, if_pos rfl] at hrow
    refine ⟨_, hrow, hx.core.now.trans hwnow, fun _ => ?_, nofun, hx.core.1.trans hwclusters, hwunits.trans hx.core.units⟩
    rw [State.modPw_com, hx.pw, hpause]
  | false =>
    rw [hover, if_neg (by simp)] at hrow
    by_cases hback : s.com.pw.pause ≠ 0 ∧ watts < s.powerLimit ∧ s.com.pw.pauseAt + 100 * micro ≤ w.now
    · rw [if_pos hback] at hrow
      refine ⟨_, hrow, hwnow, nofun, fun _ => ?_, hwclusters, hwunits⟩
      rw [State.modPw_now, if_pos hback.2, State.modPw_com, hpause]
    · rw [if_neg hback] at hrow
      refine ⟨_, hrow, hwnow, nofun, fun _ => ?_, hwclusters, hwunits⟩
      split
      · next hlow =>
        have hzero : s.com.pw.pause = 0 := by
          by_contra hne
          exact hback ⟨hne, hlow⟩
        rw [hpause, hzero]
      · exact hpause
/-- The lapse of the power core's heartbeat holds and wakes every cluster (R337, R367). -/
theorem heartbeatLapse_floors {s : State} (hgood : s.com.pw.good = true) (hdown : s.com.boot.power ≠ .up) (hfloor : s.com.pw.floor = false) :
    ∃ t, exec .heartbeatLapse s = .next t ∧ t.com.pw.floor = true ∧
      (∀ c, (s.cl c).retired = false → (t.cl c).pc.active = 750 ∧ ((t.cl c).pc.st.asleep = true → ∃ a, (t.cl c).pc.move = .leaving a)) ∧
      (∀ c, (t.cl c).store = (s.cl c).store) ∧ SameUnits s t := by
  let v := s.modPw (fun p => { p with floor := true })
  have hrow : exec .heartbeatLapse s = .next ((List.finRange 64).foldl (fun s c => (s.applyPace c).beginExit c) v) :=
    if_neg (by simp [hgood, hdown, hfloor])
  have hone : ∀ (s : State) c, PaceOnly s ((s.applyPace c).beginExit c) c := fun s c => (paceOnly_applyPace s c).trans (paceOnly_beginExit _ c)
  have hpass := pass_only hone v
  refine ⟨_, hrow, by rw [hpass.pw]; rfl, fun c hlive => ?_, fun c => (pass_cl hone v c).choose_spec.2.2.2, hpass.units⟩
  obtain ⟨u, hu, hcl, hturn, -⟩ := pass_cl hone v c
  have hucl : u.cl c = s.cl c := hcl
  rw [hturn]
  obtain ⟨hactive, -⟩ := applyPace_pc u c (by rw [hucl]; exact hlive)
  have hkeep : ((u.applyPace c).cl c).retired = false := by rw [(paceOnly_applyPace u c).cl, hucl]; exact hlive
  rw [hu.supplyMv, supplyMv_floor _ rfl] at hactive
  by_cases hwake : ((u.applyPace c).cl c).mayWake
  · rw [(beginExit_eq _ c).1 hwake, State.cl_modCl_same]
    exact ⟨hactive, fun _ => ⟨_, rfl⟩⟩
  · rw [(beginExit_eq _ c).2 hwake]
    refine ⟨hactive, fun hasleep => ?_⟩
    by_contra hstay
    exact hwake ⟨hasleep, fun a ha => hstay ⟨a, ha⟩, hkeep⟩

/-- Settles O51: one lemma for each row of the envelope. -/
theorem envelopeIsHeld : Obligations.EnvelopeIsHeld := by
  intro s watts mv
  refine ⟨fun hhigh => ?average, fun hgood hup => ?round, fun hgood => ?limit, fun hgood hdown hfloor => ?floor⟩
  case average =>
    by_cases hon : s.com.pw.good = true ∧ s.com.boot.power = .up
    · obtain ⟨t, hrow, hpin, hvin, hpoll, ⟨hheats, hports, hpend⟩, hover, hcap, hactive, hunder⟩ :=
        powerAverage_limits watts mv hhigh hon.1 hon.2
      exact ⟨t, hrow, hpin, hvin, hpoll, hheats, hports, hpend, fun _ _ =>
        ⟨hover, hcap, hactive, fun h => hunder.trans (if_pos h), fun h => hunder.trans (if_neg (by omega))⟩⟩
    · obtain ⟨t, hrow, hpin, hvin, hpoll, hheats, hports, hpend⟩ := powerAverage_measures watts mv hhigh hon
      exact ⟨t, hrow, hpin, hvin, hpoll, hheats, hports, hpend, fun hgood hup => absurd ⟨hgood, hup⟩ hon⟩
  case round =>
    obtain ⟨t, hrow, hround, hshed, hcap⟩ := shedRound_rounds hgood hup
    obtain ⟨hheats, hports, hpend⟩ := hround.units
    exact ⟨t, hrow, hround.now, hshed, hcap, hheats, hports, hpend, hround.store⟩
  case limit =>
    obtain ⟨t, hrow, hnow, hover, hunder, hcl, hheats, hports, hpend⟩ := hardwareLimit_pauses watts hgood
    exact ⟨t, hrow, hnow, hover, hunder, hheats, hcl, hports, hpend⟩
  case floor =>
    obtain ⟨t, hrow, hacts, hcl, hstore, hheats, hports, hpend⟩ := heartbeatLapse_floors hgood hdown hfloor
    exact ⟨t, hrow, hacts, hcl, hstore, hheats, hports, hpend⟩

end Sys2Proof.Machine
end

section
/-! Temperature and the reference clock (R368, R429, R435): what a sensor reading does to its own cluster and leaves of the rest, the trip, and
the clock's loss and return. -/
namespace Sys2Proof.Machine

/-! The sensors (R368). -/

/-- Below 92 °C the restrictions end; from 95 °C there is no Sprint, from 100 °C the supply is capped (R368). -/
theorem thermal_noSprint (k : Pacing) (q : Int) : (thermal k q).noSprint = true ↔ 380 ≤ q ∨ (368 ≤ q ∧ k.noSprint = true) := by
  by_cases hcool : q < 368
  · simp only [thermal, if_pos hcool, Bool.false_eq_true, false_iff]
    omega
  · simp only [thermal, if_neg hcool, Bool.or_eq_true, decide_eq_true_eq]
    have hwarm : 368 ≤ q := by omega
    tauto
theorem thermal_cap700 (k : Pacing) (q : Int) : (thermal k q).cap700 = true ↔ 400 ≤ q ∨ (368 ≤ q ∧ k.cap700 = true) := by
  by_cases hcool : q < 368
  · simp only [thermal, if_pos hcool, Bool.false_eq_true, false_iff]
    omega
  · simp only [thermal, if_neg hcool, Bool.or_eq_true, decide_eq_true_eq]
    have hwarm : 368 ≤ q := by omega
    tauto

/-- What reading the sensor of cluster c leaves: of that cluster all but its pacing, everything else of the units, PWR_GOOD and boot. -/
structure Sensed (s t : State) (c : Fin 64) : Prop where
  /-- other clusters -/
  others : ∀ d, d ≠ c → t.cl d = s.cl d
  /-- its own -/
  own : t.cl c = { s.cl c with pc := (t.cl c).pc }
  /-- heats -/
  heats : t.heats = s.heats
  /-- ports -/
  ports : t.ports = s.ports
  /-- PWR_GOOD -/
  good : t.com.pw.good = s.com.pw.good
  /-- boot -/
  boot : t.com.boot = s.com.boot

theorem Sensed.refl (s : State) (c : Fin 64) : Sensed s s c := ⟨fun _ _ => rfl, rfl, rfl, rfl, rfl, rfl⟩
theorem Sensed.trans {s t u : State} {c : Fin 64} (h : Sensed s t c) (k : Sensed t u c) : Sensed s u c :=
  ⟨fun d hd => (k.others d hd).trans (h.others d hd), by rw [k.own, h.own], k.heats.trans h.heats, k.ports.trans h.ports,
    k.good.trans h.good, k.boot.trans h.boot⟩
theorem PaceOnly.sensed {s t : State} {c : Fin 64} (h : PaceOnly s t c) : Sensed s t c :=
  ⟨h.others, h.cl, h.heats, h.ports, by rw [h.com], by rw [h.com]⟩
theorem sensed_same {s t : State} (h : SameCore s t) (hgood : t.com.pw.good = s.com.pw.good) (hboot : t.com.boot = s.com.boot) (c : Fin 64) :
    Sensed s t c := by
  obtain ⟨hcl, hport, hheat, -⟩ := id h
  exact ⟨fun d _ => h.cl d, by rw [h.cl], hheat, hport, hgood, hboot⟩
/-- A thermal step is counted, reported and raises ALERT_CAUSE bit 2 (R368, R393, R436). -/
theorem sensed_thermalStep (s : State) (c : Fin 64) : Sensed s (((s.bump 9 0 5).alert 2).powerReport 1) c :=
  have h := noted_powerReport ((s.bump 9 0 5).alert 2) 1
  sensed_same (((sameCore_bump s _ _ _ _).trans (sameCore_alert _ _)).trans h.core) (by rw [h.pw]; rfl) (by rw [h.boot]; rfl) c

/-- The sensor's value is kept, and while the power core works at PWR_GOOD the cluster's restrictions follow it. -/
theorem readJunction_sensed (s : State) (c : Fin 64) (q : Int) : Sensed s (s.readJunction c q) c ∧
    ((s.readJunction c q).cl c).pc.temp = q ∧
    (s.com.pw.good = true → s.com.boot.power = .up → (s.cl c).retired = false →
      ((s.readJunction c q).cl c).pc.noSprint = (thermal (s.cl c).pc q).noSprint ∧
      ((s.readJunction c q).cl c).pc.cap700 = (thermal (s.cl c).pc q).cap700) := by
  have htemp : Sensed s ((s.modCl c (fun g => { g with pc := { g.pc with temp := q } })).setLevel 1 c.val 28 q) c :=
    (paceOnly_mod s c (fun p => { p with temp := q }) (fun _ => rfl)).sensed.trans (sensed_same (sameCore_setLevel _ _ _ _ _) rfl rfl c)
  have hread : (((s.modCl c (fun g => { g with pc := { g.pc with temp := q } })).setLevel 1 c.val 28 q).cl c).pc.temp = q := by
    rw [State.setLevel_cl, State.cl_modCl_same]
  unfold State.readJunction
  dsimp only
  generalize (s.modCl c (fun g => { g with pc := { g.pc with temp := q } })).setLevel 1 c.val 28 q = v at htemp hread
  have hretired : (v.cl c).retired = (s.cl c).retired := by rw [htemp.own]
  rw [htemp.good, htemp.boot, hretired]
  by_cases hoff : (!s.com.pw.good || s.com.boot.power != .up || (s.cl c).retired) = true
  · rw [if_pos hoff]
    refine ⟨htemp, hread, fun hgood hup hlive => ?_⟩
    simp [hgood, hup, hlive] at hoff
  · rw [if_neg hoff]
    have hlive : (s.cl c).retired = false := by
      simp only [Bool.or_eq_true, not_or, Bool.not_eq_true] at hoff
      exact hoff.2
    have hset : Sensed s (v.modCl c (fun g => { g with pc := thermal (s.cl c).pc q })) c := by
      refine htemp.trans ⟨fun d hd => State.cl_modCl_ne _ _ _ _ (Ne.symm hd), ?_, rfl, rfl, rfl, rfl⟩
      rw [State.cl_modCl_same]
    have hpc : ((v.modCl c (fun g => { g with pc := thermal (s.cl c).pc q })).cl c).pc = thermal (s.cl c).pc q := by
      rw [State.cl_modCl_same]
    generalize v.modCl c (fun g => { g with pc := thermal (s.cl c).pc q }) = w at hset hpc
    have hstep : Sensed w (if ((thermal (s.cl c).pc q).cap700 && !(s.cl c).pc.cap700) = true then ((w.bump 9 0 5).alert 2).powerReport 1 else w) c ∧
        ((if ((thermal (s.cl c).pc q).cap700 && !(s.cl c).pc.cap700) = true then ((w.bump 9 0 5).alert 2).powerReport 1 else w).cl c).pc = (w.cl c).pc := by
      split
      · exact ⟨sensed_thermalStep w c, congrArg Cluster.pc ((noted_powerReport ((w.bump 9 0 5).alert 2) 1).core.cl c)⟩
      · exact ⟨Sensed.refl w c, rfl⟩
    generalize (if ((thermal (s.cl c).pc q).cap700 && !(s.cl c).pc.cap700) = true then ((w.bump 9 0 5).alert 2).powerReport 1 else w) = x at hstep
    obtain ⟨hsensed, hxpc⟩ := hstep
    rw [hpc] at hxpc
    have hx := hset.trans hsensed
    split
    · have hxlive : (x.cl c).retired = false := by rw [hx.own]; exact hlive
      obtain ⟨-, -, -, -, ht, hn, hc⟩ := applyPace_pc x c hxlive
      rw [ht, hn, hc, hxpc]
      exact ⟨hx.trans (paceOnly_applyPace x c).sensed, rfl, fun _ _ _ => ⟨rfl, rfl⟩⟩
    · rw [hxpc]
      exact ⟨hx, rfl, fun _ _ _ => ⟨rfl, rfl⟩⟩

/-- What reading the sensors leaves: units, stores, PWR_GOOD and boot. -/
structure SensedAll (s t : State) : Prop where
  /-- heats -/
  heats : t.heats = s.heats
  /-- ports -/
  ports : t.ports = s.ports
  /-- PWR_GOOD -/
  good : t.com.pw.good = s.com.pw.good
  /-- boot -/
  boot : t.com.boot = s.com.boot
/-- The sensors are read in order, each on a state that holds its cluster as it was. -/
theorem foldl_readJunction {cs : List (Fin 64)} (hcs : cs.Nodup) (ts : List Int) (s : State) :
    let t := (cs.zip ts).foldl (fun (s : State) ct => s.readJunction ct.1 ct.2) s
    SensedAll s t ∧ (∀ c, c ∉ cs → t.cl c = s.cl c) ∧
    ∀ i (hi : i < cs.length) (hj : i < ts.length), ∃ u, u.cl cs[i] = s.cl cs[i] ∧ SensedAll s u ∧ t.cl cs[i] = (u.readJunction cs[i] ts[i]).cl cs[i] := by
  induction cs generalizing ts s with
  | nil => exact ⟨⟨rfl, rfl, rfl, rfl⟩, fun _ _ => rfl, fun i hi => absurd hi (Nat.not_lt_zero i)⟩
  | cons c cs ih =>
    cases ts with
    | nil => exact ⟨⟨rfl, rfl, rfl, rfl⟩, fun _ _ => rfl, fun i _ hj => absurd hj (Nat.not_lt_zero i)⟩
    | cons q ts =>
      obtain ⟨hc, hcs⟩ := List.nodup_cons.mp hcs
      have hone := (readJunction_sensed s c q).1
      obtain ⟨hall, hrest, heach⟩ := ih hcs ts (s.readJunction c q)
      have hfirst : SensedAll s (s.readJunction c q) := ⟨hone.heats, hone.ports, hone.good, hone.boot⟩
      refine ⟨⟨hall.heats.trans hone.heats, hall.ports.trans hone.ports, hall.good.trans hone.good, hall.boot.trans hone.boot⟩,
        fun d hd => ?_, fun i hi hj => ?_⟩
      · rw [List.mem_cons, not_or] at hd
        exact (hrest d hd.2).trans (hone.others d hd.1)
      · cases i with
        | zero => exact ⟨s, rfl, ⟨rfl, rfl, rfl, rfl⟩, hrest c hc⟩
        | succ i =>
          have hi' : i < cs.length := Nat.lt_of_succ_lt_succ hi
          obtain ⟨u, hucl, hu, hturn⟩ := heach i hi' (Nat.lt_of_succ_lt_succ hj)
          have hne : cs[i] ≠ c := fun h => hc (h ▸ List.getElem_mem hi')
          exact ⟨u, hucl.trans (hone.others _ hne), ⟨hu.heats.trans hone.heats, hu.ports.trans hone.ports, hu.good.trans hone.good,
            hu.boot.trans hone.boot⟩, hturn⟩

theorem exec_sensorRead_reads {s : State} (ts : List Int) (board : Int) (hhigh : s.com.pw.standby = true) :
    ∃ t, exec (.sensorRead ts board) s = .next t ∧ t.com.pw.tBoard = board ∧ t.com.pw.feedTemp = ts.drop 64 ∧ t.com.pw.measured = true ∧
      t.heats = s.heats ∧ t.ports = s.ports ∧ ∀ c : Fin 64, c.val < ts.length →
        let q := ts.getD c.val 0
        let k := (s.cl c).pc
        (t.cl c).pc.temp = q ∧ (t.cl c).store = (s.cl c).store ∧
        (s.com.pw.good = true → s.com.boot.power = .up → (s.cl c).retired = false →
          ((t.cl c).pc.noSprint = true ↔ 380 ≤ q ∨ (368 ≤ q ∧ k.noSprint = true)) ∧
          ((t.cl c).pc.cap700 = true ↔ 400 ≤ q ∨ (368 ≤ q ∧ k.cap700 = true))) := by
  obtain ⟨hheats, hports, -, -⟩ := s.reach_rest (s.com.pw.polls.2.2.2 + 100 * micro)
  have hcl := s.reach_cl (s.com.pw.polls.2.2.2 + 100 * micro)
  have hpw := s.reach_pw (s.com.pw.polls.2.2.2 + 100 * micro)
  have hboot := s.reach_boot (s.com.pw.polls.2.2.2 + 100 * micro)
  change ∃ t, execSensorRead ts board s = .next t ∧ _
  unfold execSensorRead
  rw [if_neg (by simp [hhigh])]
  dsimp only
  generalize s.reach (s.com.pw.polls.2.2.2 + 100 * micro) = r at hheats hports hcl hpw hboot
  have hv : SensedAll s (r.modPw (fun p => { p with polls := (p.polls.1, p.polls.2.1, p.polls.2.2.1, r.now) })) :=
    ⟨hheats, hports, by rw [State.modPw_com, hpw], hboot⟩
  have hvcl : ∀ c, (r.modPw (fun p => { p with polls := (p.polls.1, p.polls.2.1, p.polls.2.2.1, r.now) })).cl c = s.cl c := hcl
  generalize r.modPw (fun p => { p with polls := (p.polls.1, p.polls.2.1, p.polls.2.2.1, r.now) }) = v at hv hvcl
  obtain ⟨hall, -, heach⟩ := foldl_readJunction fin64_nodup ts v
  generalize ((List.finRange 64).zip ts).foldl (fun (s : State) ct => s.readJunction ct.1 ct.2) v = w at hall heach
  have hread : ∀ c : Fin 64, c.val < ts.length → (w.cl c).pc.temp = ts.getD c.val 0 ∧ (w.cl c).store = (s.cl c).store ∧
      (s.com.pw.good = true → s.com.boot.power = .up → (s.cl c).retired = false →
        (w.cl c).pc.noSprint = (thermal (s.cl c).pc (ts.getD c.val 0)).noSprint ∧
        (w.cl c).pc.cap700 = (thermal (s.cl c).pc (ts.getD c.val 0)).cap700) := by
    intro c hc
    obtain ⟨u, hucl, hu, hturn⟩ := heach c.val (by simp) hc
    rw [List.getElem_finRange, Fin.cast_mk, Fin.eta] at hucl hturn
    obtain ⟨hsensed, htemp, hacts⟩ := readJunction_sensed u c ts[c.val]
    rw [hucl.trans (hvcl c), hu.good.trans hv.good, hu.boot.trans hv.boot] at hacts
    rw [hturn, List.getD_eq_getElem _ _ hc]
    exact ⟨htemp, by rw [hsensed.own, hucl, hvcl], hacts⟩
  have hdone : ∀ t, t.com.pw.tBoard = board → t.com.pw.feedTemp = ts.drop 64 → t.com.pw.measured = true → SameCore w t →
      t.com.pw.tBoard = board ∧ t.com.pw.feedTemp = ts.drop 64 ∧ t.com.pw.measured = true ∧
      t.heats = s.heats ∧ t.ports = s.ports ∧ ∀ c : Fin 64, c.val < ts.length →
        (t.cl c).pc.temp = ts.getD c.val 0 ∧ (t.cl c).store = (s.cl c).store ∧
        (s.com.pw.good = true → s.com.boot.power = .up → (s.cl c).retired = false →
          ((t.cl c).pc.noSprint = true ↔ 380 ≤ ts.getD c.val 0 ∨ (368 ≤ ts.getD c.val 0 ∧ (s.cl c).pc.noSprint = true)) ∧
          ((t.cl c).pc.cap700 = true ↔ 400 ≤ ts.getD c.val 0 ∨ (368 ≤ ts.getD c.val 0 ∧ (s.cl c).pc.cap700 = true))) := by
    intro t hboard hfeed hmeasured hcore
    obtain ⟨-, hport, hheat, -⟩ := id hcore
    refine ⟨hboard, hfeed, hmeasured, hheat.trans (hall.heats.trans hv.heats), hport.trans (hall.ports.trans hv.ports), fun c hc => ?_⟩
    obtain ⟨htemp, hstore, hacts⟩ := hread c hc
    rw [hcore.cl]
    refine ⟨htemp, hstore, fun hgood hup hlive => ?_⟩
    obtain ⟨hsprint, hcap⟩ := hacts hgood hup hlive
    rw [hsprint, hcap]
    exact ⟨thermal_noSprint _ _, thermal_cap700 _ _⟩
  split
  · next hfeed => exact ⟨_, rfl, hdone _ rfl rfl rfl (sameCore_modPw w _)⟩
  · next q rest hfeed => exact ⟨_, rfl, hdone _ rfl rfl rfl ((sameCore_modPw w _).trans (sameCore_setLevel _ _ _ _ _))⟩

/-! The trip and the clock (R368, R429). -/

section
variable {s : State}

theorem exec_thermalTrip_on (n : Nat) (hon : s.com.pw.good = true ∨ s.com.pw.rising = true) :
    exec (.thermalTrip n) s = .next ((s.railsOff.modPw (fun p => { p with tripped := true, needCycle := true })).alert 3) := if_pos hon
theorem exec_clockLoss_good (hgood : s.com.pw.good = true) (hclock : s.com.pw.clockLost = none) :
    let t := s.reach (s.now + 10 * micro)
    exec .clockLoss s = .next ((t.modPw (fun p => { p with clockLost := some t.now })).alert 6) := if_pos ⟨hgood, hclock⟩
theorem exec_clockLossTimeout_good {t : Nat} (hclock : s.com.pw.clockLost = some t) (hgood : s.com.pw.good = true) :
    exec .clockLossTimeout s = .next (s.reach (t + second)).inputFault := by
  change execClockLossTimeout s = _
  simp only [execClockLossTimeout, hclock, hgood, if_true]

/-- A pass over the ports in which each trains again. -/
theorem foldl_retrain {ps : List (Fin 32)} (hps : ps.Nodup) {s t : State} (ht : ps.foldl (fun s p => s.modPort p (fun k => k.retrain s.now)) s = t) :
    t.now = s.now ∧ t.com = s.com ∧ t.clusters = s.clusters ∧ t.heats = s.heats ∧
      ∀ p, t.port p = if p ∈ ps then (s.port p).retrain s.now else s.port p := by
  induction ps generalizing s with
  | nil =>
    subst ht
    exact ⟨rfl, rfl, rfl, rfl, fun p => by simp⟩
  | cons q ps ih =>
    obtain ⟨hq, hps⟩ := List.nodup_cons.mp hps
    obtain ⟨hnow, hcom, hcl, hheat, hport⟩ := ih hps ht
    refine ⟨hnow, hcom, hcl, hheat, fun p => (hport p).trans ?_⟩
    obtain rfl | hne := eq_or_ne p q
    · simp [hq]
    · simp [hne, State.port_modPort_ne _ _ _ _ (Ne.symm hne)]
/-- Every link trains again, and the feed ports are down. -/
def State.retrainLinks (s : State) : State :=
  [0, 1].foldl (fun (s : State) fp => s.modFeed fp (fun k => { k with up := false, downSince := if k.up then some s.now else k.downSince }))
    ((List.finRange 32).foldl (fun s p => s.modPort p (fun k => k.retrain s.now)) s)
theorem retrainLinks_units {t : State} (ht : s.retrainLinks = t) : t.clusters = s.clusters ∧ t.heats = s.heats ∧
    (∀ p, t.port p = (s.port p).retrain s.now) ∧ t.com = { s.com with feed := t.com.feed } ∧ ∀ f : Fin 2, (t.com.feed[f]).up = false := by
  obtain ⟨u, hu⟩ : ∃ u, (List.finRange 32).foldl (fun s p => s.modPort p (fun k => k.retrain s.now)) s = u := ⟨_, rfl⟩
  obtain ⟨-, hcom, hcl, hheat, hport⟩ := foldl_retrain (List.nodup_finRange 32) hu
  rw [State.retrainLinks, hu] at ht
  subst ht
  refine ⟨hcl, hheat, fun p => by simp [hport], by simp [hcom], fun f => ?_⟩
  fin_cases f <;> simp
theorem exec_clockReturn_lost (hclock : s.com.pw.clockLost.isSome = true) : exec .clockReturn s =
    .next ((s.modPw (fun p => { p with clockLost := none })).retrainLinks.modMgmt (fun m => { m with link := false })) := if_pos hclock
theorem clockReturn_retrains (hclock : s.com.pw.clockLost.isSome = true) : ∃ t, exec .clockReturn s = .next t ∧ t.com.pw.clockLost = none ∧
    t.com.mgmt.link = false ∧ (∀ p, t.port p = (s.port p).retrain s.now) ∧ (∀ f : Fin 2, (t.com.feed[f]).up = false) ∧
    t.clusters = s.clusters ∧ t.heats = s.heats := by
  obtain ⟨v, hv⟩ : ∃ v, (s.modPw (fun p => { p with clockLost := none })).retrainLinks = v := ⟨_, rfl⟩
  have hrow := exec_clockReturn_lost hclock
  obtain ⟨hcl, hheat, hport, hcom, hfeed⟩ := retrainLinks_units hv
  rw [hv] at hrow
  exact ⟨_, hrow, by rw [State.modMgmt_com, hcom, State.modPw_com], rfl, hport, hfeed, hcl, hheat⟩

end

/-- Settles O53: a reading acts on its own cluster by `thermal`; the other rows are their guards. -/
theorem temperatureAndClockAct : Obligations.TemperatureAndClockAct :=
  fun _ => ⟨exec_sensorRead_reads, exec_thermalTrip_on, exec_clockLoss_good, clockReturn_retrains, fun _ => exec_clockLossTimeout_good⟩

end Sys2Proof.Machine
end

section
/-! Pacing states (R357, R359 to R362): the state a gap selects, entry, the timers, the wake and exit, and the evaluation of a setpoint. -/
namespace Sys2Proof.Machine

/-! The state a gap selects (R360). -/

theorem fits_iff (st : PaceState) (g : Nat) : fits st g = true ↔ 16 * (st.entry + st.residency + st.exit) + g ≤ 16 * g := decide_eq_true_iff
/-- Rest pays off from a gap of 160 µs on. -/
theorem selectIdle_rest {g : Option Nat} (h : selectIdle g = .rest) : ∃ n, g = some n ∧ 160 * micro ≤ n := by
  cases g with
  | none => cases h
  | some n =>
    refine ⟨n, rfl, ?_⟩
    have hfits : fits .rest n = true := by
      by_contra hno
      simp only [selectIdle, if_neg hno] at h
      split at h <;> cases h
    have hlen := (fits_iff _ _).mp hfits
    simp only [PaceState.entry, PaceState.residency, PaceState.exit, micro] at hlen ⊢
    omega
/-- Walk pays off from a gap of 8.5334 µs on. -/
theorem selectIdle_walk {g : Option Nat} (h : selectIdle g = .walk) : ∃ n, g = some n ∧ 85334 ≤ n := by
  cases g with
  | none => cases h
  | some n =>
    refine ⟨n, rfl, ?_⟩
    have hfits : fits .walk n = true := by
      by_contra hno
      simp only [selectIdle, if_neg hno] at h
      split at h <;> cases h
    have hlen := (fits_iff _ _).mp hfits
    simp only [PaceState.entry, PaceState.residency, PaceState.exit, micro] at hlen
    omega
/-- With pacing off an idle cluster goes to Jog (R369). -/
theorem idleState_of_ne_jog {on : Bool} {g : Option Nat} {st : PaceState} (h : (if on then selectIdle g else .jog) = st) (hst : st ≠ .jog) :
    selectIdle g = st := by
  cases on with
  | true => exact h
  | false => exact absurd h.symm hst

/-! The rows. -/

section
variable {s : State} {c : Fin 64}

theorem exec_clusterIdle_idle (hawake : (s.cl c).pc.st.asleep = false) (hmove : (s.cl c).pc.move = .settled) (hup : s.com.boot.power = .up)
    (hfloor : s.com.pw.floor = false) (hidle : s.isIdle c = true) :
    let g := s.gapOf c
    let st := if s.pacingOn then selectIdle g else .jog
    exec (.clusterIdle c) s = .next ((s.setPace c st (.entering (s.now + st.entry))).modCl c (fun t => { t with pc := { t.pc with
      idleSince := some s.now, gap := g, exitAt := g.map (fun g => s.now + (g - g / 32 - st.exit)) } })) :=
  if_neg (by simp [hawake, hmove, hup, hfloor, hidle])
theorem exec_jogToWalk_due {t : Nat} (hsince : (s.cl c).pc.idleSince = some t) (hst : (s.cl c).pc.st = .jog) (hmove : (s.cl c).pc.move = .settled)
    (hgap : (s.cl c).pc.gap = none) (hon : s.pacingOn = true) (hup : s.com.boot.power = .up) :
    let u := s.reach (t + 20 * micro)
    exec (.jogToWalk c) s = .next (u.setPace c .walk (.entering (u.now + 2 * micro))) := by
  change execJogToWalk c s = _
  simp only [execJogToWalk, hsince]
  exact if_pos ⟨hst, hmove, hgap, hon, hup⟩
/-- Entry into Rest loses the accumulators and the row buffer (R357). -/
theorem exec_pacingEntryDone_entering {a : Nat} (hmove : (s.cl c).pc.move = .entering a) :
    let u := (s.reach a).modCl c (fun k => { k with pc := { k.pc with move := .settled } })
    exec (.pacingEntryDone c) s = .next (if (s.cl c).pc.st = .rest
      then u.useFree.modCl c (fun k => { k with acc := ⟨[], some u.free⟩, rowBuf := .unspecified u.free }) else u) := by
  intro u
  have hst : (u.cl c).pc.st = (s.cl c).pc.st := by rw [State.cl_modCl_same, State.reach_cl]
  change execPacingEntryDone c s = _
  simp only [execPacingEntryDone, hmove]
  rw [← hst]
  exact (apply_ite Host.Outcome.next _ _ _).symm
theorem exec_exitTimer_due {t : Nat} (hexit : (s.cl c).pc.exitAt = some t) (hup : s.com.boot.power = .up) :
    exec (.exitTimer c) s = .next ((s.reach t).beginExit c) := by
  change execExitTimer c s = _
  simp only [execExitTimer, hexit, hup, if_true]
theorem exec_wakeLine_inService (why : WakeCause) (hlive : (s.cl c).retired = false) : exec (.wakeLine c why) s = .next (s.beginExit c) :=
  if_neg (by simp [hlive])
/-- Exit begins in a state that is not already being left, and touches the pacing of its cluster alone (R362). -/
theorem beginExit_wakes (hlive : (s.cl c).retired = false) :
    ((s.cl c).pc.st.asleep = true → (∀ a, (s.cl c).pc.move ≠ .leaving a) →
      ((s.beginExit c).cl c).pc.move = .leaving (s.now + (s.cl c).pc.st.exit)) ∧ (s.beginExit c).com = s.com := by
  by_cases hwake : (s.cl c).mayWake
  · rw [(beginExit_eq s c).1 hwake]
    exact ⟨fun _ _ => by rw [State.cl_modCl_same], rfl⟩
  · rw [(beginExit_eq s c).2 hwake]
    exact ⟨fun hasleep hstay => absurd ⟨hasleep, hstay, hlive⟩ hwake, rfl⟩
/-- After exit the cluster works at the setpoint of its work (R357, R362). -/
theorem exec_pacingExitDone_leaving {a : Nat} (hmove : (s.cl c).pc.move = .leaving a) :
    exec (.pacingExitDone c) s = .next ((((s.reach a).setPace c (if 750 ≤ (s.cl c).pc.active then .sprint else .stride) .settled).modCl c (fun k => { k with
      pc := { k.pc with idleSince := none, gap := none, exitAt := none } })).pace c) := by
  change execPacingExitDone c s = _
  simp only [execPacingExitDone, hmove, State.reach_cl]
theorem exec_paceEvaluate_inService (rate75 rateNow : Nat) (hlive : (s.cl c).retired = false) (hup : s.com.boot.power = .up)
    (hgood : s.com.pw.good = true) :
    let k := (s.cl c).pc
    let u := if 8 ≤ (k.temp - k.evalTemp).natAbs then s else s.reach (k.evalAt + 100 * micro)
    let v := ((u.setLevel 1 c.val 26 rateNow).setLevel 1 c.val 27 rate75).modStore (fun g => g.noteRate c.val (rateAt65 rate75 k.temp))
    let w := v.modCl c (fun t => { t with pc := { t.pc with rate75 := rate75, rateNow := rateNow, evalTemp := t.pc.temp, evalAt := v.now } })
    let x := w.modCl c (fun t => { t with pc := { t.pc with raised := if belowTarget t.pc && !t.pc.st.asleep && t.pc.active < 850 then t.pc.raised + 10 else t.pc.raised } })
    exec (.paceEvaluate c rate75 rateNow) s = .next (x.pace c) :=
  if_neg (by simp [hlive, hup, hgood])

end

/-- Settles O54: one lemma for each row; what Rest and Walk say of the gap is `selectIdle_rest` and `selectIdle_walk`. -/
theorem pacingStatesAct : Obligations.PacingStatesAct := by
  intro s c k
  refine ⟨fun hawake hmove hup hfloor hidle => ⟨exec_clusterIdle_idle hawake hmove hup hfloor hidle, fun hrest => ?_, fun hwalk => ?_⟩,
    fun t hsince hst hmove hgap => exec_jogToWalk_due hsince hst hmove hgap, fun a => exec_pacingEntryDone_entering,
    fun t => exec_exitTimer_due, fun why hlive => ?_, fun a => exec_pacingExitDone_leaving, exec_paceEvaluate_inService⟩
  · exact selectIdle_rest (idleState_of_ne_jog hrest nofun)
  · exact selectIdle_walk (idleState_of_ne_jog hwalk nofun)
  · obtain ⟨hwakes, hcom⟩ := beginExit_wakes hlive
    have hpace := paceOnly_beginExit s c
    exact ⟨_, exec_wakeLine_inService why hlive, hwakes, hpace.heats, hpace.ports, hcom, hpace.others, by rw [hpace.cl]⟩

end Sys2Proof.Machine
end

section
/-! Requests and replies (R378, R386, R387, R389, R391): how a request is gated, whatever its row, and how its reply leaves. -/
namespace Sys2Proof.Machine

/-! Gating. -/

/-- Every request is taken in one way, with its own meaning behind the gate. -/
theorem request_takeReq {m : Msg} {ok : Bool} {i : Instr} (hi : i ∈ requestRows m ok) (s : State) : ∃ go, exec i s = s.takeReq m i go := by
  simp only [requestRows, List.mem_cons, List.not_mem_nil, or_false] at hi
  rcases hi with rfl | rfl | rfl | rfl | rfl | rfl | rfl | rfl | rfl | rfl | rfl | rfl | rfl | rfl | rfl | rfl | rfl
  all_goals exact ⟨_, rfl⟩

section
variable {s : State} {m : Msg} {i : Instr} {k : Session} {go : State → State} (hsize : m.hdr.length = 32) (hsession : s.session m.conn = some k)
include hsize hsession

/-- A message that cannot be framed closes its session (R386). -/
theorem takeReq_unframed (hunframed : msgUnframed m = true) : s.takeReq m i go = .next (s.closeSession m.conn) := by
  rw [State.takeReq, if_pos hsize, hsession]
  exact if_pos hunframed
/-- So does one before ATTACHED, one whose tag does not verify and one out of order (R386, R389). -/
theorem takeReq_closes (hframed : msgUnframed m = false) (hbody : m.body.length = msgLen m) (hrow : msgRow m i = true)
    (hbad : k.phase ≠ .attached ∨ m.tag ≠ hmac k.keys.1 (m.hdr ++ m.body) ∨ msgSeq m ≠ k.rxSeq) :
    s.takeReq m i go = .next (s.closeSession m.conn) := by
  rw [State.takeReq, if_pos hsize, hsession]
  dsimp only
  rw [if_neg (by simp [hframed]), if_neg (by simp [hbody, hrow]), if_pos (by simpa [tagHolds] using hbad)]

end

/-- The status a request is refused with: 0 for one that is served (R378, R386, R387). -/
def State.gate (s : State) (m : Msg) (k : Session) : Nat :=
  if msgRsvOk m = false ∨ clientType (msgType m) = false then eConfig
  else if ∃ r, typeRight (msgType m) = some r ∧ bitAt k.rights r = false then eAuth
  else if 16 ≤ k.replies.length then eLimit
  else if stateServes s.com.boot.state m = false then eConfig else 0

/-- A request that the gate refuses is answered with its status (R378, R386, R387). -/
theorem serve_refused {s : State} {m : Msg} {k : Session} {go : State → State} (hsession : s.session m.conn = some k)
    (hrefused : s.gate m k ≠ 0) : s.serve m go = s.answer m (s.gate m k) [] := by
  have hright : (typeRight (msgType m)).any (fun r => !bitAt k.rights r) = true ↔ ∃ r, typeRight (msgType m) = some r ∧ bitAt k.rights r = false := by
    simp [Option.any_eq_true]
  unfold State.gate at hrefused ⊢
  simp only [State.serve, hsession, Bool.or_eq_true, Bool.not_eq_true', hright]
  split_ifs at hrefused ⊢
  · rfl
  · rfl
  · rfl
  · rfl
  · exact absurd rfl hrefused

/-- Settles O20: a request passes `State.takeReq` on every row, and then `State.serve`, whose refusals are `State.gate`. -/
theorem requestsAreGated : Obligations.RequestsAreGated := by
  intro s m ok i k hi hsize hsession
  obtain ⟨go, hrow⟩ := request_takeReq hi s
  rw [hrow]
  refine ⟨takeReq_unframed hsize hsession, takeReq_closes hsize hsession, fun harrived => ?_⟩
  rw [arrived_take harrived]
  refine ⟨fun hdown hroom => ?_, fun hserving hrefused => ?_⟩
  · rw [if_neg (by simp [hdown]), if_pos (by simpa using hroom)]
  · rw [if_pos hserving]
    exact congrArg Host.Outcome.next (serve_refused (k := { k with rxSeq := k.rxSeq + 1, lease := s.now }) (took_session hsession) hrefused)

/-! Replies. -/

/-- Only a connection's session and what has left differ. -/
structure SessionOnly (conn : Nat) (s t : State) : Prop where
  /-- other sessions -/
  others : ∀ c, c ≠ conn → t.session c = s.session c
  /-- everything else -/
  rest : t = { s with out := t.out, com := { s.com with mgmt := { s.com.mgmt with sessions := t.com.mgmt.sessions } } }

theorem SessionOnly.trans {conn : Nat} {s t u : State} (h : SessionOnly conn s t) (k : SessionOnly conn t u) : SessionOnly conn s u :=
  ⟨fun c hc => (k.others c hc).trans (h.others c hc), by rw [k.rest, h.rest]⟩
theorem sessionOnly_modSession (s : State) (conn : Nat) {f : Session → Session} (hf : ∀ k, k.conn = conn → (f k).conn = conn) :
    SessionOnly conn s (s.modSession conn f) :=
  ⟨fun c hc => (session_modSession s conn f hf c).trans (if_neg hc), rfl⟩
theorem sessionOnly_emit (conn : Nat) (s : State) (o : OutItem) : SessionOnly conn s (s.emit o) := ⟨fun _ _ => rfl, rfl⟩

section
variable {s : State} {conn : Nat} {k : Session} (hsession : s.session conn = some k)
include hsession

theorem session_modSession_same {f : Session → Session} (hf : ∀ k, k.conn = conn → (f k).conn = conn) :
    (s.modSession conn f).session conn = some (f k) := by
  rw [session_modSession s conn f hf, if_pos rfl, hsession]
  rfl
/-- A message on a session takes its next sequence number and its tag (R386, R389). -/
theorem sendMsg_session (type status heat reqSeq : Nat) (body : Bytes) :
    let hdr := msgHdr type status heat k.txSeq body.length reqSeq
    let t := s.sendMsg conn type status heat reqSeq body
    SessionOnly conn s t ∧ t.session conn = some { k with txSeq := k.txSeq + 1 } ∧
      t.out = s.out ++ [.mgmt conn hdr body (hmac k.keys.2 (hdr ++ body))] := by
  intro hdr t
  have hconn := session_conn hsession
  have hsend : t = (s.modSession conn (fun _ => { k with txSeq := k.txSeq + 1 })).emit (.mgmt conn hdr body (hmac k.keys.2 (hdr ++ body))) := by
    simp only [t, State.sendMsg, hsession, Session.send, hconn]
    rfl
  rw [hsend]
  exact ⟨(sessionOnly_modSession s conn (f := fun _ => { k with txSeq := k.txSeq + 1 }) (fun _ _ => hconn)).trans (sessionOnly_emit _ _ _),
    session_modSession_same hsession (fun _ _ => hconn), rfl⟩
/-- The oldest reply is ready: it leaves, and with none behind it an open session is done. -/
theorem flushReplies_one {n seq heat status : Nat} {body : Bytes} (hready : k.replies = [(seq, heat, some (status, body))]) (hopen : k.closing = false) :
    let hdr := msgHdr 0x40 status heat k.txSeq body.length seq
    let t := State.flushReplies conn (n + 2) s
    SessionOnly conn s t ∧ t.session conn = some { k with replies := [], txSeq := k.txSeq + 1 } ∧
      t.out = s.out ++ [.mgmt conn hdr body (hmac k.keys.2 (hdr ++ body))] := by
  intro hdr t
  have hpop := session_modSession_same hsession (f := fun k => { k with replies := [] }) (fun _ h => h)
  obtain ⟨honly, hsent, hout⟩ := sendMsg_session hpop 0x40 status heat seq body
  have ht : t = (s.modSession conn (fun k => { k with replies := [] })).sendMsg conn 0x40 status heat seq body := by
    simp only [t, State.flushReplies, hsession, hready, hsent, hopen, Bool.false_eq_true, if_false]
  rw [ht]
  exact ⟨(sessionOnly_modSession s conn (f := fun k => { k with replies := [] }) (fun _ h => h)).trans honly, hsent, hout⟩
/-- The oldest reply is not: nothing leaves (R387). -/
theorem flushReplies_waits {n q h : Nat} {rest : List (Nat × Nat × Option (Nat × Bytes))} (hwait : k.replies = (q, h, none) :: rest) :
    State.flushReplies conn n s = s := by
  cases n with
  | zero => rfl
  | succ n => simp only [State.flushReplies, hsession, hwait]

end

/-- The session with a reply at the end of those that wait. -/
def Session.withReply (k : Session) (m : Msg) (status : Nat) (body : Bytes) : Session :=
  { k with replies := k.replies ++ [(msgSeq m, msgHeat m, some (status, body))] }

section
variable {s : State} {m : Msg} {k : Session} (status : Nat) (body : Bytes) (hsession : s.session m.conn = some k)
include hsession

theorem answer_flushes : s.answer m status body =
    State.flushReplies m.conn (k.replies.length + 2) (s.modSession m.conn (fun k => k.withReply m status body)) := by
  have hnow := session_modSession_same hsession (f := fun k => k.withReply m status body) (fun _ h => h)
  unfold State.answer State.reply
  change (match (s.modSession m.conn (fun k => k.withReply m status body)).session m.conn with
    | some k => State.flushReplies m.conn (k.replies.length + 1) (s.modSession m.conn (fun k => k.withReply m status body))
    | none => s.modSession m.conn (fun k => k.withReply m status body)) = _
  rw [hnow]
  simp [Session.withReply]
/-- With no earlier request unanswered the reply leaves at once (R387). -/
theorem answer_leaves (hnone : k.replies = []) (hopen : k.closing = false) :
    let hdr := msgHdr 0x40 status (msgHeat m) k.txSeq body.length (msgSeq m)
    let t := s.answer m status body
    SessionOnly m.conn s t ∧ t.session m.conn = some { k with txSeq := k.txSeq + 1 } ∧
      t.out = s.out ++ [.mgmt m.conn hdr body (hmac k.keys.2 (hdr ++ body))] := by
  intro hdr t
  have hnow := session_modSession_same hsession (f := fun k => k.withReply m status body) (fun _ h => h)
  have hready : (k.withReply m status body).replies = [(msgSeq m, msgHeat m, some (status, body))] := by simp [Session.withReply, hnone]
  obtain ⟨honly, hsent, hout⟩ := flushReplies_one (n := k.replies.length) hnow hready hopen
  have hkept : ({ k with txSeq := k.txSeq + 1, replies := [] } : Session) = { k with txSeq := k.txSeq + 1 } := by rw [← hnone]
  rw [show t = _ from answer_flushes status body hsession]
  exact ⟨(sessionOnly_modSession s m.conn (f := fun k => k.withReply m status body) (fun _ h => h)).trans honly, hsent.trans (congrArg some hkept), hout⟩
/-- Behind an unanswered one it waits (R387). -/
theorem answer_waits {q h : Nat} {rest : List (Nat × Nat × Option (Nat × Bytes))} (hwait : k.replies = (q, h, none) :: rest) :
    let t := s.answer m status body
    SessionOnly m.conn s t ∧ t.session m.conn = some (k.withReply m status body) ∧ t.out = s.out := by
  intro t
  have hnow := session_modSession_same hsession (f := fun k => k.withReply m status body) (fun _ h => h)
  have hstill : (k.withReply m status body).replies = (q, h, none) :: (rest ++ [(msgSeq m, msgHeat m, some (status, body))]) := by
    simp [Session.withReply, hwait]
  rw [show t = _ from answer_flushes status body hsession, flushReplies_waits hnow hstill]
  exact ⟨sessionOnly_modSession s m.conn (fun _ h => h), hnow, rfl⟩

end

/-- Settles O21: a reply leaves (`answer_leaves`) or waits (`answer_waits`), and either way only its session and what has left differ. -/
theorem repliesAreSent : Obligations.RepliesAreSent := by
  intro s m status body k hsession t hdr
  refine ⟨fun hnone hopen => ?_, fun q h rest hwait => ?_, fun hcase => ?_⟩
  · obtain ⟨-, hkept, hout⟩ := answer_leaves status body hsession hnone hopen
    exact ⟨hout, hkept⟩
  · obtain ⟨-, hkept, hout⟩ := answer_waits status body hsession hwait
    exact ⟨hout, hkept⟩
  · have honly : SessionOnly m.conn s t := by
      obtain ⟨hnone, hopen⟩ | ⟨q, h, rest, hwait⟩ := hcase
      · exact (answer_leaves status body hsession hnone hopen).1
      · exact (answer_waits status body hsession hwait).1
    exact ⟨honly.others, honly.rest⟩

end Sys2Proof.Machine
end

section
/-! Queries, firmware, configuration and RESET (R370, R379, R382, R395, R400 to R404, R410 to R413, R417, R421): the operation of each request,
where its fields are in range. -/
namespace Sys2Proof.Machine

/-! Queries (R401 to R404, R410, R421). -/

section
variable {t : State} {m : Msg}

theorem onQuery_ok (hok : t.queryOk m = true) (go : State) : t.onQuery m go = go := if_pos hok
theorem serveStatus_ok (hsize : 4 ≤ m.body.length) (hkind : queryKind m = 0) (hok : t.queryOk m = true) :
    t.serveStatus m = t.answer m 0 t.statusBody := by
  rw [State.serveStatus, if_neg (by omega), onQuery_ok hok]
/-- The copies a QUERY INVENTORY names: of one heat, or of all four in order (R403). -/
def State.inventoryOf (t : State) (m : Msg) : List Bytes :=
  match (List.finRange 4)[msgHeat m]? with
  | some hi => t.inventory hi
  | none => (List.finRange 4).flatMap t.inventory
theorem serveInventory_ok (hok : t.queryOk m = true) :
    t.serveInventory m = t.answer m 0 (natLE 4 (t.inventoryOf m).length ++ List.replicate 12 0 ++ (t.inventoryOf m).flatten) := by
  rw [State.serveInventory, onQuery_ok hok]
  rfl
theorem inventoryOf_heat {hi : Fin 4} (hheat : msgHeat m = hi.val) : t.inventoryOf m = t.inventory hi := by
  simp only [State.inventoryOf, finRange4 hheat]
theorem inventoryOf_all (hheat : msgHeat m = 0xFF) :
    t.inventoryOf m = t.inventory 0 ++ t.inventory 1 ++ t.inventory 2 ++ t.inventory 3 := by
  simp only [State.inventoryOf, hheat]
  simp [List.finRange_succ]
theorem serveAttest_ok (hsize : 48 ≤ m.body.length) (hok : t.queryOk m = true) (hup : t.com.boot.security = .up) :
    let q := t.quote (msgHeat m) (bytesAt m.body 16 32)
    t.serveAttest m = t.useFree.answer m 0 (q ++ bytesAt (Config.deviceSignature t.free q) 0 17088
      ++ bytesAt Config.deviceKey 0 32 ++ bytesAt Config.serial 0 16 ++ bytesAt Config.certificate 0 7856) := by
  intro q
  rw [State.serveAttest, if_neg (by omega), onQuery_ok hok, if_neg (by simp [hup])]
theorem serveSnapshot_ok (hsize : 14 ≤ m.body.length) (hsub : querySub m = 0) (hrsv : leAt m.body 9 1 = 0) (hok : t.queryOk m = true)
    (hfrom : 1 ≤ leAt m.body 8 1) (hto : leAt m.body 8 1 ≤ 9)
    (hinst : leAt m.body 10 2 + leAt m.body 12 2 ≤ ctrInstances t.com.boot.order (leAt m.body 8 1))
    (hlen : leAt m.body 12 2 * instanceSize (leAt m.body 8 1) ≤ mib) :
    t.serveSnapshot m = t.answer m 0 ((List.range (leAt m.body 12 2)).flatMap (fun i => t.instanceBytes (leAt m.body 8 1) (leAt m.body 10 2 + i))) := by
  simp only [State.serveSnapshot]
  rw [if_neg (by omega), onQuery_ok hok, if_neg (by omega)]
theorem serveSplits_ok (hsize : 24 ≤ m.body.length) (hrsv : leAt m.body 9 7 = 0) (hok : t.queryOk m = true) {c : Fin 64}
    (hcl : leAt m.body 8 1 = c.val) :
    t.serveSplits m = t.answer m 0 (natLE 8 (t.cl c).splitDropped ++
      (((t.cl c).splits.filter (fun r => leAt m.body 16 8 ≤ r.seq)).take 1024).flatMap SplitRec.bytes) := by
  rw [State.serveSplits, if_neg (by omega), onQuery_ok hok, finRange64 hcl]
theorem serveDump_ok (hsize : 28 ≤ m.body.length) (hrsv : leAt m.body 9 7 = 0) (hok : t.queryOk m = true) {d : Dump}
    (hdump : t.com.store.dumps.find? (fun d => d.slot == leAt m.body 8 1) = some d) (hmib : leAt m.body 24 4 ≤ mib)
    (hlen : leAt m.body 16 8 + leAt m.body 24 4 ≤ d.len) :
    t.serveDump m = (if d.slot = 0xFF then t else t.countRead (leAt m.body 24 4)).answer m 0
      ((List.range (leAt m.body 24 4)).map (fun i => dumpByteAt d (leAt m.body 16 8 + i))) := by
  simp only [State.serveDump]
  rw [if_neg (by omega), onQuery_ok hok, hdump]
  exact if_neg (by omega)
theorem serveLifelog_ok (hsize : 12 ≤ m.body.length) (hup : t.com.boot.security = .up) (hmib : leAt m.body 8 4 ≤ mib)
    (hlen : leAt m.body 0 8 + leAt m.body 8 4 ≤ 992 * 4096) :
    t.serveLifelog m = t.answer m 0 (t.flashGet (0x20000 + leAt m.body 0 8) (leAt m.body 8 4)) := by
  simp only [State.serveLifelog]
  rw [if_neg (by omega), if_neg (by simp [hup]), if_neg (by omega)]

end

/-- Settles O22: a request that is accepted is served (`accepted_next`), each by its own lemma. -/
theorem queriesAnswer : Obligations.QueriesAnswer := by
  intro s m k t
  refine ⟨fun ha => ?_, fun ha hsize hkind hok => ?_, fun ha hok => ?_, fun ha hsize hok hup => ?_,
    fun ha hsize hsub hrsv hok => ?_, fun ha hsize hrsv hok c hcl => ?_,
    fun ha hsize hrsv hok d hdump hmib hlen => ?_, fun ha hsize hup hmib hlen => ?_⟩
  · exact accepted_next (go := State.serveDetach m) ha rfl rfl
  · exact accepted_next (go := State.serveStatus m) ha rfl (serveStatus_ok (t := t) hsize hkind hok)
  · exact ⟨t.inventoryOf m, accepted_next (go := State.serveInventory m) ha rfl (serveInventory_ok (t := t) hok),
      fun hi hheat => inventoryOf_heat hheat, inventoryOf_all⟩
  · exact accepted_next (go := State.serveAttest m) ha rfl (serveAttest_ok (t := t) hsize hok hup)
  · intro g first n hfrom hto hinst hlen
    exact accepted_next (go := State.serveSnapshot m) ha rfl (serveSnapshot_ok (t := t) hsize hsub hrsv hok hfrom hto hinst hlen)
  · exact accepted_next (go := State.serveSplits m) ha rfl (serveSplits_ok (t := t) hsize hrsv hok hcl)
  · exact accepted_next (go := State.serveDump m) ha rfl (serveDump_ok (t := t) hsize hrsv hok hdump hmib hlen)
  · exact accepted_next (go := State.serveLifelog m) ha rfl (serveLifelog_ok (t := t) hsize hup hmib hlen)

/-! LOAD_FW (R370, R382, R396). -/

section
variable {t : State} {m : Msg} {ok : Bool} (hfree : ∀ h, (t.heat h).phase = .free) (hup : t.com.boot.security = .up)
  (hsize : 16 ≤ m.body.length) (hmib : m.body.length ≤ mib + 16) (hrsv : leAt m.body 8 8 = 0)
  (hnext : leAt m.body 0 8 = t.com.boot.fwChunks.length) (hfit : t.com.boot.fwChunks.length + m.body.length - 16 ≤ 16777216)
include hfree hup hsize hmib hrsv hnext hfit

/-- A chunk that follows the ones before is kept, and the last one ends the bundle (R382, R396). -/
theorem serveLoadFw_next : t.serveLoadFw m ok =
    let b := t.com.boot.fwChunks ++ m.body.drop 16
    if !msgLast m then (t.modBoot (fun k => { k with fwChunks := b })).answer m 0 []
    else if t.bundleStatus b ok ≠ 0 then (t.modBoot (fun k => { k with fwChunks := [] })).answer m (t.bundleStatus b ok) []
    else (((t.startFirmware b).journal 7 0 0 0 (bundleVersion b)).answer m 0 []).closeAll := by
  have hidle : t.heats.toList.any (fun h => h.phase != .free) = false := by
    refine List.any_eq_false.mpr fun h hmem => ?_
    obtain ⟨i, hi, rfl⟩ := List.mem_iff_getElem.mp hmem
    simpa [State.heat] using hfree ⟨i, by simpa using hi⟩
  unfold State.serveLoadFw
  dsimp only
  rw [if_neg (by simp [hidle]), if_neg (by simp [hup]), if_neg (by omega)]

end

section
variable {t : State} {b : Bytes} {ok : Bool}

/-- The status of a bundle (R382). -/
theorem bundleStatus_malformed (hbad : bundleOk b = false) : t.bundleStatus b ok = eConfig := if_pos (by simp [hbad])
theorem bundleStatus_untrusted (hformed : bundleOk b = true) (hbad : bundleTrusted b = false ∨ ok = false) : t.bundleStatus b ok = eAuth := by
  rw [State.bundleStatus, if_neg (by simp [hformed]), if_pos (by simpa using hbad)]
theorem bundleStatus_ok (hformed : bundleOk b = true) (htrusted : bundleTrusted b = true) (hok : ok = true)
    (hversion : configMinFw (t.com.boot.config.getD []) ≤ bundleVersion b) : t.bundleStatus b ok = 0 := by
  rw [State.bundleStatus, if_neg (by simp [hformed]), if_neg (by simp [htrusted, hok]), if_neg (by omega)]

end

/-! WRITE_CONFIG (R372, R379). -/

/-- A valid image of a higher generation goes into the slot that is not in use. -/
theorem serveWriteConfig_ok {t : State} {m : Msg} {ok : Bool} (hup : t.com.boot.security = .up) (hformed : configOk m.body = true)
    (howner : ownerKeyOk m.body = true) (hok : ok = true) (hgen : ∀ c, t.com.boot.config = some c → configGen c < configGen m.body) :
    let base := slotBase t.otherSlot
    t.serveWriteConfig m ok = (((t.flashErase base 65536).flashPut base m.body).journal 8 0 0 0 (configGen m.body)).answer m 0 [] := by
  intro base
  have hnewer : ((t.com.boot.config.map (fun c => decide (configGen m.body ≤ configGen c))).getD false) = false := by
    cases hc : t.com.boot.config with
    | none => rfl
    | some c => simpa using hgen c hc
  rw [State.serveWriteConfig, if_neg (by simp [hup]), if_neg (by simp [hformed]), if_neg (by simp [howner, hok]), if_neg (by simp [hnewer])]

/-- Settles O23: `serveLoadFw_next` with the status of the bundle, and `serveWriteConfig_ok`. -/
theorem firmwareAndConfigurationLoad : Obligations.FirmwareAndConfigurationLoad := by
  intro s m k ok t have_ b
  refine ⟨fun ha hfree hup hsize hmib hrsv hnext hfit => ?_, fun ha hup hformed howner hok hgen => ?_⟩
  · have hserved {v : State} (hv : t.serveLoadFw m ok = v) : exec (.loadFw m ok) s = .next v :=
      accepted_next (go := State.serveLoadFw m ok) ha rfl hv
    have hserve := serveLoadFw_next (t := t) (ok := ok) hfree hup hsize hmib hrsv hnext hfit
    refine ⟨fun hlast => hserved ?_, fun hlast hformed htrusted hok hversion => hserved ?_, fun hlast hbad => hserved ?_,
      fun hlast hformed hbad => hserved ?_⟩
    · exact hserve.trans (if_pos (by simp [hlast]))
    · have hstatus : t.bundleStatus (t.com.boot.fwChunks ++ m.body.drop 16) ok = 0 := bundleStatus_ok hformed htrusted hok hversion
      exact (hserve.trans (if_neg (by simp [hlast]))).trans (if_neg (not_not.mpr hstatus))
    · have hstatus : t.bundleStatus (t.com.boot.fwChunks ++ m.body.drop 16) ok = eConfig := bundleStatus_malformed hbad
      exact ((hserve.trans (if_neg (by simp [hlast]))).trans (if_pos (by rw [hstatus]; decide))).trans (by rw [hstatus])
    · have hstatus : t.bundleStatus (t.com.boot.fwChunks ++ m.body.drop 16) ok = eAuth := bundleStatus_untrusted hformed hbad
      exact ((hserve.trans (if_neg (by simp [hlast]))).trans (if_pos (by rw [hstatus]; decide))).trans (by rw [hstatus])
  · exact accepted_next (go := State.serveWriteConfig m ok) ha rfl (serveWriteConfig_ok (t := t) hup hformed howner hok hgen)

/-! RESET (R395, R399, R400). -/

theorem serveResetHeat_ok {t : State} {m : Msg} {hi : Fin 4} (hsize : m.body.length ≠ 0) (hscope : leAt m.body 0 1 = 0)
    (hheat : msgHeat m = hi.val) : t.serveResetHeat m = (t.freeHeat hi).answer m 0 [] := by
  rw [State.serveResetHeat, if_neg (by omega), onHeat_of hheat]
theorem storeKept_closeAll (s : State) : StoreKept s s.closeAll :=
  StoreKept.foldl (fun s (k : Session) => s.closeSession k.conn) (fun s k => storeKept_closeSession s k.conn) _ _
theorem storeKept_freeAll (s : State) : StoreKept s ((List.finRange 4).foldl (fun s hi => s.freeHeat hi) s) :=
  StoreKept.foldl (fun s hi => s.freeHeat hi) storeKept_freeHeat _ _
/-- A reboot counts itself and keeps the local flash slots and the commands that wait (R400, R414). -/
theorem reboot_store (s : State) : s.reboot.com.store.boots = s.com.store.boots + 1 ∧ s.reboot.com.store.slots = s.com.store.slots ∧
    s.reboot.pending = s.pending :=
  storeKept_bootLog _

/-- Settles O24: RESET of a heat is `State.freeHeat`, RESET of the module a reboot after the reply. -/
theorem resetsTakeEffect : Obligations.ResetsTakeEffect := by
  intro s m k
  refine ⟨fun ha hsize hscope hi hheat => ⟨?_, ?_⟩, fun ha => ?_⟩
  · exact accepted_next (go := State.serveResetHeat m) ha rfl (serveResetHeat_ok hsize hscope hheat)
  · rw [(sameCore_answer _ m 0 []).heat, freeHeat_heat]
  · let u := (((List.finRange 4).foldl (fun s hi => s.freeHeat hi) (s.took m)).answer m 0 []).closeAll
    have hkept : StoreKept (s.took m) u := ((storeKept_freeAll _).trans (storeKept_reply _ _ _ _ _ _)).trans (storeKept_closeAll _)
    obtain ⟨hboots, hslots, hpending⟩ := hkept
    obtain ⟨hcl, hheat, hport⟩ := u.reboot_units
    obtain ⟨hnow, hpend⟩ := u.reboot_now_pending
    obtain ⟨hmgmt, -⟩ := u.reboot_mgmt_ctrs
    obtain ⟨hrboots, hrslots, -⟩ := reboot_store u
    have hboot := u.reboot_boot
    exact ⟨u.reboot, accepted_next (go := State.serveResetModule m) ha rfl rfl, hnow, congrArg Boot.state hboot, congrArg Boot.config hboot,
      congrArg Mgmt.sessions hmgmt, congrArg Mgmt.link hmgmt, hheat, hcl, hport, hpend.trans hpending, hrboots.trans (congrArg (· + 1) hboots),
      hrslots.trans hslots⟩

end Sys2Proof.Machine
end

section
/-! Sessions (R372, R385, R386, R388 to R391, R394): connections, the attach exchange, and the timers. -/
namespace Sys2Proof.Machine

/-! Connections and timers. -/

section
variable {s : State} {conn : Nat} {k : Session}

theorem execTcpConnect_open {addr port : Nat} (hlink : s.com.mgmt.link = true) (hnew : s.session conn = none)
    (hhere : s.com.boot.endpoint.2 = (addr, port)) :
    execTcpConnect conn addr port s = .next (if 4 ≤ s.com.mgmt.sessions.length then s.emit (.tcpReset conn)
      else s.modMgmt (fun m => { m with sessions := m.sessions ++ [Session.fresh conn s.now] })) := by
  rw [execTcpConnect, if_neg (by simp [hlink, hnew, hhere]), apply_ite Host.Outcome.next]
theorem execTcpConnect_elsewhere {addr port : Nat} (helse : s.com.boot.endpoint.2 ≠ (addr, port)) : execTcpConnect conn addr port s = .next s :=
  if_pos (by simp [helse])
theorem execTcpLoss_session (hsession : s.session conn = some k) : execTcpLoss conn s = .next (s.dropSession conn) :=
  if_pos (by simp [hsession])
theorem sessionTimeout_phase {phase : SessionPhase} (hsession : s.session conn = some k) (hphase : k.phase = phase) :
    s.sessionTimeout conn phase = .next ((s.reach (k.since + 10 * second)).closeSession conn) := by
  rw [State.sessionTimeout, hsession]
  exact if_pos hphase
theorem execLeaseExpiry_attached (hsession : s.session conn = some k) (hphase : k.phase = .attached) (hserving : s.serving = true) :
    execLeaseExpiry conn s = .next ((s.reach (k.lease + s.leaseS * second)).closeSession conn) := by
  rw [execLeaseExpiry, hsession]
  exact if_pos ⟨hphase, hserving⟩
theorem execOrphanGraceExpiry_due {t : Nat} (hsince : s.com.mgmt.orphanSince = some t) (horphaned : s.orphaned = true)
    (hgrace : s.com.boot.setting 159 128 ≠ 0) (hup : s.com.boot.scheduler = .up) :
    execOrphanGraceExpiry s = .next (s.reach (t + s.com.boot.setting 159 128 * second)).orphanStops := by
  simp only [execOrphanGraceExpiry, hsince]
  exact if_pos ⟨horphaned, hgrace, hup⟩

end

/-! The attach exchange. -/

section
variable {s : State} {m : Msg} {k : Session} {phaseOk : Nat → Bool} {go : Session → State} (hsession : s.session m.conn = some k)
  (hhdr : m.hdr.length = 32) (hframed : msgUnframed m = false) (hbody : m.body.length = msgLen m) (htype : msgType m = 1)
  (hphase : phaseOk (leAt m.body 0 4) = true)
include hsession hhdr hframed hbody htype hphase

/-- An ATTACH with a tag closes its session (R386; log 157). -/
theorem onAttach_tagged (htag : m.tag ≠ zeroTag) : s.onAttach m phaseOk go = .next (s.closeSession m.conn) := by
  rw [State.onAttach, if_pos hhdr, hsession]
  dsimp only
  rw [if_neg (by simp [hframed]), if_neg (by simp [hbody, htype, hphase]), if_pos htag]
theorem onAttach_taken (htag : m.tag = zeroTag) : s.onAttach m phaseOk go = .next (go k) := by
  rw [State.onAttach, if_pos hhdr, hsession]
  dsimp only
  rw [if_neg (by simp [hframed]), if_neg (by simp [hbody, htype, hphase]), if_neg (by simp [htag])]

end

section
variable {s : State} {m : Msg} {k : Session} (hsession : s.session m.conn = some k)
  (hhdr : m.hdr.length = 32) (hframed : msgUnframed m = false) (hbody : m.body.length = msgLen m) (htype : msgType m = 1)
  (hrsv : msgRsvOk m = true) (hup : s.com.boot.security = .up) (htag : m.tag = zeroTag)
include hsession hhdr hframed hbody htype hrsv hup htag

/-- Phase 0 is answered with a CHALLENGE (R388). -/
theorem execAttachPhase0_challenges {rights : Nat} (hphase : k.phase = .listen) (hsize : m.body.length = 80) (hzero : leAt m.body 0 4 = 0)
    (hrights : s.attachRights (leAt m.body 4 4) (bytesAt m.body 48 32) = some rights) :
    execAttachPhase0 m s = .next ((s.useFree.modSession m.conn (fun k => { k with
      phase := .challenged, since := s.now, key := leAt m.body 4 4, rights := rights, firstReport := leAt m.body 8 8
      t1 := attachT1 m.body s.free, stamp := s.free })).sendPlain m.conn 0x02 0 0 (challengeBody (attachT1 m.body s.free) s.free)) := by
  rw [execAttachPhase0, onAttach_taken hsession hhdr hframed hbody htype (by simp [hzero]) htag, if_neg (by simp [hphase]),
    if_neg (by simp [hrsv, hsize, hzero]), if_neg (by simp [hup]), hrights]
/-- Phase 1 attaches the session under its keys (R388, R389, R393). -/
theorem execAttachPhase1_attaches (hphase : k.phase = .challenged) (hsize : m.body.length = 8960) (hone : leAt m.body 0 4 = 1)
    (hbodyRsv : leAt m.body 4 12 = 0) :
    let ct := bytesAt m.body 16 1088
    let keys := sessionKeys (Config.kemSecret k.stamp ct) (sha256 (k.t1 ++ ct))
    let u := ((s.modSession m.conn (fun k => { k with
      phase := .attached, since := s.now, keys := keys, rxSeq := 1, txSeq := 1, lease := s.now })).noteOrphan).reply m.conn (msgSeq m) 0xFF 0 []
    execAttachPhase1 m true true s = .next (if bitAt k.rights 0 then u.replayReports m.conn k.firstReport else u) := by
  rw [execAttachPhase1, onAttach_taken hsession hhdr hframed hbody htype (by simp [hone]) htag]
  simp only [hphase]
  rw [if_neg (by simp [hrsv, hsize, hbodyRsv]), if_neg (by simp [hup])]

end

/-- Settles O26: each row by its own lemma; an ATTACH with a tag never reaches its phase (`onAttach_tagged`). -/
theorem sessionsAreKept : Obligations.SessionsAreKept := by
  intro s conn addr port
  refine ⟨execTcpConnect_open, execTcpConnect_elsewhere, fun k hsession => ⟨execTcpLoss_session hsession,
    sessionTimeout_phase hsession, sessionTimeout_phase hsession, execLeaseExpiry_attached hsession, ?_⟩, fun t => execOrphanGraceExpiry_due⟩
  · rintro m rfl hhdr hframed hbody htype hrsv hup
    refine ⟨fun htag => ⟨fun hzero => ?_, fun sigOk decapOk hone => ?_⟩, fun htag hphase hsize hzero rights hrights => ?_,
      fun htag hphase hsize hone hbodyRsv => ?_⟩
    · exact onAttach_tagged (phaseOk := (· != 1)) hsession hhdr hframed hbody htype (by simp [hzero]) htag
    · exact onAttach_tagged (phaseOk := (· == 1)) hsession hhdr hframed hbody htype (by simp [hone]) htag
    · exact execAttachPhase0_challenges hsession hhdr hframed hbody htype hrsv hup htag hphase hsize hzero hrights
    · exact execAttachPhase1_attaches hsession hhdr hframed hbody htype hrsv hup htag hphase hsize hone hbodyRsv

end Sys2Proof.Machine
end

section
/-! Faults of clusters and cores (R333, R337, R338, R418): restarts, and the hangs that a watchdog sees. -/
namespace Sys2Proof.Machine

/-! Clusters (R333, R337). -/

section
variable {s : State} {c : Fin 64} (hlive : (s.cl c).retired = false) (hruns : (s.cl c).core.restarting = false)
include hlive hruns

theorem execParityError_restarts : execParityError c s = .next (((s.bump 1 c.val 24).restartCluster c).refreshCl c) :=
  if_neg (by simp [hlive, hruns])
theorem crashControl_restarts :
    s.crashControl c = (s.noteCore 0 c.val (((s.heatOfCl c).map (fun h => h.1.val)).getD 0xFF)).restartCluster c :=
  if_neg (by simp [hlive, hruns])

end

/-- A restart that is done gives the cluster its tables from the image and asks for a false start (R333). -/
theorem restartDone_of {s : State} {c : Fin 64} {hi : Fin 4} {own : Nat} {p : Program} (hrestarting : (s.cl c).core.restarting = true)
    (hup : s.com.boot.scheduler = .up) (howner : s.heatOfCl c = some (hi, own)) (himage : (s.heat hi).image = some p) :
    s.restartDone c = (s.useFree.modCl c (fun k => { k with
      rt := { k.rt with stamp := s.free }, core := { k.core with restarting := false }, fnTab := Mem.put [] 0 (p.sec 0x0A own) })).request hi 2 0 := by
  let t := s.useFree.modCl c (fun k => { k with rt := { k.rt with stamp := s.free }, core := { k.core with restarting := false } })
  have howner' : t.heatOfCl c = some (hi, own) := howner
  have himage' : (t.heat hi).image = some p := himage
  have hdone : s.restartDone c = (t.modCl c (fun k => { k with fnTab := Mem.put [] 0 (p.sec 0x0A own) })).request hi 2 0 := by
    rw [State.restartDone, if_pos (by simp [hrestarting, hup])]
    change (match t.heatOfCl c with
      | none => t
      | some (hi, own) => match (t.heat hi).image with
        | some p => (t.modCl c (fun k => { k with fnTab := Mem.put [] 0 (p.sec 0x0A own) })).request hi 2 0
        | none => t) = _
    rw [howner']
    simp only [himage']
  rw [hdone]
  congr 1
  exact modCl_modCl ..

/-! Central cores (R337, R338). -/

/-- A restart of the security core that fails leaves it down at the third failure in succession. -/
theorem securityBack_fails (s : State) : s.securityBack false = s.modBoot (fun b => { b with
    secFails := b.secFails + 1, security := if s.com.boot.secFails < 2 then .restarting else .dead }) := by
  have hdead : (if 3 ≤ s.com.boot.secFails + 1 then CoreState.dead else .restarting) =
      if s.com.boot.secFails < 2 then .restarting else .dead := by
    by_cases hfew : s.com.boot.secFails < 2
    · rw [if_neg (by omega), if_pos hfew]
    · rw [if_pos (by omega), if_neg hfew]
  exact congrArg (fun v => s.modBoot (fun b => { b with secFails := b.secFails + 1, security := v })) hdead

section
variable {s : State}

theorem execCoreRestartDone_scheduler (hdown : s.com.boot.scheduler = .restarting) (hup : s.com.boot.security = .up) :
    execCoreRestartDone .scheduler true s = .next s.schedulerBack := if_pos (by simp [hdown, hup])
theorem execCoreRestartDone_power (hdown : s.com.boot.power = .restarting) (hup : s.com.boot.security = .up) :
    execCoreRestartDone .power true s = .next s.powerBack := if_pos (by simp [hdown, hup])
theorem execCoreRestartDone_security (hdown : s.com.boot.security = .restarting) (ok : Bool) :
    execCoreRestartDone .security ok s = .next (s.securityBack ok) := if_pos hdown

end

/-! Hangs (R418). -/

theorem State.reach_heatOfCl (s : State) (t : Nat) (c : Fin 64) : (s.reach t).heatOfCl c = s.heatOfCl c := by
  simp only [State.heatOfCl, State.reach_heat]
theorem State.reach_heatOfPort (s : State) (t : Nat) (p : Fin 32) : (s.reach t).heatOfPort p = s.heatOfPort p := by
  simp only [State.heatOfPort, State.reach_heat]

section
variable {s : State} {hi : Fin 4}

theorem execProgressHang_cluster {c : Fin 64} {own : Nat} (howner : s.heatOfCl c = some (hi, own)) (hheat : (s.heat hi).live = true)
    (hlive : (s.cl c).retired = false) (hruns : (s.cl c).core.restarting = false) :
    execProgressHang (.cluster c) s =
      .next ((((s.reach (s.now + second)).declareHang hi (.progress (.cluster c))).restartCluster c).refreshCl c) := by
  simp only [execProgressHang, State.reach_heatOfCl, howner, State.reach_heat, State.reach_cl]
  exact if_pos (by simp [hheat, hlive, hruns])
theorem execProgressHang_other (hruns : (s.heat hi).phase = .running) :
    execProgressHang (.other hi) s = .next (((s.reach (s.now + second)).declareHang hi (.progress (.other hi))).request hi 6 eHang) := by
  simp only [execProgressHang, State.reach_heat]
  exact if_pos hruns
/-- A link that hangs is charged for what it has not had acknowledged, and trains again. -/
theorem execProgressHang_link {p : Fin 32} {k : Nat} (howner : s.heatOfPort p = some (hi, k)) (hlive : (s.port p).retired = false) :
    let w := (s.reach (s.now + second)).declareHang hi (.progress (.link p))
    let v := if (w.port p).tx.replay = [] then w else w.chargeLane p 0
    execProgressHang (.link p) s = .next (if (v.port p).retired then v else v.retrainPort p) := by
  intro w v
  simp only [execProgressHang, State.reach_heatOfPort, howner, State.reach_port, hlive, Bool.false_eq_true, if_false, List.isEmpty_iff]
  rfl
/-- A completion that nothing can take while its core is stalled in blk_issue is a deadlock. -/
theorem execIntraClusterDeadlock_stuck {c : Fin 64} {own : Nat} (howner : s.heatOfCl c = some (hi, own)) (hruns : (s.cl c).core.running = true)
    (hhalted : (s.cl c).halted = none) (hstalls : (s.cl c).issueStalls = true)
    (hfetch : ∃ a b k n, (s.cl c).fetch = some (.blkIssue a b k, n)) (hstuck : (s.cl c).completionStuck = true) :
    execIntraClusterDeadlock c s = .next ((s.declareHang hi (.deadlock c)).request hi 6 eHang) := by
  obtain ⟨a, b, k, n, hfetch⟩ := hfetch
  simp only [execIntraClusterDeadlock, howner, hfetch]
  exact if_pos (by simp [hruns, hhalted, hstalls, hstuck])

end

/-- Settles O56: each row by its own lemma. -/
theorem coresRestart : Obligations.CoresRestart := by
  intro s
  refine ⟨fun c hlive hruns => ⟨execParityError_restarts hlive hruns, ?_⟩, fun c hi own p hrestarting hup howner himage => ?_,
    fun hup => if_pos hup, fun hup => if_pos hup, fun hup => if_pos hup, execCoreRestartDone_scheduler, execCoreRestartDone_power,
    fun hdown => ⟨execCoreRestartDone_security hdown true, ?_⟩, fun hi => ?_⟩
  · exact congrArg (fun t => Host.Outcome.next (State.refreshCl t c)) (crashControl_restarts hlive hruns)
  · exact congrArg (fun t => Host.Outcome.next (State.refreshCl t c)) (restartDone_of hrestarting hup howner himage)
  · exact (execCoreRestartDone_security hdown false).trans (congrArg Host.Outcome.next (securityBack_fails s))
  · exact ⟨fun c own => execProgressHang_cluster, execProgressHang_other, fun p k => execProgressHang_link,
      fun c own => execIntraClusterDeadlock_stuck⟩

end Sys2Proof.Machine
end

section
/-! Checkpoints, drives and records (R330 to R332, R340 to R347, R417, R419, R421): each write that ends, the drive that is late, and the dump. -/
namespace Sys2Proof.Machine

/-! What the writes and the dump leave unchanged. -/

theorem sameCore_countDrives (s : State) (idx n : Nat) : SameCore s (s.countDrives idx n) := by
  unfold State.countDrives
  split
  · exact (sameCore_bump s _ _ _ _).trans (sameCore_bump _ _ _ _ _)
  · split
    · exact sameCore_bump s _ _ _ _
    · split
      · exact sameCore_bump s _ _ _ _
      · exact SameCore.refl s
theorem sameCore_countWrite (s : State) (n : Nat) : SameCore s (s.countWrite n) := sameCore_countDrives s 0 n
/-- A cluster that a dump froze resumes (R419). -/
def State.thaw (s : State) (c : Nat) : State :=
  match (List.finRange 64)[c]? with
  | some f => s.modCl f (fun k => { k with frozen := false })
  | none => s
theorem thaw_heat (s : State) (c : Nat) (hi : Fin 4) : (s.thaw c).heat hi = s.heat hi := by
  unfold State.thaw
  split <;> rfl
theorem foldl_thaw_heat (cs : List Nat) (s : State) (hi : Fin 4) : (cs.foldl State.thaw s).heat hi = s.heat hi := by
  induction cs generalizing s with
  | nil => rfl
  | cons c cs ih => exact (ih _).trans (thaw_heat s c hi)

section
variable {s : State} {hi : Fin 4} {p : Program} (himage : (s.heat hi).image = some p)
include himage

/-! The baton copy (R342). -/

theorem execBatonHashDone_hashes {n : Nat} {l : List Nat} (hhashing : (s.heat hi).ck.hashing = n :: l) (hadmitted : (s.heat hi).phase ≠ .free) :
    execBatonHashDone hi s = .next ((s.keepDigest hi p n).writeHalf hi p n) := by
  simp only [execBatonHashDone, himage, hhashing]
  exact if_neg hadmitted

/-! Local flash (R330, R331, R344, R345). -/

section
variable {j : Job} {w : Writing} {d : Fin 2} (hjob : (s.heat hi).job = some j) (hflash : (s.heat hi).ck.flash = some w)
  (hdrive : s.headDrive = some d) (hruns : s.frozenHeat hi = false)
include hjob hflash hdrive hruns

theorem execLocalFlashWriteDone_badReadBack :
    execLocalFlashWriteDone hi .badReadBack s = .next (((s.bump 7 d.val 4).chargeDrive d).dropFlash hi) := by
  simp only [execLocalFlashWriteDone, himage, hjob, hflash, hdrive, hruns, Bool.false_eq_true, if_false]
theorem execLocalFlashWriteDone_error {e : Fin 2} (hlive : s.driveLive e = true) :
    execLocalFlashWriteDone hi (.error e) s = .next ((s.chargeDrive e).dropFlash hi) := by
  simp only [execLocalFlashWriteDone, himage, hjob, hflash, hdrive, hruns, hlive, Bool.false_eq_true, if_false, if_true]
/-- A header that reads back in order makes its slot VALID, and K is computed anew (R344, R345). -/
theorem execLocalFlashWriteDone_ok :
    let piece := s.ownPiece hi p j 2 w.step
    let t := ((s.countWrite piece.length).bump 7 d.val 1 4096).modStore (fun k => { k with
      slots := k.slots.modify w.slot (fun x => x.done w.step piece), drives := k.drives.map (fun (x : Drive) => { x with fails := 0 }) })
    let u := t.modHeat hi (fun h => { h with ck := { h.ck with flash := none, lastW := s.now - w.since } })
    let v := u.modHeat hi (fun h => { h with ck := { h.ck with k := u.heatK h } })
    execLocalFlashWriteDone hi .ok s = .next ((v.report 0x08 hi.val 0 w.step (natLE 1 2 ++ natLE 4 (v.heat hi).ck.k)).releaseGo hi) := by
  intro piece t u v
  have hnow : (s.countWrite piece.length).now = s.now := (sameCore_countWrite s _).2.2.2.1
  simp only [execLocalFlashWriteDone, himage, hjob, hflash, hdrive, hruns, Bool.false_eq_true, if_false, State.modStore_now, State.bump_now]
  rw [hnow]

end

/-! The shared store (R347). -/

section
variable {j : Job} {w : Writing} (hjob : (s.heat hi).job = some j) (hstore : (s.heat hi).ck.store = some w)
include hjob hstore

/-- A write that fails leaves the other generation as it was. -/
theorem execSharedStoreWriteDone_fails {ok : Bool} (hfails : ok = false ∨ s.storePort = none) :
    execSharedStoreWriteDone hi ok s = .next ((s.modHeat hi (fun h => { h with ck := { h.ck with
      store := none, gens := h.ck.gens.filter (fun g => g.1 != w.slot) } })).releaseGo hi) := by
  have hport : (if ok then s.storePort else none) = none := by
    rcases hfails with rfl | hnone <;> simp [*]
  simp only [execSharedStoreWriteDone, himage, hjob, hstore, hport]
  rfl
/-- The payload leaves before the header, through a live feed port. -/
theorem execSharedStoreWriteDone_sends {f : Fin 2} (hport : s.storePort = some f) :
    let gens := (s.heat hi).ck.gens.filter (fun g => g.1 != w.slot)
    let piece := s.ownPiece hi p j 3 w.step
    let a := (j.storeBase + (s.heat hi).ownId * j.storeStride + w.slot * (j.storeStride / 2)) % 2 ^ 64
    let psns := (s.heat hi).ck.storePsn
    let psn := if f = 0 then psns.1 else psns.2
    let after := psn + ceilDiv (piece.drop 4096).length p.mtu
    let last := (after + ceilDiv 4096 p.mtu) % 2 ^ 24
    let hdr := fun (n : Nat) => s.packetHdr f.val j.storeAddr 0 (0x1800 + 2 * hi.val + f.val) j.storeQpn (n % 2 ^ 24)
    let sent := (s.emit (writePacket (hdr psn) (a + 4096) j.storeRkey (piece.drop 4096))).emit
      (writePacket (hdr after) a j.storeRkey (piece.take 4096))
    let t := (sent.modHeat hi (fun h => { h with ck := { h.ck with
      storePsn := if f = 0 then (last, psns.2) else (psns.1, last) } })).bump 5 f.val 1 piece.length
    let u := t.modHeat hi (fun h => { h with ck := { h.ck with store := none, gens := gens ++ [(w.slot, w.step)] } })
    execSharedStoreWriteDone hi true s =
      .next ((u.report 0x08 hi.val 0 w.step (natLE 1 3 ++ natLE 4 (storeEvery j (s.heat hi).hu.stepWin.2))).releaseGo hi) := by
  simp only [execSharedStoreWriteDone, himage, hjob, hstore, hport, if_true]
  rfl

end

/-! Dumps (R419, R421). -/

/-- The dump of a heat takes its slot, its units resume, and the DECIDEs it held back are acted on. -/
theorem execDumpWritten_resumes {v : DumpView} (hdumping : s.com.store.dumping = some v) (hheat : v.heat = hi.val) :
    let total := 4096 + Config.dumpLen s.free + 32
    let d : Dump := ⟨s.dumpSlot, s.com.store.dumpSeq, s.free, total, min s.dumpCapacity total, v⟩
    let t := (s.countWrite d.len).useFree.modStore (fun k => { k with
      dumping := none, dumpSeq := k.dumpSeq + 1, dumps := k.dumps.filter (fun x => x.slot != d.slot) ++ [d] })
    let u := ((v.clusters.map Prod.fst).foldl (fun (s : State) c => match (List.finRange 64)[c]? with
      | some f => s.modCl f (fun k => { k with frozen := false })
      | none => s) t).bump 9 0 11
    execDumpWritten s = .next (if u.decideWaits hi then u.settleGo hi else u.resumeDecides hi p) := by
  intro total d t u
  have hkept : (u.heat hi).image = some p := by
    have hthawed : u.heat hi = t.heat hi := foldl_thaw_heat (v.clusters.map Prod.fst) t hi
    have hcounted : t.heat hi = s.heat hi := (sameCore_countWrite s d.len).heat hi
    rw [hthawed, hcounted, himage]
  unfold execDumpWritten
  simp only [hdumping, finRange4 hheat]
  change (match (u.heat hi).image with
    | none => Host.Outcome.next u
    | some p => .next (if u.decideWaits hi then u.settleGo hi else u.resumeDecides hi p)) = _
  rw [hkept]

end

/-! Drives and the life log (R331, R332, R417). -/

/-- A heat with a local flash write keeps the drives busy. -/
theorem drives_busy {s : State} {hi : Fin 4} (hflash : (s.heat hi).ck.flash.isSome = true) :
    s.heats.toList.any (fun h => h.ck.flash.isSome) = true :=
  List.any_eq_true.mpr ⟨s.heat hi, by simp [State.heat], hflash⟩
theorem execNvmeTimeout_late {s : State} {hi : Fin 4} {d : Fin 2} (hlive : s.driveLive d = true) (hflash : (s.heat hi).ck.flash.isSome = true) :
    execNvmeTimeout d s =
      .next ((List.finRange 4).foldl (fun s hi => s.dropFlash hi) (((s.reach (s.now + second)).bump 7 d.val 3).chargeDrive d)) :=
  if_pos (by simp only [hlive, drives_busy hflash, Bool.true_or, Bool.and_self])
theorem execLifelogSummary_due {s : State} (hgood : s.com.pw.good = true) (hup : s.com.boot.security = .up) :
    execLifelogSummary s = .next (((s.reach ((s.com.store.summaryAt + 3600 - s.com.store.onBefore) * second)).modStore (fun k => { k with
      summaryAt := k.summaryAt + 3600 })).putSummary) :=
  if_pos (by simp [hgood, hup])

/-- Settles O57: each row by its own lemma. -/
theorem checkpointsAreKept : Obligations.CheckpointsAreKept := by
  intro s hi p himage
  refine ⟨fun n l => execBatonHashDone_hashes himage, fun j w d hjob hflash hdrive hruns => ?_, fun j w ok hjob hstore => execSharedStoreWriteDone_fails himage hjob hstore,
    fun j w f hjob hstore hport => execSharedStoreWriteDone_sends himage hjob hstore hport, fun d => execNvmeTimeout_late, execLifelogSummary_due,
    fun v => execDumpWritten_resumes himage⟩
  exact ⟨execLocalFlashWriteDone_badReadBack himage hjob hflash hdrive hruns,
    fun e => execLocalFlashWriteDone_error himage hjob hflash hdrive hruns, execLocalFlashWriteDone_ok himage hjob hflash hdrive hruns⟩

end Sys2Proof.Machine
end

section
/-! The faults of a media unit (R327, R328): its parts wait again, and the unit is charged. -/
namespace Sys2Proof.Machine

/-! What leaves a unit. -/

/-- A fold of one change over heats changes each of them once. -/
theorem foldl_modHeat (g : Heat → Heat) {l : List (Fin 4)} (hl : l.Nodup) (s : State) (j : Fin 4) :
    (l.foldl (fun s i => s.modHeat i g) s).heat j = if j ∈ l then g (s.heat j) else s.heat j := by
  induction l generalizing s with
  | nil => rfl
  | cons i l ih =>
    obtain ⟨hi, hl⟩ := List.nodup_cons.mp hl
    rw [List.foldl_cons, ih hl, State.heat_modHeat]
    by_cases hij : i = j
    · subst hij
      simp [hi]
    · simp [hij, Ne.symm hij]

/-- A part that leaves a unit waits again from its survey; failed says that it counts as a failure there (R327). -/
def PartSt.leave (u : Nat) (failed : Bool) (q : PartSt) : PartSt :=
  if q.phase = .onUnit u then { q with phase := .waiting, survey := none, got := [], fails := if failed then q.fails ++ [u] else q.fails } else q
theorem PartSt.leave_phase (u : Nat) (failed : Bool) (q : PartSt) : (q.leave u failed).phase ≠ .onUnit u := by
  unfold PartSt.leave
  split
  · exact PartPhase.noConfusion
  · assumption

/-- Every part of a heat has left a unit. -/
def Heat.leaveUnit (u : Nat) (failed : Bool) (h : Heat) : Heat :=
  { h with pipe := { h.pipe with samples := h.pipe.samples.map (fun x => { x with parts := x.parts.map (PartSt.leave u failed) }) } }
theorem abandonUnit_heat (s : State) (u : Nat) (failed : Bool) (hi : Fin 4) :
    (s.abandonUnit u failed).heat hi = Heat.leaveUnit u failed ((s.clearSlots u).heat hi) :=
  (foldl_modHeat (Heat.leaveUnit u failed) (List.nodup_finRange 4) (s.clearSlots u) hi).trans (if_pos (List.mem_finRange hi))
/-- No part stays on a unit that is abandoned. -/
theorem abandonUnit_parts {s : State} {u : Nat} {failed : Bool} {hi : Fin 4} {x : Sample}
    (hx : x ∈ ((s.abandonUnit u failed).heat hi).pipe.samples) {q : PartSt} (hq : q ∈ x.parts) : q.phase ≠ .onUnit u := by
  rw [abandonUnit_heat] at hx
  obtain ⟨y, -, rfl⟩ := List.mem_map.mp hx
  obtain ⟨r, -, rfl⟩ := List.mem_map.mp hq
  exact r.leave_phase u failed

/-- Settles O49: a unit with work that no dump holds takes the row's last branch, and `abandonUnit_parts`. -/
theorem stalledUnitsStartAgain : Obligations.StalledUnitsStartAgain := by
  intro s f why parts runs encs thrice u charged hlive hwork hdump
  refine ⟨?_, fun hi x hx q hq => abandonUnit_parts hx hq⟩
  have hfree : (s.com.store.dumping.map (fun v => v.media.any (fun e => e.1 == f.val))).getD false = false := by
    cases hd : s.com.store.dumping with
    | none => rfl
    | some v => simpa using hdump v hd
  have hbusy : (parts.isEmpty && encs.isEmpty) = false :=
    Bool.and_eq_false_iff.mpr (hwork.imp List.isEmpty_eq_false_iff.mpr List.isEmpty_eq_false_iff.mpr)
  have htaken : ¬ ((s.com.media[f]).retired || (parts.isEmpty && encs.isEmpty) ||
      (s.com.store.dumping.map (fun v => v.media.any (fun e => e.1 == f.val))).getD false) = true := by
    rw [hlive, hbusy, hfree]
    decide
  have hencs : (if encs.isEmpty then u else charged u) = if encs = [] then u else charged u := by
    simp only [List.isEmpty_iff]
  rw [← hencs]
  refine (if_neg htaken).trans ?_
  cases why <;> rfl

end Sys2Proof.Machine
end

section
/-! Every command answers (R196, R217, R218, R386, R433): a next state where its operand has the size its row requires, else the fault. -/
namespace Sys2Proof.Machine

/-! What a row answers. -/

/-- An answer that goes on. -/
def Completes (r : Result) : Prop := ∃ t, r = .next t
theorem Completes.next (t : State) : Completes (.next t) := ⟨t, rfl⟩
theorem Completes.ite {p : Prop} [Decidable p] {q r : Result} (hq : Completes q) (hr : Completes r) : Completes (if p then q else r) := by
  split
  · exact hq
  · exact hr

/-- An answer that goes on where its operand is well formed, and faults where it is not. -/
def Answers (ok : Bool) (r : Result) : Prop := (ok = true → Completes r) ∧ (ok = false → r = .fault .illFormed)
theorem Answers.always {r : Result} (hr : Completes r) : Answers true r := ⟨fun _ => hr, nofun⟩
theorem Answers.of_size {n k : Nat} {r : Result} (hr : Completes r) : Answers (n == k) (if n = k then r else .fault .illFormed) :=
  ⟨fun hok => by rw [if_pos (beq_iff_eq.mp hok)]; exact hr, fun hbad => if_neg (beq_eq_false_iff_ne.mp hbad)⟩
theorem Answers.unless {ok bad : Bool} {r : Result} (hbad : bad = !ok) (hr : Completes r) : Answers ok (if bad then .fault .illFormed else r) := by
  subst hbad
  cases ok
  · exact ⟨nofun, fun _ => rfl⟩
  · exact .always hr

/-! Operations that rows share. -/

section
variable (s : State) (c : Fin 64)

theorem completes_runHead (q : Fin 4) (isRow : Nat → Bool) (go : State → Site → QEntry → State × Nat) : Completes (s.runHead c q isRow go) := by
  unfold State.runHead
  split
  · exact .next s
  · exact .ite (.next _) (.next s)
theorem completes_runMatmul : Completes (s.runMatmul c) := completes_runHead s c _ _ _
theorem completes_runConv (isMode : Nat → Bool) : Completes (s.runConv c isMode) := by
  unfold State.runConv
  split
  · exact .next s
  · exact .ite (.ite (.next _) (.next _)) (.next s)
theorem completes_runVector (isRow : Nat → Bool) (run : EngCtx → Mem → Nat → Except Nat VecOut) : Completes (s.runVector c isRow run) := by
  unfold State.runVector
  split
  · exact .next s
  · refine .ite ?_ (.next s)
    dsimp only
    split
    · exact .next _
    · exact .next _
theorem completes_runReduce (isRop : Nat → Bool) : Completes (s.runReduce c isRop) := completes_runVector s c _ _
theorem completes_runMoverHead (isRow : Nat → Bool) (go : State → Site → QEntry → State × Nat) : Completes (s.runMoverHead c isRow go) :=
  .ite (completes_runHead s c qMover isRow go) (.next s)
theorem completes_runSend (tagFail baton : Bool) : Completes (s.runSend c tagFail baton) := by
  unfold State.runSend
  split
  · exact .next s
  · refine .ite ?_ (.next s)
    dsimp only
    split
    · exact .next _
    · exact .next _
theorem completes_runRecv (tagFail : Bool) (isMode : Nat → Bool) : Completes (s.runRecv c tagFail isMode) := by
  unfold State.runRecv
  split
  · exact .next s
  · refine .ite ?_ (.next s)
    dsimp only
    repeat' split
    all_goals exact .next _
theorem completes_onCore (go : State → Site → RvIns → Nat → State) : Completes (s.onCore c go) := by
  unfold State.onCore
  split
  · exact .next _
  · exact .next s
theorem completes_runBsum (want : Nat) : Completes (s.runBsum c want) := completes_onCore s c _
theorem completes_smbusRead (v : Nat) : Completes (s.smbusRead v) := .ite (.next _) (.next s)
theorem completes_sessionTimeout (conn : Nat) (phase : SessionPhase) : Completes (s.sessionTimeout conn phase) := by
  unfold State.sessionTimeout
  split
  · exact .ite (.next _) (.next s)
  · exact .next s

end

section
variable (s : State) (m : Msg)

theorem answers_takeReq (i : Instr) (go : State → State) : Answers m.wf (s.takeReq m i go) := by
  refine .of_size ?_
  split
  · exact .next s
  · exact .ite (.next _) (.ite (.next s) (.ite (.next _) (.ite (.next _) (.ite (.next _) (.next s)))))
theorem answers_onAttach (phaseOk : Nat → Bool) (go : Session → State) : Answers m.wf (s.onAttach m phaseOk go) := by
  refine .of_size ?_
  split
  · exact .next s
  · exact .ite (.next _) (.ite (.next s) (.ite (.next _) (.next _)))
theorem answers_withFlit (f : FlitRx) (want : Nat → Bytes → Bool) (go : State → Nat → Bytes → Nat → State) : Answers f.wf (s.withFlit f want go) := by
  refine .of_size (.ite (.next s) ?_)
  dsimp only
  split
  · exact .next _
  · exact .next _
theorem answers_withCtl (f : FlitRx) (b : Nat) (go : State → Bytes → State) : Answers f.wf (s.withCtl f b go) := answers_withFlit s f _ _
theorem answers_blockNack (f : FlitRx) : Answers f.wf (execBlockNack f s) := by
  unfold execBlockNack
  exact answers_withCtl s f 4 _

end

/-! Rows with an operand that may be ill formed. -/

section
variable (s : State)

theorem answers_replay (f : FlitRx) : Answers f.wf (execReplay f s) := by
  refine .of_size (.ite (.next s) ?_)
  dsimp only
  repeat' split
  all_goals exact .next _
theorem answers_laneFrame (p : Fin 32) (lane : Fin 8) (hdr : Bytes) (fec : Vector (Option (Fin 16)) 16) :
    Answers (hdr.length == 200) (execLaneFrame p lane hdr fec s) :=
  .of_size (.ite (.next s) (.ite (.ite (.next _) (.next _)) (.next _)))
theorem answers_strapLatch (samples : List Straps) : Answers (samples.length == 8) (execStrapLatch samples s) := by
  refine .of_size (.ite (.next s) ?_)
  cases samples with
  | nil => exact .next _
  | cons x rest => exact .ite (.next _) (.ite (.next _) (.next _))
theorem answers_arpRequest (fp : Fin 2) (target : Bytes) : Answers (target.length == 4) (execArpRequest fp target s) := by
  refine .of_size ?_
  split
  · exact .ite (.next _) (.next s)
  · exact .next s
theorem answers_neighborSolicitation (fp : Fin 2) (target : Bytes) : Answers (target.length == 16) (execNeighborSolicitation fp target s) := by
  refine .of_size ?_
  split
  · exact .ite (.next _) (.next s)
  · exact .next s
theorem answers_pictureDecoded (pair : Fin 8) (read : List Nat) (planes : Option Planes) :
    Answers (planes.all Planes.wf) (execPictureDecoded pair read planes s) := by
  refine .unless rfl ?_
  dsimp only
  repeat' split
  all_goals exact .next _
theorem answers_partDecoded (hi : Fin 4) (i n : Nat) (out : Decoded) : Answers out.wf (execPartDecoded hi i n out s) := by
  refine .unless rfl ?_
  dsimp only
  repeat' split
  all_goals exact .next _
theorem answers_memReadDecode (hi : Fin 4) (granule : Nat) (reads : List GranuleRead) (reader : Option (Fin 64 × Fin 4)) :
    Answers (reads.all GranuleRead.wf && !reads.isEmpty) (execMemReadDecode hi granule reads reader s) := by
  refine .unless (by simp) ?_
  dsimp only
  repeat' split
  all_goals exact .next _

end

/-! Rows without one, which look up what they act on: each case goes on. -/

section
variable (s : State)

theorem completes_execLeaseExpiry (conn : Nat) : Completes (execLeaseExpiry conn s) := by
  unfold execLeaseExpiry
  repeat' split
  all_goals exact .next _
theorem completes_execOrphanGraceExpiry : Completes (execOrphanGraceExpiry s) := by
  unfold execOrphanGraceExpiry
  dsimp only
  repeat' split
  all_goals exact .next _
theorem completes_execHurdle (c : Fin 64) : Completes (execHurdle c s) := by
  unfold execHurdle
  repeat' split
  all_goals exact .next _
theorem completes_execPortRetrainTimeout (p : Fin 32) : Completes (execPortRetrainTimeout p s) := by
  unfold execPortRetrainTimeout
  dsimp only
  repeat' split
  all_goals exact .next _
theorem completes_execAckFlush (h : Fin 4) (dest : Nat) : Completes (execAckFlush h dest s) := by
  unfold execAckFlush
  repeat' split
  all_goals exact .next _
theorem completes_execLandingWrite (h : Fin 4) (tagFail : Bool) : Completes (execLandingWrite h tagFail s) := by
  unfold execLandingWrite
  repeat' split
  all_goals exact .next _
theorem completes_execTableInstall (p : Fin 32) : Completes (execTableInstall p s) := by
  unfold execTableInstall
  dsimp only
  repeat' split
  all_goals exact .next _
theorem completes_execDecideTimeout (h : Fin 4) : Completes (execDecideTimeout h s) := by
  unfold execDecideTimeout
  dsimp only
  repeat' split
  all_goals exact .next _
theorem completes_execHeldTooLong (h : Fin 4) : Completes (execHeldTooLong h s) := by
  unfold execHeldTooLong
  dsimp only
  repeat' split
  all_goals exact .next _
theorem completes_execFlashReadDone (readOk sigA sigB : Bool) : Completes (execFlashReadDone readOk sigA sigB s) := by
  unfold execFlashReadDone
  dsimp only
  repeat' split
  all_goals exact .next _
theorem completes_execStreamFetch (c : Fin 64) : Completes (execStreamFetch c s) := by
  unfold execStreamFetch
  dsimp only
  repeat' split
  all_goals exact .next _
theorem completes_execEncodeRequestStart (c : Fin 64) : Completes (execEncodeRequestStart c s) := by
  unfold execEncodeRequestStart
  dsimp only
  repeat' split
  all_goals exact .next _
theorem completes_execEncodeComplete (c : Fin 64) (tagFail : Bool) : Completes (execEncodeComplete c tagFail s) := by
  unfold execEncodeComplete
  dsimp only
  repeat' split
  all_goals exact .next _
theorem completes_execControlCoreInstruction (c : Fin 64) : Completes (execControlCoreInstruction c s) := by
  unfold execControlCoreInstruction
  dsimp only
  repeat' split
  all_goals exact .next _
theorem completes_execCoreRestartDone (core : CoreId) (ok : Bool) : Completes (execCoreRestartDone core ok s) := by
  unfold execCoreRestartDone
  dsimp only
  repeat' split
  all_goals exact .next _
theorem completes_execProgressHang (u : HangUnit) : Completes (execProgressHang u s) := by
  unfold execProgressHang
  dsimp only
  repeat' split
  all_goals exact .next _
theorem completes_execIntraClusterDeadlock (c : Fin 64) : Completes (execIntraClusterDeadlock c s) := by
  unfold execIntraClusterDeadlock
  dsimp only
  repeat' split
  all_goals exact .next _
theorem completes_execDumpWritten : Completes (execDumpWritten s) := by
  unfold execDumpWritten
  dsimp only
  repeat' split
  all_goals exact .next _
theorem completes_execBatonHashDone (hi : Fin 4) : Completes (execBatonHashDone hi s) := by
  unfold execBatonHashDone
  repeat' split
  all_goals exact .next _
theorem completes_execLocalFlashWriteDone (hi : Fin 4) (result : FlashResult) : Completes (execLocalFlashWriteDone hi result s) := by
  unfold execLocalFlashWriteDone
  dsimp only
  repeat' split
  all_goals exact .next _
theorem completes_execSharedStoreWriteDone (hi : Fin 4) (ok : Bool) : Completes (execSharedStoreWriteDone hi ok s) := by
  unfold execSharedStoreWriteDone
  dsimp only
  repeat' split
  all_goals exact .next _
theorem completes_execSurvey (hi : Fin 4) (i n : Nat) (out : SurveyOut) : Completes (execSurvey hi i n out s) := by
  unfold execSurvey
  dsimp only
  repeat' split
  all_goals exact .next _
theorem completes_execMigrationLine (ch : Fin 96) (unreadable : List Nat) : Completes (execMigrationLine ch unreadable s) := by
  unfold execMigrationLine
  dsimp only
  repeat' split
  all_goals exact .next _
theorem completes_execServiceAdmit (ch : Fin 96) (repair programWaiting : Bool) (granules : Nat) : Completes (execServiceAdmit ch repair programWaiting granules s) := by
  unfold execServiceAdmit
  repeat' split
  all_goals exact .next _
theorem completes_execJogToWalk (c : Fin 64) : Completes (execJogToWalk c s) := by
  unfold execJogToWalk
  dsimp only
  repeat' split
  all_goals exact .next _
theorem completes_execPacingEntryDone (c : Fin 64) : Completes (execPacingEntryDone c s) := by
  unfold execPacingEntryDone
  dsimp only
  repeat' split
  all_goals exact .next _
theorem completes_execExitTimer (c : Fin 64) : Completes (execExitTimer c s) := by
  unfold execExitTimer
  repeat' split
  all_goals exact .next _
theorem completes_execPacingExitDone (c : Fin 64) : Completes (execPacingExitDone c s) := by
  unfold execPacingExitDone
  repeat' split
  all_goals exact .next _
theorem completes_execShedRound : Completes (execShedRound s) := by
  unfold execShedRound
  dsimp only
  repeat' split
  all_goals exact .next _
theorem completes_execSensorRead (quarterC : List Int) (boardQuarterC : Int) : Completes (execSensorRead quarterC boardQuarterC s) := by
  unfold execSensorRead
  dsimp only
  repeat' split
  all_goals exact .next _
theorem completes_execClockLossTimeout : Completes (execClockLossTimeout s) := by
  unfold execClockLossTimeout
  repeat' split
  all_goals exact .next _
theorem completes_execSampleFetch (hi : Fin 4) : Completes (execSampleFetch hi s) := by
  unfold execSampleFetch
  repeat' split
  all_goals exact .next _
theorem completes_execRdmaReadResponse (hi : Fin 4) (fp : Fin 2) (server : Fin 64) (data : Bytes) (nak : Bool) (bad : Option FrameFault) : Completes (execRdmaReadResponse hi fp server data nak bad s) := by
  unfold execRdmaReadResponse
  dsimp only
  repeat' split
  all_goals exact .next _
theorem completes_execRecordLanded (hi : Fin 4) (i : Nat) : Completes (execRecordLanded hi i s) := by
  unfold execRecordLanded
  dsimp only
  repeat' split
  all_goals exact .next _
theorem completes_execAckTimeout (hi : Fin 4) (fp : Fin 2) (server : Fin 64) : Completes (execAckTimeout hi fp server s) := by
  unfold execAckTimeout
  dsimp only
  repeat' split
  all_goals exact .next _
theorem completes_execNakRetry (hi : Fin 4) (fp : Fin 2) (server : Fin 64) : Completes (execNakRetry hi fp server s) := by
  unfold execNakRetry
  dsimp only
  repeat' split
  all_goals exact .next _
theorem completes_execCePacket (hi : Fin 4) (fp : Fin 2) (server : Fin 64) : Completes (execCePacket hi fp server s) := by
  unfold execCePacket
  dsimp only
  repeat' split
  all_goals exact .next _
theorem completes_execRateRecovery (hi : Fin 4) (fp : Fin 2) (server : Fin 64) : Completes (execRateRecovery hi fp server s) := by
  unfold execRateRecovery
  dsimp only
  repeat' split
  all_goals exact .next _
theorem completes_execSamplePost (hi : Fin 4) : Completes (execSamplePost hi s) := by
  unfold execSamplePost
  dsimp only
  repeat' split
  all_goals exact .next _
theorem completes_execIdent : Completes (execIdent s) := by
  unfold execIdent
  split
  · exact completes_smbusRead s _
  · exact completes_smbusRead s.useFree _
theorem completes_execAlertResponse : Completes (execAlertResponse s) := by
  unfold execAlertResponse
  refine .ite ?_ (.next s)
  split
  · exact completes_smbusRead s _
  · exact completes_smbusRead s.useFree _

end

/-- Every command answers as its operand says: one arm for each row of Dispatch. -/
theorem exec_answers (i : Instr) (s : State) : Answers i.wf (exec i s) :=
  match i with
  | .matmul _ => .always (completes_runMatmul s _)
  | .convFwd c => .always (show Completes (execConvFwd c s) from completes_runConv s _ _)
  | .convDgrad c => .always (show Completes (execConvDgrad c s) from completes_runConv s _ _)
  | .convWgrad c => .always (show Completes (execConvWgrad c s) from completes_runConv s _ _)
  | .maxpool c => .always (show Completes (execMaxpool c s) from completes_runConv s _ _)
  | .avgpool c => .always (show Completes (execAvgpool c s) from completes_runConv s _ _)
  | .vec c => .always (show Completes (execVec c s) from completes_runVector s _ _ _)
  | .sum c => .always (show Completes (execSum c s) from completes_runReduce s _ _)
  | .sumsq c => .always (show Completes (execSumsq c s) from completes_runReduce s _ _)
  | .reduceMax c => .always (show Completes (execReduceMax c s) from completes_runReduce s _ _)
  | .reduceMin c => .always (show Completes (execReduceMin c s) from completes_runReduce s _ _)
  | .meanvar c => .always (show Completes (execMeanvar c s) from completes_runReduce s _ _)
  | .softmax c => .always (show Completes (execSoftmax c s) from completes_runReduce s _ _)
  | .softmaxBwd c => .always (show Completes (execSoftmaxBwd c s) from completes_runReduce s _ _)
  | .gather _ => .always (completes_runMoverHead s _ _ _)
  | .store _ _ => .always (completes_runMoverHead s _ _ _)
  | .fadd _ _ => .always (completes_runMoverHead s _ _ _)
  | .iadd _ _ => .always (completes_runMoverHead s _ _ _)
  | .imax _ _ => .always (completes_runMoverHead s _ _ _)
  | .imin _ _ => .always (completes_runMoverHead s _ _ _)
  | .plain _ _ => .always (completes_runMoverHead s _ _ _)
  | .kvRead _ => .always (completes_runMoverHead s _ _ _)
  | .kvWrite _ _ => .always (completes_runMoverHead s _ _ _)
  | .alloc _ _ => .always (completes_runMoverHead s _ _ _)
  | .share _ _ => .always (completes_runMoverHead s _ _ _)
  | .cow _ _ => .always (completes_runMoverHead s _ _ _)
  | .free _ _ => .always (completes_runMoverHead s _ _ _)
  | .send _ _ => .always (completes_runSend s _ _ _)
  | .sendBaton _ _ => .always (completes_runSend s _ _ _)
  | .wait c => .always (show Completes (execWait c s) from completes_runRecv s _ _ _)
  | .combineLeft c tagFail => .always (show Completes (execCombineLeft c tagFail s) from completes_runRecv s _ _ _)
  | .combineRight c tagFail => .always (show Completes (execCombineRight c tagFail s) from completes_runRecv s _ _ _)
  | .hurdle c => .always (completes_execHurdle s c)
  | .blkIssue c => .always (show Completes (execBlkIssue c s) from completes_onCore s _ _)
  | .streamFetch c => .always (completes_execStreamFetch s c)
  | .encIssue c => .always (show Completes (execEncIssue c s) from completes_onCore s _ _)
  | .encWait c => .always (show Completes (execEncWait c s) from completes_onCore s _ _)
  | .encodeRequestStart c => .always (completes_execEncodeRequestStart s c)
  | .encodeComplete c tagFail => .always (completes_execEncodeComplete s c tagFail)
  | .sumGet c => .always (show Completes (execSumGet c s) from completes_onCore s _ _)
  | .bsumFlt _ => .always (completes_runBsum s _ _)
  | .bsumFge _ => .always (completes_runBsum s _ _)
  | .bsumFeq _ => .always (completes_runBsum s _ _)
  | .bsumFne _ => .always (completes_runBsum s _ _)
  | .bsumNan _ => .always (completes_runBsum s _ _)
  | .bsumUlt _ => .always (completes_runBsum s _ _)
  | .bsumUge _ => .always (completes_runBsum s _ _)
  | .tcpConnect _ _ _ => .always (.ite (.next _) (.ite (.next _) (.next _)))
  | .tcpLoss _ => .always (.ite (.next _) (.next _))
  | .attachPhase0 m => show Answers m.wf (execAttachPhase0 m s) from answers_onAttach s _ _ _
  | .attachPhase1 m sigOk decapOk => show Answers m.wf (execAttachPhase1 m sigOk decapOk s) from answers_onAttach s _ _ _
  | .listenTimeout _ => .always (completes_sessionTimeout s _ _)
  | .challengedTimeout _ => .always (completes_sessionTimeout s _ _)
  | .leaseExpiry conn => .always (completes_execLeaseExpiry s conn)
  | .orphanGraceExpiry => .always (completes_execOrphanGraceExpiry s)
  | .detach _ => answers_takeReq s _ _ _
  | .loadFw _ _ => answers_takeReq s _ _ _
  | .writeConfig _ _ => answers_takeReq s _ _ _
  | .resetHeat _ => answers_takeReq s _ _ _
  | .resetModule _ => answers_takeReq s _ _ _
  | .loadImage _ => answers_takeReq s _ _ _
  | .start _ => answers_takeReq s _ _ _
  | .stopAtHurdle _ => answers_takeReq s _ _ _
  | .checkpointNow _ => answers_takeReq s _ _ _
  | .rearm _ => answers_takeReq s _ _ _
  | .queryStatus _ => answers_takeReq s _ _ _
  | .queryInventory _ => answers_takeReq s _ _ _
  | .queryAttest _ => answers_takeReq s _ _ _
  | .snapshot _ => answers_takeReq s _ _ _
  | .splits _ => answers_takeReq s _ _ _
  | .queryDump _ => answers_takeReq s _ _ _
  | .readLifelog _ => answers_takeReq s _ _ _
  | .join f => show Answers f.wf (execJoin f s) from answers_withFlit s _ _ _
  | .arrive f => show Answers f.wf (execArrive f s) from answers_withFlit s _ _ _
  | .hold f => show Answers f.wf (execHold f s) from answers_withFlit s _ _ _
  | .request f => show Answers f.wf (execRequest f s) from answers_withFlit s _ _ _
  | .decideGo f => show Answers f.wf (execDecideGo f s) from answers_withFlit s _ _ _
  | .decideFalseStart f => show Answers f.wf (execDecideFalseStart f s) from answers_withFlit s _ _ _
  | .decideStop f => show Answers f.wf (execDecideStop f s) from answers_withFlit s _ _ _
  | .feedQuery f => show Answers f.wf (execFeedQuery f s) from answers_withFlit s _ _ _
  | .feedReply f => show Answers f.wf (execFeedReply f s) from answers_withFlit s _ _ _
  | .arrival _ => .always (.ite (.next _) (.next _))
  | .windowExpiry _ => .always (.ite (.next _) (.next _))
  | .joinLate _ => .always (.ite (.next _) (.next _))
  | .decideTimeout hi => .always (completes_execDecideTimeout s hi)
  | .heldTooLong hi => .always (completes_execHeldTooLong s hi)
  | .laneFrame p lane hdr fec => answers_laneFrame s p lane hdr fec
  | .dataFlit f => show Answers f.wf (execDataFlit f s) from answers_withFlit s _ _ _
  | .idle f => show Answers f.wf (execIdle f s) from answers_withFlit s _ _ _
  | .replay f => answers_replay s f
  | .replayTimeout _ => .always (.ite (.next _) (.next _))
  | .ack f => show Answers f.wf (execAck f s) from answers_withFlit s _ _ _
  | .ackFlush hi dest => .always (completes_execAckFlush s hi dest)
  | .landingWrite hi tagFail => .always (completes_execLandingWrite s hi tagFail)
  | .hello f => show Answers f.wf (execHello f s) from answers_withFlit s _ _ _
  | .table f => show Answers f.wf (execTable f s) from answers_withCtl s _ _ _
  | .tableInstall p => .always (completes_execTableInstall s p)
  | .tableAck f => show Answers f.wf (execTableAck f s) from answers_withCtl s _ _ _
  | .blockNack f => answers_blockNack s f
  | .laneRetire f => show Answers f.wf (execLaneRetire f s) from answers_withCtl s _ _ _
  | .laneAck f => show Answers f.wf (execLaneAck f s) from answers_withCtl s _ _ _
  | .subRetire f => show Answers f.wf (execSubRetire f s) from answers_withCtl s _ _ _
  | .subAck f => show Answers f.wf (execSubAck f s) from answers_withCtl s _ _ _
  | .portRetrainTimeout p => .always (completes_execPortRetrainTimeout s p)
  | .laneTraining _ _ _ => .always (.ite (.next _) (.ite (.next _) (.next _)))
  | .memReadDecode hi granule reads reader => answers_memReadDecode s hi granule reads reader
  | .migrationLine ch unreadable => .always (completes_execMigrationLine s ch unreadable)
  | .eccCountPoll _ => .always (.ite (.next _) (.next _))
  | .dqsTracking => .always (.ite (.next _) (.next _))
  | .memTraining _ _ => .always (.ite (.next _) (.ite (.next _) (.next _)))
  | .serviceAdmit ch repair programWaiting granules => .always (completes_execServiceAdmit s ch repair programWaiting granules)
  | .sampleFetch hi => .always (completes_execSampleFetch s hi)
  | .rdmaReadResponse hi fp server data nak bad => .always (completes_execRdmaReadResponse s hi fp server data nak bad)
  | .recordLanded hi sample => .always (completes_execRecordLanded s hi sample)
  | .ackTimeout hi fp server => .always (completes_execAckTimeout s hi fp server)
  | .nakRetry hi fp server => .always (completes_execNakRetry s hi fp server)
  | .cePacket hi fp server => .always (completes_execCePacket s hi fp server)
  | .cnpReceived _ _ _ => .always (.ite (.next _) (.next _))
  | .rateRecovery hi fp server => .always (completes_execRateRecovery s hi fp server)
  | .arpRequest fp target => answers_arpRequest s fp target
  | .neighborSolicitation fp target => answers_neighborSolicitation s fp target
  | .feedPortLinkDown _ => .always (.ite (.next _) (.next _))
  | .partDecoded hi sample partNo out => answers_partDecoded s hi sample partNo out
  | .samplePost hi => .always (completes_execSamplePost s hi)
  | .survey hi sample partNo out => .always (completes_execSurvey s hi sample partNo out)
  | .pictureDecoded pair read planes => answers_pictureDecoded s pair read planes
  | .mediaWatchdog _ _ => .always (.ite (.next _) (.next _))
  | .pwrEnRise _ => .always (.ite (.next _) (.next _))
  | .railStep => .always (.ite (.next _) (.next _))
  | .railFailure => .always (.ite (.next _) (.next _))
  | .pwrEnFall => .always (.ite (.next _) (.next _))
  | .brownOut _ => .always (.ite (.ite (.next _) (.next _)) (.next _))
  | .brownOutEnd _ => .always (.ite (.next _) (.next _))
  | .inputUndervoltage _ => .always (.ite (.next _) (.next _))
  | .inputOvervoltage _ => .always (.ite (.next _) (.next _))
  | .inputRecovery _ => .always (.ite (.ite (.next _) (.next _)) (.next _))
  | .powerAverage _ _ => .always (.ite (.next _) (.ite (.next _) (.next _)))
  | .shedRound => .always (completes_execShedRound s)
  | .hardwareLimit _ => .always (.ite (.next _) (.ite (.next _) (.ite (.next _) (.next _))))
  | .heartbeatLapse => .always (.ite (.next _) (.next _))
  | .sensorRead quarterC boardQuarterC => .always (completes_execSensorRead s quarterC boardQuarterC)
  | .thermalTrip _ => .always (.ite (.next _) (.next _))
  | .clockLoss => .always (.ite (.next _) (.next _))
  | .clockReturn => .always (.ite (.next _) (.next _))
  | .clockLossTimeout => .always (completes_execClockLossTimeout s)
  | .clusterIdle _ => .always (.ite (.next _) (.next _))
  | .paceEvaluate _ _ _ => .always (.ite (.next _) (.next _))
  | .jogToWalk c => .always (completes_execJogToWalk s c)
  | .pacingEntryDone c => .always (completes_execPacingEntryDone s c)
  | .exitTimer c => .always (completes_execExitTimer s c)
  | .wakeLine _ _ => .always (.ite (.next _) (.next _))
  | .pacingExitDone c => .always (completes_execPacingExitDone s c)
  | .pwrGood => .always (.ite (.next _) (.next _))
  | .strapLatch samples => answers_strapLatch s samples
  | .flashReadDone readOk sigA sigB => .always (completes_execFlashReadDone s readOk sigA sigB)
  | .nvmeReadyTimeout _ => .always (.ite (.next _) (.next _))
  | .ready => .always (.ite (.next _) (.next _))
  | .parityError _ => .always (.ite (.next _) (.next _))
  | .controlCoreCrash _ => .always (.next _)
  | .schedulerCrash => .always (.ite (.next _) (.next _))
  | .powerCoreCrash => .always (.ite (.next _) (.next _))
  | .securityCoreCrash => .always (.ite (.next _) (.next _))
  | .coreRestartDone core ok => .always (completes_execCoreRestartDone s core ok)
  | .batonHashDone hi => .always (completes_execBatonHashDone s hi)
  | .localFlashWriteDone hi result => .always (completes_execLocalFlashWriteDone s hi result)
  | .sharedStoreWriteDone hi ok => .always (completes_execSharedStoreWriteDone s hi ok)
  | .nvmeTimeout _ => .always (.ite (.next _) (.next _))
  | .lifelogSummary => .always (.ite (.next _) (.next _))
  | .progressHang u => .always (completes_execProgressHang s u)
  | .intraClusterDeadlock c => .always (completes_execIntraClusterDeadlock s c)
  | .dumpWritten => .always (completes_execDumpWritten s)
  | .state => .always (completes_smbusRead s _)
  | .vin => .always (completes_smbusRead s _)
  | .pin => .always (completes_smbusRead s _)
  | .tjMax => .always (completes_smbusRead s _)
  | .tBoard => .always (completes_smbusRead s _)
  | .ident => .always (completes_execIdent s)
  | .alertCause => .always (.ite (.next _) (.next _))
  | .part => .always (completes_smbusRead s _)
  | .railFail => .always (completes_smbusRead s _)
  | .alertResponse => .always (completes_execAlertResponse s)
  | .bypass _ => .always (.ite (.next _) (.next _))
  | .samplePreload _ => .always (.ite (.next _) (.next _))
  | .extest => .always (.next _)
  | .idcode => .always (.next _)
  | .highz => .always (.next _)
  | .clamp => .always (.next _)
  | .standbyRailRise => .always (.ite (.next _) (.next _))
  | .standbyRailLoss => .always (.ite (.next _) (.next _))
  | .managementPortLinkUp => .always (.ite (.next _) (.next _))
  | .feedPortLinkUp _ => .always (.ite (.next _) (.next _))
  | .nvmeDriveReady _ => .always (.ite (.next _) (.next _))
  | .controlCoreInstruction c => .always (completes_execControlCoreInstruction s c)
  | .perBankRefresh _ _ => .always (.next _)

/-- Settles O4: `exec_answers`. -/
theorem wellFormedCommandsComplete : Obligations.WellFormedCommandsComplete := exec_answers

end Sys2Proof.Machine
end
